-- ==== Sys2Proof/Word.lean ====
section
/-! DEFINITION. Word.lean: the widths the spec gives the part's data (00_scope.md, Conventions). -/

namespace Sys2Proof

/-- One byte of the Common Area or of a field-line frame. -/
abbrev Byte := BitVec 8

/-- A 32-bit register, number or word of the Common Area. -/
abbrev Word := BitVec 32

/-- The 32-bit unsigned tick count and every tick taken from it (R47): one tick is 100 ms, and the count wraps. -/
abbrev Tick := BitVec 32

end Sys2Proof
end

