-- ==== Sys2Proof/Syntax.lean ====
section
/-! DEFINITION. Syntax.lean: the commands of the block, one constructor per row of spec/opcode_table.json, with the
operands the spec gives the row. What the server's memory answers to a read comes in as the bytes of that read, and
what a drop answers as the bytes of its reply, laid out as 12_layouts.md says. -/

namespace Sys2Proof

/-- The two field lines, numbered 0 and 1. -/
inductive LineId where
  | l0 | l1
  deriving DecidableEq, Repr

/-- The two blocks of the part that make bus-master transactions (R161). -/
inductive Requester where
  | area | journal
  deriving DecidableEq, Repr

/-- The registers of the window a write to which has no effect (R170). -/
inductive ReadOnlyRegister where
  | ident | status | attentionState
  deriving DecidableEq, Repr

/-- The two halves of the area base (R170). -/
inductive BaseHalf where
  | low | high
  deriving DecidableEq, Repr

/-- The three kinds of delivery message, which keep a delivery record (R82). -/
inductive DeliveryKind where
  | page | remind | arrivalCheck
  deriving DecidableEq, Repr

/-- The key of a delivery record: call tag, member index, kind (R83). -/
structure RecordKey where
  tag : Nat
  member : Nat
  kind : DeliveryKind
  deriving DecidableEq, Repr

/-- The commands of the block: the rows of spec/opcode_table.json, in its order.
A CONTROL write is one of the six rows of a defined code, or `controlWriteUndefinedCommand`; its NUDGE bit is the operand
`nudge` of that row (R171). The row NUDGE is the NUDGE bit alone. -/
inductive Instr where
  | fullReset
  | start (nudge : Bool)
  | pause (nudge : Bool)
  | resume (nudge : Bool)
  | stop (nudge : Bool)
  | resetEngine (nudge : Bool)
  | commandNone (nudge : Bool)
  | nudge
  | areaBaseWrite (half : BaseHalf) (value : Word)
  | attentionEventWrite (value : Word)
  | attentionMaskWrite (value : Word)
  | attentionForceWrite (value : Word)
  | registerWriteNoEffect (register : ReadOnlyRegister) (value : Word)
  | tick
  | rungDeadlineExpiry (context : Nat)
  | turnExpiry (context : Nat)
  | firstArrivalWindowExpiry (context : Nat)
  | secondArrivalWindowExpiry (context : Nat)
  | receiptWindowExpiry (key : RecordKey)
  | remindIntervalExpiry (context : Nat) (member : Nat)
  | retryWindowExpiry (key : RecordKey)
  | scanTimerExpiry
  | stoppingLimitExpiry
  | busErrorCompletion (who : Requester)
  | busCompletionTimeout (who : Requester)
  /-- the 256 bytes of the header -/
  | loadHeaderReadDone (data : List Byte)
  /-- the 128 bytes of the settings block -/
  | loadSettingsReadDone (data : List Byte)
  /-- the bytes of the zone, crew, ladder and roster tables -/
  | loadTablesReadDone (zones crews ladders roster : List Byte)
  /-- the 64 bytes of each slot's host part, in ascending slot number -/
  | loadSlotBaselineReadDone (hosts : List (List Byte))
  | loadSlotWriteDone
  | loadHeaderWriteDone
  /-- the 32 bytes of the header's server fields, 0x50 to 0x6F -/
  | scanHeaderReadDone (data : List Byte)
  /-- the 32 bytes of the header's table directory, 0x30 to 0x4F -/
  | reloadDirectoryReadDone (data : List Byte)
  /-- the bytes of the zone, crew, ladder and roster tables -/
  | reloadTablesReadDone (zones crews ladders roster : List Byte)
  | reloadGenerationReadDone (generation : Word)
  /-- the 64 bytes of the slot's host part -/
  | slotHostReadDone (data : List Byte)
  /-- the 24 bytes of the descriptor -/
  | descriptorStateReadDone (data : List Byte)
  | slotImageWriteDone
  | memberEntryWriteDone
  | dropEntryWriteDone
  | headerDeviceWriteDone
  /-- the 24 bytes of the descriptor -/
  | descriptorTakeReadDone (data : List Byte)
  | descriptorTakeWriteDone
  | journalRecordWriteDone
  | fillCountWriteDone
  | descriptorCloseWriteDone
  | breakEnd (line : LineId)
  | restartWaitEnd (line : LineId)
  | restartFrameWaitEnd (line : LineId)
  | exchangeStart (line : LineId)
  | downFrameEnd (line : LineId)
  /-- `turn`: whole bit times from the last stop bit of the down frame to the reply's first start bit (R124) -/
  | replyStart (line : LineId) (turn : Nat)
  /-- `frame`: the bytes of the reply, sync and CRC included -/
  | replyComplete (line : LineId) (frame : List Byte)
  | replyTimeout (line : LineId)
  | probeTimeout (line : LineId)
  | replySlotEnd (line : LineId)
  | emptySlotEnd (line : LineId)
  | controlWriteUndefinedCommand (code : BitVec 4) (nudge : Bool)
  | replyNotSync (line : LineId)
  deriving DecidableEq, Repr

end Sys2Proof
end

