-- ==== Sys2Proof/Decode.lean ====
section
/-! DEFINITION. Decode.lean: the block fetches no instruction, and no row of spec/opcode_table.json gives bits. -/

namespace Sys2Proof

/-- The command that a word spells by the table's bits: none, because no row of spec/opcode_table.json gives any bits
(each row's "fields" is empty and no row has a pattern). -/
def decodeTableWord (_nbits _w : Nat) : Option Instr := none

end Sys2Proof
end

