-- ==== Sys2Proof/Config.lean ====
section
/-! DEFINITION. Config.lean: what the part fixes (the constants the spec states), and the FREE VALUES: constants with no
body, which stand for the values the spec leaves open, so that nothing can be proved of them. -/

namespace Sys2Proof.Config

/-- IDENT: part 2416, revision 3 (R170). -/
def ident : Word := 0x24160003#32

/-- The header's signature, the bytes "NRS1" (R149, R150). -/
def signature : Nat := 0x3153524E

/-- The area size may be at most 4 MiB (R150, check 3). -/
def maxAreaSize : Nat := 4194304

/-- The header is 256 bytes long (12.2). -/
def headerSize : Nat := 256

/-- The settings block is 128 bytes long (R150). -/
def settingsSize : Nat := 128

/-- Contexts 0 to 63 serve the slots, and context 64 is the fallback context (chapter 1.3). -/
def fallbackContext : Nat := 64

/-- An air queue holds at most 16 entries (R84). -/
def queueCapacity : Nat := 16

/-- A contacted list holds at most 24 entries (R31). -/
def contactedCapacity : Nat := 24

/-- A rung makes at most 16 members current in one pass (R31, R46). -/
def rungCapacity : Nat := 16

/-- The pending list of the Journal Writer holds at most 64 records (R164). -/
def pendingCapacity : Nat := 64

/-- The skipped count holds at 65,535 (R165). -/
def skippedLimit : Nat := 65535

/-- STOPPING ends 20 ticks after the STOP at the latest (R174). -/
def stoppingLimit : Nat := 20

/-- A SILENT drop is probed every 32 exchanges (R126). -/
def probeSpacing : Nat := 32

/-- The most one event of the block is let run at a time, in the model's internal steps. DESIGN CHOICE (log 5): work left
over when it is used up stays in State and goes on with the next command, so no work is lost. -/
def workLimit : Nat := 1000000

/-- FREE VALUE (log 7): which bytes of a bus-master write that completed with error reached server memory; the first
argument is the draw, the second the byte's place in the write. -/
opaque faultedByte : Nat → Nat → Bool

/-- FREE VALUE (log 8): the severity a CANCEL or CONFIRM of an ended call takes when it is re-routed, less 1, modulo 4. -/
opaque orphanSeverity : Nat → Nat

/-- FREE VALUE (log 8): the age in seconds that such a message takes, modulo 500. -/
opaque orphanAge : Nat → Nat

/-- FREE VALUE (log 9): the four bits in which a target kind of 16 or more is carried, modulo 16. -/
opaque packedKind : Nat → Nat

/-- FREE VALUE (log 9): the twelve bits in which a target number of 4,096 or more is carried, modulo 4,096. -/
opaque packedNumber : Nat → Nat

/-- FREE VALUE (log 10): the down sequence bit of a RESTART frame, which carries no drop's set. -/
opaque restartDownBit : Bool

/-- FREE VALUE (log 10): the up-acknowledge bit of a RESTART frame, which acknowledges no drop's reports. -/
opaque restartUpBit : Bool

/-- FREE VALUE (log 10): the three lamp command bits of a RESTART frame, which is no station's and no transmitter's. -/
opaque restartLamps : BitVec 3

end Sys2Proof.Config
end

