-- ==== Sys2Proof/Machine/State.lean ====
section
/-! DEFINITION. Machine/State.lean: every piece of state the spec gives the part, as plain data, and the state after a
full reset. INVENTORY.md lists each field with the rule that names it. Enumerations keep the order of 12.9, so that a
constructor's place is its encoding (Machine/Layouts.lean states each encoding). -/

namespace Sys2Proof.Machine

/-- The six engine states (chapter 11.2). -/
inductive EngineState where
  | idle | loading | running | paused | stopping | failed
  deriving DecidableEq, Repr

/-- The load error code of STATUS (R150, R152, R154). -/
inductive LoadError where
  | none | badSignature | badVersion | outOfArea | countOutOfRange | memoryFault
  deriving DecidableEq, Repr

/-- The commands of CONTROL, as its readback shows them (R171). -/
inductive Command where
  | none | start | pause | resume | stop | resetEngine
  deriving DecidableEq, Repr

/-- The causes of ATTENTION EVENT, MASK and FORCE, bit 0 first (12.1). -/
inductive Cause where
  | callEnded | callHeld | escalated | overdue | exhausted | arrivalOverdue | journalMark | journalStalled
  | serverLost | serverBack | fieldFault | memoryFault | engineChange | controlRefused
  deriving DecidableEq, Repr

/-- The state of a slot's call (chapter 1.1). -/
inductive SlotState where
  | empty | waiting | paging | held | accepted | onSite | cleared | withdrawn | exhausted | rejected | abandoned
  deriving DecidableEq, Repr

/-- The state of a call context (chapter 1.3). -/
inductive CallState where
  | free | paging | held | accepted | onSite
  deriving DecidableEq, Repr

/-- Why a call ended (R21). -/
inductive Reason where
  | none | clearedByMember | clearedByStation | controlRoom | withdrawn | slotLost | ladderExhausted | engineStopped
  | badSeverity | badZone | duplicate
  deriving DecidableEq, Repr

/-- The result of a slot's request (R13). -/
inductive RequestResult where
  | none | done | wrongState | badValue
  deriving DecidableEq, Repr

/-- The result of a line request (R137). -/
inductive LineResult where
  | none | done | busy | wrongState | badValue
  deriving DecidableEq, Repr

/-- The states of a field line (R120). -/
inductive LineState where
  | off | restarting | running
  deriving DecidableEq, Repr

/-- The kind of a drop in the drop list (chapter 7.2). -/
inductive DropKind where
  | unused | transmitter | station
  deriving DecidableEq, Repr

/-- The states of a drop (chapter 7.2). -/
inductive DropState where
  | unused | unknown | ready | silent | isolated
  deriving DecidableEq, Repr

/-- The cause of a drop's last state change (R123, R160). -/
inductive DropCause where
  | none | probeOk | probeFailed | kindMismatch | misses | babble | coldRestart | restore
  deriving DecidableEq, Repr

/-- The reach stages of a delivery message (R87). -/
inductive Stage where
  | lastHeard | home | plant
  deriving DecidableEq, Repr

/-- The six kinds of message to pagers (R82). -/
inductive MessageKind where
  | page | remind | arrivalCheck | confirm | cancel | standDown
  deriving DecidableEq, Repr

/-- The reason a STAND DOWN carries (R111). -/
inductive StandReason where
  | taken | ended | busy | stale
  deriving DecidableEq, Repr

/-- The cause a STAND DOWN SENT record carries (R111). -/
inductive StandCause where
  | taken | onSite | notAccepter | busy | offDuty | stale
  deriving DecidableEq, Repr

/-- The six kinds of pager report (chapter 6.1). -/
inductive ReportKind where
  | hello | receipt | accept | decline | arrived | clear
  deriving DecidableEq, Repr

/-- The cause of a MESSAGE DROPPED record (R82, R85, R89). -/
inductive DropMessageCause where
  | full | displaced | noRoute | noPager
  deriving DecidableEq, Repr

/-- The cause of a reopening (R44). -/
inductive ReopenCause where
  | decline | secondArrivalWindow | breakIn
  deriving DecidableEq, Repr

/-- The five target kinds of a rung (R27). -/
inductive TargetKind where
  | crewRotate | crewAll | member | beaconZone | beaconPlant
  deriving DecidableEq, Repr

/-- The commands of a lamp (R140). -/
inductive LampCommand where
  | off | steady | slow | fast
  deriving DecidableEq, Repr

/-- The flag of a lamp (R146). -/
inductive LampFlag where
  | ok | fault | stuck
  deriving DecidableEq, Repr

/-- The two lamps of a station (R140). -/
inductive LampId where
  | call | attend
  deriving DecidableEq, Repr

/-- The journal states (R164). -/
inductive JournalState where
  | off | writing | stalled | ended
  deriving DecidableEq, Repr

/-- The record kinds of the journal (R169, 12.9). -/
inductive RecordKind where
  | admitted | waiting | rejected | ladderSubstituted | rungEntered | noOneAvailable | paged | receipt | unreached
  | accepted | declined | standDownSent | arrived | arrivalOverdue | reopened | breakIn | held | released | cleared
  | withdrawn | exhausted | messageDropped | unknownPager | dropState | babble | dropKindMismatch | lampFault | lampStuck
  | lampOk | serverLost | serverBack | tablesLoaded | reloadDeferred | reloadRefused | engineState | gap
  deriving DecidableEq, Repr

/-- Who reported presence on site (chapter 1.1): for STATION, the station's line and drop address. -/
inductive Site where
  | none
  | member
  | station (line : LineId) (drop : Nat)
  deriving DecidableEq, Repr

/-- A window (R48): STOPPED, RUNNING with its expiry tick, or FROZEN with its remaining ticks. -/
inductive Window where
  | stopped
  | running (expiry : Tick)
  | frozen (remaining : Nat)
  deriving DecidableEq, Repr

/-! ## The server's structures, as read -/

/-- A zone record (R152). -/
structure ZoneRecord where
  reach : Nat
  enabled : Bool
  deriving DecidableEq, Repr

/-- A rung record (R27): the target kind as encoded, since an encoding that is none of the five is unservable. -/
structure Rung where
  kind : Nat
  number : Nat
  windowClass : Nat
  last : Bool
  hold : Bool
  rep : Bool
  deriving DecidableEq, Repr

/-- A ladder: header and eight rung records (R26). -/
structure Ladder where
  rungCount : Nat
  stopRung : Option Nat
  repeatLimit : Nat
  arrivalClass : Nat
  rungs : List Rung
  deriving DecidableEq, Repr

/-- A roster entry (R63). -/
structure RosterEntry where
  pager : Nat
  home : Nat
  onShift : Bool
  deriving DecidableEq, Repr

/-- A crew: its member count and the sixteen indexes of its record (R72, 12.4). -/
structure Crew where
  count : Nat
  indexes : List Nat
  deriving DecidableEq, Repr

/-- The four tables, which are replaced together (R152). -/
structure Tables where
  zones : List ZoneRecord
  crews : List Crew
  ladders : List Ladder
  roster : List RosterEntry
  deriving DecidableEq, Repr

/-- One entry of the drop list (R123, R151). -/
structure DropListEntry where
  kind : DropKind
  zone : Nat
  deriving DecidableEq, Repr

/-- The settings snapshot, clamped (R62, R151). -/
structure Settings where
  scanPeriod : Nat
  receiptWindow : Nat
  remindInterval : Nat
  remindLimit : Nat
  breakIn : Bool
  locationAge : Nat
  minimumTurn : Nat
  plantReach : Nat
  heartbeatLimit : Nat
  isolateOnBabble : Bool
  pressMinimum : Nat
  bitRate0 : Nat
  bitRate1 : Nat
  windowTable : List Nat
  dropList : List DropListEntry
  deriving DecidableEq, Repr

/-- One directory entry: a count, and an offset with its low two bits taken as 0 (R149). -/
structure DirEntry where
  count : Nat
  offset : Nat
  deriving DecidableEq, Repr

/-- The table directory (R149). -/
structure TableDirectory where
  zones : DirEntry
  crews : DirEntry
  ladders : DirEntry
  roster : DirEntry
  deriving DecidableEq, Repr

/-- The identity and directory of the header that a run keeps (R149). -/
structure Directory where
  areaSize : Nat
  settings : Nat
  slots : DirEntry
  memberMirror : DirEntry
  dropMirror : DirEntry
  descriptors : DirEntry
  deriving DecidableEq, Repr

/-- A line request of the header (R137). -/
structure LineRequest where
  code : Nat
  drop : Nat
  number : Word
  deriving DecidableEq, Repr

/-- The server fields of the header (R149). -/
structure ServerFields where
  heartbeat : Word
  generation : Word
  request0 : LineRequest
  request1 : LineRequest
  restart : Word
  deriving DecidableEq, Repr

/-- The host part of a slot (chapter 1.1). -/
structure HostPart where
  postNumber : Word
  callNumber : Word
  severity : Nat
  zone : Nat
  ladder : Nat
  requestCode : Nat
  origin : Nat
  requestValue : Nat
  requestNumber : Word
  text : List Byte
  deriving DecidableEq, Repr

/-! ## The slots and the calls -/

/-- A slot image (R2): the fields of the device part, the dirty flag, and whether the image has changed since its last
write was built. -/
structure SlotImage where
  state : SlotState
  rung : Nat
  pass : Nat
  site : Site
  tag : Option Nat
  accepter : Option Nat
  reason : Reason
  result : RequestResult
  admitTick : Tick
  acceptTick : Tick
  arriveTick : Tick
  endTick : Tick
  takenPost : Word
  takenRequest : Word
  dirty : Bool
  touched : Bool
  deriving DecidableEq, Repr

/-- One entry of a contacted list (R31), with its remind interval and remind count (R57). -/
structure Contact where
  member : Nat
  rung : Nat
  pass : Nat
  current : Bool
  received : Bool
  declined : Bool
  unreached : Bool
  breakIn : Bool
  cancelled : Bool
  remind : Window
  remindCount : Nat
  deriving DecidableEq, Repr

/-- What the running rung of a context is, as it was at its entry (R33 to R37); `none` when no rung runs. -/
inductive RungMode where
  | none | rotate | all | member | beacon
  deriving DecidableEq, Repr

/-- A call context (chapter 1.3). -/
structure Context where
  state : CallState
  reuse : Nat
  slot : Option Nat
  callNumber : Word
  zone : Nat
  origin : Nat
  text : List Byte
  severity : Nat
  ladder : Nat
  tag : Nat
  rung : Nat
  pass : Nat
  deadline : Window
  turn : Window
  arrival : Window
  arrivalLength : Nat
  arrivalCount : Nat
  mode : RungMode
  turnMember : Option Nat
  turnCount : Nat
  turnLength : Nat
  firstPosition : Nat
  breakInRung : Bool
  reloaded : Bool
  madeCurrent : List Nat
  contacted : List Contact
  accepter : Option Nat
  acceptRung : Nat
  site : Site
  admitTick : Tick
  acceptTick : Tick
  arriveTick : Tick
  deriving DecidableEq, Repr

/-- One entry of the backlog (R11): the slot, the present severity, the take order number, and the post's fields that the
call takes with it into a context. -/
structure Waiting where
  slot : Nat
  severity : Nat
  order : Word
  callNumber : Word
  zone : Nat
  ladder : Nat
  origin : Nat
  text : List Byte
  deriving DecidableEq, Repr

/-- One record of the member registry (R64), with the dirty flag of its mirror entry (R81). The record's state is derived
from these fields (R65: Machine/Roster.lean, memberState). -/
structure Member where
  engaged : Option Nat
  paged : Nat
  lastZone : Option Nat
  lastTick : Tick
  offDutyPending : Bool
  dirty : Bool
  touched : Bool
  deriving DecidableEq, Repr

/-! ## Messages, air queues and delivery records -/

/-- A message to a pager with the contents of its kind (R82); `member` is who it is for. -/
structure Message where
  kind : MessageKind
  tag : Nat
  member : Nat
  pager : Nat
  callNumber : Word
  severity : Nat
  zone : Nat
  breakIn : Bool
  text : List Byte
  reason : Option StandReason
  deriving DecidableEq, Repr

/-- The two route positions of a control message (R89). -/
inductive RoutePosition where
  | first | second
  deriving DecidableEq, Repr

/-- The zones a CANCEL of the exception of R82 keeps: a last-heard zone that was fresh, and the home zone. -/
structure FixedRoute where
  lastZone : Option Nat
  home : Nat
  deriving DecidableEq, Repr

/-- What an air queue entry is beside its message (R84): the copy of a delivery record at a stage, or a control message at
its route position, with the fixed route it keeps and, for a CANCEL queued by the end of its call, the urgency of that end
(R58). -/
inductive Carriage where
  | delivery (serial : Nat) (stage : Stage)
  | control (position : RoutePosition) (fixed : Option FixedRoute) (endUrgency : Option Nat)
  deriving DecidableEq, Repr

/-- An entry of an air queue or of an in-flight set (R84, R130). -/
structure AirEntry where
  message : Message
  urgency : Nat
  order : Word
  carriage : Carriage
  deriving DecidableEq, Repr

/-- The states of a copy (R83). -/
inductive CopyState where
  | queued | inFlight | taken | deferred
  deriving DecidableEq, Repr

/-- One copy of a delivery record's present stage (R83). -/
structure Copy where
  line : LineId
  drop : Nat
  state : CopyState
  deriving DecidableEq, Repr

/-- A delivery record (R83). `serial` is its identity; `stage` is its present stage, or, while `isPending`, its resume stage;
`pendingOrder` orders the PENDING records (R102). -/
structure Delivery where
  serial : Nat
  key : RecordKey
  message : Message
  stage : Stage
  isPending : Bool
  pendingOrder : Nat
  copies : List Copy
  receipt : Window
  retry : Window
  noRouteUsed : Bool
  deriving DecidableEq, Repr

/-! ## Lines, drops and stations -/

/-- One lamp of a station record (R140). -/
structure Lamp where
  commanded : LampCommand
  sent : Option LampCommand
  flag : LampFlag
  mismatchRun : Nat
  matchRun : Nat
  deriving DecidableEq, Repr

/-- A station record (R140); its zone is its drop's. -/
structure Station where
  call : Lamp
  attend : Lamp
  deriving DecidableEq, Repr

/-- A drop record (chapter 7.2), with the air queue of a transmitter (R84), the station record of a station (R140) and
what its drop mirror entry shows beside it (R160). -/
structure Drop where
  kind : DropKind
  zone : Nat
  state : DropState
  downBit : Bool
  inFlight : List AirEntry
  upBit : Bool
  misses : Nat
  strikes : List Bool
  room : Nat
  turnCount : Nat
  replyTimeout : Nat
  countdown : Nat
  queue : List AirEntry
  station : Option Station
  lastCause : DropCause
  changes : Nat
  dirty : Bool
  touched : Bool
  deriving DecidableEq, Repr

/-- An exchange in progress (chapter 7.4): the polled address, whether it is a probe, whether its frame carries a message
set, whether each lamp command equals the one of the station's frame before (R145), the measured turn count, and the bytes
of its down frame. -/
structure Exchange where
  address : Nat
  isProbe : Bool
  carriesSet : Bool
  sameCall : Bool
  sameAttend : Bool
  turn : Nat
  frame : List Byte
  deriving DecidableEq, Repr

/-- What a line is doing (R121, R122, R126, R129). -/
inductive LinePhase where
  | off
  /-- between exchanges: the 10 bit times before the next frame -/
  | gap
  | sending (x : Exchange)
  | awaiting (x : Exchange)
  | receiving (x : Exchange)
  | emptySlot
  /-- the 50 ms break -/
  | breaking
  /-- the 200 ms wait -/
  | comingUp
  /-- the RESTART frame, being sent -/
  | restartFrame (frame : List Byte)
  /-- the 100 bit times after the RESTART frame -/
  | restartWait
  deriving DecidableEq, Repr

/-- The two restarts of a line (R121, R122). -/
inductive Restart where
  | cold | warm
  deriving DecidableEq, Repr

/-- A field line and its Line Controller (chapter 7). `restart` is a restart that waits for the exchange in progress
(R137). -/
structure Line where
  state : LineState
  phase : LinePhase
  restart : Option Restart
  bitRate : Nat
  pollPosition : Nat
  drops : List Drop
  takenRequest : Word
  requestResult : LineResult
  deriving DecidableEq, Repr

/-! ## Bus-master transactions -/

/-- A bus-master transaction in progress: what it is, the regions it reads (address, length), and the bytes it writes in
their order, `lastWrites` after all of `writes` (R2). -/
structure Transaction (α : Type) where
  op : α
  reads : List (Nat × Nat)
  writes : List Host.Cell
  lastWrites : List Host.Cell
  deriving DecidableEq, Repr

/-- The transactions of the Area Controller (R153, R156 to R158). -/
inductive AreaOp where
  | loadHeader | loadSettings | loadTables | loadSlots
  | loadSlotWrite (slot : Nat)
  | loadHeaderWrite
  | scanHeader | reloadDirectory | reloadTables | reloadGeneration
  | slotHost (slot : Nat)
  | descriptorState | descriptorClose
  | slotImage (slot : Nat)
  | memberEntry (member : Nat)
  | dropEntry (index : Nat)
  | headerWrite
  deriving DecidableEq, Repr

/-- The transactions of the Journal Writer (R163 to R166). `gap` is the skipped count that a GAP record carries; an
`orphanWrite` is the write of a record's bytes that no fill count will follow: it has been skipped meanwhile (R165), or a restart closes
the block before it (R168). An `orphanBeforeTake` is such a write whose bytes a take waits for (log 87). -/
inductive JournalOp where
  | takeRead | takeWrite
  | recordWrite (gap : Option Nat)
  | orphanWrite | orphanBeforeTake
  | fillWrite (gap : Option Nat)
  | closeWrite
  deriving DecidableEq, Repr

/-! ## The journal -/

/-- A journal record as submitted (R169). -/
structure JournalRecord where
  kind : RecordKind
  zone : Nat
  tick : Tick
  slot : Option Nat
  tag : Option Nat
  callNumber : Word
  member : Option Nat
  line : Option LineId
  drop : Nat
  detail1 : Nat
  detail2 : Nat
  origin : Nat
  deriving DecidableEq, Repr

/-- The Journal Writer (R164). LAST, WRAP and MARK are kept from the take's read (R163); `closeThenZero` says that
descriptor 0 follows the outstanding close (R168); `restartPending` that a restart waits for a transaction (R168). -/
structure Journal where
  state : JournalState
  index : Nat
  fill : Nat
  blockAddress : Nat
  capacity : Nat
  last : Bool
  wrap : Bool
  mark : Bool
  nextSequence : Nat
  skipped : Nat
  closePending : Bool
  closeThenZero : Bool
  restartPending : Bool
  pending : List JournalRecord
  bus : Option (Transaction JournalOp)
  deriving DecidableEq, Repr

/-! ## The blocks -/

/-- The registers of the window that hold a value of their own (R170). -/
structure RegisterWindow where
  control : Command
  baseLow : Word
  baseHigh : Word
  loadError : LoadError
  deriving DecidableEq, Repr

/-- ATTENTION EVENT and MASK, their defined bits (R175, 12.1). -/
structure Attention where
  event : BitVec 14
  mask : BitVec 14
  deriving DecidableEq, Repr

/-- The heartbeat watch and the supervision lock (R176). -/
structure HeartbeatWatch where
  last : Word
  stale : Nat
  serverLost : Bool
  locked : Bool
  lockedLimit : Nat
  deriving DecidableEq, Repr

/-- The Area Controller (R149 to R162). `scanEnding`: STOP has ended the scan, and its transaction is in progress still;
`stopLoad`: STOP has abandoned the load likewise; `stopEnded`: STOPPING waits no more and the final scan is due. -/
structure AreaController where
  bus : Option (Transaction AreaOp)
  scanInFlight : Bool
  nudgePending : Bool
  scanTimer : Option Tick
  scanEnding : Bool
  stopLoad : Bool
  stopLimit : Option Tick
  stopEnded : Bool
  finalScan : Bool
  memoryFault : Bool
  faultInScan : Bool
  takenGeneration : Word
  loadedGeneration : Word
  takenRestart : Word
  directory : Directory
  tableDirectory : TableDirectory
  server : ServerFields
  slots : List SlotImage
  stagedSettings : Option Settings
  stagedTables : Option Tables
  takeOrder : Word
  deriving DecidableEq, Repr

/-- The Roster Store (R63, R64, R72, R73). -/
structure RosterStore where
  settings : Settings
  tables : Tables
  members : List Member
  pointers : List Nat
  deriving DecidableEq, Repr

/-- The Call Engine (chapter 1.3): the 65 contexts and the backlog. -/
structure CallEngine where
  contexts : List Context
  backlog : List Waiting
  deriving DecidableEq, Repr

/-- The Page Dispatcher (R83, R84): the delivery records, the enqueue order number, and the model's own counters of the
records made and of the records that became PENDING. The air queues stand in the drop records. -/
structure Dispatcher where
  records : List Delivery
  order : Word
  serial : Nat
  pendingCount : Nat
  deriving DecidableEq, Repr

/-- One piece of work inside an event of the part. An event whose effects set off others (a rung end that enters a rung, a
call end that admits another) is a list of these, done one after another. -/
inductive Task where
  /-- R29 -/
  | enterRung (context rung : Nat)
  /-- R40, R42, R43 -/
  | endRung (context : Nat)
  /-- R41 -/
  | pastLast (context : Nat)
  /-- R34, R53 -/
  | endTurn (context : Nat)
  /-- the test of R34 to R36 after a member lost the current mark -/
  | lostMark (context member : Nat)
  /-- R32: the member is no longer a break-in candidate -/
  | dropBreakIn (member : Nat)
  /-- R19 -/
  | endCall (context : Nat) (state : SlotState) (reason : Reason)
  /-- R12 -/
  | admitHeads
  /-- R44 -/
  | reopen (context : Nat) (cause : ReopenCause)
  /-- R109, the BREAK-IN record and the previous call's reopening -/
  | breakInTaken (context previous : Nat)
  /-- R7 to R11 -/
  | takePost (slot : Nat) (host : HostPart)
  /-- R156 step 2 -/
  | heartbeat (value : Word)
  /-- R177, SERVER LOST after the fallback call has opened -/
  | submitServerLost (tag : Option Nat)
  /-- R156 step 3 -/
  | scanTables
  /-- R156 step 4 -/
  | lineRequest (line : LineId)
  /-- R156 step 4 -/
  | journalRestart
  /-- R156 step 5 -/
  | scanSlot (slot : Nat)
  /-- R161, the end of a scan cut short -/
  | scanFailed
  /-- R159 step 2: the losses of current marks of one context -/
  | reloadLosses (context : Nat) (members : List (Nat × Nat × FixedRoute))
  /-- R46 -/
  | reloadAdjust (context : Nat)
  /-- R159 steps 4 to 6 -/
  | reloadDone
  /-- R103 to R114 -/
  | report (line : LineId) (drop : Nat) (data : List Byte)
  /-- R148 -/
  | press (line : LineId) (drop : Nat) (data : List Byte)
  /-- the end of an exchange or of an empty slot: the restart that waits, or the gap -/
  | lineNext (line : LineId)
  /-- R100: one message of a transmitter that has left READY -/
  | handBack (line : LineId) (drop : Nat) (entry : AirEntry)
  /-- R92: the report of an unreached record to its context -/
  | unreached (key : RecordKey)
  /-- R102 -/
  | beginPending (serial : Nat)
  | expireDeadline (context : Nat)
  | expireTurn (context : Nat)
  | expireArrival (context : Nat)
  | expireRemind (context member : Nat)
  | expireReceipt (key : RecordKey)
  | expireRetry (key : RecordKey)
  deriving DecidableEq, Repr

/-- The reasons the block stops with a fault. There is none: the spec gives every command of the table an effect, and the
values it leaves open are free values. -/
inductive Fault where
  deriving DecidableEq, Repr

/-- The reasons a command is refused. -/
inductive Refusal where
  /-- Raised by an arm of exec whose command has no meaning yet; none is left. Safe: nothing is claimed of the command. -/
  | notModelled (mnemonic : String)
  deriving DecidableEq, Repr

/-- The state of the part. `memory` holds the bytes of server memory that the part's bus-master writes have put there;
`agenda` is work of an event not yet done (empty between events: log 5); `draws` counts the free values drawn; `pending`
is the queue of the commands that wait, first in, first out. -/
structure State where
  window : RegisterWindow
  engine : EngineState
  tickCount : Tick
  attention : Attention
  watch : HeartbeatWatch
  area : AreaController
  roster : RosterStore
  calls : CallEngine
  dispatcher : Dispatcher
  line0 : Line
  line1 : Line
  latches : List (List Nat)
  journal : Journal
  memory : List Host.Cell
  agenda : List Task
  draws : Nat
  pending : List Instr
  deriving DecidableEq, Repr

/-- A FREE context of reuse count 0 (R4, R20). -/
def Context.empty : Context where
  state := .free
  reuse := 0
  slot := none
  callNumber := 0
  zone := 0
  origin := 0
  text := []
  severity := 0
  ladder := 0
  tag := 0
  rung := 0
  pass := 0
  deadline := .stopped
  turn := .stopped
  arrival := .stopped
  arrivalLength := 0
  arrivalCount := 0
  mode := .none
  turnMember := none
  turnCount := 0
  turnLength := 0
  firstPosition := 0
  breakInRung := false
  reloaded := false
  madeCurrent := []
  contacted := []
  accepter := none
  acceptRung := 0
  site := .none
  admitTick := 0
  acceptTick := 0
  arriveTick := 0

/-- A slot image in EMPTY, clean, with the given echoes (R3, R4). -/
def SlotImage.emptyWith (post request : Word) : SlotImage where
  state := .empty
  rung := 0
  pass := 0
  site := .none
  tag := none
  accepter := none
  reason := .none
  result := .none
  admitTick := 0
  acceptTick := 0
  arriveTick := 0
  endTick := 0
  takenPost := post
  takenRequest := request
  dirty := false
  touched := false

/-- A settings snapshot that holds nothing (R62); log 1. -/
def Settings.empty : Settings where
  scanPeriod := 0
  receiptWindow := 0
  remindInterval := 0
  remindLimit := 0
  breakIn := false
  locationAge := 0
  minimumTurn := 0
  plantReach := 0
  heartbeatLimit := 0
  isolateOnBabble := false
  pressMinimum := 0
  bitRate0 := 0
  bitRate1 := 0
  windowTable := []
  dropList := []

/-- No tables (R26, R63). -/
def Tables.empty : Tables where
  zones := []
  crews := []
  ladders := []
  roster := []

/-- A directory entry of nothing; log 1. -/
def DirEntry.empty : DirEntry where
  count := 0
  offset := 0

/-- A line after a reset (R120, R123): OFF, with no drop records; log 1 for the rest. -/
def Line.empty : Line where
  state := .off
  phase := .off
  restart := none
  bitRate := 0
  pollPosition := 0
  drops := []
  takenRequest := 0
  requestResult := .none

/-- The journal after a reset (R164); log 1 for the block address, capacity and flags. -/
def Journal.empty : Journal where
  state := .off
  index := 0
  fill := 0
  blockAddress := 0
  capacity := 0
  last := false
  wrap := false
  mark := false
  nextSequence := 0
  skipped := 0
  closePending := false
  closeThenZero := false
  restartPending := false
  pending := []
  bus := none

/-- The Area Controller after a reset (R4, R155, R162); log 1 for the directory, the server fields and the generations. -/
def AreaController.empty : AreaController where
  bus := none
  scanInFlight := false
  nudgePending := false
  scanTimer := none
  scanEnding := false
  stopLoad := false
  stopLimit := none
  stopEnded := false
  finalScan := false
  memoryFault := false
  faultInScan := false
  takenGeneration := 0
  loadedGeneration := 0
  takenRestart := 0
  directory :=
    { areaSize := 0, settings := 0, slots := .empty, memberMirror := .empty, dropMirror := .empty, descriptors := .empty }
  tableDirectory := { zones := .empty, crews := .empty, ladders := .empty, roster := .empty }
  server :=
    { heartbeat := 0, generation := 0, request0 := { code := 0, drop := 0, number := 0 },
      request1 := { code := 0, drop := 0, number := 0 }, restart := 0 }
  slots := []
  stagedSettings := none
  stagedTables := none
  takeOrder := 0

/-- The machine right after a full reset (R178 and the rules it names), with server memory untouched by the part and no
command waiting. -/
def State.reset : State where
  window := { control := .none, baseLow := 0, baseHigh := 0, loadError := .none }
  engine := .idle
  tickCount := 0
  attention := { event := 0, mask := 0 }
  watch := { last := 0, stale := 0, serverLost := false, locked := false, lockedLimit := 0 }
  area := .empty
  roster := { settings := .empty, tables := .empty, members := [], pointers := [] }
  calls := { contexts := List.replicate 65 .empty, backlog := [] }
  dispatcher := { records := [], order := 0, serial := 0, pendingCount := 0 }
  line0 := .empty
  line1 := .empty
  latches := List.replicate 24 []
  journal := .empty
  memory := []
  agenda := []
  draws := 0
  pending := []

end Sys2Proof.Machine
end

