-- ==== Sys2Proof/Machine/Operands.lean ====
section
/-! DEFINITION. Machine/Operands.lean: reading the operands of the commands: the structures the server writes (12.2 to
12.7), with the clamps and checks their rules lay down, and the replies of the field lines (12.8). -/

namespace Sys2Proof.Machine

/-! ## Bytes, little-endian (00_scope.md, Byte order) -/

/-- The byte at an offset; 0 beyond the data, which a well-formed command never asks for. -/
def byteAt (data : List Byte) (i : Nat) : Nat := (data.getD i 0).toNat

def le16 (data : List Byte) (i : Nat) : Nat := byteAt data i + 256 * byteAt data (i + 1)

def le24 (data : List Byte) (i : Nat) : Nat := le16 data i + 65536 * byteAt data (i + 2)

def le32 (data : List Byte) (i : Nat) : Nat := le16 data i + 65536 * le16 data (i + 2)

def le64 (data : List Byte) (i : Nat) : Nat := le32 data i + 4294967296 * le32 data (i + 4)

/-- A 32-bit field as the number it is. -/
def word32 (data : List Byte) (i : Nat) : Word := BitVec.ofNat 32 (le32 data i)

/-- Bit k of a byte's value. -/
def bitOf (value k : Nat) : Bool := value / 2 ^ k % 2 == 1

/-- A value below its range becomes the lower limit and a value above it the upper limit (R62, R151). -/
def clamp (lo hi x : Nat) : Nat := max lo (min hi x)

/-- Offsets have their low two bits ignored (R149). -/
def alignedOffset (x : Nat) : Nat := x / 4 * 4

/-! ## The header -/

/-- A directory entry: a count, two reserved bytes, an offset (12.2). -/
def readDirEntry (data : List Byte) (i : Nat) : DirEntry where
  count := le16 data i
  offset := alignedOffset (le32 data (i + 4))

/-- The table directory, from where its zone entry stands. -/
def readTableDirectory (data : List Byte) (i : Nat) : TableDirectory where
  zones := readDirEntry data i
  crews := readDirEntry data (i + 8)
  ladders := readDirEntry data (i + 16)
  roster := readDirEntry data (i + 24)

/-- The identity and directory of the header (12.2). -/
def readDirectory (data : List Byte) : Directory where
  areaSize := le32 data 0x08
  settings := alignedOffset (le32 data 0x0C)
  slots := readDirEntry data 0x10
  memberMirror := readDirEntry data 0x18
  dropMirror := readDirEntry data 0x20
  descriptors := readDirEntry data 0x28

/-- A line request: code, drop number, and the request number four bytes on (12.2). -/
def readLineRequest (data : List Byte) (i : Nat) : LineRequest where
  code := byteAt data i
  drop := byteAt data (i + 1)
  number := word32 data (i + 4)

/-- The server fields, 0x50 to 0x6F of the header, from where the heartbeat word stands (12.2). -/
def readServerFields (data : List Byte) (i : Nat) : ServerFields where
  heartbeat := word32 data i
  generation := word32 data (i + 4)
  request0 := readLineRequest data (i + 8)
  request1 := readLineRequest data (i + 16)
  restart := word32 data (i + 24)

/-- The counts' ranges of R150. -/
def slotCountOk (n : Nat) : Bool := 16 ≤ n && n ≤ 256 && n % 16 == 0

/-- Check 4 of R150 for the directory entries a run keeps. -/
def directoryCountsOk (d : Directory) : Bool :=
  slotCountOk d.slots.count && d.memberMirror.count ≤ 512 && (d.dropMirror.count == 0 || d.dropMirror.count == 32)
    && 1 ≤ d.descriptors.count && d.descriptors.count ≤ 32

/-- A region ends within the area size (R150, check 5). -/
def regionOk (areaSize : Nat) (e : DirEntry) (entrySize : Nat) : Bool := e.offset + e.count * entrySize ≤ areaSize

/-- Check 5 of R150 for the regions a run keeps. -/
def directoryRegionsOk (d : Directory) : Bool :=
  d.settings + Config.settingsSize ≤ d.areaSize && regionOk d.areaSize d.slots 128
    && regionOk d.areaSize d.memberMirror 16 && regionOk d.areaSize d.dropMirror 12 && regionOk d.areaSize d.descriptors 24

/-- The encodings of the tables in a RELOAD REFUSED record: zone 1, crew 2, ladder 3, roster 4 (12.9). -/
def firstBadTable (zones crews ladders roster : Bool) : Option Nat :=
  if !zones then some 1 else if !crews then some 2 else if !ladders then some 3 else if !roster then some 4 else none

/-- The first table whose count is out of the range of R150. -/
def badTableCount (t : TableDirectory) : Option Nat :=
  firstBadTable (t.zones.count ≤ 24) (t.crews.count ≤ 32) (1 ≤ t.ladders.count && t.ladders.count ≤ 32)
    (t.roster.count ≤ 512)

/-- The first table whose region does not end within the area size (R150, check 5). DESIGN CHOICE (log 84): of several, the first in the order
of the table directory. -/
def badTableRegion (areaSize : Nat) (t : TableDirectory) : Option Nat :=
  firstBadTable (regionOk areaSize t.zones 4) (regionOk areaSize t.crews 36) (regionOk areaSize t.ladders 36)
    (regionOk areaSize t.roster 8)

/-- The checks of R150 on the header, in their order: the first that fails gives the load error. -/
def headerError (data : List Byte) : LoadError :=
  let d := readDirectory data
  let t := readTableDirectory data 0x30
  if le32 data 0 ≠ Config.signature then .badSignature
  else if le16 data 4 ≠ 1 then .badVersion
  else if Config.maxAreaSize < d.areaSize ∨ d.areaSize < Config.headerSize then .outOfArea
  else if !directoryCountsOk d || (badTableCount t).isSome then .countOutOfRange
  else if !directoryRegionsOk d || (badTableRegion d.areaSize t).isSome then .outOfArea
  else .none

/-! ## Settings (12.3, R62, R120, R123, R151) -/

/-- A value of 1 becomes 2, a value above 60 becomes 60, and 0 turns supervision off (R151). -/
def clampHeartbeat (x : Nat) : Nat := if x = 0 then 0 else clamp 2 60 x

/-- Any value but the three accepted is taken as 115,200 (R120). -/
def readBitRate (x : Nat) : Nat := if x = 19200 ∨ x = 57600 then x else 115200

/-- A kind encoding outside the three kinds is taken as UNUSED (R123). -/
def readDropKind (x : Nat) : DropKind := if x = 1 then .transmitter else if x = 2 then .station else .unused

/-- One drop list entry; its zone is clamped to 1 to 24 (R123). -/
def readDropListEntry (data : List Byte) (i : Nat) : DropListEntry where
  kind := readDropKind (byteAt data i)
  zone := clamp 1 24 (byteAt data (i + 1))

/-- The settings block, clamped. -/
def readSettings (data : List Byte) : Settings where
  scanPeriod := clamp 1 50 (le16 data 0)
  receiptWindow := clamp 10 200 (le16 data 2)
  remindInterval := clamp 100 3000 (le16 data 4)
  remindLimit := clamp 0 5 (byteAt data 6)
  breakIn := byteAt data 7 != 0
  locationAge := clamp 600 36000 (le16 data 8)
  minimumTurn := clamp 50 600 (le16 data 10)
  plantReach := clamp 50 400 (le16 data 12)
  heartbeatLimit := clampHeartbeat (byteAt data 14)
  isolateOnBabble := byteAt data 15 != 0
  pressMinimum := clamp 1 50 (byteAt data 16)
  bitRate0 := readBitRate (le32 data 20)
  bitRate1 := readBitRate (le32 data 24)
  windowTable := (List.range 16).map fun i => clamp 1 3600 (le16 data (28 + 2 * i))
  dropList := (List.range 32).map fun i => readDropListEntry data (60 + 2 * i)

/-! ## Tables (12.4, R26, R27, R63, R72, R152) -/

/-- A zone record; its reach percent is clamped to 50 to 400 when it is read (R152). -/
def readZone (data : List Byte) (i : Nat) : ZoneRecord where
  reach := clamp 50 400 (le16 data i)
  enabled := bitOf (byteAt data (i + 2)) 0

/-- A crew's member count and sixteen indexes. -/
def readCrew (data : List Byte) (i : Nat) : Crew where
  count := byteAt data i
  indexes := (List.range 16).map fun k => le16 data (i + 2 + 2 * k)

/-- A rung; its window class is the low four bits of its flag byte (12.4). -/
def readRung (data : List Byte) (i : Nat) : Rung where
  kind := byteAt data i
  number := le16 data (i + 2)
  windowClass := byteAt data (i + 1) % 16
  last := bitOf (byteAt data (i + 1)) 4
  hold := bitOf (byteAt data (i + 1)) 5
  rep := bitOf (byteAt data (i + 1)) 6

/-- A ladder; a stop rung outside 0 to 7 is NONE, and the repeat limit and arrival class are read from their low four bits
(R152, R179). -/
def readLadder (data : List Byte) (i : Nat) : Ladder where
  rungCount := byteAt data i
  stopRung := if byteAt data (i + 1) ≤ 7 then some (byteAt data (i + 1)) else none
  repeatLimit := byteAt data (i + 2) % 16
  arrivalClass := byteAt data (i + 3) % 16
  rungs := (List.range 8).map fun k => readRung data (i + 4 + 4 * k)

/-- A roster entry; a home zone above 24 is taken as 0 (R63). -/
def readRosterEntry (data : List Byte) (i : Nat) : RosterEntry where
  pager := le24 data i
  home := if byteAt data (i + 3) ≤ 24 then byteAt data (i + 3) else 0
  onShift := bitOf (byteAt data (i + 4)) 0

/-- The four tables, of the counts the table directory gives. -/
def readTables (t : TableDirectory) (zones crews ladders roster : List Byte) : Tables where
  zones := (List.range t.zones.count).map fun i => readZone zones (4 * i)
  crews := (List.range t.crews.count).map fun i => readCrew crews (36 * i)
  ladders := (List.range t.ladders.count).map fun i => readLadder ladders (36 * i)
  roster := (List.range t.roster.count).map fun i => readRosterEntry roster (8 * i)

/-- The first table that makes a read set invalid (R152): ladder 3, crew 2. -/
def invalidTable (t : Tables) : Option Nat :=
  if (t.ladders.head?.map (·.rungCount)).getD 0 = 0 ∨ t.ladders.any (8 < ·.rungCount) then some 3
  else if t.crews.any (16 < ·.count) then some 2
  else none

/-! ## Slots and descriptors (12.5, 12.7) -/

/-- The host part of a slot. -/
def readHostPart (data : List Byte) : HostPart where
  postNumber := word32 data 0
  callNumber := word32 data 4
  severity := byteAt data 8
  zone := byteAt data 9
  ladder := byteAt data 10
  requestCode := byteAt data 11
  origin := le16 data 12
  requestValue := byteAt data 14
  requestNumber := word32 data 16
  text := (List.range 24).map fun i => data.getD (20 + i) 0

/-- The state of a descriptor is EMPTY (12.9); every other encoding leaves the journal STALLED (R163). -/
def descriptorEmpty (data : List Byte) : Bool := byteAt data 12 == 0

/-- The block address of a descriptor, its low five bits taken as 0 (chapter 10.1). -/
def descriptorAddress (data : List Byte) : Nat := le64 data 0 / 32 * 32

/-- The capacity of a descriptor, clamped to 4 to 256 (R163). -/
def descriptorCapacity (data : List Byte) : Nat := clamp 4 256 (le16 data 8)

/-! ## Frames (12.8, R127, R128, R180) -/

/-- One step of the CRC-16 of R127: a data bit enters most significant bit first. -/
def crcBit (c : BitVec 16) (b : Bool) : BitVec 16 :=
  if c.msb != b then (c <<< 1) ^^^ 0x1021#16 else c <<< 1

/-- One byte of the CRC-16. -/
def crcByte (c : BitVec 16) (b : Byte) : BitVec 16 :=
  [7, 6, 5, 4, 3, 2, 1, 0].foldl (fun c i => crcBit c (b.getLsbD i)) c

/-- The CRC-16 of R127: initial value 0xFFFF, no final inversion. -/
def crc16 (data : List Byte) : BitVec 16 := data.foldl crcByte 0xFFFF#16

/-- The frame starts with the sync bytes 0xC3, 0x5A (12.8). -/
def startsWithSync (frame : List Byte) : Bool := frame.take 2 == [0xC3#8, 0x5A#8]

/-- Reports are 4 bytes each for the kind STATION; a kind byte that is neither kind is read at the pager report size of 8
(R180). -/
def reportSize (frame : List Byte) : Nat := if byteAt frame 3 = 2 then 4 else 8

/-- The reply's report count, a count above 8 taken as 8 (R180). -/
def reportCount (frame : List Byte) : Nat := min (byteAt frame 6) 8

/-- The reply's length, from its report count and kind (R180). -/
def replyLength (frame : List Byte) : Nat := 7 + reportCount frame * reportSize frame + 2

/-- The reply has arrived whole: its bytes 0 to 6 and everything up to its two CRC bytes (R180). -/
def replyArrived (frame : List Byte) : Bool := 7 ≤ frame.length && replyLength frame ≤ frame.length

/-- The reports of a reply, in the order the reply carries them. -/
def replyReports (frame : List Byte) : List (List Byte) :=
  (List.range (reportCount frame)).map fun i => (frame.drop (7 + i * reportSize frame)).take (reportSize frame)

/-- A report kind legal for the drop kind: HELLO to CLEAR for a transmitter, a press for a station (12.9). DESIGN CHOICE (log 67): the tag
bytes of a HELLO are ignored, whatever they hold. -/
def reportKindOk (station : Bool) (report : List Byte) : Bool :=
  if station then byteAt report 0 == 8 || byteAt report 0 == 9 else 1 ≤ byteAt report 0 && byteAt report 0 ≤ 6

/-- The kind a reply names. -/
def replyKind (frame : List Byte) : DropKind := readDropKind (byteAt frame 3)

/-- The CRC of the reply's last two bytes matches the bytes from its address on (12.8). -/
def replyCrcOk (frame : List Byte) : Bool :=
  let n := replyLength frame
  (crc16 ((frame.take (n - 2)).drop 2)).toNat == le16 frame (n - 2)

/-- The causes of R128 that do not depend on the exchange: the CRC, the kind, the report count, the report kinds. DESIGN CHOICE (log 68):
bits and bytes that 12.8 gives no meaning are ignored, and make no reply corrupt. DESIGN CHOICE (log 83): the report kinds are judged for the
kind that the reply names. -/
def replyCorrupt (frame : List Byte) : Bool :=
  !replyCrcOk frame || replyKind frame == .unused || 8 < byteAt frame 6
    || !(replyReports frame).all (reportKindOk (replyKind frame == .station))

/-- A transmitter's room, taken as 8 when above it (R128). -/
def replyRoom (frame : List Byte) : Nat := min (byteAt frame 4) 8

/-- The taken sequence bit of a reply. -/
def replyTakenBit (frame : List Byte) : Bool := bitOf (byteAt frame 5) 0

/-- The up sequence bit of a reply. -/
def replyUpBit (frame : List Byte) : Bool := bitOf (byteAt frame 5) 1

/-- The seen-lit indicator of a lamp in a station's status. -/
def replySeenLit (frame : List Byte) (lamp : LampId) : Bool :=
  match lamp with
  | .call => bitOf (byteAt frame 4) 0
  | .attend => bitOf (byteAt frame 4) 1

/-- The kind of a pager report (12.9). -/
def readReportKind (report : List Byte) : Option ReportKind :=
  match byteAt report 0 with
  | 1 => some .hello
  | 2 => some .receipt
  | 3 => some .accept
  | 4 => some .decline
  | 5 => some .arrived
  | 6 => some .clear
  | _ => none

end Sys2Proof.Machine
end

