-- ==== Sys2Proof/Machine/Layouts.lean ====
section
/-! DEFINITION. Machine/Layouts.lean: the encodings of 12.9 and the byte layouts of everything the part writes: device parts,
mirror entries, the header's device fields, journal records and descriptors, and the frames it sends (12.2 to 12.8). -/

namespace Sys2Proof.Machine

/-! ## Encodings (12.9) -/

def EngineState.code : EngineState → Nat
  | .idle => 0 | .loading => 1 | .running => 2 | .paused => 3 | .stopping => 4 | .failed => 5

def Command.code : Command → Nat
  | .none => 0 | .start => 1 | .pause => 2 | .resume => 3 | .stop => 4 | .resetEngine => 5

def LoadError.code : LoadError → Nat
  | .none => 0 | .badSignature => 1 | .badVersion => 2 | .outOfArea => 3 | .countOutOfRange => 4 | .memoryFault => 5

def LineState.code : LineState → Nat
  | .off => 0 | .restarting => 1 | .running => 2

def SlotState.code : SlotState → Nat
  | .empty => 0 | .waiting => 1 | .paging => 2 | .held => 3 | .accepted => 4 | .onSite => 5
  | .cleared => 6 | .withdrawn => 7 | .exhausted => 8 | .rejected => 9 | .abandoned => 10

def Reason.code : Reason → Nat
  | .none => 0 | .clearedByMember => 1 | .clearedByStation => 2 | .controlRoom => 3 | .withdrawn => 4 | .slotLost => 5
  | .ladderExhausted => 6 | .engineStopped => 7 | .badSeverity => 8 | .badZone => 9 | .duplicate => 10

def RequestResult.code : RequestResult → Nat
  | .none => 0 | .done => 1 | .wrongState => 2 | .badValue => 3

def LineResult.code : LineResult → Nat
  | .none => 0 | .done => 1 | .busy => 2 | .wrongState => 3 | .badValue => 4

def Site.code : Site → Nat
  | .none => 0 | .member => 1 | .station _ _ => 2

def DropKind.code : DropKind → Nat
  | .unused => 0 | .transmitter => 1 | .station => 2

def DropState.code : DropState → Nat
  | .unused => 0 | .unknown => 1 | .ready => 2 | .silent => 3 | .isolated => 4

def DropCause.code : DropCause → Nat
  | .none => 0 | .probeOk => 1 | .probeFailed => 2 | .kindMismatch => 3 | .misses => 4 | .babble => 5 | .coldRestart => 6
  | .restore => 7

def Stage.code : Stage → Nat
  | .lastHeard => 1 | .home => 2 | .plant => 3

def MessageKind.code : MessageKind → Nat
  | .page => 1 | .remind => 2 | .arrivalCheck => 3 | .confirm => 4 | .cancel => 5 | .standDown => 6

def StandReason.code : StandReason → Nat
  | .taken => 1 | .ended => 2 | .busy => 3 | .stale => 4

def StandCause.code : StandCause → Nat
  | .taken => 1 | .onSite => 2 | .notAccepter => 3 | .busy => 4 | .offDuty => 5 | .stale => 6

def ReportKind.code : ReportKind → Nat
  | .hello => 1 | .receipt => 2 | .accept => 3 | .decline => 4 | .arrived => 5 | .clear => 6

def DropMessageCause.code : DropMessageCause → Nat
  | .full => 1 | .displaced => 2 | .noRoute => 3 | .noPager => 4

def ReopenCause.code : ReopenCause → Nat
  | .decline => 1 | .secondArrivalWindow => 2 | .breakIn => 3

def LampCommand.code : LampCommand → Nat
  | .off => 0 | .steady => 1 | .slow => 2 | .fast => 3

def LampFlag.code : LampFlag → Nat
  | .ok => 0 | .fault => 1 | .stuck => 2

def LampId.code : LampId → Nat
  | .call => 0 | .attend => 1

def JournalState.code : JournalState → Nat
  | .off => 0 | .writing => 1 | .stalled => 2 | .ended => 3

/-- The target kind a rung record's encoding names: CREW-ROTATE 1 to BEACON-PLANT 5. -/
def readTargetKind (x : Nat) : Option TargetKind :=
  match x with
  | 1 => some .crewRotate
  | 2 => some .crewAll
  | 3 => some .member
  | 4 => some .beaconZone
  | 5 => some .beaconPlant
  | _ => none

def RecordKind.code : RecordKind → Nat
  | .admitted => 1 | .waiting => 2 | .rejected => 3 | .ladderSubstituted => 4 | .rungEntered => 5 | .noOneAvailable => 6
  | .paged => 7 | .receipt => 8 | .unreached => 9 | .accepted => 10 | .declined => 11 | .standDownSent => 12
  | .arrived => 13 | .arrivalOverdue => 14 | .reopened => 15 | .breakIn => 16 | .held => 17 | .released => 18
  | .cleared => 19 | .withdrawn => 20 | .exhausted => 21 | .messageDropped => 22 | .unknownPager => 23 | .dropState => 24
  | .babble => 25 | .dropKindMismatch => 26 | .lampFault => 27 | .lampStuck => 28 | .lampOk => 29 | .serverLost => 30
  | .serverBack => 31 | .tablesLoaded => 32 | .reloadDeferred => 33 | .reloadRefused => 34 | .engineState => 35 | .gap => 36

/-- Field line numbers (00_scope.md, Numbering). -/
def lineCode : LineId → Nat
  | .l0 => 0 | .l1 => 1

/-- A delivery message's kind among the six (R82). -/
def deliveryMessageKind : DeliveryKind → MessageKind
  | .page => .page | .remind => .remind | .arrivalCheck => .arrivalCheck

/-! ## Bytes -/

/-- The low byte of a value. -/
def byteOf (x : Nat) : Byte := BitVec.ofNat 8 x

def bytes16 (x : Nat) : List Byte := [byteOf x, byteOf (x / 256)]

def bytes24 (x : Nat) : List Byte := [byteOf x, byteOf (x / 256), byteOf (x / 65536)]

def bytes32 (x : Nat) : List Byte := bytes16 x ++ bytes16 (x / 65536)

def wordBytes (x : Word) : List Byte := bytes32 x.toNat

def flagByte (b : Bool) : Byte := if b then 1 else 0

/-- An absent member index or call tag reads 0xFFFF (00_scope.md, Absent values). -/
def optional16 (x : Option Nat) : List Byte := bytes16 (x.getD 0xFFFF)

/-- Bytes at consecutive addresses. -/
def cellsAt (address : Nat) (data : List Byte) : List Host.Cell :=
  (List.range data.length).zipWith (fun i b => (address + i, b)) data

/-- Two values in one detail: the first in the high byte, the second in the low byte (12.7). -/
def packBytes (high low : Nat) : Nat := high * 256 + low

/-- Target kind in bits 15:12 and target number in bits 11:0 (12.7). The one that does not fit its bits leaves them free, and
the other fills its own all the same (log 9). -/
def packTarget (kind number : Nat) : Nat :=
  (if kind < 16 then kind else Config.packedKind kind % 16) * 4096
    + (if number < 4096 then number else Config.packedNumber number % 4096)

/-! ## The Common Area (12.2, 12.5, 12.6) -/

/-- Site line and site drop: 0xFF and 0 unless the site mark is STATION (12.5). -/
def siteBytes : Site → List Byte
  | .station l d => [byteOf (lineCode l), byteOf d]
  | _ => [0xFF#8, 0#8]

/-- Offsets 64 to 91 of a slot: the device part up to the echoes. -/
def slotFieldBytes (i : SlotImage) : List Byte :=
  [byteOf i.state.code, byteOf i.rung, byteOf i.pass, byteOf i.site.code] ++ optional16 i.tag ++ optional16 i.accepter
    ++ siteBytes i.site ++ [byteOf i.reason.code, byteOf i.result.code]
    ++ wordBytes i.admitTick ++ wordBytes i.acceptTick ++ wordBytes i.arriveTick ++ wordBytes i.endTick

/-- Offsets 92 to 99: the echoes, which are written last (R2). -/
def slotEchoBytes (i : SlotImage) : List Byte := wordBytes i.takenPost ++ wordBytes i.takenRequest

/-- Offsets 100 to 127 of a slot: reserved, written 0 (R179). -/
def slotReservedBytes : List Byte := List.replicate 28 0

/-- The header's device fields, 0x70 to 0x87 (12.2), with reserved bytes 0. -/
def headerDeviceBytes (tick : Tick) (engine : EngineState) (journal : JournalState) (descriptor : Nat)
    (taken0 taken1 : Word) (result0 result1 : LineResult) (generation : Word) : List Byte :=
  wordBytes tick ++ [byteOf engine.code, byteOf journal.code, byteOf descriptor, 0]
    ++ wordBytes taken0 ++ wordBytes taken1 ++ [byteOf result0.code, byteOf result1.code, 0, 0] ++ wordBytes generation

/-- A drop mirror entry (12.6, R160); the lamp flags of a drop that is no station are OK. -/
def dropEntryBytes (d : Drop) : List Byte :=
  let flag (f : Station → Lamp) : Byte := byteOf ((d.station.map fun s => (f s).flag.code).getD 0)
  [byteOf d.kind.code, byteOf d.zone, byteOf d.state.code, byteOf d.lastCause.code] ++ bytes16 d.changes
    ++ bytes16 d.replyTimeout ++ bytes16 d.turnCount ++ [flag Station.call, flag Station.attend]

/-! ## The journal (12.7) -/

/-- A journal record of 32 bytes under its sequence number. -/
def recordBytes (r : JournalRecord) (sequence : Nat) : List Byte :=
  bytes16 sequence ++ [byteOf r.kind.code, byteOf r.zone] ++ wordBytes r.tick ++ optional16 r.slot ++ optional16 r.tag
    ++ wordBytes r.callNumber ++ optional16 r.member ++ [byteOf ((r.line.map lineCode).getD 0xFF), byteOf r.drop]
    ++ bytes16 r.detail1 ++ bytes16 r.detail2 ++ bytes16 r.origin ++ List.replicate 6 0

/-- Offsets 12 to 17 of a descriptor at a take: FILLING, fill count 0, the first sequence number (R163, 12.7). -/
def takeBytes (sequence : Nat) : List Byte := [1#8, 0#8] ++ bytes16 0 ++ bytes16 sequence

/-! ## Frames (12.8) -/

/-- The lamp command byte of a down frame: bits 1:0 CALL, bit 2 ATTEND lamp STEADY. DESIGN CHOICE (log 86): the others are 0. -/
def lampByte (call attend : LampCommand) : Byte := byteOf (call.code + (if attend = .off then 0 else 4))

/-- The bytes of a message: 12, or 40 for a PAGE (12.8). DESIGN CHOICE (log 86): bits 7:1 of a PAGE's offset 12 are 0. -/
def messageBytes (m : Message) : List Byte :=
  let second : Nat :=
    match m.kind with
    | .page => m.severity
    | .remind => m.severity
    | .standDown => (m.reason.map StandReason.code).getD 0
    | _ => 0
  let zone : Nat :=
    match m.kind with
    | .page => m.zone
    | .remind => m.zone
    | .arrivalCheck => m.zone
    | _ => 0
  let number : Word :=
    match m.kind with
    | .cancel => 0
    | .standDown => 0
    | _ => m.callNumber
  let common := [byteOf m.kind.code, byteOf second, byteOf zone] ++ bytes24 m.pager ++ bytes16 m.tag ++ wordBytes number
  if m.kind = .page then
    common ++ [flagByte m.breakIn, 0, 0, 0] ++ (m.text ++ List.replicate 24 0).take 24
  else common

/-- How many bytes a message takes of the payload (R127, R130). -/
def messageSize (m : Message) : Nat := if m.kind = .page then 40 else 12

/-- A down frame: sync, the body from the address on, and the CRC of the body, low byte first (R127). -/
def frameOf (body : List Byte) : List Byte := [0xC3#8, 0x5A#8] ++ body ++ bytes16 (crc16 body).toNat

/-- The command byte of a down frame: bits 1:0 command, bit 4 down sequence bit, bit 5 up-acknowledge bit (12.8).
DESIGN CHOICE (log 86): the bits without a meaning are 0. -/
def commandByte (command : Nat) (downBit upBit : Bool) : Byte :=
  byteOf (command + (if downBit then 16 else 0) + (if upBit then 32 else 0))

/-- A POLL (0) or IDENT (1) frame to one drop, with its lamp command and the messages it carries. -/
def downFrame (command address : Nat) (downBit upBit : Bool) (lamps : Byte) (messages : List Message) : List Byte :=
  frameOf ([byteOf address, commandByte command downBit upBit, lamps, byteOf messages.length]
    ++ messages.flatMap messageBytes)

/-- The RESTART frame (2) of a warm restart: address 0, no messages, and the drop mask (R122, 12.8). No drop's bits and no
station's lamp commands are the frame's, so its two sequence bits and the three bits of its lamp command byte are free values
(log 10). -/
def restartFrameBytes (mask : Nat) : List Byte :=
  frameOf ([0#8, commandByte 2 Config.restartDownBit Config.restartUpBit, Config.restartLamps.setWidth 8, 0#8]
    ++ bytes16 mask)

end Sys2Proof.Machine
end

