-- ==== Sys2Proof/Machine/Ops.lean ====
section
/-! DEFINITION. Machine/Ops.lean: the named operations over the parts of State: updating one block, server memory, bus-master
transactions, windows, attention causes, slot images, contexts, members and drops. -/

namespace Sys2Proof.Machine

/-! ## Updating one block -/

def State.modWindow (f : RegisterWindow → RegisterWindow) (s : State) : State := { s with window := f s.window }
def State.modAttention (f : Attention → Attention) (s : State) : State := { s with attention := f s.attention }
def State.modWatch (f : HeartbeatWatch → HeartbeatWatch) (s : State) : State := { s with watch := f s.watch }
def State.modArea (f : AreaController → AreaController) (s : State) : State := { s with area := f s.area }
def State.modRoster (f : RosterStore → RosterStore) (s : State) : State := { s with roster := f s.roster }
def State.modCalls (f : CallEngine → CallEngine) (s : State) : State := { s with calls := f s.calls }
def State.modDispatcher (f : Dispatcher → Dispatcher) (s : State) : State := { s with dispatcher := f s.dispatcher }
def State.modJournal (f : Journal → Journal) (s : State) : State := { s with journal := f s.journal }

/-- The Line Controller of a line. -/
def State.line (s : State) : LineId → Line
  | .l0 => s.line0
  | .l1 => s.line1

def State.modLine (l : LineId) (f : Line → Line) (s : State) : State :=
  match l with
  | .l0 => { s with line0 := f s.line0 }
  | .l1 => { s with line1 := f s.line1 }

/-! ## Server memory, as the part's writes have left it

A list of (address, byte) pairs, addresses strictly rising. An address that is not listed is one the part has not written:
it reads as nothing, so that no listed entry equals it. -/

/-- Addresses strictly rise. -/
def Memory.wf : List Host.Cell → Bool
  | [] => true
  | [_] => true
  | a :: b :: rest => a.1 < b.1 && Memory.wf (b :: rest)

/-- The byte the part has last written at an address, if any. -/
def Memory.read (m : List Host.Cell) (address : Nat) : Option Byte :=
  (m.find? (·.1 == address)).map (·.2)

/-- Writing one byte. -/
def Memory.write : List Host.Cell → Host.Cell → List Host.Cell
  | [], c => [c]
  | x :: rest, c =>
    if c.1 < x.1 then c :: x :: rest
    else if c.1 = x.1 then c :: rest
    else x :: Memory.write rest c

/-- Writing bytes in their order. -/
def Memory.writeAll (m : List Host.Cell) (cells : List Host.Cell) : List Host.Cell := cells.foldl Memory.write m

/-! ## Bus-master transactions -/

/-- A transaction that reads. -/
def readTransaction {α : Type} (op : α) (reads : List (Nat × Nat)) : Transaction α where
  op := op
  reads := reads
  writes := []
  lastWrites := []

/-- A transaction that writes consecutive bytes. -/
def writeTransaction {α : Type} (op : α) (address : Nat) (data : List Byte) : Transaction α where
  op := op
  reads := []
  writes := cellsAt address data
  lastWrites := []

/-- The bytes of a transaction that completed reach server memory. -/
def land {α : Type} (t : Transaction α) (s : State) : State :=
  { s with memory := Memory.writeAll (Memory.writeAll s.memory t.writes) t.lastWrites }

/-- The cells of a faulted write that reached server memory, counting places from `start` (log 7). -/
def faultedCells (draw start : Nat) (cells : List Host.Cell) : List Host.Cell :=
  (cells.zipIdx start).filterMap fun p => if Config.faultedByte draw p.2 then some p.1 else none

/-- A transaction that completed with error: some of its bytes may have reached server memory, and none of those written
last unless all the others have (R2; log 7). -/
def landFaulted {α : Type} (t : Transaction α) (s : State) : State :=
  let first := faultedCells s.draws 0 t.writes
  let second := if first.length = t.writes.length then faultedCells s.draws t.writes.length t.lastWrites else []
  { s with memory := Memory.writeAll (Memory.writeAll s.memory first) second, draws := s.draws + 1 }

/-- The address of the Common Area: the 64-bit area base with its low 12 bits taken as 0 (R149). -/
def areaBase (s : State) : Nat := (s.window.baseHigh.toNat * 4294967296 + s.window.baseLow.toNat) / 4096 * 4096

/-- The Area Controller begins a transaction. -/
def areaIssue (t : Transaction AreaOp) (s : State) : State := s.modArea fun a => { a with bus := some t }

/-- The Area Controller's transaction in progress is over. -/
def areaDone (s : State) : State := s.modArea fun a => { a with bus := none }

/-- The Area Controller begins a read of one region at an offset of the Area. -/
def areaRead (op : AreaOp) (offset length : Nat) (s : State) : State :=
  areaIssue (readTransaction op [(areaBase s + offset, length)]) s

/-- The Area Controller begins a write of consecutive bytes at an offset of the Area. -/
def areaWrite (op : AreaOp) (offset : Nat) (data : List Byte) (s : State) : State :=
  areaIssue (writeTransaction op (areaBase s + offset) data) s

/-! ## Windows (R48, R51, R59, R61) -/

/-- The tick count has reached a tick: their difference, modulo 2^32, is below 2^31 (R47; log 3). -/
def reached (now expiry : Tick) : Bool := (now - expiry).toNat < 2147483648

/-- A RUNNING window has expired and its expiry has not been taken (log 3). -/
def Window.due (now : Tick) : Window → Bool
  | .running e => reached now e
  | _ => false

/-- The remaining ticks of a window (R51). -/
def Window.remaining (now : Tick) : Window → Nat
  | .running e => if reached now e then 0 else (e - now).toNat
  | .frozen r => r
  | .stopped => 0

/-- The window is RUNNING or FROZEN. -/
def Window.active : Window → Bool
  | .stopped => false
  | _ => true

/-- The window is RUNNING. -/
def Window.isRunning : Window → Bool
  | .running _ => true
  | _ => false

/-- PAUSE freezes a RUNNING window (R59). -/
def Window.freeze (now : Tick) : Window → Window
  | .running e => .frozen (Window.remaining now (.running e))
  | w => w

/-- RESUME restarts a FROZEN window (R61). -/
def Window.thaw (now : Tick) : Window → Window
  | .frozen r => .running (now + BitVec.ofNat 32 r)
  | w => w

/-- A window started with a length: RUNNING, or FROZEN while the engine is PAUSED (R48). -/
def startWindow (s : State) (length : Nat) : Window :=
  if s.engine = .paused then .frozen length else .running (s.tickCount + BitVec.ofNat 32 length)

/-- Ticks from an earlier tick to the present one, modulo 2^32 (R47). -/
def ticksSince (s : State) (t : Tick) : Nat := (s.tickCount - t).toNat

/-! ## Attention (R175) -/

/-- The bit of a cause in EVENT, MASK and FORCE (12.1). -/
def Cause.bit : Cause → Nat
  | .callEnded => 0 | .callHeld => 1 | .escalated => 2 | .overdue => 3 | .exhausted => 4 | .arrivalOverdue => 5
  | .journalMark => 6 | .journalStalled => 7 | .serverLost => 8 | .serverBack => 9 | .fieldFault => 10 | .memoryFault => 11
  | .engineChange => 12 | .controlRefused => 13

/-- The mask of one cause. -/
def Cause.mask (c : Cause) : BitVec 14 := BitVec.twoPow 14 c.bit

/-- Raising a cause sets its bit in EVENT, whatever MASK holds (R175). -/
def raise (c : Cause) (s : State) : State := s.modAttention fun a => { a with event := a.event ||| c.mask }

/-! ## Slot images (R2) -/

/-- The image of a slot. -/
def slotImage (s : State) (slot : Nat) : SlotImage := s.area.slots.getD slot (.emptyWith 0 0)

/-- A change of a slot image marks the slot dirty. -/
def SlotImage.change (f : SlotImage → SlotImage) (i : SlotImage) : SlotImage :=
  if f i = i then i else { f i with dirty := true, touched := true }

def modSlot (slot : Nat) (f : SlotImage → SlotImage) (s : State) : State :=
  s.modArea fun a => { a with slots := a.slots.modify slot (SlotImage.change f) }

/-! ## Contexts -/

/-- A call context by number. -/
def context (s : State) (c : Nat) : Context := s.calls.contexts.getD c .empty

def modContext (c : Nat) (f : Context → Context) (s : State) : State :=
  s.modCalls fun k => { k with contexts := k.contexts.modify c f }

/-- The slot state a context state shows (chapter 1.3). -/
def CallState.toSlot : CallState → SlotState
  | .free => .empty | .paging => .paging | .held => .held | .accepted => .accepted | .onSite => .onSite

/-- The slot image shows what the context that holds its call shows (R2, R24, R28). -/
def showContext (c : Nat) (s : State) : State :=
  let k := context s c
  match k.slot with
  | none => s
  | some i => modSlot i (fun g => { g with
      state := k.state.toSlot, rung := k.rung, pass := k.pass, site := k.site, tag := some k.tag, accepter := k.accepter,
      admitTick := k.admitTick, acceptTick := k.acceptTick, arriveTick := k.arriveTick }) s

/-- The entry of a member in a contacted list, if there is one (R31). -/
def Context.contact (k : Context) (m : Nat) : Option Contact := k.contacted.find? (·.member == m)

/-- A change of a member's entry in a contacted list. -/
def Context.modContact (m : Nat) (f : Contact → Contact) (k : Context) : Context :=
  { k with contacted := k.contacted.map fun e => if e.member = m then f e else e }

/-- The member is marked current in the contacted list (R32). -/
def Context.isCurrent (k : Context) (m : Nat) : Bool := k.contacted.any fun e => e.member == m && e.current

/-- The members marked current, in the list's order. -/
def Context.currentMembers (k : Context) : List Nat := (k.contacted.filter (·.current)).map (·.member)

/-- The context holds a live call. -/
def Context.live (k : Context) : Bool := k.state != .free

/-- A tag's context number (R105). -/
def tagContext (tag : Nat) : Nat := tag % 128

/-- The tag is live: its context number is 0 to 64, the context is not FREE, and its reuse count equals the tag's (R105). -/
def tagLive (s : State) (tag : Nat) : Bool :=
  tagContext tag ≤ 64 && (context s (tagContext tag)).live && (context s (tagContext tag)).reuse == tag / 128

/-! ## Members -/

/-- A member record that says nothing (R64). -/
def Member.empty : Member where
  engaged := none
  paged := 0
  lastZone := none
  lastTick := 0
  offDutyPending := false
  dirty := false
  touched := false

/-- The registry record of a roster index. -/
def member (s : State) (m : Nat) : Member := s.roster.members.getD m .empty

/-- A change of a member record marks its mirror entry dirty (R65, R81). -/
def Member.change (f : Member → Member) (r : Member) : Member :=
  if f r = r then r else { f r with dirty := true, touched := true }

def modMember (m : Nat) (f : Member → Member) (s : State) : State :=
  s.modRoster fun r => { r with members := r.members.modify m (Member.change f) }

/-! ## Drops -/

/-- The drop at an address 1 to 16 of a line, if the line has drop records. -/
def drop? (s : State) (l : LineId) (address : Nat) : Option Drop :=
  if address = 0 then none else (s.line l).drops[address - 1]?

def Line.modDrop (address : Nat) (f : Drop → Drop) (n : Line) : Line :=
  { n with drops := n.drops.modify (address - 1) f }

def modDrop (l : LineId) (address : Nat) (f : Drop → Drop) (s : State) : State := s.modLine l (Line.modDrop address f)

/-- The drop's mirror entry is dirty (R160). -/
def Drop.markDirty (d : Drop) : Drop := { d with dirty := true, touched := true }

/-- Every address of both lines, line 0 addresses 1 to 16 and then line 1 addresses 1 to 16 (R87, R157). -/
def allAddresses : List (LineId × Nat) :=
  ((List.range 16).map fun i => (LineId.l0, i + 1)) ++ ((List.range 16).map fun i => (LineId.l1, i + 1))

/-- Each drop of both lines. -/
def State.mapDrops (f : Drop → Drop) (s : State) : State :=
  { s with line0 := { s.line0 with drops := s.line0.drops.map f }, line1 := { s.line1 with drops := s.line1.drops.map f } }

/-- The drops of both lines. -/
def allDrops (s : State) : List Drop := s.line0.drops ++ s.line1.drops

end Sys2Proof.Machine
end

