-- ==== Sys2Proof/Machine/Flags.lean ====
section
/-! DEFINITION. Machine/Flags.lean: what the register window shows (R170, 12.1): the live conditions of ATTENTION STATE, the
interrupt line, STATUS, and the value each register reads; and the pins of a field line. All of it is computed from the
state that the conditions stand in, so that it follows each condition in the event that changes it (R175). -/

namespace Sys2Proof.Machine

/-- The lamp is FAULT or STUCK (R146). -/
def Lamp.faulty (l : Lamp) : Bool := l.flag != .ok

/-- The drop holds FIELD FAULT PRESENT: it is SILENT or ISOLATED, or a lamp of its station is FAULT or STUCK (R123, R146). -/
def Drop.faulty (d : Drop) : Bool :=
  d.state == .silent || d.state == .isolated || d.station.any fun t => t.call.faulty || t.attend.faulty

/-- HELD PRESENT: some call, the fallback call included, is HELD (R42). -/
def heldPresent (s : State) : Bool := s.calls.contexts.any (·.state == .held)

/-- JOURNAL STALLED (R164). -/
def journalStalled (s : State) : Bool := s.journal.state == .stalled

/-- FIELD FAULT PRESENT (R123, R146). -/
def fieldFaultPresent (s : State) : Bool := (allDrops s).any Drop.faulty

/-- BACKLOG NOT EMPTY (R11). -/
def backlogNotEmpty (s : State) : Bool := !s.calls.backlog.isEmpty

/-- ENGINE ACTIVE (R172); the engine is in LOADING, RUNNING, PAUSED or STOPPING. -/
def EngineState.active : EngineState → Bool
  | .idle => false | .loading => true | .running => true | .paused => true | .stopping => true | .failed => false

/-- Bit k of a word. -/
def bitAt (k : Nat) (b : Bool) : Nat := if b then 2 ^ k else 0

/-- ATTENTION STATE (12.1, R175). -/
def attentionState (s : State) : Word :=
  BitVec.ofNat 32 (bitAt 0 (heldPresent s) + bitAt 1 (journalStalled s) + bitAt 2 s.watch.serverLost
    + bitAt 3 (fieldFaultPresent s) + bitAt 4 s.area.memoryFault + bitAt 5 (backlogNotEmpty s) + bitAt 6 s.engine.active)

/-- INTx is asserted while at least one bit is set both in EVENT and in MASK (R175). -/
def intx (s : State) : Bool := s.attention.event &&& s.attention.mask != 0#14

/-- STATUS (12.1). -/
def status (s : State) : Word :=
  BitVec.ofNat 32 (s.engine.code + 16 * s.window.loadError.code + bitAt 8 s.area.scanInFlight + bitAt 9 s.area.nudgePending
    + 4096 * s.line0.state.code + 16384 * s.line1.state.code)

/-- What a read of the register at an offset of the window returns (R170); no other offset is defined, and undefined bits
read 0. -/
def readRegister (s : State) (offset : Nat) : Word :=
  match offset with
  | 0x00 => Config.ident
  | 0x04 => BitVec.ofNat 32 s.window.control.code
  | 0x08 => status s
  | 0x0C => s.window.baseLow
  | 0x10 => s.window.baseHigh
  | 0x14 => s.attention.event.setWidth 32
  | 0x18 => s.attention.mask.setWidth 32
  | 0x1C => attentionState s
  | _ => 0

/-- The driver enable pin of a line: active in the break and while a frame is sent (R120, R121). -/
def driverEnabled (n : Line) : Bool :=
  match n.phase with
  | .breaking => true
  | .sending _ => true
  | .restartFrame _ => true
  | _ => false

/-- The transmit data output rests high outside a frame and is low through a break (R120, R121); while a frame is sent it
takes the levels of transmitLevels. -/
def transmitRestsHigh (n : Line) : Bool := n.phase != .breaking

/-- The levels of a byte on a line, one bit time each: a start bit, eight data bits from the least significant, a stop bit
(R120). -/
def byteLevels (b : Byte) : List Bool := false :: (List.range 8).map b.getLsbD ++ [true]

/-- The levels that the transmit data output takes while the line sends a frame (R120, R122, R127). -/
def transmitLevels (n : Line) : List Bool :=
  match n.phase with
  | .sending x => x.frame.flatMap byteLevels
  | .restartFrame frame => frame.flatMap byteLevels
  | _ => []

end Sys2Proof.Machine
end

