-- ==== Sys2Proof/Machine/Journal.lean ====
section
/-! DEFINITION. Machine/Journal.lean: the Journal Writer (chapter 10): submission, the writing of records and GAPs, closing,
taking, stalling, restart, and what a transaction that errs does (R163 to R168). -/

namespace Sys2Proof.Machine

/-- A record of no call, with nothing in its fields (R169). -/
def blankRecord (kind : RecordKind) : JournalRecord where
  kind := kind
  zone := 0
  tick := 0
  slot := none
  tag := none
  callNumber := 0
  member := none
  line := none
  drop := 0
  detail1 := 0
  detail2 := 0
  origin := 0

/-- The server address of a descriptor (12.7). -/
def descriptorAt (s : State) (index : Nat) : Nat := areaBase s + s.area.directory.descriptors.offset + 24 * index

/-- The Journal Writer begins a transaction. -/
def journalIssue (t : Transaction JournalOp) (s : State) : State := s.modJournal fun j => { j with bus := some t }

/-- The Journal Writer's transaction in progress is over. -/
def journalDone (s : State) : State := s.modJournal fun j => { j with bus := none }

/-- Each skipped record steps the skipped count, which holds at 65,535 (R165). -/
def Journal.skip (n : Nat) (j : Journal) : Journal := { j with skipped := min Config.skippedLimit (j.skipped + n) }

/-- The pending records are skipped (R165). -/
def Journal.skipPending (j : Journal) : Journal := { j.skip j.pending.length with pending := [] }

/-- Entry into STALLED: the pending records are skipped and JOURNAL STALLED attention is raised (R164 to R166). -/
def enterStalled (s : State) : State :=
  raise .journalStalled (s.modJournal fun j => { j.skipPending with state := .stalled })

/-- The journal is left STALLED: an entry into it when it was not there already (R164). -/
def leaveStalled (s : State) : State := if s.journal.state = .stalled then s else enterStalled s

/-- Closing the block: the FULL write of the current descriptor's state (R166, 12.7). -/
def issueClose (s : State) : State :=
  journalIssue (writeTransaction .closeWrite (descriptorAt s s.journal.index + 12) [2#8]) s

/-- A record is written at its fill position under the next sequence number (R165); `gap` is the count a GAP carries. -/
def issueRecord (r : JournalRecord) (gap : Option Nat) (s : State) : State :=
  journalIssue (writeTransaction (.recordWrite gap) (s.journal.blockAddress + 32 * s.journal.fill)
    (recordBytes r s.journal.nextSequence)) s

/-- The GAP record of a skipped count, at the present tick (R165, R169). -/
def gapRecord (s : State) : JournalRecord :=
  { blankRecord .gap with tick := s.tickCount, detail1 := s.journal.skipped }

/-- The Journal Writer goes on with its next write: the close of a full block, then a GAP, then the head of the pending
list. It makes no transaction of its own while the memory-fault flag is set (R165 to R167). DESIGN CHOICE (log 78): a block that is filled
while the flag is set leaves the journal WRITING, and is closed as the flag clears, before the GAP. -/
def pump (s : State) : State :=
  if s.journal.state ≠ .writing ∨ s.area.memoryFault ∨ s.journal.bus.isSome then s
  else if s.journal.capacity ≤ s.journal.fill then issueClose s
  else if 0 < s.journal.skipped then issueRecord (gapRecord s) (some s.journal.skipped) s
  else
    match s.journal.pending with
    | [] => s
    | r :: _ => issueRecord r none s

/-- A record is submitted with the tick of its event: it joins the tail of the pending list in WRITING, and is skipped when
the list is full, in any other state, and while the memory-fault flag is set (R165). -/
def submit (r : JournalRecord) (s : State) : State :=
  if s.journal.state ≠ .writing ∨ s.area.memoryFault ∨ Config.pendingCapacity ≤ s.journal.pending.length then
    pump (s.modJournal (Journal.skip 1))
  else pump (s.modJournal fun j => { j with pending := j.pending ++ [{ r with tick := s.tickCount }] })

/-- The take of a descriptor begins with its read (R163). DESIGN CHOICE (log 91): the descriptor index is that of the descriptor being taken
from here on. -/
def issueTake (index : Nat) (s : State) : State :=
  journalIssue (readTransaction .takeRead [(descriptorAt s index, 24)]) (s.modJournal fun j => { j with index := index })

/-- The take of a descriptor, which begins as the bytes of a given-up record end where these are on their way still (R163). DESIGN CHOICE
(log 87): the Journal Writer makes one transaction at a time. -/
def beginTake (index : Nat) (s : State) : State :=
  match s.journal.bus with
  | none => issueTake index s
  | some t =>
    if t.op = .orphanWrite then s.modJournal fun j => { j with index := index, bus := some { t with op := .orphanBeforeTake } }
    else issueTake index s

/-- A take or a close of the Journal Writer, or the take that waits for bytes on their way (R166). -/
def JournalOp.takesOrCloses : JournalOp → Bool
  | .takeRead => true | .takeWrite => true | .closeWrite => true | .orphanBeforeTake => true
  | .recordWrite _ => false | .orphanWrite => false | .fillWrite _ => false

/-- The descriptor read as EMPTY is taken: its block, capacity and flags are kept and the FILLING write follows (R163). -/
def takeFrom (data : List Byte) (s : State) : State :=
  let s := s.modJournal fun j => { j with
    blockAddress := descriptorAddress data, capacity := descriptorCapacity data,
    last := bitOf (byteAt data 10) 0, wrap := bitOf (byteAt data 10) 1, mark := bitOf (byteAt data 10) 2, fill := 0 }
  journalIssue (writeTransaction .takeWrite (descriptorAt s s.journal.index + 12) (takeBytes s.journal.nextSequence)) s

/-- The successor of the current descriptor (R163). -/
def successor (s : State) : Option Nat :=
  if !s.journal.last && s.journal.index + 1 < s.area.directory.descriptors.count then some (s.journal.index + 1)
  else if s.journal.wrap then some 0
  else none

/-- A restart gives up the record or GAP whose bytes are being written: no fill count follows them, the record stays pending and the
skipped count stands, and the block closes at its present fill position (R168; log 21). -/
def Journal.abandonWrite (j : Journal) : Journal :=
  { j with bus := j.bus.map fun t => match t.op with | .recordWrite _ => { t with op := .orphanWrite } | _ => t }

/-- A restart waits for a transaction of the Journal Writer in progress; but with the memory-fault flag set in WRITING, where it makes
none of its own, it does not wait for bytes that no fill count will follow (R168; log 21). -/
def restartWaits (s : State) : Bool :=
  s.journal.bus.any fun t => t.op != .orphanWrite || s.journal.state != .writing || !s.area.memoryFault

/-- A restart that need not wait is settled against the journal's state (R168). -/
def settleRestart (s : State) : State :=
  if !s.journal.restartPending || restartWaits s then s
  else
    let s := s.modJournal fun j => { j with restartPending := false }
    match s.journal.state with
    | .writing =>
      if s.area.memoryFault then
        enterStalled (s.modJournal fun j => { j with closePending := true, closeThenZero := true })
      else issueClose (s.modJournal fun j => { j with closeThenZero := true })
    | .stalled =>
      if s.journal.closePending then s.modJournal fun j => { j with closeThenZero := true }
      else if s.area.memoryFault then s.modJournal fun j => { j with index := 0 }
      else issueTake 0 s
    | .ended =>
      if s.area.memoryFault then enterStalled (s.modJournal fun j => { j with index := 0 })
      else issueTake 0 s
    | .off => s

/-- No transaction of the Journal Writer is in progress: it settles a waiting restart, or goes on writing. -/
def journalFree (s : State) : State := pump (settleRestart s)

/-- A journal restart request is handed to the Journal Writer (R156, R168). -/
def requestRestart (s : State) : State :=
  journalFree (s.modJournal fun j => { j.abandonWrite with restartPending := true })

/-- What follows a close (R166, R168): descriptor 0 when a restart asked for this close, or when one waits that met it and there is
a successor, in whose place it is taken (log 21); else the successor, if there is one. -/
def closeTakes (s : State) : Option Nat :=
  if s.journal.closeThenZero then some 0
  else (successor s).map fun i => if s.journal.restartPending then 0 else i

/-- After a close the descriptor that follows is taken, which leaves the journal WRITING (R163, R166), unless the memory-fault flag
forbids the take (log 22). With none the journal is ENDED, its pending records skipped, and a restart that met the close is settled
against that (R168). -/
def afterClose (s : State) : State :=
  let next := closeTakes s
  let s := s.modJournal fun j => { j with closePending := false, closeThenZero := false }
  let s := if s.journal.mark then raise .journalMark s else s
  match next with
  | none => journalFree (s.modJournal fun j => { j.skipPending with state := .ended })
  | some i =>
    let s := s.modJournal fun j => { j with restartPending := false }
    if s.area.memoryFault then leaveStalled (s.modJournal fun j => { j with index := i })
    else beginTake i (s.modJournal fun j => { j with state := .writing })

/-- The bytes of a given-up record that a take waited for have ended: the take begins, unless the memory-fault flag forbids it (log 22,
log 87). -/
def orphanBeforeTakeDone (s : State) : State :=
  let s := journalDone s
  if s.area.memoryFault then journalFree (leaveStalled s) else issueTake s.journal.index s

/-- The read of a take has completed (R163). -/
def takeReadDone (data : List Byte) (s : State) : State :=
  let s := journalDone s
  if !descriptorEmpty data then journalFree (enterStalled s)
  else if s.area.memoryFault then journalFree (leaveStalled s)
  else takeFrom data s

/-- The FILLING write of a take has completed (R163). -/
def takeWriteDone (s : State) : State :=
  journalFree ((journalDone s).modJournal fun j => { j with state := .writing })

/-- A record write has completed: the fill-count write follows, unless the memory-fault flag is set (R165, R167). -/
def recordWriteDone (gap : Option Nat) (s : State) : State :=
  let s := journalDone s
  if s.area.memoryFault then journalFree s
  else journalIssue (writeTransaction (.fillWrite gap) (descriptorAt s s.journal.index + 14)
    (bytes16 (s.journal.fill + 1))) s

/-- The fill-count write has completed: the record is written (R165; log 20 for records skipped while a GAP was on its
way). -/
def fillWriteDone (gap : Option Nat) (s : State) : State :=
  let s := (journalDone s).modJournal fun j => { j with nextSequence := (j.nextSequence + 1) % 65536, fill := j.fill + 1 }
  journalFree (s.modJournal fun j =>
    match gap with
    | some n => { j with skipped := j.skipped - n }
    | none => { j with pending := j.pending.tail })

/-- The records pending when the memory-fault flag is set are skipped (R165), but for one whose fill-count write is in
progress; the write of a skipped record that is in progress is left to finish (log 19). -/
def Journal.skipForFault (j : Journal) : Journal :=
  match j.bus with
  | none => j.skipPending
  | some t =>
    match t.op with
    | .fillWrite none => { j.skip (j.pending.length - 1) with pending := j.pending.take 1 }
    | .recordWrite none => { j.skipPending with bus := some { t with op := .orphanWrite } }
    | _ => j.skipPending

/-- An error reaches the memory-fault flag: when clear, it is set, MEMORY FAULT is raised and AREA UNREACHABLE follows
(R161), and the pending records are skipped (R165). -/
def setMemoryFault (s : State) : State :=
  if s.area.memoryFault then s
  else raise .memoryFault
    ((s.modArea fun a => { a with memoryFault := true, faultInScan := true }).modJournal Journal.skipForFault)

/-- The memory-fault flag is cleared, and a journal in WRITING writes its GAP at once (R162, R167). -/
def clearMemoryFault (s : State) : State := journalFree (s.modArea fun a => { a with memoryFault := false })

/-- What an error of the Journal Writer's transaction does beside setting the flag (R167). DESIGN CHOICE (log 85): the journal that a failed
take leaves STALLED, which was STALLED when a restart began that take, does not enter it again. -/
def journalFailed (op : JournalOp) (s : State) : State :=
  match op with
  | .takeRead => journalFree (leaveStalled s)
  | .takeWrite => journalFree (leaveStalled s)
  | .recordWrite _ => journalFree s
  | .orphanWrite => journalFree s
  | .orphanBeforeTake => journalFree (leaveStalled s)
  | .fillWrite _ => journalFree s
  | .closeWrite =>
    journalFree (leaveStalled (s.modJournal fun j => { j with closePending := true }))

/-- A transaction of the Journal Writer completed with error (R161, R167). A record whose write or fill-count write failed is
skipped: with the flag newly set, as every pending record is; with the flag set before, here. -/
def journalError (t : Transaction JournalOp) (s : State) : State :=
  let s := setMemoryFault (journalDone (landFaulted t s))
  journalFailed t.op (s.modJournal Journal.skipPending)

/-- The journal leaves OFF by taking descriptor 0 (R153, R164). -/
def journalBegin (s : State) : State := issueTake 0 (s.modJournal fun _ => { Journal.empty with state := .writing })

/-- The engine enters IDLE: the journal is OFF, its pending list emptied without count (R164); a transaction in progress is
abandoned (log 23). -/
def journalOff (s : State) : State :=
  s.modJournal fun j => { j with
    state := .off, closePending := false, closeThenZero := false, restartPending := false, pending := [], bus := none }

end Sys2Proof.Machine
end

