-- ==== Sys2Proof/Machine/Roster.lean ====
section
/-! DEFINITION. Machine/Roster.lean: the Roster Store: effective pager addresses and duty (R63), the derived member state
(R65), crews and rotation pointers (R72 to R74), zones (R152), ladders (R26, R27), location freshness (R71), the member status
mirror (R80), and the reload of records and pointers (R75 to R79). -/

namespace Sys2Proof.Machine

/-! ## Duty (R63) -/

/-- The duty reasons (R63, R80, 12.9). -/
inductive DutyReason where
  | onDuty | notOnRoster | offShift | noPager | shadowed
  deriving DecidableEq, Repr

def DutyReason.code : DutyReason → Nat
  | .onDuty => 0 | .notOnRoster => 1 | .offShift => 2 | .noPager => 3 | .shadowed => 4

/-- The roster entry of an index; none at or above the roster count. -/
def rosterEntry (t : Tables) (m : Nat) : Option RosterEntry := if m < 512 then t.roster[m]? else none

/-- A nonzero pager address that a lower-numbered entry holds too is shadowed (R63). -/
def isShadowed (t : Tables) (m pager : Nat) : Bool := pager != 0 && (t.roster.take m).any (·.pager == pager)

/-- The effective pager address of a roster index (R63). -/
def effectivePager (t : Tables) (m : Nat) : Nat :=
  match rosterEntry t m with
  | none => 0
  | some e => if isShadowed t m e.pager then 0 else e.pager

/-- Why a member is off duty: the first that applies (R63). -/
def dutyReason (t : Tables) (m : Nat) : DutyReason :=
  match rosterEntry t m with
  | none => .notOnRoster
  | some e =>
    if !e.onShift then .offShift
    else if e.pager = 0 then .noPager
    else if isShadowed t m e.pager then .shadowed
    else .onDuty

/-- The member is on duty (R63). -/
def onDuty (t : Tables) (m : Nat) : Bool := dutyReason t m == .onDuty

/-- The home zone of a roster index, 0 for none (R63). -/
def homeZone (t : Tables) (m : Nat) : Nat := ((rosterEntry t m).map (·.home)).getD 0

/-- The member whose effective pager address this is: the lowest-numbered entry that holds it (R63, R104). -/
def memberOfPager (t : Tables) (pager : Nat) : Option Nat :=
  if pager = 0 then none else t.roster.findIdx? (·.pager == pager)

/-! ## Member state (R65) -/

/-- The four states of a member record (R64). -/
inductive MemberState where
  | offShift | idle | paged | engaged
  deriving DecidableEq, Repr

def MemberState.code : MemberState → Nat
  | .offShift => 0 | .idle => 1 | .paged => 2 | .engaged => 3

/-- The state of a record from its other fields: the first matching row of R65's table. -/
def Member.state (duty : Bool) (r : Member) : MemberState :=
  if r.engaged.isSome then .engaged
  else if !duty then .offShift
  else if 0 < r.paged then .paged
  else .idle

/-- The state of a roster index's record. -/
def memberState (s : State) (m : Nat) : MemberState := (member s m).state (onDuty s.roster.tables m)

/-- A member mirror entry (R80, 12.6). DESIGN CHOICE (log 86): bits 7:1 of offset 2 are 0. -/
def memberEntryBytes (t : Tables) (m : Nat) (r : Member) : List Byte :=
  [byteOf (r.state (onDuty t m)).code, byteOf (dutyReason t m).code, flagByte r.offDutyPending, byteOf r.paged]
    ++ optional16 r.engaged ++ [byteOf (r.lastZone.getD 0), 0] ++ wordBytes r.lastTick ++ List.replicate 4 0

/-! ## Paged counts, engagement and release (R66 to R69) -/

/-- The paged count is stepped (R66). -/
def stepPaged (m : Nat) (s : State) : State := modMember m (fun r => { r with paged := r.paged + 1 }) s

/-- The paged count is lowered (R66). -/
def lowerPaged (m : Nat) (s : State) : State := modMember m (fun r => { r with paged := r.paged - 1 }) s

/-- The member is engaged with a tag (R67, R69). -/
def engage (m tag : Nat) (s : State) : State := modMember m (fun r => { r with engaged := some tag }) s

/-- The member is released (R68). -/
def release (m : Nat) (s : State) : State := modMember m (fun r => { r with engaged := none, offDutyPending := false }) s

/-! ## Location (R70, R71) -/

/-- A report of the member was carried by a transmitter of this zone (R70). -/
def heard (m zone : Nat) (s : State) : State :=
  modMember m (fun r => { r with lastZone := some zone, lastTick := s.tickCount }) s

/-- The last-heard zone of a member whose location is fresh (R71). -/
def freshZone (s : State) (m : Nat) : Option Nat :=
  let r := member s m
  if ticksSince s r.lastTick ≤ s.roster.settings.locationAge then r.lastZone else none

/-! ## Zones, crews and ladders (R26, R27, R72, R73, R152) -/

/-- The zone is enabled in the loaded zone table; a zone above the table's count is not (R152). -/
def zoneEnabled (t : Tables) (z : Nat) : Bool := z != 0 && ((t.zones[z - 1]?).map (·.enabled)).getD false

/-- The zones enabled in the loaded zone table, of zones 1 to 24. -/
def enabledZones (t : Tables) : List Nat := ((List.range 24).map (· + 1)).filter (zoneEnabled t)

/-- The reach percent R of a call's zone: of its zone record, 100 above the table's count, the plant reach percent for
zone 0 (R49, R152). -/
def reachPercent (s : State) (z : Nat) : Nat :=
  if z = 0 then s.roster.settings.plantReach
  else ((s.roster.tables.zones[z - 1]?).map (·.reach)).getD 100

/-- A crew's member list: as many of its indexes as its member count says (12.4). -/
def Crew.list (c : Crew) : List Nat := c.indexes.take c.count

/-- The member list of a crew; empty for a crew the table does not hold. -/
def crewList (t : Tables) (crew : Nat) : List Nat := ((t.crews[crew]?).map Crew.list).getD []

/-- The distinct members of a list, each at its first position (R33). -/
def distinct : List Nat → List Nat
  | [] => []
  | m :: rest => m :: (distinct rest).filter (· != m)

/-- A ladder that can be walked: within the table's count and with a rung (R8). -/
def ladderUsable (t : Tables) (n : Nat) : Bool := n < 32 && ((t.ladders[n]?).map fun l => decide (0 < l.rungCount)).getD false

/-- A ladder of nothing, for a number the table does not hold. -/
def Ladder.empty : Ladder where
  rungCount := 0
  stopRung := none
  repeatLimit := 0
  arrivalClass := 0
  rungs := []

/-- A rung of nothing, whose target kind is none of the five. -/
def Rung.empty : Rung where
  kind := 0
  number := 0
  windowClass := 0
  last := false
  hold := false
  rep := false

/-- The ladder of a number in the loaded table. DESIGN CHOICE (log 51): a number that the table does not hold, which only a rung
ended by a reload's losses before R46's adjustments can meet, is read as a ladder of nothing. -/
def ladderOf (t : Tables) (n : Nat) : Ladder := t.ladders.getD n .empty

/-- The rung record of a ladder. -/
def Ladder.rung (l : Ladder) (r : Nat) : Rung := l.rungs.getD r .empty

/-- The effective last rung: the lowest-numbered rung below the rung count that has LAST set, or rung count − 1 (R27). -/
def Ladder.effectiveLast (l : Ladder) : Nat :=
  ((l.rungs.take l.rungCount).findIdx? (·.last)).getD (l.rungCount - 1)

/-! ## Rotation pointers (R73, R74, R79) -/

/-- The pointer of every crew the member belongs to moves to the position after the member's first position, or to 0 when
that is the last of the list (R74). -/
def moveRotationPointers (m : Nat) (s : State) : State :=
  s.modRoster fun r => { r with
    pointers := r.pointers.mapIdx fun i p =>
      let list := crewList r.tables i
      match list.findIdx? (· == m) with
      | none => p
      | some k => if k + 1 < list.length then k + 1 else 0 }

/-- A reload sets every pointer anew: kept below the new member count, 0 otherwise (R79). -/
def reloadedPointers (old : List Nat) (t : Tables) : List Nat :=
  t.crews.mapIdx fun i c => let p := old.getD i 0; if p < c.list.length then p else 0

/-! ## Members under a reload (R71, R75 to R78) -/

/-- A record brought to the new tables: last-heard is cleared when the effective pager address changes (R71, R78), and
off-duty pending is set while an ENGAGED member is off duty and clear otherwise (R77). -/
def Member.reload (old new : Tables) (m : Nat) (r : Member) : Member :=
  let moved := effectivePager old m ≠ effectivePager new m
  { r with
    lastZone := if moved then none else r.lastZone
    lastTick := if moved then 0 else r.lastTick
    offDutyPending := r.engaged.isSome && !onDuty new m }

/-- The same, with the mirror entry dirty when anything it shows has changed (R65, R81). -/
def Member.reloadShown (old new : Tables) (m : Nat) (r : Member) : Member :=
  let r' := r.reload old new m
  if memberEntryBytes old m r = memberEntryBytes new m r' then r' else { r' with dirty := true, touched := true }

/-- The member loses every current mark at the reload: on duty before it, and off duty after it or under another effective
pager address (R75 to R78). -/
def losesMarks (old new : Tables) (m : Nat) : Bool :=
  onDuty old m && (!onDuty new m || effectivePager old m != effectivePager new m)

/-- The Roster Store brings every record and pointer to the new tables and installs them (R75, R159 steps 1 and 2). -/
def installTables (new : Tables) (s : State) : State :=
  s.modRoster fun r => { r with
    tables := new
    members := r.members.mapIdx fun m x => x.reloadShown r.tables new m
    pointers := reloadedPointers r.pointers new }

end Sys2Proof.Machine
end

