-- ==== Sys2Proof/Machine/Delivery.lean ====
section
/-! DEFINITION. Machine/Delivery.lean: the Page Dispatcher (chapter 5): urgency, the air queues, routes and reach stages,
delivery records, takes, receipts, withdrawals, retries, and what happens when a transmitter leaves READY (R58, R82 to R102). -/

namespace Sys2Proof.Machine

/-! ## Records about calls and tags (R169) -/

/-- A record of a context's call, with the fields every such record carries (R169). -/
def callRecord (kind : RecordKind) (k : Context) : JournalRecord :=
  { blankRecord kind with zone := k.zone, slot := k.slot, tag := some k.tag, callNumber := k.callNumber, origin := k.origin }

/-- A record that names a tag: a record of its call when the tag is live, and of no call otherwise. -/
def tagRecord (s : State) (kind : RecordKind) (tag : Nat) : JournalRecord :=
  if tagLive s tag then { callRecord kind (context s (tagContext tag)) with tag := some tag }
  else { blankRecord kind with tag := some tag }

/-! ## Urgency (R58) -/

/-- The urgency of a severity and an age in seconds, with the bonus of a control message. -/
def urgencyOf (severity : Nat) (isControl : Bool) (age : Nat) : Nat :=
  (5 - severity) * 1000 + (if isControl then 500 else 0) + min age 499

/-- CONFIRM, CANCEL and STAND DOWN are control messages (R82). -/
def MessageKind.isControl : MessageKind → Bool
  | .page => false | .remind => false | .arrivalCheck => false | .confirm => true | .cancel => true | .standDown => true

/-- The urgency of a call's message at this moment: its present severity and its age since its admit tick (R58). -/
def callUrgency (s : State) (k : Context) (isControl : Bool) : Nat :=
  urgencyOf k.severity isControl (ticksSince s k.admitTick / 10)

/-- The urgency of a message at its enqueue. A STAND DOWN whose tag finds no live call takes severity 4 and age 0 (R58); a
CANCEL queued by the end of its call keeps the urgency of that end; for another CANCEL or a CONFIRM that is re-routed after
its call has ended the spec states none, and severity and age are free values (log 8). -/
def messageUrgency (s : State) (m : Message) (endUrgency : Option Nat) : Nat :=
  match endUrgency with
  | some u => u
  | none =>
    if tagLive s m.tag then callUrgency s (context s (tagContext m.tag)) m.kind.isControl
    else if m.kind = .standDown then urgencyOf 4 true 0
    else urgencyOf (1 + Config.orphanSeverity s.draws % 4) m.kind.isControl (Config.orphanAge s.draws % 500)

/-! ## The air queues (R84, R85) -/

/-- Places an entry by its urgency, highest first, after every entry of equal urgency: it has the latest order number. -/
def placeEntry (e : AirEntry) : List AirEntry → List AirEntry
  | [] => [e]
  | x :: rest => if x.urgency < e.urgency then e :: x :: rest else x :: placeEntry e rest

/-- Two entries with the same call tag, member and message kind (R85). -/
def AirEntry.sameMessage (a b : AirEntry) : Bool :=
  a.message.tag == b.message.tag && a.message.member == b.message.member && a.message.kind == b.message.kind

/-- What an enqueue comes to (R85): the queue after it, whether the entry was placed, and the entry it displaced. -/
structure Placement where
  queue : List AirEntry
  placed : Bool
  displaced : Option AirEntry
  deriving DecidableEq, Repr

/-- R85: replacement, then room, then displacement of the lowest entry, which is the queue's last. -/
def settleEntry (e : AirEntry) (q : List AirEntry) : Placement :=
  if q.any (AirEntry.sameMessage e) then
    { queue := placeEntry e (q.filter fun x => !AirEntry.sameMessage e x), placed := true, displaced := none }
  else if q.length < Config.queueCapacity then { queue := placeEntry e q, placed := true, displaced := none }
  else
    match q.getLast? with
    | none => { queue := q, placed := false, displaced := none }
    | some lowest =>
      if lowest.urgency < e.urgency then
        { queue := placeEntry e q.dropLast, placed := true, displaced := some lowest }
      else { queue := q, placed := false, displaced := none }

/-! ## Delivery records -/

/-- The record of an identity. -/
def delivery? (s : State) (serial : Nat) : Option Delivery := s.dispatcher.records.find? (·.serial == serial)

/-- The record of a key (R83). -/
def deliveryOf (s : State) (key : RecordKey) : Option Delivery := s.dispatcher.records.find? (·.key == key)

def modDelivery (serial : Nat) (f : Delivery → Delivery) (s : State) : State :=
  s.modDispatcher fun d => { d with records := d.records.map fun r => if r.serial = serial then f r else r }

/-- The record is discarded. -/
def discardDelivery (serial : Nat) (s : State) : State :=
  s.modDispatcher fun d => { d with records := d.records.filter (·.serial != serial) }

/-- The state of a record's copy at a drop. -/
def Delivery.setCopy (l : LineId) (address : Nat) (c : CopyState) (r : Delivery) : Delivery :=
  { r with copies := r.copies.map fun x => if x.line = l ∧ x.drop = address then { x with state := c } else x }

/-- The copy at a drop is no copy of the record's any more. -/
def Delivery.removeCopy (l : LineId) (address : Nat) (r : Delivery) : Delivery :=
  { r with copies := r.copies.filter fun x => !(x.line == l && x.drop == address) }

/-- The entry is a copy of the record. -/
def AirEntry.isCopyOf (serial : Nat) (e : AirEntry) : Bool :=
  match e.carriage with
  | .delivery n _ => n == serial
  | .control _ _ _ => false

/-- Every queued copy of a record leaves its air queue. -/
def removeQueued (serial : Nat) (s : State) : State :=
  s.mapDrops fun d => { d with queue := d.queue.filter fun e => !e.isCopyOf serial }

/-- Withdrawing a record: its queued copies are removed and it is discarded, with no journal record (R96). -/
def withdraw (serial : Nat) (s : State) : State := discardDelivery serial (removeQueued serial s)

/-- Withdrawing the record of a key, if there is one. -/
def withdrawKey (key : RecordKey) (s : State) : State :=
  match deliveryOf s key with
  | none => s
  | some r => withdraw r.serial s

/-- Withdrawing the PAGE and REMIND records of a member for a tag (R96). -/
def withdrawPages (tag m : Nat) (s : State) : State :=
  withdrawKey { tag := tag, member := m, kind := .remind } (withdrawKey { tag := tag, member := m, kind := .page } s)

/-- Withdrawing every delivery record of a tag (R42, R96). -/
def withdrawTag (tag : Nat) (s : State) : State :=
  (s.dispatcher.records.filter (·.key.tag == tag)).foldl (fun s r => withdraw r.serial s) s

/-! ## Deferral (R94) -/

/-- The member's remind interval in the call of a tag is RUNNING (R48). -/
def remindRunning (s : State) (tag m : Nat) : Bool :=
  tagLive s tag && ((context s (tagContext tag)).contact m).any (·.remind.isRunning)

/-- A copy has been DEFERRED: it waits for the receipt window that runs, or as a REMIND for the remind interval that runs, or else
a retry window is started (R56, R94). A FROZEN window does not run, so the retry window of a copy displaced in PAUSE starts, FROZEN
(R48, R101). DESIGN CHOICE (log 55): a retry window that is started already, for another copy of the stage, keeps its expiry. -/
def deferCopy (l : LineId) (address serial : Nat) (s : State) : State :=
  match delivery? s serial with
  | none => s
  | some r =>
    let waits := r.receipt.isRunning || r.retry.active || (r.key.kind == .remind && remindRunning s r.key.tag r.key.member)
    modDelivery serial (fun r =>
      let r := r.setCopy l address .deferred
      if waits then r else { r with retry := startWindow s s.roster.settings.receiptWindow }) s

/-- A control message is dropped with the record MESSAGE DROPPED; line and drop where a queue was concerned (R85, R89). -/
def messageDropped (m : Message) (cause : DropMessageCause) (at? : Option (LineId × Nat)) (s : State) : State :=
  submit { tagRecord s .messageDropped m.tag with
    member := some m.member, detail1 := m.kind.code, detail2 := cause.code,
    line := at?.map (·.1), drop := (at?.map (·.2)).getD 0 } s

/-- What an entry that its queue did not hold, or gave up, comes to (R85). -/
def notHeld (e : AirEntry) (cause : DropMessageCause) (l : LineId) (address : Nat) (s : State) : State :=
  match e.carriage with
  | .delivery serial _ => deferCopy l address serial s
  | .control _ _ _ => messageDropped e.message cause (some (l, address)) s

/-! ## Enqueueing (R85) -/

/-- The queue of a drop. -/
def queueOf (s : State) (l : LineId) (address : Nat) : List AirEntry := ((drop? s l address).map (·.queue)).getD []

/-- The end urgency an entry's carriage keeps. -/
def Carriage.endUrgency : Carriage → Option Nat
  | .control _ _ u => u
  | .delivery _ _ => none

/-- A copy has been placed: it is QUEUED, and the retry window stops once no copy of the stage is DEFERRED any more (R56,
R94). -/
def Delivery.queueCopy (l : LineId) (address : Nat) (r : Delivery) : Delivery :=
  let r := r.setCopy l address .queued
  { r with retry := if r.copies.any (·.state == .deferred) then r.retry else .stopped }

/-- To enqueue a message to a transmitter drop (R85). DESIGN CHOICE (log 75): a placed entry has the enqueue order count as it is before its
step (R84). -/
def enqueue (m : Message) (carriage : Carriage) (l : LineId) (address : Nat) (s : State) : State :=
  let e : AirEntry :=
    { message := m, urgency := messageUrgency s m carriage.endUrgency, order := s.dispatcher.order, carriage := carriage }
  let p := settleEntry e (queueOf s l address)
  let s := { s with draws := s.draws + 1 }
  let s := modDrop l address (fun d => { d with queue := p.queue }) s
  let s := if p.placed then s.modDispatcher fun d => { d with order := d.order + 1 } else s
  let s :=
    match carriage with
    | .control _ _ _ => s
    | .delivery serial _ =>
      if p.placed then modDelivery serial (Delivery.queueCopy l address) s else s
  let s := if p.placed then s else notHeld e .full l address s
  match p.displaced with
  | none => s
  | some x => notHeld x .displaced l address s

/-! ## Transmitters and routes (R87, R89) -/

/-- The drop is a transmitter. -/
def Drop.isTransmitter (d : Drop) : Bool := d.kind == .transmitter

/-- A transmitter drop is usable while its state is READY (R87). -/
def Drop.usable (d : Drop) : Bool := d.isTransmitter && d.state == .ready

/-- The drop at an address of a line is a usable transmitter. -/
def usableAt (s : State) (a : LineId × Nat) : Bool := (drop? s a.1 a.2).any Drop.usable

/-- The zone transmitter of a zone: the first transmitter given that zone, line 0 first (R87). -/
def zoneTransmitter (s : State) (z : Nat) : Option (LineId × Nat) :=
  if z = 0 then none
  else allAddresses.find? fun a => (drop? s a.1 a.2).any fun d => d.isTransmitter && d.zone == z

/-- The zone transmitter of a zone, if there is one and it is usable. -/
def usableTransmitter (s : State) (z : Nat) : Option (LineId × Nat) := (zoneTransmitter s z).filter (usableAt s)

/-- The zone of a route position: the fresh last-heard zone, then the home zone when it is not 0 and differs (R89). -/
def routeZone (f : FixedRoute) : RoutePosition → Option Nat
  | .first => f.lastZone
  | .second => if f.home = 0 ∨ f.lastZone = some f.home then none else some f.home

/-- The zones a control message to a member is routed by at this moment (R89). -/
def routeOf (s : State) (m : Nat) : FixedRoute where
  lastZone := freshZone s m
  home := homeZone s.roster.tables m

/-- The transmitter of a route position, if usable. -/
def routeTransmitter (s : State) (f : FixedRoute) (p : RoutePosition) : Option (LineId × Nat) :=
  (routeZone f p).bind (usableTransmitter s)

/-- A control message is routed to the first position whose transmitter is usable, and dropped if there is none; one to
pager address 0 is dropped at once (R82, R89). -/
def sendControl (m : Message) (fixed : Option FixedRoute) (endUrgency : Option Nat) (s : State) : State :=
  let route := fixed.getD (routeOf s m.member)
  if m.pager = 0 then messageDropped m .noPager none s
  else
    match routeTransmitter s route .first with
    | some a => enqueue m (.control .first fixed endUrgency) a.1 a.2 s
    | none =>
      match routeTransmitter s route .second with
      | some a => enqueue m (.control .second fixed endUrgency) a.1 a.2 s
      | none => messageDropped m .noRoute none s

/-- A message of a kind that carries only its pager address and tag, and a call number (R82). -/
def controlMessage (kind : MessageKind) (tag m pager : Nat) (callNumber : Word) (reason : Option StandReason) : Message where
  kind := kind
  tag := tag
  member := m
  pager := pager
  callNumber := callNumber
  severity := 0
  zone := 0
  breakIn := false
  text := []
  reason := reason

/-- A CANCEL to a member for a call's tag, at the member's effective pager address (R99). -/
def sendCancel (tag m : Nat) (s : State) : State :=
  sendControl (controlMessage .cancel tag m (effectivePager s.roster.tables m) 0 none) none none s

/-- A CANCEL queued by the end of its call, with the severity and age of the call at that end (R58). -/
def sendEndCancel (k : Context) (m : Nat) (s : State) : State :=
  sendControl (controlMessage .cancel k.tag m (effectivePager s.roster.tables m) 0 none) none
    (some (callUrgency s k true)) s

/-- A CANCEL of the exception of R82, to the pager the member held before a reload, by the zones held before it. -/
def sendReloadCancel (tag m pager : Nat) (route : FixedRoute) (s : State) : State :=
  sendControl (controlMessage .cancel tag m pager 0 none) (some route) none s

/-- A CONFIRM carrying the call number (R108, R110). -/
def sendConfirm (k : Context) (m : Nat) (s : State) : State :=
  sendControl (controlMessage .confirm k.tag m (effectivePager s.roster.tables m) k.callNumber none) none none s

/-! ## Reach stages (R87, R88, R90, R95, R101) -/

/-- The stage after a stage; PLANT is the last. -/
def Stage.next : Stage → Stage
  | .lastHeard => .home | .home => .plant | .plant => .plant

/-- The transmitters of a stage, if its condition holds (R87): none where the stage is skipped. -/
def stageTransmitters (s : State) (m : Nat) : Stage → List (LineId × Nat)
  | .lastHeard =>
    match freshZone s m with
    | none => []
    | some z => if z = homeZone s.roster.tables m then [] else (usableTransmitter s z).toList
  | .home => (usableTransmitter s (homeZone s.roster.tables m)).toList
  | .plant => allAddresses.filter (usableAt s)

/-- The stage a record begins when asked to begin at one: a stage whose condition fails is skipped (R87). -/
def chooseStage (s : State) (m : Nat) (st : Stage) : Stage × List (LineId × Nat) :=
  match st with
  | .lastHeard =>
    match stageTransmitters s m .lastHeard with
    | [] =>
      match stageTransmitters s m .home with
      | [] => (.plant, stageTransmitters s m .plant)
      | ts => (.home, ts)
    | ts => (.lastHeard, ts)
  | .home =>
    match stageTransmitters s m .home with
    | [] => (.plant, stageTransmitters s m .plant)
    | ts => (.home, ts)
  | .plant => (.plant, stageTransmitters s m .plant)

/-- The record becomes PENDING at a resume stage (R101). DESIGN CHOICE (log 92): the stage is taken as it comes, without a test of its
condition, so that a LAST-HEARD copy handed back in PAUSE leaves HOME as the resume stage also where HOME fails at that moment; R87's
conditions are tested at the RESUME (R102). -/
def becomePending (serial : Nat) (st : Stage) (s : State) : State :=
  let n := s.dispatcher.pendingCount
  modDelivery serial (fun r => { r with stage := st, isPending := true, pendingOrder := n, copies := [] })
    (s.modDispatcher fun d => { d with pendingCount := d.pendingCount + 1 })

/-- A record ends unreached: UNREACHED is submitted, the record discarded and the failure reported (R92). -/
def endUnreached (r : Delivery) (s : State) : State × List Task :=
  let s := submit { tagRecord s .unreached r.key.tag with
    member := some r.key.member, detail1 := (deliveryMessageKind r.key.kind).code } s
  (withdraw r.serial s, [.unreached r.key])

/-- The copies of a stage are enqueued to its transmitters in order (R88). -/
def enqueueCopies (r : Delivery) (st : Stage) (ts : List (LineId × Nat)) (s : State) : State :=
  ts.foldl (fun s a => enqueue r.message (.delivery r.serial st) a.1 a.2 s) s

/-- A record begins a stage (R87, R88), becomes PENDING while the engine is PAUSED (R101), or finds no route (R95). DESIGN CHOICE (log 92):
in PAUSE the conditions of R87 are not tested. -/
def beginStage (serial : Nat) (st : Stage) (s : State) : State × List Task :=
  match delivery? s serial with
  | none => (s, [])
  | some r =>
    if s.engine = .paused then (becomePending serial st s, [])
    else
      let chosen := chooseStage s r.key.member st
      let copies := chosen.2.map fun a => { line := a.1, drop := a.2, state := CopyState.deferred }
      let s := modDelivery serial (fun r => { r with
        stage := chosen.1, isPending := false, copies := copies, receipt := .stopped }) s
      if chosen.2.isEmpty then
        if r.noRouteUsed then endUnreached r s
        else
          (modDelivery serial (fun r => { r with
            noRouteUsed := true, retry := startWindow s s.roster.settings.receiptWindow }) s, [])
      else (enqueueCopies r chosen.1 chosen.2 s, [])

/-- The contents of a delivery message, taken from the call context at the hand-over (R82). -/
def deliveryMessage (s : State) (kind : DeliveryKind) (k : Context) (m : Nat) (breakIn : Bool) : Message where
  kind := deliveryMessageKind kind
  tag := k.tag
  member := m
  pager := effectivePager s.roster.tables m
  callNumber := k.callNumber
  severity := k.severity
  zone := k.zone
  breakIn := breakIn
  text := k.text
  reason := none

/-- The Call Engine hands over a delivery message: a record of the same key is withdrawn, and the new one begins its first
stage, or is PENDING while the engine is PAUSED (R83, R90). A record just made has used no no-route retry, so it reports no
failure here. -/
def handOver (kind : DeliveryKind) (c m : Nat) (breakIn : Bool) (s : State) : State :=
  let k := context s c
  let key : RecordKey := { tag := k.tag, member := m, kind := kind }
  let s := withdrawKey key s
  let serial := s.dispatcher.serial
  let r : Delivery :=
    { serial := serial, key := key, message := deliveryMessage s kind k m breakIn, stage := .lastHeard, isPending := false,
      pendingOrder := 0, copies := [], receipt := .stopped, retry := .stopped, noRouteUsed := false }
  let s := s.modDispatcher fun d => { d with records := d.records ++ [r], serial := d.serial + 1 }
  (beginStage serial .lastHeard s).1

/-! ## Takes and receipts (R86, R91, R93) -/

/-- The copy is one of the record's. -/
def Delivery.hasCopy (l : LineId) (address : Nat) (r : Delivery) : Bool :=
  r.copies.any fun x => x.line == l && x.drop == address

/-- A message of a taken set is reported on air (R86): a delivery copy becomes TAKEN, and the first take of the present stage
starts the receipt window, with the record PAGED for a PAGE (R91). DESIGN CHOICE (log 76): the retry window of a copy DEFERRED before that
take runs on. -/
def onAir (l : LineId) (address : Nat) (e : AirEntry) (s : State) : State :=
  match e.carriage with
  | .control _ _ _ => s
  | .delivery serial st =>
    match delivery? s serial with
    | none => s
    | some r =>
      if r.isPending || r.stage ≠ st || !r.hasCopy l address then s
      else
        let s := modDelivery serial (fun r => r.setCopy l address .taken) s
        if r.receipt.active then s
        else
          let s := modDelivery serial (fun r => { r with receipt := startWindow s s.roster.settings.receiptWindow }) s
          if r.key.kind = .page then
            submit { tagRecord s .paged r.key.tag with
              member := some r.key.member, line := some l, drop := address, detail1 := st.code,
              detail2 := if r.message.breakIn then 1 else 0 } s
          else s

/-- The records that a RECEIPT of a tag from a member completes (R93). -/
def receiptRecords (s : State) (tag m : Nat) : List Delivery :=
  s.dispatcher.records.filter fun r => r.key.tag == tag && r.key.member == m

/-- A receipt completes a record: its queued copies are withdrawn, RECEIPT is submitted and the record discarded (R93). The
stage of a PENDING record is its resume stage (log 17). -/
def completeRecord (l : LineId) (address : Nat) (r : Delivery) (s : State) : State :=
  let s := removeQueued r.serial s
  let s := submit { tagRecord s .receipt r.key.tag with
    member := some r.key.member, line := some l, drop := address,
    detail1 := (deliveryMessageKind r.key.kind).code, detail2 := r.stage.code } s
  discardDelivery r.serial s

/-! ## Expiries (R92, R94, R95) -/

/-- At the expiry of the receipt window the record moves to its next stage, or ends unreached after PLANT (R92). -/
def receiptExpired (r : Delivery) (s : State) : State × List Task :=
  let s := removeQueued r.serial (modDelivery r.serial (fun r => { r with receipt := .stopped }) s)
  if r.stage = .plant then endUnreached r s else beginStage r.serial r.stage.next s

/-- Nothing of the stage is left and its receipt window is STOPPED: PLANT has lost its route (R95). -/
def Delivery.routeLost (r : Delivery) : Bool := r.copies.isEmpty && !r.receipt.active

/-- A PLANT stage that has lost its route is offered again at once (R95). -/
def checkRoute (serial : Nat) (s : State) : State × List Task :=
  match delivery? s serial with
  | none => (s, [])
  | some r => if r.routeLost then beginStage serial .plant s else (s, [])

/-- A deferred record is offered again (R94); while the engine is PAUSED it becomes PENDING (R101). DESIGN CHOICE (log 56): a PLANT
stage whose DEFERRED copies are all forgotten, with no copy left, is begun anew at every usable transmitter. DESIGN CHOICE (log 64): a copy
DEFERRED at a drop that has left READY and come back meanwhile is re-enqueued there. DESIGN CHOICE (log 81): where no transmitter is usable
and a copy that is not DEFERRED is left, the record stays with that copy, and PLANT has not lost its route. -/
def offerAgain (serial : Nat) (s : State) : State × List Task :=
  match delivery? s serial with
  | none => (s, [])
  | some r =>
    if s.engine = .paused then (becomePending serial r.stage s, [])
    else if r.isPending || r.copies.isEmpty then beginStage serial r.stage s
    else
      let deferred := (r.copies.filter (·.state == .deferred)).map fun x => (x.line, x.drop)
      match r.stage with
      | .plant =>
        let gone := deferred.filter fun a => !usableAt s a
        let s := modDelivery serial (fun r => gone.foldl (fun r a => r.removeCopy a.1 a.2) r) s
        let s := enqueueCopies r .plant (deferred.filter (usableAt s)) s
        checkRoute serial s
      | st =>
        if deferred.any fun a => !usableAt s a then beginStage serial st.next s
        else (enqueueCopies r st deferred s, [])

/-- At the expiry of the retry window the record is offered again (R94, R95). -/
def retryExpired (r : Delivery) (s : State) : State × List Task :=
  offerAgain r.serial (modDelivery r.serial (fun r => { r with retry := .stopped }) s)

/-! ## A transmitter that has left READY (R100) -/

/-- One message that comes back from a transmitter that has left READY (R100). DESIGN CHOICE (log 53, log 54): a control message
re-routed keeps the pager address of its first routing, and one dropped here names no line and drop in MESSAGE DROPPED. DESIGN CHOICE
(log 92): in PAUSE the record of a LAST-HEARD copy is PENDING at HOME, whether HOME's condition holds or not. -/
def settleHandedBack (l : LineId) (address : Nat) (e : AirEntry) (s : State) : State × List Task :=
  match e.carriage with
  | .delivery serial st =>
    match delivery? s serial with
    | none => (s, [])
    | some r =>
      if r.isPending || r.stage ≠ st || !r.hasCopy l address then (s, [])
      else
        match st with
        | .plant => checkRoute serial (modDelivery serial (Delivery.removeCopy l address) s)
        | st => beginStage serial st.next s
  | .control p fixed u =>
    let second := routeTransmitter s (fixed.getD (routeOf s e.message.member)) .second
    match p, second with
    | .first, some a => (enqueue e.message (.control .second fixed u) a.1 a.2 s, [])
    | _, _ => (messageDropped e.message .noRoute none s, [])

/-! ## RESUME (R102) -/

/-- The PENDING records in the order in which they became PENDING. -/
def pendingRecords (s : State) : List Nat :=
  let insert (r : Delivery) : List Delivery → List Delivery := fun l =>
    l.takeWhile (fun x => x.pendingOrder < r.pendingOrder) ++ r :: l.dropWhile (fun x => x.pendingOrder < r.pendingOrder)
  (((s.dispatcher.records.filter (·.isPending)).foldr insert []).map (·.serial))

end Sys2Proof.Machine
end

