-- ==== Sys2Proof/Machine/Beacons.lean ====
section
/-! DEFINITION. Machine/Beacons.lean: the Beacon Controller (chapter 8): beacon latches, lamp commands, readback, servable
zones (R37, R140 to R147). -/

namespace Sys2Proof.Machine

/-! ## Latches (R141) -/

/-- The calls, by context, in the latch of a zone 1 to 24. -/
def latch (s : State) (z : Nat) : List Nat := if z = 0 then [] else s.latches.getD (z - 1) []

/-- A context joins a latch, which holds it at most once; the list is kept rising, since a latch has no order. -/
def insertContext (c : Nat) : List Nat → List Nat
  | [] => [c]
  | x :: rest => if c < x then c :: x :: rest else if c = x then x :: rest else x :: insertContext c rest

/-- The call of a context joins the latches of some zones. -/
def joinLatches (c : Nat) (zones : List Nat) (s : State) : State :=
  { s with latches := s.latches.mapIdx fun i l => if zones.contains (i + 1) then insertContext c l else l }

/-- The call of a context leaves every latch it holds. -/
def leaveLatches (c : Nat) (s : State) : State :=
  { s with latches := s.latches.map fun l => l.filter (· != c) }

/-- The zones whose latches a call joins on a beacon rung (R37). -/
def joinedZones (s : State) (k : Context) (plant : Bool) : List Nat :=
  if plant || k.zone = 0 then enabledZones s.roster.tables else [k.zone]

/-! ## Lamp commands (R142 to R144) -/

/-- The CALL command for the most severe present severity in a latch (R142). -/
def severityLamp : Option Nat → LampCommand
  | none => .off
  | some 1 => .fast
  | some 2 => .slow
  | some _ => .steady

/-- The most severe present severity among calls. -/
def mostSevere (s : State) (l : List Nat) : Option Nat :=
  l.foldl (fun best c =>
    match best with
    | none => some (context s c).severity
    | some b => some (min b (context s c).severity)) none

/-- The CALL lamp command of a zone (R142). -/
def callCommand (s : State) (z : Nat) : LampCommand := severityLamp (mostSevere s (latch s z))

/-- The zone of the station that a site mark names. -/
def siteZone (s : State) : Site → Option Nat
  | .station l address => (drop? s l address).map (·.zone)
  | _ => none

/-- The call lights the ATTEND lamps of a zone (R143). -/
def Context.attends (s : State) (z : Nat) (k : Context) : Bool :=
  ((k.state == .accepted || k.state == .onSite) && k.zone == z) || (k.state == .onSite && siteZone s k.site == some z)

/-- The ATTEND lamp command of a zone (R143). -/
def attendCommand (s : State) (z : Nat) : LampCommand :=
  if s.calls.contexts.any (Context.attends s z) then .steady else .off

/-- Every station's commands are those of its zone (R142 to R144). -/
def recomputeLamps (s : State) : State :=
  s.mapDrops fun d => { d with station := d.station.map fun t =>
    { call := { t.call with commanded := callCommand s d.zone }
      attend := { t.attend with commanded := attendCommand s d.zone } } }

/-! ## Frames to a station (R134, R140, R144) -/

/-- A frame carries the commanded value, which becomes the sent one; a change of it clears both runs (R145). -/
def Lamp.send (l : Lamp) : Lamp :=
  if l.sent = some l.commanded then l
  else { l with sent := some l.commanded, mismatchRun := 0, matchRun := 0 }

/-- The frame carries the command that the frame before it carried (R145). -/
def Lamp.sendsSame (l : Lamp) : Bool := l.sent == some l.commanded

/-- A station's drop leaves READY: the runs are cleared and the sent commands none (R140). -/
def Lamp.forget (l : Lamp) : Lamp := { l with sent := none, mismatchRun := 0, matchRun := 0 }

/-! ## Readback (R145, R146) -/

/-- A change of a lamp's flag clears both runs. -/
def Lamp.setFlag (f : LampFlag) (l : Lamp) : Lamp := { l with flag := f, mismatchRun := 0, matchRun := 0 }

/-- A judged reply acts on the lamp's flag (R146). -/
def Lamp.judge (command : LampCommand) (lit : Bool) (l : Lamp) : Lamp :=
  let matching := lit == (command != .off)
  let recover : Lamp :=
    if !matching then { l with matchRun := 0 }
    else if 3 ≤ l.matchRun + 1 then l.setFlag .ok
    else { l with matchRun := l.matchRun + 1 }
  match l.flag with
  | .ok =>
    if matching then { l with mismatchRun := 0 }
    else if 3 ≤ l.mismatchRun + 1 then l.setFlag (if command = .off then .stuck else .fault)
    else { l with mismatchRun := l.mismatchRun + 1 }
  | .fault => if command = .off then l else recover
  | .stuck => if command = .off then recover else l

/-- The record of a change to a flag (R146). -/
def LampFlag.record : LampFlag → RecordKind
  | .ok => .lampOk | .fault => .lampFault | .stuck => .lampStuck

/-- A lamp of a station record. -/
def Station.lamp (t : Station) : LampId → Lamp
  | .call => t.call
  | .attend => t.attend

def Station.setLamp (id : LampId) (l : Lamp) (t : Station) : Station :=
  match id with
  | .call => { t with call := l }
  | .attend => { t with attend := l }

/-- The readback of one lamp in a VALID reply: judged when the POLL carried the command of the frame before it (R145); a
change of flag submits its record, raises FIELD FAULT on an entry into FAULT or STUCK, and marks the mirror entry dirty. -/
def readback (l : LineId) (address : Nat) (id : LampId) (judged lit : Bool) (s : State) : State :=
  match (drop? s l address).bind (·.station) with
  | none => s
  | some t =>
    let old := t.lamp id
    match judged, old.sent with
    | true, some command =>
      let new := old.judge command lit
      let s := modDrop l address (fun d => { d with station := d.station.map (Station.setLamp id new) }) s
      if new.flag = old.flag then s
      else
        let s := submit { blankRecord new.flag.record with
          line := some l, drop := address, detail1 := id.code, detail2 := command.code } (modDrop l address Drop.markDirty s)
        if new.flag = .ok then s else raise .fieldFault s
    | _, _ => s

/-! ## Servable zones (R147) -/

/-- The drop is a READY station whose CALL lamp is OK or STUCK. -/
def Drop.serves (d : Drop) : Bool := d.state == .ready && d.station.any fun t => t.call.flag != .fault

/-- The beacon of a zone is servable. -/
def zoneServable (s : State) (z : Nat) : Bool := (allDrops s).any fun d => d.zone == z && d.serves

end Sys2Proof.Machine
end

