-- ==== Sys2Proof/Machine/Calls.lean ====
section
/-! DEFINITION. Machine/Calls.lean: the Call Engine's walk of a call: windows and deadlines (R49 to R53), eligibility and the
contacted list (R30 to R32), rungs, repeats, holds and reopenings (R26 to R45), the end of a call (R19 to R21), posts, admission
and the backlog (R5 to R12), and the requests (R13 to R18). A function that answers `State × List Task` names the work of the
same event that follows its own. -/

namespace Sys2Proof.Machine

/-! ## Windows and deadlines (R49, R52) -/

/-- The severity scale S (R49). -/
def severityScale : Nat → Nat
  | 1 => 50 | 2 => 75 | 3 => 100 | _ => 150

/-- The length of a rung deadline or an arrival window from T, R and S (R49). -/
def windowLength (seconds reach scale : Nat) : Nat := clamp 50 36000 ((seconds * 10 * reach * scale + 9999) / 10000)

/-- The length for a window class, at a call's zone and present severity. -/
def classLength (s : State) (k : Context) (windowClass : Nat) : Nat :=
  windowLength (s.roster.settings.windowTable.getD windowClass 0) (reachPercent s k.zone) (severityScale k.severity)

/-- The turn length M of a rung of deadline D with n members (R52). -/
def turnLengthOf (d n minimum : Nat) : Nat := min d (max minimum ((d + n - 1) / n))

/-! ## Eligibility and break-in candidates (R30, R39) -/

/-- The entry, if there is one, is marked neither declined nor unreached. -/
def Context.mayPage (k : Context) (m : Nat) : Bool := (k.contact m).all fun e => !e.declined && !e.unreached

/-- The member is eligible for the call of a context (R30). -/
def eligible (s : State) (c m : Nat) : Bool :=
  onDuty s.roster.tables m && (member s m).engaged.isNone && (context s c).mayPage m

/-- The member is a break-in candidate of the call of a context (R39). -/
def candidate (s : State) (c m : Nat) : Bool :=
  onDuty s.roster.tables m && (context s c).mayPage m && (member s m).engaged.any fun t =>
    tagLive s t && (context s (tagContext t)).state == .accepted && 2 ≤ (context s (tagContext t)).severity

/-- The call qualifies for break-in when its rung has found nobody (R39). -/
def qualifies (s : State) (c : Nat) : Bool := (context s c).severity == 1 && s.roster.settings.breakIn

/-- Who a CREW rung may page: its eligible members, or else its break-in candidates (R33, R35, R39). -/
def rungPool (s : State) (c : Nat) (members : List Nat) : List Nat × Bool :=
  match members.filter (eligible s c) with
  | [] => (if qualifies s c then members.filter (candidate s c) else [], true)
  | l => (l, false)

/-! ## The contacted list (R31, R32) -/

/-- A new entry with no marks. -/
def Contact.blank (m rung pass : Nat) : Contact where
  member := m
  rung := rung
  pass := pass
  current := false
  received := false
  declined := false
  unreached := false
  breakIn := false
  cancelled := false
  remind := .stopped
  remindCount := 0

/-- The entry that a full list gives up: the oldest neither current, declined nor unreached, or else the oldest not current
(R31). -/
def reusedEntry (l : List Contact) : Option Nat :=
  match l.findIdx? fun e => !e.current && !e.declined && !e.unreached with
  | some i => some i
  | none => l.findIdx? fun e => !e.current

/-- A new entry joins the end of the list; a full list gives up an entry for it (R31). A list of current entries alone, which the
rungs' 16 members never fill, has none to give up (log 60). -/
def Context.addContact (e : Contact) (k : Context) : Context :=
  if k.contacted.length < Config.contactedCapacity then { k with contacted := k.contacted ++ [e] }
  else
    match reusedEntry k.contacted with
    | some i => { k with contacted := k.contacted.eraseIdx i ++ [e] }
    | none => { k with contacted := k.contacted ++ [e] }

/-- The member has an entry, made if it had none (R31, R107). -/
def Context.ensureContact (m : Nat) (k : Context) : Context :=
  if (k.contact m).isSome then k else k.addContact (Contact.blank m k.rung k.pass)

/-- The entry of a member made current (R31). -/
def Context.markCurrent (m : Nat) (isBreakIn : Bool) (k : Context) : Context :=
  let k := (k.ensureContact m).modContact m fun e => { e with
    current := true, received := false, cancelled := false, breakIn := isBreakIn, rung := k.rung, pass := k.pass,
    remind := .stopped, remindCount := 0 }
  { k with madeCurrent := k.madeCurrent ++ [m] }

/-- To make a member current in a live call (R31): a member who is ENGAGED gets a break-in page (R39), and the paged count is stepped
as the member becomes current (R66). A FREE context, which no run brings here, makes nobody current (log 60). -/
def makeCurrent (c m : Nat) (s : State) : State :=
  if !(context s c).live then s
  else
    let isBreakIn := (member s m).engaged.isSome
    let s := if (context s c).isCurrent m then s else stepPaged m s
    handOver .page c m isBreakIn (modContext c (Context.markCurrent m isBreakIn) s)

/-- A member loses the current mark in a call: the paged count is lowered, the remind interval stops, and the PAGE and REMIND
records are withdrawn (R32, R57, R66, R96). -/
def loseMark (c m : Nat) (s : State) : State :=
  if (context s c).isCurrent m then
    withdrawPages (context s c).tag m
      (lowerPaged m (modContext c (Context.modContact m fun e => { e with current := false, remind := .stopped }) s))
  else s

/-- Every current member of a call loses the mark. DESIGN CHOICE (log 61): in the order of the contacted list. -/
def loseMarks (c : Nat) (s : State) : State := (context s c).currentMembers.foldl (fun s m => loseMark c m s) s

/-- A call queues a CANCEL to a member and marks the entry cancelled. -/
def cancelMember (c m : Nat) (s : State) : State :=
  sendCancel (context s c).tag m (modContext c (Context.modContact m fun e => { e with cancelled := true }) s)

/-- Every contacted member whose entry is marked neither declined nor cancelled is sent a CANCEL, but for one (R108, R116). DESIGN CHOICE
(log 61): in the order of the contacted list. -/
def cancelOthers (c : Nat) (but : Option Nat) (s : State) : State :=
  ((context s c).contacted.filter fun e => !e.declined && !e.cancelled && some e.member != but).foldl
    (fun s e => cancelMember c e.member s) s

/-! ## Rungs (R29, R33 to R38) -/

/-- The ladder of a context's call, in the table in force (R26). -/
def callLadder (s : State) (k : Context) : Ladder := ladderOf s.roster.tables k.ladder

/-- The rung record of a context's present rung. -/
def callRung (s : State) (k : Context) : Rung := (callLadder s k).rung k.rung

/-- The rung is one that the ladder has: a record above the effective last rung has no effect (R27). A reload can leave a call on one
until R46 moves it past the last rung. -/
def Ladder.has (l : Ladder) (rung : Nat) : Bool := rung ≤ l.effectiveLast

/-- Stops the rung deadline and any turn. -/
def stopRung (c : Nat) (s : State) : State :=
  modContext c (fun k => { k with deadline := .stopped, turn := .stopped, mode := .none, turnMember := none }) s

/-- A record of the present rung: rung and pass count, target kind and number (R29, R38). -/
def rungRecord (kind : RecordKind) (k : Context) (r : Rung) : JournalRecord :=
  { callRecord kind k with detail1 := packBytes k.rung k.pass, detail2 := packTarget r.kind r.number }

/-- The position is the first at which the list holds its member (R33). -/
def isFirstPosition (l : List Nat) (i : Nat) : Bool := l.findIdx? (· == l.getD i 0) == some i

/-- The positions of a list of length n, from one on, cyclically. -/
def positionsFrom (n start count : Nat) : List Nat := (List.range count).map fun i => (start + i) % n

/-- A turn starts with a member: it is made current, and the turn runs for M or the rung's remaining time (R33, R34, R53). -/
def startTurn (c m : Nat) (s : State) : State :=
  let s := makeCurrent c m s
  let k := context s c
  let w := startWindow s (min k.turnLength (k.deadline.remaining s.tickCount))
  modContext c (fun k => { k with turn := w, turnMember := some m }) s

/-- A rung found unservable at entry (R38). -/
def unservable (c : Nat) (r : Rung) (s : State) : State × List Task :=
  (submit (rungRecord .noOneAvailable (context s c) r) s, [.endRung c])

/-- CREW-ROTATE (R33): n and M are fixed, and the first turn's member is found from the rotation pointer. -/
def enterRotate (c d : Nat) (r : Rung) (s : State) : State × List Task :=
  let list := crewList s.roster.tables r.number
  let pool := rungPool s c (distinct list)
  let first := (positionsFrom list.length (s.roster.pointers.getD r.number 0) list.length).find? fun i =>
    isFirstPosition list i && pool.1.contains (list.getD i 0)
  match first with
  | none => unservable c r s
  | some i =>
    let m := turnLengthOf d pool.1.length s.roster.settings.minimumTurn
    let s := modContext c (fun k => { k with
      mode := .rotate, turnCount := pool.1.length, turnLength := m, firstPosition := i, breakInRung := pool.2 }) s
    (startTurn c (list.getD i 0) s, [])

/-- CREW-ALL (R35): every member of the pool is made current, in list order. -/
def enterAll (c : Nat) (r : Rung) (s : State) : State × List Task :=
  let pool := rungPool s c (distinct (crewList s.roster.tables r.number))
  if pool.1.isEmpty then unservable c r s
  else
    let s := modContext c (fun k => { k with mode := .all, breakInRung := pool.2 }) s
    (pool.1.foldl (fun s m => makeCurrent c m s) s, [])

/-- MEMBER (R36). -/
def enterMember (c : Nat) (r : Rung) (s : State) : State × List Task :=
  if r.number < s.roster.tables.roster.length && eligible s c r.number then
    (makeCurrent c r.number (modContext c (fun k => { k with mode := .member }) s), [])
  else unservable c r s

/-- BEACON-ZONE and BEACON-PLANT (R37): the call joins the latches all the same when no joined zone is servable. -/
def enterBeacon (c : Nat) (r : Rung) (plant : Bool) (s : State) : State × List Task :=
  let zones := joinedZones s (context s c) plant
  let s := joinLatches c zones s
  if zones.any (zoneServable s) then (modContext c (fun k => { k with mode := .beacon }) s, [])
  else unservable c r s

/-- A rung acts on its target kind; an encoding that is none of the five is unservable (R27). -/
def actOnTarget (c d : Nat) (r : Rung) (s : State) : State × List Task :=
  match readTargetKind r.kind with
  | some .crewRotate => if r.number < s.roster.tables.crews.length then enterRotate c d r s else unservable c r s
  | some .crewAll => if r.number < s.roster.tables.crews.length then enterAll c r s else unservable c r s
  | some .member => enterMember c r s
  | some .beaconZone => enterBeacon c r false s
  | some .beaconPlant => enterBeacon c r true s
  | none => unservable c r s

/-- ESCALATED is raised when a rung at or past the stop rung is entered (R40). -/
def raiseEscalated (l : Ladder) (rung : Nat) (s : State) : State :=
  if l.stopRung.any (· ≤ rung) then raise .escalated s else s

/-- Entering a rung (R29). -/
def enterRung (c rung : Nat) (s : State) : State × List Task :=
  if (context s c).state ≠ .paging then (s, [])
  else
    let s := showContext c (modContext c (fun k => { k with
      rung := rung, mode := .none, turn := .stopped, turnMember := none, turnCount := 0, turnLength := 0,
      firstPosition := 0, breakInRung := false, reloaded := false, madeCurrent := [] }) s)
    let k := context s c
    let r := callRung s k
    let d := classLength s k r.windowClass
    let s := modContext c (fun k => { k with deadline := startWindow s d }) s
    let s := submit (rungRecord .rungEntered k r) s
    actOnTarget c d r (raiseEscalated (callLadder s k) rung s)

/-! ## The end of a turn (R34, R46, R53) -/

/-- The positions in which the next turn's member is looked for: after the ended turn's member, stopping short of the first
turn's position, or once round the new list after a reload. -/
def turnPositions (k : Context) (list : List Nat) : List Nat :=
  let n := list.length
  let own := list.findIdx? fun x => k.turnMember == some x
  if k.reloaded then
    match own with
    | some i => positionsFrom n (i + 1) n
    | none => positionsFrom n 0 n
  else
    let start := own.getD 0 + 1
    positionsFrom n start ((k.firstPosition + n - start % n) % n)

/-- The next turn's member (R34): not made current on this rung in this pass, and eligible or, on a rung in break-in, eligible
or a candidate. -/
def nextTurnMember (s : State) (c : Nat) : Option Nat :=
  let k := context s c
  let list := crewList s.roster.tables (callRung s k).number
  let found := (turnPositions k list).find? fun i =>
    let m := list.getD i 0
    isFirstPosition list i && !k.madeCurrent.contains m && (eligible s c m || (k.breakInRung && candidate s c m))
  found.map fun i => list.getD i 0

/-- The rung record in force still names a crew to rotate through, and the rung has made fewer than 16 current (R46). A record above the
effective last rung names none (R27). -/
def rotationGoesOn (s : State) (k : Context) : Bool :=
  let r := callRung s k
  (callLadder s k).has k.rung && readTargetKind r.kind == some .crewRotate && r.number < s.roster.tables.crews.length
    && k.madeCurrent.length < Config.rungCapacity

/-- The end of a turn: the no-short-turn rule, then the next turn or the rung's unanswered end (R34, R46, R53). -/
def endTurn (c : Nat) (s : State) : State × List Task :=
  let k := context s c
  if k.state ≠ .paging ∨ k.mode ≠ .rotate then (s, [])
  else
    let s := modContext c (fun k => { k with turn := .stopped }) s
    if k.deadline.remaining s.tickCount < s.roster.settings.minimumTurn || !rotationGoesOn s k then (s, [.endRung c])
    else
      match nextTurnMember s c with
      | none => (s, [.endRung c])
      | some m => (startTurn c m s, [])

/-- The tests of R34 to R36 after a member has lost the current mark. A member whom a rung entered meanwhile has made current
again has a turn or a place in that rung, which the loss of the mark before it does not end (R34, R53, R78). -/
def lostMark (c m : Nat) (s : State) : State × List Task :=
  let k := context s c
  if k.state ≠ .paging ∨ k.isCurrent m then (s, [])
  else
    match k.mode with
    | .rotate => if k.turnMember = some m then (s, [.endTurn c]) else (s, [])
    | .all => if k.currentMembers.isEmpty then (s, [.endRung c]) else (s, [])
    | .member => if k.currentMembers.isEmpty then (s, [.endRung c]) else (s, [])
    | .beacon => (s, [])
    | .none => (s, [])

/-! ## The end of a rung (R40 to R43) -/

/-- Entry into HELD (R42), the current marks being removed. -/
def enterHeld (c : Nat) (s : State) : State :=
  let s := withdrawTag (context s c).tag s
  let s := showContext c (modContext c (fun k => { k with state := .held }) s)
  let k := context s c
  raise .callHeld (submit { callRecord .held k with detail1 := packBytes k.rung k.pass } s)

/-- A rung ends unanswered (R40, R43). Above the effective last rung neither HOLD nor the stop rung counts (R27). DESIGN CHOICE (log 51): a
rung that a reload's losses end before R46's adjustments is ended against the new table as it stands. -/
def endRung (c : Nat) (s : State) : State × List Task :=
  if (context s c).state ≠ .paging then (s, [])
  else
    let s := loseMarks c (stopRung c s)
    let k := context s c
    let l := callLadder s k
    let s := if l.stopRung = some k.rung ∧ l.has k.rung then raise .overdue s else s
    if (callRung s k).hold && l.has k.rung then (enterHeld c s, [])
    else if k.rung < l.effectiveLast then (s, [.enterRung c (k.rung + 1)])
    else (s, [.pastLast c])

/-- The ladder moves past its effective last rung: a repeat, or the end of the call (R41). -/
def pastLast (c : Nat) (s : State) : State × List Task :=
  let k := context s c
  let l := callLadder s k
  if (l.rung l.effectiveLast).rep && k.pass < l.repeatLimit then
    (modContext c (fun k => { k with
      state := .paging, pass := k.pass + 1,
      contacted := k.contacted.map fun e => { e with declined := false, unreached := false } }) s, [.enterRung c 0])
  else (s, [.endCall c .exhausted .ladderExhausted])

/-- The ladder moves on from a rung that was answered or held: to the rung after it, or past the last (R16, R44). -/
def moveOn (c rung : Nat) (s : State) : State × List Task :=
  if rung < (callLadder s (context s c)).effectiveLast then (s, [.enterRung c (rung + 1)]) else (s, [.pastLast c])

/-! ## The end of a call (R19 to R21) -/

/-- The record kind of a terminal state (R21). -/
def terminalRecord : SlotState → RecordKind
  | .cleared => .cleared
  | .exhausted => .exhausted
  | .rejected => .rejected
  | _ => .withdrawn

/-- The windows of a call stop; those of its messages stop with their withdrawal. -/
def Context.stopWindows (k : Context) : Context :=
  { k with deadline := .stopped, turn := .stopped, arrival := .stopped,
           contacted := k.contacted.map fun e => { e with remind := .stopped } }

/-- The members who get a CANCEL at the end of a call (R19). DESIGN CHOICE (log 61): in the order of the contacted list. -/
def Context.endCancels (reason : Reason) (k : Context) : List Nat :=
  (k.contacted.filter fun e =>
    if k.accepter = some e.member then reason != .clearedByMember else !e.declined && !e.cancelled).map (·.member)

/-- The freed context keeps its number's reuse count, stepped, and nothing else (R9, R20). DESIGN CHOICE (log 1): the fields that R20 does
not name are cleared with those that it does. -/
def Context.freed (k : Context) : Context := { Context.empty with reuse := (k.reuse + 1) % 512 }

/-- The end of a call that holds a context, as one event (R19), with the context freed (R20). -/
def finishCall (c : Nat) (st : SlotState) (reason : Reason) (s : State) : State :=
  if !(context s c).live then s
  else
    let s := withdrawTag (context s c).tag (modContext c Context.stopWindows s)
    let s := ((context s c).endCancels reason).foldl (fun s m =>
      sendEndCancel (context s c) m (modContext c (Context.modContact m fun e => { e with cancelled := true }) s)) s
    let s := loseMarks c s
    let k := context s c
    let s := match k.accepter with | none => s | some m => release m s
    let s := leaveLatches c s
    let s := match k.slot with
      | none => s
      | some i => modSlot i (fun g => { g with state := st, reason := reason, endTick := s.tickCount, accepter := none }) s
    let s := submit { callRecord (terminalRecord st) k with
      member := k.accepter, detail1 := reason.code, detail2 := packBytes k.rung k.pass } s
    let s := raise .callEnded s
    let s := if st = .exhausted then raise .exhausted s else s
    modContext c Context.freed s

/-- The end of a call; the freed context admits the backlog head at once (R12, R20). -/
def endCall (c : Nat) (st : SlotState) (reason : Reason) (s : State) : State × List Task :=
  if (context s c).live then (finishCall c st reason s, [.admitHeads]) else (s, [])

/-! ## Reopening (R44, R45) -/

/-- The accepter's entry at a reopening (R45). DESIGN CHOICE (log 52): its CANCEL is queued before the record REOPENED. -/
def markReopened (c m : Nat) (cause : ReopenCause) (s : State) : State :=
  match cause with
  | .decline => modContext c (Context.modContact m fun e => { e with declined := true }) s
  | .secondArrivalWindow =>
    cancelMember c m (modContext c (Context.modContact m fun e => { e with unreached := true }) s)
  | .breakIn => cancelMember c m s

/-- A reopening (R44). The accepter is released, unless the break-in call has taken them (R69). DESIGN CHOICE (log 52): the CANCEL of
R45, with any MESSAGE DROPPED of it, comes before the record REOPENED, and after the record BREAK-IN of a break-in. -/
def reopen (c : Nat) (cause : ReopenCause) (s : State) : State × List Task :=
  match (context s c).state, (context s c).accepter with
  | .accepted, some m =>
    let s := modContext c (fun k => { k with arrival := .stopped }) s
    let s := withdrawKey { tag := (context s c).tag, member := m, kind := .arrivalCheck } s
    let s := if cause = .breakIn then s else release m s
    let s := showContext c (modContext c (fun k => { k with
      accepter := none, acceptTick := 0, arrivalCount := 0, state := .paging }) s)
    let s := markReopened c m cause s
    let k := context s c
    let s := submit { callRecord .reopened k with detail1 := cause.code, detail2 := k.acceptRung } s
    moveOn c k.acceptRung s
  | _, _ => (s, [])

/-! ## The backlog, admission and posts (R5 to R12) -/

/-- A take order number comes before another (R11). DESIGN CHOICE (log 90): it is the earlier one where the difference, modulo 2^32, is above
0 and below 2^31. -/
def earlierOrder (a b : Word) : Bool := 0 < (b - a).toNat && (b - a).toNat < 2147483648

/-- Most severe first, and among equal severities by take order (R11). -/
def Waiting.before (a b : Waiting) : Bool :=
  a.severity < b.severity || (a.severity == b.severity && earlierOrder a.order b.order)

/-- An entry takes its place in the backlog. -/
def placeWaiting (w : Waiting) : List Waiting → List Waiting
  | [] => [w]
  | x :: rest => if w.before x then w :: x :: rest else x :: placeWaiting w rest

/-- The slot leaves the backlog. -/
def leaveBacklog (slot : Nat) (s : State) : State :=
  s.modCalls fun k => { k with backlog := k.backlog.filter (·.slot != slot) }

/-- The lowest-numbered FREE context among 0 to 63. -/
def freeContext (s : State) : Option Nat := (List.range 64).find? fun c => !(context s c).live

/-- A record of a slot's post or WAITING call, which has no tag. -/
def waitingRecord (kind : RecordKind) (w : Waiting) : JournalRecord :=
  { blankRecord kind with zone := w.zone, slot := some w.slot, callNumber := w.callNumber, origin := w.origin }

/-- A call whose ladder cannot be walked is given ladder 0, with the record LADDER SUBSTITUTED (R8). -/
def substituteLadder (w : Waiting) (s : State) : Waiting × State :=
  if ladderUsable s.roster.tables w.ladder then (w, s)
  else ({ w with ladder := 0 }, submit { waitingRecord .ladderSubstituted w with detail1 := w.ladder } s)

/-- The context of a call just admitted (R9, R10). -/
def Context.admitted (c : Nat) (slot : Option Nat) (w : Waiting) (tick : Tick) (k : Context) : Context :=
  { Context.empty with
    state := .paging, reuse := k.reuse, slot := slot, callNumber := w.callNumber, zone := w.zone, origin := w.origin,
    text := w.text, severity := w.severity, ladder := w.ladder, tag := k.reuse * 128 + c, admitTick := tick }

/-- A call takes a context and enters rung 0 (R9, R10, R23). -/
def openCall (c : Nat) (slot : Option Nat) (w : Waiting) (s : State) : State × List Task :=
  let s := modContext c (Context.admitted c slot w s.tickCount) s
  let s := showContext c s
  let s := match slot with
    | none => s
    | some i => modSlot i (fun g => { g with endTick := 0, reason := .none, result := .none }) s
  let k := context s c
  (submit { callRecord .admitted k with detail1 := k.severity, detail2 := k.ladder } s, [.enterRung c 0])

/-- The backlog head is admitted while the engine is RUNNING and a context is FREE (R12). -/
def admitHeads (s : State) : State × List Task :=
  match s.engine, s.calls.backlog, freeContext s with
  | .running, w :: rest, some c =>
    let p := substituteLadder w (s.modCalls fun k => { k with backlog := rest })
    let r := openCall c (some w.slot) p.1 p.2
    (r.1, r.2 ++ [.admitHeads])
  | _, _, _ => (s, [])

/-- The context that holds the call of a slot. -/
def contextOfSlot (s : State) (slot : Nat) : Option Nat :=
  (List.range 64).find? fun c => (context s c).live && (context s c).slot == some slot

/-- The slot's call is WAITING. -/
def isWaiting (s : State) (slot : Nat) : Bool := s.calls.backlog.any (·.slot == slot)

/-- A WAITING call ends (R19, R21). -/
def endWaiting (slot : Nat) (st : SlotState) (reason : Reason) (s : State) : State :=
  match s.calls.backlog.find? (·.slot == slot) with
  | none => s
  | some w =>
    let s := modSlot slot (fun g => { g with
      state := st, reason := reason, endTick := s.tickCount, tag := none, accepter := none }) (leaveBacklog slot s)
    raise .callEnded (submit { waitingRecord (terminalRecord st) w with
      detail1 := reason.code, detail2 := packBytes (slotImage s slot).rung (slotImage s slot).pass } s)

/-- The call of a slot ends, whether it holds a context or waits (R6, R14, R22). -/
def endSlotCall (slot : Nat) (st : SlotState) (reason : Reason) (s : State) : State × List Task :=
  match contextOfSlot s slot with
  | some c => endCall c st reason s
  | none => (endWaiting slot st reason s, [])

/-- Another slot's live call has the call number (R7, check 3). -/
def isDuplicate (s : State) (slot : Nat) (number : Word) : Bool :=
  (s.calls.contexts.any fun k => k.live && k.slot.any (· != slot) && k.callNumber == number)
    || s.calls.backlog.any fun w => w.slot != slot && w.callNumber == number

/-- The checks of a post (R7). -/
def postError (s : State) (slot : Nat) (h : HostPart) : Option Reason :=
  if h.severity < 1 ∨ 4 < h.severity then some .badSeverity
  else if h.zone ≠ 0 ∧ (24 < h.zone ∨ !zoneEnabled s.roster.tables h.zone) then some .badZone
  else if isDuplicate s slot h.callNumber then some .duplicate
  else none

/-- The post is REJECTED (R7). -/
def rejectPost (w : Waiting) (reason : Reason) (s : State) : State :=
  let s := modSlot w.slot (fun g => { g with
    state := .rejected, reason := reason, endTick := s.tickCount, tag := none, accepter := none, admitTick := 0 }) s
  raise .callEnded (submit { waitingRecord .rejected w with detail1 := reason.code } s)

/-- The post becomes WAITING (R11). -/
def backlogPost (w : Waiting) (s : State) : State :=
  let s := modSlot w.slot (fun g => { g with
    state := .waiting, tag := none, accepter := none, rung := 0, pass := 0, admitTick := 0, acceptTick := 0, arriveTick := 0,
    endTick := 0, reason := .none, result := .none }) s
  let s := s.modCalls fun k => { k with backlog := placeWaiting w k.backlog }
  submit { waitingRecord .waiting w with detail1 := w.severity, detail2 := s.calls.backlog.length } s

/-- A context or an entry of the backlog is the slot's (R12). -/
def slotTaken (s : State) (slot : Nat) : Bool := (s.calls.contexts.any fun k => k.slot == some slot) || isWaiting s slot

/-- A post, once its slot holds no live call: a slot that has one still, which no run brings here, has no second call beside it (R6 to
R12; log 60). DESIGN CHOICE (log 80): the post has the take order count as it is before its step (R11). -/
def takePost (slot : Nat) (h : HostPart) (s : State) : State × List Task :=
  if slotTaken s slot then (s, [])
  else
    let w : Waiting :=
      { slot := slot, severity := h.severity, order := s.area.takeOrder, callNumber := h.callNumber, zone := h.zone,
        ladder := h.ladder, origin := h.origin, text := h.text }
    let s := s.modArea fun a => { a with takeOrder := a.takeOrder + 1 }
    match postError s slot h with
    | some reason => (rejectPost w reason s, [])
    | none =>
      let p := substituteLadder w s
      match s.engine, freeContext p.2 with
      | .running, some c => openCall c (some slot) p.1 p.2
      | _, _ => (backlogPost p.1 p.2, [])

/-! ## Break-in marks that end (R32) -/

/-- The member's break-in mark in one context goes; a current member loses the current mark as well and is sent a CANCEL. DESIGN CHOICE
(log 62): the queued PAGE and REMIND copies are removed before the CANCEL is enqueued. -/
def dropBreakInOf (c m : Nat) (s : State) : State :=
  let unmark : State → State := modContext c (Context.modContact m fun e => { e with breakIn := false })
  if (context s c).isCurrent m then cancelMember c m (unmark (loseMark c m s)) else unmark s

/-- The contexts, other than one, that hold the member with the break-in mark. -/
def breakInContexts (s : State) (but m : Nat) : List Nat :=
  (List.range 65).filter fun c => c != but && ((context s c).contact m).any (·.breakIn)

/-- The member's own call has gone ON SITE or become severity 1, so that the member is nobody's break-in candidate (R32). DESIGN CHOICE
(log 70): the other calls are gone through in ascending context number, every loss with its CANCEL first, and then the tests of their
rungs, in the same order. -/
def dropBreakIn (m : Nat) (s : State) : State × List Task :=
  let own := ((member s m).engaged.map tagContext).getD 65
  let marked := breakInContexts s own m
  let lost := marked.filter fun c => (context s c).isCurrent m
  (marked.foldl (fun s c => dropBreakInOf c m s) s, lost.map fun c => .lostMark c m)

/-! ## The requests (R13 to R18) -/

/-- The result of a request is placed in the slot image. -/
def setResult (slot : Nat) (r : RequestResult) (s : State) : State := modSlot slot (fun g => { g with result := r }) s

/-- The slot state is live. -/
def SlotState.live : SlotState → Bool
  | .waiting => true | .paging => true | .held => true | .accepted => true | .onSite => true
  | .empty => false | .cleared => false | .withdrawn => false | .exhausted => false | .rejected => false
  | .abandoned => false

/-- WITHDRAW (R14). -/
def requestWithdraw (slot : Nat) (s : State) : State × List Task :=
  if (slotImage s slot).state.live then endSlotCall slot .withdrawn .withdrawn (setResult slot .done s)
  else (setResult slot .wrongState s, [])

/-- CLOSE (R15). -/
def requestClose (slot : Nat) (s : State) : State × List Task :=
  match contextOfSlot s slot with
  | some c => endCall c .cleared .controlRoom (setResult slot .done s)
  | none => (setResult slot .wrongState s, [])

/-- RELEASE (R16). -/
def requestRelease (slot : Nat) (s : State) : State × List Task :=
  match (contextOfSlot s slot).filter fun c => (context s c).state == .held with
  | some c =>
    let k := context s c
    let s := submit { callRecord .released k with detail1 := packBytes k.rung k.pass } (setResult slot .done s)
    moveOn c k.rung (modContext c (fun k => { k with state := .paging }) s)
  | none => (setResult slot .wrongState s, [])

/-- ADVANCE (R17). -/
def requestAdvance (slot : Nat) (s : State) : State × List Task :=
  match (contextOfSlot s slot).filter fun c => (context s c).state == .paging with
  | some c => (setResult slot .done s, [.endRung c])
  | none => (setResult slot .wrongState s, [])

/-- The present severity of a slot's live call. -/
def presentSeverity (s : State) (slot : Nat) : Option Nat :=
  match contextOfSlot s slot with
  | some c => some (context s c).severity
  | none => (s.calls.backlog.find? (·.slot == slot)).map (·.severity)

/-- The backlog entry of a slot takes a new severity and keeps its take order number (R18). -/
def raiseWaiting (slot value : Nat) (s : State) : State :=
  match s.calls.backlog.find? (·.slot == slot) with
  | none => s
  | some w => (leaveBacklog slot s).modCalls fun k => { k with backlog := placeWaiting { w with severity := value } k.backlog }

/-- RAISE (R18). An accepter whose call becomes severity 1 is nobody's break-in candidate (R32). -/
def requestRaise (slot value : Nat) (s : State) : State × List Task :=
  match presentSeverity s slot with
  | none => (setResult slot .wrongState s, [])
  | some present =>
    if value = 0 ∨ present ≤ value then (setResult slot .badValue s, [])
    else
      let s := setResult slot .done s
      match contextOfSlot s slot with
      | none => (raiseWaiting slot value s, [])
      | some c =>
        let accepter := (context s c).accepter
        (modContext c (fun k => { k with severity := value }) s,
          if value = 1 then (accepter.map fun m => Task.dropBreakIn m).toList else [])

/-- A request on a slot's call is settled as the call stands (R13). -/
def settleRequest (slot code value : Nat) (s : State) : State × List Task :=
  match code with
  | 0 => (setResult slot .done s, [])
  | 1 => requestWithdraw slot s
  | 2 => requestClose slot s
  | 3 => requestRelease slot s
  | 4 => requestAdvance slot s
  | 5 => requestRaise slot value s
  | _ => (setResult slot .badValue s, [])

/-- The host part of a slot, read by a scan (R5, R6, R13). -/
def takeHostPart (slot : Nat) (h : HostPart) (s : State) : State × List Task :=
  let image := slotImage s slot
  if h.postNumber ≠ image.takenPost then
    let s := modSlot slot (fun g => { g with takenPost := h.postNumber, takenRequest := h.requestNumber }) s
    let r := if image.state.live then endSlotCall slot .withdrawn .slotLost s else (s, [])
    (r.1, r.2 ++ [.takePost slot h])
  else if h.requestNumber ≠ image.takenRequest ∧ image.state ≠ .empty then
    settleRequest slot h.requestCode h.requestValue (modSlot slot (fun g => { g with takenRequest := h.requestNumber }) s)
  else (s, [])

/-! ## The fallback call (R23, R177) -/

/-- The text of the fallback call. -/
def fallbackText : List Byte :=
  [0x41, 0x4C, 0x41, 0x52, 0x4D, 0x20, 0x53, 0x45, 0x52, 0x56, 0x45, 0x52, 0x20, 0x4C, 0x4F, 0x53, 0x54]

/-- The fallback call as a post. -/
def fallbackPost : Waiting where
  slot := 0
  severity := 1
  order := 0
  callNumber := 0
  zone := 0
  ladder := 0
  origin := 0
  text := fallbackText

/-- The fallback call opens in context 64 (R23). -/
def openFallback (s : State) : State × List Task :=
  if (context s Config.fallbackContext).live then (s, []) else openCall Config.fallbackContext none fallbackPost s

/-! ## Expiries of a call's windows (R51, R53 to R57, R115) -/

/-- The rung deadline has expired: the rung ends unanswered (R51). -/
def expireDeadline (c : Nat) (s : State) : State × List Task :=
  if (context s c).deadline.due s.tickCount then
    (modContext c (fun k => { k with deadline := .stopped }) s, [.endRung c])
  else (s, [])

/-- The turn has expired (R34). -/
def expireTurn (c : Nat) (s : State) : State × List Task :=
  if (context s c).turn.due s.tickCount then (modContext c (fun k => { k with turn := .stopped }) s, [.endTurn c])
  else (s, [])

/-- The first arrival window has expired (R54, R115). -/
def expireFirstArrival (c m : Nat) (s : State) : State :=
  let k := context s c
  let s := submit { callRecord .arrivalOverdue k with
    member := some m, detail1 := k.acceptRung, detail2 := k.arrivalLength } s
  let s := raise .arrivalOverdue s
  let s := if effectivePager s.roster.tables m = 0 then s else handOver .arrivalCheck c m false s
  let a := classLength s k (callLadder s k).arrivalClass
  modContext c (fun k => { k with arrival := startWindow s a, arrivalLength := a, arrivalCount := 2 }) s

/-- An arrival window has expired: the first starts the second (R115), and the second reopens the call (R55). -/
def expireArrival (c : Nat) (s : State) : State × List Task :=
  let k := context s c
  if k.arrival.due s.tickCount then
    let s := modContext c (fun k => { k with arrival := .stopped }) s
    match k.accepter with
    | none => (s, [])
    | some m =>
      if k.arrivalCount = 1 then (expireFirstArrival c m s, []) else (s, [.reopen c .secondArrivalWindow])
  else (s, [])

/-- A REMIND that waits, deferred, for the remind interval is offered again when the limit is reached (R94). DESIGN CHOICE (log 63): a
record whose receipt window or retry window has been started meanwhile is left to that window. -/
def offerDeferredRemind (tag m : Nat) (s : State) : State × List Task :=
  match deliveryOf s { tag := tag, member := m, kind := .remind } with
  | none => (s, [])
  | some r =>
    if (r.copies.any (·.state == .deferred)) && !r.receipt.active && !r.retry.active then offerAgain r.serial s else (s, [])

/-- A remind interval has expired (R57). -/
def expireRemind (c m : Nat) (s : State) : State × List Task :=
  match (context s c).contact m with
  | none => (s, [])
  | some e =>
    if !e.remind.due s.tickCount then (s, [])
    else if e.remindCount < s.roster.settings.remindLimit then
      let w := startWindow s s.roster.settings.remindInterval
      let s := modContext c (Context.modContact m fun e => { e with remind := w, remindCount := e.remindCount + 1 }) s
      (handOver .remind c m false s, [])
    else
      let s := modContext c (Context.modContact m fun e => { e with remind := .stopped }) s
      offerDeferredRemind (context s c).tag m s

/-- The report of an unreached record to its call context (R92). -/
def reportUnreached (key : RecordKey) (s : State) : State × List Task :=
  let c := tagContext key.tag
  if !tagLive s key.tag ∨ key.kind = .arrivalCheck then (s, [])
  else
    let s := modContext c (Context.modContact key.member fun e => { e with unreached := true }) s
    if (context s c).isCurrent key.member then (loseMark c key.member s, [.lostMark c key.member]) else (s, [])

/-- The report of a receipt to its call context (R57, R93): the received mark, and for a PAGE the remind interval of a member
who is current still. -/
def reportReceipt (key : RecordKey) (s : State) : State :=
  let c := tagContext key.tag
  match key.kind with
  | .arrivalCheck => s
  | .remind => modContext c (Context.modContact key.member fun e => { e with received := true }) s
  | .page =>
    let w := startWindow s s.roster.settings.remindInterval
    modContext c (Context.modContact key.member fun e =>
      { e with received := true, remind := if e.current then w else e.remind }) s

/-! ## PAUSE and RESUME (R59 to R61) -/

/-- Every window of a context. -/
def Context.mapWindows (f : Window → Window) (k : Context) : Context :=
  { k with deadline := f k.deadline, turn := f k.turn, arrival := f k.arrival,
           contacted := k.contacted.map fun e => { e with remind := f e.remind } }

/-- Every window of every call context: its own, and those of its messages (R59). -/
def mapWindows (f : Window → Window) (s : State) : State :=
  (s.modCalls fun e => { e with contexts := e.contexts.map (Context.mapWindows f) }).modDispatcher fun d =>
    { d with records := d.records.map fun r => { r with receipt := f r.receipt, retry := f r.retry } }

/-- The expiries due when RESUME has restarted every window: contexts in ascending number, then messages. DESIGN CHOICE (log 35): of one
context the deadline, the turn, the arrival window, and the remind intervals in list order; of one message the receipt window and then the
retry window. -/
def dueExpiries (s : State) : List Task :=
  ((List.range 65).flatMap fun c =>
      let k := context s c
      (if k.deadline.due s.tickCount then [Task.expireDeadline c] else [])
        ++ (if k.turn.due s.tickCount then [Task.expireTurn c] else [])
        ++ (if k.arrival.due s.tickCount then [Task.expireArrival c] else [])
        ++ (k.contacted.filter fun e => e.remind.due s.tickCount).map fun e => Task.expireRemind c e.member)
    ++ s.dispatcher.records.flatMap fun r =>
      (if r.receipt.due s.tickCount then [Task.expireReceipt r.key] else [])
        ++ (if r.retry.due s.tickCount then [Task.expireRetry r.key] else [])

end Sys2Proof.Machine
end

