-- ==== Sys2Proof/Machine/Answers.lean ====
section
/-! DEFINITION. Machine/Answers.lean: the Reply Matcher and the settling of answers and presses (chapter 6): reports and their
tags (R103 to R106), ACCEPT (R107 to R110), STAND DOWN (R111), DECLINE (R112), ARRIVED (R113), CLEAR (R114), and station presses
(R116, R117, R148). -/

namespace Sys2Proof.Machine

/-! ## STAND DOWN (R111) -/

/-- The reason a STAND DOWN gives for its cause (R111). -/
def StandCause.reason : StandCause → StandReason
  | .taken => .taken | .onSite => .ended | .notAccepter => .ended | .busy => .busy | .offDuty => .busy | .stale => .stale

/-- A refused ACCEPT, ARRIVED or CLEAR is answered with a STAND DOWN, and the record STAND DOWN SENT is submitted (R111). DESIGN CHOICE
(log 65): the MESSAGE DROPPED of a STAND DOWN that finds no room or no route comes before STAND DOWN SENT. -/
def standDown (tag m : Nat) (report : ReportKind) (cause : StandCause) (s : State) : State :=
  let s := sendControl
    (controlMessage .standDown tag m (effectivePager s.roster.tables m) 0 (some cause.reason)) none none s
  submit { tagRecord s .standDownSent tag with member := some m, detail1 := report.code, detail2 := cause.code } s

/-! ## ACCEPT (R107 to R110) -/

/-- What an ACCEPT comes to. -/
inductive AcceptOutcome where
  | repeated
  | refused (cause : StandCause)
  | taken
  deriving DecidableEq, Repr

/-- The break-in test of R107. -/
def breakInTest (s : State) (c m : Nat) : Bool :=
  (context s c).severity == 1 && s.roster.settings.breakIn && ((context s c).contact m).any (·.breakIn)

/-- The decision on an ACCEPT, by the first row that applies (R107). -/
def decideAccept (s : State) (c m : Nat) : AcceptOutcome :=
  let k := context s c
  let settled := k.state = .accepted ∨ k.state = .onSite
  if settled ∧ k.accepter = some m then .repeated
  else if settled ∧ k.accepter.isSome then .refused .taken
  else if settled then .refused .onSite
  else if !onDuty s.roster.tables m then .refused .offDuty
  else if (member s m).engaged.isSome ∧ !breakInTest s c m then .refused .busy
  else .taken

/-- The contexts, other than one, that hold the member current without the break-in mark (R67). -/
def currentContexts (s : State) (but m : Nat) : List Nat :=
  (List.range 65).filter fun c => c != but && ((context s c).contact m).any fun e => e.current && !e.breakIn

/-- Taking an ACCEPT (R108): the call's own part. DESIGN CHOICE (log 57): the entry of a member without one is made before the current
marks are removed. DESIGN CHOICE (log 71): the CANCELs, with any MESSAGE DROPPED of them, come first, then the CONFIRM with its own, then
the record ACCEPTED. -/
def takeAccept (c m : Nat) (s : State) : State :=
  let wasCurrent := (context s c).isCurrent m
  let isBreakIn := (member s m).engaged.isSome
  let s := moveRotationPointers m (engage m (context s c).tag s)
  let k := context s c
  let a := classLength s k (callLadder s k).arrivalClass
  let s := modContext c (fun k => { k with arrival := startWindow s a, arrivalLength := a, arrivalCount := 1 }) (stopRung c s)
  let s := modContext c (fun k =>
    { (k.ensureContact m) with state := .accepted, accepter := some m, acceptRung := k.rung, acceptTick := s.tickCount }) s
  let s := showContext c s
  let s := cancelOthers c (some m) (loseMarks c s)
  let s := leaveLatches c s
  let k := context s c
  let s := sendConfirm k m s
  submit { callRecord .accepted k with
    member := some m, detail1 := packBytes k.rung k.pass,
    detail2 := (if wasCurrent then 1 else 0) + (if isBreakIn then 2 else 0) } s

/-- What the taking of an ACCEPT does in other calls: a break-in ends the member's previous call's acceptance (R109), and calls
that hold the member current without the break-in mark lose the mark with a CANCEL (R67). DESIGN CHOICE (log 62): the queued PAGE and REMIND
copies are removed before the CANCEL is enqueued. -/
def acceptElsewhere (c m : Nat) (previous : Option Nat) (s : State) : State × List Task :=
  let others := currentContexts s c m
  let s := others.foldl (fun s o => cancelMember o m (loseMark o m s)) s
  (s, (previous.map fun t => Task.breakInTaken c t).toList ++ others.map fun o => .lostMark o m)

/-- The record BREAK-IN of the call that has taken the ACCEPT, and the reopening of the previous call (R109). -/
def breakInTaken (c previous : Nat) (s : State) : State × List Task :=
  let k := context s c
  let s := submit { callRecord .breakIn k with member := k.accepter, detail1 := previous } s
  let p := tagContext previous
  (s, if tagLive s previous && (context s p).accepter == k.accepter then [.reopen p .breakIn] else [])

/-- An ACCEPT with a live tag (R107). -/
def answerAccept (c m : Nat) (s : State) : State × List Task :=
  match decideAccept s c m with
  | .repeated => (sendConfirm (context s c) m s, [])
  | .refused cause => (standDown (context s c).tag m .accept cause s, [])
  | .taken => let previous := (member s m).engaged; acceptElsewhere c m previous (takeAccept c m s)

/-! ## ARRIVED (R113) -/

/-- The call goes ON SITE (R113, R116): the arrival window stops, and the accepter's ARRIVAL CHECK is withdrawn. -/
def goOnSite (c : Nat) (site : Site) (who : Option Nat) (s : State) : State :=
  let k := context s c
  let s := match k.accepter with
    | none => s
    | some m => withdrawKey { tag := k.tag, member := m, kind := .arrivalCheck } s
  let s := showContext c (modContext c (fun k => { k with
    arrival := .stopped, state := .onSite, site := site, arriveTick := s.tickCount }) s)
  let where2 := match site with
    | .station l d => packBytes (lineCode l) d
    | _ => 0
  submit { callRecord .arrived (context s c) with member := who, detail1 := site.code, detail2 := where2 } s

/-- The call that has gone ON SITE makes its accepter nobody's break-in candidate (R32). DESIGN CHOICE (log 82): ARRIVED is submitted before
the losses in third calls. -/
def onSiteTasks (accepter : Option Nat) : List Task := (accepter.map fun m => Task.dropBreakIn m).toList

/-- An ARRIVED with a live tag (R113). DESIGN CHOICE (log 72): where it takes the call, ARRIVED follows ACCEPTED at once, before the CANCELs
of the member's other calls and before the record BREAK-IN. DESIGN CHOICE (log 74): the break-in marks that R32 ends in third calls are lost
last, after BREAK-IN, REOPENED with the rung that it enters, and the tests of the rungs of the calls that lost the mark by R67. -/
def answerArrived (c m : Nat) (s : State) : State × List Task :=
  if (context s c).state = .accepted ∧ (context s c).accepter = some m then
    (goOnSite c .member (some m) s, onSiteTasks (some m))
  else
    match decideAccept s c m with
    | .repeated => (sendConfirm (context s c) m s, [])
    | .refused cause => (standDown (context s c).tag m .arrived cause s, [])
    | .taken =>
      let previous := (member s m).engaged
      let r := acceptElsewhere c m previous (goOnSite c .member (some m) (takeAccept c m s))
      (r.1, r.2 ++ onSiteTasks (some m))

/-! ## CLEAR (R114) -/

/-- A CLEAR with a live tag (R114). -/
def answerClear (c m : Nat) (s : State) : State × List Task :=
  let k := context s c
  match k.state with
  | .accepted =>
    if k.accepter = some m then
      let s := showContext c (modContext c (fun k => { k with site := .member, arriveTick := s.tickCount }) s)
      endCall c .cleared .clearedByMember s
    else (standDown k.tag m .clear .taken s, [])
  | .onSite =>
    if k.accepter = some m then endCall c .cleared .clearedByMember s
    else if k.accepter.isSome then (standDown k.tag m .clear .taken s, [])
    else (standDown k.tag m .clear .onSite s, [])
  | .paging => (standDown k.tag m .clear .notAccepter s, [])
  | .held => (standDown k.tag m .clear .notAccepter s, [])
  | .free => (s, [])

/-! ## DECLINE (R112) -/

/-- The record DECLINED. -/
def submitDeclined (c m : Nat) (s : State) : State :=
  let k := context s c
  submit { callRecord .declined k with member := some m, detail1 := packBytes k.rung k.pass } s

/-- A DECLINE with a live tag (R112). -/
def answerDecline (c m : Nat) (s : State) : State × List Task :=
  let k := context s c
  if k.state = .paging ∧ k.isCurrent m then
    let s := modContext c (Context.modContact m fun e => { e with declined := true }) s
    (submitDeclined c m (loseMark c m s), [.lostMark c m])
  else if k.state = .accepted ∧ k.accepter = some m then (submitDeclined c m s, [.reopen c .decline])
  else (s, [])

/-! ## RECEIPT (R93, R106) -/

/-- A RECEIPT completes every live record of its tag and member, and reports each to the call context (R93). -/
def answerReceipt (l : LineId) (address tag m : Nat) (s : State) : State :=
  (receiptRecords s tag m).foldl (fun s r => reportReceipt r.key (completeRecord l address r s)) s

/-! ## The Reply Matcher (R103 to R106) -/

/-- A report whose pager no member holds (R104). -/
def unknownPager (l : LineId) (address pager : Nat) (kind : ReportKind) (s : State) : State :=
  submit { blankRecord .unknownPager with
    line := some l, drop := address, callNumber := BitVec.ofNat 32 pager, detail1 := kind.code } s

/-- A tagged report from a known pager (R105, R106). -/
def matchTagged (l : LineId) (address tag m : Nat) (kind : ReportKind) (s : State) : State × List Task :=
  let c := tagContext tag
  match kind with
  | .hello => (s, [])
  | .receipt => if tagLive s tag then (answerReceipt l address tag m s, []) else (s, [])
  | .decline => if tagLive s tag then answerDecline c m s else (s, [])
  | .accept => if tagLive s tag then answerAccept c m s else (standDown tag m .accept .stale s, [])
  | .arrived => if tagLive s tag then answerArrived c m s else (standDown tag m .arrived .stale s, [])
  | .clear => if tagLive s tag then answerClear c m s else (standDown tag m .clear .stale s, [])

/-- A pager report, delivered by a transmitter (R103): the last-heard update comes first. -/
def matchReport (l : LineId) (address : Nat) (data : List Byte) (s : State) : State × List Task :=
  match readReportKind data with
  | none => (s, [])
  | some kind =>
    let pager := le24 data 1
    match memberOfPager s.roster.tables pager with
    | none => (unknownPager l address pager kind s, [])
    | some m =>
      let zone := ((drop? s l address).map (·.zone)).getD 0
      matchTagged l address (le16 data 4) m kind (heard m zone s)

/-! ## Presses (R116, R117, R148) -/

/-- The call is a candidate of an ATTEND press in a zone (R116). -/
def attendCandidate (s : State) (z c : Nat) : Bool :=
  let k := context s c
  (k.state == .paging || k.state == .held || k.state == .accepted)
    && (k.zone == z || (k.zone == 0 && (latch s z).contains c))

/-- The better of two candidates: more severe, then admitted earlier as ticks differ from the present one; of equals the
lower-numbered context stands, since contexts are gone through in rising order. -/
def betterAttend (s : State) (a b : Nat) : Bool :=
  let x := context s a
  let y := context s b
  x.severity < y.severity || (x.severity == y.severity && ticksSince s y.admitTick < ticksSince s x.admitTick)

/-- The best of some contexts: a later one replaces an earlier one only if it is better. -/
def bestOf (better : Nat → Nat → Bool) (l : List Nat) : Option Nat :=
  l.foldl (fun best c =>
    match best with
    | none => some c
    | some b => if better c b then some c else some b) none

/-- The call an ATTEND press selects (R116). -/
def attendTarget (s : State) (z : Nat) : Option Nat :=
  bestOf (betterAttend s) ((List.range 65).filter (attendCandidate s z))

/-- An ATTEND press (R116). DESIGN CHOICE (log 66): the CANCELs, with any MESSAGE DROPPED of them, come before the record ARRIVED. -/
def pressAttend (l : LineId) (address z : Nat) (s : State) : State × List Task :=
  match attendTarget s z with
  | none => (s, [])
  | some c =>
    let site := Site.station l address
    if (context s c).state = .accepted then (goOnSite c site none s, onSiteTasks (context s c).accepter)
    else
      let s := leaveLatches c (cancelOthers c none (loseMarks c (stopRung c s)))
      (goOnSite c site none s, [])

/-- The call a CLEAR press selects (R117). -/
def clearTarget (s : State) (l : LineId) (address : Nat) : Option Nat :=
  bestOf (fun a b => ticksSince s (context s b).arriveTick < ticksSince s (context s a).arriveTick)
    ((List.range 65).filter fun c => (context s c).state == .onSite && (context s c).site == .station l address)

/-- A CLEAR press (R117). -/
def pressClear (l : LineId) (address : Nat) (s : State) : State × List Task :=
  match clearTarget s l address with
  | none => (s, [])
  | some c => endCall c .cleared .clearedByStation s

/-- A press report of a station: a press shorter than the press minimum is discarded, and another is an ATTEND or a CLEAR press
(R148). -/
def matchPress (l : LineId) (address : Nat) (data : List Byte) (s : State) : State × List Task :=
  if byteAt data 1 < s.roster.settings.pressMinimum then (s, [])
  else if byteAt data 0 = 8 then pressAttend l address (((drop? s l address).map (·.zone)).getD 0) s
  else if byteAt data 0 = 9 then pressClear l address s
  else (s, [])

end Sys2Proof.Machine
end

