-- ==== Sys2Proof/Machine/FieldLines.lean ====
section
/-! DEFINITION. Machine/FieldLines.lean: the Line Controllers (chapter 7): drop states (R123), restarts (R121, R122), the walk
(R126), filling and taking of in-flight sets (R130 to R132), probes (R124, R125), the outcomes of an exchange (R128, R129, R133
to R136), and line requests (R137, R138). -/

namespace Sys2Proof.Machine

/-! ## Drop states (R123) -/

/-- The drop takes a new state: its mirror entry shows it with its cause, and a drop that leaves READY holds no set, no queue,
no sent lamp commands and no runs (R84, R100, R123, R140, R160). -/
def Drop.enter (new : DropState) (cause : DropCause) (d : Drop) : Drop :=
  let leaves := d.state == .ready
  Drop.markDirty { d with
    state := new, lastCause := cause, changes := (d.changes + 1) % 65536,
    inFlight := if leaves then [] else d.inFlight,
    queue := if leaves then [] else d.queue,
    station := if leaves then d.station.map fun t => { call := t.call.forget, attend := t.attend.forget } else d.station,
    countdown := if new = .silent then Config.probeSpacing else d.countdown }

/-- What a drop that leaves READY hands back: its in-flight set in its order, then its air queue from head to tail (R100). -/
def Drop.handsBack (d : Drop) : List AirEntry := if d.state = .ready then d.inFlight ++ d.queue else []

/-- The record DROP STATE (R123). -/
def dropStateRecord (l : LineId) (address : Nat) (old new : DropState) (cause : DropCause) : JournalRecord :=
  { blankRecord .dropState with
    line := some l, drop := address, detail1 := packBytes old.code new.code, detail2 := cause.code }

/-- A change of a drop's state (R123): DROP STATE, FIELD FAULT on an entry into SILENT or ISOLATED, and the hand-back. DESIGN CHOICE (log
77): in that order, so that DROP STATE stands before the records of the hand-back. -/
def setDropState (l : LineId) (address : Nat) (new : DropState) (cause : DropCause) (s : State) : State × List Task :=
  match drop? s l address with
  | none => (s, [])
  | some d =>
    let s := modDrop l address (Drop.enter new cause) s
    let s := submit (dropStateRecord l address d.state new cause) s
    let s := if new = .silent ∨ new = .isolated then raise .fieldFault s else s
    (s, d.handsBack.map fun e => .handBack l address e)

/-! ## Restarts (R121, R122) -/

/-- The fields that a cold restart sets (R121 step 2). -/
def Drop.coldStart (d : Drop) : Drop :=
  if d.kind = .unused then d
  else { d with misses := 0, strikes := [], room := 0, replyTimeout := 0, countdown := 0, downBit := false, upBit := true }

/-- The drop becomes UNKNOWN at a cold restart (R121 step 1). -/
def DropState.restarts : DropState → Bool
  | .ready => true | .silent => true | .isolated => true | .unused => false | .unknown => false

/-- The addresses of a line. -/
def lineAddresses : List Nat := (List.range 16).map (· + 1)

/-- A cold restart (R121): the state changes, the cleared fields and the break. DESIGN CHOICE (log 73): the drops change state in ascending
address, each with its DROP STATE, and the hand-backs follow in the same order. -/
def coldRestart (l : LineId) (s : State) : State × List Task :=
  let changed := lineAddresses.filter fun a => (drop? s l a).any (·.state.restarts)
  let r := changed.foldl (fun (r : State × List Task) a =>
    let q := setDropState l a .unknown .coldRestart r.1
    (q.1, r.2 ++ q.2)) (s, [])
  (r.1.modLine l fun n => { n with
    state := .restarting, phase := .breaking, restart := none, pollPosition := 0, drops := n.drops.map Drop.coldStart }, r.2)

/-- The drop is named in the mask of a RESTART frame (R122). -/
def Drop.inMask (d : Drop) : Bool := d.kind != .unused && d.state != .isolated

/-- The drop mask of a warm restart: bit n − 1 names address n (R122, 12.8). -/
def dropMask (n : Line) : Nat :=
  (n.drops.zipIdx.map fun p => if p.1.inMask then 2 ^ p.2 else 0).foldl (· + ·) 0

/-- A warm restart (R122): the sequence bits are set, and the RESTART frame goes out. -/
def warmRestart (l : LineId) (s : State) : State :=
  s.modLine l fun n => { n with
    state := .restarting, phase := .restartFrame (restartFrameBytes (dropMask n)), restart := none,
    drops := n.drops.map fun d => if d.inMask then { d with downBit := false, upBit := true } else d }

/-- A restart begins. -/
def beginRestart (l : LineId) (r : Restart) (s : State) : State × List Task :=
  match r with
  | .cold => coldRestart l s
  | .warm => (warmRestart l s, [])

/-- The line has nothing on it and may begin a restart at once. -/
def LinePhase.isIdle : LinePhase → Bool
  | .off => true | .gap => true
  | .sending _ => false | .awaiting _ => false | .receiving _ => false | .emptySlot => false
  | .breaking => false | .comingUp => false | .restartFrame _ => false | .restartWait => false

/-- A restart request taken on a RUNNING line: the line is RESTARTING at once, and a restart that meets an exchange begins at
its end (R137). -/
def askRestart (l : LineId) (r : Restart) (s : State) : State × List Task :=
  if (s.line l).phase.isIdle then beginRestart l r s
  else (s.modLine l fun n => { n with state := .restarting, restart := some r }, [])

/-! ## Line requests (R137, R138) -/

/-- RESTORE on a RUNNING line (R138). -/
def requestRestore (l : LineId) (address : Nat) (s : State) : State × LineResult :=
  if address < 1 ∨ 16 < address then (s, .badValue)
  else if (drop? s l address).any (·.state == .isolated) then
    ((setDropState l address .unknown .restore
        (modDrop l address (fun d => { d with misses := 0, strikes := [], room := 0 }) s)).1, .done)
  else (s, .wrongState)

/-- A new line request is settled (R137). -/
def settleLineRequest (l : LineId) (q : LineRequest) (s : State) : State × List Task :=
  let answer (result : LineResult) (s : State) : State :=
    s.modLine l fun n => { n with takenRequest := q.number, requestResult := result }
  if q.code = 0 then (answer .done s, [])
  else if 3 < q.code then (answer .badValue s, [])
  else
    match (s.line l).state with
    | .off => (answer .wrongState s, [])
    | .restarting => (answer .busy s, [])
    | .running =>
      if q.code = 1 then askRestart l .cold (answer .done s)
      else if q.code = 2 then askRestart l .warm (answer .done s)
      else let r := requestRestore l q.drop s; (answer r.2 r.1, [])

/-! ## The walk (R126) -/

/-- What the Line Controller does next. -/
inductive Walk where
  | probe (address : Nat) (moves : Bool)
  | poll (address : Nat)
  | empty
  deriving DecidableEq, Repr

/-- The lowest-addressed SILENT drop whose probe countdown has reached 0. -/
def dueProbe (n : Line) : Option Nat :=
  (n.drops.findIdx? fun d => d.state == .silent && d.countdown == 0).map (· + 1)

/-- The addresses from the one after the poll position, cyclically through 16 back to 1. -/
def walkOrder (position : Nat) : List Nat := (List.range 16).map fun i => (position + i) % 16 + 1

/-- The choice of the next exchange (R126). -/
def chooseExchange (n : Line) : Walk :=
  match dueProbe n with
  | some a => .probe a false
  | none =>
    match (walkOrder n.pollPosition).find? fun a => (n.drops[a - 1]?).any fun d => d.state == .ready || d.state == .unknown with
    | none => .empty
    | some a => if (n.drops[a - 1]?).any (·.state == .ready) then .poll a else .probe a true

/-! ## Filling the in-flight set (R86, R130) -/

/-- The entry is offered to the Line Controller: every entry, or only a control entry while the engine is PAUSED (R86). -/
def AirEntry.offered (paused : Bool) (e : AirEntry) : Bool := !paused || e.message.kind.isControl

/-- Takes offered entries from the head while the set stays within the limit and the 160-byte budget; the first that fails ends
the fill (R130). -/
def fillSet (limit budget : Nat) : List AirEntry → List AirEntry
  | [] => []
  | e :: rest =>
    match limit with
    | 0 => []
    | n + 1 =>
      if messageSize e.message ≤ budget then e :: fillSet n (budget - messageSize e.message) rest else []

/-- The queue without the entries taken, which its order numbers tell apart. -/
def withoutTaken (taken queue : List AirEntry) : List AirEntry :=
  queue.filter fun e => !taken.any fun t => t.order == e.order

/-- The copy that an entry carries becomes IN FLIGHT (R86). -/
def copyInFlight (l : LineId) (address : Nat) (e : AirEntry) (s : State) : State :=
  match e.carriage with
  | .delivery serial st =>
    modDelivery serial (fun r => if r.stage = st ∧ !r.isPending then r.setCopy l address .inFlight else r) s
  | .control _ _ _ => s

/-- An empty in-flight set is filled as the walk chooses a POLL (R130); a set that holds messages is frozen (R132). -/
def fillInFlight (l : LineId) (address : Nat) (s : State) : State :=
  match drop? s l address with
  | none => s
  | some d =>
    if !d.isTransmitter || !d.inFlight.isEmpty then s
    else
      let taken := fillSet (min 4 d.room) 160 (d.queue.filter (AirEntry.offered (s.engine == .paused)))
      let s := modDrop l address (fun d => { d with inFlight := taken, queue := withoutTaken taken d.queue }) s
      taken.foldl (fun s e => copyInFlight l address e s) s

/-! ## Beginning an exchange (R124, R126, R127, R134) -/

/-- A station's lamp commands become its sent commands as a frame is built (R140, R144). -/
def Drop.sendLamps (d : Drop) : Drop :=
  { d with station := d.station.map fun t => { call := t.call.send, attend := t.attend.send } }

/-- The lamp command of a frame: a station's, or all OFF for a transmitter (R127). -/
def Drop.lampByte (d : Drop) : Byte :=
  match d.station with
  | none => 0
  | some t => Machine.lampByte t.call.commanded t.attend.commanded

/-- The exchange that a frame to a drop begins, as the drop stands when the frame is built. -/
def Drop.exchange (address : Nat) (isProbe : Bool) (d : Drop) : Exchange where
  address := address
  isProbe := isProbe
  carriesSet := !isProbe && !d.inFlight.isEmpty
  sameCall := d.station.any fun t => t.call.sendsSame
  sameAttend := d.station.any fun t => t.attend.sendsSame
  turn := 0
  frame := downFrame (if isProbe then 1 else 0) address d.downBit d.upBit d.lampByte
    (if isProbe then [] else d.inFlight.map (·.message))

/-- The frame of an exchange is built and its sending begins. -/
def sendFrame (l : LineId) (address : Nat) (isProbe : Bool) (s : State) : State :=
  match drop? s l address with
  | none => s
  | some d =>
    (modDrop l address Drop.sendLamps s).modLine l fun n => { n with phase := .sending (d.exchange address isProbe) }

/-- A probe: the drop's bits take their starting values, and a SILENT drop's countdown restarts (R124). -/
def beginProbe (l : LineId) (address : Nat) (s : State) : State :=
  sendFrame l address true (modDrop l address (fun d => { d with
    downBit := false, upBit := true, countdown := if d.state = .silent then Config.probeSpacing else d.countdown }) s)

/-- A POLL: the in-flight set is filled if it is empty, and sent (R130). -/
def beginPoll (l : LineId) (address : Nat) (s : State) : State := sendFrame l address false (fillInFlight l address s)

/-- The poll position becomes the address that the walk serves. -/
def setPollPosition (l : LineId) (address : Nat) (s : State) : State :=
  s.modLine l fun n => { n with pollPosition := address }

/-- The next exchange of a RUNNING line begins (R126). -/
def beginExchange (l : LineId) (s : State) : State :=
  match chooseExchange (s.line l) with
  | .probe a moves => beginProbe l a (if moves then setPollPosition l a s else s)
  | .poll a => beginPoll l a (setPollPosition l a s)
  | .empty => s.modLine l fun n => { n with phase := .emptySlot }

/-! ## The outcomes of an exchange (R124, R128, R129, R131 to R136) -/

/-- How an exchange ends (R129). -/
inductive Outcome where
  | valid (frame : List Byte)
  | timeout
  | corrupt
  | strike
  deriving DecidableEq, Repr

/-- A complete reply is judged (R128, R129, R180). -/
def judgeReply (x : Exchange) (kind : DropKind) (frame : List Byte) : Outcome :=
  if !startsWithSync frame then .corrupt
  else if replyCorrupt frame then .corrupt
  else if !x.isProbe && replyKind frame != kind then .corrupt
  else if byteAt frame 2 ≠ x.address then .strike
  else .valid frame

/-- The probe countdown of each SILENT drop is lowered by one (R126). -/
def lowerCountdowns (l : LineId) (s : State) : State :=
  s.modLine l fun n => { n with drops := n.drops.map fun d =>
    if d.state = .silent then { d with countdown := d.countdown - 1 } else d }

/-- An exchange enters its outcome into the strike history of the last 16 (R136). -/
def enterHistory (l : LineId) (address : Nat) (struck : Bool) (s : State) : State :=
  modDrop l address (fun d => { d with strikes := (struck :: d.strikes).take 16 }) s

/-- The strikes of a history. -/
def strikeCount (d : Drop) : Nat := (d.strikes.filter id).length

/-- After a STRIKE, a history that holds three isolates the drop, or submits BABBLE (R136). -/
def settleStrikes (l : LineId) (address : Nat) (s : State) : State × List Task :=
  match drop? s l address with
  | none => (s, [])
  | some d =>
    if strikeCount d < 3 then (s, [])
    else if s.roster.settings.isolateOnBabble then
      setDropState l address .isolated .babble (modDrop l address (fun d => { d with strikes := [], misses := 0 }) s)
    else
      (submit { blankRecord .babble with line := some l, drop := address, detail1 := strikeCount d }
        (modDrop l address (fun d => { d with strikes := [] }) s), [])

/-- A POLL has ended TIMEOUT or CORRUPT: the third miss in a row makes the drop SILENT (R135). -/
def missPoll (l : LineId) (address : Nat) (s : State) : State × List Task :=
  let s := modDrop l address (fun d => { d with misses := d.misses + 1 }) s
  if (drop? s l address).any (3 ≤ ·.misses) then
    setDropState l address .silent .misses (modDrop l address (fun d => { d with misses := 0 }) s)
  else (s, [])

/-- The reply timeout of a turn count (R125). -/
def replyTimeoutOf (turn : Nat) : Nat := clamp 60 600 (2 * turn + 20)

/-- A probe has succeeded (R124, R125). -/
def probeOk (l : LineId) (x : Exchange) (frame : List Byte) (s : State) : State × List Task :=
  setDropState l x.address .ready .probeOk (modDrop l x.address (fun d => { d with
    turnCount := x.turn, replyTimeout := replyTimeoutOf x.turn,
    room := if d.isTransmitter then replyRoom frame else d.room }) s)

/-- A probe has failed: an UNKNOWN drop becomes SILENT, and a SILENT drop stays so (R124). -/
def probeFailed (l : LineId) (address : Nat) (s : State) : State × List Task :=
  if (drop? s l address).any (·.state == .unknown) then setDropState l address .silent .probeFailed s else (s, [])

/-- A valid reply to a probe that names another kind than the drop list (R124). -/
def probeMismatch (l : LineId) (address : Nat) (found : DropKind) (s : State) : State × List Task :=
  match drop? s l address with
  | none => (s, [])
  | some d =>
    if d.state = .unknown then
      let r := setDropState l address .silent .kindMismatch s
      (submit { blankRecord .dropKindMismatch with
        line := some l, drop := address, detail1 := found.code, detail2 := d.kind.code } r.1, r.2)
    else (s, [])

/-- The outcome of a probe. -/
def endProbe (l : LineId) (x : Exchange) (o : Outcome) (s : State) : State × List Task :=
  match o with
  | .valid frame =>
    if (drop? s l x.address).any (·.kind == replyKind frame) then probeOk l x frame s
    else probeMismatch l x.address (replyKind frame) s
  | .timeout => probeFailed l x.address s
  | .corrupt => probeFailed l x.address s
  | .strike =>
    let r := probeFailed l x.address s
    let q := settleStrikes l x.address r.1
    (q.1, r.2 ++ q.2)

/-- The taken bit equals the set's bit: the set is on air, empties, and the down bit toggles (R131). -/
def takeSet (l : LineId) (address : Nat) (d : Drop) (s : State) : State :=
  let s := d.inFlight.foldl (fun s e => onAir l address e s) s
  modDrop l address (fun d => { d with inFlight := [], downBit := !d.downBit }) s

/-- The status of a VALID reply to a POLL: the room and the taken bit, or the lamp readback (R131, R133, R134). DESIGN CHOICE (log
58): the CALL lamp is judged before the ATTEND lamp, and their records come in that order (R145, R146, R165). -/
def applyStatus (l : LineId) (x : Exchange) (d : Drop) (frame : List Byte) (s : State) : State :=
  if d.isTransmitter then
    let s := modDrop l x.address (fun d => { d with room := replyRoom frame }) s
    if x.carriesSet && replyTakenBit frame == d.downBit then takeSet l x.address d s else s
  else
    readback l x.address .attend x.sameAttend (replySeenLit frame .attend)
      (readback l x.address .call x.sameCall (replySeenLit frame .call) s)

/-- The new reports of a VALID reply to a POLL, one at a time in their order (R133, R134). -/
def deliverReports (l : LineId) (x : Exchange) (d : Drop) (frame : List Byte) (s : State) : State × List Task :=
  if replyUpBit frame = d.upBit then (s, [])
  else
    (modDrop l x.address (fun d => { d with upBit := replyUpBit frame }) s,
      (replyReports frame).map fun r => if d.isTransmitter then .report l x.address r else .press l x.address r)

/-- The outcome of a POLL. -/
def endPoll (l : LineId) (x : Exchange) (o : Outcome) (s : State) : State × List Task :=
  match drop? s l x.address with
  | none => (s, [])
  | some d =>
    match o with
    | .valid frame =>
      deliverReports l x d frame (applyStatus l x d frame (modDrop l x.address (fun d => { d with misses := 0 }) s))
    | .timeout => missPoll l x.address s
    | .corrupt => missPoll l x.address s
    | .strike => settleStrikes l x.address s

/-- The end of an exchange: the countdowns, the strike history, the outcome, and then the gap or the restart that waits. -/
def endExchange (l : LineId) (x : Exchange) (o : Outcome) (s : State) : State × List Task :=
  let s := lowerCountdowns l (s.modLine l fun n => { n with phase := .gap })
  let s := enterHistory l x.address (o == .strike) s
  let r := if x.isProbe then endProbe l x o s else endPoll l x o s
  (r.1, r.2 ++ [.lineNext l])

/-- After an exchange or an empty slot: a restart that waits begins (R137). -/
def lineNext (l : LineId) (s : State) : State × List Task :=
  match (s.line l).restart with
  | none => (s, [])
  | some r => beginRestart l r s

/-- The end of an empty slot (R126). -/
def endEmptySlot (l : LineId) (s : State) : State × List Task :=
  (lowerCountdowns l (s.modLine l fun n => { n with phase := .gap }), [.lineNext l])

/-- The kind of a drop. -/
def dropKind (s : State) (l : LineId) (address : Nat) : DropKind := ((drop? s l address).map (·.kind)).getD .unused

/-- The reply starts in time (R124, R129). -/
def replyInTime (s : State) (l : LineId) (x : Exchange) (turn : Nat) : Bool :=
  if x.isProbe then turn < 1024 else (drop? s l x.address).any fun d => turn ≤ d.replyTimeout

/-! ## The beginning and the end of a run (R120, R123, R139, R140) -/

/-- A station record at the completion of the START load (R140). -/
def Station.fresh : Station :=
  let lamp : Lamp := { commanded := .off, sent := none, flag := .ok, mismatchRun := 0, matchRun := 0 }
  { call := lamp, attend := lamp }

/-- A drop record at the completion of the START load (R84, R123, R140, R160). -/
def Drop.fresh (e : DropListEntry) : Drop where
  kind := e.kind
  zone := e.zone
  state := if e.kind = .unused then .unused else .unknown
  downBit := false
  inFlight := []
  upBit := true
  misses := 0
  strikes := []
  room := 0
  turnCount := 0
  replyTimeout := 0
  countdown := 0
  queue := []
  station := if e.kind = .station then some Station.fresh else none
  lastCause := .none
  changes := 0
  dirty := true
  touched := true

/-- The Line Controller takes its drops from the drop list and begins a cold restart if it names a drop (R120, R123). -/
def beginLine (l : LineId) (bitRate : Nat) (list : List DropListEntry) (s : State) : State × List Task :=
  let s := s.modLine l fun n => { n with
    state := .off, phase := .off, restart := none, bitRate := bitRate, pollPosition := 0, drops := list.map Drop.fresh }
  if list.any fun e => e.kind != .unused then coldRestart l s else (s, [])

/-- The line goes OFF at the end of STOPPING: its sets are discarded, and the air queues with them (R84, R139). -/
def Line.goOff (n : Line) : Line :=
  { n with state := .off, phase := .off, restart := none,
           drops := n.drops.map fun d => { d with inFlight := [], queue := [] } }

/-- Every air queue holds no entry (R174). -/
def queuesEmpty (s : State) : Bool := (allDrops s).all fun d => d.queue.isEmpty

end Sys2Proof.Machine
end

