-- ==== Sys2Proof/Machine/Reload.lean ====
section
/-! DEFINITION. Machine/Reload.lean: a table reload (R158, R159), with what it does to members (R75 to R79) and to live calls
(R46). -/

namespace Sys2Proof.Machine

/-- Why a read set is refused (R150, R152), with the encodings of 12.9: the load error and the table. DESIGN CHOICE (log 59): a count
or region of the table directory that fails names the table it is of, and the encoding 0, the directory, is used for none. -/
def reloadError (s : State) (t : Tables) : Option (LoadError × Nat) :=
  let d := s.area.tableDirectory
  match badTableCount d, badTableRegion s.area.directory.areaSize d, invalidTable t with
  | some n, _, _ => some (.countOutOfRange, n)
  | none, some n, _ => some (.outOfArea, n)
  | none, none, some n => some (.countOutOfRange, n)
  | none, none, none => none

/-- The current members of a context who lose the mark at the reload, in ascending roster index, each with the pager and the
route that its CANCEL keeps (R75 to R78, R82). -/
def reloadLossesOf (s : State) (new : Tables) (c : Nat) : List (Nat × Nat × FixedRoute) :=
  let old := s.roster.tables
  ((List.range 512).filter fun m => (context s c).isCurrent m && losesMarks old new m).map fun m =>
    (m, effectivePager old m, routeOf s m)

/-- The losses of current marks, in ascending context number. -/
def reloadLossTasks (s : State) (new : Tables) : List Task :=
  (List.range 65).filterMap fun c =>
    match reloadLossesOf s new c with
    | [] => none
    | l => some (.reloadLosses c l)

/-- One member loses the current mark and the break-in mark, and is sent the CANCEL at the pager held before (R76, R78). DESIGN CHOICE
(log 62): the queued PAGE and REMIND copies are removed before the CANCEL is enqueued. -/
def reloadLoss (c m pager : Nat) (route : FixedRoute) (s : State) : State :=
  let s := modContext c (Context.modContact m fun e => { e with breakIn := false, cancelled := true }) (loseMark c m s)
  sendReloadCancel (context s c).tag m pager route s

/-- The losses of one context: each current member of them, and then what the losses do to the rung (R76). DESIGN CHOICE (log 51): a
rung that they end is ended against the new table, before R46 has adjusted the call. -/
def reloadLosses (c : Nat) (members : List (Nat × Nat × FixedRoute)) (s : State) : State × List Task :=
  let lost := members.filter fun p => (context s c).isCurrent p.1
  (lost.foldl (fun s p => reloadLoss c p.1 p.2.1 p.2.2 s) s, lost.map fun p => .lostMark c p.1)

/-- A call whose ladder cannot be walked any more is given ladder 0 (R46, R8). -/
def reloadLadder (c : Nat) (s : State) : State :=
  let k := context s c
  if ladderUsable s.roster.tables k.ladder then s
  else submit { callRecord .ladderSubstituted k with detail1 := k.ladder } (modContext c (fun k => { k with ladder := 0 }) s)

/-- The adjustments of R46 to one live call. -/
def reloadAdjust (c : Nat) (s : State) : State × List Task :=
  if !(context s c).live then (s, [])
  else
    let s := reloadLadder c s
    let l := callLadder s (context s c)
    let s := showContext c (modContext c (fun k => { k with pass := min k.pass l.repeatLimit }) s)
    let k := context s c
    match k.state with
    | .free => (s, [])
    | .paging => if l.effectiveLast < k.rung then (loseMarks c (stopRung c s), [.pastLast c]) else (s, [])
    | .held => if l.effectiveLast < k.rung then (s, [.pastLast c]) else (s, [])
    | .accepted =>
      (showContext c (modContext c (fun k => { k with
        rung := min k.rung l.effectiveLast, acceptRung := min k.acceptRung l.effectiveLast }) s), [])
    | .onSite =>
      (showContext c (modContext c (fun k => { k with
        rung := min k.rung l.effectiveLast, acceptRung := min k.acceptRung l.effectiveLast }) s), [])

/-- A running rotation has survived a reload (R46). -/
def markReloaded (s : State) : State :=
  s.modCalls fun e => { e with contexts := e.contexts.map fun k => { k with reloaded := k.live } }

/-- The steps of a scan from step 4 on (R156). -/
def scanRest : List Task := [.lineRequest .l0, .lineRequest .l1, .journalRestart, .scanSlot 0]

/-- A LOADED reload (R159): the tables, the member records and the pointers; then the losses, the adjustments and the rest. DESIGN
CHOICE (log 51): a call whose rung the losses end walks the new table before R46 has adjusted it. DESIGN CHOICE (log 88): a WAITING call,
which holds no context, is not adjusted; its ladder is tested again at its admission (R8). -/
def reloadLoaded (new : Tables) (s : State) : State × List Task :=
  (markReloaded (installTables new s),
    reloadLossTasks s new ++ (List.range 65).map Task.reloadAdjust ++ [.reloadDone] ++ scanRest)

/-- Steps 4 to 6 of a LOADED reload (R159). -/
def reloadDone (s : State) : State :=
  let g := s.area.server.generation
  let t := s.roster.tables
  let s := s.modArea fun a => { a with takenGeneration := g, loadedGeneration := g }
  raise .engineChange (submit { blankRecord .tablesLoaded with
    callNumber := g, zone := t.zones.length, member := some t.roster.length,
    detail1 := t.crews.length, detail2 := t.ladders.length } s)

/-- The second read of the table generation settles the reload (R158). -/
def settleReload (second : Word) (s : State) : State × List Task :=
  let first := s.area.server.generation
  let staged := s.area.stagedTables.getD .empty
  let s := s.modArea fun a => { a with stagedTables := none }
  if second ≠ first then
    (submit { blankRecord .reloadDeferred with
      callNumber := first, detail1 := second.toNat % 65536, detail2 := second.toNat / 65536 } s, scanRest)
  else
    match reloadError s staged with
    | some e =>
      (submit { blankRecord .reloadRefused with callNumber := first, detail1 := e.1.code, detail2 := e.2 }
        (s.modArea fun a => { a with takenGeneration := first }), scanRest)
    | none => reloadLoaded staged s

end Sys2Proof.Machine
end

