-- ==== Sys2Proof/Machine/Area.lean ====
section
/-! DEFINITION. Machine/Area.lean: the engine state (R172), the scan and its write step (R155 to R157), heartbeat supervision
(R176, R177), the START load (R153, R154), the end of STOPPING (R174), and what an error of the Area Controller's transactions
does (R161, R162). -/

namespace Sys2Proof.Machine

/-! ## The engine state (R172) -/

/-- A change of engine state: ENGINE CHANGE attention and the record ENGINE STATE. -/
def setEngine (new : EngineState) (s : State) : State :=
  submit { blankRecord .engineState with detail1 := s.engine.code, detail2 := new.code }
    (raise .engineChange { s with engine := new })

/-- The run's drops, tables, registry and queues are no more (R154). -/
def clearRun (s : State) : State :=
  let clear (n : Line) : Line := { n with state := .off, phase := .off, restart := none, drops := [] }
  { s with
    roster := { s.roster with tables := .empty, members := [], pointers := [] }
    dispatcher := { s.dispatcher with records := [] }
    line0 := clear s.line0
    line1 := clear s.line1
    area := { s.area with stagedSettings := none, stagedTables := none } }

/-! ## The scan (R155, R156) -/

/-- A scan begins with the read of the header's server fields. -/
def beginScan (s : State) : State :=
  areaRead .scanHeader 0x50 32 (s.modArea fun a => { a with
    scanInFlight := true, scanTimer := none, scanEnding := false, faultInScan := false })

/-- NUDGE (R155): a scan at once, or nudge pending; not acted on outside RUNNING and PAUSED. -/
def nudgeEngine (s : State) : State :=
  match s.engine with
  | .running => if s.area.scanInFlight then s.modArea fun a => { a with nudgePending := true } else beginScan s
  | .paused => if s.area.scanInFlight then s.modArea fun a => { a with nudgePending := true } else beginScan s
  | .idle => s | .loading => s | .stopping => s | .failed => s

/-- The engine is RUNNING or PAUSED, so that scans recur. -/
def EngineState.scans : EngineState → Bool
  | .running => true | .paused => true | .idle => false | .loading => false | .stopping => false | .failed => false

/-- A scan begun after the memory-fault flag was set that completes all of its steps clears it (R162). -/
def clearAfterScan (complete : Bool) (s : State) : State :=
  if complete && s.area.memoryFault && !s.area.faultInScan then clearMemoryFault s else s

/-- A scan ends, complete or not: the scan timer is started, unless nudge pending begins the next scan at once (R155). -/
def endScan (complete : Bool) (s : State) : State :=
  let s := clearAfterScan complete (s.modArea fun a => { a with scanInFlight := false, scanEnding := false })
  if !s.engine.scans then s
  else if s.area.nudgePending then beginScan (s.modArea fun a => { a with nudgePending := false })
  else s.modArea fun a => { a with scanTimer := some (s.tickCount + BitVec.ofNat 32 s.roster.settings.scanPeriod) }

/-! ## The write step (R2, R81, R157, R160) -/

/-- The server address of a slot. -/
def slotAddress (s : State) (slot : Nat) : Nat := areaBase s + s.area.directory.slots.offset + 128 * slot

/-- The write of a slot's device part, the echoes last (R2). -/
def slotTransaction (op : AreaOp) (address : Nat) (i : SlotImage) : Transaction AreaOp where
  op := op
  reads := []
  writes := cellsAt (address + 64) (slotFieldBytes i) ++ cellsAt (address + 100) slotReservedBytes
  lastWrites := cellsAt (address + 92) (slotEchoBytes i)

/-- The bytes of the header's device fields (R153, R157). -/
def headerBytes (echo : EngineState) (descriptor : Nat) (s : State) : List Byte :=
  headerDeviceBytes s.tickCount echo s.journal.state descriptor s.line0.takenRequest s.line1.takenRequest
    s.line0.requestResult s.line1.requestResult s.area.loadedGeneration

/-- The first index from one on, below a bound, that a test picks. -/
def nextIndex (start bound : Nat) (p : Nat → Bool) : Option Nat :=
  ((List.range (bound - start)).find? fun i => p (start + i)).map (start + ·)

/-- The header's device fields, the last write of the step; the final scan shows IDLE (R157). -/
def writeHeader (s : State) : State :=
  areaWrite .headerWrite 0x70 (headerBytes (if s.area.finalScan then .idle else s.engine) s.journal.index s) s

/-- The drop of a drop mirror entry: entries 0 to 15 are line 0's, 16 to 31 line 1's (R160). -/
def mirrorDrop (i : Nat) : LineId × Nat := if i < 16 then (.l0, i + 1) else (.l1, i - 15)

/-- The dirty drop mirror entries from one on, and then the header (R157, R160). -/
def writeDrops (start : Nat) (s : State) : State :=
  let bound := if s.area.directory.dropMirror.count = 32 then 32 else 0
  match nextIndex start bound fun i => (drop? s (mirrorDrop i).1 (mirrorDrop i).2).any (·.dirty) with
  | none => writeHeader s
  | some i =>
    let a := mirrorDrop i
    match drop? s a.1 a.2 with
    | none => writeHeader s
    | some d =>
      areaWrite (.dropEntry i) (s.area.directory.dropMirror.offset + 12 * i) (dropEntryBytes d)
        (modDrop a.1 a.2 (fun d => { d with touched := false }) s)

/-- The dirty member mirror entries from one on, and then the drop mirror (R81, R157). -/
def writeMembers (start : Nat) (s : State) : State :=
  match nextIndex start (min 512 s.area.directory.memberMirror.count) fun m => (member s m).dirty with
  | none => writeDrops 0 s
  | some m =>
    areaWrite (.memberEntry m) (s.area.directory.memberMirror.offset + 16 * m)
      (memberEntryBytes s.roster.tables m (member s m))
      (s.modRoster fun r => { r with members := r.members.modify m fun x => { x with touched := false } })

/-- The dirty slot images from one on, and then the member mirror (R2, R157). -/
def writeSlots (start : Nat) (s : State) : State :=
  match nextIndex start s.area.slots.length fun i => (slotImage s i).dirty with
  | none => writeMembers 0 s
  | some i =>
    areaIssue (slotTransaction (.slotImage i) (slotAddress s i) (slotImage s i))
      (s.modArea fun a => { a with slots := a.slots.modify i fun g => { g with touched := false } })

/-- A slot image written is clean, unless it has changed since its write was built (R2). -/
def cleanSlot (i : Nat) (s : State) : State :=
  s.modArea fun a => { a with slots := a.slots.modify i fun g => { g with dirty := g.touched } }

/-- A member mirror entry written is clean, unless it has changed since (R81). -/
def cleanMember (m : Nat) (s : State) : State :=
  s.modRoster fun r => { r with members := r.members.modify m fun x => { x with dirty := x.touched } }

/-- A drop mirror entry written is clean, unless it has changed since (R160). -/
def cleanDrop (i : Nat) (s : State) : State :=
  modDrop (mirrorDrop i).1 (mirrorDrop i).2 (fun d => { d with dirty := d.touched }) s

/-- Step 6 of a scan: the awaited descriptor is read, or a pending close written again, while the journal is STALLED with the
memory-fault flag clear and no take or close of its own in flight (R156, R166, R167). DEDUCED (log 27): a take holds it up from its read on. -/
def journalStep (s : State) : State :=
  if s.journal.state ≠ .stalled ∨ s.area.memoryFault ∨ s.journal.bus.any (·.op.takesOrCloses) then writeSlots 0 s
  else
    let offset := s.area.directory.descriptors.offset + 24 * s.journal.index
    if s.journal.closePending then areaWrite .descriptorClose (offset + 12) [2#8] s
    else areaRead .descriptorState offset 24 s

/-- Step 5 of a scan, from a slot on, and then step 6. -/
def scanSlot (slot : Nat) (s : State) : State :=
  if slot < s.area.directory.slots.count then
    areaRead (.slotHost slot) (s.area.directory.slots.offset + 128 * slot) 64 s
  else journalStep s

/-! ## Heartbeat supervision (R176, R177) -/

/-- The heartbeat limit of the run; 0 is supervision off. -/
def heartbeatLimit (s : State) : Nat :=
  if s.watch.locked then s.watch.lockedLimit else s.roster.settings.heartbeatLimit

/-- SERVER LOST (R177): the flag, the attention, the fallback call, and the record with that call's tag. DESIGN CHOICE (log 69): the record
shows the tag also where the fallback call has ended before step 4. -/
def serverLost (s : State) : State × List Task :=
  let s := raise .serverLost (s.modWatch fun w => { w with serverLost := true })
  let r := openFallback s
  (r.1, r.2 ++ [.submitServerLost (some (context r.1 Config.fallbackContext).tag)])

/-- SERVER BACK (R177). -/
def serverBack (value : Word) (s : State) : State × List Task :=
  let s := raise .serverBack (s.modWatch fun w => { w with serverLost := false })
  (submit { blankRecord .serverBack with detail1 := value.toNat % 65536 } s,
    [.endCall Config.fallbackContext .withdrawn .withdrawn])

/-- A scan hands over a heartbeat value (R176). -/
def heartbeat (value : Word) (s : State) : State × List Task :=
  if heartbeatLimit s = 0 then (s, [])
  else if value ≠ s.watch.last then
    let back := s.watch.serverLost
    let s := s.modWatch fun w => { w with stale := 0, last := value }
    if back then serverBack value s else (s, [])
  else if s.watch.serverLost then (s, [])
  else
    let s := s.modWatch fun w => { w with stale := w.stale + 1 }
    if heartbeatLimit s ≤ s.watch.stale then serverLost s else (s, [])

/-- The record SERVER LOST (R177 step 4). -/
def submitServerLost (tag : Option Nat) (s : State) : State :=
  submit { blankRecord .serverLost with detail1 := heartbeatLimit s, detail2 := tag.getD 0xFFFF } s

/-! ## Steps 2 to 4 of a scan (R156) -/

/-- The header's server fields have been read. -/
def takeServerFields (f : ServerFields) (s : State) : State × List Task :=
  (s.modArea fun a => { a with server := f }, [.heartbeat f.heartbeat, .scanTables])

/-- Step 3: a table generation that differs from the taken one makes a reload (R158). -/
def scanTables (s : State) : State × List Task :=
  if s.area.server.generation ≠ s.area.takenGeneration then (areaRead .reloadDirectory 0x30 32 s, [])
  else (s, scanRest)

/-- Step 4: the request of a line, if it is new (R137). -/
def scanLineRequest (l : LineId) (s : State) : State × List Task :=
  let q := match l with | .l0 => s.area.server.request0 | .l1 => s.area.server.request1
  if q.number = (s.line l).takenRequest then (s, []) else settleLineRequest l q s

/-- Step 4: the journal restart request, if it is new (R168). -/
def scanJournalRestart (s : State) : State :=
  let n := s.area.server.restart
  if n = s.area.takenRestart then s else requestRestart (s.modArea fun a => { a with takenRestart := n })

/-! ## The START load (R150 to R154) -/

/-- The regions of the four tables. -/
def tableRegions (s : State) : List (Nat × Nat) :=
  let t := s.area.tableDirectory
  let region (e : DirEntry) (size : Nat) : Nat × Nat := (areaBase s + e.offset, e.count * size)
  [region t.zones 4, region t.crews 36, region t.ladders 36, region t.roster 8]

/-- START is taken (R47, R64, R83, R153, R155, R162, R176): the tick count is 0, what a run keeps is emptied, the engine is
LOADING, and the header is read. -/
def startLoad (s : State) : State :=
  let s := { s with
    tickCount := 0
    watch := { s.watch with stale := 0, serverLost := false }
    window := { s.window with control := .start, loadError := .none }
    roster := { s.roster with members := [] }
    calls := { contexts := List.replicate 65 .empty, backlog := [] }
    dispatcher := { records := [], order := 0, serial := 0, pendingCount := 0 }
    latches := List.replicate 24 []
    area := { s.area with
      bus := none, scanInFlight := false, nudgePending := false, scanTimer := none, scanEnding := false, stopLoad := false,
      stopLimit := none, stopEnded := false, finalScan := false, memoryFault := false, faultInScan := false,
      stagedSettings := none, stagedTables := none, takeOrder := 0 } }
  areaRead .loadHeader 0 Config.headerSize (setEngine .loading s)

/-- The load ends with a failed check or an error: FAILED with its load error (R153, R154). -/
def failLoad (e : LoadError) (s : State) : State :=
  setEngine .failed { s with
    window := { s.window with loadError := e }
    area := { s.area with stagedSettings := none, stagedTables := none } }

/-- The load that STOP has abandoned ends as its transaction completes: IDLE with no load error (R154). -/
def abandonLoad (s : State) : State := setEngine .idle (clearRun (s.modArea fun a => { a with stopLoad := false }))

/-- The next step of a load, unless STOP has abandoned it. -/
def loadStep (next : State → State) (s : State) : State := if s.area.stopLoad then abandonLoad s else next s

/-- Step 1 of the load: the header has been read (R150). DESIGN CHOICE (log 79): the last value seen is set only where the header passes
every check (R176). -/
def loadHeader (data : List Byte) (s : State) : State :=
  match headerError data with
  | .none =>
    let f := readServerFields data 0x50
    let s := (s.modArea fun a => { a with
      directory := readDirectory data, tableDirectory := readTableDirectory data 0x30, server := f }).modWatch fun w =>
        { w with last := f.heartbeat }
    areaRead .loadSettings s.area.directory.settings Config.settingsSize s
  | e => failLoad e s

/-- Step 2: the settings have been read (R151). -/
def loadSettings (data : List Byte) (s : State) : State :=
  let s := s.modArea fun a => { a with stagedSettings := some (readSettings data) }
  areaIssue (readTransaction .loadTables (tableRegions s)) s

/-- Step 4: the baselines of the header read of step 1, and the read of every slot's host part (R153). -/
def recordBaselines (s : State) : State :=
  let f := s.area.server
  let s := s.modArea fun a => { a with
    takenGeneration := f.generation, loadedGeneration := f.generation, takenRestart := f.restart }
  let s := { s with
    line0 := { s.line0 with takenRequest := f.request0.number, requestResult := .none }
    line1 := { s.line1 with takenRequest := f.request1.number, requestResult := .none } }
  areaIssue (readTransaction .loadSlots ((List.range s.area.directory.slots.count).map fun i => (slotAddress s i, 64))) s

/-- Step 3: the tables have been read (R152). -/
def loadTables (zones crews ladders roster : List Byte) (s : State) : State :=
  let t := readTables s.area.tableDirectory zones crews ladders roster
  match invalidTable t with
  | some _ => failLoad .countOutOfRange s
  | none => recordBaselines (s.modArea fun a => { a with stagedTables := some t })

/-- Step 5: the write of a slot's device part, or of the header once every slot is written, with journal descriptor
0 (R153). -/
def loadWriteSlot (slot : Nat) (s : State) : State :=
  if slot < s.area.slots.length then
    areaIssue (slotTransaction (.loadSlotWrite slot) (slotAddress s slot) (slotImage s slot)) s
  else areaWrite .loadHeaderWrite 0x70 (headerBytes .loading 0 s) s

/-- Step 4: the host parts have been read, and every slot image is EMPTY with its baselines (R3). -/
def loadBaselines (hosts : List (List Byte)) (s : State) : State :=
  loadWriteSlot 0 (s.modArea fun a => { a with
    slots := (List.range a.directory.slots.count).map fun i =>
      let h := readHostPart (hosts.getD i [])
      .emptyWith h.postNumber h.requestNumber })

/-- The registry at the completion of the load, every mirror entry dirty (R64, R81). -/
def freshMembers : List Member := List.replicate 512 { Member.empty with dirty := true, touched := true }

/-- The supervision lock at the completion of the load (R176). -/
def lockSupervision (s : State) : State :=
  s.modWatch fun w =>
    if !w.locked && s.roster.settings.heartbeatLimit != 0 then
      { w with locked := true, lockedLimit := s.roster.settings.heartbeatLimit }
    else w

/-- The load completes (R153 step 6). The run begins with every context FREE and nobody waiting, as START has left them (log 60). -/
def completeLoad (s : State) : State × List Task :=
  let settings := s.area.stagedSettings.getD .empty
  let tables := s.area.stagedTables.getD .empty
  let s := { s with
    roster := { settings := settings, tables := tables, members := freshMembers, pointers := tables.crews.map fun _ => 0 }
    calls := { contexts := List.replicate 65 .empty, backlog := [] }
    area := { s.area with stagedSettings := none, stagedTables := none } }
  let s := lockSupervision (journalBegin s)
  let p := beginLine .l0 settings.bitRate0 (settings.dropList.take 16) s
  let q := beginLine .l1 settings.bitRate1 (settings.dropList.drop 16) p.1
  (beginScan (setEngine .running q.1), p.2 ++ q.2)

/-! ## PAUSE, RESUME and STOP (R173, R174) -/

/-- PAUSE (R59, R173). -/
def pauseEngine (s : State) : State := setEngine .paused (mapWindows (Window.freeze s.tickCount) s)

/-- RESUME (R61, R102, R173): the windows, the expiries due at once, the PENDING records, and the backlog heads. DESIGN CHOICE (log 89): the
record ENGINE STATE is submitted before the records of these. -/
def resumeEngine (s : State) : State × List Task :=
  let s := mapWindows (Window.thaw s.tickCount) (setEngine .running s)
  (s, dueExpiries s ++ (pendingRecords s).map Task.beginPending ++ [.admitHeads])

/-- STOP in RUNNING or PAUSED (R22, R174): STOPPING, the scan ends where it stands, and every live call ends ABANDONED, the
slots' in ascending slot number and then the fallback call. The contexts are gone through once more, so that no call stays live
whatever slot its context names. DESIGN CHOICE (log 89): the record ENGINE STATE is submitted before those of the calls. -/
def stopEngine (s : State) : State × List Task :=
  let s := setEngine .stopping s
  let s := s.modArea fun a => { a with
    scanEnding := a.scanInFlight, scanTimer := none, nudgePending := false,
    stopLimit := some (s.tickCount + BitVec.ofNat 32 Config.stoppingLimit) }
  let s := (List.range s.area.slots.length).foldl (fun s i => (endSlotCall i .abandoned .engineStopped s).1) s
  let s := (List.range 65).foldl (fun s c => finishCall c .abandoned .engineStopped s) s
  let s := s.modCalls fun k => { k with backlog := [] }
  (s.modWatch fun w => { w with serverLost := false }, [])

/-- The engine enters IDLE at the end of STOPPING (R47, R84, R139, R164, R174). -/
def enterIdle (s : State) : State :=
  let s := journalOff { s with line0 := s.line0.goOff, line1 := s.line1.goOff }
  setEngine .idle (s.modArea fun a => { a with
    scanInFlight := false, finalScan := false, stopEnded := false, stopLimit := none })

/-- The final scan has ended, complete or not (R162, R174). -/
def endFinalScan (complete : Bool) (s : State) : State :=
  enterIdle (s.modArea fun a => { a with
    memoryFault := a.memoryFault && !(complete && !a.faultInScan) })

/-- STOPPING ends when every air queue is empty or its limit has passed, and the final scan begins once no transaction of the
Area Controller is in progress (R155, R174). -/
def settleStopping (s : State) : State :=
  if s.engine ≠ .stopping || s.area.finalScan then s
  else
    let s := if queuesEmpty s then s.modArea fun a => { a with stopEnded := true } else s
    if s.area.stopEnded && s.area.bus.isNone then
      writeSlots 0 (s.modArea fun a => { a with
        finalScan := true, scanInFlight := true, scanEnding := false, faultInScan := false, stopLimit := none })
    else s

/-! ## Completions of the Area Controller's transactions -/

/-- A transaction of a scan has completed: the scan goes on, unless STOP has ended it (R155). -/
def scanStep (next : State → State × List Task) (s : State) : State × List Task :=
  if s.area.scanEnding then (endScan false s, []) else next s

/-- The transaction is one of the START load. -/
def AreaOp.isLoad : AreaOp → Bool
  | .loadHeader => true | .loadSettings => true | .loadTables => true | .loadSlots => true
  | .loadSlotWrite _ => true | .loadHeaderWrite => true
  | .scanHeader => false | .reloadDirectory => false | .reloadTables => false | .reloadGeneration => false
  | .slotHost _ => false | .descriptorState => false | .descriptorClose => false
  | .slotImage _ => false | .memberEntry _ => false | .dropEntry _ => false | .headerWrite => false

/-- A transaction of the Area Controller completed with error (R154, R161, R174). A failed header read hands over a heartbeat
that has not changed. -/
def areaError (t : Transaction AreaOp) (s : State) : State × List Task :=
  let s := setMemoryFault (areaDone (landFaulted t s))
  if t.op.isLoad then
    (if s.area.stopLoad then abandonLoad s else clearRun (failLoad .memoryFault s), [])
  else if s.area.finalScan then (endFinalScan false s, [])
  else
    let s := s.modArea fun a => { a with stagedTables := none }
    if t.op = .scanHeader && !s.area.scanEnding then (s, [.heartbeat s.watch.last, .scanFailed])
    else (endScan false s, [])

end Sys2Proof.Machine
end

