-- ==== Sys2Proof/Machine/Events.lean ====
section
/-! DEFINITION. Machine/Events.lean: an event of the part. Each task is done by its rule; the tasks it sets off are done next,
before those that waited already; and when all are done the lamp commands follow (R144) and the end of STOPPING is tested
(R174). -/

namespace Sys2Proof.Machine

/-- The expiry of a receipt window (R92). -/
def expireReceipt (key : RecordKey) (s : State) : State × List Task :=
  match deliveryOf s key with
  | none => (s, [])
  | some r => if r.receipt.due s.tickCount then receiptExpired r s else (s, [])

/-- The expiry of a retry window (R94, R95). -/
def expireRetry (key : RecordKey) (s : State) : State × List Task :=
  match deliveryOf s key with
  | none => (s, [])
  | some r => if r.retry.due s.tickCount then retryExpired r s else (s, [])

/-- RESUME begins a record that is PENDING at its resume stage (R102). -/
def beginPending (serial : Nat) (s : State) : State × List Task :=
  match delivery? s serial with
  | none => (s, [])
  | some r => if r.isPending then beginStage serial r.stage s else (s, [])

/-- One piece of work, and the work it sets off. -/
def perform : Task → State → State × List Task
  | .enterRung c r, s => enterRung c r s
  | .endRung c, s => endRung c s
  | .pastLast c, s => pastLast c s
  | .endTurn c, s => endTurn c s
  | .lostMark c m, s => lostMark c m s
  | .dropBreakIn m, s => dropBreakIn m s
  | .endCall c st reason, s => endCall c st reason s
  | .admitHeads, s => admitHeads s
  | .reopen c cause, s => reopen c cause s
  | .breakInTaken c p, s => breakInTaken c p s
  | .takePost slot h, s => takePost slot h s
  | .heartbeat v, s => heartbeat v s
  | .submitServerLost tag, s => (submitServerLost tag s, [])
  | .scanTables, s => scanTables s
  | .lineRequest l, s => scanLineRequest l s
  | .journalRestart, s => (scanJournalRestart s, [])
  | .scanSlot slot, s => (scanSlot slot s, [])
  | .scanFailed, s => (endScan false s, [])
  | .reloadLosses c members, s => reloadLosses c members s
  | .reloadAdjust c, s => reloadAdjust c s
  | .reloadDone, s => (reloadDone s, [])
  | .report l a data, s => matchReport l a data s
  | .press l a data, s => matchPress l a data s
  | .lineNext l, s => lineNext l s
  | .handBack l a e, s => settleHandedBack l a e s
  | .unreached key, s => reportUnreached key s
  | .beginPending serial, s => beginPending serial s
  | .expireDeadline c, s => expireDeadline c s
  | .expireTurn c, s => expireTurn c s
  | .expireArrival c, s => expireArrival c s
  | .expireRemind c m, s => expireRemind c m s
  | .expireReceipt key, s => expireReceipt key s
  | .expireRetry key, s => expireRetry key s

/-- The tasks of an event, one after another, at most `n` of them; those left over stay in State (log 5). -/
def run : Nat → List Task → State → State
  | _, [], s => s
  | 0, t :: ts, s => { s with agenda := t :: ts }
  | n + 1, t :: ts, s =>
    let r := perform t s
    run n (r.2 ++ ts) r.1

/-- What closes every event: the lamp commands (R144), and the test of the end of STOPPING (R174). -/
def closeEvent (s : State) : State := settleStopping (recomputeLamps s)

/-- An event: its own tasks, after any left over, and its close. -/
def finish (r : State × List Task) : State :=
  closeEvent (run Config.workLimit (r.1.agenda ++ r.2) { r.1 with agenda := [] })

end Sys2Proof.Machine
end

