-- ==== Sys2Proof/Machine/RegisterCommands.lean ====
section
/-! DEFINITION. Machine/RegisterCommands.lean: the resets and the writes to the register window (R170 to R175, R178). -/

namespace Sys2Proof.Machine

/-- What a command comes to. -/
abbrev Result := Host.Outcome State Fault Refusal

/-! ## Resets (R4, R178) -/

/-- FULL_RESET (R178): every register and block at its reset value; server memory and the queue of commands are not the
part's to clear. -/
def execFullReset (s : State) : Result :=
  .next { State.reset with memory := s.memory, pending := s.pending, draws := s.draws }

/-- An engine reset (R178): as a full reset, but AREA BASE, MASK, the supervision lock and its locked limit are kept, EVENT
holds ENGINE CHANGE alone, and CONTROL reads RESET ENGINE. -/
def engineReset (s : State) : State :=
  { State.reset with
    window := { control := .resetEngine, baseLow := s.window.baseLow, baseHigh := s.window.baseHigh, loadError := .none }
    attention := { event := Cause.engineChange.mask, mask := s.attention.mask }
    watch := { last := 0, stale := 0, serverLost := false, locked := s.watch.locked, lockedLimit := s.watch.lockedLimit }
    memory := s.memory
    pending := s.pending
    draws := s.draws }

/-! ## CONTROL (R171) -/

/-- The NUDGE bit, settled against the state that the command has left (R155, R171). -/
def settleNudge (bit : Bool) (s : State) : State := if bit then nudgeEngine s else s

/-- A refused command or write raises CONTROL REFUSED and changes nothing else (R171). -/
def refuse (s : State) : State := raise .controlRefused s

/-- The command is taken and becomes the CONTROL readback (R171). -/
def showCommand (c : Command) (s : State) : State := s.modWindow fun w => { w with control := c }

/-- START is taken in IDLE and FAILED. -/
def EngineState.mayStart : EngineState → Bool
  | .idle => true | .failed => true | .loading => false | .running => false | .paused => false | .stopping => false

/-- START (R153, R171). -/
def execStart (bit : Bool) (s : State) : Result :=
  .next (settleNudge bit (if s.engine.mayStart then finish (startLoad s, []) else refuse s))

/-- PAUSE (R59, R171, R173). -/
def execPause (bit : Bool) (s : State) : Result :=
  .next (settleNudge bit (if s.engine = .running then finish (pauseEngine (showCommand .pause s), []) else refuse s))

/-- RESUME (R61, R102, R171, R173). -/
def execResume (bit : Bool) (s : State) : Result :=
  .next (settleNudge bit (if s.engine = .paused then finish (resumeEngine (showCommand .resume s)) else refuse s))

/-- What STOP does in each engine state (R154, R171, R174). -/
def stopCommand (s : State) : State :=
  match s.engine with
  | .loading => (showCommand .stop s).modArea fun a => { a with stopLoad := true }
  | .running => finish (stopEngine (showCommand .stop s))
  | .paused => finish (stopEngine (showCommand .stop s))
  | .idle => refuse s
  | .stopping => refuse s
  | .failed => refuse s

/-- STOP (R154, R171, R174). -/
def execStop (bit : Bool) (s : State) : Result := .next (settleNudge bit (stopCommand s))

/-- RESET_ENGINE (R171, R178); its NUDGE bit meets IDLE. -/
def execResetEngine (bit : Bool) (s : State) : Result := .next (settleNudge bit (engineReset s))

/-- COMMAND_NONE (R171). -/
def execCommandNone (bit : Bool) (s : State) : Result := .next (settleNudge bit s)

/-- NUDGE (R155). -/
def execNudge (s : State) : Result := .next (nudgeEngine s)

/-- CONTROL_WRITE_UNDEFINED_COMMAND (R171): refused, whatever its code, and its NUDGE bit is then settled. -/
def execControlWriteUndefinedCommand (_code : BitVec 4) (bit : Bool) (s : State) : Result :=
  .next (settleNudge bit (refuse s))

/-! ## The other registers (R170, R175) -/

/-- AREA_BASE_WRITE (R170, R171): taken in IDLE and FAILED; all 32 bits are held as written. -/
def execAreaBaseWrite (half : BaseHalf) (value : Word) (s : State) : Result :=
  .next (if s.engine.mayStart then
    s.modWindow fun w =>
      match half with
      | .low => { w with baseLow := value }
      | .high => { w with baseHigh := value }
  else refuse s)

/-- ATTENTION_EVENT_WRITE (R175): each 1 clears its cause. -/
def execAttentionEventWrite (value : Word) (s : State) : Result :=
  .next (s.modAttention fun a => { a with event := a.event &&& ~~~(value.setWidth 14) })

/-- ATTENTION_MASK_WRITE (R170). -/
def execAttentionMaskWrite (value : Word) (s : State) : Result :=
  .next (s.modAttention fun a => { a with mask := value.setWidth 14 })

/-- ATTENTION_FORCE_WRITE (R175): each 1 sets its cause in EVENT. -/
def execAttentionForceWrite (value : Word) (s : State) : Result :=
  .next (s.modAttention fun a => { a with event := a.event ||| value.setWidth 14 })

/-- REGISTER_WRITE_NO_EFFECT (R170): IDENT, STATUS and ATTENTION STATE cannot be written. -/
def execRegisterWriteNoEffect (_register : ReadOnlyRegister) (_value : Word) (s : State) : Result := .next s

end Sys2Proof.Machine
end

