-- ==== Sys2Proof/Machine/WindowCommands.lean ====
section
/-! DEFINITION. Machine/WindowCommands.lean: the tick and the expiries (R47, R48, R51, R55, R57, R92, R94, R155, R174). An expiry
that is not due, because its window is stopped, frozen or still running, is no event and changes nothing (R48). -/

namespace Sys2Proof.Machine

/-- TICK (R47): the count steps while the engine is active. -/
def execTick (s : State) : Result :=
  .next (if s.engine.active then { s with tickCount := s.tickCount + 1 } else s)

/-- RUNG_DEADLINE_EXPIRY (R51). -/
def execRungDeadlineExpiry (c : Nat) (s : State) : Result :=
  .next (if (context s c).deadline.due s.tickCount then finish (s, [.expireDeadline c]) else s)

/-- TURN_EXPIRY (R34, R53). -/
def execTurnExpiry (c : Nat) (s : State) : Result :=
  .next (if (context s c).turn.due s.tickCount then finish (s, [.expireTurn c]) else s)

/-- The arrival window of a context that is its first or its second is due. -/
def arrivalDue (s : State) (c count : Nat) : Bool :=
  (context s c).arrival.due s.tickCount && (context s c).arrivalCount == count

/-- FIRST_ARRIVAL_WINDOW_EXPIRY (R54, R115). -/
def execFirstArrivalWindowExpiry (c : Nat) (s : State) : Result :=
  .next (if arrivalDue s c 1 then finish (s, [.expireArrival c]) else s)

/-- SECOND_ARRIVAL_WINDOW_EXPIRY (R55). -/
def execSecondArrivalWindowExpiry (c : Nat) (s : State) : Result :=
  .next (if arrivalDue s c 2 then finish (s, [.expireArrival c]) else s)

/-- RECEIPT_WINDOW_EXPIRY (R92). -/
def execReceiptWindowExpiry (key : RecordKey) (s : State) : Result :=
  .next (if (deliveryOf s key).any fun r => r.receipt.due s.tickCount then finish (s, [.expireReceipt key]) else s)

/-- REMIND_INTERVAL_EXPIRY (R57). -/
def execRemindIntervalExpiry (c m : Nat) (s : State) : Result :=
  .next (if ((context s c).contact m).any fun e => e.remind.due s.tickCount then finish (s, [.expireRemind c m]) else s)

/-- RETRY_WINDOW_EXPIRY (R94, R95). -/
def execRetryWindowExpiry (key : RecordKey) (s : State) : Result :=
  .next (if (deliveryOf s key).any fun r => r.retry.due s.tickCount then finish (s, [.expireRetry key]) else s)

/-- The scan timer is due (R155). -/
def scanTimerDue (s : State) : Bool :=
  s.engine.scans && !s.area.scanInFlight && s.area.scanTimer.any fun e => reached s.tickCount e

/-- SCAN_TIMER_EXPIRY (R155). -/
def execScanTimerExpiry (s : State) : Result := .next (if scanTimerDue s then finish (beginScan s, []) else s)

/-- The limit of STOPPING is due (R174). -/
def stoppingLimitDue (s : State) : Bool :=
  s.engine == .stopping && s.area.stopLimit.any fun e => reached s.tickCount e

/-- STOPPING_LIMIT_EXPIRY (R174). -/
def execStoppingLimitExpiry (s : State) : Result :=
  .next (if stoppingLimitDue s then
    finish (s.modArea fun a => { a with stopEnded := true, stopLimit := none }, [])
  else s)

end Sys2Proof.Machine
end

