-- ==== Sys2Proof/Machine/AreaCommands.lean ====
section
/-! DEFINITION. Machine/AreaCommands.lean: the completions of the Area Controller's bus-master transactions (R2, R3, R150 to R162),
and the transactions that complete with error (R161). A completion of a transaction that is not in progress is no event and
changes nothing. -/

namespace Sys2Proof.Machine

/-- A read of the Area Controller has completed: server memory is as it was, and the work that waited for the bytes goes on. -/
def completeAreaRead {α : Type} (pick : AreaOp → Option α) (work : α → State → State × List Task) (s : State) : State :=
  match s.area.bus with
  | none => s
  | some t =>
    match pick t.op with
    | none => s
    | some a => finish (work a (areaDone s))

/-- A write of the Area Controller has completed: its bytes land, and the work that waited for it goes on. -/
def completeArea {α : Type} (pick : AreaOp → Option α) (work : α → State → State × List Task) (s : State) : State :=
  match s.area.bus with
  | none => s
  | some t =>
    match pick t.op with
    | none => s
    | some a => finish (work a (areaDone (land t s)))

/-- A transaction in progress completes with error (R161). -/
def failBus (who : Requester) (s : State) : State :=
  match who with
  | .area =>
    match s.area.bus with
    | none => s
    | some t => finish (areaError t s)
  | .journal =>
    match s.journal.bus with
    | none => s
    | some t => finish (journalError t s, [])

/-- BUS_ERROR_COMPLETION (R161): the link reports that the request was not completed. -/
def execBusErrorCompletion (who : Requester) (s : State) : Result := .next (failBus who s)

/-- BUS_COMPLETION_TIMEOUT (R161): no completion within 10 ms of the request. -/
def execBusCompletionTimeout (who : Requester) (s : State) : Result := .next (failBus who s)

/-! ## The START load (R153) -/

/-- LOAD_HEADER_READ_DONE (R150). -/
def execLoadHeaderReadDone (data : List Byte) (s : State) : Result :=
  .next (completeAreaRead (fun | .loadHeader => some () | _ => none) (fun _ s => (loadStep (loadHeader data) s, [])) s)

/-- LOAD_SETTINGS_READ_DONE (R151). -/
def execLoadSettingsReadDone (data : List Byte) (s : State) : Result :=
  .next (completeAreaRead (fun | .loadSettings => some () | _ => none) (fun _ s => (loadStep (loadSettings data) s, [])) s)

/-- LOAD_TABLES_READ_DONE (R152). -/
def execLoadTablesReadDone (zones crews ladders roster : List Byte) (s : State) : Result :=
  .next (completeAreaRead (fun | .loadTables => some () | _ => none)
    (fun _ s => (loadStep (loadTables zones crews ladders roster) s, [])) s)

/-- LOAD_SLOT_BASELINE_READ_DONE (R3). -/
def execLoadSlotBaselineReadDone (hosts : List (List Byte)) (s : State) : Result :=
  .next (completeAreaRead (fun | .loadSlots => some () | _ => none) (fun _ s => (loadStep (loadBaselines hosts) s, [])) s)

/-- LOAD_SLOT_WRITE_DONE (R3). -/
def execLoadSlotWriteDone (s : State) : Result :=
  .next (completeArea (fun | .loadSlotWrite i => some i | _ => none)
    (fun i s => (loadStep (loadWriteSlot (i + 1)) s, [])) s)

/-- LOAD_HEADER_WRITE_DONE (R153). -/
def execLoadHeaderWriteDone (s : State) : Result :=
  .next (completeArea (fun | .loadHeaderWrite => some () | _ => none)
    (fun _ s => if s.area.stopLoad then (abandonLoad s, []) else completeLoad s) s)

/-! ## The scan (R156) -/

/-- SCAN_HEADER_READ_DONE (R156). -/
def execScanHeaderReadDone (data : List Byte) (s : State) : Result :=
  .next (completeAreaRead (fun | .scanHeader => some () | _ => none)
    (fun _ s => scanStep (takeServerFields (readServerFields data 0)) s) s)

/-- RELOAD_DIRECTORY_READ_DONE (R158): the counts and regions are checked when the reload is settled. -/
def execReloadDirectoryReadDone (data : List Byte) (s : State) : Result :=
  .next (completeAreaRead (fun | .reloadDirectory => some () | _ => none)
    (fun _ s => scanStep (fun s =>
      let s := s.modArea fun a => { a with tableDirectory := readTableDirectory data 0 }
      (areaIssue (readTransaction .reloadTables (tableRegions s)) s, [])) s) s)

/-- RELOAD_TABLES_READ_DONE (R158). -/
def execReloadTablesReadDone (zones crews ladders roster : List Byte) (s : State) : Result :=
  .next (completeAreaRead (fun | .reloadTables => some () | _ => none)
    (fun _ s => scanStep (fun s =>
      (areaRead .reloadGeneration 0x54 4 (s.modArea fun a => { a with
        stagedTables := some (readTables a.tableDirectory zones crews ladders roster) }), [])) s) s)

/-- RELOAD_GENERATION_READ_DONE (R158, R159). -/
def execReloadGenerationReadDone (generation : Word) (s : State) : Result :=
  .next (completeAreaRead (fun | .reloadGeneration => some () | _ => none)
    (fun _ s => scanStep (settleReload generation) s) s)

/-- SLOT_HOST_READ_DONE (R1, R5, R13). -/
def execSlotHostReadDone (data : List Byte) (s : State) : Result :=
  .next (completeAreaRead (fun | .slotHost i => some i | _ => none)
    (fun i s => scanStep (fun s =>
      let r := takeHostPart i (readHostPart data) s
      (r.1, r.2 ++ [.scanSlot (i + 1)])) s) s)

/-- The state of the awaited descriptor is handed to the Journal Writer (R166). -/
def handDescriptor (data : List Byte) (s : State) : State :=
  if descriptorEmpty data && s.journal.state = .stalled && s.journal.bus.isNone && !s.area.memoryFault then takeFrom data s
  else s

/-- DESCRIPTOR_STATE_READ_DONE (R166). -/
def execDescriptorStateReadDone (data : List Byte) (s : State) : Result :=
  .next (completeAreaRead (fun | .descriptorState => some () | _ => none)
    (fun _ s => scanStep (fun s => (writeSlots 0 (handDescriptor data s), [])) s) s)

/-! ## The write step (R157) -/

/-- SLOT_IMAGE_WRITE_DONE (R2). -/
def execSlotImageWriteDone (s : State) : Result :=
  .next (completeArea (fun | .slotImage i => some i | _ => none)
    (fun i s => scanStep (fun s => (writeSlots (i + 1) s, [])) (cleanSlot i s)) s)

/-- MEMBER_ENTRY_WRITE_DONE (R81). -/
def execMemberEntryWriteDone (s : State) : Result :=
  .next (completeArea (fun | .memberEntry m => some m | _ => none)
    (fun m s => scanStep (fun s => (writeMembers (m + 1) s, [])) (cleanMember m s)) s)

/-- DROP_ENTRY_WRITE_DONE (R160). -/
def execDropEntryWriteDone (s : State) : Result :=
  .next (completeArea (fun | .dropEntry i => some i | _ => none)
    (fun i s => scanStep (fun s => (writeDrops (i + 1) s, [])) (cleanDrop i s)) s)

/-- HEADER_DEVICE_WRITE_DONE (R157, R174): it ends the scan, or STOPPING. -/
def execHeaderDeviceWriteDone (s : State) : Result :=
  .next (completeArea (fun | .headerWrite => some () | _ => none)
    (fun _ s => if s.area.finalScan then (endFinalScan true s, []) else (endScan true s, [])) s)

end Sys2Proof.Machine
end

