-- ==== Sys2Proof/Machine/JournalCommands.lean ====
section
/-! DEFINITION. Machine/JournalCommands.lean: the completions of the Journal Writer's bus-master transactions (R163 to R168). A
completion of a transaction that is not in progress is no event and changes nothing. -/

namespace Sys2Proof.Machine

/-- A write of the Journal Writer has completed: its bytes land, and the Journal Writer goes on. -/
def completeJournal {α : Type} (pick : JournalOp → Option α) (work : α → State → State) (s : State) : State :=
  match s.journal.bus with
  | none => s
  | some t =>
    match pick t.op with
    | none => s
    | some a => finish (work a (land t s), [])

/-- DESCRIPTOR_TAKE_READ_DONE (R163): the read of a take has completed, and server memory is as it was. -/
def execDescriptorTakeReadDone (data : List Byte) (s : State) : Result :=
  .next (match s.journal.bus with
    | none => s
    | some t =>
      match t.op with
      | .takeRead => finish (takeReadDone data s, [])
      | _ => s)

/-- DESCRIPTOR_TAKE_WRITE_DONE (R163). -/
def execDescriptorTakeWriteDone (s : State) : Result :=
  .next (completeJournal (fun | .takeWrite => some () | _ => none) (fun _ => takeWriteDone) s)

/-- A write of a record's bytes in progress (R165). -/
def pickRecordWrite : JournalOp → Option JournalOp
  | .recordWrite gap => some (.recordWrite gap)
  | .orphanWrite => some .orphanWrite
  | .orphanBeforeTake => some .orphanBeforeTake
  | .takeRead => none | .takeWrite => none | .fillWrite _ => none | .closeWrite => none

/-- What follows such a write: the fill count of a record or a GAP; nothing more of a given-up record; or the take that waited for its
bytes (R165, R166). -/
def recordBytesDone (op : JournalOp) (s : State) : State :=
  match op with
  | .recordWrite gap => recordWriteDone gap s
  | .orphanBeforeTake => orphanBeforeTakeDone s
  | _ => journalFree (journalDone s)

/-- JOURNAL_RECORD_WRITE_DONE (R165). -/
def execJournalRecordWriteDone (s : State) : Result :=
  .next (completeJournal pickRecordWrite recordBytesDone s)

/-- FILL_COUNT_WRITE_DONE (R165). -/
def execFillCountWriteDone (s : State) : Result :=
  .next (completeJournal (fun | .fillWrite gap => some gap | _ => none) (fun gap => fillWriteDone gap) s)

/-- The transaction of the Area Controller in progress is the close of scan step 6 (R167). -/
def areaCloses (s : State) : Bool := s.area.bus.any fun t => t.op == .descriptorClose

/-- DESCRIPTOR_CLOSE_WRITE_DONE (R166, R167, R168): the close of the Journal Writer, or the one made again at scan step 6. -/
def execDescriptorCloseWriteDone (s : State) : Result :=
  .next (if areaCloses s then
    completeArea (fun | .descriptorClose => some () | _ => none)
      (fun _ s => scanStep (fun s => (writeSlots 0 s, [])) (afterClose s)) s
  else
    completeJournal (fun | .closeWrite => some () | _ => none) (fun _ s => afterClose (journalDone s)) s)

end Sys2Proof.Machine
end

