-- ==== Sys2Proof/Machine/LineCommands.lean ====
section
/-! DEFINITION. Machine/LineCommands.lean: the events of the field lines (R121, R122, R124, R126, R129, R180). An event that does
not belong to what the line is doing does not happen and changes nothing. -/

namespace Sys2Proof.Machine

/-- The line is doing something else from now on. -/
def setPhase (l : LineId) (p : LinePhase) (s : State) : State := s.modLine l fun n => { n with phase := p }

/-- A restart of a line is over: RUNNING, with its first exchange next (R121, R122). -/
def enterRunning (l : LineId) (s : State) : State := s.modLine l fun n => { n with state := .running, phase := .gap }

/-- BREAK_END (R121). -/
def execBreakEnd (l : LineId) (s : State) : Result :=
  .next (match (s.line l).phase with
    | .breaking => setPhase l .comingUp s
    | _ => s)

/-- RESTART_WAIT_END (R121). -/
def execRestartWaitEnd (l : LineId) (s : State) : Result :=
  .next (match (s.line l).phase with
    | .comingUp => enterRunning l s
    | _ => s)

/-- RESTART_FRAME_WAIT_END (R122). -/
def execRestartFrameWaitEnd (l : LineId) (s : State) : Result :=
  .next (match (s.line l).phase with
    | .restartWait => enterRunning l s
    | _ => s)

/-- EXCHANGE_START (R126). -/
def execExchangeStart (l : LineId) (s : State) : Result :=
  .next (match (s.line l).state, (s.line l).phase with
    | .running, .gap => finish (beginExchange l s, [])
    | _, _ => s)

/-- DOWN_FRAME_END (R122, R129). -/
def execDownFrameEnd (l : LineId) (s : State) : Result :=
  .next (match (s.line l).phase with
    | .sending x => setPhase l (.awaiting x) s
    | .restartFrame _ => setPhase l .restartWait s
    | _ => s)

/-- REPLY_START (R124, R129). -/
def execReplyStart (l : LineId) (turn : Nat) (s : State) : Result :=
  .next (match (s.line l).phase with
    | .awaiting x => if replyInTime s l x turn then setPhase l (.receiving { x with turn := turn }) s else s
    | _ => s)

/-- REPLY_COMPLETE (R129, R180): a reply that is not whole yet is waited for, and no byte after its CRC belongs to it. -/
def execReplyComplete (l : LineId) (frame : List Byte) (s : State) : Result :=
  .next (match (s.line l).phase with
    | .receiving x =>
      if !startsWithSync frame then finish (endExchange l x .corrupt s)
      else if !replyArrived frame then s
      else finish (endExchange l x (judgeReply x (dropKind s l x.address) (frame.take (replyLength frame))) s)
    | _ => s)

/-- REPLY_TIMEOUT (R129). -/
def execReplyTimeout (l : LineId) (s : State) : Result :=
  .next (match (s.line l).phase with
    | .awaiting x => if x.isProbe then s else finish (endExchange l x .timeout s)
    | _ => s)

/-- PROBE_TIMEOUT (R124). -/
def execProbeTimeout (l : LineId) (s : State) : Result :=
  .next (match (s.line l).phase with
    | .awaiting x => if x.isProbe then finish (endExchange l x .timeout s) else s
    | _ => s)

/-- REPLY_SLOT_END (R129). -/
def execReplySlotEnd (l : LineId) (s : State) : Result :=
  .next (match (s.line l).phase with
    | .receiving x => finish (endExchange l x .strike s)
    | _ => s)

/-- REPLY_NOT_SYNC (R180): CORRUPT, with an address that cannot be read. -/
def execReplyNotSync (l : LineId) (s : State) : Result :=
  .next (match (s.line l).phase with
    | .receiving x => finish (endExchange l x .corrupt s)
    | _ => s)

/-- EMPTY_SLOT_END (R126). -/
def execEmptySlotEnd (l : LineId) (s : State) : Result :=
  .next (match (s.line l).phase with
    | .emptySlot => finish (endEmptySlot l s)
    | _ => s)

end Sys2Proof.Machine
end

