-- ==== Sys2Proof/Machine/Dispatch.lean ====
section
/-! DEFINITION. Machine/Dispatch.lean: one arm per command, each one direct call of its meaning. -/

namespace Sys2Proof.Machine

def exec (i : Instr) (s : State) : Host.Outcome State Fault Refusal :=
  match i with
  | .fullReset => Sys2Proof.Machine.execFullReset s
  | .start b => Sys2Proof.Machine.execStart b s
  | .pause b => Sys2Proof.Machine.execPause b s
  | .resume b => Sys2Proof.Machine.execResume b s
  | .stop b => Sys2Proof.Machine.execStop b s
  | .resetEngine b => Sys2Proof.Machine.execResetEngine b s
  | .commandNone b => Sys2Proof.Machine.execCommandNone b s
  | .nudge => Sys2Proof.Machine.execNudge s
  | .areaBaseWrite half value => Sys2Proof.Machine.execAreaBaseWrite half value s
  | .attentionEventWrite value => Sys2Proof.Machine.execAttentionEventWrite value s
  | .attentionMaskWrite value => Sys2Proof.Machine.execAttentionMaskWrite value s
  | .attentionForceWrite value => Sys2Proof.Machine.execAttentionForceWrite value s
  | .registerWriteNoEffect register value => Sys2Proof.Machine.execRegisterWriteNoEffect register value s
  | .tick => Sys2Proof.Machine.execTick s
  | .rungDeadlineExpiry c => Sys2Proof.Machine.execRungDeadlineExpiry c s
  | .turnExpiry c => Sys2Proof.Machine.execTurnExpiry c s
  | .firstArrivalWindowExpiry c => Sys2Proof.Machine.execFirstArrivalWindowExpiry c s
  | .secondArrivalWindowExpiry c => Sys2Proof.Machine.execSecondArrivalWindowExpiry c s
  | .receiptWindowExpiry key => Sys2Proof.Machine.execReceiptWindowExpiry key s
  | .remindIntervalExpiry c m => Sys2Proof.Machine.execRemindIntervalExpiry c m s
  | .retryWindowExpiry key => Sys2Proof.Machine.execRetryWindowExpiry key s
  | .scanTimerExpiry => Sys2Proof.Machine.execScanTimerExpiry s
  | .stoppingLimitExpiry => Sys2Proof.Machine.execStoppingLimitExpiry s
  | .busErrorCompletion who => Sys2Proof.Machine.execBusErrorCompletion who s
  | .busCompletionTimeout who => Sys2Proof.Machine.execBusCompletionTimeout who s
  | .loadHeaderReadDone data => Sys2Proof.Machine.execLoadHeaderReadDone data s
  | .loadSettingsReadDone data => Sys2Proof.Machine.execLoadSettingsReadDone data s
  | .loadTablesReadDone zones crews ladders roster => Sys2Proof.Machine.execLoadTablesReadDone zones crews ladders roster s
  | .loadSlotBaselineReadDone hosts => Sys2Proof.Machine.execLoadSlotBaselineReadDone hosts s
  | .loadSlotWriteDone => Sys2Proof.Machine.execLoadSlotWriteDone s
  | .loadHeaderWriteDone => Sys2Proof.Machine.execLoadHeaderWriteDone s
  | .scanHeaderReadDone data => Sys2Proof.Machine.execScanHeaderReadDone data s
  | .reloadDirectoryReadDone data => Sys2Proof.Machine.execReloadDirectoryReadDone data s
  | .reloadTablesReadDone zones crews ladders roster => Sys2Proof.Machine.execReloadTablesReadDone zones crews ladders roster s
  | .reloadGenerationReadDone generation => Sys2Proof.Machine.execReloadGenerationReadDone generation s
  | .slotHostReadDone data => Sys2Proof.Machine.execSlotHostReadDone data s
  | .descriptorStateReadDone data => Sys2Proof.Machine.execDescriptorStateReadDone data s
  | .slotImageWriteDone => Sys2Proof.Machine.execSlotImageWriteDone s
  | .memberEntryWriteDone => Sys2Proof.Machine.execMemberEntryWriteDone s
  | .dropEntryWriteDone => Sys2Proof.Machine.execDropEntryWriteDone s
  | .headerDeviceWriteDone => Sys2Proof.Machine.execHeaderDeviceWriteDone s
  | .descriptorTakeReadDone data => Sys2Proof.Machine.execDescriptorTakeReadDone data s
  | .descriptorTakeWriteDone => Sys2Proof.Machine.execDescriptorTakeWriteDone s
  | .journalRecordWriteDone => Sys2Proof.Machine.execJournalRecordWriteDone s
  | .fillCountWriteDone => Sys2Proof.Machine.execFillCountWriteDone s
  | .descriptorCloseWriteDone => Sys2Proof.Machine.execDescriptorCloseWriteDone s
  | .breakEnd l => Sys2Proof.Machine.execBreakEnd l s
  | .restartWaitEnd l => Sys2Proof.Machine.execRestartWaitEnd l s
  | .restartFrameWaitEnd l => Sys2Proof.Machine.execRestartFrameWaitEnd l s
  | .exchangeStart l => Sys2Proof.Machine.execExchangeStart l s
  | .downFrameEnd l => Sys2Proof.Machine.execDownFrameEnd l s
  | .replyStart l turn => Sys2Proof.Machine.execReplyStart l turn s
  | .replyComplete l frame => Sys2Proof.Machine.execReplyComplete l frame s
  | .replyTimeout l => Sys2Proof.Machine.execReplyTimeout l s
  | .probeTimeout l => Sys2Proof.Machine.execProbeTimeout l s
  | .replySlotEnd l => Sys2Proof.Machine.execReplySlotEnd l s
  | .emptySlotEnd l => Sys2Proof.Machine.execEmptySlotEnd l s
  | .controlWriteUndefinedCommand code b => Sys2Proof.Machine.execControlWriteUndefinedCommand code b s
  | .replyNotSync l => Sys2Proof.Machine.execReplyNotSync l s

end Sys2Proof.Machine
end

