-- ==== Sys2Proof/Safety.lean ====
section
/-! DEFINITION. Safety.lean: what every state of a run keeps, in the terms the claims use: the bounds that the spec gives the
blocks, and the canonical form of memory. -/

namespace Sys2Proof.Machine

/-- An air queue never holds more than 16 entries, and never two with the same call tag, member and kind, and its urgencies fall
from head to tail (R84). -/
abbrev queueOk (q : List AirEntry) : Prop :=
  q.length ≤ Config.queueCapacity ∧ (q.Pairwise fun a b => a.sameMessage b = false) ∧ q.Pairwise fun a b => b.urgency ≤ a.urgency

/-- A drop's queue is in order, and its in-flight set holds at most 4 messages (R84, R130). -/
abbrev Drop.ok (d : Drop) : Prop := queueOk d.queue ∧ d.inFlight.length ≤ 4

/-- Every drop of both lines is in order. -/
abbrev dropsOk (s : State) : Prop := (∀ d ∈ s.line0.drops, d.ok) ∧ ∀ d ∈ s.line1.drops, d.ok

/-- The pending list, the skipped count and the next sequence number keep their bounds (R164, R165). -/
abbrev Journal.ok (j : Journal) : Prop :=
  j.pending.length ≤ Config.pendingCapacity ∧ j.skipped ≤ Config.skippedLimit ∧ j.nextSequence < 65536

/-- The numbers of contexts and of beacon latches are what the part has (chapter 1.3, R141). -/
abbrev countsOk (s : State) : Prop := s.calls.contexts.length = 65 ∧ s.latches.length = 24

/-- No slot is named twice among the contexts and the backlog: a slot has one live call at most, in one context or waiting (R12). -/
abbrev slotsOk (s : State) : Prop := (s.calls.contexts.filterMap (·.slot) ++ s.calls.backlog.map (·.slot)).Nodup

/-- The member registry has a record for each index 0 to 511 once a load has completed, and none before (R64). -/
abbrev membersOk (s : State) : Prop := s.roster.members.length = 0 ∨ s.roster.members.length = 512

/-- A FREE context holds nobody current (R20), and a member's paged count is the number of contexts that hold the member current
(R66). -/
abbrev marksOk (s : State) : Prop :=
  (∀ k ∈ s.calls.contexts, k.state = .free → ∀ e ∈ k.contacted, e.current = false)
    ∧ ∀ m, m < s.roster.members.length → (member s m).paged = s.calls.contexts.countP (·.isCurrent m)

/-- There is one delivery record at most for a call tag, member and kind (R83), and each has a serial of its own, below the next. -/
abbrev Dispatcher.ok (d : Dispatcher) : Prop :=
  (d.records.map (·.key)).Nodup ∧ (d.records.map (·.serial)).Nodup ∧ ∀ r ∈ d.records, r.serial < d.serial

/-- What every state of a run keeps. -/
abbrev State.ok (s : State) : Prop :=
  Memory.wf s.memory = true ∧ countsOk s ∧ s.journal.ok ∧ dropsOk s ∧ s.dispatcher.ok ∧ slotsOk s ∧ membersOk s ∧ marksOk s

/-- The command that completes a write of the Area Controller. -/
def AreaOp.writeDone : AreaOp → Option Instr
  | .loadSlotWrite _ => some .loadSlotWriteDone | .loadHeaderWrite => some .loadHeaderWriteDone
  | .descriptorClose => some .descriptorCloseWriteDone | .slotImage _ => some .slotImageWriteDone
  | .memberEntry _ => some .memberEntryWriteDone | .dropEntry _ => some .dropEntryWriteDone
  | .headerWrite => some .headerDeviceWriteDone
  | .loadHeader => none | .loadSettings => none | .loadTables => none | .loadSlots => none | .scanHeader => none
  | .reloadDirectory => none | .reloadTables => none | .reloadGeneration => none | .slotHost _ => none
  | .descriptorState => none

/-- The command that completes a write of the Journal Writer. -/
def JournalOp.writeDone : JournalOp → Option Instr
  | .takeWrite => some .descriptorTakeWriteDone | .recordWrite _ => some .journalRecordWriteDone
  | .orphanWrite => some .journalRecordWriteDone | .orphanBeforeTake => some .journalRecordWriteDone
  | .fillWrite _ => some .fillCountWriteDone | .closeWrite => some .descriptorCloseWriteDone | .takeRead => none

/-- The byte that a transaction's writes leave at an address: the last one it writes there, or the one that was there. -/
def Transaction.leaves {α : Type} (t : Transaction α) (address : Nat) (before : Option Byte) : Option Byte :=
  match (t.writes ++ t.lastWrites).reverse.find? (·.1 == address) with
  | some c => some c.2
  | none => before

/-- The journal is WRITING with the memory-fault flag clear, and its pending list has room for some more records (R165). -/
abbrev hasRoom (s : State) (records : Nat) : Prop :=
  s.journal.state = .writing ∧ s.area.memoryFault = false ∧ s.journal.pending.length + records ≤ 64

/-- A control message of a call for a member stands in some drop's air queue, under the pager address it is sent to, or has been dropped
with the record MESSAGE DROPPED, which waits in the pending list (R85, R89, R99). -/
abbrev isQueuedOrDropped (t : State) (kind : MessageKind) (tag m pager : Nat) : Prop :=
  (∃ l a d, ∃ e : AirEntry, drop? t l a = some d ∧ e ∈ d.queue ∧ e.message.kind = kind ∧ e.message.tag = tag
      ∧ e.message.member = m ∧ e.message.pager = pager)
    ∨ ∃ r ∈ t.journal.pending, r.kind = .messageDropped ∧ r.tag = some tag ∧ r.member = some m ∧ r.detail1 = kind.code

/-- The contacted members of a call who are to be sent a CANCEL have one that stands in an air queue or has been dropped with its record,
given room for some records; and no CANCEL of the call to another member joins any queue. -/
abbrev areCancelled (s t : State) (k : Context) (isSent : Contact → Prop) (records : Nat) : Prop :=
  (hasRoom s records → ∀ m e, k.contact m = some e → isSent e →
      isQueuedOrDropped t .cancel k.tag m (effectivePager s.roster.tables m))
    ∧ ∀ m, (∀ e ∈ k.contacted, e.member = m → ¬isSent e) → ∀ l a d, ∀ e : AirEntry, drop? t l a = some d → e ∈ d.queue →
      e.message.kind = .cancel → e.message.tag = k.tag → e.message.member = m → ∃ old, drop? s l a = some old ∧ e ∈ old.queue

/-- A record is among those that have been submitted since, given room for some records (R165). -/
abbrev isSubmitted (s t : State) (r : JournalRecord) (records : Nat) : Prop :=
  hasRoom s records → ∃ since, t.journal.pending = s.journal.pending ++ since ∧ r ∈ since

/-- Who is sent a CANCEL as a call ends for a reason (R19): the accepter, but for CLEARED BY MEMBER; of the others each whose entry is
marked neither declined nor cancelled. -/
abbrev isSentEndCancel (k : Context) (reason : Reason) (e : Contact) : Prop :=
  if k.accepter = some e.member then reason ≠ .clearedByMember else e.declined = false ∧ e.cancelled = false

/-- The record of a call that ends in a terminal state (R21). -/
abbrev endRecord (s : State) (k : Context) (st : SlotState) (reason : Reason) : JournalRecord :=
  { callRecord (if st = .cleared then .cleared else if st = .exhausted then .exhausted else .withdrawn) k with
    tick := s.tickCount, member := k.accepter, detail1 := reason.code, detail2 := k.rung * 256 + k.pass }

/-- What a call that has just entered HELD holds, whatever set its rung's end off (R42, R40, R66, R96): HELD with no window and
nobody current, no delivery record of its tag, CALL HELD raised, OVERDUE with it when the rung was the stop rung, the paged count
of each member who was current lowered by one, its slot showing HELD, the record HELD, nothing new in any air queue, and every other call
as it was. -/
abbrev isHeldAfter (s t : State) (c : Nat) : Prop :=
  (context t c).state = .held ∧ (context t c).deadline = .stopped ∧ (context t c).turn = .stopped
    ∧ (context t c).currentMembers = [] ∧ (context t c).rung = (context s c).rung ∧ (context t c).pass = (context s c).pass
    ∧ (context t c).tag = (context s c).tag ∧ (context t c).slot = (context s c).slot
    ∧ (∀ r ∈ t.dispatcher.records, r.key.tag ≠ (context s c).tag)
    ∧ t.attention.event.getLsbD 1 = true
    ∧ (t.attention.event.getLsbD 3 = true ↔ s.attention.event.getLsbD 3 = true
      ∨ (callLadder s (context s c)).stopRung = some (context s c).rung)
    ∧ (∀ m, (member t m).paged = (member s m).paged - if (context s c).isCurrent m then 1 else 0)
    ∧ (∀ i, (context s c).slot = some i → i < s.area.slots.length → (slotImage t i).state = .held)
    ∧ (hasRoom s 1 → t.journal.pending = s.journal.pending ++ [{ callRecord .held (context s c) with
      tick := s.tickCount, detail1 := (context s c).rung * 256 + (context s c).pass }])
    ∧ (∀ l a d, drop? t l a = some d → ∃ e, drop? s l a = some e ∧ d.queue.Sublist e.queue)
    ∧ (∀ d, d ≠ c → context t d = context s d) ∧ t.calls.backlog = s.calls.backlog
    ∧ t.engine = s.engine ∧ t.tickCount = s.tickCount ∧ t.window = s.window ∧ t.watch = s.watch ∧ t.latches = s.latches

/-- What the end of a call that holds a context leaves, whatever set it off (R19 to R21, R66, R68, R96): the context FREE under its
next reuse count, its accepter released, the paged count of each member who was current lowered by one, no delivery record of its tag,
its slot showing the terminal state, its reason and its end tick with no accepter, the call in no latch, CALL ENDED raised, with
EXHAUSTED for a ladder that ran out, the CANCELs of R19 queued or dropped with their records, the record of the terminal state
submitted, and every other call as it was. That freeing a context clears the fields which R20 does not name is
the model's choice (log 1). -/
abbrev isEndedAfter (s t : State) (c : Nat) (st : SlotState) (reason : Reason) : Prop :=
  context t c = { Context.empty with reuse := ((context s c).reuse + 1) % 512 }
    ∧ (∀ d, d ≠ c → context t d = context s d) ∧ t.calls.backlog = s.calls.backlog
    ∧ (∀ m, (member t m).engaged = if (context s c).accepter = some m then none else (member s m).engaged)
    ∧ (∀ m, (member t m).paged = (member s m).paged - if (context s c).isCurrent m then 1 else 0)
    ∧ (∀ r ∈ t.dispatcher.records, r.key.tag ≠ (context s c).tag) ∧ (∀ l ∈ t.latches, c ∉ l)
    ∧ (∀ i, (context s c).slot = some i → i < s.area.slots.length →
      (slotImage t i).state = st ∧ (slotImage t i).reason = reason ∧ (slotImage t i).endTick = s.tickCount
        ∧ (slotImage t i).accepter = none)
    ∧ t.attention = { s.attention with
      event := s.attention.event ||| 1 ||| (if st = .exhausted then BitVec.twoPow 14 4 else 0) }
    ∧ areCancelled s t (context s c) (isSentEndCancel (context s c) reason) ((context s c).contacted.length + 2)
    ∧ isSubmitted s t (endRecord s (context s c) st reason) ((context s c).contacted.length + 2)
    ∧ t.engine = s.engine ∧ t.tickCount = s.tickCount ∧ t.window = s.window ∧ t.watch = s.watch

/-- A MEMBER rung whose member is on duty and not ENGAGED, so that it pages that member unless the call's marks forbid it (R30, R36). -/
abbrev mayPage (s : State) (r : Rung) : Prop :=
  r.kind = 3 ∧ r.number < s.roster.tables.roster.length ∧ onDuty s.roster.tables r.number = true
    ∧ (member s r.number).engaged = none

/-- The call's marks let it page the member of a rung: neither declined nor unreached stands in the member's entry (R30). -/
abbrev isUnmarked (k : Context) (r : Rung) : Prop := ∀ e, k.contact r.number = some e → e.declined = false ∧ e.unreached = false

/-- The ladder of a call repeats once more past its effective last rung (R41). -/
abbrev repeatsOnce (l : Ladder) (k : Context) : Prop := (l.rung l.effectiveLast).rep = true ∧ k.pass < l.repeatLimit

/-- The unanswered end of a call's present rung, which is without HOLD, comes to rest at once (R40, R41, R12): the rung that follows
pages its one member, or the call ends and nobody waits to be admitted in its place. -/
abbrev movesOnAtOnce (s : State) (c : Nat) : Prop :=
  let k := context s c
  let l := callLadder s k
  (k.rung < l.effectiveLast ∧ mayPage s (l.rung (k.rung + 1)) ∧ isUnmarked k (l.rung (k.rung + 1)))
    ∨ (l.effectiveLast ≤ k.rung ∧ repeatsOnce l k ∧ mayPage s (l.rung 0))
    ∨ (l.effectiveLast ≤ k.rung ∧ ¬repeatsOnce l k ∧ s.calls.backlog = [])

/-- The unanswered end of a call's present rung makes it HELD: the rung is not above the effective last one and has HOLD (R27, R43). -/
abbrev holdsAtEnd (s : State) (c : Nat) : Prop :=
  (callRung s (context s c)).hold = true ∧ (context s c).rung ≤ (callLadder s (context s c)).effectiveLast

/-- What the unanswered end of a rung without HOLD comes to, whatever set it off, where it comes to rest at once (R27, R40, R41, R43, R29,
R36): with OVERDUE when the rung was the stop rung, and not above the effective last, a rung below the effective last is followed by the
next one, here a MEMBER rung whose member is eligible; the effective last one by rung 0 of the next pass, with the declined and unreached
marks cleared, where it has REPEAT and the pass count is below the repeat limit; and otherwise the call ends EXHAUSTED. -/
abbrev isMovedOnAfter (s t : State) (c : Nat) : Prop :=
  let k := context s c
  let l := callLadder s k
  let overdue : BitVec 14 :=
    s.attention.event ||| (if l.stopRung = some k.rung ∧ k.rung ≤ l.effectiveLast then BitVec.twoPow 14 3 else 0)
  let pages : Nat → Nat → Prop := fun rung pass =>
    let m := (l.rung rung).number
    let d := classLength s k (l.rung rung).windowClass
    let u := context t c
    u.state = .paging ∧ u.rung = rung ∧ u.pass = pass ∧ u.tag = k.tag ∧ u.slot = k.slot ∧ u.mode = .member ∧ u.turn = .stopped
      ∧ u.deadline = (if s.engine = .paused then .frozen d else .running (s.tickCount + BitVec.ofNat 32 d))
      ∧ (∀ x, u.isCurrent x = true ↔ x = m) ∧ u.madeCurrent = [m]
      ∧ (s.dispatcher.ok → (deliveryOf t { tag := k.tag, member := m, kind := .page }).isSome = true)
      ∧ (∀ x, x < s.roster.members.length →
        (member t x).paged = (member s x).paged - (if k.isCurrent x then 1 else 0) + (if x = m then 1 else 0))
      ∧ (∀ i, k.slot = some i → i < s.area.slots.length →
        (slotImage t i).state = .paging ∧ (slotImage t i).rung = rung ∧ (slotImage t i).pass = pass)
      ∧ (hasRoom s 1 → m < 4096 → ∃ rest, t.journal.pending = s.journal.pending ++ { callRecord .rungEntered k with
        tick := s.tickCount, detail1 := rung * 256 + pass, detail2 := 3 * 4096 + m } :: rest)
      ∧ t.attention = { s.attention with
        event := overdue ||| (if ∃ p, l.stopRung = some p ∧ p ≤ rung then BitVec.twoPow 14 2 else 0) }
      ∧ (∀ d, d ≠ c → context t d = context s d) ∧ t.calls.backlog = s.calls.backlog
      ∧ t.engine = s.engine ∧ t.tickCount = s.tickCount ∧ t.window = s.window ∧ t.watch = s.watch ∧ t.latches = s.latches
  (k.rung < l.effectiveLast → mayPage s (l.rung (k.rung + 1)) → isUnmarked k (l.rung (k.rung + 1)) → pages (k.rung + 1) k.pass)
    ∧ (l.effectiveLast ≤ k.rung → repeatsOnce l k → mayPage s (l.rung 0) → pages 0 (k.pass + 1))
    ∧ (l.effectiveLast ≤ k.rung → ¬repeatsOnce l k → s.calls.backlog = [] →
      isEndedAfter { s with attention := { s.attention with event := overdue } } t c .exhausted .ladderExhausted)

/-- What the enqueueing of a record's copies to some transmitters leaves (R58, R85, R88, R94), with the record as it stands at the first
of them: at each transmitter the copy has been settled against the queue, which is QUEUED when it was placed and DEFERRED otherwise;
the retry window is stopped when nothing is deferred any more, and otherwise started unless it is started already (log 55) or the
receipt window runs; and everything else but the journal, and the deferral of the copies that the new entries displace, is as it was. -/
abbrev areEnqueued (s t : State) (r : Delivery) (targets : List (LineId × Nat)) : Prop :=
  let k := context s (r.message.tag % 128)
  ∃ (entry : LineId × Nat → AirEntry) (v : Delivery),
    (∀ a ∈ targets, (entry a).message = r.message ∧ (entry a).carriage = .delivery r.serial r.stage
      ∧ (tagLive s r.message.tag = true → r.message.kind.isControl = false →
        (entry a).urgency = (5 - k.severity) * 1000 + min ((s.tickCount - k.admitTick).toNat / 10) 499)
      ∧ drop? t a.1 a.2 = (drop? s a.1 a.2).map fun d => { d with queue := (settleEntry (entry a) d.queue).queue })
    ∧ (∀ a : LineId × Nat, a ∉ targets → drop? t a.1 a.2 = drop? s a.1 a.2)
    ∧ delivery? t r.serial = some v
    ∧ v = { r with
        retry := v.retry
        copies := r.copies.map fun x => if (x.line, x.drop) ∈ targets then { x with state :=
          if (settleEntry (entry (x.line, x.drop)) (queueOf s x.line x.drop)).placed then .queued else .deferred } else x }
    ∧ (targets ≠ [] →
      ((∀ x ∈ v.copies, x.state ≠ .deferred) → v.retry = .stopped)
      ∧ ((∃ x ∈ v.copies, x.state = .deferred) →
        (r.retry.active = true ∨ r.receipt.isRunning = true → v.retry = r.retry)
        ∧ (r.retry = .stopped → r.receipt = .stopped → r.key.kind ≠ .remind →
          v.retry = startWindow s s.roster.settings.receiptWindow)))
    ∧ t.calls = s.calls ∧ t.roster = s.roster ∧ t.attention = s.attention ∧ t.area = s.area ∧ t.latches = s.latches
    ∧ t.engine = s.engine ∧ t.tickCount = s.tickCount

/-- What a record that is offered again comes to, outside PAUSE (R94, R95, R85, R88). One that is PENDING, or whose stage has found no
route, begins its stage anew; from LAST-HEARD or HOME a DEFERRED copy whose transmitter is not usable any more takes the record on to the
next stage; at PLANT such copies are forgotten, and a stage with no copy left begins anew (log 56); and otherwise the DEFERRED copies are
enqueued again (log 64, log 81). -/
abbrev isOfferedAgain (s : State) (r : Delivery) (v : State × List Task) : Prop :=
  let isAway : Copy → Prop := fun x =>
    x.state = .deferred ∧ ¬∃ d, drop? s x.line x.drop = some d ∧ d.kind = .transmitter ∧ d.state = .ready
  (r.isPending = true ∨ r.copies = [] → v = beginStage r.serial r.stage s)
  ∧ (r.isPending = false → r.copies ≠ [] →
    ((∃ x ∈ r.copies, isAway x) →
      (r.stage = .lastHeard → v = beginStage r.serial .home s) ∧ (r.stage = .home → v = beginStage r.serial .plant s))
    ∧ (r.stage = .plant → r.receipt.active = false → (∀ x ∈ r.copies, isAway x) →
      v = beginStage r.serial .plant { s with dispatcher := { s.dispatcher with
        records := s.dispatcher.records.map fun x => if x.serial = r.serial then { x with copies := [] } else x } })
    ∧ ((r.copies.map fun x => (x.line, x.drop)).Nodup →
      (∀ x ∈ r.copies, x.state = .deferred → ∀ e ∈ queueOf s x.line x.drop, e.isCopyOf r.serial = false) →
      ∀ kept offered : List Copy, kept.Sublist r.copies → (∀ x ∈ r.copies, x ∈ kept ↔ ¬isAway x) →
      offered.Sublist kept → (∀ x ∈ kept, x ∈ offered ↔ x.state = .deferred) →
      kept = r.copies ∨ r.stage = .plant → kept ≠ [] ∨ r.receipt.active = true →
      v.2 = [] ∧ areEnqueued s v.1 { r with copies := kept } (offered.map fun x => (x.line, x.drop))))

/-- The write of a slot's device part by the START load (R3, R153, 12.5): EMPTY, with the rung, the pass count, the site mark and every
tick 0, no tag, accepter or site line, reason and result NONE, and the reserved bytes 0; and, written last, its echoes. -/
abbrev emptySlotWrite (s : State) (i : Nat) (post request : Word) : Transaction AreaOp :=
  let slot := areaBase s + s.area.directory.slots.offset + 128 * i
  { op := .loadSlotWrite i, reads := []
    writes := cellsAt (slot + 64) ([0, 0, 0, 0, 0xFF, 0xFF, 0xFF, 0xFF, 0xFF, 0, 0, 0] ++ List.replicate 16 0)
      ++ cellsAt (slot + 100) (List.replicate 28 0)
    lastWrites := cellsAt (slot + 92) (wordBytes post ++ wordBytes request) }

/-- The flag, the mismatch run and the match run of a lamp after a VALID reply of its station, whose POLL carried the same command for
it as the frame before (`same`) or not, and which saw it lit or not: the table of R146, for a reply that R145 judges, and no change
otherwise. -/
abbrev Lamp.afterReply (old : Lamp) (same lit : Bool) : LampFlag × Nat × Nat :=
  let kept := (old.flag, old.mismatchRun, old.matchRun)
  match same, old.sent with
  | true, some command =>
    match old.flag, command == .off, lit == (command != .off) with
    | .ok, _, true => (.ok, 0, old.matchRun)
    | .ok, off, false =>
      if old.mismatchRun < 2 then (.ok, old.mismatchRun + 1, old.matchRun) else (if off then .stuck else .fault, 0, 0)
    | .fault, false, true => if old.matchRun < 2 then (.fault, old.mismatchRun, old.matchRun + 1) else (.ok, 0, 0)
    | .fault, false, false => (.fault, old.mismatchRun, 0)
    | .fault, true, _ => kept
    | .stuck, true, true => if old.matchRun < 2 then (.stuck, old.mismatchRun, old.matchRun + 1) else (.ok, 0, 0)
    | .stuck, true, false => (.stuck, old.mismatchRun, 0)
    | .stuck, false, _ => kept
  | _, _ => kept

/-- Every cause latched in one EVENT is latched in another (R175). -/
abbrev eventsKept (a b : BitVec 14) : Prop := a &&& b = a

/-- A frozen window, or a stopped one, that will run on past the present tick when RESUME restarts it. -/
abbrev Window.runsOn : Window → Prop
  | .stopped => True
  | .running _ => False
  | .frozen r => 0 < r ∧ r < 2147483648

end Sys2Proof.Machine
end

