-- ==== Sys2Proof/Certificates/Slice0/Obligations.lean ====
section
/-! DEFINITION. Certificates/Slice0/Obligations.lean: the statements for the provers. Where a statement asks for `s.agenda = []`,
it asks that no work of an earlier event was cut off by the work limit (log 5). -/

open Sys2Proof Sys2Proof.Machine

/-! ## The queue of commands, and the resets -/

/-- A step with a command at the front of the queue is that command on the state with the queue's rest; with an empty queue the
block idles (the model's queue and idling: log 2). -/
def Obligations.StepRunsFrontCommand : Prop :=
  (∀ (c : Instr) (rest : List Instr) (s : State), step { s with pending := c :: rest } = exec c { s with pending := rest })
    ∧ ∀ s : State, s.pending = [] → step s = .next s

/-- R178: what the two resets leave. A full reset leaves the reset value of everything but server memory, the queue of commands and the
draw counter, which it keeps; an engine reset leaves the same but for AREA BASE, MASK, the lock with its limit, EVENT and the
CONTROL readback. The model's own, and not the spec's: the reset values of State.reset that no rule states (log 1), that a reset keeps
server memory, the queue and the draw counter (log 13, log 16), and EVENT after an engine reset (log 15). -/
def Obligations.ResetsLeaveTheirValues : Prop :=
  ∀ (s : State) (b : Bool), ∃ t u : State, exec .fullReset s = .next t ∧ exec (.resetEngine b) s = .next u
    ∧ t = { State.reset with memory := s.memory, pending := s.pending, draws := s.draws }
    ∧ (∀ offset, readRegister t offset = if offset = 0 then 0x24160003#32 else 0) ∧ intx t = false
    ∧ u = { t with
        window := { t.window with control := .resetEngine, baseLow := s.window.baseLow, baseHigh := s.window.baseHigh }
        attention := { event := BitVec.twoPow 14 12, mask := s.attention.mask }
        watch := { t.watch with locked := s.watch.locked, lockedLimit := s.watch.lockedLimit } }
    ∧ readRegister u 0x04 = 5 ∧ readRegister u 0x1C = 0 ∧ intx u = s.attention.mask.getLsbD 12
    ∧ t.area.bus = none ∧ t.journal.bus = none ∧ t.area.memoryFault = false

/-- State.reset, the state of the part when power has come up, keeps every bound that a run keeps, and its queue of commands is empty.
The queue and its emptiness are the model's own (log 6), and so are the bounds on memory and on serials (log 13); a later full reset
keeps the queue as it is. -/
def Obligations.ResetStateIsInOrder : Prop := State.reset.ok ∧ State.reset.pending = []

/-! ## The register window (chapter 11) -/

/-- R170: STATUS carries the engine state, the load error, the two scan bits and the line states, each in its own field, with bits 11:10
read as 0; IDENT is fixed, FORCE and every undefined offset read 0. -/
def Obligations.RegistersReadTheirFields : Prop :=
  ∀ s : State,
    readRegister s 0x00 = 0x24160003#32
    ∧ (readRegister s 0x04).toNat = s.window.control.code
    ∧ (readRegister s 0x08).toNat % 16 = s.engine.code
    ∧ (readRegister s 0x08).toNat / 16 % 16 = s.window.loadError.code
    ∧ (readRegister s 0x08).getLsbD 8 = s.area.scanInFlight ∧ (readRegister s 0x08).getLsbD 9 = s.area.nudgePending
    ∧ (readRegister s 0x08).toNat / 1024 % 4 = 0
    ∧ (readRegister s 0x08).toNat / 4096 % 4 = s.line0.state.code
    ∧ (readRegister s 0x08).toNat / 16384 = s.line1.state.code
    ∧ readRegister s 0x0C = s.window.baseLow ∧ readRegister s 0x10 = s.window.baseHigh
    ∧ (∀ i, i < 14 → (readRegister s 0x14).getLsbD i = s.attention.event.getLsbD i)
    ∧ (∀ i, i < 14 → (readRegister s 0x18).getLsbD i = s.attention.mask.getLsbD i)
    ∧ (∀ i, 14 ≤ i → (readRegister s 0x14).getLsbD i = false ∧ (readRegister s 0x18).getLsbD i = false)
    ∧ (∀ offset, offset ∉ [0x00, 0x04, 0x08, 0x0C, 0x10, 0x14, 0x18, 0x1C] → readRegister s offset = 0)

/-- R175: the bits of STATE are the live conditions, each at its place, and INTx is asserted exactly while a bit is set both in
EVENT and in MASK. -/
def Obligations.AttentionStateShowsConditions : Prop :=
  ∀ s : State,
    ((readRegister s 0x1C).getLsbD 0 = true ↔ ∃ k ∈ s.calls.contexts, k.state = .held)
    ∧ ((readRegister s 0x1C).getLsbD 1 = true ↔ s.journal.state = .stalled)
    ∧ ((readRegister s 0x1C).getLsbD 2 = true ↔ s.watch.serverLost = true)
    ∧ ((readRegister s 0x1C).getLsbD 3 = true ↔ ∃ d ∈ s.line0.drops ++ s.line1.drops, d.state = .silent ∨ d.state = .isolated
        ∨ ∃ t, d.station = some t ∧ (t.call.flag ≠ .ok ∨ t.attend.flag ≠ .ok))
    ∧ ((readRegister s 0x1C).getLsbD 4 = true ↔ s.area.memoryFault = true)
    ∧ ((readRegister s 0x1C).getLsbD 5 = true ↔ s.calls.backlog ≠ [])
    ∧ ((readRegister s 0x1C).getLsbD 6 = true ↔ s.engine ∈ [.loading, .running, .paused, .stopping])
    ∧ (∀ i, 7 ≤ i → (readRegister s 0x1C).getLsbD i = false)
    ∧ (intx s = true ↔ ∃ i, i < 14 ∧ s.attention.event.getLsbD i = true ∧ s.attention.mask.getLsbD i = true)

/-- R175, R170: a write of EVENT clears the causes it has a 1 for, one of FORCE sets them in EVENT, one of MASK replaces MASK, and
a write of a read-only register does nothing; nothing else changes. -/
def Obligations.AttentionWritesActBitByBit : Prop :=
  ∀ (s : State) (v : Word), ∃ clear force mask : State,
    exec (.attentionEventWrite v) s = .next clear ∧ exec (.attentionForceWrite v) s = .next force
    ∧ exec (.attentionMaskWrite v) s = .next mask
    ∧ (∀ i, i < 14 → clear.attention.event.getLsbD i = (s.attention.event.getLsbD i && !v.getLsbD i)
        ∧ force.attention.event.getLsbD i = (s.attention.event.getLsbD i || v.getLsbD i)
        ∧ mask.attention.mask.getLsbD i = v.getLsbD i)
    ∧ clear = { s with attention := { s.attention with event := clear.attention.event } }
    ∧ force = { s with attention := { s.attention with event := force.attention.event } }
    ∧ mask = { s with attention := { s.attention with mask := mask.attention.mask } }
    ∧ ∀ r, exec (.registerWriteNoEffect r v) s = .next s

/-- R170, R171: a write of AREA BASE is taken whole in IDLE and FAILED, and refused otherwise. -/
def Obligations.AreaBaseWriteTakenOutsideARun : Prop :=
  ∀ (s : State) (v : Word),
    (s.engine = .idle ∨ s.engine = .failed →
      exec (.areaBaseWrite .low v) s = .next { s with window := { s.window with baseLow := v } }
      ∧ exec (.areaBaseWrite .high v) s = .next { s with window := { s.window with baseHigh := v } })
    ∧ (s.engine ≠ .idle → s.engine ≠ .failed → ∀ half, exec (.areaBaseWrite half v) s =
        .next { s with attention := { s.attention with event := s.attention.event ||| BitVec.twoPow 14 13 } })

/-- R171: a command in a state not listed for it, and a command code outside the six, raises CONTROL REFUSED and changes nothing
else. -/
def Obligations.RefusedCommandsChangeNothingElse : Prop :=
  ∀ s : State,
    let refused : Host.Outcome State Fault Refusal :=
      .next { s with attention := { s.attention with event := s.attention.event ||| BitVec.twoPow 14 13 } }
    (s.engine ∉ [.idle, .failed] → exec (.start false) s = refused)
    ∧ (s.engine ≠ .running → exec (.pause false) s = refused)
    ∧ (s.engine ≠ .paused → exec (.resume false) s = refused)
    ∧ (s.engine ∉ [.loading, .running, .paused] → exec (.stop false) s = refused)
    ∧ ∀ code, exec (.controlWriteUndefinedCommand code false) s = refused

/-- R171: a write of CONTROL settles its command first, and then its NUDGE bit against the state that the command has left; the
code NONE asks for nothing. -/
def Obligations.NudgeBitIsSettledAfterTheCommand : Prop :=
  ∀ (s : State) (code : BitVec 4),
    exec (.commandNone false) s = .next s
    ∧ ∀ c ∈ [Instr.start, .pause, .resume, .stop, .resetEngine, .commandNone, .controlWriteUndefinedCommand code],
      ∃ t u : State, exec (c false) s = .next t ∧ exec (c true) s = .next u ∧ exec .nudge t = .next u

/-- R155: NUDGE begins a scan at once in RUNNING and PAUSED, by the read of the header's server fields, or makes nudge pending
while a scan is in flight; in any other state it does nothing. -/
def Obligations.NudgeAsksForAScan : Prop :=
  ∀ s : State,
    (s.engine ∉ [.running, .paused] → exec .nudge s = .next s)
    ∧ (s.engine ∈ [.running, .paused] →
      (s.area.scanInFlight = true → exec .nudge s = .next { s with area := { s.area with nudgePending := true } })
      ∧ (s.area.scanInFlight = false → exec .nudge s = .next { s with area := { s.area with
          scanInFlight := true, scanTimer := none, scanEnding := false, faultInScan := false
          bus := some { op := .scanHeader, reads := [(areaBase s + 0x50, 32)], writes := [], lastWrites := [] } } }))

/-! ## The engine's commands (chapter 11.2) -/

/-- R153, R47, R155, R162, R176: START taken in IDLE or FAILED sets the tick count to 0, empties the call contexts, the backlog,
the delivery records and the latches, clears the load error and the memory-fault flag, and begins the load with the read of the
header. Memory, AREA BASE, MASK and the supervision lock are as they were. That every field of a FREE context is empty, beside the reuse
count that R9 names, is the model's choice (log 1). -/
def Obligations.StartBeginsTheLoad : Prop :=
  ∀ s : State, s.engine = .idle ∨ s.engine = .failed → s.agenda = [] →
    ∃ t : State, exec (.start false) s = .next t ∧ t.engine = .loading ∧ t.tickCount = 0
      ∧ t.window = { s.window with control := .start, loadError := .none }
      ∧ t.attention = { s.attention with event := s.attention.event ||| BitVec.twoPow 14 12 }
      ∧ t.watch = { s.watch with stale := 0, serverLost := false }
      ∧ t.area.bus = some { op := .loadHeader, reads := [(areaBase s, 256)], writes := [], lastWrites := [] }
      ∧ t.area.memoryFault = false ∧ t.area.scanInFlight = false ∧ t.area.nudgePending = false ∧ t.area.scanTimer = none
      ∧ t.calls = { contexts := List.replicate 65 .empty, backlog := [] }
      ∧ t.dispatcher.records = [] ∧ t.latches = List.replicate 24 []
      ∧ t.memory = s.memory ∧ t.pending = s.pending

/-- R59, R171, R172, R165: PAUSE taken in RUNNING freezes every window of every call context, with the remaining ticks of each running
one, raises ENGINE CHANGE, and submits ENGINE STATE with the old and the new state, which joins the pending list or is skipped.
Everything else of the part is as it was: the drops with their queues, sets and bits, the poll positions and requests, the slots, the
members and the memory, but for the lamp commands that every event closes with, computed as they stood (log 45), and for the Journal
Writer's next write, begun where none was in progress. -/
def Obligations.PauseFreezesEveryWindow : Prop :=
  ∀ s : State, s.engine = .running → s.agenda = [] →
    ∃ t : State, exec (.pause false) s = .next t
      ∧ t = { s with
          engine := .paused
          window := { s.window with control := .pause }
          attention := { s.attention with event := s.attention.event ||| BitVec.twoPow 14 12 }
          calls := { s.calls with contexts := s.calls.contexts.map (Context.mapWindows (Window.freeze s.tickCount)) }
          dispatcher := { s.dispatcher with records := s.dispatcher.records.map fun r =>
            { r with receipt := r.receipt.freeze s.tickCount, retry := r.retry.freeze s.tickCount } }
          line0 := (recomputeLamps s).line0
          line1 := (recomputeLamps s).line1
          journal := { s.journal with pending := t.journal.pending, skipped := t.journal.skipped, bus := t.journal.bus } }
      ∧ (s.journal.state = .writing → s.area.memoryFault = false → s.journal.pending.length < 64 →
        t.journal.skipped = s.journal.skipped ∧ t.journal.pending = s.journal.pending ++
          [{ blankRecord .engineState with tick := s.tickCount, detail1 := 2, detail2 := 3 }])
      ∧ (s.journal.state ≠ .writing ∨ s.area.memoryFault = true ∨ 64 ≤ s.journal.pending.length →
        t.journal.pending = s.journal.pending ∧ t.journal.skipped = min 65535 (s.journal.skipped + 1))
      ∧ (s.journal.state ≠ .writing ∨ s.area.memoryFault = true ∨ s.journal.bus ≠ none → t.journal.bus = s.journal.bus)

/-- R61, R102, R12, R171, R172: RESUME taken in PAUSED restarts every frozen window from the present tick with its remaining ticks; those with
none left expire at once, after every window has been restarted, by the work that their expiry commands do; then the PENDING records begin
at their resume stages in the order in which they became PENDING; and then backlog heads are admitted, each into the lowest FREE context of 0
to 63, while one is FREE. Where no window has run out, nothing is PENDING and nobody waits, the windows alone are changed. The order of the
expiries, and that they come before the records and these before the admissions, is the model's choice (log 35), and so is that a context
admitted holds nothing else than R10 names (log 1). -/
def Obligations.ResumeRestartsEveryWindow : Prop :=
  (∀ s : State, s.engine = .paused → s.agenda = [] → s.calls.backlog = [] → s.calls.contexts.length = 65 →
    (∀ k ∈ s.calls.contexts, k.deadline.runsOn ∧ k.turn.runsOn ∧ k.arrival.runsOn ∧ ∀ e ∈ k.contacted, e.remind.runsOn) →
    (∀ r ∈ s.dispatcher.records, r.receipt.runsOn ∧ r.retry.runsOn ∧ r.isPending = false) →
    ∃ t : State, exec (.resume false) s = .next t ∧ t.engine = .running
      ∧ t.window = { s.window with control := .resume }
      ∧ t.attention = { s.attention with event := s.attention.event ||| BitVec.twoPow 14 12 }
      ∧ t.calls = { s.calls with contexts := s.calls.contexts.map (Context.mapWindows (Window.thaw s.tickCount)) }
      ∧ t.dispatcher = { s.dispatcher with records := s.dispatcher.records.map fun r =>
          { r with receipt := r.receipt.thaw s.tickCount, retry := r.retry.thaw s.tickCount } }
      ∧ t.area = s.area ∧ t.roster = s.roster ∧ t.watch = s.watch ∧ t.latches = s.latches ∧ t.tickCount = s.tickCount
      ∧ t.memory = s.memory ∧ t.pending = s.pending)
  ∧ (∀ (now : Tick) (r : Nat), r < 2147483648 → (((Window.frozen r).thaw now).due now = true ↔ r = 0))
  ∧ (∀ s : State, s.engine = .paused →
    ∃ (u : State) (waiting : List Delivery),
      u = { s with
        engine := .running
        window := { s.window with control := .resume }
        attention := { s.attention with event := s.attention.event ||| BitVec.twoPow 14 12 }
        calls := { s.calls with contexts := s.calls.contexts.map (Context.mapWindows (Window.thaw s.tickCount)) }
        dispatcher := { s.dispatcher with records := s.dispatcher.records.map fun r =>
          { r with receipt := r.receipt.thaw s.tickCount, retry := r.retry.thaw s.tickCount } }
        journal := u.journal }
      ∧ waiting.Perm (u.dispatcher.records.filter (·.isPending))
      ∧ waiting.Pairwise (fun a b => a.pendingOrder ≤ b.pendingOrder)
      ∧ exec (.resume false) s = .next (finish (u,
        ((List.range 65).flatMap fun c =>
          let k := context u c
          (if k.deadline.due s.tickCount then [Task.expireDeadline c] else [])
            ++ (if k.turn.due s.tickCount then [Task.expireTurn c] else [])
            ++ (if k.arrival.due s.tickCount then [Task.expireArrival c] else [])
            ++ (k.contacted.filter fun e => e.remind.due s.tickCount).map fun e => Task.expireRemind c e.member)
        ++ (u.dispatcher.records.flatMap fun r =>
          (if r.receipt.due s.tickCount then [Task.expireReceipt r.key] else [])
            ++ (if r.retry.due s.tickCount then [Task.expireRetry r.key] else []))
        ++ waiting.map (fun r => Task.beginPending r.serial) ++ [.admitHeads])))
  ∧ (∀ (s : State) (c m : Nat) (key : RecordKey),
    let runs : Instr → Task → Prop := fun command task => exec command s = .next (finish (s, [task]))
    ((context s c).deadline.due s.tickCount = true → runs (.rungDeadlineExpiry c) (.expireDeadline c))
    ∧ ((context s c).turn.due s.tickCount = true → runs (.turnExpiry c) (.expireTurn c))
    ∧ ((context s c).arrival.due s.tickCount = true →
      ((context s c).arrivalCount = 1 → runs (.firstArrivalWindowExpiry c) (.expireArrival c))
      ∧ ((context s c).arrivalCount = 2 → runs (.secondArrivalWindowExpiry c) (.expireArrival c)))
    ∧ (∀ e, (context s c).contact m = some e → e.remind.due s.tickCount = true →
      runs (.remindIntervalExpiry c m) (.expireRemind c m))
    ∧ (∀ r, deliveryOf s key = some r →
      (r.receipt.due s.tickCount = true → runs (.receiptWindowExpiry key) (.expireReceipt key))
      ∧ (r.retry.due s.tickCount = true → runs (.retryWindowExpiry key) (.expireRetry key)))
    ∧ ∀ r, delivery? s r.serial = some r →
      perform (.beginPending r.serial) s = if r.isPending then beginStage r.serial r.stage s else (s, []))
  ∧ ∀ s : State,
    (s.engine ≠ .running ∨ s.calls.backlog = [] ∨ (∀ c, c < 64 → (context s c).state ≠ .free) →
      perform .admitHeads s = (s, []))
    ∧ ∀ w rest c, s.engine = .running → s.calls.backlog = w :: rest → c < 64 → c < s.calls.contexts.length →
      (context s c).state = .free → (∀ d, d < c → (context s d).state ≠ .free) →
      let r := perform .admitHeads s
      let ladder := if ladderUsable s.roster.tables w.ladder then w.ladder else 0
      let tag := (context s c).reuse * 128 + c
      r.2 = [.enterRung c 0, .admitHeads]
      ∧ r.1.calls.backlog = rest ∧ (∀ d, d ≠ c → context r.1 d = context s d)
      ∧ context r.1 c = { Context.empty with
          state := .paging, reuse := (context s c).reuse, slot := some w.slot, callNumber := w.callNumber, zone := w.zone
          origin := w.origin, text := w.text, severity := w.severity, ladder := ladder, tag := tag, admitTick := s.tickCount }
      ∧ (w.slot < s.area.slots.length → (slotImage r.1 w.slot).state = .paging ∧ (slotImage r.1 w.slot).tag = some tag
        ∧ (slotImage r.1 w.slot).admitTick = s.tickCount)
      ∧ (s.journal.state = .writing → s.area.memoryFault = false → s.journal.pending.length < 63 →
        r.1.journal.pending = s.journal.pending
          ++ (if ladderUsable s.roster.tables w.ladder then [] else [{ blankRecord .ladderSubstituted with
            tick := s.tickCount, zone := w.zone, slot := some w.slot, callNumber := w.callNumber, origin := w.origin
            detail1 := w.ladder }])
          ++ [{ blankRecord .admitted with
            tick := s.tickCount, zone := w.zone, slot := some w.slot, tag := some tag, callNumber := w.callNumber
            origin := w.origin, detail1 := w.severity, detail2 := ladder }])
      ∧ r.1.roster = s.roster ∧ r.1.attention = s.attention ∧ r.1.dispatcher = s.dispatcher

/-- R174, R22, R19, R21, R172: STOP taken in RUNNING or PAUSED enters STOPPING and ends every live call, the fallback call with them: every
context is FREE and the backlog is empty, the slot of each call shows ABANDONED with the reason ENGINE STOPPED, the server-lost flag is
clear, and the scan timer and nudge pending are no more. The CANCELs of each call are queued, or dropped with their records, and its
record WITHDRAWN is submitted, with the reason ENGINE STOPPED. STOPPING is to end 20 ticks on at the latest, unless it has ended already.
That it has not ended while a transaction of the Area Controller is in progress, for which the final scan waits, is the model's reading
(log 37), and that ENGINE STATE is the first record of the event is its choice (log 89). -/
def Obligations.StopEndsEveryLiveCall : Prop :=
  ∀ s : State, s.engine = .running ∨ s.engine = .paused → s.agenda = [] →
    s.calls.contexts.length = 65 →
    ∃ t : State, exec (.stop false) s = .next t ∧ t.engine = .stopping ∧ t.window.control = .stop
      ∧ (∀ k ∈ t.calls.contexts, k.state = .free) ∧ t.calls.backlog = [] ∧ t.watch.serverLost = false
      ∧ t.area.scanTimer = none ∧ t.area.nudgePending = false
      ∧ t.attention.event.getLsbD 12 = true ∧ t.tickCount = s.tickCount
      ∧ (t.area.finalScan = false → t.area.stopLimit = some (s.tickCount + 20))
      ∧ (s.area.finalScan = false → s.area.bus ≠ none → t.area.finalScan = false)
      ∧ (let live := s.calls.contexts.filter fun k => k.state ≠ .free
        hasRoom s (1 + s.calls.backlog.length + (live.map fun k => k.contacted.length + 1).sum) →
        (∀ c, (context s c).state ≠ .free →
          endRecord s (context s c) .abandoned .engineStopped ∈ t.journal.pending.drop s.journal.pending.length
          ∧ ∀ m e, (context s c).contact m = some e → isSentEndCancel (context s c) .engineStopped e →
            isQueuedOrDropped t .cancel (context s c).tag m (effectivePager s.roster.tables m))
        ∧ (∀ i w, i < s.area.slots.length → contextOfSlot s i = none → s.calls.backlog.find? (fun v => v.slot == i) = some w →
          { blankRecord .withdrawn with
            tick := s.tickCount, zone := w.zone, slot := some w.slot, callNumber := w.callNumber, origin := w.origin
            detail1 := Reason.engineStopped.code
            detail2 := (slotImage s i).rung * 256 + (slotImage s i).pass }
              ∈ t.journal.pending.drop s.journal.pending.length)
        ∧ ∃ rest, t.journal.pending = s.journal.pending ++ { blankRecord .engineState with
          tick := s.tickCount, detail1 := s.engine.code, detail2 := EngineState.stopping.code } :: rest)
      ∧ ∀ i, i < s.area.slots.length → (contextOfSlot s i).isSome = true ∨ isWaiting s i = true →
        (slotImage t i).state = .abandoned ∧ (slotImage t i).reason = .engineStopped ∧ (slotImage t i).endTick = s.tickCount
          ∧ (slotImage t i).accepter = none

/-! ## Time (chapter 3) -/

/-- R47: the tick count steps by one, modulo 2^32, while the engine is in LOADING, RUNNING, PAUSED or STOPPING, and holds in IDLE
and FAILED; a tick does nothing else. -/
def Obligations.TickStepsTheCountWhileActive : Prop :=
  ∀ s : State,
    (s.engine ∈ [.loading, .running, .paused, .stopping] → exec .tick s = .next { s with tickCount := s.tickCount + 1 })
    ∧ (s.engine ∈ [.idle, .failed] → exec .tick s = .next s)

/-- R48: the expiry of a window that is stopped, frozen or still running is no event and changes nothing; neither is that of the
scan timer or of the STOPPING limit before it is due. That a command for an expiry which is not due changes nothing is the model's
reading (log 4), with its meaning of due (log 3). -/
def Obligations.ExpiriesThatAreNotDueChangeNothing : Prop :=
  ∀ (s : State) (c m : Nat) (key : RecordKey),
    ((context s c).deadline.due s.tickCount = false → exec (.rungDeadlineExpiry c) s = .next s)
    ∧ ((context s c).turn.due s.tickCount = false → exec (.turnExpiry c) s = .next s)
    ∧ ((context s c).arrival.due s.tickCount = false →
      exec (.firstArrivalWindowExpiry c) s = .next s ∧ exec (.secondArrivalWindowExpiry c) s = .next s)
    ∧ ((∀ e, (context s c).contact m = some e → e.remind.due s.tickCount = false) →
      exec (.remindIntervalExpiry c m) s = .next s)
    ∧ ((∀ r, deliveryOf s key = some r → r.receipt.due s.tickCount = false) → exec (.receiptWindowExpiry key) s = .next s)
    ∧ ((∀ r, deliveryOf s key = some r → r.retry.due s.tickCount = false) → exec (.retryWindowExpiry key) s = .next s)
    ∧ ((∀ e, s.area.scanTimer = some e → reached s.tickCount e = false) → exec .scanTimerExpiry s = .next s)
    ∧ ((∀ e, s.area.stopLimit = some e → reached s.tickCount e = false) → exec .stoppingLimitExpiry s = .next s)

/-- R49: the length of a rung deadline or an arrival window: T × 10 × R × S over 10,000, rounded up and held to 50 to 36,000 ticks,
with T of the settings window table, R of the call's zone or of the plant, and S of the present severity; the clamps of T and R as
they are read; the product, which does not overflow 32 bits; and the two windows that are of this length, with the rung's window
class and the ladder's arrival class. -/
def Obligations.WindowLengthFollowsTheFormula : Prop :=
  (∀ t r s : Nat, windowLength t r s = max 50 (min 36000 ⌈((t * 10 * r * s : Nat) : ℚ) / 10000⌉.toNat))
    ∧ (∀ (s : State) (k : Context) (c : Nat), 50 ≤ classLength s k c ∧ classLength s k c ≤ 36000 ∧ classLength s k c =
      windowLength (s.roster.settings.windowTable.getD c 0) (reachPercent s k.zone)
        (if k.severity = 1 then 50 else if k.severity = 2 then 75 else if k.severity = 3 then 100 else 150))
    ∧ (∀ s : State, reachPercent s 0 = s.roster.settings.plantReach
      ∧ ∀ z r, z ≠ 0 → s.roster.tables.zones[z - 1]? = some r → reachPercent s z = r.reach)
    ∧ (∀ data : List Byte, (readSettings data).windowTable.length = 16
      ∧ (∀ i, i < 16 → (readSettings data).windowTable[i]? = some (max 1 (min 3600 (le16 data (28 + 2 * i)))))
      ∧ (readSettings data).plantReach = max 50 (min 400 (le16 data 12))
      ∧ ∀ i, (readZone data i).reach = max 50 (min 400 (le16 data i)))
    ∧ (∀ t r s : Nat, t ≤ 3600 → r ≤ 400 → s ≤ 150 → t * 10 * r * s < 2 ^ 32)
    ∧ (∀ (s : State) (c rung : Nat), c < s.calls.contexts.length → (context s c).state = .paging → s.engine = .running →
      (context (enterRung c rung s).1 c).deadline = .running (s.tickCount + BitVec.ofNat 32
        (classLength s (context s c) ((callLadder s (context s c)).rung rung).windowClass)))
    ∧ ∀ (s : State) (c m : Nat), c < s.calls.contexts.length → s.engine = .running →
      ∀ t ∈ [takeAccept c m s, expireFirstArrival c m s], (context t c).arrival = .running (s.tickCount + BitVec.ofNat 32
        (classLength s (context s c) (callLadder s (context s c)).arrivalClass))

/-- R51, R27, R40 to R43, R29: the expiry of the deadline of a rung ends the rung unanswered, with any turn of it. With HOLD the call enters
HELD. Without it, the next rung is entered, or rung 0 of a repeat, or the call ends EXHAUSTED: said of the step where the call comes to
rest at once, and of each part for every rung. A rung above the effective last, where a reload can leave a call, raises no OVERDUE and its
HOLD is not read. The end of a rung takes every current mark and withdraws what was queued for it, queues nothing and submits nothing; the
entry of the next rung is the one that EnteringARungStartsItsDeadline tells; and past the effective last rung a repeat clears the declined
and unreached marks alone and steps the pass count. That the context of a call that ends is cleared of more than R20 names is the model's
choice (log 1). -/
def Obligations.DeadlineEndsTheRungUnanswered : Prop :=
  (∀ (s : State) (c : Nat), s.agenda = [] → s.engine ≠ .stopping → (context s c).state = .paging →
    (context s c).deadline.due s.tickCount = true →
    let l := callLadder s (context s c)
    let rung := (context s c).rung
    (holdsAtEnd s c → ∃ t : State, exec (.rungDeadlineExpiry c) s = .next t ∧ isHeldAfter s t c)
    ∧ (¬holdsAtEnd s c → ∃ t : State, exec (.rungDeadlineExpiry c) s = .next t ∧ isMovedOnAfter s t c)
    ∧ ((callRung s (context s c)).hold = false → rung < l.effectiveLast →
      let entered := enterRung c (rung + 1) (endRung c (expireDeadline c s).1).1
      exec (.rungDeadlineExpiry c) s = .next (closeEvent (run (Config.workLimit - 3) entered.2 entered.1))))
  ∧ (∀ (s : State) (c : Nat), (context s c).state = .paging → ¬holdsAtEnd s c → s.dispatcher.ok →
    let k := context s c
    let l := callLadder s k
    let r := endRung c s
    r.2 = [if k.rung < l.effectiveLast then Task.enterRung c (k.rung + 1) else .pastLast c]
    ∧ context r.1 c = { k with
        deadline := .stopped, turn := .stopped, mode := .none, turnMember := none
        contacted := k.contacted.map fun e => if k.isCurrent e.member then { e with current := false, remind := .stopped } else e }
    ∧ (∀ d, d ≠ c → context r.1 d = context s d) ∧ r.1.calls.backlog = s.calls.backlog
    ∧ r.1.attention.event = s.attention.event ||| (if l.stopRung = some k.rung ∧ k.rung ≤ l.effectiveLast then BitVec.twoPow 14 3 else 0)
    ∧ (∀ m, (member r.1 m).paged = (member s m).paged - if k.isCurrent m then 1 else 0)
    ∧ (∀ m, k.isCurrent m = true → ∀ kind ∈ [DeliveryKind.page, .remind],
      deliveryOf r.1 { tag := k.tag, member := m, kind := kind } = none)
    ∧ (∀ i a d, drop? r.1 i a = some d → ∃ e, drop? s i a = some e ∧ d.queue.Sublist e.queue ∧ d.inFlight = e.inFlight)
    ∧ r.1.journal = s.journal ∧ r.1.area = s.area ∧ r.1.latches = s.latches)
  ∧ ∀ (s : State) (c : Nat), c < s.calls.contexts.length →
    let k := context s c
    let l := callLadder s k
    let repeats : Prop := (l.rung l.effectiveLast).rep = true ∧ k.pass < l.repeatLimit
    let r := pastLast c s
    (repeats → r.2 = [.enterRung c 0] ∧ (∀ d, d ≠ c → context r.1 d = context s d) ∧ context r.1 c = { k with
      state := .paging, pass := k.pass + 1, contacted := k.contacted.map fun e => { e with declined := false, unreached := false } })
    ∧ (¬repeats → r = (s, [.endCall c .exhausted .ladderExhausted]))

/-- R34, R46, R53: at the expiry of a turn with less than the minimum turn left of the deadline, or with no next member to be found, or with
16 members made current by the rung, or where the rung record in force is no longer a CREW-ROTATE one that names a crew of the table, or
stands above the effective last (R27), the rung ends unanswered: with HOLD the call enters HELD, and without it the ladder goes on. With
the minimum turn or more left, the next turn's member is made current and the turn runs for the turn length or the rung's remaining ticks,
whichever is less; the rung and its deadline go on. The next member is the first in the crew's list, after the ended turn's member and
going round, that the rung has not made current and that is eligible, or in a break-in rung a candidate, each member at its first
position: short of the first turn's position, or, after a reload, once round the list of the new table, from its head where it does not
hold the ended turn's member. That the context of a call that ends is cleared of more than R20 names is the model's choice (log 1). -/
def Obligations.TurnExpiryFollowsTheNoShortTurnRule : Prop :=
  (∀ (s : State) (c w : Nat), (context s c).turnMember = some w →
    let k := context s c
    let list := crewList s.roster.tables (callRung s k).number
    let own := list.idxOf w
    let at' : Nat → Nat := fun n => (own + n) % list.length
    let fits : Nat → Prop := fun i => (∀ j, j < i → list.getD j 0 ≠ list.getD i 0) ∧ list.getD i 0 ∉ k.madeCurrent
      ∧ (eligible s c (list.getD i 0) = true ∨ k.breakInRung = true ∧ candidate s c (list.getD i 0) = true)
    (k.reloaded = false → w ∈ list → k.firstPosition < list.length → ∀ m, nextTurnMember s c = some m ↔
      ∃ n, 1 ≤ n ∧ list.getD (at' n) 0 = m ∧ fits (at' n) ∧ (∀ e, 1 ≤ e → e ≤ n → at' e ≠ k.firstPosition)
        ∧ ∀ e, 1 ≤ e → e < n → ¬fits (at' e))
    ∧ (k.reloaded = true → w ∈ list → ∀ m, nextTurnMember s c = some m ↔
      ∃ n, 1 ≤ n ∧ n ≤ list.length ∧ list.getD (at' n) 0 = m ∧ fits (at' n) ∧ ∀ e, 1 ≤ e → e < n → ¬fits (at' e))
    ∧ (k.reloaded = true → w ∉ list → ∀ m, nextTurnMember s c = some m ↔
      ∃ n, n < list.length ∧ list.getD n 0 = m ∧ fits n ∧ ∀ e, e < n → ¬fits e))
  ∧ (∀ (s : State) (k : Context), rotationGoesOn s k = true ↔ k.rung ≤ (callLadder s k).effectiveLast ∧ (callRung s k).kind = 1
    ∧ (callRung s k).number < s.roster.tables.crews.length ∧ k.madeCurrent.length < 16)
  ∧ ∀ (s : State) (c : Nat), s.agenda = [] → s.engine = .running → s.dispatcher.ok → (context s c).state = .paging →
    (context s c).mode = .rotate → (context s c).turn.due s.tickCount = true →
    ((context s c).deadline.remaining s.tickCount < s.roster.settings.minimumTurn ∨ rotationGoesOn s (context s c) = false
        ∨ nextTurnMember s c = none →
      ∃ t : State, exec (.turnExpiry c) s = .next t ∧ (holdsAtEnd s c → isHeldAfter s t c)
        ∧ (¬holdsAtEnd s c → isMovedOnAfter s t c))
    ∧ ∀ m, s.roster.settings.minimumTurn ≤ (context s c).deadline.remaining s.tickCount →
      rotationGoesOn s (context s c) = true → nextTurnMember s c = some m →
      ∃ t : State, exec (.turnExpiry c) s = .next t
        ∧ (context t c).turnMember = some m ∧ (context t c).isCurrent m = true
        ∧ (context t c).madeCurrent = (context s c).madeCurrent ++ [m]
        ∧ (context t c).turn = .running (s.tickCount + BitVec.ofNat 32
          (min (context s c).turnLength ((context s c).deadline.remaining s.tickCount)))
        ∧ (context t c).state = .paging ∧ (context t c).rung = (context s c).rung
        ∧ (context t c).deadline = (context s c).deadline
        ∧ (deliveryOf t { tag := (context s c).tag, member := m, kind := .page }).isSome = true
        ∧ (∀ d, d ≠ c → context t d = context s d) ∧ t.attention = s.attention ∧ t.tickCount = s.tickCount

/-- R54, R115: at the expiry of the first arrival window, ARRIVAL OVERDUE is raised and submitted with the accept rung and the length of the
first window, an ARRIVAL CHECK is handed over for an accepter with a pager, and for one with pager address 0 none is, and the second
window starts with its length computed anew; the call stays as it is otherwise. -/
def Obligations.FirstArrivalExpiryStartsTheSecondWindow : Prop :=
  ∀ (s : State) (c m : Nat), s.agenda = [] → s.engine = .running → s.dispatcher.ok → (context s c).accepter = some m →
    (context s c).arrival.due s.tickCount = true → (context s c).arrivalCount = 1 →
    ∃ t : State, exec (.firstArrivalWindowExpiry c) s = .next t
      ∧ context t c = { context s c with
          arrivalCount := 2
          arrivalLength := classLength s (context s c) (callLadder s (context s c)).arrivalClass
          arrival := .running (s.tickCount + BitVec.ofNat 32
            (classLength s (context s c) (callLadder s (context s c)).arrivalClass)) }
      ∧ t.attention = { s.attention with event := s.attention.event ||| BitVec.twoPow 14 5 }
      ∧ (effectivePager s.roster.tables m ≠ 0 →
        (deliveryOf t { tag := (context s c).tag, member := m, kind := .arrivalCheck }).isSome = true)
      ∧ (effectivePager s.roster.tables m = 0 → t.dispatcher = s.dispatcher)
      ∧ (s.journal.state = .writing → s.area.memoryFault = false → s.journal.pending.length < 64 →
        ∃ rest, t.journal.pending = s.journal.pending ++ { callRecord .arrivalOverdue (context s c) with
            tick := s.tickCount, member := some m, detail1 := (context s c).acceptRung, detail2 := (context s c).arrivalLength }
          :: rest
        ∧ (effectivePager s.roster.tables m = 0 → rest = []))
      ∧ (∀ d, d ≠ c → context t d = context s d) ∧ t.roster = s.roster ∧ t.engine = s.engine

/-- R55, R44, R41, R19, R20: the expiry of the second arrival window reopens the call, which moves on from its accept rung. The case in which
that rung is the effective last or past it and no repeat is left, the effective last rung being without REPEAT or the pass count at the
repeat limit, with nobody waiting in the backlog: the call ends EXHAUSTED, its accepter is released, and its context is FREE under the
next reuse count. The former accepter and the other contacted members who have neither declined nor had one are sent a CANCEL, and
REOPENED and EXHAUSTED are submitted. That the freed context is cleared of more than R20 names is the model's choice (log 1). -/
def Obligations.SecondArrivalExpiryExhaustsTheLadder : Prop :=
  ∀ (s : State) (c m : Nat), s.agenda = [] → s.engine ≠ .stopping → s.calls.backlog = [] →
    (context s c).state = .accepted → (context s c).accepter = some m →
    (context s c).arrival.due s.tickCount = true → (context s c).arrivalCount = 2 →
    (callLadder s (context s c)).effectiveLast ≤ (context s c).acceptRung →
    ¬repeatsOnce (callLadder s (context s c)) (context s c) →
    ∃ t : State, exec (.secondArrivalWindowExpiry c) s = .next t
      ∧ context t c = { Context.empty with reuse := ((context s c).reuse + 1) % 512 }
      ∧ (member t m).engaged = none ∧ (member t m).offDutyPending = false
      ∧ t.attention.event.getLsbD 0 = true ∧ t.attention.event.getLsbD 4 = true
      ∧ (∀ i, (context s c).slot = some i → i < s.area.slots.length →
        (slotImage t i).state = .exhausted ∧ (slotImage t i).reason = .ladderExhausted
          ∧ (slotImage t i).endTick = s.tickCount ∧ (slotImage t i).accepter = none)
      ∧ (∀ r ∈ t.dispatcher.records, r.key.tag ≠ (context s c).tag)
      ∧ (hasRoom s ((context s c).contacted.length + 3) →
        isQueuedOrDropped t .cancel (context s c).tag m (effectivePager s.roster.tables m)
        ∧ ∀ j e, (context s c).contact j = some e → e.declined = false → e.cancelled = false →
          isQueuedOrDropped t .cancel (context s c).tag j (effectivePager s.roster.tables j))
      ∧ isSubmitted s t { callRecord .reopened (context s c) with
        tick := s.tickCount, detail1 := ReopenCause.secondArrivalWindow.code, detail2 := (context s c).acceptRung }
        ((context s c).contacted.length + 3)
      ∧ isSubmitted s t (endRecord s { context s c with accepter := none } .exhausted .ladderExhausted)
        ((context s c).contacted.length + 3)
      ∧ (∀ d, d ≠ c → context t d = context s d) ∧ t.tickCount = s.tickCount

/-- R92, R87, R88, R95, R98, R101, R32, R34 to R36: at the expiry of the receipt window the record's queued copies are withdrawn; from
LAST-HEARD or HOME the next stage begins, and from PLANT the record ends unreached. A stage whose condition fails is skipped: LAST-HEARD
needs a fresh location in a zone other than the home zone with a usable zone transmitter, HOME a home zone with one, and PLANT goes to
every usable transmitter in the order of R87's search. A copy is enqueued to each transmitter of the stage. A stage begun in PAUSE is
PENDING; one that finds no usable transmitter waits one retry window, and then ends unreached. Unreached, the record is discarded with
UNREACHED; for a PAGE or a REMIND the entry is marked unreached, and a current member loses the mark, with what that does to the rung; for
an ARRIVAL CHECK nothing follows. That a retry window which is started already keeps its expiry when a copy is DEFERRED is the model's
choice (log 55), and that it stops only when no copy of the stage is DEFERRED any more, and runs on while one is placed and another
DEFERRED, is its reading of R56 (log 47). That the stage at which a record is PENDING is the one it was sent to, with no condition tested
before the RESUME, is the model's choice (log 92). -/
def Obligations.ReceiptExpiryMovesTheRecordOn : Prop :=
  (∀ (s : State) (key : RecordKey) (r : Delivery), s.agenda = [] → s.engine = .running → s.dispatcher.ok →
    deliveryOf s key = some r → r.receipt.due s.tickCount = true →
    ((r.stage = .home → r.noRouteUsed = false → (∀ a, usableAt s a = false) →
      ∃ t : State, exec (.receiptWindowExpiry key) s = .next t
        ∧ deliveryOf t key = some { r with
            stage := .plant, isPending := false, copies := [], receipt := .stopped, noRouteUsed := true
            retry := .running (s.tickCount + BitVec.ofNat 32 s.roster.settings.receiptWindow) }
        ∧ (∀ d ∈ t.line0.drops ++ t.line1.drops, ∀ e ∈ d.queue, e.isCopyOf r.serial = false)
        ∧ t.calls = s.calls ∧ t.attention = s.attention ∧ t.roster = s.roster ∧ t.journal = s.journal)
      ∧ (r.stage = .plant → key.kind = .arrivalCheck → ∃ t : State, exec (.receiptWindowExpiry key) s = .next t
        ∧ t.dispatcher = { s.dispatcher with records := s.dispatcher.records.filter fun x => x.serial != r.serial }
        ∧ (∀ d ∈ t.line0.drops ++ t.line1.drops, ∀ e ∈ d.queue, e.isCopyOf r.serial = false)
        ∧ t.calls = s.calls ∧ t.attention = s.attention ∧ t.roster = s.roster)
      ∧ ∀ e, r.stage = .plant → key.kind ≠ .arrivalCheck → tagLive s key.tag = true → (context s (key.tag % 128)).tag = key.tag →
        (context s (key.tag % 128)).contact key.member = some e → e.current = true → (context s (key.tag % 128)).mode = .all →
        (∃ x, x ≠ key.member ∧ (context s (key.tag % 128)).isCurrent x = true) →
        ∃ t : State, exec (.receiptWindowExpiry key) s = .next t
          ∧ (context t (key.tag % 128)).contact key.member = some { e with
            unreached := true, current := false, remind := .stopped }
          ∧ (context t (key.tag % 128)).state = (context s (key.tag % 128)).state
          ∧ (member t key.member).paged = (member s key.member).paged - 1 ∧ deliveryOf t key = none
          ∧ (∀ d, d ≠ key.tag % 128 → context t d = context s d) ∧ t.attention = s.attention))
  ∧ (∀ (s : State) (key : RecordKey) (r : Delivery), s.agenda = [] → s.dispatcher.ok → deliveryOf s key = some r →
    r.receipt.due s.tickCount = true →
    let withdrawn : List Drop → List Drop := fun drops => drops.map fun d => { d with
      queue := d.queue.filter fun e => !e.isCopyOf r.serial }
    let u : State := { s with
      dispatcher := { s.dispatcher with records := s.dispatcher.records.map fun x =>
        if x.serial = r.serial then { x with receipt := .stopped } else x }
      line0 := { s.line0 with drops := withdrawn s.line0.drops }, line1 := { s.line1 with drops := withdrawn s.line1.drops } }
    let v := match r.stage with
      | .lastHeard => beginStage r.serial .home u
      | .home => beginStage r.serial .plant u
      | .plant => endUnreached r u
    exec (.receiptWindowExpiry key) s = .next (closeEvent (run (Config.workLimit - 1) v.2 v.1)))
  ∧ (∀ (s : State) (serial : Nat) (st : Stage) (r : Delivery), delivery? s serial = some r →
    (∀ d ∈ s.line0.drops ++ s.line1.drops, ∀ e ∈ d.queue, e.isCopyOf serial = false) →
    let m := r.key.member
    let v := beginStage serial st s
    let place : Nat → LineId × Nat := fun i => if i < 16 then (.l0, i + 1) else (.l1, i - 15)
    let usable : LineId × Nat → Prop := fun a => ∃ d, drop? s a.1 a.2 = some d ∧ d.kind = .transmitter ∧ d.state = .ready
    let isOf : Nat → Nat → Prop := fun z i => ∃ d, drop? s (place i).1 (place i).2 = some d ∧ d.kind = .transmitter ∧ d.zone = z
    let serves : Nat → LineId × Nat → Prop := fun z a =>
      z ≠ 0 ∧ usable a ∧ ∃ i, i < 32 ∧ place i = a ∧ isOf z i ∧ ∀ j, j < i → ¬isOf z j
    let home := homeZone s.roster.tables m
    let heardAt : LineId × Nat → Prop := fun a => ∃ z, (member s m).lastZone = some z ∧ z ≠ home ∧ serves z a
      ∧ (s.tickCount - (member s m).lastTick).toNat ≤ s.roster.settings.locationAge
    let begins : Stage → List (LineId × Nat) → Prop := fun stage targets => v.2 = [] ∧ areEnqueued s v.1 { r with
      stage := stage, isPending := false, receipt := .stopped
      copies := targets.map fun a => { line := a.1, drop := a.2, state := .deferred } } targets
    (s.engine = .paused → v.2 = [] ∧ v.1 = { s with dispatcher := v.1.dispatcher }
      ∧ delivery? v.1 serial = some { r with
        stage := st, isPending := true, pendingOrder := s.dispatcher.pendingCount, copies := [] })
    ∧ (s.engine ≠ .paused →
      (∀ a, st = .lastHeard → heardAt a → begins .lastHeard [a])
      ∧ (∀ a, (st = .lastHeard → ∀ b, ¬heardAt b) → st ≠ .plant → serves home a → begins .home [a])
      ∧ ((st = .lastHeard → ∀ b, ¬heardAt b) → (st ≠ .plant → ∀ b, ¬serves home b) →
        (∀ targets : List (LineId × Nat), targets ≠ [] → targets.Sublist ((List.range 32).map place) →
          (∀ a, a ∈ targets ↔ usable a) → begins .plant targets)
        ∧ ((∀ a, ¬usable a) →
          (r.noRouteUsed = false → v.2 = [] ∧ v.1 = { s with dispatcher := v.1.dispatcher }
            ∧ delivery? v.1 serial = some { r with
              stage := .plant, isPending := false, copies := [], receipt := .stopped, noRouteUsed := true
              retry := startWindow s s.roster.settings.receiptWindow })
          ∧ (r.noRouteUsed = true → v.2 = [.unreached r.key] ∧ delivery? v.1 serial = none
            ∧ v.1.calls = s.calls ∧ v.1.attention = s.attention)))))
  ∧ (∀ (s : State) (r : Delivery),
    let v := endUnreached r s
    v.2 = [.unreached r.key] ∧ v.1.dispatcher = { s.dispatcher with
        records := s.dispatcher.records.filter fun x => x.serial != r.serial }
      ∧ v.1.calls = s.calls ∧ v.1.roster = s.roster ∧ v.1.attention = s.attention
      ∧ (tagLive s r.key.tag = true → s.journal.state = .writing → s.area.memoryFault = false → s.journal.pending.length < 64 →
        v.1.journal.pending = s.journal.pending ++ [{ callRecord .unreached (context s (r.key.tag % 128)) with
          tick := s.tickCount, tag := some r.key.tag, member := some r.key.member
          detail1 := (deliveryMessageKind r.key.kind).code }]))
  ∧ ∀ (s : State) (key : RecordKey), s.dispatcher.ok →
    let c := key.tag % 128
    let k := context s c
    let v := perform (.unreached key) s
    (tagLive s key.tag = false ∨ key.kind = .arrivalCheck → v = (s, []))
    ∧ (∀ e, tagLive s key.tag = true → k.tag = key.tag → key.kind ≠ .arrivalCheck → k.contact key.member = some e →
      (∀ d, d ≠ c → context v.1 d = context s d) ∧ v.1.attention = s.attention ∧ v.1.journal = s.journal
      ∧ (k.isCurrent key.member = true → v.2 = [.lostMark c key.member]
        ∧ (context v.1 c).contact key.member = some { e with unreached := true, current := false, remind := .stopped }
        ∧ (member v.1 key.member).paged = (member s key.member).paged - 1
        ∧ ∀ kind ∈ [DeliveryKind.page, .remind], deliveryOf v.1 { key with kind := kind } = none)
      ∧ (k.isCurrent key.member = false → v.2 = [] ∧ v.1.roster = s.roster ∧ v.1.dispatcher = s.dispatcher
        ∧ (context v.1 c).contact key.member = some { e with unreached := true }))
    ∧ ∀ m, perform (.lostMark c m) s = (s,
      if k.state = .paging ∧ k.isCurrent m = false then
        match k.mode with
        | .rotate => if k.turnMember = some m then [.endTurn c] else []
        | .all => if k.currentMembers = [] then [.endRung c] else []
        | .member => if k.currentMembers = [] then [.endRung c] else []
        | .beacon => []
        | .none => []
      else [])

/-- R57, R94: at the expiry of a remind interval below the remind limit, a REMIND is handed over, the count steps and the interval starts
again; at the limit the interval stops, and a deferred REMIND that waited for it is offered again: its DEFERRED copies are enqueued anew, and
one that is DEFERRED once more starts a retry window. That a record whose receipt window or retry window has been started meanwhile is
left to that window is the model's choice (log 63), as is what R94 leaves open of a record offered again (log 56, log 64, log 81); that
the retry window stops only as the last DEFERRED copy is placed is its reading of R56 (log 47). -/
def Obligations.RemindExpiryHandsOverAReminder : Prop :=
  ∀ (s : State) (c m : Nat) (e : Contact), s.agenda = [] → s.engine = .running → s.dispatcher.ok →
    (context s c).contact m = some e →
    e.remind.due s.tickCount = true →
    (e.remindCount < s.roster.settings.remindLimit → ∃ t : State, exec (.remindIntervalExpiry c m) s = .next t
      ∧ (context t c).contact m = some { e with
          remindCount := e.remindCount + 1
          remind := .running (s.tickCount + BitVec.ofNat 32 s.roster.settings.remindInterval) }
      ∧ (deliveryOf t { tag := (context s c).tag, member := m, kind := .remind }).isSome = true
      ∧ (context t c).state = (context s c).state ∧ t.attention = s.attention ∧ t.roster = s.roster)
    ∧ (s.roster.settings.remindLimit ≤ e.remindCount →
      deliveryOf s { tag := (context s c).tag, member := m, kind := .remind } = none →
      ∃ t : State, exec (.remindIntervalExpiry c m) s = .next t
        ∧ (context t c).contact m = some { e with remind := .stopped }
        ∧ t.dispatcher = s.dispatcher ∧ t.attention = s.attention ∧ t.roster = s.roster)
    ∧ ∀ r, s.roster.settings.remindLimit ≤ e.remindCount → (context s c).tag % 128 = c →
      deliveryOf s { tag := (context s c).tag, member := m, kind := .remind } = some r →
      let u : State := { s with calls := { s.calls with contexts := s.calls.contexts.modify c fun k => { k with
        contacted := k.contacted.map fun x => if x.member = m then { x with remind := .stopped } else x } } }
      let v := expireRemind c m s
      let isDeferred : Prop := ∃ x ∈ r.copies, x.state = .deferred
      exec (.remindIntervalExpiry c m) s = .next (closeEvent (run (Config.workLimit - 1) v.2 v.1))
      ∧ (¬isDeferred ∨ r.receipt ≠ .stopped ∨ r.retry ≠ .stopped → v = (u, []))
      ∧ (isDeferred → r.receipt = .stopped → r.retry = .stopped → isOfferedAgain u r v
        ∧ ((r.copies.map fun x => (x.line, x.drop)).Nodup →
          (∀ d ∈ s.line0.drops ++ s.line1.drops, ∀ e ∈ d.queue, e.isCopyOf r.serial = false) →
          ∀ w, delivery? v.1 r.serial = some w → (∃ x ∈ w.copies, x.state = .deferred) →
            w.retry = .running (s.tickCount + BitVec.ofNat 32 s.roster.settings.receiptWindow)))

/-- R94, R95, R92: at the expiry of the retry window its record is offered again. A record whose stage has found no route, or that is PENDING,
begins its stage anew, and with no route still ends unreached: here an ARRIVAL CHECK. A DEFERRED copy is enqueued again at its transmitter
with an urgency of that moment. From LAST-HEARD or HOME a DEFERRED copy whose transmitter is not usable any more takes the record on to
the next stage; at PLANT such copies are forgotten. What is the model's choice: that a PLANT stage whose DEFERRED copies are all
forgotten, with no copy left and no receipt window, begins anew at every usable transmitter (log 56), that a copy DEFERRED at a drop that
has been away and has come back is enqueued there (log 64), and that a PLANT stage which forgets its DEFERRED copies waits for what else
it has, be it a TAKEN copy or the receipt window (log 81). That the retry window stops only when the last DEFERRED copy has been placed is
its reading of R56 (log 47). -/
def Obligations.RetryExpiryOffersTheRecordAgain : Prop :=
  (∀ (s : State) (key : RecordKey) (r : Delivery), s.agenda = [] → s.engine = .running →
    s.dispatcher.ok →
    deliveryOf s key = some r → r.retry.due s.tickCount = true → r.copies = [] → r.noRouteUsed = true →
    key.kind = .arrivalCheck → (∀ a, usableAt s a = false) →
    ∃ t : State, exec (.retryWindowExpiry key) s = .next t
      ∧ t.dispatcher = { s.dispatcher with records := s.dispatcher.records.filter fun x => x.serial != r.serial }
      ∧ t.calls = s.calls ∧ t.attention = s.attention ∧ t.roster = s.roster)
  ∧ ∀ (s : State) (key : RecordKey) (r : Delivery), s.agenda = [] → s.engine = .running → s.dispatcher.ok →
    deliveryOf s key = some r → r.retry.due s.tickCount = true →
    let u : State := { s with dispatcher := { s.dispatcher with
      records := s.dispatcher.records.map fun x => if x.serial = r.serial then { x with retry := .stopped } else x } }
    let v := expireRetry key s
    exec (.retryWindowExpiry key) s = .next (closeEvent (run (Config.workLimit - 1) v.2 v.1))
    ∧ isOfferedAgain u { r with retry := .stopped } v

/-- R155: the expiry of the scan timer begins a scan with the read of the header's server fields. -/
def Obligations.ScanTimerExpiryBeginsAScan : Prop :=
  ∀ (s : State) (e : Tick), s.agenda = [] → s.engine = .running ∨ s.engine = .paused → s.area.scanInFlight = false →
    s.area.scanTimer = some e → reached s.tickCount e = true →
    ∃ t : State, exec .scanTimerExpiry s = .next t
      ∧ t.area = { s.area with
          scanInFlight := true, scanTimer := none, scanEnding := false, faultInScan := false
          bus := some { op := .scanHeader, reads := [(areaBase s + 0x50, 32)], writes := [], lastWrites := [] } }
      ∧ t.calls = s.calls ∧ t.dispatcher = s.dispatcher ∧ t.attention = s.attention ∧ t.journal = s.journal
      ∧ t.roster = s.roster ∧ t.engine = s.engine

/-- R174, R155: STOPPING ends 20 ticks after the STOP, or as soon as every air queue is empty, and then the final scan begins, which is
made of the write step alone: at the expiry of the limit; at the close of an event that leaves every queue empty, such as the POLL that
takes the last entries. With a transaction of the Area Controller in progress, which STOP has ended the scan of, the final scan begins as
that transaction completes: the model's reading, and so is it that a queue which fills meanwhile does not put it off (log 37). -/
def Obligations.StoppingLimitBeginsTheFinalScan : Prop :=
  let isFinal : State → Prop := fun t => t.engine = .stopping ∧ t.area.finalScan = true ∧ t.area.scanInFlight = true
    ∧ t.area.scanEnding = false ∧ t.area.stopLimit = none ∧ ∃ x, t.area.bus = some x ∧ x.reads = [] ∧ x.op.writeDone.isSome = true
  (∀ (s : State) (e : Tick), s.agenda = [] → s.engine = .stopping → s.area.finalScan = false → s.area.bus = none →
    s.area.stopLimit = some e → reached s.tickCount e = true →
    ∃ t : State, exec .stoppingLimitExpiry s = .next t ∧ isFinal t ∧ t.calls = s.calls ∧ t.attention = s.attention)
  ∧ (∀ s : State, s.engine = .stopping → s.area.finalScan = false →
    let t := closeEvent s
    let isEmpty : Prop := ∀ d ∈ s.line0.drops ++ s.line1.drops, d.queue = []
    t.calls = s.calls ∧ t.attention = s.attention ∧ t.journal = s.journal
    ∧ (isEmpty → s.area.bus = none → isFinal t)
    ∧ (isEmpty → s.area.bus ≠ none → t.area = { s.area with stopEnded := true })
    ∧ (¬isEmpty → s.area.stopEnded = false → t.area = s.area))
  ∧ (∀ (s : State) (l : LineId) (a : Nat) (d : Drop), s.agenda = [] → s.engine = .stopping → s.area.finalScan = false →
    s.area.bus = none → (s.line l).state = .running → (s.line l).phase = .gap → chooseExchange (s.line l) = .poll a →
    drop? s l a = some d → d.kind = .transmitter → d.inFlight = [] → fillSet (min 4 d.room) 160 d.queue = d.queue →
    (∀ o b e, (o, b) ≠ (l, a) → drop? s o b = some e → e.queue = []) →
    ∃ t x e, exec (.exchangeStart l) s = .next t ∧ isFinal t ∧ (t.line l).phase = .sending x ∧ x.address = a
      ∧ drop? t l a = some e ∧ e.inFlight = d.queue ∧ e.queue = [] ∧ t.calls = s.calls ∧ t.attention = s.attention)
  ∧ ∀ (s : State) (x : Transaction AreaOp) (data : List Byte), s.agenda = [] → s.engine = .stopping →
    s.area.finalScan = false → s.area.scanEnding = true → s.area.stopEnded = true → s.area.bus = some x →
    ∀ c, (x.op = .scanHeader ∧ c = .scanHeaderReadDone data) ∨ ((∃ i, x.op = .slotHost i) ∧ c = .slotHostReadDone data)
        ∨ (x.op = .descriptorState ∧ c = .descriptorStateReadDone data) →
      ∃ t : State, exec c s = .next t ∧ isFinal t ∧ t.calls = s.calls ∧ t.attention = s.attention ∧ t.journal = s.journal

/-! ## The bus master and the Common Area (chapter 9) -/

/-- R2, R81, R157, R160, R163, R165, R166: a completed write leaves in server memory exactly the bytes of its transaction, and every other
byte as it was. That they land as it completes is the model's choice (log 26). -/
def Obligations.CompletedWritesLandExactlyTheirBytes : Prop :=
  (∀ (s : State) (x : Transaction AreaOp) (c : Instr), s.area.bus = some x → x.op.writeDone = some c →
    ∃ t : State, exec c s = .next t ∧ ∀ i, Memory.read t.memory i = x.leaves i (Memory.read s.memory i))
  ∧ ∀ (s : State) (x : Transaction JournalOp) (c : Instr), areaCloses s = false → s.journal.bus = some x →
    x.op.writeDone = some c →
    ∃ t : State, exec c s = .next t ∧ ∀ i, Memory.read t.memory i = x.leaves i (Memory.read s.memory i)

/-- R2, R161: of a write that completes with error, the Area Controller's or the Journal Writer's, each byte holds what it held or what
the write put there (which, is a free value: log 7), nothing else changes in server memory, and no byte of the echoes, which are written
last, has changed unless every byte before them has landed. -/
def Obligations.FaultedWritesLandSomeOfTheirBytes : Prop :=
  ∀ s : State, ∀ event ∈ [Instr.busErrorCompletion, .busCompletionTimeout],
    let lands : Requester → List Host.Cell → List Host.Cell → Prop := fun who writes lastWrites =>
      ∃ t : State, exec (event who) s = .next t
        ∧ (∀ i, Memory.read t.memory i = Memory.read s.memory i
          ∨ ∃ c ∈ writes ++ lastWrites, c.1 = i ∧ Memory.read t.memory i = some c.2)
        ∧ ((∃ i, i ∉ writes.map (·.1) ∧ Memory.read t.memory i ≠ Memory.read s.memory i) →
          ∀ c ∈ writes, ∃ d ∈ writes ++ lastWrites, d.1 = c.1 ∧ Memory.read t.memory c.1 = some d.2)
    (∀ x, s.area.bus = some x → lands .area x.writes x.lastWrites)
    ∧ ∀ x, s.journal.bus = some x → lands .journal x.writes x.lastWrites

/-- R161, R154, R155, R157, R165, R167, R174: an error reported by the link and a completion that does not come in time are one. With the
memory-fault flag clear it sets the flag and raises MEMORY FAULT, and the pending journal records are skipped and counted; a scan in
flight ends and its timer is started, or the next scan begins at once where nudge is pending, with a journal that awaits a descriptor, or
a close to be made again, as it was; the failed header read of a scan hands over a heartbeat that has not changed; a final scan ends all
the same, in IDLE with the lines and the journal OFF and its images as they were; and a START load fails with MEMORY FAULT. A failed
transaction of the Journal Writer skips what is pending and makes no other while the flag is set: a record or a GAP leaves the sequence
number, the fill position and the block as they were; a take leaves the journal STALLED at its descriptor; and a close leaves it STALLED
with the close pending; and a restart that waited is settled against that. What is the model's reading: that a record whose fill-count
write is in progress stays pending, and that one whose own write is in progress is skipped while its bytes are let finish (log 19); for
which transactions a restart waits (log 21); that a take which errs in STALLED, where a restart began it, raises no JOURNAL STALLED (log
85); and that a take waits for the bytes of a given-up record (log 87). -/
def Obligations.BusErrorsSetTheMemoryFaultFlag : Prop :=
  ∀ s : State, ∀ c ∈ [Instr.busErrorCompletion, .busCompletionTimeout],
    let skips : Nat → Journal := fun n => { s.journal with
      pending := s.journal.pending.take n, skipped := min 65535 (s.journal.skipped + (s.journal.pending.length - n)) }
    let skipped : State → Prop := fun t =>
      (∀ y, s.journal.bus = some y → y.op = .fillWrite none → t.journal = skips 1)
      ∧ (∀ y, s.journal.bus = some y → y.op = .recordWrite none →
        t.journal = { skips 0 with bus := some { y with op := .orphanWrite } })
      ∧ ((∀ y, s.journal.bus = some y → y.op ≠ .fillWrite none ∧ y.op ≠ .recordWrite none) → t.journal = skips 0)
    let ended : State → Prop := fun t =>
      (s.area.nudgePending = false → t.area.bus = none ∧ t.area.scanInFlight = false
        ∧ t.area.scanTimer = some (s.tickCount + BitVec.ofNat 32 s.roster.settings.scanPeriod))
      ∧ (s.area.nudgePending = true → t.area.bus = some (readTransaction .scanHeader [(areaBase s + 0x50, 32)])
        ∧ t.area.scanInFlight = true ∧ t.area.nudgePending = false ∧ t.area.scanTimer = none)
    (∀ x, s.agenda = [] → s.area.memoryFault = false → s.engine = .running ∨ s.engine = .paused →
      s.area.bus = some x → x.op.isLoad = false → x.op ≠ .scanHeader → s.area.finalScan = false →
      ∃ t : State, exec (c .area) s = .next t ∧ t.area.memoryFault = true ∧ ended t
        ∧ t.attention = { s.attention with event := s.attention.event ||| BitVec.twoPow 14 11 }
        ∧ t.area.slots = s.area.slots ∧ t.calls = s.calls ∧ t.dispatcher = s.dispatcher ∧ t.engine = s.engine ∧ skipped t)
    ∧ (∀ x, s.agenda = [] → s.engine = .running ∨ s.engine = .paused → s.area.bus = some x → x.op = .scanHeader →
      s.area.scanEnding = false → s.area.finalScan = false →
      heartbeatLimit s = 0 ∨ s.watch.serverLost = true ∨ s.watch.stale + 1 < heartbeatLimit s →
      ∃ t : State, exec (c .area) s = .next t ∧ t.area.memoryFault = true ∧ ended t
        ∧ t.attention = { s.attention with
          event := s.attention.event ||| (if s.area.memoryFault then 0 else BitVec.twoPow 14 11) }
        ∧ t.watch = (if heartbeatLimit s = 0 ∨ s.watch.serverLost = true then s.watch
          else { s.watch with stale := s.watch.stale + 1 })
        ∧ t.area.server = s.area.server ∧ t.calls = s.calls ∧ t.dispatcher = s.dispatcher ∧ t.engine = s.engine
        ∧ (s.area.memoryFault = false → skipped t) ∧ (s.area.memoryFault = true → t.journal = s.journal))
    ∧ (∀ x, s.agenda = [] → s.engine = .running ∨ s.engine = .paused → s.area.bus = some x → x.op = .scanHeader →
      s.area.scanEnding = false → s.area.finalScan = false → s.watch.serverLost = false → heartbeatLimit s ≠ 0 →
      heartbeatLimit s ≤ s.watch.stale + 1 → (context s 64).state = .free →
      let l := ladderOf s.roster.tables 0
      (l.rung 0).kind ∈ [4, 5] → (∃ z ∈ enabledZones s.roster.tables, zoneServable s z = true) → s.calls.contexts.length = 65 →
      ∃ t : State, exec (c .area) s = .next t ∧ t.area.memoryFault = true
        ∧ t.watch = { s.watch with stale := s.watch.stale + 1, serverLost := true }
        ∧ t.attention.event.getLsbD 8 = true ∧ (context t 64).state = .paging ∧ (context t 64).severity = 1)
    ∧ (∀ x, s.agenda = [] → s.engine = .stopping → s.area.finalScan = true → s.area.bus = some x → x.op.isLoad = false →
      ∃ t : State, exec (c .area) s = .next t ∧ t.engine = .idle ∧ t.area.memoryFault = true ∧ t.area.bus = none
        ∧ t.area.scanInFlight = false ∧ t.area.finalScan = false ∧ t.area.slots = s.area.slots
        ∧ t.line0.state = .off ∧ t.line1.state = .off ∧ t.journal.state = .off ∧ t.journal.pending = []
        ∧ (∀ d ∈ t.line0.drops ++ t.line1.drops, d.queue = [] ∧ d.inFlight = [])
        ∧ t.attention = { s.attention with event := s.attention.event
          ||| (if s.area.memoryFault then 0 else BitVec.twoPow 14 11) ||| BitVec.twoPow 14 12 }
        ∧ t.tickCount = s.tickCount ∧ t.calls = s.calls)
    ∧ (∀ x, s.agenda = [] → s.engine = .loading → s.area.bus = some x → x.op.isLoad = true → s.area.stopLoad = false →
      ∃ t : State, exec (c .area) s = .next t ∧ t.engine = .failed ∧ t.window.loadError = .memoryFault
        ∧ t.area.memoryFault = true ∧ t.area.bus = none ∧ t.line0.drops = [] ∧ t.line1.drops = [])
    ∧ ∀ x, s.agenda = [] → s.engine ≠ .stopping → s.journal.bus = some x →
      let left : Journal := { skips 0 with bus := none }
      let restart := s.journal.restartPending
      let fault : BitVec 14 := s.attention.event ||| (if s.area.memoryFault then 0 else BitVec.twoPow 14 11)
      let stall : BitVec 14 := if s.journal.state = .stalled then 0 else BitVec.twoPow 14 7
      let settles : Journal → BitVec 14 → Prop := fun j event => ∃ t : State, exec (c .journal) s = .next t
        ∧ t.area = { s.area with memoryFault := true, faultInScan := s.area.faultInScan || !s.area.memoryFault }
        ∧ t.journal = j ∧ t.attention = { s.attention with event := event } ∧ t.calls = s.calls
      (∀ gap, x.op ∈ [.recordWrite gap, .fillWrite gap, .orphanWrite] →
        (restart = false → settles left fault)
        ∧ (restart = true → s.journal.state = .writing → settles { left with
          state := .stalled, restartPending := false, closePending := true, closeThenZero := true } (fault ||| stall)))
      ∧ (x.op ∈ [.takeRead, .takeWrite, .orphanBeforeTake] →
        (restart = false → settles { left with state := .stalled } (fault ||| stall))
        ∧ (restart = true → s.journal.closePending = false →
          settles { left with state := .stalled, restartPending := false, index := 0 } (fault ||| stall)))
      ∧ (x.op = .closeWrite →
        (restart = false → settles { left with state := .stalled, closePending := true } (fault ||| stall))
        ∧ (restart = true → settles { left with
          state := .stalled, restartPending := false, closePending := true, closeThenZero := true } (fault ||| stall)))

/-- R150: the checks of the header in their order, signature, version, area size, counts, regions: the first that fails gives the load error,
with which the START load ends, and where none fails the load goes on. Checks 4 and 5 cover the table directory, and a table reload
applies the two to the table directory it reads. Nothing is asked of regions beside lying within the Area; and each write, the load's
among them, lands in the region whose offset gives its address, or in the header's device fields. A mirror of no entries is never written,
and the registry and the drop records are made in full whatever the mirrors' counts are. -/
def Obligations.HeaderChecksAreMadeInOrder : Prop :=
  let countsOf : TableDirectory → Prop := fun t =>
    t.zones.count ≤ 24 ∧ t.crews.count ≤ 32 ∧ (1 ≤ t.ladders.count ∧ t.ladders.count ≤ 32) ∧ t.roster.count ≤ 512
  let endsWithin : Nat → TableDirectory → Prop := fun size t =>
    t.zones.offset + t.zones.count * 4 ≤ size ∧ t.crews.offset + t.crews.count * 36 ≤ size
    ∧ t.ladders.offset + t.ladders.count * 36 ≤ size ∧ t.roster.offset + t.roster.count * 8 ≤ size
  (∀ data : List Byte,
    let d := readDirectory data
    let t := readTableDirectory data 0x30
    let signature : Prop := byteAt data 0 = 0x4E ∧ byteAt data 1 = 0x52 ∧ byteAt data 2 = 0x53 ∧ byteAt data 3 = 0x31
    let version : Prop := le16 data 4 = 1
    let size : Prop := 256 ≤ d.areaSize ∧ d.areaSize ≤ 4194304
    let counts : Prop := (16 ≤ d.slots.count ∧ d.slots.count ≤ 256 ∧ 16 ∣ d.slots.count) ∧ d.memberMirror.count ≤ 512
      ∧ (d.dropMirror.count = 0 ∨ d.dropMirror.count = 32) ∧ (1 ≤ d.descriptors.count ∧ d.descriptors.count ≤ 32) ∧ countsOf t
    let regions : Prop := d.settings + 128 ≤ d.areaSize ∧ d.slots.offset + d.slots.count * 128 ≤ d.areaSize
      ∧ d.memberMirror.offset + d.memberMirror.count * 16 ≤ d.areaSize
      ∧ d.dropMirror.offset + d.dropMirror.count * 12 ≤ d.areaSize
      ∧ d.descriptors.offset + d.descriptors.count * 24 ≤ d.areaSize ∧ endsWithin d.areaSize t
    (¬signature → headerError data = .badSignature)
    ∧ (signature → ¬version → headerError data = .badVersion)
    ∧ (signature → version → ¬size → headerError data = .outOfArea)
    ∧ (signature → version → size → ¬counts → headerError data = .countOutOfRange)
    ∧ (signature → version → size → counts → ¬regions → headerError data = .outOfArea)
    ∧ (signature → version → size → counts → regions → headerError data = .none)
    ∧ ∀ (s : State) (x : Transaction AreaOp), s.agenda = [] → s.engine = .loading → s.area.stopLoad = false →
      s.area.bus = some x → x.op = .loadHeader →
      ∃ u : State, exec (.loadHeaderReadDone data) s = .next u
        ∧ (headerError data ≠ .none → u.engine = .failed ∧ u.window.loadError = headerError data)
        ∧ (headerError data = .none → u.engine = .loading ∧ u.area.bus.map (·.op) = some .loadSettings))
  ∧ (∀ (s : State) (new : Tables), let t := s.area.tableDirectory
    (¬countsOf t → (reloadError s new).map (·.1) = some .countOutOfRange)
    ∧ (countsOf t → ¬endsWithin s.area.directory.areaSize t → (reloadError s new).map (·.1) = some .outOfArea)
    ∧ (countsOf t → endsWithin s.area.directory.areaSize t → (reloadError s new).map (·.1) ≠ some .outOfArea))
  ∧ ∀ s : State,
    let dir := s.area.directory
    let within : Nat → Nat → Host.Cell → Prop := fun start size w => areaBase s + start ≤ w.1 ∧ w.1 < areaBase s + start + size
    (∀ i y, i < s.area.slots.length → (slotImage s i).dirty = true → (writeSlots i s).area.bus = some y →
      ∀ w ∈ y.writes ++ y.lastWrites, within (dir.slots.offset + 128 * i) 128 w)
    ∧ (∀ i y, i < s.area.slots.length → (loadWriteSlot i s).area.bus = some y →
      ∀ w ∈ y.writes ++ y.lastWrites, within (dir.slots.offset + 128 * i) 128 w)
    ∧ (∀ y, (loadWriteSlot s.area.slots.length s).area.bus = some y ∨ (writeHeader s).area.bus = some y →
      ∀ w ∈ y.writes, within 0x70 24 w)
    ∧ (∀ y, (journalStep s).area.bus = some y → y.op = .descriptorClose →
      ∀ w ∈ y.writes, within (dir.descriptors.offset + 24 * s.journal.index) 24 w)
    ∧ (∀ m y, m < 512 → m < dir.memberMirror.count → (member s m).dirty = true → (writeMembers m s).area.bus = some y →
      ∀ w ∈ y.writes, within (dir.memberMirror.offset + 16 * m) 16 w)
    ∧ (∀ i d y, dir.dropMirror.count = 32 → i < 32 → drop? s (mirrorDrop i).1 (mirrorDrop i).2 = some d → d.dirty = true →
      (writeDrops i s).area.bus = some y → ∀ w ∈ y.writes, within (dir.dropMirror.offset + 12 * i) 12 w)
    ∧ (∀ y data gap, (issueClose s).journal.bus = some y ∨ (takeFrom data s).journal.bus = some y
        ∨ s.area.memoryFault = false ∧ (recordWriteDone gap s).journal.bus = some y →
      ∀ w ∈ y.writes, within (dir.descriptors.offset + 24 * s.journal.index) 24 w)
    ∧ (∀ i y n, dir.memberMirror.count = 0 → (writeMembers i s).area.bus = some y → y.op ≠ .memberEntry n)
    ∧ (∀ i y n, dir.dropMirror.count = 0 → (writeDrops i s).area.bus = some y → y.op ≠ .dropEntry n)
    ∧ ∀ x settings tables, s.agenda = [] → s.engine = .loading → s.area.stopLoad = false → s.area.memoryFault = false →
      s.area.bus = some x → x.op = .loadHeaderWrite → s.area.stagedSettings = some settings → s.area.stagedTables = some tables →
      ∃ t : State, exec .loadHeaderWriteDone s = .next t ∧ t.roster.members.length = 512
        ∧ (settings.dropList.length = 32 → t.line0.drops.length = 16 ∧ t.line1.drops.length = 16)

/-- R153, R150 to R152, R3: the reads of the START load go on one after another, header, settings, tables and the slots' host parts; a failed
check ends the load in FAILED with its load error; and after the last read every slot image is EMPTY with the baselines read, and the
first slot's device part is written as EMPTY, with the baselines as its echoes. The settings are read with each clamped to its range: 0
leaves supervision off, a flag is on for any value but 0, a bit rate that is none of the three is 115,200, and a drop kind outside the
three is UNUSED; none of them fails the load. -/
def Obligations.LoadReadsGoOnOneAfterAnother : Prop :=
  (∀ data : List Byte,
    let v := readSettings data
    let within : Nat → Nat → Nat → Nat := fun low high x => max low (min high x)
    let rate : Nat → Nat := fun x => if x = 19200 ∨ x = 57600 then x else 115200
    v.scanPeriod = within 1 50 (le16 data 0) ∧ v.receiptWindow = within 10 200 (le16 data 2)
    ∧ v.remindInterval = within 100 3000 (le16 data 4) ∧ v.remindLimit = min 5 (byteAt data 6)
    ∧ (v.breakIn = true ↔ byteAt data 7 ≠ 0) ∧ v.locationAge = within 600 36000 (le16 data 8)
    ∧ v.minimumTurn = within 50 600 (le16 data 10) ∧ v.plantReach = within 50 400 (le16 data 12)
    ∧ v.heartbeatLimit = (if byteAt data 14 = 0 then 0 else within 2 60 (byteAt data 14))
    ∧ (v.isolateOnBabble = true ↔ byteAt data 15 ≠ 0) ∧ v.pressMinimum = within 1 50 (byteAt data 16)
    ∧ v.bitRate0 = rate (le32 data 20) ∧ v.bitRate1 = rate (le32 data 24)
    ∧ v.windowTable.length = 16 ∧ (∀ i, i < 16 → v.windowTable[i]? = some (within 1 3600 (le16 data (28 + 2 * i))))
    ∧ v.dropList.length = 32 ∧ ∀ i, i < 32 → v.dropList[i]? = some {
      kind := if byteAt data (60 + 2 * i) = 1 then .transmitter else if byteAt data (60 + 2 * i) = 2 then .station else .unused
      zone := within 1 24 (byteAt data (60 + 2 * i + 1)) })
  ∧ ∀ (s : State) (x : Transaction AreaOp), s.agenda = [] → s.engine = .loading → s.area.stopLoad = false →
    s.area.bus = some x →
    (∀ data, x.op = .loadHeader → headerError data ≠ .none →
      ∃ t : State, exec (.loadHeaderReadDone data) s = .next t ∧ t.engine = .failed
        ∧ t.window = { s.window with loadError := headerError data } ∧ t.area.bus = none)
    ∧ (∀ data, x.op = .loadHeader → headerError data = .none →
      ∃ t : State, exec (.loadHeaderReadDone data) s = .next t ∧ t.engine = .loading
        ∧ t.area.directory = readDirectory data ∧ t.area.tableDirectory = readTableDirectory data 0x30
        ∧ t.area.server = readServerFields data 0x50 ∧ t.watch = { s.watch with last := word32 data 0x50 }
        ∧ t.area.bus = some (readTransaction .loadSettings [(areaBase s + (readDirectory data).settings, 128)]))
    ∧ (∀ data, x.op = .loadSettings →
      ∃ t : State, exec (.loadSettingsReadDone data) s = .next t ∧ t.engine = .loading
        ∧ t.area.stagedSettings = some (readSettings data)
        ∧ t.area.bus = some (readTransaction .loadTables
          [(areaBase s + s.area.tableDirectory.zones.offset, s.area.tableDirectory.zones.count * 4),
           (areaBase s + s.area.tableDirectory.crews.offset, s.area.tableDirectory.crews.count * 36),
           (areaBase s + s.area.tableDirectory.ladders.offset, s.area.tableDirectory.ladders.count * 36),
           (areaBase s + s.area.tableDirectory.roster.offset, s.area.tableDirectory.roster.count * 8)]))
    ∧ (∀ z c l r, x.op = .loadTables → (invalidTable (readTables s.area.tableDirectory z c l r)).isSome = true →
      ∃ t : State, exec (.loadTablesReadDone z c l r) s = .next t ∧ t.engine = .failed
        ∧ t.window = { s.window with loadError := .countOutOfRange } ∧ t.area.bus = none)
    ∧ (∀ z c l r, x.op = .loadTables → invalidTable (readTables s.area.tableDirectory z c l r) = none →
      ∃ t : State, exec (.loadTablesReadDone z c l r) s = .next t ∧ t.engine = .loading
        ∧ t.area.stagedTables = some (readTables s.area.tableDirectory z c l r)
        ∧ t.area.takenGeneration = s.area.server.generation ∧ t.area.loadedGeneration = s.area.server.generation
        ∧ t.line0.requestResult = .none ∧ t.line1.requestResult = .none
        ∧ t.area.takenRestart = s.area.server.restart ∧ t.line0.takenRequest = s.area.server.request0.number
        ∧ t.line1.takenRequest = s.area.server.request1.number
        ∧ t.area.bus = some (readTransaction .loadSlots ((List.range s.area.directory.slots.count).map fun i =>
          (areaBase s + s.area.directory.slots.offset + 128 * i, 64))))
    ∧ (∀ hosts, x.op = .loadSlots → 0 < s.area.directory.slots.count →
      ∃ t : State, exec (.loadSlotBaselineReadDone hosts) s = .next t ∧ t.engine = .loading
        ∧ t.area.slots = (List.range s.area.directory.slots.count).map (fun i =>
          .emptyWith (word32 (hosts.getD i []) 0) (word32 (hosts.getD i []) 16))
        ∧ t.area.bus = some (emptySlotWrite s 0 (word32 (hosts.getD 0 []) 0) (word32 (hosts.getD 0 []) 16)))

/-- R153, R3, R120, R155, R164, R176: the writes of the START load go on slot by slot, each device part as EMPTY with its baselines as the
echoes, to the header's device fields, with the engine state LOADING, descriptor 0, the taken line request numbers with their results and
the loaded generation; with that one the load completes: RUNNING, with the settings and tables read, the journal WRITING and taking
descriptor 0, each line that has a drop in the break of its cold restart, and the first scan begun. -/
def Obligations.LoadWritesEndInRunning : Prop :=
  ∀ (s : State) (x : Transaction AreaOp), s.agenda = [] → s.engine = .loading → s.area.stopLoad = false →
    s.area.memoryFault = false → s.area.bus = some x →
    (∀ i, x.op = .loadSlotWrite i →
      ∃ t : State, exec .loadSlotWriteDone s = .next t ∧ t.engine = .loading ∧ t.area.slots = s.area.slots
        ∧ (∀ post request, i + 1 < s.area.slots.length → slotImage s (i + 1) = .emptyWith post request →
          t.area.bus = some (emptySlotWrite s (i + 1) post request))
        ∧ (s.area.slots.length ≤ i + 1 → t.area.bus = some (writeTransaction .loadHeaderWrite (areaBase s + 0x70)
          (wordBytes s.tickCount ++ [1, byteOf s.journal.state.code, 0, 0] ++ wordBytes s.line0.takenRequest
            ++ wordBytes s.line1.takenRequest ++ [byteOf s.line0.requestResult.code, byteOf s.line1.requestResult.code, 0, 0]
            ++ wordBytes s.area.loadedGeneration)))
        ∧ t.area.bus.map (·.op) = some (if i + 1 < s.area.slots.length then .loadSlotWrite (i + 1) else .loadHeaderWrite)
        ∧ t.area.loadedGeneration = s.area.loadedGeneration
        ∧ ∀ l, (t.line l).takenRequest = (s.line l).takenRequest ∧ (t.line l).requestResult = (s.line l).requestResult)
    ∧ ∀ settings tables, x.op = .loadHeaderWrite → s.area.stagedSettings = some settings → s.area.stagedTables = some tables →
      ∃ t : State, exec .loadHeaderWriteDone s = .next t ∧ t.engine = .running
        ∧ t.roster.settings = settings ∧ t.roster.tables = tables ∧ t.roster.members.length = 512
        ∧ t.roster.pointers = tables.crews.map (fun _ => 0)
        ∧ t.journal.state = .writing ∧ t.journal.index = 0 ∧ t.journal.nextSequence = 0 ∧ t.journal.skipped = 0
        ∧ t.journal.bus.map (·.op) = some .takeRead ∧ t.journal.pending.map (·.kind) = [.engineState]
        ∧ t.line0.state = (if (settings.dropList.take 16).any (fun e => e.kind != .unused) then .restarting else .off)
        ∧ t.line1.state = (if (settings.dropList.drop 16).any (fun e => e.kind != .unused) then .restarting else .off)
        ∧ ((settings.dropList.take 16).any (fun e => e.kind != .unused) = true → t.line0.phase = .breaking)
        ∧ ((settings.dropList.drop 16).any (fun e => e.kind != .unused) = true → t.line1.phase = .breaking)
        ∧ t.line0.drops.length = (settings.dropList.take 16).length
        ∧ t.line1.drops.length = (settings.dropList.drop 16).length
        ∧ t.area.scanInFlight = true ∧ t.area.bus.map (·.op) = some .scanHeader
        ∧ t.watch.locked = (s.watch.locked || settings.heartbeatLimit != 0)

/-- R154, R171: STOP taken in LOADING changes the readback and abandons the load, which ends in IDLE, without a load error, as the
transaction in progress completes, whichever of the load's reads and writes that is: nothing staged is installed, and no tables, registry,
drop records or delivery records are left, with the lines OFF. Where the transaction completes with error the load ends in IDLE all the
same, with the memory-fault flag set: which of R154's two cases holds there is the model's reading (log 24). -/
def Obligations.StopInLoadingAbandonsTheLoad : Prop :=
  (∀ s : State, s.engine = .loading → exec (.stop false) s = .next { s with
    window := { s.window with control := .stop }, area := { s.area with stopLoad := true } })
  ∧ ∀ (s : State) (x : Transaction AreaOp) (c : Instr), s.agenda = [] → s.engine = .loading → s.area.stopLoad = true →
    s.area.bus = some x → x.op.isLoad = true →
    let completes : Prop := x.op.writeDone = some c ∨ (∃ data, x.op = .loadHeader ∧ c = .loadHeaderReadDone data)
      ∨ (∃ data, x.op = .loadSettings ∧ c = .loadSettingsReadDone data)
      ∨ (∃ z w l r, x.op = .loadTables ∧ c = .loadTablesReadDone z w l r)
      ∨ ∃ hosts, x.op = .loadSlots ∧ c = .loadSlotBaselineReadDone hosts
    let fails : Prop := c ∈ [.busErrorCompletion .area, .busCompletionTimeout .area]
    completes ∨ fails →
    ∃ t : State, exec c s = .next t ∧ t.engine = .idle ∧ t.window = s.window ∧ t.area.bus = none ∧ t.area.stopLoad = false
      ∧ t.area.stagedSettings = none ∧ t.area.stagedTables = none ∧ t.roster.tables = .empty ∧ t.roster.members = []
      ∧ t.line0.state = .off ∧ t.line1.state = .off ∧ t.line0.drops = [] ∧ t.line1.drops = [] ∧ t.dispatcher.records = []
      ∧ t.calls = s.calls ∧ t.watch = s.watch
      ∧ (completes → t.area.memoryFault = s.area.memoryFault
        ∧ t.attention = { s.attention with event := s.attention.event ||| BitVec.twoPow 14 12 })
      ∧ (fails → t.area.memoryFault = true ∧ t.attention = { s.attention with
        event := s.attention.event ||| (if s.area.memoryFault then 0 else BitVec.twoPow 14 11) ||| BitVec.twoPow 14 12 })

/-- R156, R158, R137, R138, R121, R122, R168: the header read of a scan hands over its server fields. With supervision off, a table generation
that differs from the taken one makes the read of the table directory, and with nothing new the scan goes on to the first slot. A new
journal restart request is taken and settled. A new request of one line is taken with the result of the table of R137: one that begins no
restart changes nothing else of the line; a restart that meets an exchange or an empty slot puts the line in RESTARTING and waits; a warm
restart sets the bits of the drops that are neither UNUSED nor ISOLATED and sends the RESTART frame with their mask; a cold restart (at
once where no drop is READY) makes the drops UNKNOWN, clears them and begins the break; and RESTORE makes an ISOLATED drop UNKNOWN. A line
that a case leaves as it was is left so but for the lamp commands of its drops, which are computed as the event closes (the model's
choice: log 45). What a cold restart does to READY drops is said of coldRestart: each hands back its set and then its queue, in ascending
address, in which R121 does not put them (the model's choice: log 73). R137 names only an exchange that a restart waits for, and R121 does
not order the state changes against the hand-backs: that a restart waits for an empty slot too, and that a cold restart changes every
drop's state before it hands anything back, are the model's choice (log 39). -/
def Obligations.ScanHeaderReadStartsTheSteps : Prop :=
  (∀ (s : State) (x : Transaction AreaOp) (data : List Byte), s.agenda = [] → s.engine = .running ∨ s.engine = .paused →
    s.area.bus = some x → x.op = .scanHeader → s.area.scanEnding = false → heartbeatLimit s = 0 →
    let f := readServerFields data 0
    let q : LineId → LineRequest := fun | .l0 => f.request0 | .l1 => f.request1
    let goesOn : State → Prop := fun t => exec (.scanHeaderReadDone data) s = .next t ∧ t.area.server = f
      ∧ t.area.bus = some (readTransaction (.slotHost 0) [(areaBase s + s.area.directory.slots.offset, 64)])
      ∧ t.watch = s.watch ∧ t.calls = s.calls ∧ t.roster = s.roster
    (f.generation ≠ s.area.takenGeneration →
      ∃ t : State, exec (.scanHeaderReadDone data) s = .next t ∧ t.area.server = f
        ∧ t.area.bus = some (readTransaction .reloadDirectory [(areaBase s + 0x30, 32)])
        ∧ t.watch = s.watch ∧ t.calls = s.calls ∧ t.roster = s.roster ∧ t.attention = s.attention)
    ∧ (f.generation = s.area.takenGeneration → f.request0.number = s.line0.takenRequest →
      f.request1.number = s.line1.takenRequest → f.restart = s.area.takenRestart → 0 < s.area.directory.slots.count →
      ∃ t : State, goesOn t ∧ t.attention = s.attention)
    ∧ (f.generation = s.area.takenGeneration → (∀ l, (q l).number = (s.line l).takenRequest) → f.restart ≠ s.area.takenRestart →
      0 < s.area.directory.slots.count →
      ∃ t : State, goesOn t ∧ t.area.takenRestart = f.restart ∧ t.journal = (requestRestart s).journal
        ∧ t.attention = (requestRestart s).attention)
    ∧ ∀ l o, l ≠ o → f.generation = s.area.takenGeneration → (q l).number ≠ (s.line l).takenRequest →
      (q o).number = (s.line o).takenRequest → f.restart = s.area.takenRestart → 0 < s.area.directory.slots.count →
      let answered : LineResult → Line := fun r =>
        { (recomputeLamps s).line l with takenRequest := (q l).number, requestResult := r }
      let otherLine : State → Prop := fun t => t.line o = (recomputeLamps s).line o ∧ t.attention = s.attention
      (∀ r, (q l).code = 0 ∧ r = .done ∨ 3 < (q l).code ∧ r = .badValue
          ∨ (q l).code ∈ [1, 2, 3] ∧ (s.line l).state = .off ∧ r = .wrongState
          ∨ (q l).code ∈ [1, 2, 3] ∧ (s.line l).state = .restarting ∧ r = .busy
          ∨ (q l).code = 3 ∧ (s.line l).state = .running ∧ (q l).drop ∉ List.range' 1 16 ∧ r = .badValue
          ∨ (q l).code = 3 ∧ (s.line l).state = .running ∧ (q l).drop ∈ List.range' 1 16
            ∧ (∀ d, drop? s l (q l).drop = some d → d.state ≠ .isolated) ∧ r = .wrongState →
        ∃ t : State, goesOn t ∧ otherLine t ∧ t.line l = answered r ∧ t.journal = s.journal)
      ∧ ((s.line l).state = .running →
        ((q l).code ∈ [1, 2] → (s.line l).phase ≠ .off → (s.line l).phase ≠ .gap →
          ∃ t : State, goesOn t ∧ otherLine t ∧ t.journal = s.journal ∧ t.line l = { answered .done with
            state := .restarting, restart := some (if (q l).code = 1 then .cold else .warm) })
        ∧ ((q l).code = 2 → (s.line l).phase = .gap →
          ∃ t : State, goesOn t ∧ otherLine t ∧ t.journal = s.journal ∧ t.line l = { answered .done with
            state := .restarting, phase := .restartFrame (restartFrameBytes (dropMask (s.line l))), restart := none
            drops := (answered .done).drops.map fun d =>
              if d.kind ≠ .unused ∧ d.state ≠ .isolated then { d with downBit := false, upBit := true } else d })
        ∧ ((q l).code = 1 → (s.line l).phase = .gap → (∀ d ∈ (s.line l).drops, d.state ≠ .ready) →
          ∃ t : State, goesOn t ∧ otherLine t ∧ (t.line l).state = .restarting ∧ (t.line l).phase = .breaking
            ∧ (t.line l).requestResult = .done ∧ (t.line l).takenRequest = (q l).number
            ∧ ∀ a d, a ∈ List.range' 1 16 → drop? s l a = some d → ∃ e, drop? t l a = some e
              ∧ (d.state = .silent ∨ d.state = .isolated → e.state = .unknown ∧ e.lastCause = .coldRestart)
              ∧ (d.kind ≠ .unused → e.misses = 0 ∧ e.strikes = [] ∧ e.room = 0 ∧ e.replyTimeout = 0 ∧ e.countdown = 0
                ∧ e.downBit = false ∧ e.upBit = true))
        ∧ ∀ d, (q l).code = 3 → (q l).drop ∈ List.range' 1 16 → drop? s l (q l).drop = some d → d.state = .isolated →
          ∃ t e, goesOn t ∧ otherLine t ∧ (t.line l).requestResult = .done ∧ (t.line l).takenRequest = (q l).number
            ∧ (t.line l).state = .running ∧ (t.line l).phase = (s.line l).phase
            ∧ (t.line l).pollPosition = (s.line l).pollPosition
            ∧ drop? t l (q l).drop = some e ∧ e.state = .unknown ∧ e.lastCause = .restore ∧ e.misses = 0 ∧ e.strikes = []
            ∧ e.room = 0 ∧ e.downBit = d.downBit ∧ e.upBit = d.upBit
            ∧ (∀ a, a ∈ List.range' 1 16 → a ≠ (q l).drop → drop? t l a = drop? (recomputeLamps s) l a)
            ∧ (s.journal.state = .writing → s.area.memoryFault = false → s.journal.pending.length < 64 →
              t.journal.pending = s.journal.pending ++ [{ blankRecord .dropState with
                tick := s.tickCount, line := some l, drop := (q l).drop, detail1 := 4 * 256 + 1
                detail2 := DropCause.restore.code }])))
  ∧ (∀ (n : Line) (i : Nat), (dropMask n).testBit i = true ↔
      ∃ d, n.drops[i]? = some d ∧ d.kind ≠ .unused ∧ d.state ≠ .isolated)
  ∧ (∀ mask, mask < 65536 → let f := restartFrameBytes mask
      f.length = 10 ∧ f.take 3 = [0xC3, 0x5A, 0] ∧ byteAt f 3 % 4 = 2 ∧ byteAt f 5 = 0 ∧ le16 f 6 = mask)
  ∧ ∀ (s : State) (l : LineId),
    let r := coldRestart l s
    (r.1.line l).state = .restarting ∧ (r.1.line l).phase = .breaking ∧ (r.1.line l).restart = none
      ∧ (∀ o, l ≠ o → r.1.line o = s.line o) ∧ r.1.attention = s.attention ∧ r.1.calls = s.calls ∧ r.1.dispatcher = s.dispatcher
      ∧ r.2 = (List.range' 1 16).flatMap (fun a => ((drop? s l a).toList.filter fun d => d.state = .ready).flatMap fun d =>
        (d.inFlight ++ d.queue).map (Task.handBack l a))
      ∧ ∀ a d, a ∈ List.range' 1 16 → drop? s l a = some d → ∃ e, drop? r.1 l a = some e
        ∧ e.state = (if d.state ∈ [.ready, .silent, .isolated] then .unknown else d.state)
        ∧ (d.state ∈ [.ready, .silent, .isolated] → e.lastCause = .coldRestart ∧ e.dirty = true)
        ∧ (d.state = .ready → e.inFlight = [] ∧ e.queue = [])
        ∧ (d.kind ≠ .unused → e.misses = 0 ∧ e.strikes = [] ∧ e.room = 0 ∧ e.replyTimeout = 0 ∧ e.countdown = 0
          ∧ e.downBit = false ∧ e.upBit = true)

/-- R176, R177, R23, R169: what the heartbeat value of a scan's header read does, with supervision on: a changed value ends the stale
count, and with the server lost it is SERVER BACK, recorded, which ends a live fallback call WITHDRAWN; an unchanged one steps the count,
and at the limit the server is lost: the fallback call opens in context 64 and enters rung 0 of ladder 0, and SERVER LOST is recorded with
the limit and that call's tag. That the tag is shown also where the fallback call ends at once is the model's choice (log 69): the step is
said where its first rung is a beacon rung with a servable zone, on which the call stays. That the context of a call that SERVER BACK ends is
cleared of more than R20 names is the model's choice as well (log 1). With supervision off the value does nothing. -/
def Obligations.HeartbeatIsJudgedAtEachScan : Prop :=
  (∀ (s : State) (x : Transaction AreaOp) (data : List Byte), s.agenda = [] → s.engine = .running ∨ s.engine = .paused →
    s.area.bus = some x → x.op = .scanHeader → s.area.scanEnding = false → heartbeatLimit s ≠ 0 → s.calls.contexts.length = 65 →
    let f := readServerFields data 0
    f.generation = s.area.takenGeneration → f.request0.number = s.line0.takenRequest →
    f.request1.number = s.line1.takenRequest → f.restart = s.area.takenRestart → 0 < s.area.directory.slots.count →
    let limit := heartbeatLimit s
    let old := context s 64
    let tag := old.reuse * 128 + 64
    let goesOn : State → Prop := fun t => exec (.scanHeaderReadDone data) s = .next t ∧ t.area.server = f
      ∧ t.area.bus = some (readTransaction (.slotHost 0) [(areaBase s + s.area.directory.slots.offset, 64)])
    let room : Prop := s.journal.state = .writing ∧ s.area.memoryFault = false ∧ s.journal.pending.length + 3 ≤ 64
    let backRecord : JournalRecord := { blankRecord .serverBack with tick := s.tickCount, detail1 := f.heartbeat.toNat % 65536 }
    let backState : State := { s with
      watch := { s.watch with stale := 0, last := f.heartbeat, serverLost := false }
      attention := { s.attention with event := s.attention.event ||| BitVec.twoPow 14 9 } }
    (f.heartbeat ≠ s.watch.last → s.watch.serverLost = false →
      ∃ t : State, goesOn t ∧ t.watch = { s.watch with stale := 0, last := f.heartbeat } ∧ t.calls = s.calls
        ∧ t.roster = s.roster ∧ t.attention = s.attention ∧ t.journal = s.journal)
    ∧ (f.heartbeat ≠ s.watch.last → s.watch.serverLost = true → old.state = .free →
      ∃ t : State, goesOn t ∧ t.watch = backState.watch ∧ t.calls = s.calls ∧ t.attention = backState.attention
        ∧ (room → t.journal.pending = s.journal.pending ++ [backRecord]))
    ∧ (f.heartbeat ≠ s.watch.last → s.watch.serverLost = true → old.state ≠ .free → s.calls.backlog = [] →
      ∃ t : State, goesOn t ∧ isEndedAfter backState t 64 .withdrawn .withdrawn
        ∧ (room → ∃ rest, t.journal.pending = s.journal.pending ++ backRecord :: rest))
    ∧ (f.heartbeat = s.watch.last → s.watch.serverLost = true →
      ∃ t : State, goesOn t ∧ t.watch = s.watch ∧ t.calls = s.calls ∧ t.attention = s.attention ∧ t.journal = s.journal)
    ∧ (f.heartbeat = s.watch.last → s.watch.serverLost = false → s.watch.stale + 1 < limit →
      ∃ t : State, goesOn t ∧ t.watch = { s.watch with stale := s.watch.stale + 1 } ∧ t.calls = s.calls
        ∧ t.roster = s.roster ∧ t.attention = s.attention ∧ t.journal = s.journal)
    ∧ (f.heartbeat = s.watch.last → s.watch.serverLost = false → limit ≤ s.watch.stale + 1 → old.state = .free →
      let l := ladderOf s.roster.tables 0
      (l.rung 0).kind ∈ [4, 5] → (∃ z ∈ enabledZones s.roster.tables, zoneServable s z = true) →
      ∃ t : State, goesOn t ∧ t.watch = { s.watch with stale := s.watch.stale + 1, serverLost := true }
        ∧ (let k := context t 64
          k.state = .paging ∧ k.slot = none ∧ k.callNumber = 0 ∧ k.zone = 0 ∧ k.severity = 1 ∧ k.ladder = 0 ∧ k.tag = tag
            ∧ k.rung = 0 ∧ k.pass = 0 ∧ k.text = "ALARM SERVER LOST".toList.map (fun a => BitVec.ofNat 8 a.toNat)
            ∧ k.admitTick = s.tickCount ∧ k.deadline.active = true ∧ k.contacted = [])
        ∧ (∀ d, d ≠ 64 → context t d = context s d) ∧ t.calls.backlog = s.calls.backlog
        ∧ t.attention = { s.attention with event := s.attention.event ||| BitVec.twoPow 14 8
            ||| (if l.stopRung = some 0 then BitVec.twoPow 14 2 else 0) }
        ∧ (room → ∃ rungs, rungs.map JournalRecord.kind = [.admitted, .rungEntered] ∧
          t.journal.pending = s.journal.pending ++ rungs ++ [{ blankRecord .serverLost with
            tick := s.tickCount, detail1 := limit, detail2 := tag }])))
  ∧ (∀ (s : State) (v : Word), heartbeatLimit s ≠ 0 → v = s.watch.last → s.watch.serverLost = false →
    heartbeatLimit s ≤ s.watch.stale + 1 → (context s 64).state = .free → s.calls.contexts.length = 65 →
    (heartbeat v s).2 = [.enterRung 64 0, .submitServerLost (some ((context s 64).reuse * 128 + 64))])
  ∧ ∀ (s : State) (v : Word),
    let t := (heartbeat v s).1
    (heartbeatLimit s = 0 → t = s)
    ∧ (heartbeatLimit s ≠ 0 → v ≠ s.watch.last → t.watch = { s.watch with stale := 0, last := v, serverLost := false }
      ∧ t.attention.event = s.attention.event ||| (if s.watch.serverLost then BitVec.twoPow 14 9 else 0) ∧ t.calls = s.calls)
    ∧ (heartbeatLimit s ≠ 0 → v = s.watch.last → s.watch.serverLost = true → t = s)
    ∧ (heartbeatLimit s ≠ 0 → v = s.watch.last → s.watch.serverLost = false → s.watch.stale + 1 < heartbeatLimit s →
      t = { s with watch := { s.watch with stale := s.watch.stale + 1 } })
    ∧ (heartbeatLimit s ≠ 0 → v = s.watch.last → s.watch.serverLost = false → heartbeatLimit s ≤ s.watch.stale + 1 →
      countsOk s → t.watch = { s.watch with stale := s.watch.stale + 1, serverLost := true }
        ∧ t.attention.event = s.attention.event ||| BitVec.twoPow 14 8 ∧ (context t 64).live = true
        ∧ ((context s 64).state = .free → (context t 64).severity = 1 ∧ (context t 64).zone = 0 ∧ (context t 64).ladder = 0
          ∧ (context t 64).slot = none))

/-- R158, R159, R46, R75 to R79: each of the three reads of a reload completes: the table directory, the tables it names, and the table
generation a second time; that it reads the tables also where the directory fails a check, and is refused after the last read, is the
model's reading (log 25). A second value that differs defers the reload, a read set that fails a check is refused, and neither changes the
tables; a set that passes is loaded, with its generation taken and loaded and ENGINE CHANGE raised. Each submits its record (the table
that a refused directory names: log 59, and log 84 where the regions of several fail). With every context FREE a loaded one goes on to the
first slot at once, as the other two do; with live calls it goes on by the work that it sets off. Loading brings the member records and
the rotation pointers to the new tables, hands the losses of current marks to the contexts in ascending number, and then adjusts every
live call: that these are the calls which hold a context, a WAITING one at its admission, is the model's choice (log 88), and that the
members of a context lose their marks in ascending roster index, all before that context's rung tests, is the model's reading (log 33). A
member who loses the mark loses the break-in mark and the queued pages with it, and is sent a CANCEL at the pager held before. A call
whose ladder cannot be walked is given ladder 0, a pass count is lowered to the repeat limit, a PAGING or HELD call past the effective
last rung moves past it, and an ACCEPTED or ON SITE one has its rung and accept rung lowered to it. -/
def Obligations.ReloadReadsAreSettledByTheSecondGeneration : Prop :=
  (∀ (s : State) (x : Transaction AreaOp), s.agenda = [] → s.engine = .running ∨ s.engine = .paused →
    s.area.scanEnding = false → s.area.bus = some x →
    (∀ data, x.op = .reloadDirectory →
      ∃ t : State, exec (.reloadDirectoryReadDone data) s = .next t
        ∧ t.area.tableDirectory = readTableDirectory data 0 ∧ t.area.bus.map (·.op) = some .reloadTables
        ∧ t.roster = s.roster ∧ t.calls = s.calls ∧ t.attention = s.attention)
    ∧ (∀ z c l r, x.op = .reloadTables →
      ∃ t : State, exec (.reloadTablesReadDone z c l r) s = .next t
        ∧ t.area.stagedTables = some (readTables s.area.tableDirectory z c l r)
        ∧ t.area.bus = some (readTransaction .reloadGeneration [(areaBase s + 0x54, 4)])
        ∧ t.roster = s.roster ∧ t.calls = s.calls ∧ t.attention = s.attention)
    ∧ (∀ g new, x.op = .reloadGeneration → s.area.stagedTables = some new →
      s.area.server.request0.number = s.line0.takenRequest → s.area.server.request1.number = s.line1.takenRequest →
      s.area.server.restart = s.area.takenRestart → 0 < s.area.directory.slots.count →
      let first := s.area.server.generation
      let goesOn : State → Prop := fun t => exec (.reloadGenerationReadDone g) s = .next t ∧ t.area.stagedTables = none
        ∧ t.area.bus = some (readTransaction (.slotHost 0) [(areaBase s + s.area.directory.slots.offset, 64)])
      let records : State → JournalRecord → Prop := fun t r => s.journal.state = .writing → s.area.memoryFault = false →
        s.journal.pending.length < 64 → t.journal.pending = s.journal.pending ++ [{ r with tick := s.tickCount, callNumber := first }]
      (g ≠ first → ∃ t : State, goesOn t ∧ t.roster = s.roster ∧ t.area.takenGeneration = s.area.takenGeneration
        ∧ t.area.loadedGeneration = s.area.loadedGeneration ∧ t.calls = s.calls ∧ t.attention = s.attention
        ∧ records t { blankRecord .reloadDeferred with detail1 := g.toNat % 65536, detail2 := g.toNat / 65536 })
      ∧ (∀ e, g = first → reloadError s new = some e →
        ∃ t : State, goesOn t ∧ t.roster = s.roster ∧ t.area.takenGeneration = g
          ∧ t.area.loadedGeneration = s.area.loadedGeneration ∧ t.calls = s.calls ∧ t.attention = s.attention
          ∧ records t { blankRecord .reloadRefused with detail1 := e.1.code, detail2 := e.2 })
      ∧ (g = first → reloadError s new = none → (∀ k ∈ s.calls.contexts, k.state = .free ∧ k.contacted = []) →
        ∃ t : State, goesOn t ∧ t.roster.tables = new ∧ t.roster.settings = s.roster.settings ∧ t.area.takenGeneration = g
          ∧ t.area.loadedGeneration = g ∧ t.roster.pointers.length = new.crews.length
          ∧ t.attention = { s.attention with event := s.attention.event ||| BitVec.twoPow 14 12 }
          ∧ records t { blankRecord .tablesLoaded with
            zone := new.zones.length, member := some new.roster.length
            detail1 := new.crews.length, detail2 := new.ladders.length })))
  ∧ (∀ (s : State) (x : Transaction AreaOp) (g : Word) (new : Tables), s.area.scanEnding = false → s.area.bus = some x →
    x.op = .reloadGeneration → s.area.stagedTables = some new → g = s.area.server.generation → reloadError s new = none →
    let old := s.roster.tables
    let pager := effectivePager old
    let losses : Nat → List (Nat × Nat × FixedRoute) := fun c => ((List.range 512).filter fun m => (context s c).isCurrent m
      && onDuty old m && (!onDuty new m || pager m != effectivePager new m)).map fun m => (m, pager m, routeOf s m)
    ∃ u : State, exec (.reloadGenerationReadDone g) s = .next (finish (u,
        ((List.range 65).filter fun c => losses c != []).map (fun c => Task.reloadLosses c (losses c))
          ++ (List.range 65).map Task.reloadAdjust
          ++ [.reloadDone, .lineRequest .l0, .lineRequest .l1, .journalRestart, .scanSlot 0]))
      ∧ u = { s with
          area := { s.area with bus := none, stagedTables := none }
          roster := { s.roster with tables := new, members := u.roster.members, pointers := u.roster.pointers }
          calls := { s.calls with contexts := s.calls.contexts.map fun k => { k with reloaded := k.live } } }
      ∧ (∀ m, m < s.roster.members.length → ∃ dirty touched, member u m = { member s m with
          lastZone := if pager m = effectivePager new m then (member s m).lastZone else none
          lastTick := if pager m = effectivePager new m then (member s m).lastTick else 0
          offDutyPending := (member s m).engaged.isSome && !onDuty new m, dirty := dirty, touched := touched })
      ∧ u.roster.pointers.length = new.crews.length
      ∧ ∀ i, i < new.crews.length → u.roster.pointers[i]? =
        some (if s.roster.pointers.getD i 0 < (crewList new i).length then s.roster.pointers.getD i 0 else 0))
  ∧ (∀ (s : State) (c : Nat) (members : List (Nat × Nat × FixedRoute)), (members.map (·.1)).Nodup → s.dispatcher.ok →
    let k := context s c
    let r := reloadLosses c members s
    let lost : Nat → Prop := fun m => m ∈ members.map (·.1) ∧ k.isCurrent m = true
    perform (.reloadLosses c members) s = r
    ∧ r.2 = ((members.map (·.1)).filter k.isCurrent).map (Task.lostMark c)
    ∧ (∀ m e, k.contact m = some e → (lost m → (context r.1 c).contact m = some { e with
          current := false, remind := .stopped, breakIn := false, cancelled := true })
        ∧ (¬lost m → (context r.1 c).contact m = some e))
    ∧ (∀ m, (lost m → (member r.1 m).paged = (member s m).paged - 1) ∧ (¬lost m → member r.1 m = member s m))
    ∧ (∀ m, lost m → ∀ kind ∈ [DeliveryKind.page, .remind], deliveryOf r.1 { tag := k.tag, member := m, kind := kind } = none)
    ∧ (s.journal.state = .writing → s.area.memoryFault = false → s.journal.pending.length + members.length ≤ 64 →
      ∀ p ∈ members, lost p.1 → isQueuedOrDropped r.1 .cancel k.tag p.1 p.2.1)
    ∧ (∀ d, d ≠ c → context r.1 d = context s d) ∧ r.1.calls.backlog = s.calls.backlog ∧ r.1.attention = s.attention)
  ∧ ∀ (s : State) (c : Nat),
    let k := context s c
    let ladder := if ladderUsable s.roster.tables k.ladder then k.ladder else 0
    let l := ladderOf s.roster.tables ladder
    let kept : Context := { k with ladder := ladder, pass := min k.pass l.repeatLimit }
    let r := reloadAdjust c s
    perform (.reloadAdjust c) s = r
    ∧ (k.state = .free → r = (s, []))
    ∧ (k.state ∈ [.paging, .held] → k.rung ≤ l.effectiveLast → context r.1 c = kept ∧ r.2 = [])
    ∧ (k.state = .held → l.effectiveLast < k.rung → context r.1 c = kept ∧ r.2 = [.pastLast c])
    ∧ (k.state = .paging → l.effectiveLast < k.rung → r.2 = [.pastLast c] ∧ context r.1 c = { kept with
        deadline := .stopped, turn := .stopped, mode := .none, turnMember := none
        contacted := k.contacted.map fun e => if k.isCurrent e.member then { e with current := false, remind := .stopped } else e })
    ∧ (k.state ∈ [.accepted, .onSite] → r.2 = [] ∧ context r.1 c = { kept with
        rung := min k.rung l.effectiveLast, acceptRung := min k.acceptRung l.effectiveLast })
    ∧ (∀ i, k.state ≠ .free → k.slot = some i → i < s.area.slots.length → (slotImage r.1 i).pass = min k.pass l.repeatLimit
      ∧ (slotImage r.1 i).rung = (context r.1 c).rung ∧ (slotImage r.1 i).state = k.state.toSlot)
    ∧ (k.state ≠ .free → s.journal.state = .writing → s.area.memoryFault = false → s.journal.pending.length < 64 →
      r.1.journal.pending = s.journal.pending ++ (if ladderUsable s.roster.tables k.ladder then []
        else [{ callRecord .ladderSubstituted k with tick := s.tickCount, detail1 := k.ladder }]))
    ∧ (∀ d, d ≠ c → context r.1 d = context s d) ∧ r.1.calls.backlog = s.calls.backlog ∧ r.1.attention = s.attention
    ∧ r.1.roster.tables = s.roster.tables

/-- R5 to R11, R13 to R18: the host part of a slot, as a scan reads it. With both numbers as taken, or a new request in an EMPTY slot, nothing
happens but the next read. A new post in a slot with no live call is REJECTED, with its record, where it fails a check: severity, zone,
and then the call number of a live call of another slot, a WAITING one included; where it is valid it is admitted into the lowest FREE
context, with ladder 0 where its own is above 31 or beyond the table or has no rung, and enters rung 0, or, while PAUSED or with no
context of 0 to 63 FREE, waits in the backlog, before the first entry that is less severe, or as severe with a later take order number: a
backlog in that order stays in it while its numbers lie within half the range; that a number is the earlier one where the difference is
below half the range is the model's choice (log 90). A new post in a slot with a live call ends that call WITHDRAWN with SLOT LOST, and
the backlog head is tested before the post is. A new request has the result of its table, and one that gives BAD VALUE or WRONG STATE
changes nothing else: WITHDRAW and CLOSE end the call, RELEASE moves a HELD call on with its record, ADVANCE ends the running rung, RAISE
sets the present severity. ADVANCE ends a rung as its deadline does: the call enters HELD, or moves on, here where that comes to rest at
once. The cases that end a call are those with nobody waiting in the backlog. That a post takes the take order count as it is before its
step is the model's choice (log 80). What else a slot image keeps is its reading (log 30), and that the context of an ended call, and that
of one admitted, hold nothing else than R10 and R20 name is its choice (log 1). -/
def Obligations.SlotReadTakesPostsAndRequests : Prop :=
  (∀ (s : State) (x : Transaction AreaOp) (i : Nat) (data : List Byte), s.agenda = [] →
    s.engine = .running ∨ s.engine = .paused → s.area.scanEnding = false → s.area.bus = some x → x.op = .slotHost i →
    i < s.area.slots.length → i + 1 < s.area.directory.slots.count →
    let h := readHostPart data
    let old := slotImage s i
    let becomes : State → Prop := fun t => exec (.slotHostReadDone data) s = .next t ∧ t.area.bus = some
      (readTransaction (.slotHost (i + 1)) [(areaBase s + (s.area.directory.slots.offset + 128 * (i + 1)), 64)])
    let others : State → Prop := fun t => ∀ j, j ≠ i → slotImage t j = slotImage s j
    exec (.slotHostReadDone data) s = .next
      (finish ((takeHostPart i h (areaDone s)).1, (takeHostPart i h (areaDone s)).2 ++ [.scanSlot (i + 1)]))
    ∧ (h.postNumber = old.takenPost → h.requestNumber = old.takenRequest ∨ old.state = .empty →
      ∃ t : State, becomes t ∧ t.area.slots = s.area.slots ∧ t.calls = s.calls
        ∧ t.attention = s.attention ∧ t.journal = s.journal ∧ t.dispatcher = s.dispatcher)
    ∧ (∀ reason, h.postNumber ≠ old.takenPost → old.state.live = false → slotTaken s i = false →
      postError s i h = some reason →
      ∃ t : State, becomes t
        ∧ (slotImage t i).state = .rejected ∧ (slotImage t i).reason = reason ∧ (slotImage t i).endTick = s.tickCount
        ∧ (slotImage t i).tag = none ∧ (slotImage t i).accepter = none ∧ (slotImage t i).admitTick = 0
        ∧ (slotImage t i).takenPost = h.postNumber ∧ (slotImage t i).takenRequest = h.requestNumber
        ∧ (slotImage t i).dirty = true ∧ others t ∧ t.calls = s.calls
        ∧ t.attention = { s.attention with event := s.attention.event ||| 1 }
        ∧ (hasRoom s 1 → t.journal.pending = s.journal.pending ++ [{ blankRecord .rejected with
          tick := s.tickCount, zone := h.zone, slot := some i, callNumber := h.callNumber, origin := h.origin
          detail1 := reason.code }]))
    ∧ (h.postNumber ≠ old.takenPost → old.state.live = false → slotTaken s i = false → postError s i h = none →
      s.engine = .paused ∨ (∀ c, c < 64 → (context s c).state ≠ .free) →
      let usable := ladderUsable s.roster.tables h.ladder
      let w : Waiting := { slot := i, severity := h.severity, order := s.area.takeOrder, callNumber := h.callNumber, zone := h.zone
                           ladder := if usable then h.ladder else 0, origin := h.origin, text := h.text }
      let ofSlot : RecordKind → JournalRecord := fun kind => { blankRecord kind with
        tick := s.tickCount, zone := h.zone, slot := some i, callNumber := h.callNumber, origin := h.origin }
      ∃ t : State, becomes t ∧ t.calls = { s.calls with backlog := placeWaiting w s.calls.backlog }
        ∧ t.area.takeOrder = s.area.takeOrder + 1 ∧ others t ∧ t.attention = s.attention
        ∧ (let g := slotImage t i
          g.state = .waiting ∧ g.tag = none ∧ g.accepter = none ∧ g.rung = 0 ∧ g.pass = 0 ∧ g.admitTick = 0 ∧ g.acceptTick = 0
            ∧ g.arriveTick = 0 ∧ g.endTick = 0 ∧ g.reason = .none ∧ g.result = .none
            ∧ g.takenPost = h.postNumber ∧ g.takenRequest = h.requestNumber)
        ∧ (s.journal.state = .writing → s.area.memoryFault = false → s.journal.pending.length < 63 →
          t.journal.pending = s.journal.pending
            ++ (if usable then [] else [{ ofSlot .ladderSubstituted with detail1 := h.ladder }])
            ++ [{ ofSlot .waiting with detail1 := h.severity, detail2 := s.calls.backlog.length + 1 }]))
    ∧ (h.postNumber = old.takenPost → h.requestNumber ≠ old.takenRequest → old.state ≠ .empty →
      let answered : RequestResult → SlotImage := fun r =>
        { old with takenRequest := h.requestNumber, result := r, dirty := true, touched := true }
      let done : State → Prop := fun t => (slotImage t i).result = .done ∧ (slotImage t i).takenRequest = h.requestNumber
        ∧ others t
      (∀ r, h.requestCode = 0 ∧ r = .done ∨ 5 < h.requestCode ∧ r = .badValue
          ∨ h.requestCode = 1 ∧ old.state.live = false ∧ r = .wrongState
          ∨ h.requestCode = 2 ∧ contextOfSlot s i = none ∧ r = .wrongState
          ∨ h.requestCode = 3 ∧ (∀ c, contextOfSlot s i = some c → (context s c).state ≠ .held) ∧ r = .wrongState
          ∨ h.requestCode = 4 ∧ (∀ c, contextOfSlot s i = some c → (context s c).state ≠ .paging) ∧ r = .wrongState
          ∨ h.requestCode = 5 ∧ presentSeverity s i = none ∧ r = .wrongState
          ∨ h.requestCode = 5 ∧ (∃ p, presentSeverity s i = some p ∧ (h.requestValue = 0 ∨ p ≤ h.requestValue)) ∧ r = .badValue →
        ∃ t : State, becomes t ∧ slotImage t i = answered r ∧ others t ∧ t.calls = s.calls ∧ t.attention = s.attention
          ∧ t.journal = s.journal)
      ∧ (∀ c, s.calls.backlog = [] → contextOfSlot s i = some c →
        (h.requestCode = 1 → old.state.live = true →
          ∃ t : State, becomes t ∧ isEndedAfter s t c .withdrawn .withdrawn ∧ done t)
        ∧ (h.requestCode = 2 → ∃ t : State, becomes t ∧ isEndedAfter s t c .cleared .controlRoom ∧ done t)
        ∧ (h.requestCode = 3 → (context s c).state = .held →
          (callLadder s (context s c)).effectiveLast ≤ (context s c).rung →
          ¬repeatsOnce (callLadder s (context s c)) (context s c) →
          ∃ t : State, becomes t ∧ isEndedAfter s t c .exhausted .ladderExhausted ∧ done t))
      ∧ (∀ w, h.requestCode = 1 → old.state.live = true → contextOfSlot s i = none →
        s.calls.backlog.find? (fun v => v.slot == i) = some w →
        ∃ t : State, becomes t ∧ done t ∧ t.calls = { s.calls with backlog := s.calls.backlog.filter fun v => v.slot != i }
          ∧ (slotImage t i).state = .withdrawn ∧ (slotImage t i).reason = .withdrawn ∧ (slotImage t i).endTick = s.tickCount
          ∧ t.attention = { s.attention with event := s.attention.event ||| 1 }
          ∧ (hasRoom s 1 → t.journal.pending = s.journal.pending ++ [{ blankRecord .withdrawn with
            tick := s.tickCount, zone := w.zone, slot := some w.slot, callNumber := w.callNumber, origin := w.origin
            detail1 := Reason.withdrawn.code, detail2 := old.rung * 256 + old.pass }]))
      ∧ (∀ c, h.requestCode = 4 → contextOfSlot s i = some c → (context s c).state = .paging →
        (holdsAtEnd s c → ∃ t : State, becomes t ∧ done t ∧ isHeldAfter s t c)
        ∧ (¬holdsAtEnd s c → movesOnAtOnce s c →
          ∃ t : State, becomes t ∧ done t ∧ isMovedOnAfter s t c))
      ∧ (∀ c, h.requestCode = 5 → contextOfSlot s i = some c → h.requestValue ≠ 0 → h.requestValue < (context s c).severity →
        h.requestValue ≠ 1 ∨ (context s c).accepter = none →
        ∃ t : State, becomes t ∧ slotImage t i = answered .done ∧ others t ∧ t.calls = { s.calls with
            contexts := s.calls.contexts.modify c fun k => { k with severity := h.requestValue } }
          ∧ recomputeLamps t = t ∧ t.attention = s.attention ∧ t.journal = s.journal)
      ∧ (∀ w, h.requestCode = 5 → contextOfSlot s i = none → s.calls.backlog.find? (fun v => v.slot == i) = some w →
        h.requestValue ≠ 0 → h.requestValue < w.severity →
        ∃ t : State, becomes t ∧ slotImage t i = answered .done ∧ others t ∧ t.calls.contexts = s.calls.contexts
          ∧ t.calls.backlog = placeWaiting { w with severity := h.requestValue }
            (s.calls.backlog.filter fun v => v.slot != i)
          ∧ t.attention = s.attention ∧ t.journal = s.journal)))
  ∧ (∀ (s : State) (i : Nat) (h : HostPart), i < s.area.slots.length → h.postNumber ≠ (slotImage s i).takenPost →
    let r := takeHostPart i h s
    (slotImage r.1 i).takenPost = h.postNumber ∧ (slotImage r.1 i).takenRequest = h.requestNumber
    ∧ ((slotImage s i).state.live = false → r.2 = [.takePost i h] ∧ r.1.calls = s.calls ∧ r.1.attention = s.attention
      ∧ (slotImage r.1 i).state = (slotImage s i).state)
    ∧ (∀ c, (slotImage s i).state.live = true → contextOfSlot s i = some c →
      r.2 = [.admitHeads, .takePost i h] ∧ isEndedAfter s r.1 c .withdrawn .slotLost)
    ∧ ∀ w, (slotImage s i).state.live = true → contextOfSlot s i = none →
      s.calls.backlog.find? (fun v => v.slot == i) = some w →
      r.2 = [.takePost i h] ∧ r.1.calls = { s.calls with backlog := s.calls.backlog.filter fun v => v.slot != i }
        ∧ (slotImage r.1 i).state = .withdrawn ∧ (slotImage r.1 i).reason = .slotLost
        ∧ (slotImage r.1 i).endTick = s.tickCount
        ∧ r.1.attention = { s.attention with event := s.attention.event ||| 1 }
        ∧ (hasRoom s 1 → r.1.journal.pending = s.journal.pending ++ [{ blankRecord .withdrawn with
          tick := s.tickCount, zone := w.zone, slot := some w.slot, callNumber := w.callNumber, origin := w.origin
          detail1 := Reason.slotLost.code, detail2 := (slotImage s i).rung * 256 + (slotImage s i).pass }]))
  ∧ (∀ (s : State) (i c : Nat) (h : HostPart), i < s.area.slots.length → slotTaken s i = false → postError s i h = none →
    s.engine = .running → c < 64 → c < s.calls.contexts.length → (context s c).state = .free →
    (∀ d, d < c → (context s d).state ≠ .free) →
    let r := takePost i h s
    let ladder := if ladderUsable s.roster.tables h.ladder then h.ladder else 0
    let tag := (context s c).reuse * 128 + c
    let k : Context := { Context.empty with
      state := .paging, reuse := (context s c).reuse, slot := some i, callNumber := h.callNumber, zone := h.zone
      origin := h.origin, text := h.text, severity := h.severity, ladder := ladder, tag := tag, admitTick := s.tickCount }
    r.2 = [.enterRung c 0] ∧ context r.1 c = k ∧ (∀ d, d ≠ c → context r.1 d = context s d)
    ∧ r.1.calls.backlog = s.calls.backlog ∧ r.1.area.takeOrder = s.area.takeOrder + 1 ∧ r.1.attention = s.attention
    ∧ (let g := slotImage r.1 i
      g.state = .paging ∧ g.tag = some tag ∧ g.rung = 0 ∧ g.pass = 0 ∧ g.accepter = none ∧ g.site = .none
        ∧ g.admitTick = s.tickCount ∧ g.acceptTick = 0 ∧ g.arriveTick = 0 ∧ g.endTick = 0 ∧ g.reason = .none ∧ g.result = .none
        ∧ g.takenPost = (slotImage s i).takenPost)
    ∧ (∀ j, j ≠ i → slotImage r.1 j = slotImage s j)
    ∧ (s.journal.state = .writing → s.area.memoryFault = false → s.journal.pending.length < 63 →
      r.1.journal.pending = s.journal.pending
        ++ (if ladderUsable s.roster.tables h.ladder then [] else [{ blankRecord .ladderSubstituted with
          tick := s.tickCount, zone := h.zone, slot := some i, callNumber := h.callNumber, origin := h.origin
          detail1 := h.ladder }])
        ++ [{ blankRecord .admitted with
          tick := s.tickCount, zone := h.zone, slot := some i, tag := some tag, callNumber := h.callNumber, origin := h.origin
          detail1 := h.severity, detail2 := ladder }]))
  ∧ (∀ (s : State) (i : Nat) (h : HostPart),
    let severityOk : Prop := h.severity ∈ [1, 2, 3, 4]
    let zoneOk : Prop := h.zone = 0
      ∨ h.zone ∈ List.range' 1 24 ∧ ∃ z, s.roster.tables.zones[h.zone - 1]? = some z ∧ z.enabled = true
    let isDouble : Prop := (∃ k ∈ s.calls.contexts, k.state ≠ .free ∧ k.callNumber = h.callNumber ∧ ∃ j, k.slot = some j ∧ j ≠ i)
      ∨ ∃ w ∈ s.calls.backlog, w.callNumber = h.callNumber ∧ w.slot ≠ i
    (¬severityOk → postError s i h = some .badSeverity)
    ∧ (severityOk → ¬zoneOk → postError s i h = some .badZone)
    ∧ (severityOk → zoneOk → isDouble → postError s i h = some .duplicate)
    ∧ (severityOk → zoneOk → ¬isDouble → postError s i h = none))
  ∧ (∀ (tables : Tables) (n : Nat), ladderUsable tables n = true ↔ n ≤ 31 ∧ ∃ l, tables.ladders[n]? = some l ∧ 0 < l.rungCount)
  ∧ (∀ (w : Waiting) (l : List Waiting),
    let before : Waiting → Waiting → Prop := fun a b => a.severity < b.severity
      ∨ a.severity = b.severity ∧ 0 < (b.order - a.order).toNat ∧ (b.order - a.order).toNat < 2147483648
    (∃ front back, l = front ++ back ∧ placeWaiting w l = front ++ w :: back ∧ (∀ x ∈ front, ¬before w x)
      ∧ ∀ x, back.head? = some x → before w x)
    ∧ ∀ base : Word, (∀ x ∈ w :: l, (x.order - base).toNat < 2147483648) → (∀ x ∈ l, x.order ≠ w.order) →
      l.Pairwise before → (placeWaiting w l).Pairwise before)
  ∧ ∀ (s : State) (i c value : Nat), contextOfSlot s i = some c →
    ((context s c).state = .held →
      let r := settleRequest i 3 value s
      context r.1 c = { context s c with state := .paging }
      ∧ (hasRoom s 1 → r.1.journal.pending = s.journal.pending ++ [{ callRecord .released (context s c) with
        tick := s.tickCount, detail1 := (context s c).rung * 256 + (context s c).pass }])
      ∧ r.2 = [if (context s c).rung < (callLadder s (context s c)).effectiveLast then Task.enterRung c ((context s c).rung + 1)
          else .pastLast c])
    ∧ ((context s c).state = .paging → settleRequest i 4 value s = (setResult i .done s, [.endRung c]))
    ∧ ∀ m, (context s c).accepter = some m → 1 < (context s c).severity →
      let r := settleRequest i 5 1 s
      context r.1 c = { context s c with severity := 1 } ∧ r.2 = [.dropBreakIn m]

/-- R156, R163, R166, R167: step 6 of a scan, which follows the last slot. While the journal is STALLED with the memory-fault flag clear, the
awaited descriptor is read, or, with a close pending, its FULL write is made again; otherwise the scan goes on to its write step. A take
or a close of the journal's own, in flight, holds step 6 up, and so does the take that waits for the bytes of a given-up record; those
bytes themselves do not (the model's readings and choices: that a take holds the step up from its read on, log 27; that such bytes can be
on their way still, log 21; that a take waits for them, log 87). The awaited descriptor, once read: found EMPTY, it is taken; otherwise
the journal waits on. The scan then goes on to its write step. -/
def Obligations.DescriptorFoundEmptyIsTaken : Prop :=
  (∀ (s : State) (x : Transaction AreaOp) (i : Nat) (data : List Byte), s.agenda = [] → s.engine = .running ∨ s.engine = .paused →
    s.area.scanEnding = false → s.area.bus = some x → x.op = .slotHost i → i < s.area.slots.length →
    s.area.directory.slots.count ≤ i + 1 → (readHostPart data).postNumber = (slotImage s i).takenPost →
    (readHostPart data).requestNumber = (slotImage s i).takenRequest →
    let isHeldUp : Prop := ∃ y, s.journal.bus = some y ∧
      y.op ∈ [JournalOp.takeRead, .takeWrite, .closeWrite, .orphanBeforeTake]
    let awaited := areaBase s + (s.area.directory.descriptors.offset + 24 * s.journal.index)
    ∃ t : State, exec (.slotHostReadDone data) s = .next t
      ∧ (s.journal.state ≠ .stalled ∨ s.area.memoryFault = true ∨ isHeldUp →
        ∃ y, t.area.bus = some y ∧ y.reads = [] ∧ y.op.writeDone.isSome = true ∧ y.op ≠ .descriptorClose)
      ∧ (s.journal.state = .stalled → s.area.memoryFault = false → ¬isHeldUp →
        t.area.bus = some (if s.journal.closePending then writeTransaction .descriptorClose (awaited + 12) [2]
          else readTransaction .descriptorState [(awaited, 24)]))
      ∧ t.journal = s.journal ∧ t.calls = s.calls ∧ t.attention = s.attention)
  ∧ ∀ (s : State) (x : Transaction AreaOp) (data : List Byte), s.agenda = [] → s.engine = .running ∨ s.engine = .paused →
    s.area.scanEnding = false → s.area.bus = some x → x.op = .descriptorState → s.area.memoryFault = false →
    s.journal.state = .stalled → s.journal.bus = none →
    ∃ t : State, exec (.descriptorStateReadDone data) s = .next t
      ∧ (∃ y, t.area.bus = some y ∧ y.reads = [] ∧ y.op.writeDone.isSome = true)
      ∧ (byteAt data 12 ≠ 0 → t.journal = s.journal)
      ∧ (byteAt data 12 = 0 → t.journal = { s.journal with
          blockAddress := le64 data 0 / 32 * 32, capacity := max 4 (min 256 (le16 data 8)), fill := 0
          last := bitOf (byteAt data 10) 0, wrap := bitOf (byteAt data 10) 1, mark := bitOf (byteAt data 10) 2
          bus := some (writeTransaction .takeWrite (descriptorAt s s.journal.index + 12)
            [1, 0, 0, 0, BitVec.ofNat 8 s.journal.nextSequence, BitVec.ofNat 8 (s.journal.nextSequence / 256)]) })
      ∧ t.calls = s.calls ∧ t.attention = s.attention

/-- R2, R81, R157, R160, 12.2, 12.5, 12.6: the write step goes on in ascending order. A slot image, a member entry or a drop entry that is
written is clean unless it has changed since the write was built, and the next write is of the next dirty one of its kind, or else of the
first dirty one of the kind after it, through slots, members and drops, with the bytes of its layout at its address, a slot's echoes last,
and bits without a meaning 0 (the model's choice: log 86); while a take is outstanding the header shows the descriptor being taken (the
same: log 91); with nothing dirty left the header's device fields are written, which show IDLE in the final scan. A mirror that the server
has given no entries is passed over. -/
def Obligations.WriteStepGoesOnInOrder : Prop :=
  ∀ (s : State) (x : Transaction AreaOp), s.agenda = [] → s.engine = .running ∨ s.engine = .paused ∨ s.engine = .stopping →
    s.area.scanEnding = false → (s.engine = .stopping → s.area.finalScan = true) → s.area.bus = some x →
    let dir := s.area.directory
    let word : Word → List Byte := fun v => bytes32 v.toNat
    let at' : Nat → Option Drop := fun i => if i < 16 then drop? s .l0 (i + 1) else drop? s .l1 (i - 15)
    let slotWrite : Nat → Transaction AreaOp := fun i =>
      let g := slotImage s i
      let base := areaBase s + dir.slots.offset + 128 * i
      { op := .slotImage i, reads := []
        writes := cellsAt (base + 64) ([byteOf g.state.code, byteOf g.rung, byteOf g.pass, byteOf g.site.code]
          ++ bytes16 (g.tag.getD 0xFFFF) ++ bytes16 (g.accepter.getD 0xFFFF)
          ++ (match g.site with | .station l d => [if l = .l0 then 0 else 1, byteOf d] | _ => [0xFF, 0])
          ++ [byteOf g.reason.code, byteOf g.result.code]
          ++ word g.admitTick ++ word g.acceptTick ++ word g.arriveTick ++ word g.endTick)
          ++ cellsAt (base + 100) (List.replicate 28 0)
        lastWrites := cellsAt (base + 92) (word g.takenPost ++ word g.takenRequest) }
    let memberWrite : Nat → Transaction AreaOp := fun m =>
      let r := member s m
      { op := .memberEntry m, reads := []
        writes := cellsAt (areaBase s + (dir.memberMirror.offset + 16 * m))
          ([byteOf (memberState s m).code, byteOf (dutyReason s.roster.tables m).code, if r.offDutyPending then 1 else 0
            , byteOf r.paged] ++ bytes16 (r.engaged.getD 0xFFFF) ++ [byteOf (r.lastZone.getD 0), 0] ++ word r.lastTick
            ++ [0, 0, 0, 0])
        lastWrites := [] }
    let dropWrite : Nat → Drop → Transaction AreaOp := fun i d =>
      { op := .dropEntry i, reads := []
        writes := cellsAt (areaBase s + (dir.dropMirror.offset + 12 * i))
          ([byteOf d.kind.code, byteOf d.zone, byteOf d.state.code, byteOf d.lastCause.code] ++ bytes16 d.changes
            ++ bytes16 d.replyTimeout ++ bytes16 d.turnCount
            ++ (match d.station with | some t => [byteOf t.call.flag.code, byteOf t.attend.flag.code] | none => [0, 0]))
        lastWrites := [] }
    let headerWrite : Transaction AreaOp :=
      { op := .headerWrite, reads := []
        writes := cellsAt (areaBase s + 0x70) (word s.tickCount
          ++ [byteOf (if s.area.finalScan then EngineState.idle else s.engine).code, byteOf s.journal.state.code
            , byteOf s.journal.index, 0]
          ++ word s.line0.takenRequest ++ word s.line1.takenRequest
          ++ [byteOf s.line0.requestResult.code, byteOf s.line1.requestResult.code, 0, 0] ++ word s.area.loadedGeneration)
        lastWrites := [] }
    let dropDirty : Nat → Prop := fun i => dir.dropMirror.count = 32 ∧ i < 32 ∧ ∃ d, at' i = some d ∧ d.dirty = true
    let memberDirty : Nat → Prop := fun m => m < 512 ∧ m < dir.memberMirror.count ∧ (member s m).dirty = true
    let slotDirty : Nat → Prop := fun i => i < s.area.slots.length ∧ (slotImage s i).dirty = true
    let drops : Nat → State → Prop := fun start t =>
      (∀ i d, IsLeast { i | start ≤ i ∧ dropDirty i } i → at' i = some d → t.area.bus = some (dropWrite i d)
        ∧ ∃ e, (if i < 16 then drop? t .l0 (i + 1) else drop? t .l1 (i - 15)) = some e ∧ e.dirty = true ∧ e.touched = false)
      ∧ ((∀ i, start ≤ i → ¬dropDirty i) → t.area.bus = some headerWrite)
    let members : Nat → State → Prop := fun start t =>
      (∀ m, IsLeast { m | start ≤ m ∧ memberDirty m } m → t.area.bus = some (memberWrite m)
        ∧ (m < s.roster.members.length → member t m = { member s m with touched := false }))
      ∧ ((∀ m, start ≤ m → ¬memberDirty m) → drops 0 t)
    let slots : Nat → State → Prop := fun start t =>
      (∀ i, IsLeast { i | start ≤ i ∧ slotDirty i } i → t.area.bus = some (slotWrite i)
        ∧ slotImage t i = { slotImage s i with touched := false })
      ∧ ((∀ i, start ≤ i → ¬slotDirty i) → members 0 t)
    (∀ i, x.op = .slotImage i → i < s.area.slots.length →
      ∃ t : State, exec .slotImageWriteDone s = .next t ∧ (slotImage t i).dirty = (slotImage s i).touched ∧ slots (i + 1) t
        ∧ t.calls = s.calls ∧ t.attention = s.attention)
    ∧ (∀ m, x.op = .memberEntry m → m < s.roster.members.length →
      ∃ t : State, exec .memberEntryWriteDone s = .next t ∧ (member t m).dirty = (member s m).touched ∧ members (m + 1) t
        ∧ t.calls = s.calls ∧ t.attention = s.attention)
    ∧ ∀ i d, x.op = .dropEntry i → at' i = some d → i < 32 →
      ∃ t e, exec .dropEntryWriteDone s = .next t
        ∧ (if i < 16 then drop? t .l0 (i + 1) else drop? t .l1 (i - 15)) = some e ∧ e.dirty = d.touched ∧ drops (i + 1) t
        ∧ t.calls = s.calls ∧ t.attention = s.attention

/-- R155, R157, R162, R174: the write of the header's device fields ends a scan, whose timer is started anew, or the next scan begins
when nudge was pending; it ends STOPPING with the final scan: IDLE, with the lines and the journal OFF and the air queues and sets
discarded. A scan that completes without an error, begun after the memory-fault flag was set, clears the flag, and the journal then
writes the GAP of what it skipped; a flag set within the scan stays, with the journal as it was. -/
def Obligations.HeaderWriteEndsTheScan : Prop :=
  ∀ (s : State) (x : Transaction AreaOp), s.agenda = [] → s.area.bus = some x → x.op = .headerWrite →
    (s.area.finalScan = false → s.engine = .running ∨ s.engine = .paused →
      ∃ t : State, exec .headerDeviceWriteDone s = .next t ∧ t.engine = s.engine ∧ t.calls = s.calls
        ∧ (s.area.memoryFault = false → t.area.memoryFault = false ∧ t.attention = s.attention ∧ t.journal = s.journal)
        ∧ (s.area.memoryFault = true → s.area.faultInScan = true →
          t.area.memoryFault = true ∧ t.attention = s.attention ∧ t.journal = s.journal)
        ∧ (s.area.memoryFault = true → s.area.faultInScan = false → t.area.memoryFault = false
          ∧ (s.journal.state = .writing → s.journal.bus = none → s.journal.restartPending = false →
            s.journal.fill < s.journal.capacity → 0 < s.journal.skipped →
            t.attention = s.attention ∧ t.journal = { s.journal with bus := some (writeTransaction
              (.recordWrite (some s.journal.skipped)) (s.journal.blockAddress + 32 * s.journal.fill)
              (recordBytes { blankRecord .gap with tick := s.tickCount, detail1 := s.journal.skipped }
                s.journal.nextSequence)) }))
        ∧ (s.area.nudgePending = false → t.area.scanInFlight = false ∧ t.area.bus = none
          ∧ t.area.scanTimer = some (s.tickCount + BitVec.ofNat 32 s.roster.settings.scanPeriod))
        ∧ (s.area.nudgePending = true → t.area.scanInFlight = true ∧ t.area.nudgePending = false
          ∧ t.area.bus = some (readTransaction .scanHeader [(areaBase s + 0x50, 32)])))
    ∧ (s.area.finalScan = true → s.engine = .stopping →
      ∃ t : State, exec .headerDeviceWriteDone s = .next t ∧ t.engine = .idle ∧ t.area.bus = none
        ∧ t.area.scanInFlight = false ∧ t.area.finalScan = false
        ∧ t.line0.state = .off ∧ t.line1.state = .off ∧ t.journal.state = .off ∧ t.journal.pending = []
        ∧ (∀ d ∈ t.line0.drops ++ t.line1.drops, d.queue = [] ∧ d.inFlight = [])
        ∧ t.attention = { s.attention with event := s.attention.event ||| BitVec.twoPow 14 12 }
        ∧ t.area.memoryFault = (s.area.memoryFault && s.area.faultInScan)
        ∧ t.tickCount = s.tickCount ∧ t.calls = s.calls)

/-! ## The journal (chapter 10) -/

/-- R163, R164, R168: the take of a descriptor. Read as EMPTY, its block, capacity and flags are kept and the FILLING write follows, with fill
count 0 and the first sequence number. Read as anything else it leaves the journal STALLED, with JOURNAL STALLED raised and the pending
records skipped. The completed FILLING write leaves the journal WRITING, with its next write the GAP of the skipped count, or else the
first pending record. A restart that waits while a take is made is settled as the take settles: from STALLED with the take of descriptor
0, or, with a close pending, with its close followed by descriptor 0; and from WRITING with the close of the block just taken, at fill
position 0, followed by descriptor 0. What is the model's reading or choice: that JOURNAL STALLED is raised also where a restart in
STALLED or ENDED began the take, in which the journal keeps its state until the take settles (log 28); that the restart waits from the
read of the take on, and through it where it finds EMPTY (log 21); that a take waits for the bytes of a given-up record to end (log 87);
and that the descriptor index is that of a descriptor from the beginning of its take on (log 91). -/
def Obligations.TakingADescriptor : Prop :=
  ∀ (s : State) (x : Transaction JournalOp), s.agenda = [] → s.engine ≠ .stopping → s.area.memoryFault = false →
    s.journal.bus = some x →
    let takeAt : Nat → Transaction JournalOp := fun i => readTransaction .takeRead [(descriptorAt s i, 24)]
    let stalled : Journal := { s.journal with
      state := .stalled, bus := none, pending := [], skipped := min 65535 (s.journal.skipped + s.journal.pending.length) }
    (∀ data, x.op = .takeRead → byteAt data 12 = 0 →
      ∃ t : State, exec (.descriptorTakeReadDone data) s = .next t ∧ t.journal = { s.journal with
          blockAddress := le64 data 0 / 32 * 32, capacity := max 4 (min 256 (le16 data 8)), fill := 0
          last := bitOf (byteAt data 10) 0, wrap := bitOf (byteAt data 10) 1, mark := bitOf (byteAt data 10) 2
          bus := some (writeTransaction .takeWrite (descriptorAt s s.journal.index + 12)
            [1, 0, 0, 0, BitVec.ofNat 8 s.journal.nextSequence, BitVec.ofNat 8 (s.journal.nextSequence / 256)]) }
        ∧ t.attention = s.attention ∧ t.area = s.area ∧ t.calls = s.calls)
    ∧ (∀ data, x.op = .takeRead → byteAt data 12 ≠ 0 →
      ∃ t : State, exec (.descriptorTakeReadDone data) s = .next t
        ∧ t.attention = { s.attention with event := s.attention.event ||| BitVec.twoPow 14 7 }
        ∧ (s.journal.restartPending = false → t.journal = stalled)
        ∧ (s.journal.restartPending = true → t.journal = if s.journal.closePending
          then { stalled with restartPending := false, closeThenZero := true }
          else { stalled with restartPending := false, index := 0, bus := some (takeAt 0) })
        ∧ t.area = s.area ∧ t.calls = s.calls)
    ∧ (x.op = .takeWrite → s.journal.restartPending = false → s.journal.fill < s.journal.capacity →
      ∃ t : State, exec .descriptorTakeWriteDone s = .next t
        ∧ t.journal = { s.journal with state := .writing, bus := t.journal.bus }
        ∧ (0 < s.journal.skipped → t.journal.bus = some (writeTransaction (.recordWrite (some s.journal.skipped))
          (s.journal.blockAddress + 32 * s.journal.fill) (recordBytes { blankRecord .gap with
            tick := s.tickCount, detail1 := s.journal.skipped } s.journal.nextSequence)))
        ∧ (s.journal.skipped = 0 → ∀ r rest, s.journal.pending = r :: rest →
          t.journal.bus = some (writeTransaction (.recordWrite none)
            (s.journal.blockAddress + 32 * s.journal.fill) (recordBytes r s.journal.nextSequence)))
        ∧ (s.journal.skipped = 0 → s.journal.pending = [] → t.journal.bus = none)
        ∧ t.attention = s.attention ∧ t.area = s.area ∧ t.calls = s.calls)
    ∧ (x.op = .takeWrite → s.journal.restartPending = true →
      ∃ t : State, exec .descriptorTakeWriteDone s = .next t ∧ t.journal = { s.journal with
          state := .writing, restartPending := false, closeThenZero := true
          bus := some (writeTransaction .closeWrite (descriptorAt s s.journal.index + 12) [2]) }
        ∧ t.attention = s.attention ∧ t.area = s.area ∧ t.calls = s.calls)
    ∧ (x.op = .orphanBeforeTake →
      ∃ t : State, exec .journalRecordWriteDone s = .next t
        ∧ t.journal = { s.journal with bus := some (takeAt s.journal.index) }
        ∧ t.attention = s.attention ∧ t.area = s.area ∧ t.calls = s.calls)

/-- R165, R166: a record that is written takes two writes, its 32 bytes and then the fill count; with the second the sequence number and the
fill position step and the record leaves the pending list, or a GAP lowers the skipped count by what it carried. What follows a write: the
close of a block that is full, or else the GAP of a skipped count, or else the head of the pending list. A record that is submitted joins
the tail of the list, with the tick of its event; it is skipped and counted, up to 65,535, where the list holds 64, in any state but
WRITING, and while the memory-fault flag is set; and a journal in WRITING with no transaction in progress goes on in the same order at
once, so that a record submitted to an idle one begins its write. R165 has the count return to 0 when a GAP is written: that what is
skipped while the GAP is on its way stays counted, by lowering it, is the model's reading (log 20). A full block that meets a submission
with no transaction in progress, or a skipped count, is closed before the GAP (the model's choice: log 78). -/
def Obligations.RecordsAreWrittenOneAtATime : Prop :=
  let goesOnWith : State → Journal → Option (Transaction JournalOp) := fun s j =>
    let record : Option Nat → JournalRecord → Transaction JournalOp := fun gap r =>
      writeTransaction (.recordWrite gap) (j.blockAddress + 32 * j.fill) (recordBytes r j.nextSequence)
    if j.capacity ≤ j.fill then some (writeTransaction .closeWrite (descriptorAt s j.index + 12) [2])
    else if 0 < j.skipped then
      some (record (some j.skipped) { blankRecord .gap with tick := s.tickCount, detail1 := j.skipped })
    else j.pending.head?.map (record none)
  (∀ (s : State) (x : Transaction JournalOp), s.agenda = [] → s.engine ≠ .stopping → s.area.memoryFault = false →
    s.journal.restartPending = false → s.journal.state = .writing → s.journal.bus = some x →
    (∀ g, x.op = .recordWrite g →
      ∃ t : State, exec .journalRecordWriteDone s = .next t ∧ t.journal = { s.journal with
          bus := some (writeTransaction (.fillWrite g) (descriptorAt s s.journal.index + 14)
            [BitVec.ofNat 8 (s.journal.fill + 1), BitVec.ofNat 8 ((s.journal.fill + 1) / 256)]) }
        ∧ t.attention = s.attention ∧ t.area = s.area ∧ t.calls = s.calls)
    ∧ (∀ g, x.op = .fillWrite g →
      let left : Journal := { s.journal with
        nextSequence := (s.journal.nextSequence + 1) % 65536, fill := s.journal.fill + 1
        pending := if g.isSome then s.journal.pending else s.journal.pending.tail
        skipped := s.journal.skipped - g.getD 0 }
      ∃ t : State, exec .fillCountWriteDone s = .next t ∧ t.journal = { left with bus := goesOnWith s left }
        ∧ t.attention = s.attention ∧ t.area = s.area ∧ t.calls = s.calls))
  ∧ ∀ (s : State) (r : JournalRecord),
    let skips : Prop := s.journal.state ≠ .writing ∨ s.area.memoryFault = true ∨ 64 ≤ s.journal.pending.length
    let left : Journal := if skips then { s.journal with skipped := min 65535 (s.journal.skipped + 1) }
      else { s.journal with pending := s.journal.pending ++ [{ r with tick := s.tickCount }] }
    let isFree : Prop := s.journal.state = .writing ∧ s.area.memoryFault = false ∧ s.journal.bus = none
    submit r s = { s with journal := if isFree then { left with bus := goesOnWith s left } else left }

/-- R166, R167, R168: the completed close raises JOURNAL MARK when the descriptor has MARK, and the successor is taken: the next descriptor,
or descriptor 0 where WRAP is set at the end of the chain; with no successor the journal is ENDED, its pending records skipped. So it is
with the close that scan step 6 makes again, with which the scan goes on to its write step; a take that follows it waits for the bytes of
a given-up record to end (the model's choice: log 87), and the descriptor index is the successor's from the beginning of the take on (the
same: log 91). With the memory-fault flag set the journal is left STALLED at the descriptor it would have taken (log 22). A close that a
restart asked for is followed by descriptor 0; a restart that waits for an ordinary close takes descriptor 0 in the successor's place, or
from ENDED (log 21). And what a restart request does in each journal state: in WRITING it closes the block at its present fill position,
in STALLED and in ENDED it takes descriptor 0, or has it follow the close that is pending; and while the memory-fault flag is set it
begins no transaction and leaves the journal STALLED. One that meets a take or a close waits for it; one that meets the bytes of a record
or GAP gives them up, with the record pending and the skipped count as it was, and the block is closed before them. That the close begins
as those bytes end, that a request meeting a fill-count write lets it complete, with the record written, since the close leaves the fill
count of the descriptor alone (12.7), and that a take is met from its read on, is the model's reading (log 21), as is what the flag does
(log 22), and that a restart in ENDED leaves it ENDED until its take settles (log 28). -/
def Obligations.ClosingABlockTakesTheSuccessor : Prop :=
  (∀ (s : State) (x : Transaction JournalOp), s.agenda = [] → s.engine ≠ .stopping → s.area.memoryFault = false →
    areaCloses s = false → s.journal.bus = some x → x.op = .closeWrite →
    let atEnd : Prop := s.journal.last = true ∨ s.area.directory.descriptors.count ≤ s.journal.index + 1
    let toZero : Prop := s.journal.closeThenZero = true ∨ s.journal.restartPending = true
    ∃ t : State, exec .descriptorCloseWriteDone s = .next t
      ∧ t.attention.event = s.attention.event ||| (if s.journal.mark then BitVec.twoPow 14 6 else 0)
      ∧ t.journal.restartPending = false ∧ t.journal.closeThenZero = false
      ∧ (¬atEnd ∨ s.journal.wrap = true ∨ s.journal.closeThenZero = true →
        t.journal.state = .writing ∧ t.journal.pending = s.journal.pending ∧ t.journal.skipped = s.journal.skipped
        ∧ (¬atEnd → ¬toZero → t.journal.index = s.journal.index + 1) ∧ (atEnd ∨ toZero → t.journal.index = 0)
        ∧ t.journal.bus = some (readTransaction .takeRead [(descriptorAt s t.journal.index, 24)]))
      ∧ (atEnd → s.journal.wrap = false → s.journal.closeThenZero = false → t.journal.state = .ended ∧ t.journal.pending = []
        ∧ t.journal.skipped = min 65535 (s.journal.skipped + s.journal.pending.length)
        ∧ (s.journal.restartPending = false → t.journal.bus = none)
        ∧ (s.journal.restartPending = true → t.journal.index = 0
          ∧ t.journal.bus = some (readTransaction .takeRead [(descriptorAt s 0, 24)])))
      ∧ t.area = s.area ∧ t.calls = s.calls)
  ∧ (∀ (s : State) (x : Transaction JournalOp), s.agenda = [] → s.engine ≠ .stopping → s.area.memoryFault = true →
    areaCloses s = false → s.journal.bus = some x → x.op = .closeWrite → s.journal.state = .writing →
    let atEnd : Prop := s.journal.last = true ∨ s.area.directory.descriptors.count ≤ s.journal.index + 1
    let toZero : Prop := s.journal.closeThenZero = true ∨ s.journal.restartPending = true
    ¬atEnd ∨ s.journal.wrap = true ∨ s.journal.closeThenZero = true →
    ∃ t : State, exec .descriptorCloseWriteDone s = .next t
      ∧ t.attention.event = s.attention.event ||| (if s.journal.mark then BitVec.twoPow 14 6 else 0) ||| BitVec.twoPow 14 7
      ∧ t.journal = { s.journal with
        state := .stalled, bus := none, restartPending := false, closePending := false, closeThenZero := false, pending := []
        skipped := min 65535 (s.journal.skipped + s.journal.pending.length), index := t.journal.index }
      ∧ (¬atEnd → ¬toZero → t.journal.index = s.journal.index + 1) ∧ (atEnd ∨ toZero → t.journal.index = 0)
      ∧ t.area = s.area ∧ t.calls = s.calls)
  ∧ (∀ (s : State) (x : Transaction AreaOp), s.agenda = [] → s.engine = .running ∨ s.engine = .paused → s.area.scanEnding = false →
    s.area.memoryFault = false → s.area.bus = some x → x.op = .descriptorClose →
    (∀ y, s.journal.bus = some y → y.op = .orphanWrite) →
    let atEnd : Prop := s.journal.last = true ∨ s.area.directory.descriptors.count ≤ s.journal.index + 1
    let toZero : Prop := s.journal.closeThenZero = true
    let left : Journal := { s.journal with closePending := false, closeThenZero := false }
    let take : Nat → Journal := fun i => { left with
      state := .writing, index := i, restartPending := false
      bus := some (match s.journal.bus with
        | none => readTransaction .takeRead [(descriptorAt s i, 24)]
        | some y => { y with op := .orphanBeforeTake }) }
    ∃ t : State, exec .descriptorCloseWriteDone s = .next t
      ∧ t.attention.event = s.attention.event ||| (if s.journal.mark then BitVec.twoPow 14 6 else 0)
      ∧ (∃ y, t.area.bus = some y ∧ y.reads = [] ∧ y.op.writeDone.isSome = true)
      ∧ (¬atEnd → ¬toZero → s.journal.restartPending = false → t.journal = take (s.journal.index + 1))
      ∧ (toZero ∨ (atEnd ∧ s.journal.wrap = true) ∨ (¬atEnd ∧ s.journal.restartPending = true) → t.journal = take 0)
      ∧ (¬toZero → atEnd → s.journal.wrap = false → s.journal.restartPending = false → t.journal = { left with
        state := .ended, pending := [], skipped := min 65535 (s.journal.skipped + s.journal.pending.length) })
      ∧ t.area.scanInFlight = s.area.scanInFlight ∧ t.area.memoryFault = false ∧ t.calls = s.calls)
  ∧ (∀ s : State,
    let t := requestRestart s
    let j := s.journal
    let stalled : Journal := { j with
      state := .stalled, restartPending := false, pending := [], skipped := min 65535 (j.skipped + j.pending.length) }
    let stalledNow : Prop := t.attention = { s.attention with event := s.attention.event ||| BitVec.twoPow 14 7 }
    let takeZero : Option (Transaction JournalOp) := some (readTransaction .takeRead [(descriptorAt s 0, 24)])
    t = { s with journal := t.journal, attention := t.attention }
    ∧ (∀ x, j.bus = some x → x.op ∈ [.takeRead, .takeWrite, .closeWrite, .orphanBeforeTake] ∨ (∃ gap, x.op = .fillWrite gap) →
      t.journal = { j with restartPending := true } ∧ t.attention = s.attention)
    ∧ (∀ x, j.bus = some x → x.op = .orphanWrite ∨ (∃ gap, x.op = .recordWrite gap) →
      let givenUp : Option (Transaction JournalOp) := some { x with op := .orphanWrite }
      (j.state ≠ .writing ∨ s.area.memoryFault = false →
        t.journal = { j with restartPending := true, bus := givenUp } ∧ t.attention = s.attention)
      ∧ (j.state = .writing → s.area.memoryFault = true →
        stalledNow ∧ t.journal = { stalled with closePending := true, closeThenZero := true, bus := givenUp }))
    ∧ (j.bus = none →
      (j.state = .writing → s.area.memoryFault = false → t.attention = s.attention ∧ t.journal = { j with
        restartPending := false, closeThenZero := true
        bus := some (writeTransaction .closeWrite (descriptorAt s j.index + 12) [2]) })
      ∧ (j.state = .writing → s.area.memoryFault = true → stalledNow ∧ t.journal = { stalled with
        closePending := true, closeThenZero := true })
      ∧ (j.state = .stalled → j.closePending = true → t.attention = s.attention ∧ t.journal = { j with
        restartPending := false, closeThenZero := true })
      ∧ (j.state = .stalled → j.closePending = false → s.area.memoryFault = true → t.attention = s.attention
        ∧ t.journal = { j with restartPending := false, index := 0 })
      ∧ (j.state = .stalled → j.closePending = false → s.area.memoryFault = false → t.attention = s.attention
        ∧ t.journal = { j with restartPending := false, index := 0, bus := takeZero })
      ∧ (j.state = .ended → s.area.memoryFault = false → t.attention = s.attention
        ∧ t.journal = { j with restartPending := false, index := 0, bus := takeZero })
      ∧ (j.state = .ended → s.area.memoryFault = true → stalledNow ∧ t.journal = { stalled with index := 0 })
      ∧ (j.state = .off → t.attention = s.attention ∧ t.journal = { j with restartPending := false })))
  ∧ ∀ (s : State) (x : Transaction JournalOp), s.agenda = [] → s.engine ≠ .stopping → s.area.memoryFault = false →
    s.journal.restartPending = true → s.journal.state = .writing → s.journal.bus = some x →
    let closes : Journal := { s.journal with
      restartPending := false, closeThenZero := true
      bus := some (writeTransaction .closeWrite (descriptorAt s s.journal.index + 12) [2]) }
    (x.op = .orphanWrite →
      ∃ t : State, exec .journalRecordWriteDone s = .next t ∧ t.journal = closes
        ∧ t.attention = s.attention ∧ t.area = s.area ∧ t.calls = s.calls)
    ∧ ∀ g, x.op = .fillWrite g →
      ∃ t : State, exec .fillCountWriteDone s = .next t ∧ t.journal = { closes with
          nextSequence := (s.journal.nextSequence + 1) % 65536, fill := s.journal.fill + 1
          pending := if g.isSome then s.journal.pending else s.journal.pending.tail
          skipped := s.journal.skipped - g.getD 0 }
        ∧ t.attention = s.attention ∧ t.area = s.area ∧ t.calls = s.calls

/-! ## The field lines (chapter 7) -/

/-- R121, R122, R129: what a line goes through by its own events: the break, the wait and RUNNING of a cold restart; the RESTART
frame, the wait and RUNNING of a warm one; the end of a down frame, and a reply that starts within the drop's reply timeout, or
within 1,024 bit times for a probe. That a line command in a phase which is not its own, and a reply that starts too late, is no event
and changes nothing is the model's reading (log 4, log 14). -/
def Obligations.LineEventsFollowTheLinePhase : Prop :=
  ∀ (s : State) (l : LineId),
    ((s.line l).phase = .breaking → exec (.breakEnd l) s = .next (s.modLine l fun n => { n with phase := .comingUp }))
    ∧ ((s.line l).phase = .comingUp →
      exec (.restartWaitEnd l) s = .next (s.modLine l fun n => { n with state := .running, phase := .gap }))
    ∧ (∀ frame, (s.line l).phase = .restartFrame frame →
      exec (.downFrameEnd l) s = .next (s.modLine l fun n => { n with phase := .restartWait }))
    ∧ ((s.line l).phase = .restartWait →
      exec (.restartFrameWaitEnd l) s = .next (s.modLine l fun n => { n with state := .running, phase := .gap }))
    ∧ (∀ x, (s.line l).phase = .sending x →
      exec (.downFrameEnd l) s = .next (s.modLine l fun n => { n with phase := .awaiting x }))
    ∧ (∀ x turn, (s.line l).phase = .awaiting x →
      let inTime : Prop := if x.isProbe then turn < 1024 else ∃ d, drop? s l x.address = some d ∧ turn ≤ d.replyTimeout
      (inTime → exec (.replyStart l turn) s =
        .next (s.modLine l fun n => { n with phase := .receiving { x with turn := turn } }))
      ∧ (¬inTime → exec (.replyStart l turn) s = .next s))
    ∧ ((s.line l).phase ≠ .breaking → exec (.breakEnd l) s = .next s)
    ∧ ((s.line l).phase ≠ .comingUp → exec (.restartWaitEnd l) s = .next s)
    ∧ ((s.line l).phase ≠ .restartWait → exec (.restartFrameWaitEnd l) s = .next s)
    ∧ ((s.line l).state ≠ .running ∨ (s.line l).phase ≠ .gap → exec (.exchangeStart l) s = .next s)
    ∧ ((∀ x, (s.line l).phase ≠ .sending x) → (∀ frame, (s.line l).phase ≠ .restartFrame frame) →
      exec (.downFrameEnd l) s = .next s)
    ∧ ((∀ x, (s.line l).phase ≠ .awaiting x) → ∀ turn, exec (.replyStart l turn) s = .next s)
    ∧ ((∀ x, (s.line l).phase = .awaiting x → x.isProbe = true) → exec (.replyTimeout l) s = .next s)
    ∧ ((∀ x, (s.line l).phase = .awaiting x → x.isProbe = false) → exec (.probeTimeout l) s = .next s)
    ∧ ((∀ x, (s.line l).phase ≠ .receiving x) → ∀ frame, ∀ c ∈ [Instr.replyComplete l frame, .replySlotEnd l, .replyNotSync l],
      exec c s = .next s)
    ∧ ((s.line l).phase ≠ .emptySlot → exec (.emptySlotEnd l) s = .next s)

/-- R126: the next exchange is a probe of the lowest-addressed SILENT drop whose countdown is 0; else the walk goes up from the
address after the poll position, cyclically, to the first READY or UNKNOWN drop, for a POLL or a probe; and if there is none it is
an empty slot. -/
def Obligations.WalkChoosesTheNextExchange : Prop :=
  ∀ n : Line,
    let isDue : Nat → Prop := fun a => 0 < a ∧ ∃ d, n.drops[a - 1]? = some d ∧ d.state = .silent ∧ d.countdown = 0
    let isServed : Nat → DropState → Prop := fun a st => ∃ d, n.drops[a - 1]? = some d ∧ d.state = st
    (∀ a, IsLeast { a | isDue a } a → chooseExchange n = .probe a false)
    ∧ ((∀ a, ¬isDue a) →
      (∀ k, k < 16 → (∀ j, j < k → ∀ st ∈ [DropState.ready, .unknown], ¬isServed ((n.pollPosition + j) % 16 + 1) st) →
        (isServed ((n.pollPosition + k) % 16 + 1) .ready → chooseExchange n = .poll ((n.pollPosition + k) % 16 + 1))
        ∧ (isServed ((n.pollPosition + k) % 16 + 1) .unknown →
          chooseExchange n = .probe ((n.pollPosition + k) % 16 + 1) true))
      ∧ ((∀ a, 1 ≤ a → a ≤ 16 → ∀ st ∈ [DropState.ready, .unknown], ¬isServed a st) → chooseExchange n = .empty))

/-- R124, R126, R127, R130, R132, R137, R140, R144, R145: the exchange that the walk has chosen begins with its frame. A POLL moves the poll
position, fills an empty in-flight set of a transmitter from the head of its queue, within 4, the room and 160 bytes, and of control
messages alone while PAUSED, of which the 160 bytes never keep a fourth out, and carries the set in the layout of 12.8; a probe carries
none, with the bits at their starting values and a SILENT drop's countdown at 32. A frame to a station carries its commanded lamps, which
become the sent ones, and a lamp whose command is not the one sent before has both runs cleared; a drop that leaves READY has its sent
commands none and its runs cleared. The end of an empty slot lowers the SILENT drops' countdowns. As an exchange or an empty slot ends, a
restart that waits for it begins, after the outcome of the exchange. R124 has a probe restart the countdown at 32 and gives no moment:
that it stands at 32 as the probe is sent is the model's choice (log 40), and so is it that a restart waits for an empty slot too (log 39)
and that the bits of a frame without a meaning are 0 (log 86). -/
def Obligations.ExchangeStartSendsTheChosenFrame : Prop :=
  (∀ (n : Nat) (queue : List AirEntry), n ≤ 4 → fillSet n 160 queue = queue.take n)
  ∧ (∀ (command address : Nat) (down up : Bool) (lamps : Byte) (messages : List Message),
    command < 4 → address < 256 → messages.length < 256 →
    let body := messages.flatMap messageBytes
    let f := downFrame command address down up lamps messages
    f.length = 8 + body.length ∧ f.take 2 = [0xC3, 0x5A] ∧ byteAt f 2 = address
      ∧ byteAt f 3 = command + (if down then 16 else 0) + (if up then 32 else 0) ∧ f[4]? = some lamps
      ∧ byteAt f 5 = messages.length ∧ (f.drop 6).take body.length = body
      ∧ le16 f (6 + body.length) = (crc16 ((f.drop 2).take (4 + body.length))).toNat
      ∧ body.length = (messages.map fun m => if m.kind = .page then 40 else 12).sum)
  ∧ (∀ (s : State) (l : LineId) (a : Nat) (new : DropState) (cause : DropCause) (d : Drop), drop? s l a = some d →
    ∃ e, drop? (setDropState l a new cause s).1 l a = some e ∧ e.state = new
      ∧ (d.state ≠ .ready → e.station = d.station)
      ∧ (d.state = .ready → e.station = d.station.map fun u =>
        { call := { u.call with sent := none, mismatchRun := 0, matchRun := 0 }
          attend := { u.attend with sent := none, mismatchRun := 0, matchRun := 0 } }))
  ∧ (∀ (s : State) (l : LineId) (x : Exchange) (o : Outcome), (endExchange l x o s).2.getLast? = some (.lineNext l))
  ∧ (∀ (s : State) (l : LineId),
    ((s.line l).restart = none → perform (.lineNext l) s = (s, []))
    ∧ ((s.line l).restart = some .cold → perform (.lineNext l) s = coldRestart l s)
    ∧ ((s.line l).restart = some .warm → perform (.lineNext l) s = (s.modLine l fun n => { n with
      state := .restarting, phase := .restartFrame (restartFrameBytes (dropMask n)), restart := none
      drops := n.drops.map fun d =>
        if d.kind ≠ .unused ∧ d.state ≠ .isolated then { d with downBit := false, upBit := true } else d }, [])))
  ∧ ∀ (s : State) (l : LineId), s.agenda = [] → s.engine ≠ .stopping →
    let sent : Lamp → Lamp := fun u => if u.sent = some u.commanded then u
      else { u with sent := some u.commanded, mismatchRun := 0, matchRun := 0 }
    let areSent : Drop → Drop → Exchange → Prop := fun d e x =>
      (d.station = none → e.station = none ∧ d.lampByte = 0)
      ∧ ∀ u, d.station = some u → ∃ v, e.station = some v
        ∧ v.call = { sent u.call with commanded := v.call.commanded }
        ∧ v.attend = { sent u.attend with commanded := v.attend.commanded }
        ∧ d.lampByte.toNat = u.call.commanded.code + (if u.attend.commanded = .off then 0 else 4)
        ∧ (x.sameCall = true ↔ u.call.sent = some u.call.commanded)
        ∧ (x.sameAttend = true ↔ u.attend.sent = some u.attend.commanded)
    ((s.line l).state = .running → (s.line l).phase = .gap →
      (∀ a d, chooseExchange (s.line l) = .poll a → drop? s l a = some d →
        ∃ t e x, exec (.exchangeStart l) s = .next t ∧ drop? t l a = some e ∧ (t.line l).phase = .sending x
          ∧ (t.line l).pollPosition = a ∧ x.address = a ∧ x.isProbe = false
          ∧ (d.kind = .transmitter → d.inFlight = [] →
            e.inFlight = fillSet (min 4 d.room) 160 (d.queue.filter fun m => s.engine != .paused || m.message.kind.isControl)
            ∧ e.queue = d.queue.filter fun m => !e.inFlight.any fun i => i.order == m.order)
          ∧ (d.kind ≠ .transmitter ∨ d.inFlight ≠ [] → e.inFlight = d.inFlight ∧ e.queue = d.queue)
          ∧ x.frame = downFrame 0 a d.downBit d.upBit d.lampByte (e.inFlight.map (·.message)) ∧ areSent d e x
          ∧ t.calls = s.calls ∧ t.attention = s.attention)
      ∧ (∀ a moves d, chooseExchange (s.line l) = .probe a moves → drop? s l a = some d →
        ∃ t e x, exec (.exchangeStart l) s = .next t ∧ drop? t l a = some e ∧ (t.line l).phase = .sending x
          ∧ (t.line l).pollPosition = (if moves then a else (s.line l).pollPosition)
          ∧ x.address = a ∧ x.isProbe = true ∧ e.downBit = false ∧ e.upBit = true ∧ e.state = d.state
          ∧ e.countdown = (if d.state = .silent then 32 else d.countdown) ∧ e.inFlight = d.inFlight ∧ e.queue = d.queue
          ∧ x.frame = downFrame 1 a false true d.lampByte [] ∧ areSent d e x ∧ t.calls = s.calls ∧ t.attention = s.attention)
      ∧ (chooseExchange (s.line l) = .empty → ∃ t, exec (.exchangeStart l) s = .next t ∧ (t.line l).phase = .emptySlot
        ∧ (t.line l).pollPosition = (s.line l).pollPosition ∧ t.calls = s.calls ∧ t.attention = s.attention))
    ∧ ((s.line l).phase = .emptySlot → (s.line l).restart = none →
      ∃ t, exec (.emptySlotEnd l) s = .next t ∧ (t.line l).phase = .gap ∧ (t.line l).state = (s.line l).state
        ∧ t.calls = s.calls ∧ t.attention = s.attention
        ∧ ∀ a d, drop? s l a = some d → ∃ e, drop? t l a = some e
          ∧ e.countdown = (if d.state = .silent then d.countdown - 1 else d.countdown) ∧ e.state = d.state)
    ∧ ∀ r, (s.line l).phase = .emptySlot → (s.line l).restart = some r →
      let u := s.modLine l fun n => { n with
        phase := .gap, drops := n.drops.map fun d => if d.state = .silent then { d with countdown := d.countdown - 1 } else d }
      exec (.emptySlotEnd l) s = .next (finish (u, [.lineNext l]))
      ∧ (r = .warm ∨ (∀ d ∈ (s.line l).drops, d.state ≠ .ready) →
        ∃ t, exec (.emptySlotEnd l) s = .next t ∧ (t.line l).state = .restarting ∧ (t.line l).restart = none
          ∧ (t.line l).phase = (if r = .warm then .restartFrame (restartFrameBytes (dropMask (s.line l))) else .breaking)
          ∧ t.calls = s.calls ∧ t.attention = s.attention)

/-- R129, R131, R133, R134, R86, R91, R145, R146, R180: a VALID reply of a transmitter to a POLL clears the miss count and gives the room; a
taken bit equal to the set's reports the set on air, in its order, empties it and toggles the down bit, and another leaves both. A control
message reported on air changes nothing more. A copy of a PAGE, REMIND or ARRIVAL CHECK becomes TAKEN, and the first take of the present
stage starts the receipt window, with PAGED for a PAGE; a copy of a record that is gone, PENDING or at another stage, or that has no copy
there, has no effect. In a VALID reply of a station each lamp's flag and runs follow the table of R146, with FIELD FAULT on a new FAULT or
STUCK, the mirror entry dirty and a record for each change, CALL before ATTEND (the model's order: log 58). An up bit equal to the last
accepted one brings no report; another is accepted, and the reports are delivered after the status, in the reply's order. The retry window
of a copy DEFERRED before the first take runs on (the model's choice: log 76). That a reply which is not whole yet is waited for, and that
bytes after its CRC are not its own, is the model's reading (log 41, log 4). -/
def Obligations.ValidReplyTakesTheSet : Prop :=
  (∀ (s : State) (l : LineId) (x : Exchange) (d : Drop) (frame : List Byte), s.agenda = [] → s.engine ≠ .stopping →
    (s.line l).restart = none → (s.line l).phase = .receiving x → x.isProbe = false → drop? s l x.address = some d →
    startsWithSync frame = true →
    let reply := frame.take (replyLength frame)
    let isTaken : Prop := x.carriesSet = true ∧ replyTakenBit frame = d.downBit
    let ofTransmitter : State → Prop := fun t => ∃ e, drop? t l x.address = some e ∧ (t.line l).phase = .gap
      ∧ e.misses = 0 ∧ e.room = replyRoom frame ∧ e.state = d.state ∧ e.queue = d.queue ∧ e.upBit = replyUpBit frame
      ∧ e.strikes = (false :: d.strikes).take 16
      ∧ (isTaken → e.inFlight = [] ∧ e.downBit = !d.downBit) ∧ (¬isTaken → e.inFlight = d.inFlight ∧ e.downBit = d.downBit)
      ∧ t.calls = s.calls ∧ t.attention = s.attention ∧ t.roster = s.roster
      ∧ (let u := if isTaken then d.inFlight.foldl (fun u m => onAir l x.address m u) s else s
        t.dispatcher = u.dispatcher ∧ t.journal = u.journal)
    let ofStation : Station → State → Prop := fun u t =>
      let newLamp : Lamp → LampFlag × Nat × Nat → Lamp := fun old r =>
        { old with flag := r.1, mismatchRun := r.2.1, matchRun := r.2.2 }
      let call := newLamp u.call (u.call.afterReply x.sameCall (bitOf (byteAt frame 4) 0))
      let attend := newLamp u.attend (u.attend.afterReply x.sameAttend (bitOf (byteAt frame 4) 1))
      let isEntry : Lamp → Lamp → Prop := fun old new => new.flag ≠ old.flag ∧ new.flag ≠ .ok
      let record : LampId → Lamp → Lamp → List JournalRecord := fun id old new =>
        if new.flag = old.flag then []
        else [{ blankRecord (match new.flag with | .ok => .lampOk | .fault => .lampFault | .stuck => .lampStuck) with
          tick := s.tickCount, line := some l, drop := x.address, detail1 := id.code
          detail2 := (old.sent.map LampCommand.code).getD 0 }]
      ∃ e v, drop? t l x.address = some e ∧ (t.line l).phase = .gap
        ∧ e.misses = 0 ∧ e.state = d.state ∧ e.upBit = replyUpBit frame ∧ e.strikes = (false :: d.strikes).take 16
        ∧ e.station = some v ∧ v.call = { call with commanded := v.call.commanded }
        ∧ v.attend = { attend with commanded := v.attend.commanded }
        ∧ e.dirty = (d.dirty || call.flag != u.call.flag || attend.flag != u.attend.flag)
        ∧ (isEntry u.call call ∨ isEntry u.attend attend → t.attention.event = s.attention.event ||| BitVec.twoPow 14 10)
        ∧ (¬isEntry u.call call → ¬isEntry u.attend attend → t.attention = s.attention)
        ∧ (s.journal.state = .writing → s.area.memoryFault = false → s.journal.pending.length < 63 →
          t.journal.pending = s.journal.pending ++ record .call u.call call ++ record .attend u.attend attend)
        ∧ t.calls = s.calls ∧ t.dispatcher = s.dispatcher
    (replyArrived frame = false → exec (.replyComplete l frame) s = .next s)
    ∧ (replyArrived frame = true → judgeReply x d.kind reply = .valid reply →
      (replyUpBit frame = d.upBit →
        (d.kind = .transmitter → ∃ t : State, exec (.replyComplete l frame) s = .next t ∧ ofTransmitter t)
        ∧ ∀ u, d.kind = .station → d.station = some u → ∃ t : State, exec (.replyComplete l frame) s = .next t ∧ ofStation u t)
      ∧ (replyUpBit frame ≠ d.upBit →
        let r := endExchange l x (.valid reply) s
        exec (.replyComplete l frame) s = .next (finish r)
          ∧ (∃ e, drop? r.1 l x.address = some e ∧ e.upBit = replyUpBit reply)
          ∧ (d.kind = .transmitter → ofTransmitter r.1) ∧ (∀ u, d.kind = .station → d.station = some u → ofStation u r.1)
          ∧ r.2 = (replyReports reply).map (fun report =>
            if d.kind = .transmitter then Task.report l x.address report else .press l x.address report) ++ [.lineNext l])))
  ∧ ∀ (s : State) (l : LineId) (address : Nat) (e : AirEntry),
    let v := onAir l address e s
    (∀ p f u, e.carriage = .control p f u → v = s)
    ∧ ∀ serial st, e.carriage = .delivery serial st →
      let isAt : Delivery → Prop := fun r => r.isPending = false ∧ r.stage = st ∧ ∃ x ∈ r.copies, x.line = l ∧ x.drop = address
      ((∀ r, delivery? s serial = some r → ¬isAt r) → v = s)
      ∧ ∀ r, delivery? s serial = some r → isAt r →
        v = { s with dispatcher := { s.dispatcher with records := v.dispatcher.records }, journal := v.journal }
        ∧ delivery? v serial = some { r with
          copies := r.copies.map fun x => if x.line = l ∧ x.drop = address then { x with state := .taken } else x
          receipt := if r.receipt.active then r.receipt else startWindow s s.roster.settings.receiptWindow }
        ∧ (∀ n, n ≠ serial → delivery? v n = delivery? s n)
        ∧ (r.receipt.active = true ∨ r.key.kind ≠ .page → v.journal = s.journal)
        ∧ (r.receipt.active = false → r.key.kind = .page → tagLive s r.key.tag = true →
          s.journal.state = .writing → s.area.memoryFault = false → s.journal.pending.length < 64 →
          v.journal.pending = s.journal.pending ++ [{ callRecord .paged (context s (r.key.tag % 128)) with
            tick := s.tickCount, tag := some r.key.tag, member := some r.key.member, line := some l, drop := address
            detail1 := st.code, detail2 := if r.message.breakIn then 1 else 0 }])

/-- R128, R129, R135, R136, R123, R100: a complete reply is CORRUPT for a wrong sync, CRC or kind, for a report count above 8, for a report of
a kind illegal for the drop kind, and on a POLL for another kind than the drop list's; else it is a STRIKE when it names another address.
A POLL to a READY drop that ends TIMEOUT or CORRUPT steps its miss count, and the third miss makes the drop SILENT; a STRIKE leaves the
miss count, and three in the last 16 exchanges isolate the drop, or clear the history with the record BABBLE alone when isolation is off.
A drop that leaves READY raises FIELD FAULT, submits DROP STATE, and hands back its in-flight set and then its queue, one message at a
time: a LAST-HEARD or HOME copy takes its record to the next stage, a PLANT copy leaves the record, which is offered again when nothing is
left, and a copy of another record or stage is discarded; a control message goes from its first route position to the second with a new
urgency, or is dropped with MESSAGE DROPPED, cause NO ROUTE. What is the model's choice or reading: that a re-routed message takes the
enqueue order count before its step (log 75); that the exchange which makes a drop SILENT leaves its countdown at 32 (log 40); that DROP
STATE comes before the hand-back (log 77); that the kind is judged before the address, and bytes after the CRC are not the reply's (log
41); that bits without a meaning are ignored (log 67, log 68); that a probe's reply has its report kinds judged for the kind it names (log
83); that a control message re-routed keeps its pager address (log 53), and that one dropped names no line and drop (log 54); that in
PAUSE the record of a LAST-HEARD copy is PENDING at HOME with no test of HOME's condition (log 92); and the call fields of a record whose
tag is stale (log 29). -/
def Obligations.MissesAndStrikesChangeTheDrop : Prop :=
  (∀ (x : Exchange) (kind : DropKind) (f : List Byte),
    let n := replyLength f
    let isCorrupt : Prop := f.take 2 ≠ [0xC3, 0x5A] ∨ (crc16 ((f.take (n - 2)).drop 2)).toNat ≠ le16 f (n - 2)
      ∨ (byteAt f 3 ≠ 1 ∧ byteAt f 3 ≠ 2) ∨ 8 < byteAt f 6
      ∨ (∃ r ∈ replyReports f, if byteAt f 3 = 2 then byteAt r 0 ≠ 8 ∧ byteAt r 0 ≠ 9 else byteAt r 0 < 1 ∨ 6 < byteAt r 0)
      ∨ (x.isProbe = false ∧ kind ≠ if byteAt f 3 = 1 then .transmitter else .station)
    (isCorrupt → judgeReply x kind f = .corrupt)
    ∧ (¬isCorrupt → judgeReply x kind f = if byteAt f 2 = x.address then .valid f else .strike))
  ∧ (∀ (s : State) (l : LineId) (x : Exchange) (d : Drop) (c : Instr), s.agenda = [] →
    x.isProbe = false → drop? s l x.address = some d → d.state = .ready →
    let isJudged : List Byte → Outcome → Prop := fun frame o => startsWithSync frame = true ∧ replyArrived frame = true
      ∧ judgeReply x d.kind (frame.take (replyLength frame)) = o
    let isMiss : Prop := (s.line l).phase = .awaiting x ∧ c = .replyTimeout l ∨ (s.line l).phase = .receiving x
      ∧ (c = .replyNotSync l ∨ ∃ f, c = .replyComplete l f ∧ (startsWithSync f = false ∨ isJudged f .corrupt))
    let isStrike : Prop := (s.line l).phase = .receiving x
      ∧ (c = .replySlotEnd l ∨ ∃ f, c = .replyComplete l f ∧ isJudged f .strike)
    let submits : Journal → JournalRecord → Prop := fun j record =>
      s.journal.state = .writing → s.area.memoryFault = false → s.journal.pending.length < 64 →
        j.pending = s.journal.pending ++ [{ record with tick := s.tickCount, line := some l, drop := x.address }]
    let faulted : Attention := { s.attention with event := s.attention.event ||| BitVec.twoPow 14 10 }
    let leaves : DropState → DropCause → List Bool → Prop := fun st cause history => ∃ u e,
      exec c s = .next (finish (u, (d.inFlight ++ d.queue).map (Task.handBack l x.address) ++ [.lineNext l]))
      ∧ drop? u l x.address = some e ∧ (u.line l).phase = .gap ∧ e.state = st ∧ e.lastCause = cause ∧ e.misses = 0
      ∧ e.inFlight = [] ∧ e.queue = [] ∧ e.strikes = history ∧ e.dirty = true ∧ e.changes = (d.changes + 1) % 65536
      ∧ (st = .silent → e.countdown = 32)
      ∧ (∀ a : LineId × Nat, a ≠ (l, x.address) → (drop? u a.1 a.2).map (fun d => (d.state, d.inFlight, d.queue))
        = (drop? s a.1 a.2).map fun d => (d.state, d.inFlight, d.queue))
      ∧ submits u.journal { blankRecord .dropState with detail1 := 2 * 256 + st.code, detail2 := cause.code }
      ∧ u.attention = faulted ∧ u.calls = s.calls ∧ u.dispatcher = s.dispatcher ∧ u.roster = s.roster
    let history := (false :: d.strikes).take 16
    let struck := (true :: d.strikes).take 16
    (isMiss → 2 ≤ d.misses → leaves .silent .misses history)
    ∧ (isStrike → 3 ≤ struck.count true → s.roster.settings.isolateOnBabble = true → leaves .isolated .babble [])
    ∧ (s.engine ≠ .stopping → (s.line l).restart = none →
      let stays : Nat → List Bool → Prop := fun misses history => ∃ t e, exec c s = .next t ∧ drop? t l x.address = some e
        ∧ (t.line l).phase = .gap ∧ e.state = .ready ∧ e.misses = misses ∧ e.strikes = history ∧ e.inFlight = d.inFlight
        ∧ e.queue = d.queue ∧ e.lastCause = d.lastCause ∧ t.attention = s.attention ∧ t.calls = s.calls
        ∧ t.dispatcher = s.dispatcher
        ∧ (if history = [] then submits t.journal { blankRecord .babble with detail1 := struck.count true }
          else t.journal = s.journal)
      (isMiss → d.misses < 2 → stays (d.misses + 1) history)
      ∧ (isStrike → struck.count true < 3 → stays d.misses struck)
      ∧ (isStrike → 3 ≤ struck.count true → s.roster.settings.isolateOnBabble = false → stays d.misses [])
      ∧ (isMiss → 2 ≤ d.misses → d.inFlight = [] → d.queue = [] → ∃ t e, exec c s = .next t
        ∧ drop? t l x.address = some e ∧ (t.line l).phase = .gap ∧ e.state = .silent ∧ e.misses = 0 ∧ e.strikes = history
        ∧ t.attention = faulted ∧ t.calls = s.calls ∧ t.dispatcher = s.dispatcher)))
  ∧ ∀ (s : State) (l : LineId) (address : Nat) (e : AirEntry),
    let v := settleHandedBack l address e s
    perform (.handBack l address e) s = v
    ∧ (∀ serial st, e.carriage = .delivery serial st →
      let isAt : Delivery → Prop := fun r => r.isPending = false ∧ r.stage = st ∧ ∃ x ∈ r.copies, x.line = l ∧ x.drop = address
      ((∀ r, delivery? s serial = some r → ¬isAt r) → v = (s, []))
      ∧ ∀ r, delivery? s serial = some r → isAt r →
        (st = .lastHeard → v = beginStage serial .home s) ∧ (st = .home → v = beginStage serial .plant s)
        ∧ (st = .plant →
          let others : List Copy → List Copy := fun copies => copies.filter fun x => x.line != l || x.drop != address
          let u : State := { s with dispatcher := { s.dispatcher with records := s.dispatcher.records.map fun x =>
            if x.serial = serial then { x with copies := others x.copies } else x } }
          v = if others r.copies = [] ∧ r.receipt.active = false then beginStage serial .plant u else (u, [])))
    ∧ ∀ p fixed kept, e.carriage = .control p fixed kept →
      let m := e.message.member
      let home := (fixed.map (·.home)).getD (homeZone s.roster.tables m)
      let last := (fixed.map (·.lastZone)).getD (freshZone s m)
      let k := context s (e.message.tag % 128)
      let goesTo : LineId × Nat → Prop := fun b =>
        p = .first ∧ home ≠ 0 ∧ last ≠ some home ∧ usableTransmitter s home = some b
      (∀ b, goesTo b → v.2 = [] ∧ ∃ entry : AirEntry, entry.message = e.message
        ∧ entry.carriage = .control .second fixed kept ∧ entry.order = s.dispatcher.order
        ∧ (∀ n, kept = some n → entry.urgency = n)
        ∧ (kept = none → tagLive s e.message.tag = true → e.message.kind.isControl = true →
          entry.urgency = (5 - k.severity) * 1000 + 500 + min ((s.tickCount - k.admitTick).toNat / 10) 499)
        ∧ (kept = none → tagLive s e.message.tag = false → e.message.kind = .standDown → entry.urgency = 1500)
        ∧ drop? v.1 b.1 b.2 = (drop? s b.1 b.2).map (fun d => { d with queue := (settleEntry entry d.queue).queue })
        ∧ (∀ a : LineId × Nat, a ≠ b → drop? v.1 a.1 a.2 = drop? s a.1 a.2)
        ∧ v.1.calls = s.calls ∧ v.1.roster = s.roster ∧ v.1.attention = s.attention)
      ∧ ((∀ b, ¬goesTo b) → v.2 = [] ∧ v.1 = { s with journal := v.1.journal }
        ∧ (s.journal.state = .writing → s.area.memoryFault = false → s.journal.pending.length < 64 →
          v.1.journal.pending = s.journal.pending ++ [{ tagRecord s .messageDropped e.message.tag with
            tick := s.tickCount, member := some m, detail1 := e.message.kind.code, detail2 := 3 }]))

/-- R124, R125, R136, R123: a probe's valid reply of the drop-list kind makes the drop READY, with the turn count it measured, the reply
timeout of 2 × turn + 20, held to 60 to 600, and DROP STATE with cause PROBE OK; a drop that changes state has its mirror entry dirty. A
valid reply of another kind makes an UNKNOWN drop SILENT, cause KIND MISMATCH, with DROP KIND MISMATCH; with no reply, a corrupt one or a
strike it becomes SILENT, cause PROBE FAILED; each with FIELD FAULT and DROP STATE. A SILENT drop stays SILENT, with its cause and no
record. The miss count and the reply timeout stay. A strike enters the strike history, and the third in 16 isolates the drop, whose miss
count and history are cleared, or with isolation off submits BABBLE and clears the history. That the probe itself, as an exchange that has
ended, lowers a SILENT drop's countdown by one is the model's reading (log 40), and so is the order of the records, with two DROP STATE
records for an UNKNOWN drop that its strike isolates (log 42); that bytes after the CRC are not the reply's is log 41, and that the
reply's report kinds are judged for the kind it names is log 83 (the model's choice). -/
def Obligations.ProbeCalibratesTheReplyTimeout : Prop :=
  ∀ (s : State) (l : LineId) (x : Exchange) (d : Drop), s.agenda = [] → s.engine ≠ .stopping → (s.line l).restart = none →
    x.isProbe = true → drop? s l x.address = some d → d.state = .unknown ∨ d.state = .silent →
    (∀ frame, (s.line l).phase = .receiving x → startsWithSync frame = true → replyArrived frame = true →
      let reply := frame.take (replyLength frame)
      judgeReply x d.kind reply = .valid reply → replyKind frame = d.kind →
      ∃ t e, exec (.replyComplete l frame) s = .next t ∧ drop? t l x.address = some e ∧ (t.line l).phase = .gap
        ∧ e.state = .ready ∧ e.lastCause = .probeOk ∧ e.turnCount = x.turn
        ∧ e.replyTimeout = max 60 (min 600 (2 * x.turn + 20)) ∧ e.dirty = true ∧ e.misses = d.misses
        ∧ e.strikes = (false :: d.strikes).take 16 ∧ e.changes = (d.changes + 1) % 65536
        ∧ (s.journal.state = .writing → s.area.memoryFault = false → s.journal.pending.length < 64 →
          t.journal.pending = s.journal.pending ++ [{ blankRecord .dropState with
            tick := s.tickCount, line := some l, drop := x.address
            detail1 := d.state.code * 256 + DropState.ready.code, detail2 := DropCause.probeOk.code }])
        ∧ (d.kind = .transmitter → e.room = replyRoom frame) ∧ t.calls = s.calls ∧ t.attention = s.attention)
    ∧ (∀ c : Instr,
      let isJudged : List Byte → (List Byte → Outcome) → Prop := fun frame o => startsWithSync frame = true
        ∧ replyArrived frame = true ∧ judgeReply x d.kind (frame.take (replyLength frame)) = o (frame.take (replyLength frame))
      let isReceiving := (s.line l).phase = .receiving x
      let isFailure : Prop := (s.line l).phase = .awaiting x ∧ c = .probeTimeout l ∨ isReceiving
        ∧ (c = .replyNotSync l
          ∨ ∃ f, c = .replyComplete l f ∧ (startsWithSync f = false ∨ isJudged f fun _ => .corrupt))
      let isStrike : Prop := isReceiving
        ∧ (c = .replySlotEnd l ∨ ∃ f, c = .replyComplete l f ∧ isJudged f fun _ => .strike)
      let isMismatch : DropKind → Prop := fun found => isReceiving ∧ found ≠ d.kind
        ∧ ∃ f, c = .replyComplete l f ∧ isJudged f .valid ∧ replyKind f = found
      let at_ : JournalRecord → JournalRecord := fun r => { r with tick := s.tickCount, line := some l, drop := x.address }
      let change : DropState → DropState → DropCause → JournalRecord := fun old new cause =>
        at_ { blankRecord .dropState with detail1 := old.code * 256 + new.code, detail2 := cause.code }
      let faulted : Attention := { s.attention with event := s.attention.event ||| BitVec.twoPow 14 10 }
      let ends : DropState → DropCause → Nat → List Bool → List JournalRecord → Prop := fun st cause misses history records =>
        ∃ t e, exec c s = .next t ∧ drop? t l x.address = some e ∧ (t.line l).phase = .gap
          ∧ e.state = st ∧ e.lastCause = cause ∧ e.misses = misses ∧ e.strikes = history ∧ e.replyTimeout = d.replyTimeout
          ∧ e.turnCount = d.turnCount ∧ e.room = d.room ∧ t.calls = s.calls ∧ t.dispatcher = s.dispatcher
          ∧ e.countdown = (if d.state = .unknown then 32 else d.countdown - 1) ∧ (d.state ≠ st → e.dirty = true)
          ∧ t.attention = (if d.state = .unknown ∨ st = .isolated then faulted else s.attention)
          ∧ (records = [] → t.journal = s.journal)
          ∧ (s.journal.state = .writing → s.area.memoryFault = false → s.journal.pending.length < 63 →
            t.journal.pending = s.journal.pending ++ records)
      let history := (false :: d.strikes).take 16
      let struck := (true :: d.strikes).take 16
      let cause : DropCause → DropCause := fun new => if d.state = .unknown then new else d.lastCause
      let first : DropCause → List JournalRecord := fun new => if d.state = .unknown then [change .unknown .silent new] else []
      (isFailure → ends .silent (cause .probeFailed) d.misses history (first .probeFailed))
      ∧ (∀ found, isMismatch found → ends .silent (cause .kindMismatch) d.misses history
        (first .kindMismatch ++ if d.state = .unknown then
          [at_ { blankRecord .dropKindMismatch with detail1 := found.code, detail2 := d.kind.code }] else []))
      ∧ (isStrike → struck.count true < 3 → ends .silent (cause .probeFailed) d.misses struck (first .probeFailed))
      ∧ (isStrike → 3 ≤ struck.count true → s.roster.settings.isolateOnBabble = true →
        ends .isolated .babble 0 [] (first .probeFailed ++ [change .silent .isolated .babble]))
      ∧ (isStrike → 3 ≤ struck.count true → s.roster.settings.isolateOnBabble = false →
        ends .silent (cause .probeFailed) d.misses []
          (first .probeFailed ++ [at_ { blankRecord .babble with detail1 := struck.count true }])))

/-! ## Calls, members, pages and answers (chapters 1 to 6 and 8) -/

/-- R104 to R106, R70, R93, R110 to R114, R58: a tag is live exactly when its low seven bits name a context 0 to 64 that is not FREE and whose
reuse count is the rest of the tag. On a stale tag a RECEIPT and a DECLINE are discarded, with no record, and an ACCEPT, an ARRIVED and a
CLEAR are answered with a STAND DOWN (STALE), handed over with the member's effective pager address and the stale tag, under the urgency
of a STAND DOWN with no live call. A report from a pager that no member holds submits UNKNOWN PAGER and does nothing else; every other
report first gives its member the last-heard zone and tick, and a HELLO does no more. On a live tag a RECEIPT completes the member's
record and marks the entry received; a DECLINE takes the current mark, or reopens the call it was the accepter of, or is discarded; an
ARRIVED of the accepter takes the call ON SITE with its record, and one that takes the call submits ARRIVED after ACCEPTED; a CLEAR of the
accepter ends it; and another is answered with its STAND DOWN. What is the model's choice: the call fields of a record whose tag is stale
or absent (log 29); that a MESSAGE DROPPED of the STAND DOWN precedes STAND DOWN SENT (log 65); that the RECEIPT record shows the code of
the record's stage whatever that is, of a PENDING record its resume stage (log 17); that a call gone ON SITE keeps its arrival window
count (log 44); that the bits of ACCEPTED's detail without a meaning are 0 (log 86); that an ARRIVED which takes its call ends break-in
marks in third calls last (log 74), and one of row 1 after the record ARRIVED (log 82); and that the context of a call that its accepter's
CLEAR ends is cleared of more than R20 names (log 1). -/
def Obligations.StaleTagsAreSettledByKind : Prop :=
  (∀ (s : State) (tag : Nat),
    (tagLive s tag = true ↔ tag % 128 ≤ 64 ∧ (context s (tag % 128)).state ≠ .free ∧ (context s (tag % 128)).reuse = tag / 128)
    ∧ tagLive s 0xFFFF = false
    ∧ (tagLive s tag = false → ∀ (l : LineId) (address m : Nat),
      matchTagged l address tag m .receipt s = (s, []) ∧ matchTagged l address tag m .decline s = (s, [])
      ∧ ∀ kind ∈ [ReportKind.accept, .arrived, .clear], ∃ answer : Message,
        answer.kind = .standDown ∧ answer.reason = some .stale ∧ answer.tag = tag ∧ answer.member = m
        ∧ answer.pager = effectivePager s.roster.tables m ∧ messageUrgency s answer none = 1500
        ∧ matchTagged l address tag m kind s = (submit { blankRecord .standDownSent with
            tag := some tag, member := some m, detail1 := kind.code, detail2 := 6 } (sendControl answer none none s), [])))
  ∧ (∀ (t : Tables) (pager m : Nat), pager ≠ 0 → t.roster.length ≤ 512 →
    (memberOfPager t pager = some m ↔ effectivePager t m = pager))
  ∧ (∀ (s : State) (l : LineId) (address : Nat) (data : List Byte) (kind : ReportKind), readReportKind data = some kind →
    (memberOfPager s.roster.tables (le24 data 1) = none →
      matchReport l address data s = (submit { blankRecord .unknownPager with
        line := some l, drop := address, callNumber := BitVec.ofNat 32 (le24 data 1), detail1 := kind.code } s, []))
    ∧ ∀ m d, memberOfPager s.roster.tables (le24 data 1) = some m → drop? s l address = some d → m < s.roster.members.length →
      ∃ u : State, u = { s with roster := u.roster } ∧ u.roster = { s.roster with members := u.roster.members }
        ∧ (∃ b, member u m = { member s m with lastZone := some d.zone, lastTick := s.tickCount, dirty := b
                                               touched := (member u m).touched })
        ∧ (∀ j, j ≠ m → member u j = member s j)
        ∧ matchReport l address data s = matchTagged l address (le16 data 4) m kind u
        ∧ (kind = .hello → matchReport l address data s = (u, [])))
  ∧ ∀ (s : State) (l : LineId) (address tag m : Nat), tagLive s tag = true → s.dispatcher.ok → (context s (tag % 128)).tag = tag →
    let c := tag % 128
    let k := context s c
    let r := fun kind => matchTagged l address tag m kind s
    let others : State → Prop := fun t => ∀ d, d ≠ c → context t d = context s d
    let arrived : JournalRecord := { callRecord .arrived k with
      tick := s.tickCount, member := some m, detail1 := Site.member.code }
    let standsDown : ReportKind → StandCause → StandReason → State := fun kind cause reason =>
      submit { callRecord .standDownSent k with member := some m, detail1 := kind.code, detail2 := cause.code }
        (sendControl { kind := .standDown, tag := tag, member := m, pager := effectivePager s.roster.tables m, callNumber := 0
                       severity := 0, zone := 0, breakIn := false, text := [], reason := some reason } none none s)
    ((∀ v ∈ s.dispatcher.records, v.key.tag ≠ tag ∨ v.key.member ≠ m) → r .receipt = (s, []))
    ∧ (∀ v, s.dispatcher.records.filter (fun w => w.key.tag == tag && w.key.member == m) = [v] →
      let t := (r .receipt).1
      (r .receipt).2 = [] ∧ t.dispatcher = { s.dispatcher with records := s.dispatcher.records.filter fun w => w.serial != v.serial }
      ∧ (∀ d ∈ t.line0.drops ++ t.line1.drops, ∀ e ∈ d.queue, e.isCopyOf v.serial = false)
      ∧ (v.key.kind = .arrivalCheck → t.calls = s.calls)
      ∧ (∀ e, v.key.kind = .remind → k.contact m = some e → (context t c).contact m = some { e with received := true })
      ∧ (∀ e, v.key.kind = .page → k.contact m = some e → (context t c).contact m = some { e with
        received := true
        remind := if e.current then startWindow s s.roster.settings.remindInterval else e.remind })
      ∧ others t ∧ t.roster = s.roster ∧ t.attention = s.attention
      ∧ (s.journal.state = .writing → s.area.memoryFault = false → s.journal.pending.length < 64 →
        t.journal.pending = s.journal.pending ++ [{ callRecord .receipt k with
          tick := s.tickCount, member := some m, line := some l, drop := address
          detail1 := (deliveryMessageKind v.key.kind).code, detail2 := v.stage.code }]))
    ∧ (∀ e, k.state = .paging → k.contact m = some e → e.current = true →
      let t := (r .decline).1
      (r .decline).2 = [.lostMark c m]
      ∧ (context t c).contact m = some { e with declined := true, current := false, remind := .stopped }
      ∧ (member t m).paged = (member s m).paged - 1 ∧ (∀ j, j ≠ m → member t j = member s j)
      ∧ (∀ w ∈ t.dispatcher.records, w.key.tag = tag → w.key.member = m → w.key.kind = .arrivalCheck)
      ∧ others t ∧ t.attention = s.attention
      ∧ (s.journal.state = .writing → s.area.memoryFault = false → s.journal.pending.length < 64 →
        t.journal.pending = s.journal.pending ++ [{ callRecord .declined k with
          tick := s.tickCount, member := some m, detail1 := k.rung * 256 + k.pass }]))
    ∧ (k.state = .accepted → k.accepter = some m → r .decline = (submit { callRecord .declined k with
      member := some m, detail1 := k.rung * 256 + k.pass } s, [.reopen c .decline]))
    ∧ ((k.state = .paging → k.isCurrent m = false) → (k.state = .accepted → k.accepter ≠ some m) → r .decline = (s, []))
    ∧ (k.state = .accepted → k.accepter = some m →
      let t := (r .arrived).1
      (r .arrived).2 = [.dropBreakIn m]
      ∧ context t c = { k with arrival := .stopped, state := .onSite, site := .member, arriveTick := s.tickCount }
      ∧ deliveryOf t { tag := tag, member := m, kind := .arrivalCheck } = none
      ∧ (∀ i, k.slot = some i → i < s.area.slots.length → (slotImage t i).state = .onSite ∧ (slotImage t i).site = .member
        ∧ (slotImage t i).arriveTick = s.tickCount)
      ∧ (hasRoom s 1 → t.journal.pending = s.journal.pending ++ [arrived])
      ∧ others t ∧ t.roster = s.roster ∧ t.attention = s.attention)
    ∧ (k.state = .onSite → k.accepter = some m → r .arrived = (sendConfirm k m s, []))
    ∧ (k.state = .paging ∨ k.state = .held → decideAccept s c m = .taken →
      let t := (r .arrived).1
      (context t c).state = .onSite ∧ (context t c).accepter = some m ∧ (context t c).site = .member
      ∧ (context t c).acceptTick = s.tickCount ∧ (context t c).arriveTick = s.tickCount ∧ (context t c).arrival = .stopped
      ∧ (hasRoom s (k.contacted.length + 3) → ∃ before between rest, t.journal.pending = s.journal.pending ++ before
        ++ { callRecord .accepted k with
          tick := s.tickCount, member := some m, detail1 := k.rung * 256 + k.pass
          detail2 := (if k.isCurrent m then 1 else 0) + (if (member s m).engaged.isSome then 2 else 0) } :: between
        ++ arrived :: rest)
      ∧ (r .arrived).2.getLast? = some (.dropBreakIn m))
    ∧ (∀ cause, k.state = .paging ∨ k.state = .held → decideAccept s c m = .refused cause →
      r .arrived = (standsDown .arrived cause .busy, []) ∧ cause ∈ [.busy, .offDuty])
    ∧ (k.state = .accepted ∨ k.state = .onSite → k.accepter = some m →
      (r .clear).2 = [.admitHeads] ∧ isEndedAfter s (r .clear).1 c .cleared .clearedByMember
      ∧ ∀ i, k.slot = some i → i < s.area.slots.length → k.state = .accepted →
        (slotImage (r .clear).1 i).site = .member ∧ (slotImage (r .clear).1 i).arriveTick = s.tickCount)
    ∧ (k.state = .accepted ∨ k.state = .onSite → ∀ a, k.accepter = some a → a ≠ m →
      r .arrived = (standsDown .arrived .taken .taken, []) ∧ r .clear = (standsDown .clear .taken .taken, []))
    ∧ (k.state = .onSite → k.accepter = none →
      r .arrived = (standsDown .arrived .onSite .ended, []) ∧ r .clear = (standsDown .clear .onSite .ended, []))
    ∧ (k.state = .paging ∨ k.state = .held → r .clear = (standsDown .clear .notAccepter .ended, []))

/-- R84, R85, R94, R82: an enqueue replaces the entry of the same tag, member and kind; else it is placed where there is room; else it
displaces the last entry if that has a lower urgency, and is not placed otherwise. An entry is placed after every entry of its urgency or
a higher one, so that a queue in order stays in order. A delivery copy that is placed is QUEUED; that it stops the retry window only once
no copy of its record is DEFERRED, where R56 says that the message is queued again, is the model's reading (log 47). One that is not
placed, or that is displaced, is DEFERRED in its record and waits: for the receipt window, or as a REMIND for the remind interval, if that
runs, and else a retry window starts with the receipt window setting; no journal record is submitted for it. A control message that is not
placed, or displaced, is dropped with MESSAGE DROPPED, with the cause FULL or DISPLACED, the line and the drop. Nothing else changes. That
a placed entry has the count before its step (log 75), that a retry window started already keeps its expiry (log 55), that a frozen window
does not run (log 36), and the call fields of a record whose tag is stale (log 29) are the model's. -/
def Obligations.EnqueueSettlesByTheThreeCases : Prop :=
  (∀ (e : AirEntry) (q : List AirEntry), q.Pairwise (fun a b => b.urgency ≤ a.urgency) → q.length ≤ 16 →
    let p := settleEntry e q
    let rest := q.filter fun x => !e.sameMessage x
    let place (l : List AirEntry) : List AirEntry :=
      l.filter (fun x => e.urgency ≤ x.urgency) ++ e :: l.filter (fun x => x.urgency < e.urgency)
    p.queue.Pairwise (fun a b => b.urgency ≤ a.urgency) ∧ p.queue.length ≤ 16
    ∧ (rest ≠ q → p = { queue := place rest, placed := true, displaced := none })
    ∧ (rest = q → q.length < 16 → p = { queue := place q, placed := true, displaced := none })
    ∧ (∀ before lowest, rest = q → q.length = 16 → q = before ++ [lowest] →
      (lowest.urgency < e.urgency → p = { queue := place before, placed := true, displaced := some lowest })
      ∧ (e.urgency ≤ lowest.urgency → p = { queue := q, placed := false, displaced := none })))
  ∧ ∀ (s : State) (m : Message) (carriage : Carriage) (l : LineId) (a : Nat) (d : Drop), drop? s l a = some d →
    let e : AirEntry :=
      { message := m, urgency := messageUrgency s m carriage.endUrgency, order := s.dispatcher.order, carriage := carriage }
    let p := settleEntry e d.queue
    let t := enqueue m carriage l a s
    let isLeftOut : AirEntry → Nat → Prop := fun x cause => p.placed = false ∧ x = e ∧ cause = 1 ∨ p.displaced = some x ∧ cause = 2
    let marked : CopyState → Delivery → Delivery := fun st r =>
      { r with copies := r.copies.map fun x => if x.line = l ∧ x.drop = a then { x with state := st } else x }
    let waits : Delivery → Prop := fun r => r.receipt.isRunning = true ∨ r.retry.active = true
      ∨ r.key.kind = .remind ∧ tagLive s r.key.tag = true
        ∧ ∃ c, (context s (r.key.tag % 128)).contact r.key.member = some c ∧ c.remind.isRunning = true
    let isOwn : Nat → Prop := fun serial => p.placed = true ∧ ∃ st, carriage = .delivery serial st
    drop? t l a = some { d with queue := p.queue } ∧ (∀ o b, (o, b) ≠ (l, a) → drop? t o b = drop? s o b)
    ∧ t.dispatcher.order = s.dispatcher.order + (if p.placed then 1 else 0)
    ∧ t.calls = s.calls ∧ t.roster = s.roster ∧ t.attention = s.attention ∧ t.area = s.area ∧ t.latches = s.latches
    ∧ t.engine = s.engine ∧ t.tickCount = s.tickCount
    ∧ (∀ serial st r, p.placed = true → carriage = .delivery serial st → delivery? s serial = some r →
      (∀ x st', p.displaced = some x → x.carriage ≠ .delivery serial st') →
      delivery? t serial = some { marked .queued r with
        retry := if (marked .queued r).copies.any (·.state == .deferred) then r.retry else .stopped })
    ∧ (∀ x cause serial st r, isLeftOut x cause → x.carriage = .delivery serial st → delivery? s serial = some r → ¬isOwn serial →
      t.journal = s.journal
      ∧ (waits r → delivery? t serial = some (marked .deferred r))
      ∧ (¬waits r → delivery? t serial = some { marked .deferred r with
        retry := startWindow s s.roster.settings.receiptWindow }))
    ∧ (∀ x cause pos route u, isLeftOut x cause → x.carriage = .control pos route u →
      let record : JournalRecord := { (if tagLive s x.message.tag then callRecord .messageDropped (context s (x.message.tag % 128))
          else blankRecord .messageDropped) with
        tick := s.tickCount, tag := some x.message.tag, member := some x.message.member, line := some l, drop := a
        detail1 := x.message.kind.code, detail2 := cause }
      (s.journal.state = .writing → s.area.memoryFault = false → s.journal.pending.length < 64 →
        t.journal.pending = s.journal.pending ++ [record])
      ∧ (∀ serial, (∀ st, carriage ≠ .delivery serial st) → delivery? t serial = delivery? s serial))
    ∧ (p.placed = true → p.displaced = none → t.journal = s.journal)

/-- R65, R66, R67, R68, R70, R81: the state of a member record by the first matching row: ENGAGED, OFF SHIFT, PAGED, IDLE. The paged count
steps and lowers by one; an engagement holds its tag; a release ends it with the off-duty-pending mark; a report gives the last-heard zone and
tick; each changes that record alone, and a change of it marks its mirror entry dirty. -/
def Obligations.MemberStateIsTheFirstMatchingRow : Prop :=
  (∀ (duty : Bool) (r : Member),
    (Member.state duty r = .engaged ↔ r.engaged ≠ none)
    ∧ (Member.state duty r = .offShift ↔ r.engaged = none ∧ duty = false)
    ∧ (Member.state duty r = .paged ↔ r.engaged = none ∧ duty = true ∧ r.paged ≠ 0)
    ∧ (Member.state duty r = .idle ↔ r.engaged = none ∧ duty = true ∧ r.paged = 0))
  ∧ ∀ (s : State) (m tag zone : Nat), m < s.roster.members.length →
    let old := member s m
    ∀ p ∈ [(stepPaged m s, { old with paged := old.paged + 1 }), (lowerPaged m s, { old with paged := old.paged - 1 })
        , (engage m tag s, { old with engaged := some tag })
        , (release m s, { old with engaged := none, offDutyPending := false })
        , (heard m zone s, { old with lastZone := some zone, lastTick := s.tickCount })],
      member p.1 m = (if p.2 = old then old else { p.2 with dirty := true, touched := true })
      ∧ (∀ j, j ≠ m → member p.1 j = member s j)
      ∧ p.1 = { s with roster := { s.roster with members := p.1.roster.members } }

/-- R107, R110, R111, R113, R116, R18, R32: an ACCEPT with a live tag is decided by the first row that applies, whatever the declined,
unreached, received, cancelled and current marks of the member's entry are. A repeat is answered with a CONFIRM, a refusal with a STAND
DOWN and no entry, and a taken ACCEPT makes the member the accepter, with an entry made where there was none, without the current mark and
without a paged-count step. The break-in mark is removed as the member's own call goes ON SITE or is raised to severity 1; a current
member loses the current mark with it and is sent a CANCEL. What is the model's choice: that a MESSAGE DROPPED of the STAND DOWN precedes
STAND DOWN SENT (log 65); that the break-in mark goes from entries that are not current as well (log 32); that the tests of the rungs
follow every loss (log 70); and that a call that goes ON SITE submits ARRIVED before these losses (log 82). -/
def Obligations.AcceptIsDecidedByTheFirstRow : Prop :=
  (∀ (s : State) (c m : Nat),
    let k := context s c
    let settled : Prop := k.state = .accepted ∨ k.state = .onSite
    let breakIn : Prop := k.severity = 1 ∧ s.roster.settings.breakIn = true ∧ ∃ e, k.contact m = some e ∧ e.breakIn = true
    let standsDown : StandCause → StandReason → State × List Task := fun cause reason =>
      (submit { tagRecord s .standDownSent k.tag with member := some m, detail1 := ReportKind.accept.code, detail2 := cause.code }
        (sendControl { kind := .standDown, tag := k.tag, member := m, pager := effectivePager s.roster.tables m, callNumber := 0
                       severity := 0, zone := 0, breakIn := false, text := [], reason := some reason } none none s), [])
    (decideAccept s c m = .repeated ↔ settled ∧ k.accepter = some m)
    ∧ (decideAccept s c m = .refused .taken ↔ settled ∧ ∃ a, k.accepter = some a ∧ a ≠ m)
    ∧ (decideAccept s c m = .refused .onSite ↔ settled ∧ k.accepter = none)
    ∧ (decideAccept s c m = .refused .offDuty ↔ ¬settled ∧ onDuty s.roster.tables m = false)
    ∧ (decideAccept s c m = .refused .busy ↔ ¬settled ∧ onDuty s.roster.tables m = true ∧ (member s m).engaged ≠ none ∧ ¬breakIn)
    ∧ (decideAccept s c m = .taken ↔ ¬settled ∧ onDuty s.roster.tables m = true ∧ ((member s m).engaged = none ∨ breakIn))
    ∧ (∀ f : Contact → Contact, (∀ e, (f e).member = e.member ∧ (f e).breakIn = e.breakIn) →
      decideAccept (modContext c (Context.modContact m f) s) c m = decideAccept s c m)
    ∧ (decideAccept s c m = .repeated → answerAccept c m s = (sendConfirm k m s, []))
    ∧ (decideAccept s c m = .refused .taken → answerAccept c m s = standsDown .taken .taken)
    ∧ (decideAccept s c m = .refused .onSite → answerAccept c m s = standsDown .onSite .ended)
    ∧ (decideAccept s c m = .refused .offDuty → answerAccept c m s = standsDown .offDuty .busy)
    ∧ (decideAccept s c m = .refused .busy → answerAccept c m s = standsDown .busy .busy)
    ∧ (∀ cause, decideAccept s c m = .refused cause → (answerAccept c m s).1.calls = s.calls)
    ∧ (decideAccept s c m = .taken → c < s.calls.contexts.length →
      (context (answerAccept c m s).1 c).accepter = some m
      ∧ (k.contact m = none → (context (takeAccept c m s) c).contact m = some (Contact.blank m k.rung k.pass)
        ∧ (member (takeAccept c m s) m).paged = (member s m).paged)))
  ∧ ∀ (s : State) (m : Nat),
    (∀ c e, c < 65 → (∀ tag, (member s m).engaged = some tag → tag % 128 ≠ c) →
      (context s c).contact m = some e → e.breakIn = true →
      (context (dropBreakIn m s).1 c).contact m = some { e with
        breakIn := false, current := false, remind := if (context s c).isCurrent m then .stopped else e.remind
        cancelled := e.cancelled || (context s c).isCurrent m })
    ∧ (∀ lost : List Nat, lost.Nodup → (∀ c, c ∈ lost ↔ c < 65 ∧ (context s c).isCurrent m = true
          ∧ (∀ tag, (member s m).engaged = some tag → tag % 128 ≠ c)
          ∧ ∃ e, (context s c).contact m = some e ∧ e.breakIn = true) →
      (∀ d n, Task.lostMark d n ∈ (dropBreakIn m s).2 ↔ d ∈ lost ∧ n = m)
      ∧ (member (dropBreakIn m s).1 m).paged = (member s m).paged - lost.length
      ∧ (s.journal.state = .writing → s.area.memoryFault = false → s.journal.pending.length + lost.length ≤ 64 →
        ∀ c ∈ lost, isQueuedOrDropped (dropBreakIn m s).1 .cancel (context s c).tag m (effectivePager s.roster.tables m)))
    ∧ (∀ c, (context s c).accepter = some m → (context s c).state = .accepted →
      (answerArrived c m s).2 = [.dropBreakIn m]
      ∧ ∀ l address z, attendTarget s z = some c → (pressAttend l address z s).2 = [.dropBreakIn m])
    ∧ ∀ slot c, contextOfSlot s slot = some c → (context s c).accepter = some m → 1 < (context s c).severity →
      (requestRaise slot 1 s).2 = [.dropBreakIn m]

/-- R108, R67, R69, R74, R109, R44, R45: a taken ACCEPT makes the call ACCEPTED with its accepter and its accept rung, stops the deadline and
any turn, starts the first arrival window, removes every current mark, sends a CANCEL to the contacted members but the accepter and those
who declined or had one, and a CONFIRM to the accepter, each of which stands in an air queue or has been dropped with its record, submits
ACCEPTED, engages the member with the call's tag, moves the rotation pointers and takes the call out of every latch. Every other call that
holds the member current without the break-in mark loses the mark, with a CANCEL; every other call is as it was. Where the member was
engaged, the record BREAK-IN follows and the previous call reopens. A reopening marks the former accepter's entry by its cause, with a
CANCEL but for a DECLINE, and submits REOPENED with the cause and the accept rung. What is the model's: the order, own call first and the
tests of lost marks last (log 31); that BREAK-IN is submitted before the previous call's CANCEL, and REOPENED after it (log 52); that the
bits of ACCEPTED's detail without a meaning are 0 (log 86); and what a new entry in a full list gives up (log 57). -/
def Obligations.TakenAcceptMakesTheCallAccepted : Prop :=
  (∀ (s : State) (c m : Nat), c < s.calls.contexts.length → m < s.roster.members.length → decideAccept s c m = .taken →
    let k := context s c
    let r := answerAccept c m s
    let t := r.1
    let holds : Nat → Prop := fun d => d < 65 ∧ d ≠ c ∧
      ∃ e, (context s d).contact m = some e ∧ e.current = true ∧ e.breakIn = false
    (context t c).state = .accepted ∧ (context t c).accepter = some m ∧ (context t c).acceptRung = k.rung
    ∧ (context t c).acceptTick = s.tickCount ∧ (context t c).deadline = .stopped ∧ (context t c).turn = .stopped
    ∧ (context t c).arrivalCount = 1 ∧ (context t c).currentMembers = []
    ∧ (context t c).arrival = startWindow s (classLength s k (callLadder s k).arrivalClass)
    ∧ (context t c).rung = k.rung ∧ (context t c).pass = k.pass ∧ (context t c).tag = k.tag ∧ (context t c).severity = k.severity
    ∧ (∀ i, k.slot = some i → i < s.area.slots.length → (slotImage t i).state = .accepted ∧ (slotImage t i).accepter = some m
      ∧ (slotImage t i).acceptTick = s.tickCount)
    ∧ ((k.contacted.map (·.member)).Nodup → (k.contact m).isSome = true → ∀ j e, k.contact j = some e →
      (context t c).contact j = some { e with
        current := false, remind := if e.current then .stopped else e.remind
        cancelled := e.cancelled || (j != m && !e.declined) })
    ∧ (s.dispatcher.ok → ∀ w ∈ t.dispatcher.records, w.key.tag = k.tag → k.isCurrent w.key.member = true →
      w.key.kind = .arrivalCheck)
    ∧ (member t m).engaged = some k.tag ∧ (∀ j, j ≠ m → (member t j).engaged = (member s j).engaged)
    ∧ (∀ j, j ≠ m → (member t j).paged = (member s j).paged - if k.isCurrent j then 1 else 0)
    ∧ (∀ l : List Nat, l.Nodup → (∀ d, d ∈ l ↔ holds d) →
      (member t m).paged = (member s m).paged - (if k.isCurrent m then 1 else 0) - l.length
      ∧ (s.journal.state = .writing → s.area.memoryFault = false →
        s.journal.pending.length + k.contacted.length + l.length + 2 ≤ 64 →
        isQueuedOrDropped t .confirm k.tag m (effectivePager s.roster.tables m)
        ∧ ((k.contact m).isSome = true → ∀ j e, j ≠ m → k.contact j = some e → e.declined = false → e.cancelled = false →
          isQueuedOrDropped t .cancel k.tag j (effectivePager s.roster.tables j))
        ∧ (∀ d, holds d → isQueuedOrDropped t .cancel (context s d).tag m (effectivePager s.roster.tables m))
        ∧ { callRecord .accepted k with
            tick := s.tickCount, member := some m, detail1 := k.rung * 256 + k.pass
            detail2 := (if k.isCurrent m then 1 else 0) + (if (member s m).engaged.isSome then 2 else 0) } ∈ t.journal.pending))
    ∧ t.roster.pointers = (s.roster.pointers.mapIdx fun i p =>
      match (crewList s.roster.tables i).findIdx? (· == m) with
      | none => p
      | some n => if n + 1 < (crewList s.roster.tables i).length then n + 1 else 0)
    ∧ (∀ l ∈ t.latches, c ∉ l) ∧ t.calls.backlog = s.calls.backlog
    ∧ (∀ d, holds d → context t d = (context s d).modContact m fun e =>
      { e with current := false, remind := .stopped, cancelled := true })
    ∧ (∀ d, d ≠ c → ¬holds d → context t d = context s d)
    ∧ (∀ d, Task.lostMark d m ∈ r.2 ↔ holds d)
    ∧ (∀ d p, Task.breakInTaken d p ∈ r.2 ↔ d = c ∧ (member s m).engaged = some p)
    ∧ t.engine = s.engine ∧ t.tickCount = s.tickCount ∧ t.attention = s.attention)
  ∧ (∀ (s : State) (c p : Nat),
    (breakInTaken c p s).1 = submit { callRecord .breakIn (context s c) with
      member := (context s c).accepter, detail1 := p } s
    ∧ (tagLive s p = true → (context s (p % 128)).accepter = (context s c).accepter →
      (breakInTaken c p s).2 = [.reopen (p % 128) .breakIn]))
  ∧ ∀ (s : State) (c m : Nat) (cause : ReopenCause), c < s.calls.contexts.length → s.dispatcher.ok →
    (context s c).state = .accepted → (context s c).accepter = some m →
    let k := context s c
    let t := (reopen c cause s).1
    (context t c).state = .paging ∧ (context t c).accepter = none ∧ (context t c).acceptTick = 0
    ∧ (context t c).arrivalCount = 0 ∧ (context t c).arrival = .stopped ∧ (context t c).tag = k.tag
    ∧ (∀ e, k.contact m = some e → (context t c).contact m = some (match cause with
      | .decline => { e with declined := true }
      | .secondArrivalWindow => { e with unreached := true, cancelled := true }
      | .breakIn => { e with cancelled := true }))
    ∧ (cause = .breakIn → t.roster = s.roster) ∧ (cause ≠ .breakIn → (member t m).engaged = none)
    ∧ deliveryOf t { tag := k.tag, member := m, kind := .arrivalCheck } = none
    ∧ (∀ i, k.slot = some i → i < s.area.slots.length →
      (slotImage t i).state = .paging ∧ (slotImage t i).accepter = none ∧ (slotImage t i).acceptTick = 0)
    ∧ (∀ d, d ≠ c → context t d = context s d) ∧ t.attention = s.attention
    ∧ (s.journal.state = .writing → s.area.memoryFault = false → s.journal.pending.length + 2 ≤ 64 →
      let record : JournalRecord := { callRecord .reopened k with
        tick := s.tickCount, detail1 := cause.code, detail2 := k.acceptRung }
      t.journal.pending.getLast? = some record
      ∧ (cause = .decline → t.journal.pending = s.journal.pending ++ [record])
      ∧ (cause ≠ .decline → isQueuedOrDropped t .cancel k.tag m (effectivePager s.roster.tables m)))
    ∧ (reopen c cause s).2 = [if k.acceptRung < (callLadder s k).effectiveLast then Task.enterRung c (k.acceptRung + 1)
      else .pastLast c]

/-- R29, R30, R33, R35 to R40, R52, R141: a PAGING call that enters a rung has it as its present rung, with the deadline started at the length
for the rung's window class at this moment, frozen while PAUSED; ESCALATED is raised when the rung is at or past the stop rung, and RUNG
ENTERED is submitted. The rung then acts on its target: CREW-ROTATE makes the first of its pool current from the rotation pointer on, with
a turn of the length of R52; CREW-ALL makes all of its pool current; MEMBER its one member; and the beacon kinds join their latches. The
pool is the crew's distinct eligible members, or else, for a call that qualifies, its break-in candidates. A rung with nobody to page, no
servable zone, or no target kind of the five is unservable: it submits NO ONE AVAILABLE after RUNG ENTERED and ends. -/
def Obligations.EnteringARungStartsItsDeadline : Prop :=
  (∀ (s : State) (c m : Nat),
    (eligible s c m = true ↔ onDuty s.roster.tables m = true ∧ (member s m).engaged = none
      ∧ ∀ e, (context s c).contact m = some e → e.declined = false ∧ e.unreached = false)
    ∧ (candidate s c m = true ↔ onDuty s.roster.tables m = true
      ∧ (∀ e, (context s c).contact m = some e → e.declined = false ∧ e.unreached = false)
      ∧ ∃ p, (member s m).engaged = some p ∧ tagLive s p = true ∧ (context s (p % 128)).state = .accepted
        ∧ 2 ≤ (context s (p % 128)).severity))
  ∧ ∀ (s : State) (c rung : Nat), c < s.calls.contexts.length → (context s c).state = .paging → s.dispatcher.ok →
    let before := context s c
    let r := (callLadder s before).rung rung
    let d := classLength s before r.windowClass
    let list := crewList s.roster.tables r.number
    let isFirst : Nat → Prop := fun i => ∀ j, j < i → list.getD j 0 ≠ list.getD i 0
    let eligibles := (distinct list).filter (eligible s c)
    let pool := if eligibles ≠ [] then eligibles
      else if before.severity = 1 ∧ s.roster.settings.breakIn = true then (distinct list).filter (candidate s c) else []
    let joins : Nat → Prop := fun z => if r.kind = 4 ∧ before.zone ≠ 0 then z = before.zone
      else zoneEnabled s.roster.tables z = true
    let u := enterRung c rung s
    let t := u.1
    let k := context t c
    let isPaged : Nat → Prop := fun m => k.isCurrent m = true
      ∧ (∃ e, k.contact m = some e ∧ e.current = true ∧ e.received = false ∧ e.cancelled = false
        ∧ e.breakIn = (member s m).engaged.isSome ∧ e.rung = rung ∧ e.pass = before.pass ∧ e.remind = .stopped ∧ e.remindCount = 0)
      ∧ (deliveryOf t { tag := before.tag, member := m, kind := .page }).isSome = true
      ∧ (m < s.roster.members.length → before.isCurrent m = false → (member t m).paged = (member s m).paged + 1)
    let isUnservable : Prop := u.2 = [.endRung c] ∧ k.turn = .stopped ∧ k.madeCurrent = [] ∧ k.contacted = before.contacted
      ∧ t.roster = s.roster ∧ t.dispatcher = s.dispatcher
      ∧ (s.journal.state = .writing → s.area.memoryFault = false → s.journal.pending.length < 63 →
        r.kind < 16 → r.number < 4096 →
        let record : RecordKind → JournalRecord := fun kind => { callRecord kind before with
          tick := s.tickCount, detail1 := rung * 256 + before.pass, detail2 := r.kind * 4096 + r.number }
        t.journal.pending = s.journal.pending ++ [record .rungEntered, record .noOneAvailable])
    k.rung = rung ∧ k.state = .paging ∧ k.pass = before.pass ∧ k.tag = before.tag
    ∧ k.deadline = (if s.engine = .paused then .frozen d else .running (s.tickCount + BitVec.ofNat 32 d))
    ∧ (∀ i, before.slot = some i → i < s.area.slots.length →
      (slotImage t i).rung = rung ∧ (slotImage t i).pass = before.pass ∧ (slotImage t i).state = .paging)
    ∧ t.attention.event = s.attention.event |||
      (if ∃ p, (callLadder s before).stopRung = some p ∧ p ≤ rung then BitVec.twoPow 14 2 else 0)
    ∧ (∀ x, x ≠ c → context t x = context s x) ∧ t.calls.backlog = s.calls.backlog ∧ t.tickCount = s.tickCount
    ∧ (hasRoom s 1 → r.kind < 16 → r.number < 4096 → ∃ rest, t.journal.pending = s.journal.pending
      ++ { callRecord .rungEntered before with
        tick := s.tickCount, detail1 := rung * 256 + before.pass, detail2 := r.kind * 4096 + r.number } :: rest)
    ∧ (r.kind ∉ [4, 5] → t.latches = s.latches)
    ∧ (r.kind ∉ [1, 2, 3, 4, 5] → isUnservable)
    ∧ (r.kind ∈ [1, 2] → s.roster.tables.crews.length ≤ r.number ∨ pool = [] → isUnservable)
    ∧ (∀ j, r.kind = 1 → r.number < s.roster.tables.crews.length → j < list.length →
      let at' : Nat → Nat := fun n => (s.roster.pointers.getD r.number 0 + n) % list.length
      let fits : Nat → Prop := fun n => isFirst (at' n) ∧ list.getD (at' n) 0 ∈ pool
      fits j → (∀ n, n < j → ¬fits n) →
      let m := list.getD (at' j) 0
      let length := min d (max s.roster.settings.minimumTurn ⌈(d : ℚ) / pool.length⌉.toNat)
      u.2 = [] ∧ k.mode = .rotate ∧ k.turnMember = some m ∧ k.turnCount = pool.length ∧ k.turnLength = length
        ∧ k.firstPosition = at' j ∧ k.madeCurrent = [m] ∧ isPaged m
        ∧ k.turn = (if s.engine = .paused then .frozen length else .running (s.tickCount + BitVec.ofNat 32 length)))
    ∧ (r.kind = 2 → r.number < s.roster.tables.crews.length → pool ≠ [] →
      u.2 = [] ∧ k.mode = .all ∧ k.madeCurrent = pool ∧ k.turn = .stopped ∧ (∀ m ∈ pool, isPaged m)
        ∧ ∀ m, m ∉ pool → member t m = member s m)
    ∧ (r.kind = 3 → r.number < s.roster.tables.roster.length → eligible s c r.number = true →
      u.2 = [] ∧ k.mode = .member ∧ k.madeCurrent = [r.number] ∧ k.turn = .stopped ∧ isPaged r.number)
    ∧ (r.kind = 3 → s.roster.tables.roster.length ≤ r.number ∨ eligible s c r.number = false → isUnservable)
    ∧ (r.kind ∈ [4, 5] → s.latches.length = 24 →
      (∀ z x, 1 ≤ z → z ≤ 24 → (x ∈ latch t z ↔ x ∈ latch s z ∨ x = c ∧ joins z))
      ∧ ((∃ z, 1 ≤ z ∧ z ≤ 24 ∧ joins z ∧ zoneServable s z = true) →
        u.2 = [] ∧ k.mode = .beacon ∧ k.madeCurrent = [] ∧ k.turn = .stopped ∧ t.roster = s.roster)
      ∧ (before.zone ≤ 24 → (∀ z, 1 ≤ z → z ≤ 24 → joins z → zoneServable s z = false) → isUnservable))

/-- R142 to R144, R148, R116, R117: the CALL lamp command of a zone by the most severe present severity in its latch, whatever else holds; the
ATTEND command by the calls of the zone that are ACCEPTED or ON SITE, or ON SITE by a station of it; and every station's commands are its
zone's as an event closes (that they are computed then is the model's choice: log 45). A press shorter than the press minimum is
discarded; an ATTEND press takes the best candidate ON SITE with the record ARRIVED, with its accepter if it has one and no message sent,
or with nobody current, out of its latches, and a CANCEL to each contacted member who has neither declined nor had one; a CLEAR press ends
the call that this station took ON SITE first. That the record ARRIVED of an ATTEND press precedes the losses of break-in marks in third
calls is the model's choice (log 82), and that the context of the call that a CLEAR press ends is cleared of more than R20 names is too
(log 1). -/
def Obligations.CallLampFollowsTheMostSevereCall : Prop :=
  (∀ (s : State) (z : Nat), (∀ c ∈ latch s z, 1 ≤ (context s c).severity) →
    (latch s z = [] → callCommand s z = .off)
    ∧ (∀ c ∈ latch s z, (∀ d ∈ latch s z, (context s c).severity ≤ (context s d).severity) →
      callCommand s z = if (context s c).severity = 1 then .fast else if (context s c).severity = 2 then .slow else .steady)
    ∧ ∀ (l : LineId) (a : Nat) (d : Drop) (t : Station), drop? (recomputeLamps s) l a = some d → d.station = some t →
      d.zone = z → t.call.commanded = callCommand s z ∧ t.attend.commanded = attendCommand s z)
  ∧ (∀ (s : State) (z : Nat),
    let attended : Prop := ∃ k ∈ s.calls.contexts, (k.state = .accepted ∨ k.state = .onSite) ∧ k.zone = z
      ∨ k.state = .onSite ∧ ∃ l a d, k.site = .station l a ∧ drop? s l a = some d ∧ d.zone = z
    (attended → attendCommand s z = .steady) ∧ (¬attended → attendCommand s z = .off))
  ∧ ∀ (s : State) (l : LineId) (a : Nat) (data : List Byte) (d : Drop), drop? s l a = some d → s.dispatcher.ok →
    let age : Tick → Nat := fun tick => (s.tickCount - tick).toNat
    let candidate : Nat → Prop := fun c => c < 65 ∧ (context s c).state ∈ [.paging, .held, .accepted]
      ∧ ((context s c).zone = d.zone ∨ (context s c).zone = 0 ∧ c ∈ latch s d.zone)
    let beats : Nat → Nat → Prop := fun c b => (context s c).severity < (context s b).severity
      ∨ (context s c).severity = (context s b).severity ∧ (age (context s b).admitTick < age (context s c).admitTick
        ∨ age (context s b).admitTick = age (context s c).admitTick ∧ c < b)
    let taken : Nat → Prop := fun c => c < 65 ∧ (context s c).state = .onSite ∧ (context s c).site = .station l a
    let first : Nat → Nat → Prop := fun c b => age (context s b).arriveTick < age (context s c).arriveTick
      ∨ age (context s b).arriveTick = age (context s c).arriveTick ∧ c < b
    let arrived : Nat → JournalRecord := fun c => { callRecord .arrived (context s c) with
      tick := s.tickCount, detail1 := (Site.station l a).code, detail2 := lineCode l * 256 + a }
    let r := matchPress l a data s
    (byteAt data 1 < s.roster.settings.pressMinimum → r = (s, []))
    ∧ (s.roster.settings.pressMinimum ≤ byteAt data 1 →
      (byteAt data 0 = 8 → (∀ c, ¬candidate c) → r = (s, []))
      ∧ (∀ c, byteAt data 0 = 8 → candidate c → (∀ b, candidate b → b ≠ c → beats c b) →
        let k := context r.1 c
        k.state = .onSite ∧ k.site = .station l a ∧ k.arriveTick = s.tickCount ∧ k.arrival = .stopped
        ∧ k.accepter = (context s c).accepter ∧ k.acceptTick = (context s c).acceptTick
        ∧ (∀ i, (context s c).slot = some i → i < s.area.slots.length → (slotImage r.1 i).state = .onSite
          ∧ (slotImage r.1 i).site = .station l a ∧ (slotImage r.1 i).arriveTick = s.tickCount)
        ∧ (∀ b, b ≠ c → context r.1 b = context s b) ∧ r.1.attention = s.attention
        ∧ r.1.roster.pointers = s.roster.pointers
        ∧ ((context s c).state = .accepted → (hasRoom s 1 → r.1.journal.pending = s.journal.pending ++ [arrived c])
          ∧ ∀ o b x, drop? r.1 o b = some x → ∃ y, drop? s o b = some y ∧ x.queue.Sublist y.queue)
        ∧ ((context s c).state ≠ .accepted →
          areCancelled s r.1 (context s c) (fun e => e.declined = false ∧ e.cancelled = false) ((context s c).contacted.length + 1)
          ∧ isSubmitted s r.1 (arrived c) ((context s c).contacted.length + 1))
        ∧ ((context s c).state = .accepted → r.1.latches = s.latches ∧ k.contacted = (context s c).contacted
          ∧ r.2 = (context s c).accepter.toList.map Task.dropBreakIn)
        ∧ ((context s c).state ≠ .accepted → r.2 = [] ∧ k.deadline = .stopped ∧ k.turn = .stopped ∧ k.currentMembers = []
          ∧ (∀ x ∈ r.1.latches, c ∉ x)
          ∧ (((context s c).contacted.map (·.member)).Nodup → ∀ j e, (context s c).contact j = some e →
            k.contact j = some { e with
              current := false, remind := if e.current then .stopped else e.remind
              cancelled := e.cancelled || !e.declined })))
      ∧ (byteAt data 0 = 9 → (∀ c, ¬taken c) → r = (s, []))
      ∧ (∀ c, byteAt data 0 = 9 → taken c → (∀ b, taken b → b ≠ c → first c b) →
        r.2 = [.admitHeads] ∧ isEndedAfter s r.1 c .cleared .clearedByStation))

/-! ## The whole block -/

/-- R170, R171, R175, R176, R47: every command completes, and what belongs to the host or to the run alone changes by its own
commands only: AREA BASE by its write and a full reset, MASK by its write and a full reset, the tick count by a tick, START and the
resets, the supervision lock, once set, by a full reset; and no command touches the queue of those that wait. The queue is the model's
own, and that no command, resets included, touches it is the model's choice (log 6, log 13). -/
def Obligations.HostStateChangesOnlyByItsOwnCommands : Prop :=
  ∀ (c : Instr) (s : State), ∃ t : State, exec c s = .next t ∧ t.pending = s.pending
    ∧ (c ≠ .fullReset → (∀ half v, c ≠ .areaBaseWrite half v) →
      t.window.baseLow = s.window.baseLow ∧ t.window.baseHigh = s.window.baseHigh)
    ∧ (c ≠ .fullReset → (∀ v, c ≠ .attentionMaskWrite v) → t.attention.mask = s.attention.mask)
    ∧ (c ∉ [.tick, .fullReset, .resetEngine false, .resetEngine true, .start false, .start true] → t.tickCount = s.tickCount)
    ∧ (c ≠ .fullReset → s.watch.locked = true → t.watch.locked = true ∧ t.watch.lockedLimit = s.watch.lockedLimit)

/-- R175: a cause that is latched in EVENT stays latched until the host writes it away or a reset clears it. -/
def Obligations.LatchedCausesStayUntilCleared : Prop :=
  ∀ (c : Instr) (s t : State), c ∉ [.fullReset, .resetEngine false, .resetEngine true] → (∀ v, c ≠ .attentionEventWrite v) →
    exec c s = .next t → ∀ i, s.attention.event.getLsbD i = true → t.attention.event.getLsbD i = true

/-- R2, R161: server memory changes only by the command that completes a write of the part, or that ends it in error, and then only at the
addresses of the transaction in progress, each of which holds what it held or a byte that the transaction has for it; so no other command
and no step on an empty queue changes a byte. That the bytes of one write reach memory together, as it completes, and none before, is the
model's choice (log 26), and that a write which a reset or IDLE cuts off leaves nothing is its reading (log 23). -/
def Obligations.ServerMemoryChangesOnlyByTheTransactionInProgress : Prop :=
  let changes : Instr → State → State → Prop := fun c s t =>
    ∀ i, Memory.read t.memory i = Memory.read s.memory i
      ∨ (∃ x, s.area.bus = some x
        ∧ (x.op.writeDone = some c ∨ c = .busErrorCompletion .area ∨ c = .busCompletionTimeout .area)
        ∧ ∃ w ∈ x.writes ++ x.lastWrites, w.1 = i ∧ Memory.read t.memory i = some w.2)
      ∨ ∃ x, s.journal.bus = some x
        ∧ (x.op.writeDone = some c ∨ c = .busErrorCompletion .journal ∨ c = .busCompletionTimeout .journal)
        ∧ ∃ w ∈ x.writes ++ x.lastWrites, w.1 = i ∧ Memory.read t.memory i = some w.2
  (∀ (c : Instr) (s t : State), exec c s = .next t → changes c s t)
    ∧ (∀ (c : Instr) (rest : List Instr) (s t : State), s.pending = c :: rest → step s = .next t → changes c s t)
    ∧ ∀ s t : State, s.pending = [] → step s = .next t → t.memory = s.memory

/-- R12, R64, R66, R83, R84, R130, R141, R164, R165: the bounds that hold of every state of a run are kept by every command, and by every
step whatever waits in the queue. Two of them are the model's own: the canonical form of the memory list, and the serials that tell
delivery records apart (log 13). -/
def Obligations.EveryStepKeepsTheStateInOrder : Prop :=
  (∀ (c : Instr) (s t : State), s.ok → exec c s = .next t → t.ok) ∧ ∀ s t : State, s.ok → step s = .next t → t.ok
end

