-- ==== Sys2Proof/Laws/State.lean ====
section
/-! SUPPORT. Laws/State.lean: what each update of State leaves and what it writes, one lemma per field per update, so that no
later proof unfolds a record update. -/

namespace Sys2Proof.Machine

/-! ### modWindow -/

@[simp] theorem State.modWindow_window (f : RegisterWindow → RegisterWindow) (s : State) : (s.modWindow f).window = f s.window := rfl
@[simp] theorem State.modWindow_engine (f : RegisterWindow → RegisterWindow) (s : State) : (s.modWindow f).engine = s.engine := rfl
@[simp] theorem State.modWindow_tickCount (f : RegisterWindow → RegisterWindow) (s : State) : (s.modWindow f).tickCount = s.tickCount := rfl
@[simp] theorem State.modWindow_attention (f : RegisterWindow → RegisterWindow) (s : State) : (s.modWindow f).attention = s.attention := rfl
@[simp] theorem State.modWindow_watch (f : RegisterWindow → RegisterWindow) (s : State) : (s.modWindow f).watch = s.watch := rfl
@[simp] theorem State.modWindow_area (f : RegisterWindow → RegisterWindow) (s : State) : (s.modWindow f).area = s.area := rfl
@[simp] theorem State.modWindow_roster (f : RegisterWindow → RegisterWindow) (s : State) : (s.modWindow f).roster = s.roster := rfl
@[simp] theorem State.modWindow_calls (f : RegisterWindow → RegisterWindow) (s : State) : (s.modWindow f).calls = s.calls := rfl
@[simp] theorem State.modWindow_dispatcher (f : RegisterWindow → RegisterWindow) (s : State) : (s.modWindow f).dispatcher = s.dispatcher := rfl
@[simp] theorem State.modWindow_line0 (f : RegisterWindow → RegisterWindow) (s : State) : (s.modWindow f).line0 = s.line0 := rfl
@[simp] theorem State.modWindow_line1 (f : RegisterWindow → RegisterWindow) (s : State) : (s.modWindow f).line1 = s.line1 := rfl
@[simp] theorem State.modWindow_latches (f : RegisterWindow → RegisterWindow) (s : State) : (s.modWindow f).latches = s.latches := rfl
@[simp] theorem State.modWindow_journal (f : RegisterWindow → RegisterWindow) (s : State) : (s.modWindow f).journal = s.journal := rfl
@[simp] theorem State.modWindow_memory (f : RegisterWindow → RegisterWindow) (s : State) : (s.modWindow f).memory = s.memory := rfl
@[simp] theorem State.modWindow_agenda (f : RegisterWindow → RegisterWindow) (s : State) : (s.modWindow f).agenda = s.agenda := rfl
@[simp] theorem State.modWindow_draws (f : RegisterWindow → RegisterWindow) (s : State) : (s.modWindow f).draws = s.draws := rfl
@[simp] theorem State.modWindow_pending (f : RegisterWindow → RegisterWindow) (s : State) : (s.modWindow f).pending = s.pending := rfl

/-! ### modAttention -/

@[simp] theorem State.modAttention_window (f : Attention → Attention) (s : State) : (s.modAttention f).window = s.window := rfl
@[simp] theorem State.modAttention_engine (f : Attention → Attention) (s : State) : (s.modAttention f).engine = s.engine := rfl
@[simp] theorem State.modAttention_tickCount (f : Attention → Attention) (s : State) : (s.modAttention f).tickCount = s.tickCount := rfl
@[simp] theorem State.modAttention_attention (f : Attention → Attention) (s : State) : (s.modAttention f).attention = f s.attention := rfl
@[simp] theorem State.modAttention_watch (f : Attention → Attention) (s : State) : (s.modAttention f).watch = s.watch := rfl
@[simp] theorem State.modAttention_area (f : Attention → Attention) (s : State) : (s.modAttention f).area = s.area := rfl
@[simp] theorem State.modAttention_roster (f : Attention → Attention) (s : State) : (s.modAttention f).roster = s.roster := rfl
@[simp] theorem State.modAttention_calls (f : Attention → Attention) (s : State) : (s.modAttention f).calls = s.calls := rfl
@[simp] theorem State.modAttention_dispatcher (f : Attention → Attention) (s : State) : (s.modAttention f).dispatcher = s.dispatcher := rfl
@[simp] theorem State.modAttention_line0 (f : Attention → Attention) (s : State) : (s.modAttention f).line0 = s.line0 := rfl
@[simp] theorem State.modAttention_line1 (f : Attention → Attention) (s : State) : (s.modAttention f).line1 = s.line1 := rfl
@[simp] theorem State.modAttention_latches (f : Attention → Attention) (s : State) : (s.modAttention f).latches = s.latches := rfl
@[simp] theorem State.modAttention_journal (f : Attention → Attention) (s : State) : (s.modAttention f).journal = s.journal := rfl
@[simp] theorem State.modAttention_memory (f : Attention → Attention) (s : State) : (s.modAttention f).memory = s.memory := rfl
@[simp] theorem State.modAttention_agenda (f : Attention → Attention) (s : State) : (s.modAttention f).agenda = s.agenda := rfl
@[simp] theorem State.modAttention_draws (f : Attention → Attention) (s : State) : (s.modAttention f).draws = s.draws := rfl
@[simp] theorem State.modAttention_pending (f : Attention → Attention) (s : State) : (s.modAttention f).pending = s.pending := rfl

/-! ### modWatch -/

@[simp] theorem State.modWatch_window (f : HeartbeatWatch → HeartbeatWatch) (s : State) : (s.modWatch f).window = s.window := rfl
@[simp] theorem State.modWatch_engine (f : HeartbeatWatch → HeartbeatWatch) (s : State) : (s.modWatch f).engine = s.engine := rfl
@[simp] theorem State.modWatch_tickCount (f : HeartbeatWatch → HeartbeatWatch) (s : State) : (s.modWatch f).tickCount = s.tickCount := rfl
@[simp] theorem State.modWatch_attention (f : HeartbeatWatch → HeartbeatWatch) (s : State) : (s.modWatch f).attention = s.attention := rfl
@[simp] theorem State.modWatch_watch (f : HeartbeatWatch → HeartbeatWatch) (s : State) : (s.modWatch f).watch = f s.watch := rfl
@[simp] theorem State.modWatch_area (f : HeartbeatWatch → HeartbeatWatch) (s : State) : (s.modWatch f).area = s.area := rfl
@[simp] theorem State.modWatch_roster (f : HeartbeatWatch → HeartbeatWatch) (s : State) : (s.modWatch f).roster = s.roster := rfl
@[simp] theorem State.modWatch_calls (f : HeartbeatWatch → HeartbeatWatch) (s : State) : (s.modWatch f).calls = s.calls := rfl
@[simp] theorem State.modWatch_dispatcher (f : HeartbeatWatch → HeartbeatWatch) (s : State) : (s.modWatch f).dispatcher = s.dispatcher := rfl
@[simp] theorem State.modWatch_line0 (f : HeartbeatWatch → HeartbeatWatch) (s : State) : (s.modWatch f).line0 = s.line0 := rfl
@[simp] theorem State.modWatch_line1 (f : HeartbeatWatch → HeartbeatWatch) (s : State) : (s.modWatch f).line1 = s.line1 := rfl
@[simp] theorem State.modWatch_latches (f : HeartbeatWatch → HeartbeatWatch) (s : State) : (s.modWatch f).latches = s.latches := rfl
@[simp] theorem State.modWatch_journal (f : HeartbeatWatch → HeartbeatWatch) (s : State) : (s.modWatch f).journal = s.journal := rfl
@[simp] theorem State.modWatch_memory (f : HeartbeatWatch → HeartbeatWatch) (s : State) : (s.modWatch f).memory = s.memory := rfl
@[simp] theorem State.modWatch_agenda (f : HeartbeatWatch → HeartbeatWatch) (s : State) : (s.modWatch f).agenda = s.agenda := rfl
@[simp] theorem State.modWatch_draws (f : HeartbeatWatch → HeartbeatWatch) (s : State) : (s.modWatch f).draws = s.draws := rfl
@[simp] theorem State.modWatch_pending (f : HeartbeatWatch → HeartbeatWatch) (s : State) : (s.modWatch f).pending = s.pending := rfl

/-! ### modArea -/

@[simp] theorem State.modArea_window (f : AreaController → AreaController) (s : State) : (s.modArea f).window = s.window := rfl
@[simp] theorem State.modArea_engine (f : AreaController → AreaController) (s : State) : (s.modArea f).engine = s.engine := rfl
@[simp] theorem State.modArea_tickCount (f : AreaController → AreaController) (s : State) : (s.modArea f).tickCount = s.tickCount := rfl
@[simp] theorem State.modArea_attention (f : AreaController → AreaController) (s : State) : (s.modArea f).attention = s.attention := rfl
@[simp] theorem State.modArea_watch (f : AreaController → AreaController) (s : State) : (s.modArea f).watch = s.watch := rfl
@[simp] theorem State.modArea_area (f : AreaController → AreaController) (s : State) : (s.modArea f).area = f s.area := rfl
@[simp] theorem State.modArea_roster (f : AreaController → AreaController) (s : State) : (s.modArea f).roster = s.roster := rfl
@[simp] theorem State.modArea_calls (f : AreaController → AreaController) (s : State) : (s.modArea f).calls = s.calls := rfl
@[simp] theorem State.modArea_dispatcher (f : AreaController → AreaController) (s : State) : (s.modArea f).dispatcher = s.dispatcher := rfl
@[simp] theorem State.modArea_line0 (f : AreaController → AreaController) (s : State) : (s.modArea f).line0 = s.line0 := rfl
@[simp] theorem State.modArea_line1 (f : AreaController → AreaController) (s : State) : (s.modArea f).line1 = s.line1 := rfl
@[simp] theorem State.modArea_latches (f : AreaController → AreaController) (s : State) : (s.modArea f).latches = s.latches := rfl
@[simp] theorem State.modArea_journal (f : AreaController → AreaController) (s : State) : (s.modArea f).journal = s.journal := rfl
@[simp] theorem State.modArea_memory (f : AreaController → AreaController) (s : State) : (s.modArea f).memory = s.memory := rfl
@[simp] theorem State.modArea_agenda (f : AreaController → AreaController) (s : State) : (s.modArea f).agenda = s.agenda := rfl
@[simp] theorem State.modArea_draws (f : AreaController → AreaController) (s : State) : (s.modArea f).draws = s.draws := rfl
@[simp] theorem State.modArea_pending (f : AreaController → AreaController) (s : State) : (s.modArea f).pending = s.pending := rfl

/-! ### modRoster -/

@[simp] theorem State.modRoster_window (f : RosterStore → RosterStore) (s : State) : (s.modRoster f).window = s.window := rfl
@[simp] theorem State.modRoster_engine (f : RosterStore → RosterStore) (s : State) : (s.modRoster f).engine = s.engine := rfl
@[simp] theorem State.modRoster_tickCount (f : RosterStore → RosterStore) (s : State) : (s.modRoster f).tickCount = s.tickCount := rfl
@[simp] theorem State.modRoster_attention (f : RosterStore → RosterStore) (s : State) : (s.modRoster f).attention = s.attention := rfl
@[simp] theorem State.modRoster_watch (f : RosterStore → RosterStore) (s : State) : (s.modRoster f).watch = s.watch := rfl
@[simp] theorem State.modRoster_area (f : RosterStore → RosterStore) (s : State) : (s.modRoster f).area = s.area := rfl
@[simp] theorem State.modRoster_roster (f : RosterStore → RosterStore) (s : State) : (s.modRoster f).roster = f s.roster := rfl
@[simp] theorem State.modRoster_calls (f : RosterStore → RosterStore) (s : State) : (s.modRoster f).calls = s.calls := rfl
@[simp] theorem State.modRoster_dispatcher (f : RosterStore → RosterStore) (s : State) : (s.modRoster f).dispatcher = s.dispatcher := rfl
@[simp] theorem State.modRoster_line0 (f : RosterStore → RosterStore) (s : State) : (s.modRoster f).line0 = s.line0 := rfl
@[simp] theorem State.modRoster_line1 (f : RosterStore → RosterStore) (s : State) : (s.modRoster f).line1 = s.line1 := rfl
@[simp] theorem State.modRoster_latches (f : RosterStore → RosterStore) (s : State) : (s.modRoster f).latches = s.latches := rfl
@[simp] theorem State.modRoster_journal (f : RosterStore → RosterStore) (s : State) : (s.modRoster f).journal = s.journal := rfl
@[simp] theorem State.modRoster_memory (f : RosterStore → RosterStore) (s : State) : (s.modRoster f).memory = s.memory := rfl
@[simp] theorem State.modRoster_agenda (f : RosterStore → RosterStore) (s : State) : (s.modRoster f).agenda = s.agenda := rfl
@[simp] theorem State.modRoster_draws (f : RosterStore → RosterStore) (s : State) : (s.modRoster f).draws = s.draws := rfl
@[simp] theorem State.modRoster_pending (f : RosterStore → RosterStore) (s : State) : (s.modRoster f).pending = s.pending := rfl

/-! ### modCalls -/

@[simp] theorem State.modCalls_window (f : CallEngine → CallEngine) (s : State) : (s.modCalls f).window = s.window := rfl
@[simp] theorem State.modCalls_engine (f : CallEngine → CallEngine) (s : State) : (s.modCalls f).engine = s.engine := rfl
@[simp] theorem State.modCalls_tickCount (f : CallEngine → CallEngine) (s : State) : (s.modCalls f).tickCount = s.tickCount := rfl
@[simp] theorem State.modCalls_attention (f : CallEngine → CallEngine) (s : State) : (s.modCalls f).attention = s.attention := rfl
@[simp] theorem State.modCalls_watch (f : CallEngine → CallEngine) (s : State) : (s.modCalls f).watch = s.watch := rfl
@[simp] theorem State.modCalls_area (f : CallEngine → CallEngine) (s : State) : (s.modCalls f).area = s.area := rfl
@[simp] theorem State.modCalls_roster (f : CallEngine → CallEngine) (s : State) : (s.modCalls f).roster = s.roster := rfl
@[simp] theorem State.modCalls_calls (f : CallEngine → CallEngine) (s : State) : (s.modCalls f).calls = f s.calls := rfl
@[simp] theorem State.modCalls_dispatcher (f : CallEngine → CallEngine) (s : State) : (s.modCalls f).dispatcher = s.dispatcher := rfl
@[simp] theorem State.modCalls_line0 (f : CallEngine → CallEngine) (s : State) : (s.modCalls f).line0 = s.line0 := rfl
@[simp] theorem State.modCalls_line1 (f : CallEngine → CallEngine) (s : State) : (s.modCalls f).line1 = s.line1 := rfl
@[simp] theorem State.modCalls_latches (f : CallEngine → CallEngine) (s : State) : (s.modCalls f).latches = s.latches := rfl
@[simp] theorem State.modCalls_journal (f : CallEngine → CallEngine) (s : State) : (s.modCalls f).journal = s.journal := rfl
@[simp] theorem State.modCalls_memory (f : CallEngine → CallEngine) (s : State) : (s.modCalls f).memory = s.memory := rfl
@[simp] theorem State.modCalls_agenda (f : CallEngine → CallEngine) (s : State) : (s.modCalls f).agenda = s.agenda := rfl
@[simp] theorem State.modCalls_draws (f : CallEngine → CallEngine) (s : State) : (s.modCalls f).draws = s.draws := rfl
@[simp] theorem State.modCalls_pending (f : CallEngine → CallEngine) (s : State) : (s.modCalls f).pending = s.pending := rfl

/-! ### modDispatcher -/

@[simp] theorem State.modDispatcher_window (f : Dispatcher → Dispatcher) (s : State) : (s.modDispatcher f).window = s.window := rfl
@[simp] theorem State.modDispatcher_engine (f : Dispatcher → Dispatcher) (s : State) : (s.modDispatcher f).engine = s.engine := rfl
@[simp] theorem State.modDispatcher_tickCount (f : Dispatcher → Dispatcher) (s : State) : (s.modDispatcher f).tickCount = s.tickCount := rfl
@[simp] theorem State.modDispatcher_attention (f : Dispatcher → Dispatcher) (s : State) : (s.modDispatcher f).attention = s.attention := rfl
@[simp] theorem State.modDispatcher_watch (f : Dispatcher → Dispatcher) (s : State) : (s.modDispatcher f).watch = s.watch := rfl
@[simp] theorem State.modDispatcher_area (f : Dispatcher → Dispatcher) (s : State) : (s.modDispatcher f).area = s.area := rfl
@[simp] theorem State.modDispatcher_roster (f : Dispatcher → Dispatcher) (s : State) : (s.modDispatcher f).roster = s.roster := rfl
@[simp] theorem State.modDispatcher_calls (f : Dispatcher → Dispatcher) (s : State) : (s.modDispatcher f).calls = s.calls := rfl
@[simp] theorem State.modDispatcher_dispatcher (f : Dispatcher → Dispatcher) (s : State) : (s.modDispatcher f).dispatcher = f s.dispatcher := rfl
@[simp] theorem State.modDispatcher_line0 (f : Dispatcher → Dispatcher) (s : State) : (s.modDispatcher f).line0 = s.line0 := rfl
@[simp] theorem State.modDispatcher_line1 (f : Dispatcher → Dispatcher) (s : State) : (s.modDispatcher f).line1 = s.line1 := rfl
@[simp] theorem State.modDispatcher_latches (f : Dispatcher → Dispatcher) (s : State) : (s.modDispatcher f).latches = s.latches := rfl
@[simp] theorem State.modDispatcher_journal (f : Dispatcher → Dispatcher) (s : State) : (s.modDispatcher f).journal = s.journal := rfl
@[simp] theorem State.modDispatcher_memory (f : Dispatcher → Dispatcher) (s : State) : (s.modDispatcher f).memory = s.memory := rfl
@[simp] theorem State.modDispatcher_agenda (f : Dispatcher → Dispatcher) (s : State) : (s.modDispatcher f).agenda = s.agenda := rfl
@[simp] theorem State.modDispatcher_draws (f : Dispatcher → Dispatcher) (s : State) : (s.modDispatcher f).draws = s.draws := rfl
@[simp] theorem State.modDispatcher_pending (f : Dispatcher → Dispatcher) (s : State) : (s.modDispatcher f).pending = s.pending := rfl

/-! ### modJournal -/

@[simp] theorem State.modJournal_window (f : Journal → Journal) (s : State) : (s.modJournal f).window = s.window := rfl
@[simp] theorem State.modJournal_engine (f : Journal → Journal) (s : State) : (s.modJournal f).engine = s.engine := rfl
@[simp] theorem State.modJournal_tickCount (f : Journal → Journal) (s : State) : (s.modJournal f).tickCount = s.tickCount := rfl
@[simp] theorem State.modJournal_attention (f : Journal → Journal) (s : State) : (s.modJournal f).attention = s.attention := rfl
@[simp] theorem State.modJournal_watch (f : Journal → Journal) (s : State) : (s.modJournal f).watch = s.watch := rfl
@[simp] theorem State.modJournal_area (f : Journal → Journal) (s : State) : (s.modJournal f).area = s.area := rfl
@[simp] theorem State.modJournal_roster (f : Journal → Journal) (s : State) : (s.modJournal f).roster = s.roster := rfl
@[simp] theorem State.modJournal_calls (f : Journal → Journal) (s : State) : (s.modJournal f).calls = s.calls := rfl
@[simp] theorem State.modJournal_dispatcher (f : Journal → Journal) (s : State) : (s.modJournal f).dispatcher = s.dispatcher := rfl
@[simp] theorem State.modJournal_line0 (f : Journal → Journal) (s : State) : (s.modJournal f).line0 = s.line0 := rfl
@[simp] theorem State.modJournal_line1 (f : Journal → Journal) (s : State) : (s.modJournal f).line1 = s.line1 := rfl
@[simp] theorem State.modJournal_latches (f : Journal → Journal) (s : State) : (s.modJournal f).latches = s.latches := rfl
@[simp] theorem State.modJournal_journal (f : Journal → Journal) (s : State) : (s.modJournal f).journal = f s.journal := rfl
@[simp] theorem State.modJournal_memory (f : Journal → Journal) (s : State) : (s.modJournal f).memory = s.memory := rfl
@[simp] theorem State.modJournal_agenda (f : Journal → Journal) (s : State) : (s.modJournal f).agenda = s.agenda := rfl
@[simp] theorem State.modJournal_draws (f : Journal → Journal) (s : State) : (s.modJournal f).draws = s.draws := rfl
@[simp] theorem State.modJournal_pending (f : Journal → Journal) (s : State) : (s.modJournal f).pending = s.pending := rfl

/-! ### raise -/

@[simp] theorem raise_window (c : Cause) (s : State) : (raise c s).window = s.window := rfl
@[simp] theorem raise_engine (c : Cause) (s : State) : (raise c s).engine = s.engine := rfl
@[simp] theorem raise_tickCount (c : Cause) (s : State) : (raise c s).tickCount = s.tickCount := rfl
@[simp] theorem raise_watch (c : Cause) (s : State) : (raise c s).watch = s.watch := rfl
@[simp] theorem raise_area (c : Cause) (s : State) : (raise c s).area = s.area := rfl
@[simp] theorem raise_roster (c : Cause) (s : State) : (raise c s).roster = s.roster := rfl
@[simp] theorem raise_calls (c : Cause) (s : State) : (raise c s).calls = s.calls := rfl
@[simp] theorem raise_dispatcher (c : Cause) (s : State) : (raise c s).dispatcher = s.dispatcher := rfl
@[simp] theorem raise_line0 (c : Cause) (s : State) : (raise c s).line0 = s.line0 := rfl
@[simp] theorem raise_line1 (c : Cause) (s : State) : (raise c s).line1 = s.line1 := rfl
@[simp] theorem raise_latches (c : Cause) (s : State) : (raise c s).latches = s.latches := rfl
@[simp] theorem raise_journal (c : Cause) (s : State) : (raise c s).journal = s.journal := rfl
@[simp] theorem raise_memory (c : Cause) (s : State) : (raise c s).memory = s.memory := rfl
@[simp] theorem raise_agenda (c : Cause) (s : State) : (raise c s).agenda = s.agenda := rfl
@[simp] theorem raise_draws (c : Cause) (s : State) : (raise c s).draws = s.draws := rfl
@[simp] theorem raise_pending (c : Cause) (s : State) : (raise c s).pending = s.pending := rfl

@[simp] theorem raise_event (c : Cause) (s : State) : (raise c s).attention.event = s.attention.event ||| c.mask := rfl
@[simp] theorem raise_mask (c : Cause) (s : State) : (raise c s).attention.mask = s.attention.mask := rfl

/-! ### modContext -/

@[simp] theorem modContext_window (c : Nat) (f : Context → Context) (s : State) : (modContext c f s).window = s.window := rfl
@[simp] theorem modContext_engine (c : Nat) (f : Context → Context) (s : State) : (modContext c f s).engine = s.engine := rfl
@[simp] theorem modContext_tickCount (c : Nat) (f : Context → Context) (s : State) : (modContext c f s).tickCount = s.tickCount := rfl
@[simp] theorem modContext_attention (c : Nat) (f : Context → Context) (s : State) : (modContext c f s).attention = s.attention := rfl
@[simp] theorem modContext_watch (c : Nat) (f : Context → Context) (s : State) : (modContext c f s).watch = s.watch := rfl
@[simp] theorem modContext_area (c : Nat) (f : Context → Context) (s : State) : (modContext c f s).area = s.area := rfl
@[simp] theorem modContext_roster (c : Nat) (f : Context → Context) (s : State) : (modContext c f s).roster = s.roster := rfl
@[simp] theorem modContext_dispatcher (c : Nat) (f : Context → Context) (s : State) : (modContext c f s).dispatcher = s.dispatcher := rfl
@[simp] theorem modContext_line0 (c : Nat) (f : Context → Context) (s : State) : (modContext c f s).line0 = s.line0 := rfl
@[simp] theorem modContext_line1 (c : Nat) (f : Context → Context) (s : State) : (modContext c f s).line1 = s.line1 := rfl
@[simp] theorem modContext_latches (c : Nat) (f : Context → Context) (s : State) : (modContext c f s).latches = s.latches := rfl
@[simp] theorem modContext_journal (c : Nat) (f : Context → Context) (s : State) : (modContext c f s).journal = s.journal := rfl
@[simp] theorem modContext_memory (c : Nat) (f : Context → Context) (s : State) : (modContext c f s).memory = s.memory := rfl
@[simp] theorem modContext_agenda (c : Nat) (f : Context → Context) (s : State) : (modContext c f s).agenda = s.agenda := rfl
@[simp] theorem modContext_draws (c : Nat) (f : Context → Context) (s : State) : (modContext c f s).draws = s.draws := rfl
@[simp] theorem modContext_pending (c : Nat) (f : Context → Context) (s : State) : (modContext c f s).pending = s.pending := rfl

@[simp] theorem modContext_backlog (c : Nat) (f : Context → Context) (s : State) :
    (modContext c f s).calls.backlog = s.calls.backlog := rfl

/-! ### modSlot -/

@[simp] theorem modSlot_window (i : Nat) (f : SlotImage → SlotImage) (s : State) : (modSlot i f s).window = s.window := rfl
@[simp] theorem modSlot_engine (i : Nat) (f : SlotImage → SlotImage) (s : State) : (modSlot i f s).engine = s.engine := rfl
@[simp] theorem modSlot_tickCount (i : Nat) (f : SlotImage → SlotImage) (s : State) : (modSlot i f s).tickCount = s.tickCount := rfl
@[simp] theorem modSlot_attention (i : Nat) (f : SlotImage → SlotImage) (s : State) : (modSlot i f s).attention = s.attention := rfl
@[simp] theorem modSlot_watch (i : Nat) (f : SlotImage → SlotImage) (s : State) : (modSlot i f s).watch = s.watch := rfl
@[simp] theorem modSlot_roster (i : Nat) (f : SlotImage → SlotImage) (s : State) : (modSlot i f s).roster = s.roster := rfl
@[simp] theorem modSlot_calls (i : Nat) (f : SlotImage → SlotImage) (s : State) : (modSlot i f s).calls = s.calls := rfl
@[simp] theorem modSlot_dispatcher (i : Nat) (f : SlotImage → SlotImage) (s : State) : (modSlot i f s).dispatcher = s.dispatcher := rfl
@[simp] theorem modSlot_line0 (i : Nat) (f : SlotImage → SlotImage) (s : State) : (modSlot i f s).line0 = s.line0 := rfl
@[simp] theorem modSlot_line1 (i : Nat) (f : SlotImage → SlotImage) (s : State) : (modSlot i f s).line1 = s.line1 := rfl
@[simp] theorem modSlot_latches (i : Nat) (f : SlotImage → SlotImage) (s : State) : (modSlot i f s).latches = s.latches := rfl
@[simp] theorem modSlot_journal (i : Nat) (f : SlotImage → SlotImage) (s : State) : (modSlot i f s).journal = s.journal := rfl
@[simp] theorem modSlot_memory (i : Nat) (f : SlotImage → SlotImage) (s : State) : (modSlot i f s).memory = s.memory := rfl
@[simp] theorem modSlot_agenda (i : Nat) (f : SlotImage → SlotImage) (s : State) : (modSlot i f s).agenda = s.agenda := rfl
@[simp] theorem modSlot_draws (i : Nat) (f : SlotImage → SlotImage) (s : State) : (modSlot i f s).draws = s.draws := rfl
@[simp] theorem modSlot_pending (i : Nat) (f : SlotImage → SlotImage) (s : State) : (modSlot i f s).pending = s.pending := rfl

/-! ### modMember -/

@[simp] theorem modMember_window (m : Nat) (f : Member → Member) (s : State) : (modMember m f s).window = s.window := rfl
@[simp] theorem modMember_engine (m : Nat) (f : Member → Member) (s : State) : (modMember m f s).engine = s.engine := rfl
@[simp] theorem modMember_tickCount (m : Nat) (f : Member → Member) (s : State) : (modMember m f s).tickCount = s.tickCount := rfl
@[simp] theorem modMember_attention (m : Nat) (f : Member → Member) (s : State) : (modMember m f s).attention = s.attention := rfl
@[simp] theorem modMember_watch (m : Nat) (f : Member → Member) (s : State) : (modMember m f s).watch = s.watch := rfl
@[simp] theorem modMember_area (m : Nat) (f : Member → Member) (s : State) : (modMember m f s).area = s.area := rfl
@[simp] theorem modMember_calls (m : Nat) (f : Member → Member) (s : State) : (modMember m f s).calls = s.calls := rfl
@[simp] theorem modMember_dispatcher (m : Nat) (f : Member → Member) (s : State) : (modMember m f s).dispatcher = s.dispatcher := rfl
@[simp] theorem modMember_line0 (m : Nat) (f : Member → Member) (s : State) : (modMember m f s).line0 = s.line0 := rfl
@[simp] theorem modMember_line1 (m : Nat) (f : Member → Member) (s : State) : (modMember m f s).line1 = s.line1 := rfl
@[simp] theorem modMember_latches (m : Nat) (f : Member → Member) (s : State) : (modMember m f s).latches = s.latches := rfl
@[simp] theorem modMember_journal (m : Nat) (f : Member → Member) (s : State) : (modMember m f s).journal = s.journal := rfl
@[simp] theorem modMember_memory (m : Nat) (f : Member → Member) (s : State) : (modMember m f s).memory = s.memory := rfl
@[simp] theorem modMember_agenda (m : Nat) (f : Member → Member) (s : State) : (modMember m f s).agenda = s.agenda := rfl
@[simp] theorem modMember_draws (m : Nat) (f : Member → Member) (s : State) : (modMember m f s).draws = s.draws := rfl
@[simp] theorem modMember_pending (m : Nat) (f : Member → Member) (s : State) : (modMember m f s).pending = s.pending := rfl

/-! ### modDelivery -/

@[simp] theorem modDelivery_window (n : Nat) (f : Delivery → Delivery) (s : State) : (modDelivery n f s).window = s.window := rfl
@[simp] theorem modDelivery_engine (n : Nat) (f : Delivery → Delivery) (s : State) : (modDelivery n f s).engine = s.engine := rfl
@[simp] theorem modDelivery_tickCount (n : Nat) (f : Delivery → Delivery) (s : State) : (modDelivery n f s).tickCount = s.tickCount := rfl
@[simp] theorem modDelivery_attention (n : Nat) (f : Delivery → Delivery) (s : State) : (modDelivery n f s).attention = s.attention := rfl
@[simp] theorem modDelivery_watch (n : Nat) (f : Delivery → Delivery) (s : State) : (modDelivery n f s).watch = s.watch := rfl
@[simp] theorem modDelivery_area (n : Nat) (f : Delivery → Delivery) (s : State) : (modDelivery n f s).area = s.area := rfl
@[simp] theorem modDelivery_roster (n : Nat) (f : Delivery → Delivery) (s : State) : (modDelivery n f s).roster = s.roster := rfl
@[simp] theorem modDelivery_calls (n : Nat) (f : Delivery → Delivery) (s : State) : (modDelivery n f s).calls = s.calls := rfl
@[simp] theorem modDelivery_line0 (n : Nat) (f : Delivery → Delivery) (s : State) : (modDelivery n f s).line0 = s.line0 := rfl
@[simp] theorem modDelivery_line1 (n : Nat) (f : Delivery → Delivery) (s : State) : (modDelivery n f s).line1 = s.line1 := rfl
@[simp] theorem modDelivery_latches (n : Nat) (f : Delivery → Delivery) (s : State) : (modDelivery n f s).latches = s.latches := rfl
@[simp] theorem modDelivery_journal (n : Nat) (f : Delivery → Delivery) (s : State) : (modDelivery n f s).journal = s.journal := rfl
@[simp] theorem modDelivery_memory (n : Nat) (f : Delivery → Delivery) (s : State) : (modDelivery n f s).memory = s.memory := rfl
@[simp] theorem modDelivery_agenda (n : Nat) (f : Delivery → Delivery) (s : State) : (modDelivery n f s).agenda = s.agenda := rfl
@[simp] theorem modDelivery_draws (n : Nat) (f : Delivery → Delivery) (s : State) : (modDelivery n f s).draws = s.draws := rfl
@[simp] theorem modDelivery_pending (n : Nat) (f : Delivery → Delivery) (s : State) : (modDelivery n f s).pending = s.pending := rfl

/-! ### areaIssue -/

@[simp] theorem areaIssue_window (t : Transaction AreaOp) (s : State) : (areaIssue t s).window = s.window := rfl
@[simp] theorem areaIssue_engine (t : Transaction AreaOp) (s : State) : (areaIssue t s).engine = s.engine := rfl
@[simp] theorem areaIssue_tickCount (t : Transaction AreaOp) (s : State) : (areaIssue t s).tickCount = s.tickCount := rfl
@[simp] theorem areaIssue_attention (t : Transaction AreaOp) (s : State) : (areaIssue t s).attention = s.attention := rfl
@[simp] theorem areaIssue_watch (t : Transaction AreaOp) (s : State) : (areaIssue t s).watch = s.watch := rfl
@[simp] theorem areaIssue_roster (t : Transaction AreaOp) (s : State) : (areaIssue t s).roster = s.roster := rfl
@[simp] theorem areaIssue_calls (t : Transaction AreaOp) (s : State) : (areaIssue t s).calls = s.calls := rfl
@[simp] theorem areaIssue_dispatcher (t : Transaction AreaOp) (s : State) : (areaIssue t s).dispatcher = s.dispatcher := rfl
@[simp] theorem areaIssue_line0 (t : Transaction AreaOp) (s : State) : (areaIssue t s).line0 = s.line0 := rfl
@[simp] theorem areaIssue_line1 (t : Transaction AreaOp) (s : State) : (areaIssue t s).line1 = s.line1 := rfl
@[simp] theorem areaIssue_latches (t : Transaction AreaOp) (s : State) : (areaIssue t s).latches = s.latches := rfl
@[simp] theorem areaIssue_journal (t : Transaction AreaOp) (s : State) : (areaIssue t s).journal = s.journal := rfl
@[simp] theorem areaIssue_memory (t : Transaction AreaOp) (s : State) : (areaIssue t s).memory = s.memory := rfl
@[simp] theorem areaIssue_agenda (t : Transaction AreaOp) (s : State) : (areaIssue t s).agenda = s.agenda := rfl
@[simp] theorem areaIssue_draws (t : Transaction AreaOp) (s : State) : (areaIssue t s).draws = s.draws := rfl
@[simp] theorem areaIssue_pending (t : Transaction AreaOp) (s : State) : (areaIssue t s).pending = s.pending := rfl

/-! ### areaDone -/

@[simp] theorem areaDone_window  (s : State) : (areaDone s).window = s.window := rfl
@[simp] theorem areaDone_engine  (s : State) : (areaDone s).engine = s.engine := rfl
@[simp] theorem areaDone_tickCount  (s : State) : (areaDone s).tickCount = s.tickCount := rfl
@[simp] theorem areaDone_attention  (s : State) : (areaDone s).attention = s.attention := rfl
@[simp] theorem areaDone_watch  (s : State) : (areaDone s).watch = s.watch := rfl
@[simp] theorem areaDone_roster  (s : State) : (areaDone s).roster = s.roster := rfl
@[simp] theorem areaDone_calls  (s : State) : (areaDone s).calls = s.calls := rfl
@[simp] theorem areaDone_dispatcher  (s : State) : (areaDone s).dispatcher = s.dispatcher := rfl
@[simp] theorem areaDone_line0  (s : State) : (areaDone s).line0 = s.line0 := rfl
@[simp] theorem areaDone_line1  (s : State) : (areaDone s).line1 = s.line1 := rfl
@[simp] theorem areaDone_latches  (s : State) : (areaDone s).latches = s.latches := rfl
@[simp] theorem areaDone_journal  (s : State) : (areaDone s).journal = s.journal := rfl
@[simp] theorem areaDone_memory  (s : State) : (areaDone s).memory = s.memory := rfl
@[simp] theorem areaDone_agenda  (s : State) : (areaDone s).agenda = s.agenda := rfl
@[simp] theorem areaDone_draws  (s : State) : (areaDone s).draws = s.draws := rfl
@[simp] theorem areaDone_pending  (s : State) : (areaDone s).pending = s.pending := rfl

/-! ### journalIssue -/

@[simp] theorem journalIssue_window (t : Transaction JournalOp) (s : State) : (journalIssue t s).window = s.window := rfl
@[simp] theorem journalIssue_engine (t : Transaction JournalOp) (s : State) : (journalIssue t s).engine = s.engine := rfl
@[simp] theorem journalIssue_tickCount (t : Transaction JournalOp) (s : State) : (journalIssue t s).tickCount = s.tickCount := rfl
@[simp] theorem journalIssue_attention (t : Transaction JournalOp) (s : State) : (journalIssue t s).attention = s.attention := rfl
@[simp] theorem journalIssue_watch (t : Transaction JournalOp) (s : State) : (journalIssue t s).watch = s.watch := rfl
@[simp] theorem journalIssue_area (t : Transaction JournalOp) (s : State) : (journalIssue t s).area = s.area := rfl
@[simp] theorem journalIssue_roster (t : Transaction JournalOp) (s : State) : (journalIssue t s).roster = s.roster := rfl
@[simp] theorem journalIssue_calls (t : Transaction JournalOp) (s : State) : (journalIssue t s).calls = s.calls := rfl
@[simp] theorem journalIssue_dispatcher (t : Transaction JournalOp) (s : State) : (journalIssue t s).dispatcher = s.dispatcher := rfl
@[simp] theorem journalIssue_line0 (t : Transaction JournalOp) (s : State) : (journalIssue t s).line0 = s.line0 := rfl
@[simp] theorem journalIssue_line1 (t : Transaction JournalOp) (s : State) : (journalIssue t s).line1 = s.line1 := rfl
@[simp] theorem journalIssue_latches (t : Transaction JournalOp) (s : State) : (journalIssue t s).latches = s.latches := rfl
@[simp] theorem journalIssue_memory (t : Transaction JournalOp) (s : State) : (journalIssue t s).memory = s.memory := rfl
@[simp] theorem journalIssue_agenda (t : Transaction JournalOp) (s : State) : (journalIssue t s).agenda = s.agenda := rfl
@[simp] theorem journalIssue_draws (t : Transaction JournalOp) (s : State) : (journalIssue t s).draws = s.draws := rfl
@[simp] theorem journalIssue_pending (t : Transaction JournalOp) (s : State) : (journalIssue t s).pending = s.pending := rfl

/-! ### journalDone -/

@[simp] theorem journalDone_window  (s : State) : (journalDone s).window = s.window := rfl
@[simp] theorem journalDone_engine  (s : State) : (journalDone s).engine = s.engine := rfl
@[simp] theorem journalDone_tickCount  (s : State) : (journalDone s).tickCount = s.tickCount := rfl
@[simp] theorem journalDone_attention  (s : State) : (journalDone s).attention = s.attention := rfl
@[simp] theorem journalDone_watch  (s : State) : (journalDone s).watch = s.watch := rfl
@[simp] theorem journalDone_area  (s : State) : (journalDone s).area = s.area := rfl
@[simp] theorem journalDone_roster  (s : State) : (journalDone s).roster = s.roster := rfl
@[simp] theorem journalDone_calls  (s : State) : (journalDone s).calls = s.calls := rfl
@[simp] theorem journalDone_dispatcher  (s : State) : (journalDone s).dispatcher = s.dispatcher := rfl
@[simp] theorem journalDone_line0  (s : State) : (journalDone s).line0 = s.line0 := rfl
@[simp] theorem journalDone_line1  (s : State) : (journalDone s).line1 = s.line1 := rfl
@[simp] theorem journalDone_latches  (s : State) : (journalDone s).latches = s.latches := rfl
@[simp] theorem journalDone_memory  (s : State) : (journalDone s).memory = s.memory := rfl
@[simp] theorem journalDone_agenda  (s : State) : (journalDone s).agenda = s.agenda := rfl
@[simp] theorem journalDone_draws  (s : State) : (journalDone s).draws = s.draws := rfl
@[simp] theorem journalDone_pending  (s : State) : (journalDone s).pending = s.pending := rfl

/-! ### land -/

@[simp] theorem land_window {α : Type} (t : Transaction α) (s : State) : (land t s).window = s.window := rfl
@[simp] theorem land_engine {α : Type} (t : Transaction α) (s : State) : (land t s).engine = s.engine := rfl
@[simp] theorem land_tickCount {α : Type} (t : Transaction α) (s : State) : (land t s).tickCount = s.tickCount := rfl
@[simp] theorem land_attention {α : Type} (t : Transaction α) (s : State) : (land t s).attention = s.attention := rfl
@[simp] theorem land_watch {α : Type} (t : Transaction α) (s : State) : (land t s).watch = s.watch := rfl
@[simp] theorem land_area {α : Type} (t : Transaction α) (s : State) : (land t s).area = s.area := rfl
@[simp] theorem land_roster {α : Type} (t : Transaction α) (s : State) : (land t s).roster = s.roster := rfl
@[simp] theorem land_calls {α : Type} (t : Transaction α) (s : State) : (land t s).calls = s.calls := rfl
@[simp] theorem land_dispatcher {α : Type} (t : Transaction α) (s : State) : (land t s).dispatcher = s.dispatcher := rfl
@[simp] theorem land_line0 {α : Type} (t : Transaction α) (s : State) : (land t s).line0 = s.line0 := rfl
@[simp] theorem land_line1 {α : Type} (t : Transaction α) (s : State) : (land t s).line1 = s.line1 := rfl
@[simp] theorem land_latches {α : Type} (t : Transaction α) (s : State) : (land t s).latches = s.latches := rfl
@[simp] theorem land_journal {α : Type} (t : Transaction α) (s : State) : (land t s).journal = s.journal := rfl
@[simp] theorem land_agenda {α : Type} (t : Transaction α) (s : State) : (land t s).agenda = s.agenda := rfl
@[simp] theorem land_draws {α : Type} (t : Transaction α) (s : State) : (land t s).draws = s.draws := rfl
@[simp] theorem land_pending {α : Type} (t : Transaction α) (s : State) : (land t s).pending = s.pending := rfl

/-! ### landFaulted -/

@[simp] theorem landFaulted_window {α : Type} (t : Transaction α) (s : State) : (landFaulted t s).window = s.window := rfl
@[simp] theorem landFaulted_engine {α : Type} (t : Transaction α) (s : State) : (landFaulted t s).engine = s.engine := rfl
@[simp] theorem landFaulted_tickCount {α : Type} (t : Transaction α) (s : State) : (landFaulted t s).tickCount = s.tickCount := rfl
@[simp] theorem landFaulted_attention {α : Type} (t : Transaction α) (s : State) : (landFaulted t s).attention = s.attention := rfl
@[simp] theorem landFaulted_watch {α : Type} (t : Transaction α) (s : State) : (landFaulted t s).watch = s.watch := rfl
@[simp] theorem landFaulted_area {α : Type} (t : Transaction α) (s : State) : (landFaulted t s).area = s.area := rfl
@[simp] theorem landFaulted_roster {α : Type} (t : Transaction α) (s : State) : (landFaulted t s).roster = s.roster := rfl
@[simp] theorem landFaulted_calls {α : Type} (t : Transaction α) (s : State) : (landFaulted t s).calls = s.calls := rfl
@[simp] theorem landFaulted_dispatcher {α : Type} (t : Transaction α) (s : State) : (landFaulted t s).dispatcher = s.dispatcher := rfl
@[simp] theorem landFaulted_line0 {α : Type} (t : Transaction α) (s : State) : (landFaulted t s).line0 = s.line0 := rfl
@[simp] theorem landFaulted_line1 {α : Type} (t : Transaction α) (s : State) : (landFaulted t s).line1 = s.line1 := rfl
@[simp] theorem landFaulted_latches {α : Type} (t : Transaction α) (s : State) : (landFaulted t s).latches = s.latches := rfl
@[simp] theorem landFaulted_journal {α : Type} (t : Transaction α) (s : State) : (landFaulted t s).journal = s.journal := rfl
@[simp] theorem landFaulted_agenda {α : Type} (t : Transaction α) (s : State) : (landFaulted t s).agenda = s.agenda := rfl
@[simp] theorem landFaulted_pending {α : Type} (t : Transaction α) (s : State) : (landFaulted t s).pending = s.pending := rfl

/-! ### mapDrops -/

@[simp] theorem mapDrops_window (f : Drop → Drop) (s : State) : (s.mapDrops f).window = s.window := rfl
@[simp] theorem mapDrops_engine (f : Drop → Drop) (s : State) : (s.mapDrops f).engine = s.engine := rfl
@[simp] theorem mapDrops_tickCount (f : Drop → Drop) (s : State) : (s.mapDrops f).tickCount = s.tickCount := rfl
@[simp] theorem mapDrops_attention (f : Drop → Drop) (s : State) : (s.mapDrops f).attention = s.attention := rfl
@[simp] theorem mapDrops_watch (f : Drop → Drop) (s : State) : (s.mapDrops f).watch = s.watch := rfl
@[simp] theorem mapDrops_area (f : Drop → Drop) (s : State) : (s.mapDrops f).area = s.area := rfl
@[simp] theorem mapDrops_roster (f : Drop → Drop) (s : State) : (s.mapDrops f).roster = s.roster := rfl
@[simp] theorem mapDrops_calls (f : Drop → Drop) (s : State) : (s.mapDrops f).calls = s.calls := rfl
@[simp] theorem mapDrops_dispatcher (f : Drop → Drop) (s : State) : (s.mapDrops f).dispatcher = s.dispatcher := rfl
@[simp] theorem mapDrops_latches (f : Drop → Drop) (s : State) : (s.mapDrops f).latches = s.latches := rfl
@[simp] theorem mapDrops_journal (f : Drop → Drop) (s : State) : (s.mapDrops f).journal = s.journal := rfl
@[simp] theorem mapDrops_memory (f : Drop → Drop) (s : State) : (s.mapDrops f).memory = s.memory := rfl
@[simp] theorem mapDrops_agenda (f : Drop → Drop) (s : State) : (s.mapDrops f).agenda = s.agenda := rfl
@[simp] theorem mapDrops_draws (f : Drop → Drop) (s : State) : (s.mapDrops f).draws = s.draws := rfl
@[simp] theorem mapDrops_pending (f : Drop → Drop) (s : State) : (s.mapDrops f).pending = s.pending := rfl

/-! ### modLine and modDrop -/

@[simp] theorem State.modLine_window (l : LineId) (f : Line → Line) (s : State) : (s.modLine l f).window = s.window := by
  cases l <;> rfl
@[simp] theorem State.modLine_engine (l : LineId) (f : Line → Line) (s : State) : (s.modLine l f).engine = s.engine := by
  cases l <;> rfl
@[simp] theorem State.modLine_tickCount (l : LineId) (f : Line → Line) (s : State) : (s.modLine l f).tickCount = s.tickCount := by
  cases l <;> rfl
@[simp] theorem State.modLine_attention (l : LineId) (f : Line → Line) (s : State) : (s.modLine l f).attention = s.attention := by
  cases l <;> rfl
@[simp] theorem State.modLine_watch (l : LineId) (f : Line → Line) (s : State) : (s.modLine l f).watch = s.watch := by
  cases l <;> rfl
@[simp] theorem State.modLine_area (l : LineId) (f : Line → Line) (s : State) : (s.modLine l f).area = s.area := by
  cases l <;> rfl
@[simp] theorem State.modLine_roster (l : LineId) (f : Line → Line) (s : State) : (s.modLine l f).roster = s.roster := by
  cases l <;> rfl
@[simp] theorem State.modLine_calls (l : LineId) (f : Line → Line) (s : State) : (s.modLine l f).calls = s.calls := by
  cases l <;> rfl
@[simp] theorem State.modLine_dispatcher (l : LineId) (f : Line → Line) (s : State) : (s.modLine l f).dispatcher = s.dispatcher := by
  cases l <;> rfl
@[simp] theorem State.modLine_latches (l : LineId) (f : Line → Line) (s : State) : (s.modLine l f).latches = s.latches := by
  cases l <;> rfl
@[simp] theorem State.modLine_journal (l : LineId) (f : Line → Line) (s : State) : (s.modLine l f).journal = s.journal := by
  cases l <;> rfl
@[simp] theorem State.modLine_memory (l : LineId) (f : Line → Line) (s : State) : (s.modLine l f).memory = s.memory := by
  cases l <;> rfl
@[simp] theorem State.modLine_agenda (l : LineId) (f : Line → Line) (s : State) : (s.modLine l f).agenda = s.agenda := by
  cases l <;> rfl
@[simp] theorem State.modLine_draws (l : LineId) (f : Line → Line) (s : State) : (s.modLine l f).draws = s.draws := by
  cases l <;> rfl
@[simp] theorem State.modLine_pending (l : LineId) (f : Line → Line) (s : State) : (s.modLine l f).pending = s.pending := by
  cases l <;> rfl
@[simp] theorem modDrop_window (l : LineId) (a : Nat) (f : Drop → Drop) (s : State) : (modDrop l a f s).window = s.window := by
  cases l <;> rfl
@[simp] theorem modDrop_engine (l : LineId) (a : Nat) (f : Drop → Drop) (s : State) : (modDrop l a f s).engine = s.engine := by
  cases l <;> rfl
@[simp] theorem modDrop_tickCount (l : LineId) (a : Nat) (f : Drop → Drop) (s : State) : (modDrop l a f s).tickCount = s.tickCount := by
  cases l <;> rfl
@[simp] theorem modDrop_attention (l : LineId) (a : Nat) (f : Drop → Drop) (s : State) : (modDrop l a f s).attention = s.attention := by
  cases l <;> rfl
@[simp] theorem modDrop_watch (l : LineId) (a : Nat) (f : Drop → Drop) (s : State) : (modDrop l a f s).watch = s.watch := by
  cases l <;> rfl
@[simp] theorem modDrop_area (l : LineId) (a : Nat) (f : Drop → Drop) (s : State) : (modDrop l a f s).area = s.area := by
  cases l <;> rfl
@[simp] theorem modDrop_roster (l : LineId) (a : Nat) (f : Drop → Drop) (s : State) : (modDrop l a f s).roster = s.roster := by
  cases l <;> rfl
@[simp] theorem modDrop_calls (l : LineId) (a : Nat) (f : Drop → Drop) (s : State) : (modDrop l a f s).calls = s.calls := by
  cases l <;> rfl
@[simp] theorem modDrop_dispatcher (l : LineId) (a : Nat) (f : Drop → Drop) (s : State) : (modDrop l a f s).dispatcher = s.dispatcher := by
  cases l <;> rfl
@[simp] theorem modDrop_latches (l : LineId) (a : Nat) (f : Drop → Drop) (s : State) : (modDrop l a f s).latches = s.latches := by
  cases l <;> rfl
@[simp] theorem modDrop_journal (l : LineId) (a : Nat) (f : Drop → Drop) (s : State) : (modDrop l a f s).journal = s.journal := by
  cases l <;> rfl
@[simp] theorem modDrop_memory (l : LineId) (a : Nat) (f : Drop → Drop) (s : State) : (modDrop l a f s).memory = s.memory := by
  cases l <;> rfl
@[simp] theorem modDrop_agenda (l : LineId) (a : Nat) (f : Drop → Drop) (s : State) : (modDrop l a f s).agenda = s.agenda := by
  cases l <;> rfl
@[simp] theorem modDrop_draws (l : LineId) (a : Nat) (f : Drop → Drop) (s : State) : (modDrop l a f s).draws = s.draws := by
  cases l <;> rfl
@[simp] theorem modDrop_pending (l : LineId) (a : Nat) (f : Drop → Drop) (s : State) : (modDrop l a f s).pending = s.pending := by
  cases l <;> rfl

/-- The line updated reads as updated. -/
@[simp] theorem State.line_modLine_same (l : LineId) (f : Line → Line) (s : State) : (s.modLine l f).line l = f (s.line l) := by
  cases l <;> rfl

/-- The other line reads as before. -/
theorem State.line_modLine_ne {l m : LineId} (h : m ≠ l) (f : Line → Line) (s : State) :
    (s.modLine l f).line m = s.line m := by
  cases l <;> cases m <;> first | rfl | exact absurd rfl h

/-- The context updated reads as updated, when there is one of that number. -/
theorem context_modContext_same {c : Nat} (f : Context → Context) {s : State} (h : c < s.calls.contexts.length) :
    context (modContext c f s) c = f (context s c) := by
  simp [context, modContext, State.modCalls, h]

/-- Every other context reads as before. -/
theorem context_modContext_ne {c d : Nat} (h : d ≠ c) (f : Context → Context) (s : State) :
    context (modContext c f s) d = context s d := by
  simp [context, modContext, State.modCalls, List.getD_eq_getElem?_getD, Ne.symm h]

/-- Every other member record reads as before. -/
theorem member_modMember_ne {m n : Nat} (h : n ≠ m) (f : Member → Member) (s : State) :
    member (modMember m f s) n = member s n := by
  simp [member, modMember, State.modRoster, List.getD_eq_getElem?_getD, Ne.symm h]

/-- Every other slot image reads as before. -/
theorem slotImage_modSlot_ne {i j : Nat} (h : j ≠ i) (f : SlotImage → SlotImage) (s : State) :
    slotImage (modSlot i f s) j = slotImage s j := by
  simp [slotImage, modSlot, State.modArea, List.getD_eq_getElem?_getD, Ne.symm h]

end Sys2Proof.Machine
end

