-- ==== Sys2Proof/Laws/CallBounds.lean ====
section
/-! SUPPORT. Laws/CallBounds.lean: what keeps the bounds of the calls: one live call for a slot (R12), the registry's length (R64) and
the paged counts (R66). A change of contexts that leaves every context alike keeps them, and so do the two that move a current
mark, and the opening and the freeing of a context. -/

namespace Sys2Proof.Machine

/-- The bounds of the calls. -/
abbrev callsOk (s : State) : Prop := slotsOk s ∧ membersOk s ∧ marksOk s

/-- The second context holds the slot and the current marks of the first, and is FREE only if the first is. -/
structure Alike (k k' : Context) : Prop where
  slot : k'.slot = k.slot
  free : k'.state = .free → k.state = .free
  current : ∀ m, k'.isCurrent m = k.isCurrent m

theorem Alike.refl (k : Context) : Alike k k := ⟨rfl, id, fun _ => rfl⟩

theorem Alike.trans {a b c : Context} (h : Alike a b) (k : Alike b c) : Alike a c :=
  ⟨k.slot.trans h.slot, h.free ∘ k.free, fun m => (k.current m).trans (h.current m)⟩

/-- Nobody is current in a list without a current entry. -/
theorem isCurrent_eq_false {k : Context} : (∀ m, k.isCurrent m = false) ↔ ∀ e ∈ k.contacted, e.current = false := by
  unfold Context.isCurrent
  constructor
  · intro h e m
    by_contra c
    have := h e.member
    simp only [List.any_eq_false] at this
    exact this e m (by simp [c])
  · intro h m
    simp only [List.any_eq_false]
    exact fun e x => by simp [h e x]

/-- A change of one member's entries that keeps whose they are and whether they are current. -/
theorem alike_modContact (m : Nat) (f : Contact → Contact) (hf : ∀ e, (f e).member = e.member ∧ (f e).current = e.current)
    (k : Context) : Alike k (k.modContact m f) := by
  refine ⟨rfl, id, fun x => ?_⟩
  simp only [Context.modContact, Context.isCurrent, List.any_map]
  congr 1
  funext e
  simp only [Function.comp_apply]
  split <;> simp [hf]

/-- A change of a context that keeps its slot, its state and its contacted list. -/
theorem alike_keep {f : Context → Context}
    (h : ∀ k, (f k).slot = k.slot ∧ (f k).state = k.state ∧ (f k).contacted = k.contacted) (k : Context) : Alike k (f k) :=
  ⟨(h k).1, fun e => (h k).2.1 ▸ e, fun m => by unfold Context.isCurrent; rw [(h k).2.2]⟩

/-- A change of a context that keeps its slot and its contacted list and leaves it live. -/
theorem alike_live {f : Context → Context}
    (h : ∀ k, (f k).slot = k.slot ∧ (f k).state ≠ .free ∧ (f k).contacted = k.contacted) (k : Context) : Alike k (f k) :=
  ⟨(h k).1, fun e => absurd e (h k).2.1, fun m => by unfold Context.isCurrent; rw [(h k).2.2]⟩

/-- A change of every entry that keeps whose it is and whether it is current. -/
theorem alike_mapContacts (k k' : Context) (f : Contact → Contact) (h : k'.contacted = k.contacted.map f) (s : k'.slot = k.slot)
    (r : k'.state = .free → k.state = .free) (hf : ∀ e, (f e).member = e.member ∧ (f e).current = e.current) : Alike k k' := by
  refine ⟨s, r, fun x => ?_⟩
  simp only [Context.isCurrent, h, List.any_map]
  congr 1
  funext e
  simp [hf]

/-- The entry that a full list gives up is not current. -/
theorem reusedEntry_current {l : List Contact} {i : Nat} (h : reusedEntry l = some i) :
    ∃ e, l[i]? = some e ∧ e.current = false := by
  unfold reusedEntry at h
  split at h
  · rename_i j g
    cases h
    obtain ⟨hj, hp, -⟩ := List.findIdx?_eq_some_iff_getElem.1 g
    refine ⟨_, List.getElem?_eq_getElem hj, ?_⟩
    simp at hp
    simp [hp]
  · obtain ⟨hj, hp, -⟩ := List.findIdx?_eq_some_iff_getElem.1 h
    exact ⟨_, List.getElem?_eq_getElem hj, by simpa using hp⟩

theorem any_eraseIdx {l : List Contact} {i : Nat} {e : Contact} {p : Contact → Bool} (h : l[i]? = some e) (n : p e = false) :
    (l.eraseIdx i).any p = l.any p := by
  obtain ⟨hi, rfl⟩ := List.getElem?_eq_some_iff.1 h
  rw [List.eraseIdx_eq_take_drop_succ]
  conv_rhs => rw [← List.take_append_drop i l, List.drop_eq_getElem_cons hi]
  rw [List.any_append, List.any_append, List.any_cons, n, Bool.false_or]

/-- A new entry that is not current changes nobody's mark. -/
theorem alike_addContact (e : Contact) (h : e.current = false) (k : Context) : Alike k (k.addContact e) := by
  unfold Context.addContact
  split
  · exact ⟨rfl, id, fun m => by simp [Context.isCurrent, h]⟩
  · split
    · rename_i i g
      obtain ⟨x, hx, n⟩ := reusedEntry_current g
      exact ⟨rfl, id, fun m => by simp [Context.isCurrent, h, any_eraseIdx hx (p := fun e => e.member == m && e.current) (by simp [n])]⟩
    · exact ⟨rfl, id, fun m => by simp [Context.isCurrent, h]⟩

theorem alike_ensureContact (m : Nat) (k : Context) : Alike k (k.ensureContact m) := by
  unfold Context.ensureContact
  split
  · exact Alike.refl k
  · exact alike_addContact _ rfl k

/-- After its entry is made, the member has one. -/
theorem mem_ensureContact (m : Nat) (k : Context) : ∃ e ∈ (k.ensureContact m).contacted, e.member = m := by
  unfold Context.ensureContact
  split
  · rename_i h
    obtain ⟨e, he⟩ := Option.isSome_iff_exists.1 h
    exact ⟨e, List.mem_of_find?_eq_some he, by simpa using List.find?_some he⟩
  · refine ⟨Contact.blank m k.rung k.pass, ?_, rfl⟩
    unfold Context.addContact
    split
    · simp
    · split <;> simp

/-- The marks after a change of one member's entries that sets the current mark to a value. -/
theorem isCurrent_modContact_set (m : Nat) (f : Contact → Contact) (b : Bool)
    (hf : ∀ e, (f e).member = e.member ∧ (f e).current = b) (k : Context) (x : Nat) :
    (k.modContact m f).isCurrent x = if x = m then b && k.contacted.any (·.member == m) else k.isCurrent x := by
  simp only [Context.modContact, Context.isCurrent, List.any_map]
  split
  · rename_i h
    subst h
    cases b
    · simp only [Bool.false_and, List.any_eq_false, Function.comp_apply]
      intro e _
      split
      · simp [hf]
      · simp_all
    · simp only [Bool.true_and]
      congr 1
      funext e
      simp only [Function.comp_apply]
      split
      · simp [*]
      · simp [*]
  · rename_i h
    congr 1
    funext e
    simp only [Function.comp_apply]
    split
    · rename_i g
      have : (m == x) = false := by simpa using fun c => h c.symm
      simp [hf, g, this]
    · rfl

/-- To become current: the member is, and everyone else as before. -/
theorem isCurrent_markCurrent (m : Nat) (b : Bool) (k : Context) (x : Nat) :
    (k.markCurrent m b).isCurrent x = if x = m then true else k.isCurrent x := by
  let f : Contact → Contact := fun e => { e with
      current := true, received := false, cancelled := false, breakIn := b, rung := k.rung, pass := k.pass,
      remind := .stopped, remindCount := 0 }
  have e : (k.markCurrent m b).isCurrent x = ((k.ensureContact m).modContact m f).isCurrent x := rfl
  rw [e, isCurrent_modContact_set m f true (fun _ => ⟨rfl, rfl⟩), (alike_ensureContact m k).current]
  obtain ⟨e, he, hm⟩ := mem_ensureContact m k
  have : (k.ensureContact m).contacted.any (·.member == m) = true := List.any_eq_true.2 ⟨e, he, by simp [hm]⟩
  simp [this]

/-! ## Lists of contexts -/

theorem forall₂_map {f : Context → Context} (hf : ∀ k, Alike k (f k)) (l : List Context) : List.Forall₂ Alike l (l.map f) := by
  induction l with
  | nil => exact .nil
  | cons x l ih => exact .cons (hf x) ih

theorem forall₂_modify {f : Context → Context} (hf : ∀ k, Alike k (f k)) (l : List Context) (i : Nat) :
    List.Forall₂ Alike l (l.modify i f) := by
  induction l generalizing i with
  | nil => simp
  | cons x l ih =>
    cases i with
    | zero => exact .cons (hf x) (List.forall₂_same.2 fun k _ => Alike.refl k)
    | succ i => exact .cons (Alike.refl x) (ih i)

theorem slots_of_alike {l l' : List Context} (h : List.Forall₂ Alike l l') : l'.filterMap (·.slot) = l.filterMap (·.slot) := by
  induction h with
  | nil => rfl
  | cons a _ ih => simp [List.filterMap_cons, a.slot, ih]

theorem countP_of_alike {l l' : List Context} (h : List.Forall₂ Alike l l') (m : Nat) :
    l'.countP (·.isCurrent m) = l.countP (·.isCurrent m) := by
  induction h with
  | nil => rfl
  | cons a _ ih => simp [List.countP_cons, a.current, ih]

theorem free_of_alike {l l' : List Context} (h : List.Forall₂ Alike l l')
    (k : ∀ k ∈ l, k.state = .free → ∀ e ∈ k.contacted, e.current = false) :
    ∀ k ∈ l', k.state = .free → ∀ e ∈ k.contacted, e.current = false := by
  induction h with
  | nil => exact k
  | cons a _ ih =>
    intro x hx f
    rcases List.mem_cons.1 hx with rfl | hx
    · have := k _ (List.mem_cons_self ..) (a.free f)
      exact isCurrent_eq_false.1 fun m => by rw [a.current]; exact isCurrent_eq_false.2 this m
    · exact ih (fun y hy => k y (List.mem_cons_of_mem _ hy)) x hx f

/-- Two registries with the same paged counts. -/
theorem paged_of_map {s t : State} (h : t.roster.members.map (·.paged) = s.roster.members.map (·.paged)) :
    t.roster.members.length = s.roster.members.length ∧ ∀ m, (member t m).paged = (member s m).paged := by
  refine ⟨by simpa using congrArg List.length h, fun m => ?_⟩
  have := congrArg (fun l => l.getD m 0) h
  unfold member
  simp only [List.getD_eq_getElem?_getD, List.getElem?_map] at this ⊢
  revert this
  cases t.roster.members[m]? <;> cases s.roster.members[m]? <;> simp [Member.empty]

/-- A change that leaves the contexts alike, no slot more in the backlog, and the paged counts. -/
theorem callsOk_of_alike {s t : State} (c : List.Forall₂ Alike s.calls.contexts t.calls.contexts)
    (b : ∀ x : List Nat, (x ++ s.calls.backlog.map (·.slot)).Nodup → (x ++ t.calls.backlog.map (·.slot)).Nodup)
    (r : t.roster.members.map (·.paged) = s.roster.members.map (·.paged)) (h : callsOk s) : callsOk t := by
  obtain ⟨l, p⟩ := paged_of_map r
  refine ⟨?_, by unfold membersOk; rw [l]; exact h.2.1, free_of_alike c h.2.2.1, fun m hm => ?_⟩
  · unfold slotsOk
    rw [slots_of_alike c]
    exact b _ h.1
  · rw [p, countP_of_alike c]
    exact h.2.2.2 m (l ▸ hm)

theorem alike_refl_list (l : List Context) : List.Forall₂ Alike l l := List.forall₂_same.2 fun k _ => Alike.refl k

/-- No call and a registry without a record, or one whose records are all new: what a load begins and ends with. -/
theorem callsOk_empty {s : State} {n : Nat} (c : s.calls = { contexts := List.replicate n .empty, backlog := [] })
    (m : s.roster.members = [] ∨ s.roster.members.length = 512 ∧ ∀ r ∈ s.roster.members, r.paged = 0) : callsOk s := by
  have none : ∀ k ∈ s.calls.contexts, k = .empty := by rw [c]; exact fun k h => (List.mem_replicate.1 h).2
  refine ⟨?_, ?_, fun k h _ => ?_, fun x hx => ?_⟩
  · unfold slotsOk
    have : s.calls.contexts.filterMap (·.slot) = [] :=
      List.filterMap_eq_nil_iff.2 fun k h => by rw [none k h]; rfl
    rw [this, c]
    exact List.nodup_nil
  · exact m.imp (fun h => by rw [h]; rfl) And.left
  · rw [none k h]
    simp [Context.empty]
  · have z : s.calls.contexts.countP (·.isCurrent x) = 0 :=
      List.countP_eq_zero.2 fun k h => by rw [none k h]; simp [Context.empty, Context.isCurrent]
    rw [z]
    rcases m with m | m
    · simp [m] at hx
    · exact m.2 _ (by unfold member; rw [List.getD_eq_getElem?_getD, List.getElem?_eq_getElem hx]; exact List.getElem_mem hx)

/-- A registry without records has none whose count could be wrong. -/
theorem callsOk_noMembers {s t : State} (c : t.calls = s.calls) (m : t.roster.members = []) (h : callsOk s) : callsOk t := by
  refine ⟨by unfold slotsOk; rw [c]; exact h.1, .inl (by rw [m]; rfl), by rw [c]; exact h.2.2.1, fun x hx => ?_⟩
  simp [m] at hx

/-! ## A current mark that moves -/

theorem countP_modify {α : Type} (p : α → Bool) (f : α → α) (l : List α) (i : Nat) (h : i < l.length) :
    (l.modify i f).countP p + (p l[i]).toNat = l.countP p + (p (f l[i])).toNat := by
  induction l generalizing i with
  | nil => simp at h
  | cons x l ih =>
    cases i with
    | zero => simp [List.countP_cons]; cases p x <;> cases p (f x) <;> simp
    | succ i =>
      have := ih i (by simpa using h)
      simp [List.countP_cons] at this ⊢
      omega

/-- A context that is live, or holds somebody current, is one of the list. -/
theorem context_mem {s : State} {c : Nat} (h : (context s c).live = true ∨ ∃ m, (context s c).isCurrent m = true) :
    ∃ hc : c < s.calls.contexts.length, context s c = s.calls.contexts[c] := by
  by_cases hc : c < s.calls.contexts.length
  · exact ⟨hc, by simp [context, List.getD_eq_getElem?_getD, hc]⟩
  · have e : context s c = .empty := by simp [context, List.getD_eq_getElem?_getD, List.getElem?_eq_none (not_lt.1 hc)]
    rw [e] at h
    rcases h with h | ⟨m, h⟩
    · exact absurd h (by decide)
    · simp [Context.empty, Context.isCurrent] at h

/-- One member's mark moves in one context, and the paged count with it (R66). -/
theorem callsOk_mark {s t : State} {c m : Nat} {f : Context → Context} {g : Member → Member}
    (ct : t.calls.contexts = s.calls.contexts.modify c f) (bt : t.calls.backlog = s.calls.backlog)
    (mt : t.roster.members = s.roster.members.modify m g) (hc : c < s.calls.contexts.length)
    (slot : (f s.calls.contexts[c]).slot = s.calls.contexts[c].slot)
    (others : ∀ x, x ≠ m → (f s.calls.contexts[c]).isCurrent x = s.calls.contexts[c].isCurrent x)
    (free : (f s.calls.contexts[c]).state = .free → ∀ e ∈ (f s.calls.contexts[c]).contacted, e.current = false)
    (paged : ∀ r, (g r).paged = r.paged + ((f s.calls.contexts[c]).isCurrent m).toNat - (s.calls.contexts[c].isCurrent m).toNat)
    (h : callsOk s) : callsOk t := by
  have len : t.roster.members.length = s.roster.members.length := by rw [mt, List.length_modify]
  refine ⟨?_, by unfold membersOk; rw [len]; exact h.2.1, ?_, fun x hx => ?_⟩
  · unfold slotsOk
    have : t.calls.contexts.filterMap (·.slot) = s.calls.contexts.filterMap (·.slot) := by
      rw [ct]
      have e : s.calls.contexts.modify c f = s.calls.contexts.set c (f s.calls.contexts[c]) := by
        rw [List.modify_eq_set_getElem? ]; simp [hc]
      rw [e]
      have k : ∀ l : List Context, ∀ i (hi : i < l.length) (y : Context), y.slot = l[i].slot →
          (l.set i y).filterMap (·.slot) = l.filterMap (·.slot) := by
        intro l
        induction l with
        | nil => intro i hi; simp at hi
        | cons z l ih =>
          intro i hi y hy
          cases i with
          | zero => simp at hy; simp [List.filterMap_cons, hy]
          | succ i => simp [List.filterMap_cons, ih i (by simpa using hi) y (by simpa using hy)]
      exact k _ _ hc _ slot
    rw [this, bt]
    exact h.1
  · rw [ct]
    intro k hk fr
    obtain ⟨i, hi, rfl⟩ := List.mem_iff_getElem.1 hk
    rw [List.getElem_modify] at fr ⊢
    split at fr
    · rename_i q; subst q; simp only [if_true] at fr ⊢; exact free fr
    · rename_i q; simp only [q, if_false] at fr ⊢; exact h.2.2.1 _ (List.getElem_mem _) fr
  · have hx' : x < s.roster.members.length := len ▸ hx
    have o := h.2.2.2 x hx'
    have e := countP_modify (fun k => k.isCurrent x) f s.calls.contexts c hc
    rw [ct]
    have mx : member t x = if m = x then g (member s x) else member s x := by
      unfold member
      rw [mt, List.getD_eq_getElem?_getD, List.getD_eq_getElem?_getD, List.getElem?_modify]
      rw [List.getElem?_eq_getElem hx']
      split <;> simp
    rw [mx]
    split
    · rename_i q
      subst q
      have := paged (member s m)
      omega
    · rename_i q
      have := others x fun c => q c.symm
      simp only [this] at e
      omega

/-! ## A context that changes hands -/

theorem modify_split (l : List Context) (i : Nat) (h : i < l.length) (f : Context → Context) :
    l.modify i f = l.take i ++ f l[i] :: l.drop (i + 1) ∧ l = l.take i ++ l[i] :: l.drop (i + 1) := by
  constructor
  · rw [List.modify_eq_take_cons_drop h]
  · simp

/-- A context without a current mark is opened for a slot that no context and no backlog entry names, or for none, or is freed. -/
theorem callsOk_open {s t : State} {c : Nat} {f : Context → Context}
    (ct : t.calls.contexts = s.calls.contexts.modify c f) (bt : t.calls.backlog = s.calls.backlog)
    (mt : t.roster.members.map (·.paged) = s.roster.members.map (·.paged))
    (empty : ∀ e ∈ (context s c).contacted, e.current = false) (nobody : ∀ k, (f k).contacted = [])
    (slot : ∀ k, (f k).slot = none ∨ ∃ i, (f k).slot = some i
      ∧ i ∉ s.calls.contexts.filterMap (·.slot) ++ s.calls.backlog.map (·.slot)) (h : callsOk s) : callsOk t := by
  obtain ⟨len, pg⟩ := paged_of_map mt
  by_cases hc : c < s.calls.contexts.length
  · obtain ⟨e1, e2⟩ := modify_split s.calls.contexts c hc f
    have ec : context s c = s.calls.contexts[c] := by simp [context, List.getD_eq_getElem?_getD, hc]
    refine ⟨?_, by unfold membersOk; rw [len]; exact h.2.1, ?_, fun m hm => ?_⟩
    · have o := h.1
      unfold slotsOk at o ⊢
      rw [ct, e1, bt]
      have sub : ((s.calls.contexts.take c ++ s.calls.contexts.drop (c + 1)).filterMap (·.slot) ++ s.calls.backlog.map (·.slot)).Sublist
          (s.calls.contexts.filterMap (·.slot) ++ s.calls.backlog.map (·.slot)) := by
        refine List.Sublist.append ?_ (List.Sublist.refl _)
        conv_rhs => rw [e2]
        exact List.Sublist.filterMap _ (List.Sublist.append (List.Sublist.refl _) (List.sublist_cons_self _ _))
      rcases slot s.calls.contexts[c] with n | ⟨i, n, ni⟩
      · rw [List.filterMap_append, List.filterMap_cons, n]
        simp only
        rw [← List.filterMap_append]
        exact o.sublist sub
      · have p : ((s.calls.contexts.take c ++ f s.calls.contexts[c] :: s.calls.contexts.drop (c + 1)).filterMap (·.slot)
            ++ s.calls.backlog.map (·.slot)).Perm
            (i :: ((s.calls.contexts.take c ++ s.calls.contexts.drop (c + 1)).filterMap (·.slot) ++ s.calls.backlog.map (·.slot))) := by
          rw [List.filterMap_append, List.filterMap_cons, n]
          simp only
          rw [List.filterMap_append, List.append_assoc, List.append_assoc]
          exact List.perm_middle
        rw [p.nodup_iff]
        exact List.nodup_cons.2 ⟨fun m => ni (sub.subset m), o.sublist sub⟩
    · rw [ct]
      intro k hk fr
      obtain ⟨i, hi, rfl⟩ := List.mem_iff_getElem.1 hk
      rw [List.getElem_modify] at fr ⊢
      split at fr
      · rename_i q; simp only [q, if_true]; rw [nobody]; simp
      · rename_i q; simp only [q, if_false] at fr ⊢; exact h.2.2.1 _ (List.getElem_mem _) fr
    · rw [pg, ct]
      have e := countP_modify (fun k => k.isCurrent m) f s.calls.contexts c hc
      have a : s.calls.contexts[c].isCurrent m = false := isCurrent_eq_false.2 (ec ▸ empty) m
      have b : (f s.calls.contexts[c]).isCurrent m = false := isCurrent_eq_false.2 (by rw [nobody]; simp) m
      rw [a, b] at e
      have := h.2.2.2 m (len ▸ hm)
      omega
  · have : s.calls.contexts.modify c f = s.calls.contexts := List.modify_eq_self (by omega)
    refine callsOk_of_alike (by rw [ct, this]; exact alike_refl_list _) (fun _ => by rw [bt]; exact id) mt h

end Sys2Proof.Machine
end

