-- ==== Sys2Proof/Laws/Memory.lean ====
section
/-! SUPPORT. Laws/Memory.lean: server memory as the part's writes have left it: every write keeps the canonical form, a byte written
reads as written, and every other byte reads as before. -/

namespace Sys2Proof.Machine

variable {m : List Host.Cell}

/-- The form of a memory, as a property of its addresses. -/
theorem wf_iff (m : List Host.Cell) : Memory.wf m = true ↔ m.Pairwise fun a b => a.1 < b.1 := by
  induction m with
  | nil => simp [Memory.wf]
  | cons a m ih =>
    cases m with
    | nil => simp [Memory.wf]
    | cons b m =>
      rw [Memory.wf, Bool.and_eq_true, ih, List.pairwise_cons (a := a)]
      simp only [decide_eq_true_eq]
      constructor
      · rintro ⟨h, k⟩
        refine ⟨fun c hc => ?_, k⟩
        rcases List.mem_cons.1 hc with rfl | hc
        · exact h
        · exact lt_trans h ((List.pairwise_cons.1 k).1 c hc)
      · rintro ⟨h, k⟩
        exact ⟨h b (by simp), k⟩

/-- The addresses a write leaves. -/
theorem mem_write {c x : Host.Cell} (h : x ∈ Memory.write m c) : x = c ∨ x ∈ m := by
  induction m with
  | nil => simpa [Memory.write] using h
  | cons y m ih =>
    unfold Memory.write at h
    split at h
    · simpa using h
    · split at h
      · rcases List.mem_cons.1 h with h | h
        · exact .inl h
        · exact .inr (List.mem_cons_of_mem _ h)
      · rcases List.mem_cons.1 h with h | h
        · exact .inr (h ▸ List.mem_cons_self)
        · exact (ih h).imp id (List.mem_cons_of_mem _)

/-- A write keeps the canonical form. -/
theorem wf_write (h : Memory.wf m = true) (c : Host.Cell) : Memory.wf (Memory.write m c) = true := by
  rw [wf_iff] at h ⊢
  induction m with
  | nil => simp [Memory.write]
  | cons x m ih =>
    obtain ⟨h1, h2⟩ := List.pairwise_cons.1 h
    unfold Memory.write
    split
    · rename_i k
      refine List.pairwise_cons.2 ⟨fun b hb => ?_, h⟩
      rcases List.mem_cons.1 hb with rfl | hb
      · exact k
      · exact lt_trans k (h1 b hb)
    · split
      · rename_i k
        exact List.pairwise_cons.2 ⟨fun b hb => k ▸ h1 b hb, h2⟩
      · rename_i k l
        refine List.pairwise_cons.2 ⟨fun b hb => ?_, ih h2⟩
        rcases mem_write hb with rfl | hb
        · omega
        · exact h1 b hb

/-- A write of several bytes keeps the canonical form. -/
theorem wf_writeAll (h : Memory.wf m = true) (cells : List Host.Cell) : Memory.wf (Memory.writeAll m cells) = true := by
  unfold Memory.writeAll
  induction cells generalizing m with
  | nil => exact h
  | cons c cells ih => exact ih (wf_write h c)

@[simp] theorem read_nil (i : Nat) : Memory.read [] i = none := rfl

theorem read_cons (x : Host.Cell) (m : List Host.Cell) (i : Nat) :
    Memory.read (x :: m) i = if x.1 = i then some x.2 else Memory.read m i := by
  unfold Memory.read
  by_cases h : x.1 = i <;> simp [h]

/-- What a byte reads as after a write. -/
theorem read_write (m : List Host.Cell) (c : Host.Cell) (i : Nat) :
    Memory.read (Memory.write m c) i = if c.1 = i then some c.2 else Memory.read m i := by
  induction m with
  | nil => simp [Memory.write, read_cons]
  | cons x m ih =>
    unfold Memory.write
    split
    · rw [read_cons]
    · split
      · rename_i k
        rw [read_cons, read_cons, k]
        split <;> simp_all
      · rename_i k l
        rw [read_cons, ih, read_cons]
        split
        · rw [if_neg (by omega)]
        · rfl

/-- A byte that is written reads as written. -/
theorem read_write_same (m : List Host.Cell) (c : Host.Cell) : Memory.read (Memory.write m c) c.1 = some c.2 := by
  simp [read_write]

/-- Every other byte reads as before. -/
theorem read_write_ne {c : Host.Cell} {i : Nat} (h : i ≠ c.1) (m : List Host.Cell) :
    Memory.read (Memory.write m c) i = Memory.read m i := by
  simp [read_write, Ne.symm h]

/-- After several writes a byte reads as the last of them to its address wrote it, or as before. -/
theorem read_writeAll (m cells : List Host.Cell) (i : Nat) :
    Memory.read (Memory.writeAll m cells) i =
      match cells.reverse.find? (·.1 == i) with
      | some c => some c.2
      | none => Memory.read m i := by
  unfold Memory.writeAll
  induction cells generalizing m with
  | nil => rfl
  | cons c cells ih =>
    rw [List.foldl_cons, ih, List.reverse_cons, List.find?_append]
    cases cells.reverse.find? (·.1 == i) with
    | some d => rfl
    | none =>
      rw [read_write]
      by_cases k : c.1 = i <;> simp [k]

/-- After several writes a byte reads as before, or as one of them wrote it. -/
theorem read_writeAll_cases (m cells : List Host.Cell) (i : Nat) :
    Memory.read (Memory.writeAll m cells) i = Memory.read m i
      ∨ ∃ c ∈ cells, c.1 = i ∧ Memory.read (Memory.writeAll m cells) i = some c.2 := by
  rw [read_writeAll]
  cases h : cells.reverse.find? (·.1 == i) with
  | none => exact .inl rfl
  | some c => exact .inr ⟨c, by simpa using List.mem_of_find?_eq_some h, by simpa using List.find?_some h, rfl⟩

/-- A completed transaction keeps the canonical form. -/
theorem wf_land {α : Type} (t : Transaction α) {s : State} (h : Memory.wf s.memory = true) :
    Memory.wf (land t s).memory = true := wf_writeAll (wf_writeAll h _) _

/-- A transaction that completed with error keeps the canonical form. -/
theorem wf_landFaulted {α : Type} (t : Transaction α) {s : State} (h : Memory.wf s.memory = true) :
    Memory.wf (landFaulted t s).memory = true := wf_writeAll (wf_writeAll h _) _

/-- What a byte reads as after a transaction: as before, or one of its bytes. -/
theorem read_land {α : Type} (t : Transaction α) (s : State) (i : Nat) :
    Memory.read (land t s).memory i = Memory.read s.memory i
      ∨ ∃ c ∈ t.writes ++ t.lastWrites, c.1 = i ∧ Memory.read (land t s).memory i = some c.2 := by
  show Memory.read (Memory.writeAll (Memory.writeAll s.memory t.writes) t.lastWrites) i = _ ∨ _
  rcases read_writeAll_cases (Memory.writeAll s.memory t.writes) t.lastWrites i with h | ⟨c, hc, e, h⟩
  · rcases read_writeAll_cases s.memory t.writes i with k | ⟨c, hc, e, k⟩
    · exact .inl (h.trans k)
    · exact .inr ⟨c, by simp [hc], e, h.trans k⟩
  · exact .inr ⟨c, by simp [hc], e, h⟩

theorem mem_faultedCells {d n : Nat} {cells : List Host.Cell} {c : Host.Cell} (h : c ∈ faultedCells d n cells) : c ∈ cells := by
  unfold faultedCells at h
  obtain ⟨p, hp, q⟩ := List.mem_filterMap.1 h
  split at q
  · cases q
    exact (List.mem_zipIdx hp).2.2 ▸ List.getElem_mem _
  · cases q

/-- What a byte reads as after a transaction with error: as before, or one of its bytes. -/
theorem read_landFaulted {α : Type} (t : Transaction α) (s : State) (i : Nat) :
    Memory.read (landFaulted t s).memory i = Memory.read s.memory i
      ∨ ∃ c ∈ t.writes ++ t.lastWrites, c.1 = i ∧ Memory.read (landFaulted t s).memory i = some c.2 := by
  unfold landFaulted
  dsimp only
  generalize hf : faultedCells s.draws 0 t.writes = first
  generalize hg : (if first.length = t.writes.length then faultedCells s.draws t.writes.length t.lastWrites else []) = second
  have hs : ∀ c ∈ second, c ∈ t.lastWrites := fun c hc => by
    rw [← hg] at hc
    split at hc
    · exact mem_faultedCells hc
    · cases hc
  rcases read_writeAll_cases (Memory.writeAll s.memory first) second i with h | ⟨c, hc, e, h⟩
  · rcases read_writeAll_cases s.memory first i with k | ⟨c, hc, e, k⟩
    · exact .inl (h.trans k)
    · exact .inr ⟨c, by simp [mem_faultedCells (hf ▸ hc)], e, h.trans k⟩
  · exact .inr ⟨c, by simp [hs c hc], e, h⟩

end Sys2Proof.Machine
end

