-- ==== Sys2Proof/Laws/Mail.lean ====
section
/-! SUPPORT. Laws/Mail.lean: the work of the Page Dispatcher reaches the delivery records, the air queues, the journal and the
free-value counter, and nothing else: said once of every one of its operations. -/

namespace Sys2Proof.Machine

/-- A drop but for its air queue. -/
def Drop.bare (d : Drop) : Drop := { d with queue := [] }

/-- `t` differs from `s` in the delivery records, the air queues, the journal and the free-value counter at most. -/
structure Mail (s t : State) : Prop where
  same : t = { s with dispatcher := t.dispatcher, journal := t.journal, draws := t.draws, line0 := t.line0, line1 := t.line1 }
  line0 : t.line0 = { s.line0 with drops := t.line0.drops }
  line1 : t.line1 = { s.line1 with drops := t.line1.drops }
  drops0 : t.line0.drops.map Drop.bare = s.line0.drops.map Drop.bare
  drops1 : t.line1.drops.map Drop.bare = s.line1.drops.map Drop.bare

theorem Mail.refl (s : State) : Mail s s := ⟨rfl, rfl, rfl, rfl, rfl⟩

theorem Mail.trans {a b c : State} (h : Mail a b) (k : Mail b c) : Mail a c where
  same := by rw [k.same, h.same]
  line0 := by rw [k.line0, h.line0]
  line1 := by rw [k.line1, h.line1]
  drops0 := k.drops0.trans h.drops0
  drops1 := k.drops1.trans h.drops1

variable {a s : State}

theorem Mail.calls {t : State} (h : Mail s t) : t.calls = s.calls := by rw [h.same]
theorem Mail.roster {t : State} (h : Mail s t) : t.roster = s.roster := by rw [h.same]
theorem Mail.area {t : State} (h : Mail s t) : t.area = s.area := by rw [h.same]
theorem Mail.attention {t : State} (h : Mail s t) : t.attention = s.attention := by rw [h.same]
theorem Mail.engine {t : State} (h : Mail s t) : t.engine = s.engine := by rw [h.same]
theorem Mail.tickCount {t : State} (h : Mail s t) : t.tickCount = s.tickCount := by rw [h.same]
theorem Mail.window {t : State} (h : Mail s t) : t.window = s.window := by rw [h.same]
theorem Mail.watch {t : State} (h : Mail s t) : t.watch = s.watch := by rw [h.same]
theorem Mail.latches {t : State} (h : Mail s t) : t.latches = s.latches := by rw [h.same]
theorem Mail.memory {t : State} (h : Mail s t) : t.memory = s.memory := by rw [h.same]
theorem Mail.pending {t : State} (h : Mail s t) : t.pending = s.pending := by rw [h.same]
theorem Mail.agenda {t : State} (h : Mail s t) : t.agenda = s.agenda := by rw [h.same]
theorem Mail.context {t : State} (h : Mail s t) (c : Nat) : context t c = context s c := by unfold Machine.context; rw [h.calls]
theorem Mail.member {t : State} (h : Mail s t) (m : Nat) : member t m = member s m := by unfold Machine.member; rw [h.roster]
theorem Mail.slotImage {t : State} (h : Mail s t) (i : Nat) : slotImage t i = slotImage s i := by
  unfold Machine.slotImage; rw [h.area]

theorem Mail.tagLive {t : State} (h : Mail s t) (tag : Nat) : tagLive t tag = tagLive s tag := by
  unfold Machine.tagLive; rw [h.context]

theorem Mail.tagRecord {t : State} (h : Mail s t) (k : RecordKind) (tag : Nat) : tagRecord t k tag = tagRecord s k tag := by
  unfold Machine.tagRecord; rw [h.tagLive, h.context]

/-- Every drop stands as it stood, but for its air queue. -/
theorem Mail.drop {t : State} (h : Mail s t) (l : LineId) (i : Nat) :
    (drop? t l i).map Drop.bare = (drop? s l i).map Drop.bare := by
  unfold drop?
  split
  · rfl
  · cases l
    · rw [← List.getElem?_map, ← List.getElem?_map]
      exact congrArg (·[i - 1]?) h.drops0
    · rw [← List.getElem?_map, ← List.getElem?_map]
      exact congrArg (·[i - 1]?) h.drops1

theorem Mail.usableAt {t : State} (h : Mail s t) (p : LineId × Nat) : usableAt t p = usableAt s p := by
  have k := h.drop p.1 p.2
  have e : ∀ d : Option Drop, d.any Drop.usable = (d.map Drop.bare).any Drop.usable := fun d => by cases d <;> rfl
  unfold Machine.usableAt
  rw [e, e (drop? s _ _), k]

theorem mail_modDispatcher (h : Mail a s) (f : Dispatcher → Dispatcher) : Mail a (s.modDispatcher f) :=
  h.trans ⟨rfl, rfl, rfl, rfl, rfl⟩

theorem mail_draws (h : Mail a s) (n : Nat) : Mail a { s with draws := n } := h.trans ⟨rfl, rfl, rfl, rfl, rfl⟩

theorem mail_modJournal (h : Mail a s) (f : Journal → Journal) : Mail a (s.modJournal f) := h.trans ⟨rfl, rfl, rfl, rfl, rfl⟩

theorem mail_pump (h : Mail a s) : Mail a (pump s) := by
  unfold pump
  repeat' split
  all_goals first | exact h | exact h.trans ⟨rfl, rfl, rfl, rfl, rfl⟩

theorem mail_submit (h : Mail a s) (r : JournalRecord) : Mail a (submit r s) := by
  unfold submit
  split
  all_goals exact mail_pump (mail_modJournal h _)

theorem mail_modDelivery (h : Mail a s) (serial : Nat) (f : Delivery → Delivery) : Mail a (modDelivery serial f s) :=
  mail_modDispatcher h _

theorem mail_discardDelivery (h : Mail a s) (serial : Nat) : Mail a (discardDelivery serial s) := mail_modDispatcher h _

theorem map_bare_of {l : List Drop} {f : Drop → Drop} (k : ∀ d, (f d).bare = d.bare) :
    (l.map f).map Drop.bare = l.map Drop.bare := by
  simp [Function.comp_def, k]

theorem modify_bare_of {l : List Drop} {i : Nat} {f : Drop → Drop} (k : ∀ d, (f d).bare = d.bare) :
    (l.modify i f).map Drop.bare = l.map Drop.bare := by
  apply List.ext_getElem?
  intro j
  simp only [List.getElem?_map, List.getElem?_modify]
  split
  · cases l[j]? <;> simp [k]
  · cases l[j]? <;> rfl

theorem mail_mapDrops (h : Mail a s) (f : Drop → Drop) (k : ∀ d, (f d).bare = d.bare) : Mail a (s.mapDrops f) :=
  h.trans ⟨rfl, rfl, rfl, map_bare_of k, map_bare_of k⟩

theorem mail_modDrop (h : Mail a s) (l : LineId) (i : Nat) (f : Drop → Drop) (k : ∀ d, (f d).bare = d.bare) :
    Mail a (modDrop l i f s) := by
  cases l
  · exact h.trans ⟨rfl, rfl, rfl, modify_bare_of k, rfl⟩
  · exact h.trans ⟨rfl, rfl, rfl, rfl, modify_bare_of k⟩

theorem mail_foldl {α : Type} (f : State → α → State) (hf : ∀ s x, Mail a s → Mail a (f s x)) (l : List α) (h : Mail a s) :
    Mail a (l.foldl f s) := by
  induction l generalizing s with
  | nil => exact h
  | cons x l ih => exact ih (hf s x h)

theorem mail_removeQueued (h : Mail a s) (serial : Nat) : Mail a (removeQueued serial s) := mail_mapDrops h _ fun _ => rfl

theorem mail_withdraw (h : Mail a s) (serial : Nat) : Mail a (withdraw serial s) :=
  mail_discardDelivery (mail_removeQueued h serial) serial

theorem mail_withdrawKey (h : Mail a s) (key : RecordKey) : Mail a (withdrawKey key s) := by
  unfold withdrawKey
  split
  · exact h
  · exact mail_withdraw h _

theorem mail_withdrawPages (h : Mail a s) (tag m : Nat) : Mail a (withdrawPages tag m s) :=
  mail_withdrawKey (mail_withdrawKey h _) _

theorem mail_withdrawTag (h : Mail a s) (tag : Nat) : Mail a (withdrawTag tag s) :=
  mail_foldl _ (fun _ r k => mail_withdraw k r.serial) _ h

theorem mail_deferCopy (h : Mail a s) (l : LineId) (address serial : Nat) : Mail a (deferCopy l address serial s) := by
  unfold deferCopy
  split
  · exact h
  · exact mail_modDelivery h _ _

theorem mail_messageDropped (h : Mail a s) (m : Message) (cause : DropMessageCause) (at? : Option (LineId × Nat)) :
    Mail a (messageDropped m cause at? s) := mail_submit h _

theorem mail_notHeld (h : Mail a s) (e : AirEntry) (cause : DropMessageCause) (l : LineId) (address : Nat) :
    Mail a (notHeld e cause l address s) := by
  unfold notHeld
  split
  · exact mail_deferCopy h _ _ _
  · exact mail_messageDropped h _ _ _

theorem mail_enqueue (h : Mail a s) (m : Message) (carriage : Carriage) (l : LineId) (address : Nat) :
    Mail a (enqueue m carriage l address s) := by
  unfold enqueue
  dsimp only
  generalize settleEntry _ _ = p
  have h1 : Mail a (modDrop l address (fun d => { d with queue := p.queue }) { s with draws := s.draws + 1 }) :=
    mail_modDrop (mail_draws h _) _ _ _ fun _ => rfl
  revert h1
  generalize modDrop l address (fun d => { d with queue := p.queue }) { s with draws := s.draws + 1 } = s1
  intro h1
  have h2 : Mail a (if p.placed then s1.modDispatcher fun d => { d with order := d.order + 1 } else s1) := by
    split
    · exact mail_modDispatcher h1 _
    · exact h1
  revert h2
  generalize (if p.placed then s1.modDispatcher fun d => { d with order := d.order + 1 } else s1) = s2
  intro h2
  cases carriage
  all_goals
    cases p.placed <;> cases p.displaced <;>
      simp only [if_true, if_false, Bool.false_eq_true] <;>
      first
        | exact h2
        | exact mail_modDelivery h2 _ _
        | exact mail_notHeld h2 _ _ _ _
        | exact mail_notHeld (mail_modDelivery h2 _ _) _ _ _ _
        | exact mail_notHeld (mail_notHeld h2 _ _ _ _) _ _ _ _

theorem mail_sendControl (h : Mail a s) (m : Message) (fixed : Option FixedRoute) (u : Option Nat) :
    Mail a (sendControl m fixed u s) := by
  unfold sendControl
  dsimp only
  repeat' split
  all_goals first | exact mail_messageDropped h _ _ _ | exact mail_enqueue h _ _ _ _

theorem mail_sendCancel (h : Mail a s) (tag m : Nat) : Mail a (sendCancel tag m s) := mail_sendControl h _ _ _

theorem mail_sendEndCancel (h : Mail a s) (k : Context) (m : Nat) : Mail a (sendEndCancel k m s) := mail_sendControl h _ _ _

theorem mail_sendReloadCancel (h : Mail a s) (tag m pager : Nat) (route : FixedRoute) :
    Mail a (sendReloadCancel tag m pager route s) := mail_sendControl h _ _ _

theorem mail_sendConfirm (h : Mail a s) (k : Context) (m : Nat) : Mail a (sendConfirm k m s) := mail_sendControl h _ _ _

theorem mail_becomePending (h : Mail a s) (serial : Nat) (st : Stage) : Mail a (becomePending serial st s) :=
  mail_modDelivery (mail_modDispatcher h _) _ _

theorem mail_endUnreached (h : Mail a s) (r : Delivery) : Mail a (endUnreached r s).1 := mail_withdraw (mail_submit h _) _

theorem mail_enqueueCopies (h : Mail a s) (r : Delivery) (st : Stage) (ts : List (LineId × Nat)) :
    Mail a (enqueueCopies r st ts s) := mail_foldl _ (fun _ _ k => mail_enqueue k _ _ _ _) _ h

theorem mail_beginStage (h : Mail a s) (serial : Nat) (st : Stage) : Mail a (beginStage serial st s).1 := by
  unfold beginStage
  dsimp only
  repeat' split
  all_goals first
    | exact h
    | exact mail_becomePending h _ _
    | exact mail_endUnreached (mail_modDelivery h _ _) _
    | exact mail_modDelivery (mail_modDelivery h _ _) _ _
    | exact mail_enqueueCopies (mail_modDelivery h _ _) _ _ _

theorem mail_handOver (h : Mail a s) (kind : DeliveryKind) (c m : Nat) (b : Bool) : Mail a (handOver kind c m b s) :=
  mail_beginStage (mail_modDispatcher (mail_withdrawKey h _) _) _ _

theorem mail_onAir (h : Mail a s) (l : LineId) (address : Nat) (e : AirEntry) : Mail a (onAir l address e s) := by
  unfold onAir
  dsimp only
  repeat' split
  all_goals first
    | exact h
    | exact mail_modDelivery h _ _
    | exact mail_modDelivery (mail_modDelivery h _ _) _ _
    | exact mail_submit (mail_modDelivery (mail_modDelivery h _ _) _ _) _

theorem mail_completeRecord (h : Mail a s) (l : LineId) (address : Nat) (r : Delivery) : Mail a (completeRecord l address r s) :=
  mail_discardDelivery (mail_submit (mail_removeQueued h _) _) _

theorem mail_receiptExpired (h : Mail a s) (r : Delivery) : Mail a (receiptExpired r s).1 := by
  unfold receiptExpired
  dsimp only
  split
  · exact mail_endUnreached (mail_removeQueued (mail_modDelivery h _ _) _) _
  · exact mail_beginStage (mail_removeQueued (mail_modDelivery h _ _) _) _ _

theorem mail_checkRoute (h : Mail a s) (serial : Nat) : Mail a (checkRoute serial s).1 := by
  unfold checkRoute
  repeat' split
  all_goals first | exact h | exact mail_beginStage h _ _

theorem mail_offerAgain (h : Mail a s) (serial : Nat) : Mail a (offerAgain serial s).1 := by
  unfold offerAgain
  dsimp only
  repeat' split
  all_goals first
    | exact h
    | exact mail_becomePending h _ _
    | exact mail_beginStage h _ _
    | exact mail_checkRoute (mail_enqueueCopies (mail_modDelivery h _ _) _ _ _) _
    | exact mail_enqueueCopies h _ _ _

theorem mail_retryExpired (h : Mail a s) (r : Delivery) : Mail a (retryExpired r s).1 :=
  mail_offerAgain (mail_modDelivery h _ _) _

theorem mail_settleHandedBack (h : Mail a s) (l : LineId) (address : Nat) (e : AirEntry) :
    Mail a (settleHandedBack l address e s).1 := by
  unfold settleHandedBack
  dsimp only
  repeat' split
  all_goals first
    | exact h
    | exact mail_checkRoute (mail_modDelivery h _ _) _
    | exact mail_beginStage h _ _
    | exact mail_enqueue h _ _ _ _
    | exact mail_messageDropped h _ _ _

end Sys2Proof.Machine
end

