-- ==== Sys2Proof/Laws/Queues.lean ====
section
/-! SUPPORT. Laws/Queues.lean: what the operations on an air queue leave: the entries they hold, and its bounds (R84, R85, R130). -/

namespace Sys2Proof.Machine

theorem sameMessage_comm (a b : AirEntry) : a.sameMessage b = b.sameMessage a := by
  unfold AirEntry.sameMessage
  rw [Bool.beq_comm (a := a.message.tag), Bool.beq_comm (a := a.message.member), Bool.beq_comm (a := a.message.kind)]

@[simp] theorem length_placeEntry (e : AirEntry) (q : List AirEntry) : (placeEntry e q).length = q.length + 1 := by
  induction q with
  | nil => rfl
  | cons x q ih => unfold placeEntry; split <;> simp [ih]

/-- Placing an entry adds it and changes the order of nothing. -/
theorem perm_placeEntry (e : AirEntry) (q : List AirEntry) : (placeEntry e q).Perm (e :: q) := by
  induction q with
  | nil => exact .refl _
  | cons x q ih =>
    unfold placeEntry
    split
    · exact .refl _
    · exact (ih.cons x).trans (.swap e x q)

@[simp] theorem mem_placeEntry {e x : AirEntry} {q : List AirEntry} : x ∈ placeEntry e q ↔ x = e ∨ x ∈ q := by
  rw [(perm_placeEntry e q).mem_iff, List.mem_cons]

theorem queueOk_nil : queueOk [] := ⟨Nat.zero_le _, .nil, .nil⟩

/-- A part of a queue in order is in order. -/
theorem queueOk_sublist {p q : List AirEntry} (h : queueOk q) (k : p.Sublist q) : queueOk p :=
  ⟨le_trans k.length_le h.1, h.2.1.sublist k, h.2.2.sublist k⟩

/-- Placing an entry by its urgency keeps the urgencies falling. -/
theorem placeEntry_sorted (e : AirEntry) {q : List AirEntry} (h : q.Pairwise fun a b => b.urgency ≤ a.urgency) :
    (placeEntry e q).Pairwise fun a b => b.urgency ≤ a.urgency := by
  induction q with
  | nil => exact .cons (fun _ m => absurd m List.not_mem_nil) .nil
  | cons x q ih =>
    obtain ⟨hx, hq⟩ := List.pairwise_cons.1 h
    unfold placeEntry
    split
    · rename_i k
      refine .cons (fun y m => ?_) h
      rcases List.mem_cons.1 m with rfl | m
      · exact le_of_lt k
      · exact le_trans (hx y m) (le_of_lt k)
    · rename_i k
      refine .cons (fun y m => ?_) (ih hq)
      rcases mem_placeEntry.1 m with rfl | m
      · exact not_lt.1 k
      · exact hx y m

/-- Placing an entry where there is room and no entry of the same message keeps the queue in order. -/
theorem queueOk_placeEntry {e : AirEntry} {q : List AirEntry} (h : queueOk q) (l : q.length < Config.queueCapacity)
    (n : ∀ x ∈ q, e.sameMessage x = false) : queueOk (placeEntry e q) := by
  refine ⟨by simpa using l, ?_, placeEntry_sorted e h.2.2⟩
  have sym : ∀ {a b : AirEntry}, a.sameMessage b = false → b.sameMessage a = false := fun {a b} h => by
    rw [sameMessage_comm]; exact h
  exact ((perm_placeEntry e q).pairwise_iff sym).2 (.cons n h.2.1)

/-- An enqueue leaves the queue in order: at most 16 entries, and no two of one message (R84, R85). -/
theorem queueOk_settleEntry (e : AirEntry) {q : List AirEntry} (h : queueOk q) : queueOk (settleEntry e q).queue := by
  unfold settleEntry
  split
  · rename_i k
    refine queueOk_placeEntry (queueOk_sublist h List.filter_sublist) ?_ fun x m => ?_
    · obtain ⟨x, m, hx⟩ := List.any_eq_true.1 k
      refine lt_of_lt_of_le ?_ h.1
      exact List.length_filter_lt_length_iff_exists.2 ⟨x, m, by simp [hx]⟩
    · simpa using (List.mem_filter.1 m).2
  · rename_i k
    have n : ∀ x ∈ q, e.sameMessage x = false := fun x m => by
      by_contra c; exact k (List.any_eq_true.2 ⟨x, m, by simpa using c⟩)
    split
    · exact queueOk_placeEntry h ‹_› n
    · split
      · exact h
      · split
        · rename_i g _
          refine queueOk_placeEntry (queueOk_sublist h (List.dropLast_sublist q)) ?_ fun x m =>
            n x ((List.dropLast_sublist q).subset m)
          have := h.1
          have : q ≠ [] := fun c => by simp [c] at g
          have := List.length_pos_iff.2 this
          rw [List.length_dropLast]
          omega
        · exact h

/-- A fill takes no more than its limit (R130). -/
theorem length_fillSet (limit budget : Nat) (q : List AirEntry) : (fillSet limit budget q).length ≤ limit := by
  induction q generalizing limit budget with
  | nil => simp [fillSet]
  | cons e q ih =>
    unfold fillSet
    split
    · exact Nat.zero_le _
    · split
      · simpa using ih _ _
      · exact Nat.zero_le _

/-- A fill takes entries of the queue from its head. -/
theorem fillSet_prefix (limit budget : Nat) (q : List AirEntry) : fillSet limit budget q <+: q := by
  induction q generalizing limit budget with
  | nil => simp [fillSet]
  | cons e q ih =>
    unfold fillSet
    split
    · exact List.nil_prefix
    · split
      · exact (List.prefix_cons_inj e).2 (ih _ _)
      · exact List.nil_prefix

end Sys2Proof.Machine
end

