-- ==== Sys2Proof/Laws/Quiet.lean ====
section
/-! SUPPORT. Laws/Quiet.lean: what the internal work of an event leaves: server memory, the queue of commands, AREA BASE, MASK
and the tick count as they were; every latched cause latched; the supervision lock on once it is on; and the bounds of
Safety.lean. One lemma per shared operation says that a state reached from `a` quietly stays so after the operation. -/

namespace Sys2Proof.Machine

/-- From `s` to `t` only internal work was done. -/
structure Quiet (s t : State) : Prop where
  memory : t.memory = s.memory
  pending : t.pending = s.pending
  baseLow : t.window.baseLow = s.window.baseLow
  baseHigh : t.window.baseHigh = s.window.baseHigh
  mask : t.attention.mask = s.attention.mask
  tick : t.tickCount = s.tickCount
  events : eventsKept s.attention.event t.attention.event
  locked : s.watch.locked = true → t.watch.locked = true ∧ t.watch.lockedLimit = s.watch.lockedLimit
  counts : countsOk s → countsOk t
  journal : s.journal.ok → t.journal.ok
  drops : dropsOk s → dropsOk t
  records : s.dispatcher.ok → t.dispatcher.ok
  calls : callsOk s → callsOk t

theorem eventsKept_refl (a : BitVec 14) : eventsKept a a := BitVec.and_self

theorem eventsKept_trans {a b c : BitVec 14} (h : eventsKept a b) (k : eventsKept b c) : eventsKept a c := by
  unfold eventsKept at *; rw [← h, BitVec.and_assoc, k]

theorem eventsKept_or (a b : BitVec 14) : eventsKept a (a ||| b) := by
  unfold eventsKept; ext i; simp; exact .inl

theorem Quiet.refl (s : State) : Quiet s s :=
  ⟨rfl, rfl, rfl, rfl, rfl, rfl, eventsKept_refl _, fun h => ⟨h, rfl⟩, id, id, id, id, id⟩

theorem Quiet.trans {a b c : State} (h : Quiet a b) (k : Quiet b c) : Quiet a c where
  memory := k.memory.trans h.memory
  pending := k.pending.trans h.pending
  baseLow := k.baseLow.trans h.baseLow
  baseHigh := k.baseHigh.trans h.baseHigh
  mask := k.mask.trans h.mask
  tick := k.tick.trans h.tick
  events := eventsKept_trans h.events k.events
  locked := fun l => ⟨(k.locked (h.locked l).1).1, (k.locked (h.locked l).1).2.trans (h.locked l).2⟩
  counts := k.counts ∘ h.counts
  journal := k.journal ∘ h.journal
  drops := k.drops ∘ h.drops
  records := k.records ∘ h.records
  calls := k.calls ∘ h.calls

/-! ## The updates of one block -/

variable {a s : State}

/-- A change of the calls, the registry and whatever else no field of `Quiet` reads. -/
theorem quiet_of_bounds {t : State} (h : Quiet a s) (m : t.memory = s.memory) (p : t.pending = s.pending)
    (w : t.window = s.window) (g : t.attention = s.attention) (k : t.tickCount = s.tickCount) (v : t.watch = s.watch)
    (c : t.calls.contexts.length = s.calls.contexts.length) (l : t.latches = s.latches) (j : t.journal = s.journal)
    (x : t.line0 = s.line0) (y : t.line1 = s.line1) (z : t.dispatcher = s.dispatcher) (o : callsOk a → callsOk t) : Quiet a t where
  memory := m.trans h.memory
  pending := p.trans h.pending
  baseLow := by rw [w, h.baseLow]
  baseHigh := by rw [w, h.baseHigh]
  mask := by rw [g, h.mask]
  tick := k.trans h.tick
  events := by rw [g]; exact h.events
  locked := by rw [v]; exact h.locked
  counts := by unfold countsOk; rw [c, l]; exact h.counts
  journal := by rw [j]; exact h.journal
  drops := by unfold dropsOk; rw [x, y]; exact h.drops
  records := by rw [z]; exact h.records
  calls := o

/-- Any change of the blocks that no field of `Quiet` reads, and that keeps the bounds of the calls. -/
theorem quiet_of_same {t : State} (h : Quiet a s) (m : t.memory = s.memory) (p : t.pending = s.pending)
    (w : t.window = s.window) (g : t.attention = s.attention) (k : t.tickCount = s.tickCount) (v : t.watch = s.watch)
    (c : t.calls.contexts.length = s.calls.contexts.length) (l : t.latches = s.latches) (j : t.journal = s.journal)
    (x : t.line0 = s.line0) (y : t.line1 = s.line1) (z : t.dispatcher = s.dispatcher) (o : callsOk s → callsOk t) : Quiet a t :=
  quiet_of_bounds h m p w g k v c l j x y z (o ∘ h.calls)

theorem quiet_modArea (h : Quiet a s) (f : AreaController → AreaController) : Quiet a (s.modArea f) :=
  quiet_of_same h rfl rfl rfl rfl rfl rfl rfl rfl rfl rfl rfl rfl id

/-- A change of the Roster Store that keeps the paged counts. -/
theorem quiet_modRoster (h : Quiet a s) (f : RosterStore → RosterStore)
    (k : (f s.roster).members.map (·.paged) = s.roster.members.map (·.paged)) : Quiet a (s.modRoster f) :=
  quiet_of_same h rfl rfl rfl rfl rfl rfl rfl rfl rfl rfl rfl rfl
    (callsOk_of_alike (alike_refl_list _) (fun _ => id) k)

theorem quiet_modDispatcher (h : Quiet a s) (f : Dispatcher → Dispatcher) (k : s.dispatcher.ok → (f s.dispatcher).ok) :
    Quiet a (s.modDispatcher f) :=
  h.trans
    { memory := rfl, pending := rfl, baseLow := rfl, baseHigh := rfl, mask := rfl, tick := rfl
      events := eventsKept_refl _, locked := fun h => ⟨h, rfl⟩, counts := id, journal := id, drops := id, records := k
      calls := id }

theorem quiet_draws (h : Quiet a s) (n : Nat) : Quiet a { s with draws := n } :=
  quiet_of_same h rfl rfl rfl rfl rfl rfl rfl rfl rfl rfl rfl rfl id

theorem quiet_agenda (h : Quiet a s) (l : List Task) : Quiet a { s with agenda := l } :=
  quiet_of_same h rfl rfl rfl rfl rfl rfl rfl rfl rfl rfl rfl rfl id

theorem quiet_engine (h : Quiet a s) (e : EngineState) : Quiet a { s with engine := e } :=
  quiet_of_same h rfl rfl rfl rfl rfl rfl rfl rfl rfl rfl rfl rfl id

/-- A change of the Call Engine that leaves every context alike and adds no slot to the backlog. -/
theorem quiet_modCalls (h : Quiet a s) (f : CallEngine → CallEngine)
    (k : List.Forall₂ Alike s.calls.contexts (f s.calls).contexts)
    (b : ∀ x : List Nat, (x ++ s.calls.backlog.map (·.slot)).Nodup → (x ++ (f s.calls).backlog.map (·.slot)).Nodup) :
    Quiet a (s.modCalls f) :=
  quiet_of_same h rfl rfl rfl rfl rfl rfl k.length_eq.symm rfl rfl rfl rfl rfl (callsOk_of_alike k b rfl)

/-- A change of one context that leaves it alike. -/
theorem quiet_modContext (h : Quiet a s) (c : Nat) (f : Context → Context) (k : ∀ x, Alike x (f x)) :
    Quiet a (modContext c f s) :=
  quiet_modCalls h _ (forall₂_modify k _ c) fun _ => id

theorem quiet_modSlot (h : Quiet a s) (i : Nat) (f : SlotImage → SlotImage) : Quiet a (modSlot i f s) :=
  quiet_modArea h _

theorem change_paged {f : Member → Member} (k : ∀ r, (f r).paged = r.paged) (r : Member) : (Member.change f r).paged = r.paged := by
  unfold Member.change
  split
  · rfl
  · exact k r

theorem modify_paged {f : Member → Member} (k : ∀ r, (f r).paged = r.paged) (l : List Member) (m : Nat) :
    (l.modify m f).map (·.paged) = l.map (·.paged) := by
  induction l generalizing m with
  | nil => simp
  | cons x l ih => cases m <;> simp [k, ih]

/-- A change of one member's record that keeps its paged count. -/
theorem quiet_modMember (h : Quiet a s) (m : Nat) (f : Member → Member) (k : ∀ r, (f r).paged = r.paged) :
    Quiet a (modMember m f s) :=
  quiet_modRoster h _ (modify_paged (change_paged k) _ m)

theorem quiet_areaIssue (h : Quiet a s) (t : Transaction AreaOp) : Quiet a (areaIssue t s) := quiet_modArea h _

theorem quiet_areaDone (h : Quiet a s) : Quiet a (areaDone s) := quiet_modArea h _

theorem quiet_areaRead (h : Quiet a s) (op : AreaOp) (o n : Nat) : Quiet a (areaRead op o n s) := quiet_areaIssue h _

theorem quiet_areaWrite (h : Quiet a s) (op : AreaOp) (o : Nat) (d : List Byte) : Quiet a (areaWrite op o d s) :=
  quiet_areaIssue h _

theorem quiet_raise (h : Quiet a s) (c : Cause) : Quiet a (raise c s) :=
  h.trans
    { memory := rfl, pending := rfl, baseLow := rfl, baseHigh := rfl, mask := rfl, tick := rfl
      events := eventsKept_or _ _
      locked := fun h => ⟨h, rfl⟩, counts := id, journal := id, drops := id, records := id
      calls := id }

theorem quiet_modWatch (h : Quiet a s) (f : HeartbeatWatch → HeartbeatWatch)
    (k : s.watch.locked = true → (f s.watch).locked = true ∧ (f s.watch).lockedLimit = s.watch.lockedLimit) :
    Quiet a (s.modWatch f) :=
  h.trans
    { memory := rfl, pending := rfl, baseLow := rfl, baseHigh := rfl, mask := rfl, tick := rfl
      events := eventsKept_refl _, locked := k, counts := id, journal := id, drops := id, records := id
      calls := id }

theorem quiet_modJournal (h : Quiet a s) (f : Journal → Journal) (k : s.journal.ok → (f s.journal).ok) :
    Quiet a (s.modJournal f) :=
  h.trans
    { memory := rfl, pending := rfl, baseLow := rfl, baseHigh := rfl, mask := rfl, tick := rfl
      events := eventsKept_refl _, locked := fun h => ⟨h, rfl⟩, counts := id, journal := k, drops := id, records := id
      calls := id }

theorem quiet_latches (h : Quiet a s) (l : List (List Nat)) (k : l.length = s.latches.length) :
    Quiet a { s with latches := l } :=
  h.trans
    { memory := rfl, pending := rfl, baseLow := rfl, baseHigh := rfl, mask := rfl, tick := rfl
      events := eventsKept_refl _, locked := fun h => ⟨h, rfl⟩
      counts := fun c => ⟨c.1, by simpa [k] using c.2⟩, journal := id, drops := id, records := id
      calls := id }

theorem quiet_lines (h : Quiet a s) (m n : Line)
    (k : dropsOk s → (∀ d ∈ m.drops, d.ok) ∧ ∀ d ∈ n.drops, d.ok) : Quiet a { s with line0 := m, line1 := n } :=
  h.trans
    { memory := rfl, pending := rfl, baseLow := rfl, baseHigh := rfl, mask := rfl, tick := rfl
      events := eventsKept_refl _, locked := fun h => ⟨h, rfl⟩, counts := id, journal := id, drops := k, records := id
      calls := id }

theorem quiet_modLine (h : Quiet a s) (l : LineId) (f : Line → Line)
    (k : dropsOk s → (∀ d ∈ (s.line l).drops, d.ok) → ∀ d ∈ (f (s.line l)).drops, d.ok) : Quiet a (s.modLine l f) := by
  cases l
  · exact quiet_lines h (f s.line0) s.line1 fun o => ⟨k o o.1, o.2⟩
  · exact quiet_lines h s.line0 (f s.line1) fun o => ⟨o.1, k o o.2⟩

/-- A change of a line that keeps its drops. -/
theorem quiet_modLine_same (h : Quiet a s) (l : LineId) (f : Line → Line) (k : ∀ n, (f n).drops = n.drops) :
    Quiet a (s.modLine l f) :=
  quiet_modLine h l f fun _ => by rw [k]; exact id

/-- A change of a drop that keeps every drop in order, in a state whose drops are in order. -/
theorem quiet_modDrop_of (h : Quiet a s) (l : LineId) (i : Nat) (f : Drop → Drop)
    (k : dropsOk s → ∀ d, d.ok → (f d).ok) : Quiet a (modDrop l i f s) := by
  refine quiet_modLine h l _ fun o ok d m => ?_
  simp only [Line.modDrop] at m
  obtain ⟨j, hj, rfl⟩ := List.mem_iff_getElem.1 m
  rw [List.getElem_modify]
  split
  · exact k o _ (ok _ (List.getElem_mem _))
  · exact ok _ (List.getElem_mem _)

theorem quiet_modDrop (h : Quiet a s) (l : LineId) (i : Nat) (f : Drop → Drop) (k : ∀ d, d.ok → (f d).ok) :
    Quiet a (modDrop l i f s) :=
  quiet_modDrop_of h l i f fun _ => k

/-- A drop of a state whose drops are in order is in order. -/
theorem drop_ok (o : dropsOk s) {l : LineId} {i : Nat} {d : Drop} (m : drop? s l i = some d) : d.ok := by
  unfold drop? at m
  split at m
  · cases m
  · cases l
    · exact o.1 d (List.mem_of_getElem? m)
    · exact o.2 d (List.mem_of_getElem? m)

theorem quiet_mapDrops (h : Quiet a s) (f : Drop → Drop) (k : ∀ d, d.ok → (f d).ok) : Quiet a (s.mapDrops f) := by
  refine quiet_lines h _ _ fun o => ⟨fun d m => ?_, fun d m => ?_⟩
  · obtain ⟨e, he, rfl⟩ := List.mem_map.1 m
    exact k e (o.1 e he)
  · obtain ⟨e, he, rfl⟩ := List.mem_map.1 m
    exact k e (o.2 e he)

/-- A change of a drop that keeps its queue and its in-flight set. -/
theorem Drop.ok_of_same {d e : Drop} (h : d.ok) (q : e.queue = d.queue) (i : e.inFlight = d.inFlight) : e.ok := by
  unfold Drop.ok; rw [q, i]; exact h

theorem quiet_foldl {α : Type} (f : State → α → State) (hf : ∀ s x, Quiet a s → Quiet a (f s x)) (l : List α)
    (h : Quiet a s) : Quiet a (l.foldl f s) := by
  induction l generalizing s with
  | nil => exact h
  | cons x xs ih => exact ih (hf s x h)

theorem quiet_ite {p : Prop} [Decidable p] {t u : State} (h : p → Quiet a t) (k : ¬p → Quiet a u) :
    Quiet a (if p then t else u) := by
  split <;> [exact h ‹_›; exact k ‹_›]

/-! ## The journal -/

theorem Journal.ok_skip {j : Journal} (n : Nat) (h : j.ok) : (j.skip n).ok :=
  ⟨h.1, Nat.min_le_left _ _, h.2.2⟩

theorem Journal.ok_skipPending {j : Journal} (h : j.ok) : j.skipPending.ok :=
  ⟨Nat.zero_le _, Nat.min_le_left _ _, h.2.2⟩

theorem quiet_journalIssue (h : Quiet a s) (t : Transaction JournalOp) : Quiet a (journalIssue t s) :=
  quiet_modJournal h _ id

theorem quiet_journalDone (h : Quiet a s) : Quiet a (journalDone s) := quiet_modJournal h _ id

theorem quiet_issueTake (h : Quiet a s) (i : Nat) : Quiet a (issueTake i s) :=
  quiet_journalIssue (quiet_modJournal h _ id) _

theorem quiet_takeFrom (h : Quiet a s) (data : List Byte) : Quiet a (takeFrom data s) :=
  quiet_journalIssue (quiet_modJournal h _ id) _

theorem quiet_enterStalled (h : Quiet a s) : Quiet a (enterStalled s) :=
  quiet_raise (quiet_modJournal h _ fun o => ⟨Nat.zero_le _, Nat.min_le_left _ _, o.2.2⟩) _

theorem quiet_leaveStalled (h : Quiet a s) : Quiet a (leaveStalled s) :=
  quiet_ite (fun _ => h) fun _ => quiet_enterStalled h

theorem quiet_issueClose (h : Quiet a s) : Quiet a (issueClose s) := quiet_journalIssue h _

theorem quiet_issueRecord (h : Quiet a s) (r : JournalRecord) (g : Option Nat) : Quiet a (issueRecord r g s) :=
  quiet_journalIssue h _

theorem quiet_pump (h : Quiet a s) : Quiet a (pump s) := by
  unfold pump
  repeat' split
  all_goals first | exact h | exact quiet_issueClose h | exact quiet_issueRecord h _ _

theorem quiet_submit (h : Quiet a s) (r : JournalRecord) : Quiet a (submit r s) := by
  unfold submit
  split
  · exact quiet_pump (quiet_modJournal h _ (Journal.ok_skip 1))
  · rename_i k
    refine quiet_pump (quiet_modJournal h _ fun o => ⟨?_, o.2.1, o.2.2⟩)
    have := fun q => k (.inr (.inr q))
    simp only [List.length_append, List.length_singleton]
    omega

theorem quiet_settleRestart (h : Quiet a s) : Quiet a (settleRestart s) := by
  unfold settleRestart
  have h' : Quiet a (s.modJournal fun j => { j with restartPending := false }) := quiet_modJournal h _ id
  dsimp only
  repeat' split
  all_goals first
    | exact h
    | exact h'
    | exact quiet_enterStalled (quiet_modJournal h' _ id)
    | exact quiet_issueClose (quiet_modJournal h' _ id)
    | exact quiet_modJournal h' _ id
    | exact quiet_issueTake h' _

theorem quiet_journalFree (h : Quiet a s) : Quiet a (journalFree s) := quiet_pump (quiet_settleRestart h)

theorem quiet_requestRestart (h : Quiet a s) : Quiet a (requestRestart s) :=
  quiet_journalFree (quiet_modJournal h _ id)

theorem quiet_beginTake (h : Quiet a s) (i : Nat) : Quiet a (beginTake i s) := by
  unfold beginTake
  split
  · exact quiet_issueTake h i
  · exact quiet_ite (fun _ => quiet_modJournal h _ id) fun _ => quiet_issueTake h i

theorem quiet_orphanBeforeTakeDone (h : Quiet a s) : Quiet a (orphanBeforeTakeDone s) :=
  quiet_ite (fun _ => quiet_journalFree (quiet_leaveStalled (quiet_journalDone h))) fun _ => quiet_issueTake (quiet_journalDone h) _

theorem quiet_afterClose (h : Quiet a s) : Quiet a (afterClose s) := by
  unfold afterClose
  extract_lets next u v w
  have hu : Quiet a u := quiet_modJournal h _ id
  have hv : Quiet a v := quiet_ite (fun _ => quiet_raise hu _) fun _ => hu
  have hw : Quiet a w := quiet_modJournal hv _ id
  clear_value w next
  clear_value v
  cases next
  · exact quiet_journalFree (quiet_modJournal hv _ fun o => ⟨Nat.zero_le _, Nat.min_le_left _ _, o.2.2⟩)
  · dsimp only
    split
    · exact quiet_leaveStalled (quiet_modJournal hw _ id)
    · exact quiet_beginTake (quiet_modJournal hw _ id) _

theorem quiet_takeReadDone (h : Quiet a s) (data : List Byte) : Quiet a (takeReadDone data s) := by
  unfold takeReadDone
  dsimp only
  have h' := quiet_journalDone h
  split
  · exact quiet_journalFree (quiet_enterStalled h')
  · split
    · exact quiet_journalFree (quiet_leaveStalled h')
    · exact quiet_takeFrom h' _

theorem quiet_takeWriteDone (h : Quiet a s) : Quiet a (takeWriteDone s) :=
  quiet_journalFree (quiet_modJournal (quiet_journalDone h) _ id)

theorem quiet_recordWriteDone (h : Quiet a s) (g : Option Nat) : Quiet a (recordWriteDone g s) :=
  quiet_ite (fun _ => quiet_journalFree (quiet_journalDone h)) fun _ => quiet_journalIssue (quiet_journalDone h) _

theorem quiet_fillWriteDone (h : Quiet a s) (g : Option Nat) : Quiet a (fillWriteDone g s) := by
  unfold fillWriteDone
  refine quiet_journalFree (quiet_modJournal (quiet_modJournal (quiet_journalDone h) _ fun o => ?_) _ fun o => ?_)
  · exact ⟨o.1, o.2.1, Nat.mod_lt _ (by decide)⟩
  · cases g with
    | none => exact ⟨by simpa using le_trans (Nat.sub_le _ _) o.1, o.2.1, o.2.2⟩
    | some n => exact ⟨o.1, le_trans (Nat.sub_le _ _) o.2.1, o.2.2⟩

theorem Journal.ok_skipForFault {j : Journal} (h : j.ok) : j.skipForFault.ok := by
  unfold Journal.skipForFault
  repeat' split
  all_goals first
    | exact Journal.ok_skipPending h
    | exact ⟨le_trans (List.length_take_le _ _) (by decide), Nat.min_le_left _ _, h.2.2⟩

theorem quiet_setMemoryFault (h : Quiet a s) : Quiet a (setMemoryFault s) :=
  quiet_ite (fun _ => h) fun _ => quiet_raise (quiet_modJournal (quiet_modArea h _) _ Journal.ok_skipForFault) _

theorem quiet_clearMemoryFault (h : Quiet a s) : Quiet a (clearMemoryFault s) := quiet_journalFree (quiet_modArea h _)

theorem quiet_journalFailed (h : Quiet a s) (op : JournalOp) : Quiet a (journalFailed op s) := by
  cases op
  · exact quiet_journalFree (quiet_leaveStalled h)
  · exact quiet_journalFree (quiet_leaveStalled h)
  · exact quiet_journalFree h
  · exact quiet_journalFree h
  · exact quiet_journalFree (quiet_leaveStalled h)
  · exact quiet_journalFree h
  · exact quiet_journalFree (quiet_leaveStalled (quiet_modJournal h _ id))

theorem quiet_journalBegin (h : Quiet a s) : Quiet a (journalBegin s) :=
  quiet_issueTake (quiet_modJournal h _ fun _ => by decide) _

theorem quiet_journalOff (h : Quiet a s) : Quiet a (journalOff s) :=
  quiet_modJournal h _ fun o => ⟨Nat.zero_le _, o.2⟩

end Sys2Proof.Machine
end

