-- ==== Sys2Proof/Laws/QuietDelivery.lean ====
section
/-! SUPPORT. Laws/QuietDelivery.lean: the operations of the Roster Store and the Page Dispatcher are internal work (Laws/Quiet). -/

namespace Sys2Proof.Machine

variable {a s : State}

theorem quiet_engage (h : Quiet a s) (m tag : Nat) : Quiet a (engage m tag s) := quiet_modMember h _ _ fun _ => rfl

theorem quiet_release (h : Quiet a s) (m : Nat) : Quiet a (release m s) := quiet_modMember h _ _ fun _ => rfl

theorem quiet_heard (h : Quiet a s) (m zone : Nat) : Quiet a (heard m zone s) := quiet_modMember h _ _ fun _ => rfl

theorem quiet_moveRotationPointers (h : Quiet a s) (m : Nat) : Quiet a (moveRotationPointers m s) := quiet_modRoster h _ rfl

theorem quiet_installTables (h : Quiet a s) (new : Tables) : Quiet a (installTables new s) := by
  refine quiet_modRoster h _ ?_
  have k : ∀ m (x : Member), (x.reloadShown s.roster.tables new m).paged = x.paged := fun m x => by
    unfold Member.reloadShown Member.reload
    dsimp only
    repeat' split
    all_goals rfl
  refine List.ext_getElem? fun i => ?_
  simp only [List.getElem?_map, List.getElem?_mapIdx, Option.map_map]
  cases s.roster.members[i]? <;> simp [k]

theorem mapRecords_ok {d : Dispatcher} (o : d.ok) (f : Delivery → Delivery)
    (k : ∀ r, (f r).key = r.key ∧ (f r).serial = r.serial) : Dispatcher.ok { d with records := d.records.map f } := by
  refine ⟨?_, ?_, fun r m => ?_⟩
  · simpa [Function.comp_def, fun r => (k r).1] using o.1
  · simpa [Function.comp_def, fun r => (k r).2] using o.2.1
  · obtain ⟨x, hx, rfl⟩ := List.mem_map.1 m
    rw [(k x).2]
    exact o.2.2 x hx

theorem filterRecords_ok {d : Dispatcher} (o : d.ok) (p : Delivery → Bool) :
    Dispatcher.ok { d with records := d.records.filter p } :=
  ⟨o.1.sublist (List.filter_sublist.map _), o.2.1.sublist (List.filter_sublist.map _),
    fun r m => o.2.2 r (List.mem_filter.1 m).1⟩

theorem foldl_keeps {α : Type} (g : Delivery → α → Delivery) (k : ∀ r x, (g r x).key = r.key ∧ (g r x).serial = r.serial)
    (l : List α) (r : Delivery) : (l.foldl g r).key = r.key ∧ (l.foldl g r).serial = r.serial := by
  induction l generalizing r with
  | nil => exact ⟨rfl, rfl⟩
  | cons x l ih => exact ⟨(ih _).1.trans (k r x).1, (ih _).2.trans (k r x).2⟩

theorem quiet_modDelivery (h : Quiet a s) (serial : Nat) (f : Delivery → Delivery)
    (k : ∀ r, (f r).key = r.key ∧ (f r).serial = r.serial) : Quiet a (modDelivery serial f s) := by
  unfold modDelivery
  refine quiet_modDispatcher h _ fun o => mapRecords_ok o _ fun r => ?_
  split
  · exact k r
  · exact ⟨rfl, rfl⟩

theorem quiet_discardDelivery (h : Quiet a s) (serial : Nat) : Quiet a (discardDelivery serial s) :=
  quiet_modDispatcher h _ fun o => filterRecords_ok o _

theorem quiet_removeQueued (h : Quiet a s) (serial : Nat) : Quiet a (removeQueued serial s) :=
  quiet_mapDrops h _ fun _ o => ⟨queueOk_sublist o.1 List.filter_sublist, o.2⟩

theorem quiet_withdraw (h : Quiet a s) (serial : Nat) : Quiet a (withdraw serial s) := by
  unfold withdraw
  with_reducible repeat' first | exact h | assumption | apply quiet_discardDelivery | apply quiet_removeQueued

theorem quiet_withdrawKey (h : Quiet a s) (key : RecordKey) : Quiet a (withdrawKey key s) := by
  unfold withdrawKey
  with_reducible repeat' first | exact h | assumption | apply quiet_withdraw | split

theorem quiet_withdrawPages (h : Quiet a s) (tag m : Nat) : Quiet a (withdrawPages tag m s) := by
  unfold withdrawPages
  with_reducible repeat' first | exact h | assumption | apply quiet_withdrawKey

theorem quiet_withdrawTag (h : Quiet a s) (tag : Nat) : Quiet a (withdrawTag tag s) :=
  quiet_foldl _ (fun _ r k => quiet_withdraw k r.serial) _ h

theorem quiet_deferCopy (h : Quiet a s) (l : LineId) (address serial : Nat) : Quiet a (deferCopy l address serial s) := by
  unfold deferCopy
  dsimp only
  with_reducible repeat' first
    | exact h | assumption | apply quiet_modDelivery | refine quiet_ite (fun _ => ?_) fun _ => ?_ | split
    | exact fun _ k => k | exact markDirty_ok | exact id | exact rfl | exact List.length_map _
    | with_unfolding_all exact fun _ => ⟨rfl, rfl⟩

theorem quiet_messageDropped (h : Quiet a s) (m : Message) (cause : DropMessageCause) (at? : Option (LineId × Nat)) :
    Quiet a (messageDropped m cause at? s) := by
  unfold messageDropped
  dsimp only
  with_reducible repeat' first | exact h | assumption | apply quiet_submit

theorem quiet_notHeld (h : Quiet a s) (e : AirEntry) (cause : DropMessageCause) (l : LineId) (address : Nat) :
    Quiet a (notHeld e cause l address s) := by
  unfold notHeld
  with_reducible repeat' first | exact h | assumption | apply quiet_deferCopy | apply quiet_messageDropped | split

/-- The queue of a drop of a state whose drops are in order is in order. -/
theorem queueOf_ok (o : dropsOk s) (l : LineId) (address : Nat) : queueOk (queueOf s l address) := by
  unfold queueOf
  cases m : drop? s l address with
  | none => exact queueOk_nil
  | some d => exact (drop_ok o m).1

theorem quiet_enqueue (h : Quiet a s) (m : Message) (carriage : Carriage) (l : LineId) (address : Nat) :
    Quiet a (enqueue m carriage l address s) := by
  unfold enqueue
  extract_lets e p s1 s2 s3 s4 s5
  have h2 : Quiet a s2 := quiet_modDrop_of (quiet_draws h _) l address _ fun o d q =>
    ⟨queueOk_settleEntry e (queueOf_ok (s := s) o l address), q.2⟩
  have h3 : Quiet a s3 := quiet_ite (fun _ => quiet_modDispatcher h2 _ (by exact id)) fun _ => h2
  have h4 : Quiet a s4 := by
    unfold s4
    split
    · exact h3
    · exact quiet_ite (fun _ => quiet_modDelivery h3 _ _ (by exact fun _ => ⟨rfl, rfl⟩)) fun _ => h3
  have h5 : Quiet a s5 := quiet_ite (fun _ => h4) fun _ => quiet_notHeld h4 _ _ _ _
  split
  · exact h5
  · exact quiet_notHeld h5 _ _ _ _

theorem quiet_sendControl (h : Quiet a s) (m : Message) (fixed : Option FixedRoute) (endUrgency : Option Nat) :
    Quiet a (sendControl m fixed endUrgency s) := by
  unfold sendControl
  dsimp only
  with_reducible repeat' first
    | exact h | assumption | apply quiet_messageDropped | apply quiet_enqueue
    | refine quiet_ite (fun _ => ?_) fun _ => ?_ | split

theorem quiet_sendCancel (h : Quiet a s) (tag m : Nat) : Quiet a (sendCancel tag m s) := by
  unfold sendCancel
  with_reducible repeat' first | exact h | assumption | apply quiet_sendControl

theorem quiet_sendEndCancel (h : Quiet a s) (k : Context) (m : Nat) : Quiet a (sendEndCancel k m s) := by
  unfold sendEndCancel
  with_reducible repeat' first | exact h | assumption | apply quiet_sendControl

theorem quiet_sendReloadCancel (h : Quiet a s) (tag m pager : Nat) (route : FixedRoute) :
    Quiet a (sendReloadCancel tag m pager route s) := by
  unfold sendReloadCancel
  with_reducible repeat' first | exact h | assumption | apply quiet_sendControl

theorem quiet_sendConfirm (h : Quiet a s) (k : Context) (m : Nat) : Quiet a (sendConfirm k m s) := by
  unfold sendConfirm
  with_reducible repeat' first | exact h | assumption | apply quiet_sendControl

theorem quiet_becomePending (h : Quiet a s) (serial : Nat) (st : Stage) : Quiet a (becomePending serial st s) := by
  unfold becomePending
  dsimp only
  with_reducible repeat' first
    | exact h | assumption | apply quiet_modDispatcher | apply quiet_modDelivery | exact fun _ k => k
    | exact markDirty_ok | exact id | exact rfl | exact List.length_map _ | with_unfolding_all exact fun _ => ⟨rfl, rfl⟩

theorem quiet_endUnreached (h : Quiet a s) (r : Delivery) : Quiet a (endUnreached r s).1 := by
  unfold endUnreached
  dsimp only
  with_reducible repeat' first | exact h | assumption | apply quiet_submit | apply quiet_withdraw

theorem quiet_enqueueCopies (h : Quiet a s) (r : Delivery) (st : Stage) (ts : List (LineId × Nat)) :
    Quiet a (enqueueCopies r st ts s) :=
  quiet_foldl _ (fun _ x k => quiet_enqueue k _ _ x.1 x.2) _ h

theorem quiet_beginStage (h : Quiet a s) (serial : Nat) (st : Stage) : Quiet a (beginStage serial st s).1 := by
  unfold beginStage
  dsimp only
  with_reducible repeat' first
    | exact h | assumption | apply quiet_modDelivery | apply quiet_becomePending | apply quiet_endUnreached
    | apply quiet_enqueueCopies | refine quiet_ite (fun _ => ?_) fun _ => ?_ | split | exact fun _ k => k
    | exact markDirty_ok | exact id | exact rfl | exact List.length_map _ | with_unfolding_all exact fun _ => ⟨rfl, rfl⟩

/-- A hand-over makes the one record of its key, under the next serial (R83). -/
theorem addRecord_ok {d : Dispatcher} (o : d.ok) (r : Delivery) (e : r.serial = d.serial)
    (n : ∀ x ∈ d.records, x.key ≠ r.key) : Dispatcher.ok { d with records := d.records ++ [r], serial := d.serial + 1 } := by
  refine ⟨?_, ?_, fun x m => ?_⟩
  · simp only [List.map_append, List.map_cons, List.map_nil]
    refine List.Nodup.append o.1 (List.nodup_singleton _) fun k m c => ?_
    obtain ⟨x, hx, rfl⟩ := List.mem_map.1 m
    exact n x hx (List.mem_singleton.1 c)
  · simp only [List.map_append, List.map_cons, List.map_nil]
    refine List.Nodup.append o.2.1 (List.nodup_singleton _) fun k m c => ?_
    obtain ⟨x, hx, rfl⟩ := List.mem_map.1 m
    have := o.2.2 x hx
    rw [List.mem_singleton.1 c, e] at this
    exact lt_irrefl _ this
  · rcases List.mem_append.1 m with m | m
    · exact Nat.lt_succ_of_lt (o.2.2 x m)
    · rw [List.mem_singleton.1 m, e]
      exact Nat.lt_succ_self _

/-- After a withdrawal of a key no record has the key, where the keys were distinct. -/
theorem withdrawKey_free (key : RecordKey) (o : s.dispatcher.ok) :
    ∀ x ∈ (withdrawKey key s).dispatcher.records, x.key ≠ key := by
  intro x m e
  unfold withdrawKey at m
  split at m
  · rename_i g
    have := List.find?_eq_none.1 g x m
    simp [e] at this
  · rename_i r g
    obtain ⟨hx, hn⟩ := List.mem_filter.1 m
    have hr := List.mem_of_find?_eq_some g
    have hk : r.key = key := by simpa using List.find?_some g
    have : x = r := List.inj_on_of_nodup_map o.1 hx hr (by rw [e, hk])
    simp [this] at hn

theorem quiet_handOver (h : Quiet a s) (kind : DeliveryKind) (c m : Nat) (breakIn : Bool) :
    Quiet a (handOver kind c m breakIn s) := by
  unfold handOver
  extract_lets k key t serial r u
  have q : Quiet s t := quiet_withdrawKey (Quiet.refl s) key
  have hu : Quiet a u := h.trans
    { memory := q.memory, pending := q.pending, baseLow := q.baseLow, baseHigh := q.baseHigh, mask := q.mask, tick := q.tick
      events := q.events, locked := q.locked, counts := q.counts, journal := q.journal, drops := q.drops
      records := fun o => addRecord_ok (q.records o) r rfl (withdrawKey_free key o), calls := q.calls }
  exact quiet_beginStage hu _ _

theorem quiet_onAir (h : Quiet a s) (l : LineId) (address : Nat) (e : AirEntry) : Quiet a (onAir l address e s) := by
  unfold onAir
  dsimp only
  with_reducible repeat' first
    | exact h | assumption | apply quiet_submit | apply quiet_modDelivery | refine quiet_ite (fun _ => ?_) fun _ => ?_
    | split | exact fun _ k => k | exact markDirty_ok | exact id | exact rfl | exact List.length_map _
    | with_unfolding_all exact fun _ => ⟨rfl, rfl⟩

theorem quiet_completeRecord (h : Quiet a s) (l : LineId) (address : Nat) (r : Delivery) :
    Quiet a (completeRecord l address r s) := by
  unfold completeRecord
  dsimp only
  with_reducible repeat' first
    | exact h | assumption | apply quiet_submit | apply quiet_discardDelivery | apply quiet_removeQueued

theorem quiet_receiptExpired (h : Quiet a s) (r : Delivery) : Quiet a (receiptExpired r s).1 := by
  unfold receiptExpired
  dsimp only
  with_reducible repeat' first
    | exact h | assumption | apply quiet_modDelivery | apply quiet_removeQueued | apply quiet_endUnreached
    | apply quiet_beginStage | refine quiet_ite (fun _ => ?_) fun _ => ?_ | split | exact fun _ k => k
    | exact markDirty_ok | exact id | exact rfl | exact List.length_map _ | with_unfolding_all exact fun _ => ⟨rfl, rfl⟩

theorem quiet_checkRoute (h : Quiet a s) (serial : Nat) : Quiet a (checkRoute serial s).1 := by
  unfold checkRoute
  with_reducible repeat' first
    | exact h | assumption | apply quiet_beginStage | refine quiet_ite (fun _ => ?_) fun _ => ?_ | split

theorem quiet_offerAgain (h : Quiet a s) (serial : Nat) : Quiet a (offerAgain serial s).1 := by
  unfold offerAgain
  dsimp only
  with_reducible repeat' first
    | exact h | assumption | apply quiet_modDelivery | apply quiet_becomePending | apply quiet_enqueueCopies
    | apply quiet_beginStage | apply quiet_checkRoute | refine quiet_foldl _ (fun s x h => ?_) _ ?_
    | refine quiet_ite (fun _ => ?_) fun _ => ?_ | split | exact fun _ k => k | exact markDirty_ok | exact id
    | exact rfl | exact List.length_map _ | with_unfolding_all exact fun _ => ⟨rfl, rfl⟩
    | exact foldl_keeps _ (by with_unfolding_all exact fun _ _ => ⟨rfl, rfl⟩) _

theorem quiet_retryExpired (h : Quiet a s) (r : Delivery) : Quiet a (retryExpired r s).1 := by
  unfold retryExpired
  with_reducible repeat' first
    | exact h | assumption | apply quiet_modDelivery | apply quiet_offerAgain | exact fun _ k => k | exact markDirty_ok
    | exact id | exact rfl | exact List.length_map _ | with_unfolding_all exact fun _ => ⟨rfl, rfl⟩

theorem quiet_settleHandedBack (h : Quiet a s) (l : LineId) (address : Nat) (e : AirEntry) :
    Quiet a (settleHandedBack l address e s).1 := by
  unfold settleHandedBack
  dsimp only
  with_reducible repeat' first
    | exact h | assumption | apply quiet_modDelivery | apply quiet_messageDropped | apply quiet_enqueue
    | apply quiet_beginStage | apply quiet_checkRoute | refine quiet_ite (fun _ => ?_) fun _ => ?_ | split
    | exact fun _ k => k | exact markDirty_ok | exact id | exact rfl | exact List.length_map _
    | with_unfolding_all exact fun _ => ⟨rfl, rfl⟩

end Sys2Proof.Machine
end

