-- ==== Sys2Proof/Laws/QuietCalls.lean ====
section
/-! SUPPORT. Laws/QuietCalls.lean: the operations of the Beacon Controller, the Call Engine and the Reply Matcher are internal work
(Laws/Quiet). -/

namespace Sys2Proof.Machine

variable {a s : State}

theorem quiet_showContext (h : Quiet a s) (c : Nat) : Quiet a (showContext c s) := by
  unfold showContext
  dsimp only
  split
  · exact h
  · exact quiet_modSlot h _ _

theorem quiet_joinLatches (h : Quiet a s) (c : Nat) (zones : List Nat) : Quiet a (joinLatches c zones s) :=
  quiet_latches h _ (by simp)

theorem quiet_leaveLatches (h : Quiet a s) (c : Nat) : Quiet a (leaveLatches c s) :=
  quiet_latches h _ (by simp)

theorem markDirty_ok : ∀ d : Drop, d.ok → d.markDirty.ok := fun _ k => k

theorem quiet_recomputeLamps (h : Quiet a s) : Quiet a (recomputeLamps s) :=
  quiet_mapDrops h _ fun _ k => k

theorem quiet_readback (h : Quiet a s) (l : LineId) (address : Nat) (id : LampId) (judged lit : Bool) :
    Quiet a (readback l address id judged lit s) := by
  unfold readback
  dsimp only
  with_reducible repeat' first
    | exact h | assumption | apply quiet_raise | apply quiet_modDrop | apply quiet_submit
    | refine quiet_ite (fun _ => ?_) fun _ => ?_ | split | exact fun _ k => k | exact markDirty_ok

/-- A member becomes current, and the paged count is stepped with it (R31, R66). -/
theorem quiet_makeCurrent (h : Quiet a s) (c m : Nat) : Quiet a (makeCurrent c m s) := by
  unfold makeCurrent
  extract_lets b t
  split
  · exact h
  · rename_i live
    obtain ⟨hc, e⟩ := context_mem (c := c) (.inl (by simpa using live))
    refine quiet_handOver (h.trans ?_) _ _ _ _
    obtain ⟨g, r, p⟩ : ∃ g : Member → Member, t = s.modRoster (fun r => { r with members := r.members.modify m g })
        ∧ ∀ x, (g x).paged = x.paged + 1 - ((context s c).isCurrent m).toNat := by
      by_cases k : (context s c).isCurrent m = true
      · exact ⟨id, by simp [t, k, State.modRoster, List.modify_id], fun x => by simp [k]⟩
      · refine ⟨Member.change fun x => { x with paged := x.paged + 1 }, by simp [t, k, stepPaged, modMember], fun x => ?_⟩
        simp only [k, Bool.toNat_false, Nat.sub_zero]
        unfold Member.change
        split
        · rename_i q
          have := congrArg Member.paged q
          simp at this
        · rfl
    clear_value t
    subst r
    refine quiet_of_same (.refl s) rfl rfl rfl rfl rfl rfl (List.length_modify ..) rfl rfl rfl rfl rfl ?_
    refine callsOk_mark (c := c) (m := m) (f := Context.markCurrent m b) (g := g) rfl rfl rfl hc ?_ ?_ ?_ ?_
    · exact (alike_ensureContact m _).slot
    · intro x hx; rw [isCurrent_markCurrent, if_neg hx]
    · intro f
      have := (alike_ensureContact m _).free f
      rw [e] at live
      exact absurd this (by simpa [Context.live] using live)
    · intro x
      rw [isCurrent_markCurrent, if_pos rfl, p, e]
      rfl

/-- A member loses the current mark, and the paged count is lowered with it (R32, R66). -/
theorem quiet_loseMark (h : Quiet a s) (c m : Nat) : Quiet a (loseMark c m s) := by
  unfold loseMark
  split
  · rename_i k
    obtain ⟨hc, e⟩ := context_mem (c := c) (.inr ⟨m, k⟩)
    have u := fun x => isCurrent_modContact_set m (fun e => { e with current := false, remind := .stopped }) false
      (fun _ => ⟨rfl, rfl⟩) s.calls.contexts[c] x
    refine quiet_withdrawPages (h.trans ?_) _ _
    refine quiet_of_same (.refl s) rfl rfl rfl rfl rfl rfl (List.length_modify ..) rfl rfl rfl rfl rfl ?_
    refine fun o => callsOk_mark (c := c) (m := m) rfl rfl rfl hc rfl (fun x hx => ?_) (fun f => ?_) (fun x => ?_) o
    · rw [u, if_neg hx]
    · have := o.2.2.1 _ (List.getElem_mem hc) f
      exact isCurrent_eq_false.1 fun x => by
        rw [u]
        split
        · rfl
        · exact isCurrent_eq_false.2 this x
    · rw [u, if_pos rfl, ← e, k]
      unfold Member.change
      split
      · rename_i q
        have := congrArg Member.paged q
        simp at this ⊢
        omega
      · simp
  · exact h

theorem quiet_loseMarks (h : Quiet a s) (c : Nat) : Quiet a (loseMarks c s) := by
  unfold loseMarks
  with_reducible repeat' first
    | exact h | assumption | apply quiet_loseMark | refine quiet_foldl _ (fun s x h => ?_) _ ?_

theorem quiet_cancelMember (h : Quiet a s) (c m : Nat) : Quiet a (cancelMember c m s) := by
  unfold cancelMember
  with_reducible repeat' first
    | exact h | assumption | apply quiet_modContext | exact alike_keep fun _ => ⟨rfl, rfl, rfl⟩
    | exact alike_live fun _ => ⟨rfl, (fun c => CallState.noConfusion c), rfl⟩ | exact alike_modContact _ _ fun _ => ⟨rfl, rfl⟩ | apply quiet_sendCancel

theorem quiet_cancelOthers (h : Quiet a s) (c : Nat) (but : Option Nat) : Quiet a (cancelOthers c but s) := by
  unfold cancelOthers
  with_reducible repeat' first
    | exact h | assumption | apply quiet_cancelMember | refine quiet_foldl _ (fun s x h => ?_) _ ?_

theorem quiet_stopRung (h : Quiet a s) (c : Nat) : Quiet a (stopRung c s) :=
  quiet_modContext h _ _ (alike_keep fun _ => ⟨rfl, rfl, rfl⟩)

theorem quiet_startTurn (h : Quiet a s) (c m : Nat) : Quiet a (startTurn c m s) := by
  unfold startTurn
  dsimp only
  with_reducible repeat' first
    | exact h | assumption | apply quiet_modContext | exact alike_keep fun _ => ⟨rfl, rfl, rfl⟩
    | exact alike_live fun _ => ⟨rfl, (fun c => CallState.noConfusion c), rfl⟩ | exact alike_modContact _ _ fun _ => ⟨rfl, rfl⟩ | apply quiet_makeCurrent

theorem quiet_unservable (h : Quiet a s) (c : Nat) (r : Rung) : Quiet a (unservable c r s).1 := by
  unfold unservable
  dsimp only
  with_reducible repeat' first
    | exact h | assumption | apply quiet_submit

theorem quiet_enterRotate (h : Quiet a s) (c d : Nat) (r : Rung) : Quiet a (enterRotate c d r s).1 := by
  unfold enterRotate
  dsimp only
  with_reducible repeat' first
    | exact h | assumption | apply quiet_modContext | exact alike_keep fun _ => ⟨rfl, rfl, rfl⟩
    | exact alike_live fun _ => ⟨rfl, (fun c => CallState.noConfusion c), rfl⟩ | exact alike_modContact _ _ fun _ => ⟨rfl, rfl⟩ | apply quiet_startTurn | apply quiet_unservable | split

theorem quiet_enterAll (h : Quiet a s) (c : Nat) (r : Rung) : Quiet a (enterAll c r s).1 := by
  unfold enterAll
  dsimp only
  with_reducible repeat' first
    | exact h | assumption | apply quiet_modContext | exact alike_keep fun _ => ⟨rfl, rfl, rfl⟩
    | exact alike_live fun _ => ⟨rfl, (fun c => CallState.noConfusion c), rfl⟩ | exact alike_modContact _ _ fun _ => ⟨rfl, rfl⟩ | apply quiet_makeCurrent | apply quiet_unservable
    | refine quiet_foldl _ (fun s x h => ?_) _ ?_ | refine quiet_ite (fun _ => ?_) fun _ => ?_ | split

theorem quiet_enterMember (h : Quiet a s) (c : Nat) (r : Rung) : Quiet a (enterMember c r s).1 := by
  unfold enterMember
  with_reducible repeat' first
    | exact h | assumption | apply quiet_modContext | exact alike_keep fun _ => ⟨rfl, rfl, rfl⟩
    | exact alike_live fun _ => ⟨rfl, (fun c => CallState.noConfusion c), rfl⟩ | exact alike_modContact _ _ fun _ => ⟨rfl, rfl⟩ | apply quiet_makeCurrent | apply quiet_unservable
    | refine quiet_ite (fun _ => ?_) fun _ => ?_ | split

theorem quiet_enterBeacon (h : Quiet a s) (c : Nat) (r : Rung) (plant : Bool) : Quiet a (enterBeacon c r plant s).1 := by
  unfold enterBeacon
  dsimp only
  with_reducible repeat' first
    | exact h | assumption | apply quiet_modContext | exact alike_keep fun _ => ⟨rfl, rfl, rfl⟩
    | exact alike_live fun _ => ⟨rfl, (fun c => CallState.noConfusion c), rfl⟩ | exact alike_modContact _ _ fun _ => ⟨rfl, rfl⟩ | apply quiet_joinLatches | apply quiet_unservable
    | refine quiet_ite (fun _ => ?_) fun _ => ?_ | split

theorem quiet_actOnTarget (h : Quiet a s) (c d : Nat) (r : Rung) : Quiet a (actOnTarget c d r s).1 := by
  unfold actOnTarget
  with_reducible repeat' first
    | exact h | assumption | apply quiet_unservable | apply quiet_enterRotate | apply quiet_enterAll
    | apply quiet_enterMember | apply quiet_enterBeacon | refine quiet_ite (fun _ => ?_) fun _ => ?_ | split

theorem quiet_raiseEscalated (h : Quiet a s) (l : Ladder) (rung : Nat) : Quiet a (raiseEscalated l rung s) := by
  unfold raiseEscalated
  with_reducible repeat' first
    | exact h | assumption | apply quiet_raise | apply quiet_stopRung | refine quiet_ite (fun _ => ?_) fun _ => ?_

theorem quiet_enterRung (h : Quiet a s) (c rung : Nat) : Quiet a (enterRung c rung s).1 := by
  unfold enterRung
  dsimp only
  with_reducible repeat' first
    | exact h | assumption | apply quiet_modContext | exact alike_keep fun _ => ⟨rfl, rfl, rfl⟩
    | exact alike_live fun _ => ⟨rfl, (fun c => CallState.noConfusion c), rfl⟩ | exact alike_modContact _ _ fun _ => ⟨rfl, rfl⟩ | apply quiet_submit | apply quiet_showContext
    | apply quiet_actOnTarget | apply quiet_raiseEscalated | refine quiet_ite (fun _ => ?_) fun _ => ?_ | split

theorem quiet_endTurn (h : Quiet a s) (c : Nat) : Quiet a (endTurn c s).1 := by
  unfold endTurn
  dsimp only
  with_reducible repeat' first
    | exact h | assumption | apply quiet_modContext | exact alike_keep fun _ => ⟨rfl, rfl, rfl⟩
    | exact alike_live fun _ => ⟨rfl, (fun c => CallState.noConfusion c), rfl⟩ | exact alike_modContact _ _ fun _ => ⟨rfl, rfl⟩ | apply quiet_startTurn | refine quiet_ite (fun _ => ?_) fun _ => ?_
    | split

theorem quiet_lostMark (h : Quiet a s) (c m : Nat) : Quiet a (lostMark c m s).1 := by
  unfold lostMark
  dsimp only
  with_reducible repeat' first
    | exact h | assumption | apply quiet_endTurn | refine quiet_ite (fun _ => ?_) fun _ => ?_ | split

theorem quiet_enterHeld (h : Quiet a s) (c : Nat) : Quiet a (enterHeld c s) := by
  unfold enterHeld
  dsimp only
  with_reducible repeat' first
    | exact h | assumption | apply quiet_modContext | exact alike_keep fun _ => ⟨rfl, rfl, rfl⟩
    | exact alike_live fun _ => ⟨rfl, (fun c => CallState.noConfusion c), rfl⟩ | exact alike_modContact _ _ fun _ => ⟨rfl, rfl⟩ | apply quiet_raise | apply quiet_submit | apply quiet_withdrawTag
    | apply quiet_showContext

theorem quiet_endRung (h : Quiet a s) (c : Nat) : Quiet a (endRung c s).1 := by
  unfold endRung
  dsimp only
  with_reducible repeat' first
    | exact h | assumption | apply quiet_raise | apply quiet_loseMarks | apply quiet_stopRung | apply quiet_enterRung
    | apply quiet_enterHeld | refine quiet_ite (fun _ => ?_) fun _ => ?_ | split

theorem quiet_pastLast (h : Quiet a s) (c : Nat) : Quiet a (pastLast c s).1 := by
  unfold pastLast
  dsimp only
  split
  · exact quiet_modContext h _ _ fun _ => alike_mapContacts _ _ _ rfl rfl (fun q => CallState.noConfusion q) fun _ => ⟨rfl, rfl⟩
  · exact h

theorem quiet_moveOn (h : Quiet a s) (c rung : Nat) : Quiet a (moveOn c rung s).1 := by
  unfold moveOn
  with_reducible repeat' first
    | exact h | assumption | apply quiet_enterRung | apply quiet_pastLast | refine quiet_ite (fun _ => ?_) fun _ => ?_
    | split

/-- A context of a changed list. -/
theorem context_modContext (c : Nat) (f : Context → Context) (s : State) :
    context (modContext c f s) c = if c < s.calls.contexts.length then f (context s c) else context s c := by
  simp only [context, modContext, State.modCalls_calls, List.getD_eq_getElem?_getD, List.getElem?_modify, if_true]
  split
  · rename_i h; simp [List.getElem?_eq_getElem h]
  · rename_i h; simp [List.getElem?_eq_none (not_lt.1 h)]

/-- The marks of a context after one member's loss of it. -/
theorem isCurrent_loseMark (c m : Nat) (s : State) (x : Nat) :
    (context (loseMark c m s) c).isCurrent x = if x = m then false else (context s c).isCurrent x := by
  unfold loseMark
  split
  · rename_i k
    obtain ⟨hc, -⟩ := context_mem (c := c) (.inr ⟨m, k⟩)
    rw [(mail_withdrawPages (.refl _) _ _).context]
    show (context (modContext c _ s) c).isCurrent x = _
    rw [context_modContext, if_pos hc, isCurrent_modContact_set m (fun e => { e with current := false, remind := .stopped }) false
      (fun _ => ⟨rfl, rfl⟩)]
    simp
  · rename_i k
    split
    · rename_i e; rw [e]; simpa using k
    · rfl

theorem isCurrent_foldl_loseMark (c : Nat) (l : List Nat) (s : State) (x : Nat) :
    (context (l.foldl (fun s m => loseMark c m s) s) c).isCurrent x = (!l.contains x && (context s c).isCurrent x) := by
  induction l generalizing s with
  | nil => simp
  | cons m l ih =>
    rw [List.foldl_cons, ih, isCurrent_loseMark, List.contains_cons]
    by_cases e : x = m
    · simp [e]
    · simp [e, beq_false_of_ne e]

/-- Nobody is current in a context whose members have all lost the mark. -/
theorem loseMarks_nobody (c : Nat) (s : State) : ∀ e ∈ (context (loseMarks c s) c).contacted, e.current = false := by
  rw [← isCurrent_eq_false]
  intro m
  rw [loseMarks, isCurrent_foldl_loseMark]
  by_cases k : (context s c).isCurrent m = true
  · have : (context s c).currentMembers.contains m = true := by
      obtain ⟨e, he, g⟩ := List.any_eq_true.1 k
      simp only [Bool.and_eq_true, beq_iff_eq] at g
      simp only [Context.currentMembers, List.contains_eq_mem, decide_eq_true_eq]
      exact List.mem_map.2 ⟨e, List.mem_filter.2 ⟨he, g.2⟩, g.1⟩
    rw [this]
    rfl
  · simp [Bool.not_eq_true _ ▸ k]

theorem context_of_calls {s t : State} (h : t.calls = s.calls) (c : Nat) : context t c = context s c := by
  unfold context; rw [h]

/-- A context without a current mark is freed. -/
theorem quiet_free (h : Quiet a s) (c : Nat) (empty : ∀ e ∈ (context s c).contacted, e.current = false) :
    Quiet a (modContext c Context.freed s) :=
  quiet_of_same h rfl rfl rfl rfl rfl rfl (List.length_modify ..) rfl rfl rfl rfl rfl
    (callsOk_open (c := c) rfl rfl rfl empty (fun _ => rfl) fun _ => .inl rfl)

theorem quiet_finishCall (h : Quiet a s) (c : Nat) (st : SlotState) (reason : Reason) :
    Quiet a (finishCall c st reason s) := by
  unfold finishCall
  split
  · exact h
  · extract_lets s1 s2 s3 k s4 s5 s6 src s7 s8 s9
    have h1 : Quiet a s1 := quiet_withdrawTag (quiet_modContext h _ _ fun x =>
      alike_mapContacts x x.stopWindows (fun e => { e with remind := .stopped }) rfl rfl id fun _ => ⟨rfl, rfl⟩) _
    clear_value s1
    have h2 : Quiet a s2 := by
      refine quiet_foldl _ (fun t m k => ?_) _ h1
      exact quiet_sendEndCancel (quiet_modContext k c _ (alike_modContact m (fun e => { e with cancelled := true }) fun _ => ⟨rfl, rfl⟩)) _ _
    clear_value s2
    have h3 : Quiet a s3 := quiet_loseMarks h2 _
    have h4 : Quiet a s4 := by
      unfold s4; split
      · exact h3
      · exact quiet_release h3 _
    have h6 : Quiet a s6 := by
      unfold s6; split
      · exact quiet_leaveLatches h4 _
      · exact quiet_modSlot (quiet_leaveLatches h4 _) _ _
    have h8 : Quiet a s8 := quiet_raise (quiet_submit h6 _) _
    have h9 : Quiet a s9 := quiet_ite (fun _ => quiet_raise h8 _) fun _ => h8
    refine quiet_free h9 c ?_
    have e : s9.calls = s3.calls := by
      have e4 : s4.calls = s3.calls := by unfold s4; split <;> rfl
      have e6 : s6.calls = s4.calls := by unfold s6; split <;> rfl
      have e7 : s7.calls = s6.calls := (mail_submit (.refl _) _).calls
      have e9 : s9.calls = s7.calls := by unfold s9; split <;> rfl
      rw [e9, e7, e6, e4]
    rw [context_of_calls e]
    exact loseMarks_nobody c s2

theorem quiet_endCall (h : Quiet a s) (c : Nat) (st : SlotState) (reason : Reason) : Quiet a (endCall c st reason s).1 := by
  unfold endCall
  with_reducible repeat' first
    | exact h | assumption | apply quiet_finishCall | refine quiet_ite (fun _ => ?_) fun _ => ?_ | split

theorem quiet_markReopened (h : Quiet a s) (c m : Nat) (cause : ReopenCause) : Quiet a (markReopened c m cause s) := by
  unfold markReopened
  with_reducible repeat' first
    | exact h | assumption | apply quiet_modContext | exact alike_keep fun _ => ⟨rfl, rfl, rfl⟩
    | exact alike_live fun _ => ⟨rfl, (fun c => CallState.noConfusion c), rfl⟩ | exact alike_modContact _ _ fun _ => ⟨rfl, rfl⟩ | apply quiet_cancelMember | split

theorem quiet_reopen (h : Quiet a s) (c : Nat) (cause : ReopenCause) : Quiet a (reopen c cause s).1 := by
  unfold reopen
  dsimp only
  with_reducible repeat' first
    | exact h | assumption | apply quiet_modContext | exact alike_keep fun _ => ⟨rfl, rfl, rfl⟩
    | exact alike_live fun _ => ⟨rfl, (fun c => CallState.noConfusion c), rfl⟩ | exact alike_modContact _ _ fun _ => ⟨rfl, rfl⟩ | apply quiet_submit | apply quiet_release | apply quiet_withdrawKey
    | apply quiet_showContext | apply quiet_moveOn | apply quiet_markReopened
    | refine quiet_ite (fun _ => ?_) fun _ => ?_ | split

/-- A list of slots that holds no more than another stays apart from what that one is apart from. -/
theorem nodup_append_of_subset {x l l' : List Nat} (n : l.Nodup → l'.Nodup) (m : l' ⊆ l) (h : (x ++ l).Nodup) : (x ++ l').Nodup :=
  List.nodup_append.2 ⟨(List.nodup_append.1 h).1, n (List.nodup_append.1 h).2.1,
    fun a ha b hb => (List.nodup_append.1 h).2.2 a ha b (m hb)⟩

theorem quiet_leaveBacklog (h : Quiet a s) (slot : Nat) : Quiet a (leaveBacklog slot s) :=
  have sub := List.Sublist.map Waiting.slot (List.filter_sublist (p := fun w : Waiting => w.slot != slot) (l := s.calls.backlog))
  quiet_modCalls h _ (alike_refl_list _) fun _ => nodup_append_of_subset (fun n => n.sublist sub) sub.subset

/-- A FREE context takes a call whose slot no other call has. -/
theorem quiet_openCall (h : Quiet a s) (c : Nat) (slot : Option Nat) (w : Waiting) (free : (context s c).live = false)
    (k : callsOk a → ∀ i, slot = some i → i ∉ s.calls.contexts.filterMap (·.slot) ++ s.calls.backlog.map (·.slot)) :
    Quiet a (openCall c slot w s).1 := by
  have o : Quiet a (modContext c (Context.admitted c slot w s.tickCount) s) := by
    refine quiet_of_bounds h rfl rfl rfl rfl rfl rfl (List.length_modify ..) rfl rfl rfl rfl rfl fun ok => ?_
    refine callsOk_open (c := c) rfl rfl rfl ?_ (fun _ => rfl) (fun _ => ?_) (h.calls ok)
    · have f : (context s c).state = .free := by simpa [Context.live] using free
      by_cases hc : c < s.calls.contexts.length
      · have e : context s c = s.calls.contexts[c] := by simp [context, List.getD_eq_getElem?_getD, hc]
        rw [e] at f ⊢
        exact (h.calls ok).2.2.1 _ (List.getElem_mem hc) f
      · have e : context s c = .empty := by simp [context, List.getD_eq_getElem?_getD, List.getElem?_eq_none (not_lt.1 hc)]
        simp [e, Context.empty]
    · cases slot with
      | none => exact .inl rfl
      | some i => exact .inr ⟨i, rfl, k ok i rfl⟩
  unfold openCall
  dsimp only
  with_reducible repeat' first
    | exact o | assumption | apply quiet_modSlot | apply quiet_submit | apply quiet_showContext | split

theorem quiet_substituteLadder (h : Quiet a s) (w : Waiting) : Quiet a (substituteLadder w s).2 := by
  unfold substituteLadder
  split
  · exact h
  · exact quiet_submit h _

/-- The lowest-numbered FREE context is FREE. -/
theorem freeContext_free {c : Nat} (h : freeContext s = some c) : (context s c).live = false := by
  simpa using List.find?_some h

theorem substituteLadder_calls (w : Waiting) (s : State) : (substituteLadder w s).2.calls = s.calls := by
  unfold substituteLadder
  split
  · rfl
  · exact (mail_submit (.refl _) _).calls

theorem substituteLadder_slot (w : Waiting) (s : State) : (substituteLadder w s).1.slot = w.slot := by
  unfold substituteLadder
  split <;> rfl

theorem quiet_admitHeads (h : Quiet a s) : Quiet a (admitHeads s).1 := by
  unfold admitHeads
  split
  · rename_i w rest c _ b f
    refine h.trans ?_
    have sub : (rest.map (·.slot)).Sublist (s.calls.backlog.map (·.slot)) := by rw [b]; exact List.sublist_cons_self _ _
    have q : Quiet s (s.modCalls fun k => { k with backlog := rest }) :=
      quiet_modCalls (.refl s) _ (alike_refl_list _) fun _ => nodup_append_of_subset (fun n => n.sublist sub) sub.subset
    refine quiet_openCall (quiet_substituteLadder q w) c (some w.slot) _ ?_ fun ok i e => ?_
    · rw [context_of_calls (substituteLadder_calls _ _)]
      exact freeContext_free f
    · cases e
      rw [substituteLadder_calls]
      have := ok.1
      unfold slotsOk at this
      rw [b, List.map_cons] at this
      exact (List.nodup_middle.1 this |> List.nodup_cons.1).1
  · exact h

theorem quiet_endWaiting (h : Quiet a s) (slot : Nat) (st : SlotState) (reason : Reason) :
    Quiet a (endWaiting slot st reason s) := by
  unfold endWaiting
  dsimp only
  with_reducible repeat' first
    | exact h | assumption | apply quiet_modSlot | apply quiet_raise | apply quiet_submit | apply quiet_leaveBacklog
    | split

theorem quiet_endSlotCall (h : Quiet a s) (slot : Nat) (st : SlotState) (reason : Reason) :
    Quiet a (endSlotCall slot st reason s).1 := by
  unfold endSlotCall
  with_reducible repeat' first
    | exact h | assumption | apply quiet_endCall | apply quiet_endWaiting | split

theorem quiet_rejectPost (h : Quiet a s) (w : Waiting) (reason : Reason) : Quiet a (rejectPost w reason s) := by
  unfold rejectPost
  dsimp only
  with_reducible repeat' first
    | exact h | assumption | apply quiet_modSlot | apply quiet_raise | apply quiet_submit

theorem placeWaiting_perm (w : Waiting) (l : List Waiting) : (placeWaiting w l).Perm (w :: l) := by
  induction l with
  | nil => exact .refl _
  | cons x l ih =>
    unfold placeWaiting
    split
    · exact .refl _
    · exact (ih.cons x).trans (List.Perm.swap _ _ _)

/-- No context and no backlog entry is the slot's. -/
theorem slotTaken_false {slot : Nat} (h : slotTaken s slot = false) :
    slot ∉ s.calls.contexts.filterMap (·.slot) ++ s.calls.backlog.map (·.slot) := by
  simp only [slotTaken, isWaiting, Bool.or_eq_false_iff, List.any_eq_false, beq_iff_eq] at h
  simp only [List.mem_append, List.mem_filterMap, List.mem_map, not_or, not_exists, not_and]
  exact ⟨h.1, h.2⟩

theorem quiet_backlogPost (h : Quiet a s) (w : Waiting)
    (k : w.slot ∉ s.calls.contexts.filterMap (·.slot) ++ s.calls.backlog.map (·.slot)) : Quiet a (backlogPost w s) := by
  unfold backlogPost
  extract_lets t u
  refine quiet_submit (quiet_of_same (t := u) (s := t) (quiet_modSlot h w.slot _) rfl rfl rfl rfl rfl rfl rfl rfl rfl rfl rfl rfl fun ok => ?_) _
  refine ⟨?_, ok.2⟩
  have p := ((placeWaiting_perm w s.calls.backlog).map (·.slot)).append_left (s.calls.contexts.filterMap (·.slot))
  refine (p.trans List.perm_middle).nodup_iff.2 (List.nodup_cons.2 ⟨k, ok.1⟩)

theorem quiet_takePost (h : Quiet a s) (slot : Nat) (host : HostPart) : Quiet a (takePost slot host s).1 := by
  unfold takePost
  split
  · exact h
  · rename_i taken
    have fresh := slotTaken_false (Bool.not_eq_true _ ▸ taken)
    extract_lets w t p
    have ht : Quiet a t := quiet_modArea h _
    have hp : Quiet a p.2 := quiet_substituteLadder ht w
    have e : p.2.calls = s.calls := substituteLadder_calls w t
    have ws : p.1.slot = slot := substituteLadder_slot w t
    split
    · exact quiet_rejectPost ht _ _
    · split
      · rename_i f
        exact quiet_openCall hp _ _ _ (freeContext_free f) fun _ i q => by cases q; rw [e]; exact fresh
      · exact quiet_backlogPost hp _ (by rw [e, ws]; exact fresh)

theorem quiet_dropBreakInOf (h : Quiet a s) (c m : Nat) : Quiet a (dropBreakInOf c m s) := by
  unfold dropBreakInOf
  dsimp only
  with_reducible repeat' first
    | exact h | assumption | apply quiet_modContext | exact alike_keep fun _ => ⟨rfl, rfl, rfl⟩
    | exact alike_live fun _ => ⟨rfl, (fun c => CallState.noConfusion c), rfl⟩ | exact alike_modContact _ _ fun _ => ⟨rfl, rfl⟩ | apply quiet_loseMark | apply quiet_cancelMember
    | refine quiet_ite (fun _ => ?_) fun _ => ?_

theorem quiet_dropBreakIn (h : Quiet a s) (m : Nat) : Quiet a (dropBreakIn m s).1 :=
  quiet_foldl _ (fun _ c k => quiet_dropBreakInOf k c m) _ h

theorem quiet_setResult (h : Quiet a s) (slot : Nat) (r : RequestResult) : Quiet a (setResult slot r s) := by
  unfold setResult
  with_reducible repeat' first
    | exact h | assumption | apply quiet_modSlot

theorem quiet_requestWithdraw (h : Quiet a s) (slot : Nat) : Quiet a (requestWithdraw slot s).1 := by
  unfold requestWithdraw
  with_reducible repeat' first
    | exact h | assumption | apply quiet_endSlotCall | apply quiet_setResult
    | refine quiet_ite (fun _ => ?_) fun _ => ?_ | split

theorem quiet_requestClose (h : Quiet a s) (slot : Nat) : Quiet a (requestClose slot s).1 := by
  unfold requestClose
  with_reducible repeat' first
    | exact h | assumption | apply quiet_endCall | apply quiet_setResult | split

theorem quiet_requestRelease (h : Quiet a s) (slot : Nat) : Quiet a (requestRelease slot s).1 := by
  unfold requestRelease
  dsimp only
  with_reducible repeat' first
    | exact h | assumption | apply quiet_modContext | exact alike_keep fun _ => ⟨rfl, rfl, rfl⟩
    | exact alike_live fun _ => ⟨rfl, (fun c => CallState.noConfusion c), rfl⟩ | exact alike_modContact _ _ fun _ => ⟨rfl, rfl⟩ | apply quiet_submit | apply quiet_moveOn | apply quiet_setResult
    | split

theorem quiet_requestAdvance (h : Quiet a s) (slot : Nat) : Quiet a (requestAdvance slot s).1 := by
  unfold requestAdvance
  with_reducible repeat' first
    | exact h | assumption | apply quiet_endRung | apply quiet_setResult | split

theorem quiet_raiseWaiting (h : Quiet a s) (slot value : Nat) : Quiet a (raiseWaiting slot value s) := by
  unfold raiseWaiting
  split
  · exact h
  · rename_i w f
    have ws : w.slot = slot := by simpa using List.find?_some f
    have mw := List.mem_of_find?_eq_some f
    have p := (placeWaiting_perm { w with severity := value } (s.calls.backlog.filter (·.slot != slot))).map (·.slot)
    have sub := List.Sublist.map Waiting.slot (List.filter_sublist (p := fun w : Waiting => w.slot != slot) (l := s.calls.backlog))
    refine quiet_modCalls (s := s) h (fun k => { k with backlog := placeWaiting { w with severity := value } (k.backlog.filter (·.slot != slot)) })
      (alike_refl_list _) fun _ => nodup_append_of_subset (fun n => ?_) fun x m => ?_
    · refine p.nodup_iff.2 (List.nodup_cons.2 ⟨fun m => ?_, n.sublist sub⟩)
      obtain ⟨y, hy, e⟩ := List.mem_map.1 m
      have := (List.mem_filter.1 hy).2
      simp [e, ws] at this
    · rcases List.mem_cons.1 (p.subset m) with e | e
      · exact e ▸ List.mem_map.2 ⟨w, mw, rfl⟩
      · exact sub.subset e

theorem quiet_requestRaise (h : Quiet a s) (slot value : Nat) : Quiet a (requestRaise slot value s).1 := by
  unfold requestRaise
  dsimp only
  with_reducible repeat' first
    | exact h | assumption | apply quiet_modContext | exact alike_keep fun _ => ⟨rfl, rfl, rfl⟩
    | exact alike_live fun _ => ⟨rfl, (fun c => CallState.noConfusion c), rfl⟩ | exact alike_modContact _ _ fun _ => ⟨rfl, rfl⟩ | apply quiet_dropBreakIn | apply quiet_setResult
    | apply quiet_raiseWaiting | refine quiet_ite (fun _ => ?_) fun _ => ?_ | split

theorem quiet_settleRequest (h : Quiet a s) (slot code value : Nat) : Quiet a (settleRequest slot code value s).1 := by
  unfold settleRequest
  with_reducible repeat' first
    | exact h | assumption | apply quiet_setResult | apply quiet_requestWithdraw | apply quiet_requestClose
    | apply quiet_requestRelease | apply quiet_requestAdvance | apply quiet_requestRaise | split

theorem quiet_takeHostPart (h : Quiet a s) (slot : Nat) (h : HostPart) : Quiet a (takeHostPart slot h s).1 := by
  unfold takeHostPart
  dsimp only
  with_reducible repeat' first
    | exact h | assumption | apply quiet_modSlot | apply quiet_endSlotCall | apply quiet_takePost
    | apply quiet_settleRequest | refine quiet_ite (fun _ => ?_) fun _ => ?_ | split

theorem quiet_openFallback (h : Quiet a s) : Quiet a (openFallback s).1 := by
  unfold openFallback
  split
  · exact h
  · rename_i f
    exact quiet_openCall h _ _ _ (Bool.not_eq_true _ ▸ f) fun _ i e => nomatch e

theorem quiet_expireDeadline (h : Quiet a s) (c : Nat) : Quiet a (expireDeadline c s).1 := by
  unfold expireDeadline
  with_reducible repeat' first
    | exact h | assumption | apply quiet_modContext | exact alike_keep fun _ => ⟨rfl, rfl, rfl⟩
    | exact alike_live fun _ => ⟨rfl, (fun c => CallState.noConfusion c), rfl⟩ | exact alike_modContact _ _ fun _ => ⟨rfl, rfl⟩ | apply quiet_endRung | refine quiet_ite (fun _ => ?_) fun _ => ?_
    | split

theorem quiet_expireTurn (h : Quiet a s) (c : Nat) : Quiet a (expireTurn c s).1 := by
  unfold expireTurn
  with_reducible repeat' first
    | exact h | assumption | apply quiet_modContext | exact alike_keep fun _ => ⟨rfl, rfl, rfl⟩
    | exact alike_live fun _ => ⟨rfl, (fun c => CallState.noConfusion c), rfl⟩ | exact alike_modContact _ _ fun _ => ⟨rfl, rfl⟩ | apply quiet_endTurn | refine quiet_ite (fun _ => ?_) fun _ => ?_
    | split

theorem quiet_expireFirstArrival (h : Quiet a s) (c m : Nat) : Quiet a (expireFirstArrival c m s) := by
  unfold expireFirstArrival
  dsimp only
  with_reducible repeat' first
    | exact h | assumption | apply quiet_modContext | exact alike_keep fun _ => ⟨rfl, rfl, rfl⟩
    | exact alike_live fun _ => ⟨rfl, (fun c => CallState.noConfusion c), rfl⟩ | exact alike_modContact _ _ fun _ => ⟨rfl, rfl⟩ | apply quiet_raise | apply quiet_submit | apply quiet_handOver
    | refine quiet_ite (fun _ => ?_) fun _ => ?_

theorem quiet_expireArrival (h : Quiet a s) (c : Nat) : Quiet a (expireArrival c s).1 := by
  unfold expireArrival
  dsimp only
  with_reducible repeat' first
    | exact h | assumption | apply quiet_modContext | exact alike_keep fun _ => ⟨rfl, rfl, rfl⟩
    | exact alike_live fun _ => ⟨rfl, (fun c => CallState.noConfusion c), rfl⟩ | exact alike_modContact _ _ fun _ => ⟨rfl, rfl⟩ | apply quiet_reopen | apply quiet_expireFirstArrival
    | refine quiet_ite (fun _ => ?_) fun _ => ?_ | split

theorem quiet_offerDeferredRemind (h : Quiet a s) (tag m : Nat) : Quiet a (offerDeferredRemind tag m s).1 := by
  unfold offerDeferredRemind
  with_reducible repeat' first
    | exact h | assumption | apply quiet_offerAgain | refine quiet_ite (fun _ => ?_) fun _ => ?_ | split

theorem quiet_expireRemind (h : Quiet a s) (c m : Nat) : Quiet a (expireRemind c m s).1 := by
  unfold expireRemind
  dsimp only
  with_reducible repeat' first
    | exact h | assumption | apply quiet_modContext | exact alike_keep fun _ => ⟨rfl, rfl, rfl⟩
    | exact alike_live fun _ => ⟨rfl, (fun c => CallState.noConfusion c), rfl⟩ | exact alike_modContact _ _ fun _ => ⟨rfl, rfl⟩ | apply quiet_handOver | apply quiet_offerDeferredRemind
    | refine quiet_ite (fun _ => ?_) fun _ => ?_ | split

theorem quiet_reportUnreached (h : Quiet a s) (key : RecordKey) : Quiet a (reportUnreached key s).1 := by
  unfold reportUnreached
  dsimp only
  with_reducible repeat' first
    | exact h | assumption | apply quiet_modContext | exact alike_keep fun _ => ⟨rfl, rfl, rfl⟩
    | exact alike_live fun _ => ⟨rfl, (fun c => CallState.noConfusion c), rfl⟩ | exact alike_modContact _ _ fun _ => ⟨rfl, rfl⟩ | apply quiet_loseMark | apply quiet_lostMark
    | refine quiet_ite (fun _ => ?_) fun _ => ?_ | split

theorem quiet_reportReceipt (h : Quiet a s) (key : RecordKey) : Quiet a (reportReceipt key s) := by
  unfold reportReceipt
  dsimp only
  with_reducible repeat' first
    | exact h | assumption | apply quiet_modContext | exact alike_keep fun _ => ⟨rfl, rfl, rfl⟩
    | exact alike_live fun _ => ⟨rfl, (fun c => CallState.noConfusion c), rfl⟩ | exact alike_modContact _ _ fun _ => ⟨rfl, rfl⟩ | refine quiet_ite (fun _ => ?_) fun _ => ?_ | split

theorem quiet_mapWindows (h : Quiet a s) (f : Window → Window) : Quiet a (mapWindows f s) :=
  quiet_modDispatcher (quiet_modCalls h _ (forall₂_map (fun k => alike_mapContacts k (k.mapWindows f) (fun e => { e with remind := f e.remind }) rfl rfl id fun _ => ⟨rfl, rfl⟩) _) fun _ => id)
    _ fun o => mapRecords_ok o _ fun _ => ⟨rfl, rfl⟩

theorem quiet_standDown (h : Quiet a s) (tag m : Nat) (report : ReportKind) (cause : StandCause) :
    Quiet a (standDown tag m report cause s) := by
  unfold standDown
  dsimp only
  with_reducible repeat' first
    | exact h | assumption | apply quiet_submit | apply quiet_sendControl

theorem quiet_takeAccept (h : Quiet a s) (c m : Nat) : Quiet a (takeAccept c m s) := by
  unfold takeAccept
  dsimp only
  with_reducible repeat' first
    | exact h | assumption | apply quiet_modContext
    | exact fun x => (alike_ensureContact m x).trans ⟨rfl, fun e => CallState.noConfusion e, fun _ => rfl⟩ | exact alike_keep fun _ => ⟨rfl, rfl, rfl⟩
    | exact alike_live fun _ => ⟨rfl, (fun c => CallState.noConfusion c), rfl⟩ | exact alike_modContact _ _ fun _ => ⟨rfl, rfl⟩ | apply quiet_submit | apply quiet_engage
    | apply quiet_moveRotationPointers | apply quiet_sendConfirm | apply quiet_showContext | apply quiet_leaveLatches
    | apply quiet_loseMarks | apply quiet_cancelOthers | apply quiet_stopRung

theorem quiet_acceptElsewhere (h : Quiet a s) (c m : Nat) (previous : Option Nat) :
    Quiet a (acceptElsewhere c m previous s).1 := by
  unfold acceptElsewhere
  dsimp only
  with_reducible repeat' first
    | exact h | assumption | apply quiet_loseMark | apply quiet_cancelMember | apply quiet_lostMark
    | refine quiet_foldl _ (fun s x h => ?_) _ ?_

theorem quiet_breakInTaken (h : Quiet a s) (c previous : Nat) : Quiet a (breakInTaken c previous s).1 := by
  unfold breakInTaken
  dsimp only
  with_reducible repeat' first
    | exact h | assumption | apply quiet_submit

theorem quiet_answerAccept (h : Quiet a s) (c m : Nat) : Quiet a (answerAccept c m s).1 := by
  unfold answerAccept
  dsimp only
  with_reducible repeat' first
    | exact h | assumption | apply quiet_sendConfirm | apply quiet_standDown | apply quiet_takeAccept
    | apply quiet_acceptElsewhere | split

theorem quiet_goOnSite (h : Quiet a s) (c : Nat) (site : Site) (who : Option Nat) : Quiet a (goOnSite c site who s) := by
  unfold goOnSite
  dsimp only
  with_reducible repeat' first
    | exact h | assumption | apply quiet_modContext | exact alike_keep fun _ => ⟨rfl, rfl, rfl⟩
    | exact alike_live fun _ => ⟨rfl, (fun c => CallState.noConfusion c), rfl⟩ | exact alike_modContact _ _ fun _ => ⟨rfl, rfl⟩ | apply quiet_submit | apply quiet_withdrawKey
    | apply quiet_showContext | split

theorem quiet_answerArrived (h : Quiet a s) (c m : Nat) : Quiet a (answerArrived c m s).1 := by
  unfold answerArrived
  dsimp only
  with_reducible repeat' first
    | exact h | assumption | apply quiet_sendConfirm | apply quiet_standDown | apply quiet_takeAccept
    | apply quiet_acceptElsewhere | apply quiet_goOnSite | refine quiet_ite (fun _ => ?_) fun _ => ?_ | split

theorem quiet_answerClear (h : Quiet a s) (c m : Nat) : Quiet a (answerClear c m s).1 := by
  unfold answerClear
  dsimp only
  with_reducible repeat' first
    | exact h | assumption | apply quiet_modContext | exact alike_keep fun _ => ⟨rfl, rfl, rfl⟩
    | exact alike_live fun _ => ⟨rfl, (fun c => CallState.noConfusion c), rfl⟩ | exact alike_modContact _ _ fun _ => ⟨rfl, rfl⟩ | apply quiet_showContext | apply quiet_endCall
    | apply quiet_standDown | refine quiet_ite (fun _ => ?_) fun _ => ?_ | split

theorem quiet_submitDeclined (h : Quiet a s) (c m : Nat) : Quiet a (submitDeclined c m s) := by
  unfold submitDeclined
  dsimp only
  with_reducible repeat' first
    | exact h | assumption | apply quiet_submit

theorem quiet_answerDecline (h : Quiet a s) (c m : Nat) : Quiet a (answerDecline c m s).1 := by
  unfold answerDecline
  dsimp only
  with_reducible repeat' first
    | exact h | assumption | apply quiet_modContext | exact alike_keep fun _ => ⟨rfl, rfl, rfl⟩
    | exact alike_live fun _ => ⟨rfl, (fun c => CallState.noConfusion c), rfl⟩ | exact alike_modContact _ _ fun _ => ⟨rfl, rfl⟩ | apply quiet_loseMark | apply quiet_lostMark | apply quiet_reopen
    | apply quiet_submitDeclined | refine quiet_ite (fun _ => ?_) fun _ => ?_ | split

theorem quiet_answerReceipt (h : Quiet a s) (l : LineId) (address tag m : Nat) :
    Quiet a (answerReceipt l address tag m s) := by
  unfold answerReceipt
  with_reducible repeat' first
    | exact h | assumption | apply quiet_completeRecord | apply quiet_reportReceipt
    | refine quiet_foldl _ (fun s x h => ?_) _ ?_

theorem quiet_unknownPager (h : Quiet a s) (l : LineId) (address pager : Nat) (kind : ReportKind) :
    Quiet a (unknownPager l address pager kind s) := by
  unfold unknownPager
  dsimp only
  with_reducible repeat' first
    | exact h | assumption | apply quiet_submit

theorem quiet_matchTagged (h : Quiet a s) (l : LineId) (address tag m : Nat) (kind : ReportKind) :
    Quiet a (matchTagged l address tag m kind s).1 := by
  unfold matchTagged
  dsimp only
  with_reducible repeat' first
    | exact h | assumption | apply quiet_standDown | apply quiet_answerAccept | apply quiet_answerArrived
    | apply quiet_answerClear | apply quiet_answerDecline | apply quiet_answerReceipt
    | refine quiet_ite (fun _ => ?_) fun _ => ?_ | split

theorem quiet_matchReport (h : Quiet a s) (l : LineId) (address : Nat) (data : List Byte) :
    Quiet a (matchReport l address data s).1 := by
  unfold matchReport
  dsimp only
  with_reducible repeat' first
    | exact h | assumption | apply quiet_heard | apply quiet_unknownPager | apply quiet_matchTagged | split

theorem quiet_pressAttend (h : Quiet a s) (l : LineId) (address z : Nat) : Quiet a (pressAttend l address z s).1 := by
  unfold pressAttend
  dsimp only
  with_reducible repeat' first
    | exact h | assumption | apply quiet_leaveLatches | apply quiet_loseMarks | apply quiet_cancelOthers
    | apply quiet_stopRung | apply quiet_goOnSite | refine quiet_ite (fun _ => ?_) fun _ => ?_ | split

theorem quiet_pressClear (h : Quiet a s) (l : LineId) (address : Nat) : Quiet a (pressClear l address s).1 := by
  unfold pressClear
  with_reducible repeat' first
    | exact h | assumption | apply quiet_endCall | split

theorem quiet_matchPress (h : Quiet a s) (l : LineId) (address : Nat) (data : List Byte) :
    Quiet a (matchPress l address data s).1 := by
  unfold matchPress
  with_reducible repeat' first
    | exact h | assumption | apply quiet_pressAttend | apply quiet_pressClear
    | refine quiet_ite (fun _ => ?_) fun _ => ?_ | split

end Sys2Proof.Machine
end

