-- ==== Sys2Proof/Laws/QuietEvents.lean ====
section
/-! SUPPORT. Laws/QuietEvents.lean: the operations of the Line Controllers, the reload and the Area Controller are internal work
(Laws/Quiet), and so is every task, every run of tasks and every event (quiet_finish). -/

namespace Sys2Proof.Machine

variable {a s : State}

theorem enter_ok (new : DropState) (cause : DropCause) (d : Drop) (h : d.ok) : (d.enter new cause).ok := by
  unfold Drop.enter Drop.markDirty Drop.ok
  dsimp only
  split
  · exact ⟨queueOk_nil, Nat.zero_le _⟩
  · exact h

theorem quiet_setDropState (h : Quiet a s) (l : LineId) (address : Nat) (new : DropState) (cause : DropCause) :
    Quiet a (setDropState l address new cause s).1 := by
  unfold setDropState
  split
  · exact h
  · extract_lets t u v
    have hu : Quiet a u := quiet_submit (quiet_modDrop h _ _ _ (enter_ok new cause)) _
    exact quiet_ite (fun _ => quiet_raise hu _) fun _ => hu

theorem coldStart_ok (d : Drop) (h : d.ok) : d.coldStart.ok := by
  unfold Drop.coldStart
  split
  · exact h
  · exact h

/-- A change of every drop of a line that keeps each in order. -/
theorem quiet_mapLine (h : Quiet a s) (l : LineId) (f : Line → Line) (g : Drop → Drop)
    (k : ∀ n, (f n).drops = n.drops.map g) (o : ∀ d, d.ok → (g d).ok) : Quiet a (s.modLine l f) := by
  refine quiet_modLine h l f fun _ ok d m => ?_
  rw [k] at m
  obtain ⟨e, he, rfl⟩ := List.mem_map.1 m
  exact o e (ok e he)

theorem quiet_coldRestart (h : Quiet a s) (l : LineId) : Quiet a (coldRestart l s).1 := by
  unfold coldRestart
  extract_lets changed r
  have key : ∀ (xs : List Nat) (p : State × List Task), Quiet a p.1 →
      Quiet a (xs.foldl (fun (r : State × List Task) x =>
        let q := setDropState l x .unknown .coldRestart r.1
        (q.1, r.2 ++ q.2)) p).1 := by
    intro xs
    induction xs with
    | nil => exact fun p k => k
    | cons x xs ih => exact fun p k => ih _ (quiet_setDropState k _ _ _ _)
  dsimp only
  exact quiet_mapLine (key changed (s, []) h) l _ Drop.coldStart (by intro; rfl) coldStart_ok

theorem quiet_warmRestart (h : Quiet a s) (l : LineId) : Quiet a (warmRestart l s) := by
  refine quiet_mapLine h l _ _ (by intro; rfl) fun d k => ?_
  split
  · exact k
  · exact k

theorem quiet_beginRestart (h : Quiet a s) (l : LineId) (r : Restart) : Quiet a (beginRestart l r s).1 := by
  unfold beginRestart
  with_reducible repeat' first | exact h | assumption | apply quiet_coldRestart | apply quiet_warmRestart | split

theorem quiet_askRestart (h : Quiet a s) (l : LineId) (r : Restart) : Quiet a (askRestart l r s).1 := by
  unfold askRestart
  split
  · exact quiet_beginRestart h l r
  · dsimp only
    exact quiet_modLine_same h l _ (by intro; rfl)

theorem quiet_requestRestore (h : Quiet a s) (l : LineId) (address : Nat) : Quiet a (requestRestore l address s).1 := by
  unfold requestRestore
  split
  · exact h
  · split
    · exact quiet_setDropState (quiet_modDrop h _ _ _ (by exact fun _ k => k)) _ _ _ _
    · exact h

theorem quiet_settleLineRequest (h : Quiet a s) (l : LineId) (q : LineRequest) :
    Quiet a (settleLineRequest l q s).1 := by
  unfold settleLineRequest
  extract_lets answer
  have k : ∀ (r : LineResult) (t : State), Quiet a t → Quiet a (answer r t) := fun r t k =>
    quiet_modLine_same k l _ (by intro; rfl)
  repeat' first | exact k _ _ h | exact quiet_askRestart (k _ _ h) _ _ | exact k _ _ (quiet_requestRestore h _ _) | split

theorem quiet_copyInFlight (h : Quiet a s) (l : LineId) (address : Nat) (e : AirEntry) :
    Quiet a (copyInFlight l address e s) := by
  unfold copyInFlight
  split
  · refine quiet_modDelivery h _ _ fun r => ?_
    split <;> exact ⟨rfl, rfl⟩
  · exact h

theorem quiet_fillInFlight (h : Quiet a s) (l : LineId) (address : Nat) : Quiet a (fillInFlight l address s) := by
  unfold fillInFlight
  split
  · exact h
  · split
    · exact h
    · extract_lets taken t
      refine quiet_foldl _ (fun s e k => quiet_copyInFlight k l address e) _ (quiet_modDrop h _ _ _ fun d k => ?_)
      exact ⟨queueOk_sublist k.1 List.filter_sublist, le_trans (length_fillSet _ _ _) (Nat.min_le_left _ _)⟩

theorem quiet_sendFrame (h : Quiet a s) (l : LineId) (address : Nat) (isProbe : Bool) :
    Quiet a (sendFrame l address isProbe s) := by
  unfold sendFrame
  split
  · exact h
  · exact quiet_modLine_same (quiet_modDrop h _ _ _ (by exact fun _ k => k)) l _ (by intro; rfl)

theorem quiet_beginProbe (h : Quiet a s) (l : LineId) (address : Nat) : Quiet a (beginProbe l address s) := by
  unfold beginProbe
  with_reducible repeat' first
    | exact h | assumption | apply quiet_modDrop | apply quiet_sendFrame | refine quiet_ite (fun _ => ?_) fun _ => ?_
    | split | exact fun _ k => k

theorem quiet_beginPoll (h : Quiet a s) (l : LineId) (address : Nat) : Quiet a (beginPoll l address s) := by
  unfold beginPoll
  with_reducible repeat' first | exact h | assumption | apply quiet_fillInFlight | apply quiet_sendFrame

theorem quiet_setPollPosition (h : Quiet a s) (l : LineId) (address : Nat) : Quiet a (setPollPosition l address s) :=
  quiet_modLine_same h l _ (by intro; rfl)

theorem quiet_beginExchange (h : Quiet a s) (l : LineId) : Quiet a (beginExchange l s) := by
  unfold beginExchange
  split
  · exact quiet_beginProbe (quiet_ite (fun _ => quiet_setPollPosition h _ _) fun _ => h) _ _
  · exact quiet_beginPoll (quiet_setPollPosition h _ _) _ _
  · exact quiet_modLine_same h l _ (by intro; rfl)

theorem quiet_lowerCountdowns (h : Quiet a s) (l : LineId) : Quiet a (lowerCountdowns l s) := by
  refine quiet_mapLine h l _ _ (by intro; rfl) fun d k => ?_
  split
  · exact k
  · exact k

theorem quiet_enterHistory (h : Quiet a s) (l : LineId) (address : Nat) (struck : Bool) :
    Quiet a (enterHistory l address struck s) := by
  unfold enterHistory
  with_reducible repeat' first | exact h | assumption | apply quiet_modDrop | exact fun _ k => k

theorem quiet_settleStrikes (h : Quiet a s) (l : LineId) (address : Nat) : Quiet a (settleStrikes l address s).1 := by
  unfold settleStrikes
  dsimp only
  with_reducible repeat' first
    | exact h | assumption | apply quiet_modDrop | apply quiet_submit | apply quiet_setDropState
    | refine quiet_ite (fun _ => ?_) fun _ => ?_ | split | exact fun _ k => k

theorem quiet_missPoll (h : Quiet a s) (l : LineId) (address : Nat) : Quiet a (missPoll l address s).1 := by
  unfold missPoll
  dsimp only
  with_reducible repeat' first
    | exact h | assumption | apply quiet_modDrop | apply quiet_setDropState | refine quiet_ite (fun _ => ?_) fun _ => ?_
    | split | exact fun _ k => k

theorem quiet_probeOk (h : Quiet a s) (l : LineId) (x : Exchange) (frame : List Byte) : Quiet a (probeOk l x frame s).1 := by
  unfold probeOk
  with_reducible repeat' first
    | exact h | assumption | apply quiet_modDrop | apply quiet_setDropState | refine quiet_ite (fun _ => ?_) fun _ => ?_
    | split | exact fun _ k => k

theorem quiet_probeFailed (h : Quiet a s) (l : LineId) (address : Nat) : Quiet a (probeFailed l address s).1 := by
  unfold probeFailed
  with_reducible repeat' first
    | exact h | assumption | apply quiet_setDropState | refine quiet_ite (fun _ => ?_) fun _ => ?_ | split

theorem quiet_probeMismatch (h : Quiet a s) (l : LineId) (address : Nat) (found : DropKind) :
    Quiet a (probeMismatch l address found s).1 := by
  unfold probeMismatch
  dsimp only
  with_reducible repeat' first
    | exact h | assumption | apply quiet_submit | apply quiet_setDropState | refine quiet_ite (fun _ => ?_) fun _ => ?_
    | split

theorem quiet_endProbe (h : Quiet a s) (l : LineId) (x : Exchange) (o : Outcome) : Quiet a (endProbe l x o s).1 := by
  unfold endProbe
  dsimp only
  with_reducible repeat' first
    | exact h | assumption | apply quiet_settleStrikes | apply quiet_probeOk | apply quiet_probeFailed
    | apply quiet_probeMismatch | refine quiet_ite (fun _ => ?_) fun _ => ?_ | split

theorem quiet_takeSet (h : Quiet a s) (l : LineId) (address : Nat) (d : Drop) : Quiet a (takeSet l address d s) :=
  quiet_modDrop (quiet_foldl _ (fun _ e k => quiet_onAir k l address e) _ h) _ _ _ fun _ k => ⟨k.1, Nat.zero_le _⟩

theorem quiet_applyStatus (h : Quiet a s) (l : LineId) (x : Exchange) (d : Drop) (frame : List Byte) :
    Quiet a (applyStatus l x d frame s) := by
  unfold applyStatus
  dsimp only
  with_reducible repeat' first
    | exact h | assumption | apply quiet_modDrop | apply quiet_readback | apply quiet_takeSet
    | refine quiet_ite (fun _ => ?_) fun _ => ?_ | split | exact fun _ k => k

theorem quiet_deliverReports (h : Quiet a s) (l : LineId) (x : Exchange) (d : Drop) (frame : List Byte) :
    Quiet a (deliverReports l x d frame s).1 := by
  unfold deliverReports
  with_reducible repeat' first
    | exact h | assumption | apply quiet_modDrop | refine quiet_ite (fun _ => ?_) fun _ => ?_ | split
    | exact fun _ k => k

theorem quiet_endPoll (h : Quiet a s) (l : LineId) (x : Exchange) (o : Outcome) : Quiet a (endPoll l x o s).1 := by
  unfold endPoll
  with_reducible repeat' first
    | exact h | assumption | apply quiet_modDrop | apply quiet_settleStrikes | apply quiet_missPoll
    | apply quiet_applyStatus | apply quiet_deliverReports | split | exact fun _ k => k

theorem quiet_endExchange (h : Quiet a s) (l : LineId) (x : Exchange) (o : Outcome) :
    Quiet a (endExchange l x o s).1 := by
  unfold endExchange
  extract_lets t u r
  have hu : Quiet a u := quiet_enterHistory (quiet_lowerCountdowns (quiet_modLine_same h l _ (by intro; rfl)) l) _ _ _
  show Quiet a (if x.isProbe = true then endProbe l x o u else endPoll l x o u).1
  split
  · exact quiet_endProbe hu _ _ _
  · exact quiet_endPoll hu _ _ _

theorem quiet_lineNext (h : Quiet a s) (l : LineId) : Quiet a (lineNext l s).1 := by
  unfold lineNext
  with_reducible repeat' first | exact h | assumption | apply quiet_beginRestart | split

theorem quiet_endEmptySlot (h : Quiet a s) (l : LineId) : Quiet a (endEmptySlot l s).1 :=
  quiet_lowerCountdowns (quiet_modLine_same h l _ (by intro; rfl)) l

theorem fresh_ok (e : DropListEntry) : (Drop.fresh e).ok := ⟨queueOk_nil, Nat.zero_le _⟩

theorem quiet_beginLine (h : Quiet a s) (l : LineId) (bitRate : Nat) (list : List DropListEntry) :
    Quiet a (beginLine l bitRate list s).1 := by
  unfold beginLine
  extract_lets t
  have ht : Quiet a t := by
    refine quiet_modLine h l _ fun _ _ d m => ?_
    obtain ⟨e, _, rfl⟩ := List.mem_map.1 m
    exact fresh_ok e
  split
  · exact quiet_coldRestart ht l
  · exact ht

theorem quiet_reloadLoss (h : Quiet a s) (c m pager : Nat) (route : FixedRoute) :
    Quiet a (reloadLoss c m pager route s) := by
  unfold reloadLoss
  dsimp only
  with_reducible repeat' first
    | exact h | assumption | apply quiet_modContext | exact alike_modContact _ _ fun _ => ⟨rfl, rfl⟩ | apply quiet_sendReloadCancel | apply quiet_loseMark

theorem quiet_reloadLosses (h : Quiet a s) (c : Nat) (members : List (Nat × Nat × FixedRoute)) :
    Quiet a (reloadLosses c members s).1 :=
  quiet_foldl _ (fun _ p k => quiet_reloadLoss k c p.1 p.2.1 p.2.2) _ h

theorem quiet_reloadLadder (h : Quiet a s) (c : Nat) : Quiet a (reloadLadder c s) := by
  unfold reloadLadder
  dsimp only
  with_reducible repeat' first
    | exact h | assumption | apply quiet_modContext | exact alike_keep fun _ => ⟨rfl, rfl, rfl⟩ | apply quiet_submit | refine quiet_ite (fun _ => ?_) fun _ => ?_

theorem quiet_reloadAdjust (h : Quiet a s) (c : Nat) : Quiet a (reloadAdjust c s).1 := by
  unfold reloadAdjust
  dsimp only
  with_reducible repeat' first
    | exact h | assumption | apply quiet_modContext | exact alike_keep fun _ => ⟨rfl, rfl, rfl⟩ | apply quiet_showContext | apply quiet_loseMarks
    | apply quiet_stopRung | apply quiet_pastLast | apply quiet_reloadLadder
    | refine quiet_ite (fun _ => ?_) fun _ => ?_ | split

theorem quiet_markReloaded (h : Quiet a s) : Quiet a (markReloaded s) := 
  quiet_modCalls h _ (forall₂_map (f := fun k => { k with reloaded := k.live }) (alike_keep fun _ => ⟨rfl, rfl, rfl⟩) _) fun _ => id

theorem quiet_reloadLoaded (h : Quiet a s) (new : Tables) : Quiet a (reloadLoaded new s).1 :=
  quiet_markReloaded (quiet_installTables h _)

theorem quiet_reloadDone (h : Quiet a s) : Quiet a (reloadDone s) := by
  unfold reloadDone
  dsimp only
  with_reducible repeat' first | exact h | assumption | apply quiet_modArea | apply quiet_raise | apply quiet_submit

theorem quiet_settleReload (h : Quiet a s) (second : Word) : Quiet a (settleReload second s).1 := by
  unfold settleReload
  have h' := quiet_modArea h (fun a => { a with stagedTables := none })
  dsimp only
  split
  · exact quiet_submit h' _
  · split
    · exact quiet_submit (quiet_modArea h' _) _
    · exact quiet_reloadLoaded h' _

theorem quiet_setEngine (h : Quiet a s) (new : EngineState) : Quiet a (setEngine new s) :=
  quiet_submit (quiet_raise (quiet_engine h new) _) _

theorem quiet_clearRun (h : Quiet a s) : Quiet a (clearRun s) :=
  h.trans
    { memory := rfl, pending := rfl, baseLow := rfl, baseHigh := rfl, mask := rfl, tick := rfl
      events := eventsKept_refl _, locked := fun h => ⟨h, rfl⟩, counts := id, journal := id
      drops := fun _ => ⟨fun _ m => absurd m List.not_mem_nil, fun _ m => absurd m List.not_mem_nil⟩
      calls := callsOk_noMembers rfl rfl
      records := fun _ => ⟨.nil, .nil, fun _ m => absurd m List.not_mem_nil⟩ }

theorem quiet_beginScan (h : Quiet a s) : Quiet a (beginScan s) := by
  unfold beginScan
  with_reducible repeat' first | exact h | assumption | apply quiet_modArea | apply quiet_areaRead

theorem quiet_nudgeEngine (h : Quiet a s) : Quiet a (nudgeEngine s) := by
  unfold nudgeEngine
  with_reducible repeat' first
    | exact h | assumption | apply quiet_modArea | apply quiet_beginScan | refine quiet_ite (fun _ => ?_) fun _ => ?_
    | split

theorem quiet_clearAfterScan (h : Quiet a s) (complete : Bool) : Quiet a (clearAfterScan complete s) := by
  unfold clearAfterScan
  with_reducible repeat' first
    | exact h | assumption | apply quiet_clearMemoryFault | refine quiet_ite (fun _ => ?_) fun _ => ?_

theorem quiet_endScan (h : Quiet a s) (complete : Bool) : Quiet a (endScan complete s) := by
  unfold endScan
  dsimp only
  with_reducible repeat' first
    | exact h | assumption | apply quiet_modArea | apply quiet_beginScan | apply quiet_clearAfterScan
    | refine quiet_ite (fun _ => ?_) fun _ => ?_

theorem quiet_writeHeader (h : Quiet a s) : Quiet a (writeHeader s) := by
  unfold writeHeader
  with_reducible repeat' first | exact h | assumption | apply quiet_areaWrite

theorem quiet_writeDrops (h : Quiet a s) (start : Nat) : Quiet a (writeDrops start s) := by
  unfold writeDrops
  dsimp only
  with_reducible repeat' first
    | exact h | assumption | apply quiet_areaWrite | apply quiet_modDrop | apply quiet_writeHeader
    | refine quiet_ite (fun _ => ?_) fun _ => ?_ | split | exact fun _ k => k

theorem quiet_writeMembers (h : Quiet a s) (start : Nat) : Quiet a (writeMembers start s) := by
  unfold writeMembers
  with_reducible repeat' first
    | exact h | assumption | apply quiet_modRoster | exact modify_paged (f := fun x => { x with touched := false }) (fun _ => rfl) _ _
    | apply quiet_areaWrite | apply quiet_writeDrops | split

theorem quiet_writeSlots (h : Quiet a s) (start : Nat) : Quiet a (writeSlots start s) := by
  unfold writeSlots
  with_reducible repeat' first
    | exact h | assumption | apply quiet_modArea | apply quiet_areaIssue | apply quiet_writeMembers | split

theorem quiet_cleanSlot (h : Quiet a s) (i : Nat) : Quiet a (cleanSlot i s) := by
  unfold cleanSlot
  with_reducible repeat' first | exact h | assumption | apply quiet_modArea

theorem quiet_cleanMember (h : Quiet a s) (m : Nat) : Quiet a (cleanMember m s) := by
  unfold cleanMember
  exact quiet_modRoster h _ (modify_paged (f := fun x => { x with dirty := x.touched }) (fun _ => rfl) _ _)

theorem quiet_cleanDrop (h : Quiet a s) (i : Nat) : Quiet a (cleanDrop i s) := by
  unfold cleanDrop
  with_reducible repeat' first | exact h | assumption | apply quiet_modDrop | exact fun _ k => k

theorem quiet_journalStep (h : Quiet a s) : Quiet a (journalStep s) := by
  unfold journalStep
  dsimp only
  with_reducible repeat' first
    | exact h | assumption | apply quiet_areaRead | apply quiet_areaWrite | apply quiet_writeSlots
    | refine quiet_ite (fun _ => ?_) fun _ => ?_

theorem quiet_scanSlot (h : Quiet a s) (slot : Nat) : Quiet a (scanSlot slot s) := by
  unfold scanSlot
  with_reducible repeat' first
    | exact h | assumption | apply quiet_areaRead | apply quiet_journalStep | refine quiet_ite (fun _ => ?_) fun _ => ?_

theorem quiet_serverLost (h : Quiet a s) : Quiet a (serverLost s).1 :=
  quiet_openFallback (quiet_raise (quiet_modWatch h _ (by exact fun k => ⟨k, rfl⟩)) _)

theorem quiet_serverBack (h : Quiet a s) (value : Word) : Quiet a (serverBack value s).1 :=
  quiet_submit (quiet_raise (quiet_modWatch h _ (by exact fun k => ⟨k, rfl⟩)) _) _

theorem quiet_heartbeat (h : Quiet a s) (value : Word) : Quiet a (heartbeat value s).1 := by
  unfold heartbeat
  have h1 := quiet_modWatch h (fun w => { w with stale := 0, last := value }) (by exact fun k => ⟨k, rfl⟩)
  have h2 := quiet_modWatch h (fun w => { w with stale := w.stale + 1 }) (by exact fun k => ⟨k, rfl⟩)
  dsimp only
  repeat' first
    | exact h | exact h1 | exact h2 | exact quiet_serverBack h1 _ | exact quiet_serverLost h2 | split

theorem quiet_submitServerLost (h : Quiet a s) (tag : Option Nat) : Quiet a (submitServerLost tag s) := by
  unfold submitServerLost
  dsimp only
  with_reducible repeat' first | exact h | assumption | apply quiet_submit

theorem quiet_takeServerFields (h : Quiet a s) (f : ServerFields) : Quiet a (takeServerFields f s).1 := by
  unfold takeServerFields
  dsimp only
  with_reducible repeat' first | exact h | assumption | apply quiet_modArea

theorem quiet_scanTables (h : Quiet a s) : Quiet a (scanTables s).1 := by
  unfold scanTables
  with_reducible repeat' first
    | exact h | assumption | apply quiet_areaRead | refine quiet_ite (fun _ => ?_) fun _ => ?_ | split

theorem quiet_scanLineRequest (h : Quiet a s) (l : LineId) : Quiet a (scanLineRequest l s).1 := by
  unfold scanLineRequest
  dsimp only
  with_reducible repeat' first
    | exact h | assumption | apply quiet_settleLineRequest | refine quiet_ite (fun _ => ?_) fun _ => ?_ | split

theorem quiet_scanJournalRestart (h : Quiet a s) : Quiet a (scanJournalRestart s) := by
  unfold scanJournalRestart
  dsimp only
  with_reducible repeat' first
    | exact h | assumption | apply quiet_modArea | apply quiet_requestRestart
    | refine quiet_ite (fun _ => ?_) fun _ => ?_

theorem quiet_failLoad (h : Quiet a s) (e : LoadError) : Quiet a (failLoad e s) := by
  unfold failLoad
  refine quiet_setEngine (h.trans ?_) _
  exact
    { memory := rfl, pending := rfl, baseLow := rfl, baseHigh := rfl, mask := rfl, tick := rfl
      events := eventsKept_refl _, locked := fun h => ⟨h, rfl⟩, counts := id, journal := id, drops := id, records := id
      calls := id }

theorem quiet_abandonLoad (h : Quiet a s) : Quiet a (abandonLoad s) := by
  unfold abandonLoad
  with_reducible repeat' first | exact h | assumption | apply quiet_modArea | apply quiet_setEngine | apply quiet_clearRun

theorem quiet_loadStep (h : Quiet a s) (next : State → State) (k : ∀ t, Quiet a t → Quiet a (next t)) :
    Quiet a (loadStep next s) :=
  quiet_ite (fun _ => quiet_abandonLoad h) fun _ => k _ h

theorem quiet_loadHeader (h : Quiet a s) (data : List Byte) : Quiet a (loadHeader data s) := by
  unfold loadHeader
  split
  · exact quiet_areaRead (quiet_modWatch (quiet_modArea h _) _ (by exact fun k => ⟨k, rfl⟩)) _ _ _
  · exact quiet_failLoad h _

theorem quiet_loadSettings (h : Quiet a s) (data : List Byte) : Quiet a (loadSettings data s) := by
  unfold loadSettings
  dsimp only
  with_reducible repeat' first | exact h | assumption | apply quiet_modArea | apply quiet_areaIssue

theorem quiet_recordBaselines (h : Quiet a s) : Quiet a (recordBaselines s) := by
  unfold recordBaselines
  dsimp only
  refine quiet_areaIssue (quiet_lines (quiet_modArea h _) _ _ ?_) _
  exact id

theorem quiet_loadTables (h : Quiet a s) (zones crews ladders roster : List Byte) :
    Quiet a (loadTables zones crews ladders roster s) := by
  unfold loadTables
  dsimp only
  with_reducible repeat' first
    | exact h | assumption | apply quiet_modArea | apply quiet_failLoad | apply quiet_recordBaselines | split

theorem quiet_loadWriteSlot (h : Quiet a s) (slot : Nat) : Quiet a (loadWriteSlot slot s) := by
  unfold loadWriteSlot
  with_reducible repeat' first
    | exact h | assumption | apply quiet_areaIssue | apply quiet_areaWrite | refine quiet_ite (fun _ => ?_) fun _ => ?_

theorem quiet_loadBaselines (h : Quiet a s) (hosts : List (List Byte)) : Quiet a (loadBaselines hosts s) := by
  unfold loadBaselines
  dsimp only
  with_reducible repeat' first | exact h | assumption | apply quiet_modArea | apply quiet_loadWriteSlot

theorem quiet_lockSupervision (h : Quiet a s) : Quiet a (lockSupervision s) := by
  refine quiet_modWatch h _ fun k => ?_
  simp [k]

theorem quiet_completeLoad (h : Quiet a s) : Quiet a (completeLoad s).1 := by
  unfold completeLoad
  extract_lets settings tables area t u p q
  have ht : Quiet a t := h.trans
    { memory := rfl, pending := rfl, baseLow := rfl, baseHigh := rfl, mask := rfl, tick := rfl
      events := eventsKept_refl _, locked := fun h => ⟨h, rfl⟩, counts := fun o => ⟨List.length_replicate .., o.2⟩, journal := id, drops := id, records := id
      calls := fun _ => callsOk_empty rfl (.inr ⟨List.length_replicate .., fun r h => by rw [(List.mem_replicate.1 h).2]; rfl⟩) }
  have hu : Quiet a u := quiet_lockSupervision (quiet_journalBegin ht)
  exact quiet_beginScan (quiet_setEngine (quiet_beginLine (quiet_beginLine hu _ _ _) _ _ _) _)

theorem quiet_pauseEngine (h : Quiet a s) : Quiet a (pauseEngine s) := by
  unfold pauseEngine
  with_reducible repeat' first | exact h | assumption | apply quiet_mapWindows | apply quiet_setEngine

theorem quiet_resumeEngine (h : Quiet a s) : Quiet a (resumeEngine s).1 := by
  unfold resumeEngine
  dsimp only
  with_reducible repeat' first
    | exact h | assumption | apply quiet_admitHeads | apply quiet_mapWindows | apply quiet_setEngine

theorem quiet_stopEngine (h : Quiet a s) : Quiet a (stopEngine s).1 := by
  unfold stopEngine
  extract_lets t u v w x
  have hu : Quiet a u := quiet_modArea (quiet_setEngine h _) _
  have hv : Quiet a v := quiet_foldl _ (fun _ _ k => quiet_endSlotCall k _ _ _) _ hu
  have hw : Quiet a w := quiet_foldl _ (fun _ c k => quiet_finishCall k c _ _) _ hv
  clear_value w
  have hx : Quiet a x := quiet_modCalls hw _ (alike_refl_list _) fun _ => nodup_append_of_subset (fun _ => List.nodup_nil) (List.nil_subset _)
  dsimp only
  exact quiet_modWatch hx _ (by exact fun k => ⟨k, rfl⟩)

theorem goOff_ok (n : Line) : ∀ d ∈ n.goOff.drops, d.ok := by
  intro d m
  obtain ⟨e, _, rfl⟩ := List.mem_map.1 m
  exact ⟨queueOk_nil, Nat.zero_le _⟩

theorem quiet_enterIdle (h : Quiet a s) : Quiet a (enterIdle s) :=
  quiet_setEngine (quiet_modArea (quiet_journalOff (quiet_lines h _ _ fun _ => ⟨goOff_ok _, goOff_ok _⟩)) _) _

theorem quiet_endFinalScan (h : Quiet a s) (complete : Bool) : Quiet a (endFinalScan complete s) := by
  unfold endFinalScan
  with_reducible repeat' first | exact h | assumption | apply quiet_modArea | apply quiet_enterIdle

theorem quiet_settleStopping (h : Quiet a s) : Quiet a (settleStopping s) := by
  unfold settleStopping
  dsimp only
  with_reducible repeat' first
    | exact h | assumption | apply quiet_modArea | apply quiet_writeSlots | refine quiet_ite (fun _ => ?_) fun _ => ?_

theorem quiet_scanStep (h : Quiet a s) (next : State → State × List Task) (k : ∀ t, Quiet a t → Quiet a (next t).1) :
    Quiet a (scanStep next s).1 := by
  unfold scanStep
  split
  · exact quiet_endScan h _
  · exact k _ h

/-- What follows the bytes of a faulted transaction of the Area Controller that reached memory. -/
theorem quiet_areaError (t : Transaction AreaOp) (h : Quiet a (landFaulted t s)) : Quiet a (areaError t s).1 := by
  unfold areaError
  have hs : Quiet a (setMemoryFault (areaDone (landFaulted t s))) := quiet_setMemoryFault (quiet_areaDone h)
  dsimp only
  generalize setMemoryFault (areaDone (landFaulted t s)) = u at *
  have hm := quiet_modArea hs (fun a => { a with stagedTables := none })
  repeat' first
    | exact quiet_abandonLoad hs | exact quiet_clearRun (quiet_failLoad hs _) | exact quiet_endFinalScan hs _
    | exact hm | exact quiet_endScan hm _ | split

theorem quiet_expireReceipt (h : Quiet a s) (key : RecordKey) : Quiet a (expireReceipt key s).1 := by
  unfold expireReceipt
  with_reducible repeat' first
    | exact h | assumption | apply quiet_receiptExpired | refine quiet_ite (fun _ => ?_) fun _ => ?_ | split

theorem quiet_expireRetry (h : Quiet a s) (key : RecordKey) : Quiet a (expireRetry key s).1 := by
  unfold expireRetry
  with_reducible repeat' first
    | exact h | assumption | apply quiet_retryExpired | refine quiet_ite (fun _ => ?_) fun _ => ?_ | split

theorem quiet_beginPending (h : Quiet a s) (serial : Nat) : Quiet a (beginPending serial s).1 := by
  unfold beginPending
  with_reducible repeat' first
    | exact h | assumption | apply quiet_beginStage | refine quiet_ite (fun _ => ?_) fun _ => ?_ | split

theorem quiet_closeEvent (h : Quiet a s) : Quiet a (closeEvent s) := quiet_settleStopping (quiet_recomputeLamps h)

/-- Every task is internal work. -/
theorem quiet_perform (h : Quiet a s) (t : Task) : Quiet a (perform t s).1 := by
  cases t
  case enterRung => exact quiet_enterRung h _ _
  case endRung => exact quiet_endRung h _
  case pastLast => exact quiet_pastLast h _
  case endTurn => exact quiet_endTurn h _
  case lostMark => exact quiet_lostMark h _ _
  case dropBreakIn => exact quiet_dropBreakIn h _
  case endCall => exact quiet_endCall h _ _ _
  case admitHeads => exact quiet_admitHeads h
  case reopen => exact quiet_reopen h _ _
  case breakInTaken => exact quiet_breakInTaken h _ _
  case takePost => exact quiet_takePost h _ _
  case heartbeat => exact quiet_heartbeat h _
  case submitServerLost => exact quiet_submitServerLost h _
  case scanTables => exact quiet_scanTables h
  case lineRequest => exact quiet_scanLineRequest h _
  case journalRestart => exact quiet_scanJournalRestart h
  case scanSlot => exact quiet_scanSlot h _
  case scanFailed => exact quiet_endScan h _
  case reloadLosses => exact quiet_reloadLosses h _ _
  case reloadAdjust => exact quiet_reloadAdjust h _
  case reloadDone => exact quiet_reloadDone h
  case report => exact quiet_matchReport h _ _ _
  case press => exact quiet_matchPress h _ _ _
  case lineNext => exact quiet_lineNext h _
  case handBack => exact quiet_settleHandedBack h _ _ _
  case unreached => exact quiet_reportUnreached h _
  case beginPending => exact quiet_beginPending h _
  case expireDeadline => exact quiet_expireDeadline h _
  case expireTurn => exact quiet_expireTurn h _
  case expireArrival => exact quiet_expireArrival h _
  case expireRemind => exact quiet_expireRemind h _ _
  case expireReceipt => exact quiet_expireReceipt h _
  case expireRetry => exact quiet_expireRetry h _

/-- A property that every task keeps holds at the end of a run of tasks, if the agenda's change keeps it too. -/
theorem run_keeps {P : State → Prop} (t : ∀ x s, P s → P (perform x s).1) (g : ∀ s l, P s → P { s with agenda := l })
    (n : Nat) (ts : List Task) (s : State) (h : P s) : P (run n ts s) := by
  induction n generalizing ts s with
  | zero =>
    cases ts with
    | nil => exact h
    | cons x ts => exact g s _ h
  | succ n ih =>
    cases ts with
    | nil => exact h
    | cons x ts => exact ih _ _ (t x s h)

theorem quiet_run (h : Quiet a s) (n : Nat) (ts : List Task) : Quiet a (run n ts s) :=
  run_keeps (P := Quiet a) (fun x _ k => quiet_perform k x) (fun _ l k => quiet_agenda k l) n ts s h

/-- Every event is internal work. -/
theorem quiet_finish {r : State × List Task} (h : Quiet a r.1) : Quiet a (finish r) :=
  quiet_closeEvent (quiet_run (quiet_agenda h _) _ _)

end Sys2Proof.Machine
end

