-- ==== Sys2Proof/Laws/Commands.lean ====
section
/-! SUPPORT. Laws/Commands.lean: what each command of the table can do, said once: it begins with the bytes of the transaction it
completes, or with what it does to the registers and the tick count by itself, and all that follows is internal work (Laws/Quiet). -/

namespace Sys2Proof.Machine

/-- How a command begins: `s` at once, with the bytes landed of the transaction in progress that it completes or ends in error, or
with its own direct effect. -/
inductive Begins : Instr → State → State → Prop
  | idle (c : Instr) (s : State) : Begins c s s
  | area (c : Instr) (s : State) (x : Transaction AreaOp) (h : s.area.bus = some x)
    (k : x.op.writeDone = some c) : Begins c s (land x s)
  | areaFault (c : Instr) (s : State) (x : Transaction AreaOp) (h : s.area.bus = some x)
    (k : c = .busErrorCompletion .area ∨ c = .busCompletionTimeout .area) : Begins c s (landFaulted x s)
  | journal (c : Instr) (s : State) (x : Transaction JournalOp) (h : s.journal.bus = some x)
    (k : x.op.writeDone = some c) : Begins c s (land x s)
  | journalFault (c : Instr) (s : State) (x : Transaction JournalOp) (h : s.journal.bus = some x)
    (k : c = .busErrorCompletion .journal ∨ c = .busCompletionTimeout .journal) : Begins c s (landFaulted x s)
  | start (b : Bool) (s : State) : Begins (.start b) s { s with tickCount := 0 }
  | own (c : Instr) (s t : State) (h : c = .fullReset ∨ c = .resetEngine false ∨ c = .resetEngine true ∨ c = .tick
    ∨ (∃ half v, c = .areaBaseWrite half v) ∨ (∃ v, c = .attentionMaskWrite v) ∨ ∃ v, c = .attentionEventWrite v)
    (k : exec c s = .next t) : Begins c s t

/-- The command completes, and what follows its beginning is internal work. -/
def Completes (c : Instr) (s : State) : Prop := ∃ t u, exec c s = .next t ∧ Begins c s u ∧ Quiet u t

variable {a s : State}

theorem quiet_showCommand (h : Quiet a s) (c : Command) : Quiet a (showCommand c s) :=
  h.trans
    { memory := rfl, pending := rfl, baseLow := rfl, baseHigh := rfl, mask := rfl, tick := rfl
      events := eventsKept_refl _, locked := fun h => ⟨h, rfl⟩, counts := id, journal := id, drops := id, records := id, calls := id }

theorem quiet_settleNudge (h : Quiet a s) (b : Bool) : Quiet a (settleNudge b s) :=
  quiet_ite (fun _ => quiet_nudgeEngine h) fun _ => h

theorem quiet_startLoad (s : State) : Quiet { s with tickCount := 0 } (startLoad s) := by
  refine quiet_areaRead (quiet_setEngine ?_ _) _ _ _
  exact
    { memory := rfl, pending := rfl, baseLow := rfl, baseHigh := rfl, mask := rfl, tick := rfl
      events := eventsKept_refl _, locked := fun h => ⟨h, rfl⟩
      counts := fun _ => ⟨List.length_replicate .., List.length_replicate ..⟩, journal := id, drops := id
      records := fun _ => ⟨List.nodup_nil, List.nodup_nil, fun _ h => absurd h List.not_mem_nil⟩
      calls := fun _ => callsOk_empty rfl (.inl rfl) }

/-- A command that does internal work alone. -/
theorem completes_idle {c : Instr} {t : State} (e : exec c s = .next t) (h : Quiet s t) : Completes c s :=
  ⟨t, s, e, .idle c s, h⟩

theorem completes_area {α : Type} {c : Instr} {pick : AreaOp → Option α} {work : α → State → State × List Task}
    (e : exec c s = .next (completeArea pick work s))
    (k : ∀ u x v, Quiet u v → Quiet u (work x v).1)
    (w : ∀ op x, pick op = some x → op.writeDone = some c := by intro op x h; cases op <;> first | rfl | cases h) : Completes c s := by
  unfold completeArea at e
  cases h : s.area.bus with
  | none => rw [h] at e; exact completes_idle e (.refl s)
  | some t =>
    rw [h] at e
    dsimp only at e
    cases p : pick t.op with
    | none => rw [p] at e; exact completes_idle e (.refl s)
    | some x =>
      rw [p] at e
      exact ⟨_, _, e, .area c s t h (w _ _ p), quiet_finish (k _ _ _ (quiet_areaDone (.refl _)))⟩

/-- The completion of a read of the Area Controller is internal work alone. -/
theorem completes_areaRead {α : Type} {c : Instr} {pick : AreaOp → Option α} {work : α → State → State × List Task}
    (e : exec c s = .next (completeAreaRead pick work s))
    (k : ∀ u x v, Quiet u v → Quiet u (work x v).1) : Completes c s := by
  refine completes_idle e ?_
  unfold completeAreaRead
  split
  · exact .refl s
  · split
    · exact .refl s
    · exact quiet_finish (k _ _ _ (quiet_areaDone (.refl s)))

theorem completes_journal {α : Type} {c : Instr} {pick : JournalOp → Option α} {work : α → State → State}
    (e : exec c s = .next (completeJournal pick work s))
    (k : ∀ u x v, Quiet u v → Quiet u (work x v))
    (w : ∀ op x, pick op = some x → op.writeDone = some c := by intro op x h; cases op <;> first | rfl | cases h) : Completes c s := by
  unfold completeJournal at e
  cases h : s.journal.bus with
  | none => rw [h] at e; exact completes_idle e (.refl s)
  | some t =>
    rw [h] at e
    dsimp only at e
    cases p : pick t.op with
    | none => rw [p] at e; exact completes_idle e (.refl s)
    | some x =>
      rw [p] at e
      exact ⟨_, _, e, .journal c s t h (w _ _ p), quiet_finish (r := (_, [])) (k _ _ _ (.refl _))⟩

theorem quiet_journalError (t : Transaction JournalOp) (h : Quiet a (landFaulted t s)) : Quiet a (journalError t s) := by
  unfold journalError
  exact quiet_journalFailed (quiet_modJournal (quiet_setMemoryFault (quiet_journalDone h)) _ Journal.ok_skipPending) _

theorem completes_fault {c : Instr} (who : Requester) (k : c = .busErrorCompletion who ∨ c = .busCompletionTimeout who) :
    Completes c s := by
  have e : exec c s = .next (failBus who s) := by rcases k with rfl | rfl <;> rfl
  unfold failBus at e
  cases who with
  | area =>
    cases h : s.area.bus with
    | none => simp only [h] at e; exact completes_idle e (.refl s)
    | some t =>
      simp only [h] at e
      exact ⟨_, _, e, .areaFault c s t h k, quiet_finish (quiet_areaError t (.refl _))⟩
  | journal =>
    cases h : s.journal.bus with
    | none => simp only [h] at e; exact completes_idle e (.refl s)
    | some t =>
      simp only [h] at e
      exact ⟨_, _, e, .journalFault c s t h k, quiet_finish (r := (_, [])) (quiet_journalError t (.refl _))⟩

theorem completes_own {c : Instr} (h : c = .fullReset ∨ c = .resetEngine false ∨ c = .resetEngine true ∨ c = .tick
    ∨ (∃ half v, c = .areaBaseWrite half v) ∨ (∃ v, c = .attentionMaskWrite v) ∨ ∃ v, c = .attentionEventWrite v)
    {t : State} (k : exec c s = .next t) : Completes c s := ⟨t, t, k, .own c s t h k, .refl t⟩

/-- An event that happens on a condition only. -/
theorem completes_if {c : Instr} {p : Prop} [Decidable p] {r : State × List Task}
    (e : exec c s = .next (if p then finish r else s)) (k : Quiet s r.1) : Completes c s :=
  completes_idle e (quiet_ite (fun _ => quiet_finish k) fun _ => .refl s)

theorem quiet_setPhase (h : Quiet a s) (l : LineId) (p : LinePhase) : Quiet a (setPhase l p s) :=
  quiet_modLine_same h l _ fun _ => rfl

theorem quiet_enterRunning (h : Quiet a s) (l : LineId) : Quiet a (enterRunning l s) :=
  quiet_modLine_same h l _ fun _ => rfl

theorem quiet_refuse (h : Quiet a s) : Quiet a (refuse s) := quiet_raise h _

theorem completes_start (s : State) (b : Bool) : Completes (.start b) s := by
  by_cases m : s.engine.mayStart = true
  · have e : exec (.start b) s = .next (settleNudge b (finish (startLoad s, []))) := by
      show Host.Outcome.next _ = _
      rw [if_pos m]
    have q : Quiet { s with tickCount := 0 } (startLoad s, ([] : List Task)).1 := quiet_startLoad s
    exact ⟨_, _, e, .start b s, quiet_settleNudge (quiet_finish q) b⟩
  · have e : exec (.start b) s = .next (settleNudge b (refuse s)) := by
      show Host.Outcome.next _ = _
      rw [if_neg m]
    exact completes_idle e (quiet_settleNudge (quiet_refuse (.refl s)) b)

theorem completes_pause (s : State) (b : Bool) : Completes (.pause b) s := by
  have q : Quiet s (pauseEngine (showCommand .pause s), ([] : List Task)).1 := quiet_pauseEngine (quiet_showCommand (.refl s) _)
  exact completes_idle (t := settleNudge b (if s.engine = .running then finish (pauseEngine (showCommand .pause s), []) else refuse s))
    rfl (quiet_settleNudge (quiet_ite (fun _ => quiet_finish q) fun _ => quiet_refuse (.refl s)) b)

theorem completes_resume (s : State) (b : Bool) : Completes (.resume b) s :=
  completes_idle (t := settleNudge b (if s.engine = .paused then finish (resumeEngine (showCommand .resume s)) else refuse s))
    rfl (quiet_settleNudge (quiet_ite (fun _ => quiet_finish (quiet_resumeEngine (quiet_showCommand (.refl s) _)))
      fun _ => quiet_refuse (.refl s)) b)

theorem quiet_stopCommand (s : State) : Quiet s (stopCommand s) := by
  unfold stopCommand
  have q : Quiet s (finish (stopEngine (showCommand .stop s))) := quiet_finish (quiet_stopEngine (quiet_showCommand (.refl s) _))
  cases s.engine
  · exact quiet_refuse (.refl s)
  · exact quiet_modArea (quiet_showCommand (.refl s) _) _
  · exact q
  · exact q
  · exact quiet_refuse (.refl s)
  · exact quiet_refuse (.refl s)

theorem completes_stop (s : State) (b : Bool) : Completes (.stop b) s :=
  completes_idle (t := settleNudge b (stopCommand s)) rfl (quiet_settleNudge (quiet_stopCommand s) b)

theorem completes_commandNone (s : State) (b : Bool) : Completes (.commandNone b) s :=
  completes_idle (t := settleNudge b s) rfl (quiet_settleNudge (.refl s) b)

theorem completes_undefined (s : State) (n : BitVec 4) (b : Bool) : Completes (.controlWriteUndefinedCommand n b) s :=
  completes_idle (t := settleNudge b (refuse s)) rfl (quiet_settleNudge (quiet_refuse (.refl s)) b)

/-- An event of a line that happens in one phase of it. -/
theorem completes_line (s : State) (l : LineId) : Completes (.breakEnd l) s ∧ Completes (.restartWaitEnd l) s
    ∧ Completes (.restartFrameWaitEnd l) s ∧ Completes (.downFrameEnd l) s ∧ ∀ n, Completes (.replyStart l n) s := by
  have q := Quiet.refl s
  refine ⟨?_, ?_, ?_, ?_, fun n => ?_⟩
  · by_cases h : (s.line l).phase = .breaking
    · exact completes_idle (t := setPhase l .comingUp s) (by simp [exec, execBreakEnd, h]) (quiet_setPhase q _ _)
    · exact completes_idle (t := s) (by simp [exec, execBreakEnd]) q
  · by_cases h : (s.line l).phase = .comingUp
    · exact completes_idle (t := enterRunning l s) (by simp [exec, execRestartWaitEnd, h]) (quiet_enterRunning q _)
    · exact completes_idle (t := s) (by simp [exec, execRestartWaitEnd]) q
  · by_cases h : (s.line l).phase = .restartWait
    · exact completes_idle (t := enterRunning l s) (by simp [exec, execRestartFrameWaitEnd, h]) (quiet_enterRunning q _)
    · exact completes_idle (t := s) (by simp [exec, execRestartFrameWaitEnd]) q
  · refine completes_idle (c := .downFrameEnd l) rfl ?_
    cases (s.line l).phase <;> first | exact q | exact quiet_setPhase q _ _
  · refine completes_idle (c := .replyStart l n) rfl ?_
    cases (s.line l).phase <;> first | exact q | exact quiet_ite (fun _ => quiet_setPhase q _ _) fun _ => q

theorem quiet_endExchange_finish (s : State) (l : LineId) (x : Exchange) (o : Outcome) : Quiet s (finish (endExchange l x o s)) :=
  quiet_finish (quiet_endExchange (.refl s) l x o)

theorem quiet_exchangeStart (s : State) (l : LineId) : Quiet s (finish (beginExchange l s, [])) :=
  quiet_finish (r := (beginExchange l s, [])) (quiet_beginExchange (.refl s) l)

theorem quiet_emptySlotEnd (s : State) (l : LineId) : Quiet s (finish (endEmptySlot l s)) :=
  quiet_finish (quiet_endEmptySlot (.refl s) l)

/-- An event of a line that begins or ends an exchange. -/
theorem completes_exchange (s : State) (l : LineId) : Completes (.exchangeStart l) s ∧ (∀ f, Completes (.replyComplete l f) s)
    ∧ Completes (.replyTimeout l) s ∧ Completes (.probeTimeout l) s ∧ Completes (.replySlotEnd l) s
    ∧ Completes (.emptySlotEnd l) s ∧ Completes (.replyNotSync l) s := by
  have q := Quiet.refl s
  have x := quiet_endExchange_finish s l
  refine ⟨?_, fun f => ?_, ?_, ?_, ?_, ?_, ?_⟩
  · refine completes_idle (c := .exchangeStart l) rfl ?_
    generalize hb : finish (beginExchange l s, []) = b
    have k : Quiet s b := hb ▸ quiet_exchangeStart s l
    cases (s.line l).state <;> cases (s.line l).phase <;> first | exact q | exact k
  · refine completes_idle (c := .replyComplete l f) rfl ?_
    cases (s.line l).phase <;> first
      | exact q | exact quiet_ite (fun _ => x _ _) fun _ => quiet_ite (fun _ => q) fun _ => x _ _
  · refine completes_idle (c := .replyTimeout l) rfl ?_
    cases (s.line l).phase <;> first | exact q | exact quiet_ite (fun _ => q) fun _ => x _ _
  · refine completes_idle (c := .probeTimeout l) rfl ?_
    cases (s.line l).phase <;> first | exact q | exact quiet_ite (fun _ => x _ _) fun _ => q
  · refine completes_idle (c := .replySlotEnd l) rfl ?_
    cases (s.line l).phase <;> first | exact q | exact x _ _
  · refine completes_idle (c := .emptySlotEnd l) rfl ?_
    cases (s.line l).phase <;> first | exact q | exact quiet_emptySlotEnd s l
  · refine completes_idle (c := .replyNotSync l) rfl ?_
    cases (s.line l).phase <;> first | exact q | exact x _ _

theorem completes_load (s : State) : (∀ d, Completes (.loadHeaderReadDone d) s) ∧ (∀ d, Completes (.loadSettingsReadDone d) s)
    ∧ (∀ z c l r, Completes (.loadTablesReadDone z c l r) s) ∧ (∀ h, Completes (.loadSlotBaselineReadDone h) s)
    ∧ Completes .loadSlotWriteDone s ∧ Completes .loadHeaderWriteDone s := by
  refine ⟨fun d => ?_, fun d => ?_, fun z c l r => ?_, fun h => ?_, ?_, ?_⟩
  · exact completes_areaRead rfl fun u x v k => quiet_loadStep k _ fun _ k => quiet_loadHeader k _
  · exact completes_areaRead rfl fun u x v k => quiet_loadStep k _ fun _ k => quiet_loadSettings k _
  · exact completes_areaRead rfl fun u x v k => quiet_loadStep k _ fun _ k => quiet_loadTables k _ _ _ _
  · exact completes_areaRead rfl fun u x v k => quiet_loadStep k _ fun _ k => quiet_loadBaselines k _
  · exact completes_area rfl fun u x v k => quiet_loadStep k _ fun _ k => quiet_loadWriteSlot k _
  · refine completes_area rfl fun u x v k => ?_
    split
    · exact quiet_abandonLoad k
    · exact quiet_completeLoad k

theorem quiet_handDescriptor (h : Quiet a s) (data : List Byte) : Quiet a (handDescriptor data s) :=
  quiet_ite (fun _ => quiet_takeFrom h _) fun _ => h

theorem completes_scan (s : State) : (∀ d, Completes (.scanHeaderReadDone d) s) ∧ (∀ d, Completes (.reloadDirectoryReadDone d) s)
    ∧ (∀ z c l r, Completes (.reloadTablesReadDone z c l r) s) ∧ (∀ g, Completes (.reloadGenerationReadDone g) s)
    ∧ (∀ d, Completes (.slotHostReadDone d) s) ∧ (∀ d, Completes (.descriptorStateReadDone d) s)
    ∧ Completes .slotImageWriteDone s ∧ Completes .memberEntryWriteDone s ∧ Completes .dropEntryWriteDone s
    ∧ Completes .headerDeviceWriteDone s := by
  refine ⟨fun d => ?_, fun d => ?_, fun z c l r => ?_, fun g => ?_, fun d => ?_, fun d => ?_, ?_, ?_, ?_, ?_⟩
  · exact completes_areaRead rfl fun u x v k => quiet_scanStep k _ fun w k => by unfold takeServerFields; dsimp only; exact quiet_modArea k _
  · exact completes_areaRead rfl fun u x v k => quiet_scanStep k _ fun _ k => quiet_areaIssue (quiet_modArea k _) _
  · exact completes_areaRead rfl fun u x v k => quiet_scanStep k _ fun _ k => quiet_areaRead (quiet_modArea k _) _ _ _
  · exact completes_areaRead rfl fun u x v k => quiet_scanStep k _ fun _ k => quiet_settleReload k _
  · exact completes_areaRead rfl fun u x v k => quiet_scanStep k _ fun _ k => quiet_takeHostPart k _ _
  · exact completes_areaRead rfl fun u x v k => quiet_scanStep k _ fun _ k => quiet_writeSlots (quiet_handDescriptor k _) _
  · exact completes_area rfl fun u x v k => quiet_scanStep (quiet_cleanSlot k _) _ fun _ k => quiet_writeSlots k _
  · exact completes_area rfl fun u x v k => quiet_scanStep (quiet_cleanMember k _) _ fun _ k => quiet_writeMembers k _
  · exact completes_area rfl fun u x v k => quiet_scanStep (quiet_cleanDrop k _) _ fun _ k => quiet_writeDrops k _
  · refine completes_area rfl fun u x v k => ?_
    split
    · exact quiet_endFinalScan k _
    · exact quiet_endScan k _

theorem completes_journalWriter (s : State) : (∀ d, Completes (.descriptorTakeReadDone d) s) ∧ Completes .descriptorTakeWriteDone s
    ∧ Completes .journalRecordWriteDone s ∧ Completes .fillCountWriteDone s ∧ Completes .descriptorCloseWriteDone s := by
  refine ⟨fun d => ?_, ?_, ?_, ?_, ?_⟩
  · exact completes_idle rfl (by
      split
      · exact .refl s
      · split
        · exact quiet_finish (r := (_, [])) (quiet_takeReadDone (.refl s) d)
        · exact .refl s)
  · exact completes_journal rfl fun u x v k => quiet_takeWriteDone k
  · refine completes_journal rfl fun u x v k => ?_
    unfold recordBytesDone
    split
    · exact quiet_recordWriteDone k _
    · exact quiet_orphanBeforeTakeDone k
    · exact quiet_journalFree (quiet_journalDone k)
  · exact completes_journal rfl fun u x v k => quiet_fillWriteDone k _
  · have e : exec .descriptorCloseWriteDone s = .next (if areaCloses s then
        completeArea (fun | .descriptorClose => some () | _ => none)
          (fun _ s => scanStep (fun s => (writeSlots 0 s, [])) (afterClose s)) s
      else completeJournal (fun | .closeWrite => some () | _ => none) (fun _ s => afterClose (journalDone s)) s) := rfl
    split at e
    · exact completes_area e fun u x v k => quiet_scanStep (quiet_afterClose k) _ fun _ k => quiet_writeSlots k _
    · exact completes_journal e fun u x v k => quiet_afterClose (quiet_journalDone k)

/-- An expiry that happens when it is due. -/
theorem completes_expiry (s : State) : (∀ c, Completes (.rungDeadlineExpiry c) s ∧ Completes (.turnExpiry c) s
      ∧ Completes (.firstArrivalWindowExpiry c) s ∧ Completes (.secondArrivalWindowExpiry c) s
      ∧ ∀ m, Completes (.remindIntervalExpiry c m) s)
    ∧ (∀ key, Completes (.receiptWindowExpiry key) s ∧ Completes (.retryWindowExpiry key) s)
    ∧ Completes .scanTimerExpiry s ∧ Completes .stoppingLimitExpiry s := by
  have q := Quiet.refl s
  refine ⟨fun c => ⟨?_, ?_, ?_, ?_, fun m => ?_⟩, fun key => ⟨?_, ?_⟩, ?_, ?_⟩
  · exact completes_if (r := (s, [.expireDeadline c])) rfl q
  · exact completes_if (r := (s, [.expireTurn c])) rfl q
  · exact completes_if (r := (s, [.expireArrival c])) rfl q
  · exact completes_if (r := (s, [.expireArrival c])) rfl q
  · exact completes_if (r := (s, [.expireRemind c m])) rfl q
  · exact completes_if (r := (s, [.expireReceipt key])) rfl q
  · exact completes_if (r := (s, [.expireRetry key])) rfl q
  · exact completes_if (r := (beginScan s, [])) rfl (quiet_beginScan q)
  · exact completes_if (r := (s.modArea fun a => { a with stopEnded := true, stopLimit := none }, [])) rfl (by dsimp only; exact quiet_modArea q _)

/-- Every command completes, and what follows its beginning is internal work. -/
theorem completes (c : Instr) (s : State) : Completes c s := by
  obtain ⟨e1, e2, e3, e4⟩ := completes_expiry s
  obtain ⟨l1, l2, l3, l4, l5, l6⟩ := completes_load s
  obtain ⟨s1, s2, s3, s4, s5, s6, s7, s8, s9, s10⟩ := completes_scan s
  obtain ⟨j1, j2, j3, j4, j5⟩ := completes_journalWriter s
  cases c
  case fullReset => exact completes_own (.inl rfl) rfl
  case start b => exact completes_start s b
  case pause b => exact completes_pause s b
  case resume b => exact completes_resume s b
  case stop b => exact completes_stop s b
  case resetEngine b => exact completes_own (by cases b <;> simp) rfl
  case commandNone b => exact completes_commandNone s b
  case nudge => exact completes_idle rfl (quiet_nudgeEngine (.refl s))
  case areaBaseWrite h v => exact completes_own (by simp) rfl
  case attentionEventWrite v => exact completes_own (by simp) rfl
  case attentionMaskWrite v => exact completes_own (by simp) rfl
  case attentionForceWrite v =>
    refine completes_idle rfl ?_
    exact
      { memory := rfl, pending := rfl, baseLow := rfl, baseHigh := rfl, mask := rfl, tick := rfl
        events := eventsKept_or _ _, locked := fun h => ⟨h, rfl⟩, counts := id, journal := id, drops := id, records := id, calls := id }
  case registerWriteNoEffect r v => exact completes_idle rfl (.refl s)
  case tick => exact completes_own (by simp) rfl
  case rungDeadlineExpiry c => exact (e1 c).1
  case turnExpiry c => exact (e1 c).2.1
  case firstArrivalWindowExpiry c => exact (e1 c).2.2.1
  case secondArrivalWindowExpiry c => exact (e1 c).2.2.2.1
  case receiptWindowExpiry key => exact (e2 key).1
  case remindIntervalExpiry c m => exact (e1 c).2.2.2.2 m
  case retryWindowExpiry key => exact (e2 key).2
  case scanTimerExpiry => exact e3
  case stoppingLimitExpiry => exact e4
  case busErrorCompletion who => exact completes_fault who (.inl rfl)
  case busCompletionTimeout who => exact completes_fault who (.inr rfl)
  case loadHeaderReadDone d => exact l1 d
  case loadSettingsReadDone d => exact l2 d
  case loadTablesReadDone z c l r => exact l3 z c l r
  case loadSlotBaselineReadDone h => exact l4 h
  case loadSlotWriteDone => exact l5
  case loadHeaderWriteDone => exact l6
  case scanHeaderReadDone d => exact s1 d
  case reloadDirectoryReadDone d => exact s2 d
  case reloadTablesReadDone z c l r => exact s3 z c l r
  case reloadGenerationReadDone g => exact s4 g
  case slotHostReadDone d => exact s5 d
  case descriptorStateReadDone d => exact s6 d
  case slotImageWriteDone => exact s7
  case memberEntryWriteDone => exact s8
  case dropEntryWriteDone => exact s9
  case headerDeviceWriteDone => exact s10
  case descriptorTakeReadDone d => exact j1 d
  case descriptorTakeWriteDone => exact j2
  case journalRecordWriteDone => exact j3
  case fillCountWriteDone => exact j4
  case descriptorCloseWriteDone => exact j5
  case breakEnd l => exact (completes_line s l).1
  case restartWaitEnd l => exact (completes_line s l).2.1
  case restartFrameWaitEnd l => exact (completes_line s l).2.2.1
  case exchangeStart l => exact (completes_exchange s l).1
  case downFrameEnd l => exact (completes_line s l).2.2.2.1
  case replyStart l n => exact (completes_line s l).2.2.2.2 n
  case replyComplete l f => exact (completes_exchange s l).2.1 f
  case replyTimeout l => exact (completes_exchange s l).2.2.1
  case probeTimeout l => exact (completes_exchange s l).2.2.2.1
  case replySlotEnd l => exact (completes_exchange s l).2.2.2.2.1
  case emptySlotEnd l => exact (completes_exchange s l).2.2.2.2.2.1
  case controlWriteUndefinedCommand n b => exact completes_undefined s n b
  case replyNotSync l => exact (completes_exchange s l).2.2.2.2.2.2

end Sys2Proof.Machine
end

