-- ==== Sys2Proof/Laws/Operations.lean ====
section
/-! SUPPORT. Laws/Operations.lean: what each shared operation does, said once: the submission of a record, the change of the engine
state, and an event without tasks. -/

namespace Sys2Proof.Machine

/-- The Journal Writer's next write changes nothing but its transaction. -/
theorem pump_eq (s : State) : ∃ bus, pump s = { s with journal := { s.journal with bus := bus } } := by
  unfold pump
  repeat' split
  all_goals exact ⟨_, rfl⟩

/-- A submission changes nothing but the journal: the record joins the pending list with the present tick in WRITING, with the
memory-fault flag clear and room in the list, and is skipped otherwise (R165). -/
theorem submit_eq (r : JournalRecord) (s : State) : ∃ j, submit r s = { s with journal := j }
    ∧ j.state = s.journal.state ∧ j.nextSequence = s.journal.nextSequence ∧ j.fill = s.journal.fill ∧ j.index = s.journal.index
    ∧ (s.journal.state = .writing → s.area.memoryFault = false → s.journal.pending.length < Config.pendingCapacity →
      j.pending = s.journal.pending ++ [{ r with tick := s.tickCount }] ∧ j.skipped = s.journal.skipped)
    ∧ (s.journal.state ≠ .writing ∨ s.area.memoryFault = true ∨ Config.pendingCapacity ≤ s.journal.pending.length →
      j.pending = s.journal.pending ∧ j.skipped = min Config.skippedLimit (s.journal.skipped + 1)) := by
  unfold submit
  split
  · rename_i h
    obtain ⟨bus, e⟩ := pump_eq (s.modJournal (Journal.skip 1))
    refine ⟨_, e, rfl, rfl, rfl, rfl, fun a b c => ?_, fun _ => ⟨rfl, rfl⟩⟩
    rcases h with h | h | h
    · exact absurd a h
    · simp [b] at h
    · omega
  · rename_i h
    obtain ⟨bus, e⟩ := pump_eq (s.modJournal fun j => { j with pending := j.pending ++ [{ r with tick := s.tickCount }] })
    exact ⟨_, e, rfl, rfl, rfl, rfl, fun _ _ _ => ⟨rfl, rfl⟩, fun k => absurd k h⟩

/-- What a submission leaves of the journal: the pending list, the skipped count and the transaction in progress apart, all of it; and
the transaction too where one is in progress, or the journal may not write (R165). -/
theorem submit_journal (r : JournalRecord) (s : State) : ∃ j, submit r s = { s with journal := j }
    ∧ j = { s.journal with pending := j.pending, skipped := j.skipped, bus := j.bus }
    ∧ (s.journal.state ≠ .writing ∨ s.area.memoryFault = true ∨ s.journal.bus ≠ none → j.bus = s.journal.bus) := by
  have stays (x : State) (h : x.journal.state ≠ .writing ∨ x.area.memoryFault = true ∨ x.journal.bus ≠ none) : pump x = x := by
    unfold pump
    refine if_pos (h.imp_right (Or.imp_right fun k => ?_))
    exact Option.isSome_iff_ne_none.2 k
  unfold submit
  split
  · obtain ⟨bus, e⟩ := pump_eq (s.modJournal (Journal.skip 1))
    refine ⟨_, e, rfl, fun h => ?_⟩
    have k := stays (s.modJournal (Journal.skip 1)) h
    rw [e] at k
    exact congrArg (·.journal.bus) k
  · obtain ⟨bus, e⟩ := pump_eq (s.modJournal fun j => { j with pending := j.pending ++ [{ r with tick := s.tickCount }] })
    refine ⟨_, e, rfl, fun h => ?_⟩
    have k := stays (s.modJournal fun j => { j with pending := j.pending ++ [{ r with tick := s.tickCount }] }) h
    rw [e] at k
    exact congrArg (·.journal.bus) k

/-- A change of engine state (R172) changes the engine, ENGINE CHANGE in EVENT, and the journal. -/
theorem setEngine_eq (n : EngineState) (s : State) : ∃ j, setEngine n s = { s with
      engine := n, attention := { s.attention with event := s.attention.event ||| BitVec.twoPow 14 12 }, journal := j }
    ∧ j.state = s.journal.state
    ∧ (s.journal.state = .writing → s.area.memoryFault = false → s.journal.pending.length < Config.pendingCapacity →
      j.pending = s.journal.pending ++
        [{ blankRecord .engineState with tick := s.tickCount, detail1 := s.engine.code, detail2 := n.code }]) := by
  obtain ⟨j, e, a, _, _, _, b, _⟩ := submit_eq { blankRecord .engineState with detail1 := s.engine.code, detail2 := n.code }
    (raise .engineChange { s with engine := n })
  exact ⟨j, e, a, fun x y z => (b x y z).1⟩

@[simp] theorem run_nil (n : Nat) (s : State) : run n [] s = s := by cases n <;> rfl

/-- One task of a run. -/
theorem run_cons (n : Nat) (t : Task) (ts : List Task) (s : State) :
    run (n + 1) (t :: ts) s = run n ((perform t s).2 ++ ts) (perform t s).1 := rfl

theorem agenda_nil (s : State) (h : s.agenda = []) : { s with agenda := [] } = s := by cases s; simp_all

/-- STOPPING is the only engine state in which the close of an event does more than the lamp commands. -/
theorem closeEvent_eq (s : State) (h : s.engine ≠ .stopping) : closeEvent s = recomputeLamps s := by
  have : (recomputeLamps s).engine = s.engine := rfl
  simp [closeEvent, settleStopping, this, h]

/-- An event without tasks, outside STOPPING. -/
theorem finish_nil (s : State) (a : s.agenda = []) (h : s.engine ≠ .stopping) : finish (s, []) = recomputeLamps s := by
  simp only [finish, a, List.append_nil, run_nil, agenda_nil s a]
  exact closeEvent_eq s h

/-- An event whose one task sets off no other. -/
theorem finish_one (s : State) (t : Task) (a : s.agenda = []) (q : (perform t s).2 = []) :
    finish (s, [t]) = closeEvent (perform t s).1 := by
  simp only [finish, a, List.nil_append, agenda_nil s a]
  have : Config.workLimit = 999999 + 1 := rfl
  rw [this, run_cons, q, List.append_nil, run_nil]

/-- An event of two tasks, the second set off by the first. -/
theorem finish_two (s : State) (t u : Task) (a : s.agenda = []) (q : (perform t s).2 = [u])
    (r : (perform u (perform t s).1).2 = []) : finish (s, [t]) = closeEvent (perform u (perform t s).1).1 := by
  simp only [finish, a, List.nil_append, agenda_nil s a]
  have : Config.workLimit = 999998 + 1 + 1 := rfl
  rw [this, run_cons, q, List.append_nil, run_cons, r, List.append_nil, run_nil]

/-- A transmitter is usable exactly where there is a drop of that kind that is READY (R87). -/
theorem usableAt_iff (s : State) (a : LineId × Nat) :
    usableAt s a = true ↔ ∃ d, drop? s a.1 a.2 = some d ∧ d.kind = .transmitter ∧ d.state = .ready := by
  unfold usableAt Drop.usable Drop.isTransmitter
  cases drop? s a.1 a.2 <;> simp

end Sys2Proof.Machine
end

