-- ==== Sys2Proof/Laws/Drops.lean ====
section
/-! SUPPORT. Laws/Drops.lean: what is read of a line and of a drop after an update of lines and drops. -/

namespace Sys2Proof.Machine

/-- What the lamp commands of an event's close make of a drop (R144). -/
def Drop.relit (s : State) (d : Drop) : Drop :=
  { d with station := d.station.map fun t =>
    { call := { t.call with commanded := callCommand s d.zone }, attend := { t.attend with commanded := attendCommand s d.zone } } }

@[simp] theorem line_mapDrops (f : Drop → Drop) (s : State) (l : LineId) :
    (s.mapDrops f).line l = { s.line l with drops := (s.line l).drops.map f } := by cases l <;> rfl

@[simp] theorem line_modDrop_same (l : LineId) (a : Nat) (f : Drop → Drop) (s : State) :
    (modDrop l a f s).line l = (s.line l).modDrop a f := by cases l <;> rfl

theorem drop?_eq (s : State) (l : LineId) (a : Nat) : drop? s l a = if a = 0 then none else (s.line l).drops[a - 1]? := rfl

/-- A drop is read from its line alone. -/
theorem drop?_congr {s t : State} {l : LineId} (h : (t.line l).drops = (s.line l).drops) (a : Nat) :
    drop? t l a = drop? s l a := by unfold drop?; rw [h]

@[simp] theorem drop?_mapDrops (f : Drop → Drop) (s : State) (l : LineId) (a : Nat) :
    drop? (s.mapDrops f) l a = (drop? s l a).map f := by
  unfold drop?
  split
  · rfl
  · simp

@[simp] theorem drop?_modDrop_same (l : LineId) (a : Nat) (f : Drop → Drop) (s : State) :
    drop? (modDrop l a f s) l a = (drop? s l a).map f := by
  unfold drop?
  split
  · rfl
  · simp [Line.modDrop]

theorem drop?_modDrop_ne {l : LineId} {a b : Nat} (h : b ≠ a) (ha : a ≠ 0) (f : Drop → Drop) (s : State) :
    drop? (modDrop l a f s) l b = drop? s l b := by
  unfold drop?
  split
  · rfl
  · simp only [line_modDrop_same, Line.modDrop, List.getElem?_modify]
    have k : a - 1 ≠ b - 1 := by omega
    simp [k]

/-- A change of a line that maps its drops. -/
theorem drop?_modLine_map (l : LineId) (f : Line → Line) (g : Drop → Drop) (s : State)
    (h : (f (s.line l)).drops = (s.line l).drops.map g) (a : Nat) :
    drop? (s.modLine l f) l a = (drop? s l a).map g := by
  unfold drop?
  split
  · rfl
  · simp [h]

/-- A change of a line that leaves its drops. -/
theorem drop?_modLine_same (l : LineId) (f : Line → Line) (s : State) (h : (f (s.line l)).drops = (s.line l).drops) (a : Nat) :
    drop? (s.modLine l f) l a = drop? s l a := drop?_congr (by simp [h]) a

@[simp] theorem drop?_recomputeLamps (s : State) (l : LineId) (a : Nat) :
    drop? (recomputeLamps s) l a = (drop? s l a).map (Drop.relit s) := drop?_mapDrops _ s l a

@[simp] theorem line_recomputeLamps (s : State) (l : LineId) :
    (recomputeLamps s).line l = { s.line l with drops := (s.line l).drops.map (Drop.relit s) } := line_mapDrops _ s l

/-- A change of a drop's state reaches the drop, the journal and EVENT (R123). -/
theorem setDropState_eq (l : LineId) (a : Nat) (new : DropState) (cause : DropCause) (s : State) (d : Drop)
    (h : drop? s l a = some d) : (setDropState l a new cause s).2 = d.handsBack.map (fun e => .handBack l a e) ∧
    (setDropState l a new cause s).1 = { modDrop l a (Drop.enter new cause) s with
      journal := (setDropState l a new cause s).1.journal
      attention := { s.attention with event := s.attention.event |||
        if new = .silent ∨ new = .isolated then BitVec.twoPow 14 10 else 0 } } := by
  unfold setDropState
  rw [h]
  dsimp only
  obtain ⟨j, e, _⟩ := submit_eq (dropStateRecord l a d.state new cause) (modDrop l a (Drop.enter new cause) s)
  refine ⟨rfl, ?_⟩
  rw [e]
  cases l <;> cases new <;> simp [raise, State.modAttention, modDrop, State.modLine, Cause.mask, Cause.bit]

/-- The drop whose state changes, and what stands beside it. -/
theorem setDropState_spec (l : LineId) (a : Nat) (new : DropState) (cause : DropCause) (s : State) (d : Drop)
    (h : drop? s l a = some d) :
    let t := (setDropState l a new cause s).1
    drop? t l a = some (d.enter new cause) ∧ t.line l = (s.line l).modDrop a (Drop.enter new cause)
      ∧ t.attention = { s.attention with event := s.attention.event |||
        if new = .silent ∨ new = .isolated then BitVec.twoPow 14 10 else 0 }
      ∧ t.agenda = s.agenda ∧ t.engine = s.engine ∧ t.calls = s.calls ∧ t.dispatcher = s.dispatcher ∧ t.roster = s.roster
      ∧ t.area = s.area ∧ t.tickCount = s.tickCount ∧ t.window = s.window ∧ t.latches = s.latches ∧ t.watch = s.watch := by
  intro t
  have e : t = _ := (setDropState_eq l a new cause s d h).2
  have q : drop? t l a = drop? (modDrop l a (Drop.enter new cause) s) l a := by
    rw [e]; exact drop?_congr (by cases l <;> rfl) a
  refine ⟨by rw [q, drop?_modDrop_same, h]; rfl, ?_, by rw [e], ?_, ?_, ?_, ?_, ?_, ?_, ?_, ?_, ?_, ?_⟩
  · rw [e]; cases l <;> rfl
  all_goals rw [e]; cases l <;> rfl

/-- The close of an exchange that no restart waits for, and whose drop has handed nothing back. -/
theorem finish_line (s : State) (l : LineId) (a : s.agenda = []) (r : (s.line l).restart = none) (h : s.engine ≠ .stopping) :
    finish (s, [.lineNext l]) = recomputeLamps s := by
  have e : perform (.lineNext l) s = (s, []) := by
    show lineNext l s = _
    unfold lineNext
    rw [r]
  rw [finish_one s _ a (by rw [e]), e, closeEvent_eq _ h]

/-- What the end of an exchange leaves before its outcome acts: the line in its gap, the countdowns lowered, the history entered
(R126, R136). -/
theorem exchange_over (l : LineId) (a : Nat) (b : Bool) (s : State) (d : Drop) (h : drop? s l a = some d) :
    let t := enterHistory l a b (lowerCountdowns l (s.modLine l fun n => { n with phase := .gap }))
    drop? t l a = some { d with
        strikes := (b :: d.strikes).take 16, countdown := if d.state = .silent then d.countdown - 1 else d.countdown }
      ∧ (t.line l).phase = .gap ∧ (t.line l).restart = (s.line l).restart ∧ (t.line l).state = (s.line l).state
      ∧ t.attention = s.attention ∧ t.agenda = s.agenda ∧ t.engine = s.engine ∧ t.calls = s.calls
      ∧ t.dispatcher = s.dispatcher ∧ t.roster = s.roster ∧ t.area = s.area ∧ t.tickCount = s.tickCount
      ∧ t.journal = s.journal := by
  intro t
  refine ⟨?_, ?_⟩
  · show drop? (enterHistory l a b _) l a = _
    unfold enterHistory lowerCountdowns
    rw [drop?_modDrop_same,
      drop?_modLine_map l _ (fun d => if d.state = .silent then { d with countdown := d.countdown - 1 } else d) _ rfl,
      drop?_modLine_same _ _ _ rfl, h]
    simp only [Option.map_some]
    by_cases k : d.state = .silent <;> simp [k]
  · cases l <;> exact ⟨rfl, rfl, rfl, rfl, rfl, rfl, rfl, rfl, rfl, rfl, rfl, rfl⟩

end Sys2Proof.Machine
end

