-- ==== Sys2Proof/WellFormed.lean ====
section
/-! DEFINITION. WellFormed.lean: the operands a row of the table admits (12_layouts.md gives the lengths of what a read
returns; 00_scope.md, Numbering, the ranges of indexes). A term that is not well formed stands for no command; the
meanings are total on it all the same. -/

namespace Sys2Proof

/-- The bytes of the four tables lie in whole entries of 4, 36, 36 and 8 bytes (12.4). -/
def wholeTables (zones crews ladders roster : List Byte) : Bool :=
  zones.length % 4 == 0 && crews.length % 36 == 0 && ladders.length % 36 == 0 && roster.length % 8 == 0

/-- A delivery record's key names a context and a member that exist (R83, R105). -/
def RecordKey.wellFormed (k : RecordKey) : Bool :=
  k.tag < 65536 && k.tag % 128 ≤ 64 && k.member < 512

/-- The operands stand in the ranges the spec gives them. -/
def Instr.wellFormed : Instr → Bool
  | .fullReset => true
  | .start _ => true
  | .pause _ => true
  | .resume _ => true
  | .stop _ => true
  | .resetEngine _ => true
  | .commandNone _ => true
  | .nudge => true
  | .areaBaseWrite _ _ => true
  | .attentionEventWrite _ => true
  | .attentionMaskWrite _ => true
  | .attentionForceWrite _ => true
  | .registerWriteNoEffect _ _ => true
  | .tick => true
  | .rungDeadlineExpiry c => c ≤ 64
  | .turnExpiry c => c ≤ 64
  | .firstArrivalWindowExpiry c => c ≤ 64
  | .secondArrivalWindowExpiry c => c ≤ 64
  | .receiptWindowExpiry k => k.wellFormed
  | .remindIntervalExpiry c m => c ≤ 64 && m < 512
  | .retryWindowExpiry k => k.wellFormed
  | .scanTimerExpiry => true
  | .stoppingLimitExpiry => true
  | .busErrorCompletion _ => true
  | .busCompletionTimeout _ => true
  | .loadHeaderReadDone d => d.length == 256
  | .loadSettingsReadDone d => d.length == 128
  | .loadTablesReadDone z c l r => wholeTables z c l r
  | .loadSlotBaselineReadDone hs => hs.all (·.length == 64) && hs.length % 16 == 0
  | .loadSlotWriteDone => true
  | .loadHeaderWriteDone => true
  | .scanHeaderReadDone d => d.length == 32
  | .reloadDirectoryReadDone d => d.length == 32
  | .reloadTablesReadDone z c l r => wholeTables z c l r
  | .reloadGenerationReadDone _ => true
  | .slotHostReadDone d => d.length == 64
  | .descriptorStateReadDone d => d.length == 24
  | .slotImageWriteDone => true
  | .memberEntryWriteDone => true
  | .dropEntryWriteDone => true
  | .headerDeviceWriteDone => true
  | .descriptorTakeReadDone d => d.length == 24
  | .descriptorTakeWriteDone => true
  | .journalRecordWriteDone => true
  | .fillCountWriteDone => true
  | .descriptorCloseWriteDone => true
  | .breakEnd _ => true
  | .restartWaitEnd _ => true
  | .restartFrameWaitEnd _ => true
  | .exchangeStart _ => true
  | .downFrameEnd _ => true
  | .replyStart _ turn => turn ≤ 1023
  | .replyComplete _ f => 9 ≤ f.length && f.length ≤ 73
  | .replyTimeout _ => true
  | .probeTimeout _ => true
  | .replySlotEnd _ => true
  | .emptySlotEnd _ => true
  | .controlWriteUndefinedCommand code _ => 6 ≤ code.toNat
  | .replyNotSync _ => true

end Sys2Proof
end

