-- ==== Sys2Proof/Tests/Slice0.lean ====
section
/-! SUPPORT. Tests/Slice0.lean: the tests of the model's own author: the WellFormed checks, the worked values of the spec, and for each
statement of Certificates/Slice0/Obligations.lean that has hypotheses a concrete state that meets them, clause by clause. -/

namespace Sys2Proof.Tests

open Sys2Proof Sys2Proof.Machine

/-! ## WellFormed: an ill-formed term for each check -/

theorem test_wellFormed_context_above_64 : (Instr.rungDeadlineExpiry 65).wellFormed = false
    ∧ (Instr.turnExpiry 65).wellFormed = false ∧ (Instr.firstArrivalWindowExpiry 65).wellFormed = false
    ∧ (Instr.secondArrivalWindowExpiry 65).wellFormed = false ∧ (Instr.remindIntervalExpiry 65 0).wellFormed = false := by decide

theorem test_wellFormed_member_above_511 : (Instr.remindIntervalExpiry 0 512).wellFormed = false := by decide

theorem test_wellFormed_record_key : (Instr.receiptWindowExpiry { tag := 65, member := 0, kind := .page }).wellFormed = false
    ∧ (Instr.receiptWindowExpiry { tag := 65536, member := 0, kind := .page }).wellFormed = false
    ∧ (Instr.retryWindowExpiry { tag := 0, member := 512, kind := .page }).wellFormed = false
    ∧ (Instr.retryWindowExpiry { tag := 65408, member := 511, kind := .remind }).wellFormed = true := by decide

theorem test_wellFormed_read_lengths : (Instr.loadHeaderReadDone []).wellFormed = false
    ∧ (Instr.loadSettingsReadDone [0]).wellFormed = false ∧ (Instr.scanHeaderReadDone []).wellFormed = false
    ∧ (Instr.reloadDirectoryReadDone []).wellFormed = false ∧ (Instr.slotHostReadDone []).wellFormed = false
    ∧ (Instr.descriptorStateReadDone []).wellFormed = false ∧ (Instr.descriptorTakeReadDone []).wellFormed = false := by decide

theorem test_wellFormed_tables : (Instr.loadTablesReadDone [0] [] [] []).wellFormed = false
    ∧ (Instr.loadTablesReadDone [] [0] [] []).wellFormed = false ∧ (Instr.reloadTablesReadDone [] [] [0] []).wellFormed = false
    ∧ (Instr.reloadTablesReadDone [] [] [] [0]).wellFormed = false := by decide

theorem test_wellFormed_slot_hosts : (Instr.loadSlotBaselineReadDone [[]]).wellFormed = false := by decide

theorem test_wellFormed_turn_above_1023 : (Instr.replyStart .l0 1024).wellFormed = false := by decide

theorem test_wellFormed_reply_length : (Instr.replyComplete .l0 (List.replicate 8 0)).wellFormed = false
    ∧ (Instr.replyComplete .l0 (List.replicate 74 0)).wellFormed = false := by decide

theorem test_wellFormed_defined_code : (Instr.controlWriteUndefinedCommand 5 false).wellFormed = false := by decide

/-! ## Worked values of the spec -/

set_option maxRecDepth 20000 in
/-- R127: the CRC-16 with initial value 0xFFFF and no final inversion, whose check value for "123456789" is 0x29B1. -/
theorem test_crc_check_value :
    crc16 [0x31#8, 0x32#8, 0x33#8, 0x34#8, 0x35#8, 0x36#8, 0x37#8, 0x38#8, 0x39#8] = 0x29B1#16 := by decide

/-- The worked table of R125. -/
theorem test_reply_timeout_table : replyTimeoutOf 37 = 94 ∧ replyTimeoutOf 12 = 60 ∧ replyTimeoutOf 20 = 60
    ∧ replyTimeoutOf 290 = 600 ∧ replyTimeoutOf 500 = 600 := by decide

/-- The two clamps of R49, and its rounding up. -/
theorem test_window_length_bounds : windowLength 1 50 50 = 50 ∧ windowLength 3600 400 150 = 36000 ∧ windowLength 301 50 75 = 1129 := by
  decide

/-- The fills of R130: CANCEL, PAGE, PAGE, PAGE, PAGE at room 8 stops at four entries of 132 bytes. -/
theorem test_fill_stops_at_four :
    let m (k : MessageKind) (n : Word) : AirEntry :=
      { message := controlMessage k 0 0 101 0 none, urgency := 0, order := n, carriage := .control .first none none }
    (fillSet (min 4 8) 160 [m .cancel 0, m .page 1, m .page 2, m .page 3, m .page 4]).length = 4 := by decide

/-- Sequence: a POLL frame to address 5 with no messages, byte by byte up to its CRC (12.8). -/
theorem test_poll_frame_bytes : (downFrame 0 5 true false 0 []).take 6 = [0xC3#8, 0x5A#8, 5#8, 16#8, 0#8, 0#8]
    ∧ (downFrame 0 5 true false 0 []).length = 8 := by decide

/-- R120: a byte takes ten bit times, the start bit first and the least significant data bit next. -/
theorem test_byte_levels :
    byteLevels 0xC3#8 = [false, true, true, false, false, false, false, true, true, true] := by decide

/-- No row of the opcode table gives bits, so that no word spells a command. -/
theorem test_no_word_spells_a_command : decodeTableWord 32 0 = none ∧ State.reset.withFetchWord 32 0 = State.reset := by decide

/-! ## A small state of a run -/

/-- Two zones of reach 100, one crew of members 0 and 1, one ladder of one HOLD rung that rotates through it, and two members. -/
def tables : Tables where
  zones := [{ reach := 100, enabled := true }, { reach := 100, enabled := true }]
  crews := [{ count := 2, indexes := [0, 1] }]
  ladders := [{
    rungCount := 1, stopRung := some 0, repeatLimit := 0, arrivalClass := 0
    rungs := [{ kind := 1, number := 0, windowClass := 0, last := true, hold := true, rep := false }] }]
  roster := [{ pager := 101, home := 1, onShift := true }, { pager := 102, home := 1, onShift := true }]

def settings : Settings :=
  { Settings.empty with
    scanPeriod := 5, receiptWindow := 30, remindInterval := 300, remindLimit := 2, breakIn := true, locationAge := 3000
    minimumTurn := 50, plantReach := 100, pressMinimum := 1, windowTable := List.replicate 16 60 }

/-- A page of context 0's call to member 0, with its turn and its deadline due at tick 1000 and later. -/
def paged : Context :=
  { Context.empty with
    state := .paging, severity := 1, zone := 1, deadline := .running 1000, turn := .running 1000, mode := .rotate
    turnMember := some 0, turnCount := 2, turnLength := 50, madeCurrent := [0], slot := some 0
    contacted := [{ Contact.blank 0 0 0 with current := true, breakIn := true, remind := .running 1000 }] }

/-- The same call, accepted by member 0, in its first or its second arrival window. -/
def accepted (count : Nat) : Context :=
  { paged with state := .accepted, accepter := some 0, deadline := .stopped, turn := .stopped, arrival := .running 1000
               arrivalCount := count }

/-- A state of a run at tick 1000 with one call. -/
def running (k : Context) : State :=
  { State.reset with
    engine := .running, tickCount := 1000
    roster := { settings := settings, tables := tables, members := List.replicate 2 .empty, pointers := [0] }
    calls := { contexts := k :: List.replicate 64 .empty, backlog := [] }
    area := { AreaController.empty with
      directory := { AreaController.empty.directory with
        slots := { count := 16, offset := 4096 }, memberMirror := { count := 2, offset := 8192 }
        dropMirror := { count := 32, offset := 12288 }, descriptors := { count := 2, offset := 16384 } }
      slots := List.replicate 16 (.emptyWith 0 0) } }

/-- With a transaction of the Area Controller in progress. -/
def withArea (op : AreaOp) (s : State) : State := areaIssue (readTransaction op []) s

/-- With a transaction of the Journal Writer in progress. -/
def withJournal (j : JournalState) (op : JournalOp) (s : State) : State :=
  { s with journal := { Journal.empty with state := j, capacity := 4, bus := some (readTransaction op []) } }

/-- A drop of a kind in a state. -/
def drop (k : DropKind) (st : DropState) : Drop :=
  { Drop.fresh { kind := k, zone := 1 } with state := st, replyTimeout := 60, room := 8 }

/-- Line 0 RUNNING in a phase with one drop. -/
def onLine (p : LinePhase) (d : Drop) : State :=
  let s := running paged
  { s with line0 := { Line.empty with state := .running, phase := p, drops := [d] } }

/-- An exchange with address 1. -/
def exchange (isProbe : Bool) : Exchange where
  address := 1
  isProbe := isProbe
  carriesSet := !isProbe
  sameCall := false
  sameAttend := false
  turn := 20
  frame := []

/-- A transmitter's reply at address 1 with room 3, taken bit and up bit as given, and no reports. -/
def reply (bits : Byte) : List Byte := frameOf [1#8, 1#8, 3#8, bits, 0#8]

/-- A control message in an in-flight set. -/
def control : AirEntry where
  message := controlMessage .cancel 0 0 101 0 none
  urgency := 500
  order := 7
  carriage := .control .first none none

/-- A copy of a PAGE of context 0's call at a stage, under record 0. -/
def carried (st : Stage) : AirEntry where
  message := { controlMessage .page 0 0 101 0 none with severity := 1 }
  urgency := 4000
  order := 8
  carriage := .delivery 0 st

/-- The record of that PAGE, with copies at the drops of line 0 given, the first of them DEFERRED and another TAKEN; its retry window is
due. -/
def carriedRecord (st : Stage) (receipt : Window) (copies : List Nat) : Delivery where
  serial := 0
  key := { tag := 0, member := 0, kind := .page }
  message := (carried st).message
  stage := st
  isPending := false
  pendingOrder := 0
  copies := copies.map fun i => { line := .l0, drop := i + 1, state := if i = copies.headD 0 then .deferred else .taken }
  receipt := receipt
  retry := .running 1000
  noRouteUsed := false

/-- Line 0 with transmitters in some states, the first of zone 1 and the next of zone 2. -/
def transmitters (states : List DropState) (s : State) : State :=
  let drops : List Drop := states.zipIdx.map fun p => { drop .transmitter p.1 with zone := p.2 + 1 }
  { s with line0 := { Line.empty with state := .running, phase := .gap, drops := drops } }

/-- A state with that record and transmitters. -/
def carrying (st : Stage) (receipt : Window) (states : List DropState) : State :=
  transmitters states { running paged with
    dispatcher := { records := [carriedRecord st receipt [0]], order := 9, serial := 1, pendingCount := 0 } }

/-! ## Witnesses: the register window and the engine's commands -/

theorem witness_areaBaseWrite : State.reset.engine = .idle ∧ (running paged).engine ≠ .idle ∧ (running paged).engine ≠ .failed := by decide

theorem witness_refusedCommands : (running paged).engine ∉ [.idle, .failed] ∧ State.reset.engine ≠ .running
    ∧ State.reset.engine ≠ .paused ∧ State.reset.engine ∉ [.loading, .running, .paused] := by decide

theorem witness_nudge : State.reset.engine ∉ [.running, .paused] ∧ (running paged).engine ∈ [.running, .paused]
    ∧ (running paged).area.scanInFlight = false
    ∧ { (running paged).area with scanInFlight := true }.scanInFlight = true := by decide

theorem witness_start : State.reset.engine = .idle ∧ State.reset.agenda = [] ∧ { State.reset with engine := .failed }.engine = .failed := by
  decide

/-- A journal that writes, with a transaction in progress and 63 records pending or 64, one that is OFF, and one that may not write. -/
theorem witness_pause :
    let s (n : Nat) : State := (withJournal .writing .takeRead (running paged)).modJournal fun j => { j with
      pending := List.replicate n (blankRecord .held) }
    let f : State := (s 0).modArea fun a => { a with memoryFault := true }
    (∀ n, (s n).engine = .running ∧ (s n).agenda = [] ∧ (s n).journal.state = .writing ∧ (s n).area.memoryFault = false
      ∧ (s n).journal.bus ≠ none)
    ∧ (s 63).journal.pending.length < 64 ∧ 64 ≤ (s 64).journal.pending.length ∧ (running paged).journal.state ≠ .writing
    ∧ f.area.memoryFault = true := by
  intro s f
  exact ⟨fun n => ⟨rfl, rfl, rfl, rfl, by intro h; cases h⟩, by decide, by decide, by decide, rfl⟩

/-- Windows frozen with 1 tick, and with the most that the difference of two ticks tells from the past. -/
theorem witness_resume :
    let k : Context := { paged with deadline := .frozen 1, turn := .frozen 2147483647, contacted := [] }
    let s : State := { running k with engine := .paused }
    s.engine = .paused ∧ s.agenda = [] ∧ s.calls.backlog = [] ∧ s.calls.contexts.length = 65
      ∧ (∀ k ∈ s.calls.contexts, k.deadline.runsOn ∧ k.turn.runsOn ∧ k.arrival.runsOn ∧ ∀ e ∈ k.contacted, e.remind.runsOn)
      ∧ ∀ r ∈ s.dispatcher.records, r.receipt.runsOn ∧ r.retry.runsOn ∧ r.isPending = false := by
  intro k s
  refine ⟨rfl, rfl, rfl, by decide, ?_, fun r m => absurd m List.not_mem_nil⟩
  intro c m
  rcases List.mem_cons.1 m with rfl | m
  · exact ⟨by decide, by decide, trivial, fun e h => absurd h List.not_mem_nil⟩
  · rw [List.eq_of_mem_replicate m]
    exact ⟨trivial, trivial, trivial, fun e h => absurd h List.not_mem_nil⟩

/-- A post of severity 3 in the backlog for a slot. -/
def waiting (slot : Nat) : Waiting where
  slot := slot
  severity := 3
  order := 0
  callNumber := 5
  zone := 1
  ladder := 0
  origin := 0
  text := []

/-- A state of a run with a post that waits for slot 14, too. -/
def withWaiting (k : Context) : State := (running k).modCalls fun c => { c with backlog := [waiting 14] }

/-- Slot 0 with a call in a context, slot 14 with one that waits, and a transaction in progress. -/
theorem witness_stop :
    let s := withArea (.slotHost 0) (withWaiting paged)
    s.engine = .running ∧ s.agenda = [] ∧ s.calls.contexts.length = 65 ∧ { s with engine := .paused }.engine = .paused
      ∧ s.area.finalScan = false ∧ s.area.bus ≠ none ∧ 0 < s.area.slots.length ∧ (contextOfSlot s 0).isSome = true
      ∧ 14 < s.area.slots.length ∧ isWaiting s 14 = true := by decide

/-- Room for the records of an ending, of a STOP and of an ATTEND press; the accepter, a member who has neither declined nor been cancelled
and one who has declined, at an end by the member and by another; and a waiting call of a slot that no context holds. -/
theorem witness_endings :
    let e (m : Nat) (declined : Bool) : Contact := { Contact.blank m 0 0 with declined := declined }
    let k : Context := { accepted 1 with contacted := [e 0 false, e 1 false, e 2 true] }
    let s : State := { withWaiting k with journal := { Journal.empty with state := .writing } }
    hasRoom s ((context s 0).contacted.length + 3)
    ∧ hasRoom s (1 + s.calls.backlog.length
      + ((s.calls.contexts.filter fun k => k.state ≠ .free).map fun k => k.contacted.length + 1).sum)
    ∧ (context s 0).state ≠ .free ∧ contextOfSlot s 14 = none
    ∧ s.calls.backlog.find? (fun v => v.slot == 14) = some (waiting 14)
    ∧ (context s 0).contact 0 = some (e 0 false) ∧ (context s 0).contact 1 = some (e 1 false)
    ∧ isSentEndCancel k .clearedByStation (e 0 false) ∧ ¬isSentEndCancel k .clearedByMember (e 0 false)
    ∧ isSentEndCancel k .clearedByMember (e 1 false) ∧ ¬isSentEndCancel k .withdrawn (e 2 true) := by decide

/-- A window with no ticks left, which is due as it restarts; a record that is PENDING; and a backlog whose head finds the lowest FREE
context, with no context FREE, and while PAUSED. -/
theorem witness_resumeRest :
    let k : Context := { paged with deadline := .frozen 0 }
    let s : State := { running k with engine := .paused }
    let w : State := (running paged).modCalls fun c => { c with backlog := [waiting 14, waiting 15] }
    s.engine = .paused ∧ (Window.frozen 0).thaw 1000 = .running 1000 ∧ (Window.running 1000).due 1000 = true ∧ (0 : Nat) < 2147483648
      ∧ (context (running paged) 0).deadline.due (running paged).tickCount = true
      ∧ (context (running paged) 0).turn.due (running paged).tickCount = true
      ∧ (∀ n ∈ [1, 2], (context (running (accepted n)) 0).arrival.due 1000 = true ∧ (context (running (accepted n)) 0).arrivalCount = n)
      ∧ w.engine = .running ∧ w.calls.backlog = [waiting 14, waiting 15] ∧ (context w 1).state = .free ∧ 1 < w.calls.contexts.length
      ∧ (∀ d, d < 1 → (context w d).state ≠ .free) ∧ (waiting 14).slot < w.area.slots.length
      ∧ ladderUsable w.roster.tables (waiting 14).ladder = true ∧ ladderUsable w.roster.tables 1 = false
      ∧ s.calls.backlog = []
      ∧ ∀ c, c < 64 → (context (w.modCalls fun x => { x with contexts := List.replicate 65 paged }) c).state ≠ .free := by
  decide

/-! ## Witnesses: time -/

theorem witness_tick : (running paged).engine ∈ [.loading, .running, .paused, .stopping] ∧ State.reset.engine ∈ [.idle, .failed] := by
  decide

/-- Each window runs out one tick later than the present one. -/
theorem witness_expiriesNotDue :
    let k : Context := { paged with deadline := .running 1001, turn := .frozen 0, arrival := .running 1001 }
    let s : State := running k
    (context s 0).deadline.due s.tickCount = false ∧ (context s 0).turn.due s.tickCount = false
      ∧ (context s 0).arrival.due s.tickCount = false ∧ (context s 0).contact 1 = none
      ∧ deliveryOf s { tag := 0, member := 0, kind := .page } = none ∧ s.area.scanTimer = none ∧ s.area.stopLimit = none
      ∧ reached s.tickCount 1001 = false := by decide

/-- A zone of the plant, zones 1 and 2 of the table, a reading at the clamps, and a call of context 0 that pages. -/
theorem witness_windowLength :
    reachPercent (running paged) 0 = 100 ∧ (1 : Nat) ≠ 0
      ∧ (running paged).roster.tables.zones[1 - 1]? = some { reach := 100, enabled := true }
      ∧ (running paged).roster.tables.zones[2 - 1]? = some { reach := 100, enabled := true }
      ∧ windowLength 3600 400 150 = 36000 ∧ 3600 * 10 * 400 * 150 < 2 ^ 32
      ∧ 0 < (running paged).calls.contexts.length ∧ (context (running paged) 0).state = .paging
      ∧ (running paged).engine = .running := by decide

theorem witness_deadline : (running paged).agenda = [] ∧ (running paged).engine ≠ .stopping
    ∧ (context (running paged) 0).state = .paging
    ∧ (context (running paged) 0).deadline.due (running paged).tickCount = true
    ∧ (callRung (running paged) (context (running paged) 0)).hold = true := by decide

theorem ok_noRecords (s : State) (h : s.dispatcher.records = []) : s.dispatcher.ok := by
  unfold Dispatcher.ok
  rw [h]
  exact ⟨List.nodup_nil, List.nodup_nil, fun r m => absurd m List.not_mem_nil⟩

/-- 49 ticks left of the deadline, and 50, with a minimum turn of 50. -/
theorem witness_turn :
    let s (n : Tick) : State := running { paged with deadline := .running n }
    (∀ n, (s n).dispatcher.ok) ∧ (s 0).agenda = [] ∧ (s 0).engine = .running ∧ (context (s 0) 0).state = .paging
      ∧ (context (s 0) 0).mode = .rotate ∧ (context (s 0) 0).turn.due (s 0).tickCount = true
      ∧ (context (s 1049) 0).deadline.remaining (s 1049).tickCount < (s 1049).roster.settings.minimumTurn
      ∧ (callRung (s 1049) (context (s 1049) 0)).hold = true
      ∧ (s 1050).roster.settings.minimumTurn ≤ (context (s 1050) 0).deadline.remaining (s 1050).tickCount
      ∧ rotationGoesOn (s 1050) (context (s 1050) 0) = true ∧ nextTurnMember (s 1050) 0 = some 1 := by
  intro s
  exact ⟨fun n => ok_noRecords _ rfl, by decide⟩

/-- A call that pages on a rung of a ladder without HOLD: two MEMBER rungs for member 1, stop rung 0, the last with REPEAT once. -/
def climbing (rung pass : Nat) : State :=
  let member : Rung := { kind := 3, number := 1, windowClass := 0, last := false, hold := false, rep := true }
  let l : Ladder := { rungCount := 2, stopRung := some 0, repeatLimit := 1, arrivalClass := 0, rungs := [member, member] }
  (running { paged with rung := rung, pass := pass }).modRoster fun r => { r with tables := { tables with ladders := [l] } }

/-- The rung below the effective last, the last with a repeat left, and the last with none. -/
theorem witness_movesOn :
    let l (r p : Nat) : Ladder := callLadder (climbing r p) (context (climbing r p) 0)
    (∀ r p, (climbing r p).dispatcher.ok ∧ (climbing r p).agenda = [] ∧ (climbing r p).engine = .running
      ∧ (climbing r p).calls.backlog = [] ∧ (context (climbing r p) 0).state = .paging ∧ (context (climbing r p) 0).rung = r
      ∧ (context (climbing r p) 0).mode = .rotate ∧ (context (climbing r p) 0).pass = p)
    ∧ (∀ r ∈ [0, 1], (context (climbing r 0) 0).deadline.due 1000 = true ∧ (context (climbing r 0) 0).turn.due 1000 = true
      ∧ (callRung (climbing r 0) (context (climbing r 0) 0)).hold = false
      ∧ rotationGoesOn (climbing r 0) (context (climbing r 0) 0) = false ∧ ((l r 0).rung 0).kind = 3)
    ∧ 0 < (l 0 0).effectiveLast ∧ (l 1 0).effectiveLast ≤ 1 ∧ ((l 1 0).rung (l 1 0).effectiveLast).rep = true
    ∧ 0 < (l 1 0).repeatLimit ∧ (l 1 1).repeatLimit ≤ 1 ∧ 1 < (climbing 0 0).roster.tables.roster.length
    ∧ onDuty (climbing 0 0).roster.tables 1 = true ∧ (member (climbing 0 0) 1).engaged = none
    ∧ (context (climbing 0 0) 0).contact 1 = none ∧ 0 < (climbing 0 0).calls.contexts.length := by
  intro l
  exact ⟨fun r p => ⟨ok_noRecords _ rfl, rfl, rfl, rfl, rfl, rfl, rfl, rfl⟩, by decide⟩

/-- A rotation that has made 15 members current and 16, of a crew of the table, of one past it, and a rung of another kind. -/
theorem witness_rotationGoesOn :
    let k (n : Nat) : Context := { paged with madeCurrent := List.range n }
    let crew (n : Nat) : State := (running paged).modRoster fun r => { r with tables := { r.tables with crews := r.tables.crews.take n } }
    rotationGoesOn (crew 1) (k 15) = true ∧ rotationGoesOn (crew 1) (k 16) = false ∧ rotationGoesOn (crew 0) (k 15) = false
      ∧ (callRung (crew 1) (k 15)).kind = 1 ∧ rotationGoesOn (climbing 0 0) (k 15) = false := by decide

/-- A call on a rung above the effective last one of a reloaded ladder, with HOLD on every rung and the stop rung above as well: the rung
does not hold, and its rotation does not go on; and one on the effective last rung, which holds. -/
theorem witness_rungAbove :
    let s (count kind : Nat) : State := (climbing 1 0).modRoster fun r => { r with tables := { r.tables with ladders := [{
      rungCount := count, stopRung := some 1, repeatLimit := 0, arrivalClass := 0
      rungs := List.replicate 2 { kind := kind, number := 0, windowClass := 0, last := false, hold := true, rep := false } }] } }
    (callLadder (s 1 1) (context (s 1 1) 0)).effectiveLast < (context (s 1 1) 0).rung ∧ ¬holdsAtEnd (s 1 1) 0 ∧ holdsAtEnd (s 2 1) 0
      ∧ rotationGoesOn (s 1 1) (context (s 1 1) 0) = false ∧ rotationGoesOn (s 2 1) (context (s 2 1) 0) = true
      ∧ (callLadder (s 1 1) (context (s 1 1) 0)).stopRung = some (context (s 1 1) 0).rung
      ∧ (context (s 1 1) 0).state = .paging ∧ (context (s 1 1) 0).deadline.due (s 1 1).tickCount = true := by decide

/-- The turn of a member of the crew and of one who has left it, before a reload and after it, and a rotation that has reached both. -/
theorem witness_nextTurn :
    let s (w : Nat) (reloaded : Bool) (made : List Nat) : State := running { paged with
      deadline := .running 1050, turnMember := some w, reloaded := reloaded, madeCurrent := made }
    let list := crewList (s 0 false []).roster.tables 0
    (∀ w b l, (context (s w b l) 0).turnMember = some w ∧ (context (s w b l) 0).reloaded = b
      ∧ (callRung (s w b l) (context (s w b l) 0)).number = 0 ∧ (context (s w b l) 0).firstPosition = 0)
    ∧ 0 < list.length ∧ 0 ∈ list ∧ 5 ∉ list ∧ nextTurnMember (s 0 false [0]) 0 = some 1 ∧ nextTurnMember (s 0 false [0, 1]) 0 = none
    ∧ nextTurnMember (s 1 true [1]) 0 = some 0 ∧ nextTurnMember (s 5 true [5]) 0 = some 0 := by
  intro s list
  exact ⟨fun w b l => ⟨rfl, rfl, rfl, rfl⟩, by decide⟩

/-- An accepter with a pager and one whose pager address is 0, with the journal WRITING. -/
theorem witness_firstArrival :
    let s (pager : Nat) : State := { ((running (accepted 1)).modRoster fun r => { r with tables := { r.tables with
      roster := [{ pager := pager, home := 1, onShift := true }] } }) with journal := { Journal.empty with state := .writing } }
    (∀ n, (s n).dispatcher.ok ∧ (s n).agenda = [] ∧ (s n).engine = .running ∧ (s n).journal.state = .writing
      ∧ (s n).area.memoryFault = false ∧ (s n).journal.pending = [])
    ∧ (∀ n ∈ [0, 101], (context (s n) 0).accepter = some 0 ∧ (context (s n) 0).arrival.due (s n).tickCount = true
      ∧ (context (s n) 0).arrivalCount = 1)
    ∧ effectivePager (s 101).roster.tables 0 ≠ 0 ∧ effectivePager (s 0).roster.tables 0 = 0 := by
  intro s
  exact ⟨fun n => ⟨ok_noRecords _ rfl, rfl, rfl, rfl, rfl, rfl⟩, by decide⟩

theorem witness_secondArrival :
    let s := running (accepted 2)
    s.agenda = [] ∧ s.engine ≠ .stopping ∧ s.calls.backlog = [] ∧ (context s 0).state = .accepted
      ∧ (context s 0).accepter = some 0 ∧ (context s 0).arrival.due s.tickCount = true ∧ (context s 0).arrivalCount = 2
      ∧ (callLadder s (context s 0)).effectiveLast ≤ (context s 0).acceptRung
      ∧ ¬repeatsOnce (callLadder s (context s 0)) (context s 0) := by decide

/-- The same with REPEAT on the effective last rung and the pass count at the repeat limit. -/
theorem witness_secondArrival_repeatLimit :
    let last : Rung := { kind := 3, number := 0, windowClass := 0, last := true, hold := false, rep := true }
    let s : State := (running { accepted 2 with pass := 3 }).modRoster fun r => { r with tables := { tables with
      ladders := [{ rungCount := 1, stopRung := none, repeatLimit := 3, arrivalClass := 0, rungs := [last] }] } }
    s.agenda = [] ∧ s.engine ≠ .stopping ∧ s.calls.backlog = [] ∧ (context s 0).state = .accepted
      ∧ (context s 0).accepter = some 0 ∧ (context s 0).arrival.due s.tickCount = true ∧ (context s 0).arrivalCount = 2
      ∧ (callLadder s (context s 0)).effectiveLast ≤ (context s 0).acceptRung
      ∧ ((callLadder s (context s 0)).rung (callLadder s (context s 0)).effectiveLast).rep = true
      ∧ ¬repeatsOnce (callLadder s (context s 0)) (context s 0) := by decide

/-- A record of an ARRIVAL CHECK in a stage, with windows that have run out. -/
def record (st : Stage) (used : Bool) : Delivery where
  serial := 0
  key := { tag := 0, member := 0, kind := .arrivalCheck }
  message := controlMessage .arrivalCheck 0 0 101 0 none
  stage := st
  isPending := false
  pendingOrder := 0
  copies := []
  receipt := .running 1000
  retry := .running 1000
  noRouteUsed := used

def withRecord (r : Delivery) : State :=
  { running paged with dispatcher := { records := [r], order := 0, serial := 1, pendingCount := 0 } }

theorem ok_oneRecord (r : Delivery) (h : r.serial = 0) : (withRecord r).dispatcher.ok :=
  ⟨List.nodup_singleton _, List.nodup_singleton _, fun x m => by
    rw [List.mem_singleton.1 m, h]
    exact Nat.zero_lt_one⟩

theorem witness_receipt :
    let s := withRecord (record .home false)
    let t := withRecord (record .plant true)
    s.agenda = [] ∧ s.engine = .running ∧ s.dispatcher.ok ∧ t.dispatcher.ok
      ∧ deliveryOf s (record .home false).key = some (record .home false)
      ∧ (record .home false).receipt.due s.tickCount = true ∧ (∀ a, usableAt s a = false)
      ∧ deliveryOf t (record .plant true).key = some (record .plant true) ∧ (record .plant true).receipt.due t.tickCount = true := by
  refine ⟨rfl, rfl, ok_oneRecord _ rfl, ok_oneRecord _ rfl, by decide, by decide, ?_, by decide, by decide⟩
  rintro ⟨l, a⟩
  cases l <;> (unfold usableAt drop?; split <;> rfl)

/-- The transmitters at addresses 1 and 2 of line 0 are the usable ones. -/
theorem usable_two (st : Stage) (w : Window) (a : LineId × Nat) :
    usableAt (carrying st w [.ready, .ready]) a = true ↔ a ∈ [(LineId.l0, 1), (.l0, 2)] := by
  rcases a with ⟨l, n⟩
  have : ∀ n, n < 3 → ∀ l, (usableAt (carrying .home .stopped [.ready, .ready]) (l, n) = true ↔ (l, n) ∈ [(LineId.l0, 1), (.l0, 2)]) := by
    intro n h l
    cases l <;> revert n <;> decide
  by_cases h : n < 3
  · exact this n h l
  · obtain ⟨n, rfl⟩ : ∃ m, n = m + 3 := ⟨n - 3, by omega⟩
    cases l <;> simp [usableAt, drop?, State.line, carrying, transmitters, running, State.reset, Line.empty]

/-- A record at each stage, with the member heard last in zone 2, and in none: the zone transmitters of zones 1 and 2, the first of them in
the member's home zone; every usable transmitter in the order of R87's search; PAUSE; and no transmitter, with the retry used and not. -/
theorem witness_stages :
    let s (st : Stage) : State := carrying st .stopped [.ready, .ready]
    let heard : State := (s .lastHeard).modRoster fun r => { r with members := r.members.modify 0 fun x => { x with
      lastZone := some 2, lastTick := 1000 } }
    let place : Nat → LineId × Nat := fun i => if i < 16 then (.l0, i + 1) else (.l1, i - 15)
    let isOf (s : State) (z i : Nat) : Bool := (drop? s (place i).1 (place i).2).any fun d => d.kind == .transmitter && d.zone == z
    let none' : State := carrying .plant .stopped []
    (∀ st, delivery? (s st) 0 = some (carriedRecord st .stopped [0]) ∧ (s st).engine ≠ .paused)
    ∧ (∀ used, (record .plant used).noRouteUsed = used)
    ∧ (∀ a : LineId × Nat, a ∈ [(LineId.l0, 1), (.l0, 2)] ↔ ∃ d, drop? (s .plant) a.1 a.2 = some d ∧ d.kind = .transmitter ∧ d.state = .ready)
    ∧ (∀ a : LineId × Nat, ¬∃ d, drop? none' a.1 a.2 = some d ∧ d.kind = .transmitter ∧ d.state = .ready)
    ∧ [(LineId.l0, 1), (.l0, 2)].Sublist ((List.range 32).map place)
    ∧ (∀ d ∈ (s .home).line0.drops ++ (s .home).line1.drops, d.queue = [])
    ∧ { s .home with engine := .paused }.engine = .paused
    ∧ (member heard 0).lastZone = some 2 ∧ 2 ≠ homeZone heard.roster.tables 0 ∧ usableAt heard (.l0, 2) = true
    ∧ place 1 = (.l0, 2) ∧ isOf heard 2 1 = true ∧ isOf heard 2 0 = false
    ∧ (heard.tickCount - (member heard 0).lastTick).toNat ≤ heard.roster.settings.locationAge
    ∧ (member (s .home) 0).lastZone = none ∧ homeZone (s .home).roster.tables 0 = 1 ∧ (1 : Nat) ≠ 0
    ∧ usableAt (s .home) (.l0, 1) = true ∧ place 0 = (.l0, 1) ∧ isOf (s .home) 1 0 = true := by
  intro s heard place isOf none'
  refine ⟨fun st => ⟨rfl, by intro h; cases h⟩, fun _ => rfl, fun a => ?_, fun a h => ?_, by decide⟩
  · rw [← usableAt_iff, usable_two]
  · rw [← usableAt_iff] at h
    rcases a with ⟨l, n⟩
    rcases l with _ | _ <;> cases n <;> exact Bool.noConfusion h

/-- A PAGE unreached whose member is current with another in a CREW-ALL rung, and one whose member is not current. -/
theorem witness_unreached :
    let e : Contact := { Contact.blank 0 0 0 with current := true, breakIn := true, remind := .running 1000 }
    let k : Context := { paged with mode := .all, contacted := [e, { Contact.blank 1 0 0 with current := true }] }
    let r : Delivery := carriedRecord .plant (.running 1000) [0]
    let s : State := { running k with dispatcher := { records := [r], order := 9, serial := 1, pendingCount := 0 } }
    s.agenda = [] ∧ s.engine = .running ∧ s.dispatcher.ok ∧ deliveryOf s r.key = some r ∧ r.receipt.due s.tickCount = true
      ∧ r.stage = .plant ∧ r.key.kind ≠ .arrivalCheck ∧ tagLive s r.key.tag = true ∧ (context s (r.key.tag % 128)).tag = r.key.tag
      ∧ (context s (r.key.tag % 128)).contact r.key.member = some e ∧ e.current = true ∧ (context s (r.key.tag % 128)).mode = .all
      ∧ (1 : Nat) ≠ r.key.member ∧ (context s (r.key.tag % 128)).isCurrent 1 = true
      ∧ (context s 0).isCurrent 0 = true ∧ (context (running { paged with contacted := [Contact.blank 0 0 0] }) 0).isCurrent 0 = false := by
  exact ⟨rfl, rfl, ok_oneRecord _ rfl, by decide⟩

/-- A remind count one below the limit, and at it. -/
theorem witness_remind :
    let e (n : Nat) : Contact := { Contact.blank 0 0 0 with current := true, remind := .running 1000, remindCount := n }
    let s (n : Nat) : State := running { paged with contacted := [e n] }
    (∀ n, (s n).dispatcher.ok) ∧ (s 1).agenda = [] ∧ (s 1).engine = .running ∧ (context (s 1) 0).contact 0 = some (e 1)
      ∧ (e 1).remind.due (s 1).tickCount = true ∧ (e 1).remindCount < (s 1).roster.settings.remindLimit
      ∧ (context (s 2) 0).contact 0 = some (e 2) ∧ (s 2).roster.settings.remindLimit ≤ (e 2).remindCount
      ∧ deliveryOf (s 2) { tag := 0, member := 0, kind := .remind } = none := by
  intro e s
  exact ⟨fun n => ok_noRecords _ rfl, by decide⟩

/-- A remind count at the limit, with a REMIND of two copies, one DEFERRED and one TAKEN, whose windows are stopped, and one whose receipt
window runs; the DEFERRED one's drop usable, and not. -/
theorem witness_deferredRemind :
    let e : Contact := { Contact.blank 0 0 0 with current := true, remind := .running 1000, remindCount := 2 }
    let r (st : Stage) (w : Window) (l : List Nat) : Delivery := { carriedRecord st w l with
      key := { tag := 0, member := 0, kind := .remind }, retry := .stopped }
    let s (r : Delivery) (states : List DropState) : State := transmitters states { running { paged with contacted := [e] } with
      dispatcher := { records := [r], order := 9, serial := 1, pendingCount := 0 } }
    let c (st : CopyState) (i : Nat) : Copy := { line := .l0, drop := i + 1, state := st }
    (∀ st w l states, (s (r st w l) states).agenda = [] ∧ (s (r st w l) states).engine = .running
      ∧ (s (r st w l) states).dispatcher.ok ∧ (context (s (r st w l) states) 0).contact 0 = some e
      ∧ e.remind.due (s (r st w l) states).tickCount = true ∧ (context (s (r st w l) states) 0).tag % 128 = 0
      ∧ deliveryOf (s (r st w l) states) { tag := 0, member := 0, kind := .remind } = some (r st w l)
      ∧ (r st w l).receipt = w ∧ (r st w l).retry = .stopped ∧ (r st w l).stage = st ∧ (r st w l).isPending = false)
    ∧ settings.remindLimit ≤ e.remindCount ∧ (r .plant .stopped [0, 1]).copies = [c .deferred 0, c .taken 1]
    ∧ (r .home .stopped [0]).copies = [c .deferred 0] ∧ Window.running 1030 ≠ .stopped
    ∧ usableAt (s (r .home .stopped [0]) [.silent, .ready]) (.l0, 1) = false
    ∧ usableAt (s (r .home .stopped [0]) [.ready, .ready]) (.l0, 1) = true
    ∧ [(LineId.l0, 1), (.l0, 2)].Nodup ∧ queueOf (s (r .home .stopped [0]) [.ready, .ready]) .l0 1 = []
    ∧ (∀ d ∈ (s (r .home .stopped [0]) [.ready, .ready]).line0.drops, d.queue = []) := by
  intro e r s c
  exact ⟨fun st w l states => ⟨rfl, rfl, ok_oneRecord (r st w l) rfl, rfl, (by decide : Window.due 1000 (.running 1000) = true), rfl, rfl, rfl,
    rfl, rfl, rfl⟩, by decide⟩

theorem witness_retry :
    let s := withRecord (record .plant true)
    s.agenda = [] ∧ s.engine = .running ∧ s.dispatcher.ok ∧ deliveryOf s (record .plant true).key = some (record .plant true)
      ∧ (record .plant true).retry.due s.tickCount = true ∧ (record .plant true).copies = []
      ∧ (record .plant true).noRouteUsed = true ∧ (record .plant true).key.kind = .arrivalCheck ∧ ∀ a, usableAt s a = false := by
  refine ⟨rfl, rfl, ok_oneRecord _ rfl, by decide, by decide, rfl, rfl, rfl, ?_⟩
  rintro ⟨l, a⟩
  cases l <;> (unfold usableAt drop?; split <;> rfl)

/-- The retry window of records that are due: PENDING; one DEFERRED copy, whose drop is usable or is not, at HOME and at PLANT; and at PLANT
another one TAKEN, or the receipt window running. -/
theorem witness_offeredAgain :
    let s (r : Delivery) (states : List DropState) : State := transmitters states
      { running paged with dispatcher := { records := [r], order := 9, serial := 1, pendingCount := 0 } }
    let c (st : CopyState) (i : Nat) : Copy := { line := .l0, drop := i + 1, state := st }
    let usable (states : List DropState) (x : Copy) : Bool := usableAt (s (carriedRecord .home .stopped [0]) states) (x.line, x.drop)
    (∀ st w l states, (s (carriedRecord st w l) states).agenda = [] ∧ (s (carriedRecord st w l) states).engine = .running
      ∧ (s (carriedRecord st w l) states).dispatcher.ok
      ∧ deliveryOf (s (carriedRecord st w l) states) (carriedRecord st w l).key = some (carriedRecord st w l)
      ∧ (carriedRecord st w l).retry.due (s (carriedRecord st w l) states).tickCount = true
      ∧ (carriedRecord st w l).stage = st ∧ (carriedRecord st w l).receipt = w ∧ (carriedRecord st w l).isPending = false)
    ∧ { carriedRecord .home .stopped [] with isPending := true }.isPending = true
    ∧ (carriedRecord .home .stopped [0]).copies = [c .deferred 0] ∧ (carriedRecord .plant .stopped [0, 1]).copies = [c .deferred 0, c .taken 1]
    ∧ usable [.silent, .ready] (c .deferred 0) = false ∧ usable [.ready, .ready] (c .deferred 0) = true
    ∧ [(LineId.l0, 1), (.l0, 2)].Nodup ∧ queueOf (s (carriedRecord .home .stopped [0]) [.ready, .ready]) .l0 1 = []
    ∧ [c .taken 1].Sublist [c .deferred 0, c .taken 1] ∧ Window.active .stopped = false ∧ Window.active (.running 1030) = true := by
  intro s c usable
  exact ⟨fun st w l states => ⟨rfl, rfl, ok_oneRecord (carriedRecord st w l) rfl, rfl,
    (by decide : Window.due 1000 (.running 1000) = true), rfl, rfl, rfl⟩, by decide⟩

theorem witness_scanTimer :
    let s := (running paged).modArea fun a => { a with scanTimer := some 1000 }
    s.agenda = [] ∧ s.engine = .running ∧ s.area.scanInFlight = false ∧ s.area.scanTimer = some 1000
      ∧ reached s.tickCount 1000 = true := by decide

theorem witness_stoppingLimit :
    let s := ({ running paged with engine := .stopping }).modArea fun a => { a with stopLimit := some 1000 }
    s.agenda = [] ∧ s.engine = .stopping ∧ s.area.finalScan = false ∧ s.area.bus = none ∧ s.area.stopLimit = some 1000
      ∧ reached s.tickCount 1000 = true := by decide

/-- STOPPING with no queue at all, with one transmitter whose queue holds one message that fits, with a read in progress, and with the
same read once the queues have been found empty. -/
theorem witness_stoppingQueues :
    let s : State := { running paged with engine := .stopping }
    let d : Drop := { drop .transmitter .ready with queue := [control] }
    let q : State := { onLine .gap d with engine := .stopping }
    let r (op : AreaOp) : State := (withArea op s).modArea fun a => { a with scanEnding := true, stopEnded := true }
    s.engine = .stopping ∧ s.area.finalScan = false ∧ s.area.bus = none ∧ s.line0.drops ++ s.line1.drops = []
    ∧ (withArea .scanHeader s).area.bus ≠ none ∧ q.line0.drops = [d] ∧ d.queue ≠ [] ∧ q.area.stopEnded = false
    ∧ (q.agenda = [] ∧ q.area.finalScan = false ∧ q.area.bus = none ∧ (q.line .l0).state = .running ∧ (q.line .l0).phase = .gap
      ∧ chooseExchange (q.line .l0) = .poll 1 ∧ drop? q .l0 1 = some d ∧ d.kind = .transmitter ∧ d.inFlight = []
      ∧ fillSet (min 4 d.room) 160 d.queue = d.queue)
    ∧ (∀ o b e, (o, b) ≠ (LineId.l0, 1) → drop? q o b = some e → e.queue = [])
    ∧ ∀ op, (r op).agenda = [] ∧ (r op).engine = .stopping ∧ (r op).area.finalScan = false ∧ (r op).area.scanEnding = true
      ∧ (r op).area.stopEnded = true ∧ (r op).area.bus = some (readTransaction op []) := by
  intro s d q r
  refine ⟨rfl, rfl, rfl, rfl, by decide, rfl, by decide, rfl, by decide, ?_, fun op => ⟨rfl, rfl, rfl, rfl, rfl, rfl⟩⟩
  intro o b e n h
  match o, b with
  | .l1, 0 => cases h
  | .l1, _ + 1 => cases h
  | .l0, 0 => cases h
  | .l0, 1 => exact absurd rfl n
  | .l0, _ + 2 => cases h

/-! ## Witnesses: the bus master and the Common Area -/

theorem witness_completedWrites :
    let x : Transaction AreaOp := slotTransaction (.slotImage 0) 4096 (.emptyWith 1 1)
    let y : Transaction JournalOp := writeTransaction .closeWrite 16396 [2#8]
    (areaIssue x (running paged)).area.bus = some x ∧ x.op.writeDone = some .slotImageWriteDone
      ∧ areaCloses (journalIssue y (running paged)) = false ∧ (journalIssue y (running paged)).journal.bus = some y
      ∧ y.op.writeDone = some .descriptorCloseWriteDone := by decide

theorem witness_faultedWrites :
    let x : Transaction AreaOp := slotTransaction (.slotImage 0) 4096 (.emptyWith 1 1)
    let y : Transaction JournalOp := writeTransaction .closeWrite 16396 [2#8]
    (areaIssue x (running paged)).area.bus = some x ∧ (journalIssue y (running paged)).journal.bus = some y := by decide

/-- A transaction of a scan with nudge pending and without, one of the final scan, one of the load, and one of the Journal Writer. -/
theorem witness_busErrors :
    let s := withArea (.slotHost 0) (running paged)
    let n := s.modArea fun a => { a with nudgePending := true }
    let f := ({ withArea (.slotImage 3) (running paged) with engine := .stopping }).modArea fun a => { a with finalScan := true }
    let l := withArea .loadHeader { State.reset with engine := .loading }
    let j := withJournal .writing (.recordWrite none) (running paged)
    (s.agenda = [] ∧ s.area.memoryFault = false ∧ s.engine = .running ∧ s.area.bus = some (readTransaction (.slotHost 0) [])
      ∧ (AreaOp.slotHost 0).isLoad = false ∧ AreaOp.slotHost 0 ≠ .scanHeader ∧ s.area.finalScan = false
      ∧ s.area.nudgePending = false ∧ n.area.nudgePending = true ∧ n.area.bus = s.area.bus ∧ n.area.finalScan = false)
    ∧ (f.agenda = [] ∧ f.engine = .stopping ∧ f.area.finalScan = true ∧ f.area.bus = some (readTransaction (.slotImage 3) [])
      ∧ (AreaOp.slotImage 3).isLoad = false)
    ∧ (l.agenda = [] ∧ l.engine = .loading ∧ l.area.bus = some (readTransaction .loadHeader [])
      ∧ AreaOp.loadHeader.isLoad = true ∧ l.area.stopLoad = false)
    ∧ j.agenda = [] ∧ j.area.memoryFault = false ∧ j.engine ≠ .stopping ∧ j.journal.state = .writing
      ∧ j.journal.restartPending = false ∧ j.journal.bus = some (readTransaction (.recordWrite none) []) := by decide

/-- The zones of a station that is READY, and ladder 0 with a beacon rung first. -/
def withBeacon (watch : HeartbeatWatch) : State :=
  let plant : Rung := { kind := 5, number := 0, windowClass := 0, last := true, hold := false, rep := false }
  let l : Ladder := { rungCount := 1, stopRung := some 0, repeatLimit := 0, arrivalClass := 0, rungs := [plant] }
  let s := (withArea .scanHeader (running paged)).modRoster fun r => { r with tables := { tables with ladders := [l] } }
  { s with watch := watch, line0 := { s.line0 with drops := [drop .station .ready] } }

/-- Supervision with a limit of 2. -/
def supervised (stale : Nat) (lost : Bool) : HeartbeatWatch where
  last := 7
  stale := stale
  serverLost := lost
  locked := true
  lockedLimit := 2

/-- The failed header read of a scan with supervision off, with the server lost, one below the limit, and at it; and a failed
transaction of each kind of the Journal Writer. -/
theorem witness_failedReads :
    (∀ w, (withBeacon w).agenda = [] ∧ (withBeacon w).engine = .running
      ∧ (withBeacon w).area.bus = some (readTransaction .scanHeader []) ∧ (withBeacon w).area.scanEnding = false
      ∧ (withBeacon w).area.finalScan = false ∧ (withBeacon w).area.nudgePending = false)
    ∧ (∀ st op, (withJournal st op (running paged)).agenda = [] ∧ (withJournal st op (running paged)).engine ≠ .stopping
      ∧ (withJournal st op (running paged)).journal.restartPending = false
      ∧ (withJournal st op (running paged)).journal.bus = some (readTransaction op []))
    ∧ heartbeatLimit (withArea .scanHeader (running paged)) = 0 ∧ (supervised 0 true).serverLost = true
    ∧ (supervised 0 false).stale + 1 < heartbeatLimit (withBeacon (supervised 0 false))
    ∧ (let s := withBeacon (supervised 1 false)
      heartbeatLimit s ≠ 0 ∧ s.watch.serverLost = false ∧ heartbeatLimit s ≤ s.watch.stale + 1 ∧ (context s 64).state = .free
        ∧ ((ladderOf s.roster.tables 0).rung 0).kind ∈ [4, 5] ∧ 1 ∈ enabledZones s.roster.tables ∧ zoneServable s 1 = true
        ∧ s.calls.contexts.length = 65) := by
  exact ⟨fun w => ⟨rfl, rfl, rfl, rfl, rfl, rfl⟩, fun st op => ⟨rfl, (fun h => by cases h), rfl, rfl⟩, by decide⟩

/-- A transaction of the Area Controller that fails beside each of the Journal Writer, with a record pending; and a failed one of the Journal
Writer for which a restart waits, with a close pending and without. -/
theorem witness_skippedRecords :
    let s (op : JournalOp) (waits closing : Bool) : State := ((withArea (.slotHost 0) (withJournal .writing op (running paged))).modJournal
      fun j => { j with pending := [blankRecord .held, blankRecord .held], restartPending := waits, closePending := closing })
    (∀ op w c, (s op w c).journal.bus = some (readTransaction op []) ∧ (readTransaction op [] : Transaction JournalOp).op = op
      ∧ (s op w c).area.bus = some (readTransaction (.slotHost 0) []) ∧ (s op w c).area.memoryFault = false
      ∧ (s op w c).agenda = [] ∧ (s op w c).engine = .running ∧ (s op w c).journal.restartPending = w
      ∧ (s op w c).journal.closePending = c ∧ (s op w c).journal.state = .writing)
    ∧ JournalOp.recordWrite (some 3) ≠ .fillWrite none ∧ JournalOp.recordWrite (some 3) ≠ .recordWrite none :=
  ⟨fun _ _ _ => ⟨rfl, rfl, rfl, rfl, rfl, rfl, rfl, rfl, rfl⟩, by decide⟩

/-- A header that passes every check: 16 slots, one descriptor, one ladder, an area of 64 KiB. -/
def header : List Byte :=
  [0x4E, 0x52, 0x53, 0x31, 1, 0, 0, 0, 0, 0, 1, 0, 0, 2, 0, 0, 16, 0, 0, 0, 0, 16, 0, 0]
    ++ List.replicate 16 0 ++ [1, 0, 0, 0, 0, 64, 0, 0] ++ List.replicate 16 0 ++ [1, 0, 0, 0, 0, 80, 0, 0]
    ++ List.replicate 184 0

set_option maxRecDepth 20000 in
theorem test_header_passes : header.length = 256 ∧ headerError header = .none := by decide

set_option maxRecDepth 20000 in
theorem test_header_signature_is_checked_first : headerError (0 :: header.drop 1) = .badSignature
    ∧ headerError (header.take 4 ++ 2 :: header.drop 5) = .badVersion := by decide

/-- The header with one byte changed. -/
def headerWith (i : Nat) (b : Byte) : List Byte := header.take i ++ b :: header.drop (i + 1)

set_option maxRecDepth 20000 in
/-- Each check of R150 failing first: version 2, an area below the header's size, 17 slots, 33 descriptors, no ladder; and a settings region,
or a zone table, that ends past the area, whose size is 64 KiB, with one that ends at it. -/
theorem test_header_checks_in_order : headerError (headerWith 4 2) = .badVersion ∧ headerError (headerWith 10 0) = .outOfArea
    ∧ headerError (headerWith 16 17) = .countOutOfRange ∧ headerError (headerWith 40 33) = .countOutOfRange
    ∧ headerError (headerWith 64 0) = .countOutOfRange
    ∧ headerError ((headerWith 12 0x84).take 13 ++ 0xFF :: header.drop 14) = .outOfArea
    ∧ headerError ((headerWith 12 0x80).take 13 ++ 0xFF :: header.drop 14) = .none := by decide

/-- A table directory with a count out of range, with a region past the area, and with neither. -/
theorem witness_reloadChecks :
    let s (n offset : Nat) : State := (running paged).modArea fun a => { a with
      tableDirectory := { a.tableDirectory with zones := { count := n, offset := offset }, ladders := { count := 1, offset := 0 } }
      directory := { a.directory with areaSize := 65536 } }
    (reloadError (s 25 0) tables).map (·.1) = some .countOutOfRange ∧ (reloadError (s 24 65441) tables).map (·.1) = some .outOfArea
      ∧ reloadError (s 24 65440) tables = none := by decide

/-- A dirty slot, member and drop whose writes are issued, the load's writes of a slot and of the header, the header's write of a scan, the
writes of a close, also made again at scan step 6, and of a take, and a record that has been written. -/
theorem witness_mirrorWrites :
    let s : State := (running paged).modArea fun a => { a with slots := a.slots.modify 15 fun i => { i with dirty := true } }
    let m : State := (running paged).modRoster fun r => { r with members := r.members.modify 1 fun x => { x with dirty := true } }
    let d : State := onLine .gap { drop .transmitter .ready with dirty := true }
    15 < s.area.slots.length ∧ (slotImage s 15).dirty = true ∧ (writeSlots 15 s).area.bus ≠ none
      ∧ 1 < m.area.directory.memberMirror.count ∧ (member m 1).dirty = true ∧ (writeMembers 1 m).area.bus ≠ none
      ∧ (loadWriteSlot 15 s).area.bus ≠ none ∧ (loadWriteSlot s.area.slots.length s).area.bus ≠ none ∧ (writeHeader s).area.bus ≠ none
      ∧ (journalStep (s.modJournal fun j => { j with state := .stalled, closePending := true })).area.bus.map (·.op) = some .descriptorClose
      ∧ d.area.directory.dropMirror.count = 32 ∧ (drop? d (mirrorDrop 0).1 (mirrorDrop 0).2).any (·.dirty) = true
      ∧ (writeDrops 0 d).area.bus ≠ none ∧ (issueClose d).journal.bus ≠ none ∧ (takeFrom [] d).journal.bus ≠ none
      ∧ d.area.memoryFault = false ∧ (recordWriteDone none d).journal.bus ≠ none
      ∧ AreaController.empty.directory.memberMirror.count = 0 ∧ AreaController.empty.directory.dropMirror.count = 0 := by decide

/-- One ladder of one rung, and one of none. -/
def ladder (rungs : Byte) : List Byte := rungs :: List.replicate 35 0

theorem witness_load :
    let s (op : AreaOp) : State := (withArea op { State.reset with engine := .loading }).modArea fun a => { a with
      tableDirectory := { a.tableDirectory with ladders := { count := 1, offset := 0 } }
      directory := { a.directory with slots := { count := 16, offset := 4096 } } }
    (∀ op, (s op).agenda = [] ∧ (s op).engine = .loading ∧ (s op).area.stopLoad = false
      ∧ (s op).area.bus = some (readTransaction op []))
    ∧ headerError [] ≠ .none ∧ headerError header = .none
    ∧ (invalidTable (readTables (s .loadTables).area.tableDirectory [] [] (ladder 0) [])).isSome = true
    ∧ invalidTable (readTables (s .loadTables).area.tableDirectory [] [] (ladder 1) []) = none
    ∧ 0 < (s .loadSlots).area.directory.slots.count := by
  intro s
  exact ⟨fun op => ⟨rfl, rfl, rfl, rfl⟩, by decide⟩

theorem witness_loadWrites :
    let s (op : AreaOp) : State := (withArea op { State.reset with engine := .loading }).modArea fun a => { a with
      stagedSettings := some settings, stagedTables := some tables }
    ∀ op, (s op).agenda = [] ∧ (s op).engine = .loading ∧ (s op).area.stopLoad = false ∧ (s op).area.memoryFault = false
      ∧ (s op).area.bus = some (readTransaction op []) ∧ (s op).area.stagedSettings = some settings
      ∧ (s op).area.stagedTables = some tables := fun _ => ⟨rfl, rfl, rfl, rfl, rfl, rfl, rfl⟩

/-- The slot after the one written, and the last one written, with 16 slots that are EMPTY with their baselines. -/
theorem witness_loadWrites_slots :
    let s (i : Nat) : State := (withArea (.loadSlotWrite i) { State.reset with engine := .loading }).modArea fun a => { a with
      slots := List.replicate 16 (.emptyWith 7 9) }
    14 + 1 < (s 14).area.slots.length ∧ slotImage (s 14) (14 + 1) = .emptyWith 7 9 ∧ (s 15).area.slots.length ≤ 15 + 1
      ∧ (AreaOp.loadSlotWrite 14).writeDone = some .loadSlotWriteDone := by decide

theorem witness_stopInLoading :
    let s (op : AreaOp) : State := (withArea op { State.reset with engine := .loading }).modArea fun a => { a with stopLoad := true }
    (∀ op, (s op).agenda = [] ∧ (s op).engine = .loading ∧ (s op).area.stopLoad = true
      ∧ (s op).area.bus = some (readTransaction op []))
    ∧ (∀ op ∈ [AreaOp.loadHeader, .loadSettings, .loadTables, .loadSlots, .loadSlotWrite 15, .loadHeaderWrite], op.isLoad = true)
    ∧ (AreaOp.loadSlotWrite 15).writeDone = some .loadSlotWriteDone ∧ AreaOp.loadHeaderWrite.writeDone = some .loadHeaderWriteDone := by
  intro s
  exact ⟨fun op => ⟨rfl, rfl, rfl, rfl⟩, by decide⟩

/-- A header read whose generation is new, and one with nothing new. -/
theorem witness_scanHeader :
    let s := withArea .scanHeader (running paged)
    (s.agenda = [] ∧ s.engine = .running ∧ s.area.bus = some (readTransaction .scanHeader []) ∧ s.area.scanEnding = false
      ∧ heartbeatLimit s = 0)
    ∧ (readServerFields [0, 0, 0, 0, 1] 0).generation ≠ s.area.takenGeneration
    ∧ (readServerFields [] 0).generation = s.area.takenGeneration
    ∧ (readServerFields [] 0).request0.number = s.line0.takenRequest
    ∧ (readServerFields [] 0).request1.number = s.line1.takenRequest
    ∧ (readServerFields [] 0).restart = s.area.takenRestart ∧ 0 < s.area.directory.slots.count := by decide

/-- The server fields of a scan, with a request of line 0 and the journal restart number. -/
def fields (code address number restart : Byte) : List Byte :=
  List.replicate 8 0 ++ [code, address, 0, 0, number] ++ List.replicate 11 0 ++ [restart]

/-- A header read in progress, with line 0 in a state and a phase. -/
def lineAt (st : LineState) (p : LinePhase) (d : DropState) : State :=
  { withArea .scanHeader (onLine p (drop .transmitter d)) with
    line0 := { Line.empty with state := st, phase := p, drops := [drop .transmitter d] } }

/-- A new restart number; a new request of each code of R137 and R138 with each result, at the addresses where its clauses meet; and
what each restart meets. -/
theorem witness_lineRequests :
    let s := lineAt
    let q (code address : Byte) : LineRequest := (readServerFields (fields code address 1 0) 0).request0
    (∀ st p d, (s st p d).agenda = [] ∧ (s st p d).engine = .running ∧ (s st p d).area.scanEnding = false
      ∧ (s st p d).area.bus = some (readTransaction .scanHeader []) ∧ ((s st p d).line .l0).state = st
      ∧ ((s st p d).line .l0).phase = p ∧ drop? (s st p d) .l0 1 = some (drop .transmitter d))
    ∧ heartbeatLimit (s .running .gap .ready) = 0 ∧ 0 < (s .running .gap .ready).area.directory.slots.count
    ∧ (readServerFields (fields 0 0 0 1) 0).restart ≠ (s .running .gap .ready).area.takenRestart
    ∧ (readServerFields (fields 0 0 0 1) 0).request0.number = ((s .running .gap .ready).line .l0).takenRequest
    ∧ (readServerFields (fields 1 0 1 0) 0).request1.number = ((s .running .gap .ready).line .l1).takenRequest
    ∧ (readServerFields (fields 1 0 1 0) 0).restart = (s .running .gap .ready).area.takenRestart
    ∧ (q 1 0).number ≠ ((s .running .gap .ready).line .l0).takenRequest ∧ LineId.l0 ≠ .l1
    ∧ (q 0 0).code = 0 ∧ 3 < (q 4 0).code ∧ (q 1 0).code ∈ [1, 2, 3] ∧ (q 3 0).code ∈ [1, 2, 3]
    ∧ (q 3 0).drop ∉ List.range' 1 16 ∧ (q 3 17).drop ∉ List.range' 1 16 ∧ (q 3 1).drop ∈ List.range' 1 16
    ∧ (q 3 16).drop ∈ List.range' 1 16 ∧ drop? (s .running .gap .ready) .l0 16 = none
    ∧ (drop .transmitter .silent).state ≠ .isolated ∧ (drop .transmitter .isolated).state = .isolated
    ∧ LinePhase.emptySlot ≠ .off ∧ LinePhase.emptySlot ≠ .gap ∧ (q 1 0).code ∈ [1, 2] ∧ (q 2 0).code = 2
    ∧ ∀ d ∈ ((s .running .gap .silent).line .l0).drops, d.state ≠ .ready := by
  intro s q
  exact ⟨fun st p d => ⟨rfl, rfl, rfl, rfl, rfl, rfl, rfl⟩, by decide⟩

/-- A limit of 2 with stale counts 0 and 1, and with the server lost. -/
theorem witness_heartbeat :
    let s (n : Nat) (lost : Bool) : State := { running paged with watch := supervised n lost }
    heartbeatLimit (running paged) = 0 ∧ heartbeatLimit (s 0 false) ≠ 0 ∧ (8 : Word) ≠ (s 0 false).watch.last
      ∧ (7 : Word) = (s 2 true).watch.last ∧ (s 2 true).watch.serverLost = true
      ∧ (s 0 false).watch.serverLost = false ∧ (s 0 false).watch.stale + 1 < heartbeatLimit (s 0 false)
      ∧ heartbeatLimit (s 1 false) ≤ (s 1 false).watch.stale + 1 ∧ countsOk (s 1 false)
      ∧ (context (s 1 false) 64).state = .free := by decide

/-- A header read with nothing new but its heartbeat, or not even that, with the server there and lost, the fallback call live and
ended, and room for the records. -/
theorem witness_heartbeatRead :
    let s (n : Nat) (lost live : Bool) : State :=
      let s := { withBeacon (supervised n lost) with journal := { Journal.empty with state := .writing } }
      if live then modContext 64 (fun _ => { paged with slot := none, mode := .beacon, contacted := [], tag := 64 }) s else s
    let f (v : Byte) : ServerFields := readServerFields [v] 0
    (∀ n b c, (s n b c).agenda = [] ∧ (s n b c).engine = .running ∧ (s n b c).area.bus = some (readTransaction .scanHeader [])
      ∧ (s n b c).area.scanEnding = false ∧ heartbeatLimit (s n b c) = 2 ∧ (s n b c).calls.contexts.length = 65
      ∧ (s n b c).calls.backlog = [] ∧ (s n b c).area.directory.slots.count = 16
      ∧ (s n b c).journal.state = .writing ∧ (s n b c).area.memoryFault = false ∧ (s n b c).journal.pending = []
      ∧ (∀ v, (f v).generation = (s n b c).area.takenGeneration ∧ (f v).request0.number = (s n b c).line0.takenRequest
        ∧ (f v).request1.number = (s n b c).line1.takenRequest ∧ (f v).restart = (s n b c).area.takenRestart))
    ∧ (f 8).heartbeat ≠ (supervised 0 true).last ∧ (f 7).heartbeat = (supervised 0 true).last
    ∧ (context (s 0 true false) 64).state = .free ∧ (context (s 0 true true) 64).state ≠ .free
    ∧ (s 0 false false).watch.stale + 1 < 2 ∧ 2 ≤ (s 1 false false).watch.stale + 1 := by
  intro s f
  refine ⟨?_, by decide⟩
  intro n b c
  cases c <;> exact ⟨rfl, rfl, rfl, rfl, rfl, rfl, rfl, rfl, rfl, rfl, rfl, fun v => ⟨rfl, rfl, rfl, rfl⟩⟩

theorem witness_reload :
    let s (op : AreaOp) : State := (withArea op (running .empty)).modArea fun a => { a with stagedTables := some tables }
    let bad : State := (s .reloadGeneration).modArea fun a => { a with
      tableDirectory := { a.tableDirectory with zones := { count := 25, offset := 0 } } }
    let good : State := (s .reloadGeneration).modArea fun a => { a with
      tableDirectory := { a.tableDirectory with ladders := { count := 1, offset := 0 } }
      directory := { a.directory with areaSize := 65536 } }
    (∀ op, (s op).agenda = [] ∧ (s op).engine = .running ∧ (s op).area.scanEnding = false
      ∧ (s op).area.bus = some (readTransaction op []))
    ∧ (∀ t ∈ [bad, good], t.area.stagedTables = some tables ∧ t.area.server.request0.number = t.line0.takenRequest
      ∧ t.area.server.request1.number = t.line1.takenRequest ∧ t.area.server.restart = t.area.takenRestart
      ∧ 0 < t.area.directory.slots.count)
    ∧ (1 : Word) ≠ good.area.server.generation ∧ (0 : Word) = bad.area.server.generation
    ∧ reloadError bad tables = some (.countOutOfRange, 1) ∧ reloadError good tables = none
    ∧ ∀ k ∈ good.calls.contexts, k.state = .free ∧ k.contacted = [] := by
  intro s bad good
  refine ⟨fun op => ⟨rfl, rfl, rfl, rfl⟩, by decide, by decide, by decide, by decide, by decide, ?_⟩
  intro k m
  rcases List.mem_cons.1 m with rfl | m
  · exact ⟨rfl, rfl⟩
  · rw [List.eq_of_mem_replicate m]
    exact ⟨rfl, rfl⟩

/-- A reload that takes the pager of member 0, who is current: the loss, with room for its records. Calls in each state past the effective
last rung of the new ladder 0, and at it, and one whose ladder cannot be walked. -/
theorem witness_reloadLive :
    let new : Tables := { tables with roster := [{ pager := 201, home := 1, onShift := true }, { pager := 102, home := 1, onShift := true }] }
    let s : State := { withArea .reloadGeneration (running paged) with journal := { Journal.empty with state := .writing } }
    let good : State := s.modArea fun a => { a with
      stagedTables := some new, tableDirectory := { a.tableDirectory with ladders := { count := 1, offset := 0 } }
      directory := { a.directory with areaSize := 65536 } }
    let on (st : CallState) (rung ladder : Nat) : State := { running { paged with state := st, rung := rung, ladder := ladder } with
      journal := { Journal.empty with state := .writing } }
    (∀ st, (context (on st 1 0) 0).state = st ∧ (context (on st 1 0) 0).rung = 1 ∧ (context (on st 0 0) 0).rung = 0
        ∧ (context (on st 1 0) 0).slot = some 0 ∧ 0 < (on st 1 0).area.slots.length ∧ (on st 1 0).journal.pending.length < 64)
      ∧ good.area.scanEnding = false ∧ good.area.bus = some (readTransaction .reloadGeneration []) ∧ good.area.stagedTables = some new
      ∧ (0 : Word) = good.area.server.generation ∧ reloadError good new = none
      ∧ (context s 0).isCurrent 0 = true ∧ onDuty tables 0 = true ∧ onDuty new 0 = true ∧ effectivePager tables 0 = 101
      ∧ effectivePager new 0 = 201 ∧ 0 < s.roster.members.length ∧ 0 < new.crews.length
      ∧ ([(0, 101, routeOf s 0)].map (·.1)).Nodup ∧ s.dispatcher.records = [] ∧ ((context s 0).contact 0).isSome = true
      ∧ (context s 0).isCurrent 1 = false ∧ s.journal.state = .writing ∧ s.area.memoryFault = false
      ∧ s.journal.pending.length + 1 ≤ 64
      ∧ (ladderOf tables 0).effectiveLast = 0 ∧ ladderUsable tables 0 = true ∧ ladderUsable tables 1 = false := by
  intro new s good on
  exact ⟨fun st => ⟨rfl, rfl, rfl, rfl, Nat.zero_lt_succ 15, Nat.zero_lt_succ 63⟩, by decide⟩

/-- A host part: post number, severity, request code and request number. -/
def host (post severity code request : Byte) : List Byte :=
  [post, 0, 0, 0, 0, 0, 0, 0, severity, 0, 0, code] ++ List.replicate 4 0 ++ [request]

/-- A host part read of slot 14 in progress, the slots showing a state, with a call of slot 14 in context 0. -/
def slotRead (k : Context) (st : SlotState) : State :=
  (withArea (.slotHost 14) (running { k with slot := some 14 })).modArea fun a => { a with
    slots := List.replicate 16 { SlotImage.emptyWith 0 0 with state := st } }

/-- The next-to-last slot, with the same numbers, a new request in an EMPTY slot, a post of severity 5 and a valid one, whose slot holds
no call, and a valid one while PAUSED. -/
theorem witness_slotRead :
    let s (st : SlotState) : State := slotRead .empty st
    let e : State := withArea (.slotHost 14) (running paged)
    (∀ k st, (slotRead k st).agenda = [] ∧ (slotRead k st).engine = .running ∧ (slotRead k st).area.scanEnding = false
      ∧ (slotRead k st).area.bus = some (readTransaction (.slotHost 14) []) ∧ (slotRead k st).calls.backlog = [])
    ∧ 14 < (s .empty).area.slots.length ∧ 14 + 1 < (s .empty).area.directory.slots.count
    ∧ (readHostPart (host 0 1 0 0)).postNumber = (slotImage (s .empty) 14).takenPost
    ∧ (readHostPart (host 0 1 0 0)).requestNumber = (slotImage (s .empty) 14).takenRequest
    ∧ (readHostPart (host 0 1 6 1)).requestNumber ≠ (slotImage (s .empty) 14).takenRequest
    ∧ (readHostPart (host 1 5 0 0)).postNumber ≠ (slotImage (s .empty) 14).takenPost
    ∧ (slotImage (s .empty) 14).state.live = false ∧ slotTaken e 14 = false ∧ (slotImage e 14).state.live = false
    ∧ postError e 14 (readHostPart (host 1 5 0 0)) = some .badSeverity
    ∧ postError e 14 { readHostPart (host 1 4 0 0) with callNumber := 9 } = none
    ∧ postError { e with engine := .paused } 14 (readHostPart ([1, 0, 0, 0, 9, 0, 0, 0, 4])) = none
    ∧ ladderUsable e.roster.tables 0 = true := by
  intro s e
  exact ⟨fun k st => ⟨rfl, rfl, rfl, rfl, rfl⟩, by decide⟩

/-- A valid post of a slot that holds no call, RUNNING with every context of 0 to 63 live, its ladder one that can be walked and one that
cannot; and a place in the backlog before, after and between others. -/
theorem witness_noFreeContext :
    let e : State := withArea (.slotHost 14) { running paged with
      calls := { contexts := List.replicate 65 paged, backlog := [] }, journal := { Journal.empty with state := .writing } }
    let h (ladder : Nat) : HostPart := { readHostPart (host 1 4 0 0) with callNumber := 9, ladder := ladder }
    let w (severity : Nat) (order : Word) : Waiting := { waiting 3 with severity := severity, order := order }
    e.agenda = [] ∧ e.engine = .running ∧ e.area.scanEnding = false ∧ 14 < e.area.slots.length
    ∧ (h 0).postNumber ≠ (slotImage e 14).takenPost ∧ (slotImage e 14).state.live = false ∧ slotTaken e 14 = false
    ∧ postError e 14 (h 0) = none ∧ postError e 14 (h 1) = none
    ∧ ladderUsable e.roster.tables 0 = true ∧ ladderUsable e.roster.tables 1 = false
    ∧ (∀ c, c < 64 → (context e c).state ≠ .free) ∧ e.journal.pending.length < 63
    ∧ placeWaiting (w 3 5) [w 2 9, w 3 4, w 3 6, w 4 0] = [w 2 9, w 3 4, w 3 5, w 3 6, w 4 0]
    ∧ placeWaiting (w 1 5) [w 2 9] = [w 1 5, w 2 9] ∧ placeWaiting (w 4 5) [w 4 2] = [w 4 2, w 4 5]
    ∧ (∀ x ∈ w 3 5 :: [w 2 9, w 3 4, w 3 6, w 4 0], (x.order - 0).toNat < 2147483648)
    ∧ (∀ x ∈ [w 2 9, w 3 4, w 3 6, w 4 0], x.order ≠ (w 3 5).order)
    ∧ [w 2 9, w 3 4, w 3 6, w 4 0].Pairwise fun a b => a.severity < b.severity
      ∨ a.severity = b.severity ∧ 0 < (b.order - a.order).toNat ∧ (b.order - a.order).toNat < 2147483648 := by decide

/-- ADVANCE on a rung without HOLD that comes to rest at once: below the effective last rung, at it with a repeat left, and with none. -/
theorem witness_advance :
    let s (rung pass : Nat) : State :=
      { slotRead { paged with rung := rung, pass := pass } .paging with roster := (climbing rung pass).roster }
    (∀ r p, contextOfSlot (s r p) 14 = some 0 ∧ (context (s r p) 0).state = .paging ∧ (s r p).calls.backlog = [])
    ∧ (∀ r ∈ [0, 1], (callRung (s r 0) (context (s r 0) 0)).hold = false ∧ movesOnAtOnce (s r 0) 0)
    ∧ (callRung (s 1 1) (context (s 1 1) 0)).hold = false ∧ movesOnAtOnce (s 1 1) 0 := by
  intro s
  refine ⟨fun r p => ⟨rfl, rfl, rfl⟩, ?_, by decide, .inr (.inr ⟨by decide, by decide, rfl⟩)⟩
  intro r h
  rcases List.mem_cons.1 h with rfl | h
  · exact ⟨by decide, .inl ⟨by decide, by decide, fun e k => by cases k⟩⟩
  · rw [List.mem_singleton.1 h]
    exact ⟨by decide, .inr (.inl ⟨by decide, by decide, by decide⟩)⟩

/-- The host part of slot 14 with a new request of a code and a value. -/
def requested (code value : Nat) : HostPart := { readHostPart (host 0 1 0 1) with requestCode := code, requestValue := value }

/-- A new request of each code that changes nothing: of codes 0 and 6, of each other one in the state that it does not act in, and of
RAISE to 0 and to the present severity. -/
theorem witness_requestsWithoutEffect :
    let none' := slotRead .empty .cleared
    let on := slotRead paged .paging
    (requested 0 0).requestNumber ≠ (slotImage on 14).takenRequest ∧ (slotImage on 14).state ≠ .empty
    ∧ (slotImage none' 14).state ≠ .empty ∧ (slotImage none' 14).state.live = false ∧ contextOfSlot none' 14 = none
    ∧ (∀ c, contextOfSlot none' 14 = some c → (context none' c).state ≠ .held ∧ (context none' c).state ≠ .paging)
    ∧ presentSeverity none' 14 = none ∧ contextOfSlot on 14 = some 0 ∧ presentSeverity on 14 = some 1
    ∧ (requested 5 0).requestValue = 0 ∧ 1 ≤ (requested 5 1).requestValue ∧ 5 < (requested 6 0).requestCode := by
  intro none' on
  exact ⟨by decide, by decide, by decide, by decide, by decide, fun c h => absurd (h.symm.trans (by decide)) (Option.some_ne_none c),
    by decide⟩

/-- WITHDRAW, CLOSE and ADVANCE of a PAGING call on a HOLD rung, ADVANCE on another, RELEASE of a HELD one past its last rung, RAISE of a call of severity 2
to 1, with no accepter and with one, and WITHDRAW and RAISE of a call that waits. -/
theorem witness_requestsThatAct :
    let on := slotRead paged .paging
    let climbs := { on with roster := (climbing 0 0).roster }
    let held := slotRead { paged with state := .held } .held
    let low := slotRead { paged with severity := 2 } .paging
    let taken := slotRead { accepted 1 with severity := 2 } .accepted
    let w := (slotRead .empty .waiting).modCalls fun c => { c with backlog := [waiting 14] }
    (contextOfSlot on 14 = some 0 ∧ (slotImage on 14).state.live = true ∧ (context on 0).state = .paging
      ∧ (callRung on (context on 0)).hold = true)
    ∧ (contextOfSlot climbs 14 = some 0 ∧ (context climbs 0).state = .paging ∧ (callRung climbs (context climbs 0)).hold = false)
    ∧ (contextOfSlot held 14 = some 0 ∧ (context held 0).state = .held
      ∧ (callLadder held (context held 0)).effectiveLast ≤ (context held 0).rung
      ∧ ¬repeatsOnce (callLadder held (context held 0)) (context held 0))
    ∧ (contextOfSlot low 14 = some 0 ∧ (requested 5 1).requestValue ≠ 0 ∧ (requested 5 1).requestValue < (context low 0).severity
      ∧ (context low 0).accepter = none)
    ∧ (contextOfSlot taken 14 = some 0 ∧ (context taken 0).accepter = some 0 ∧ 1 < (context taken 0).severity)
    ∧ (slotImage w 14).state.live = true ∧ contextOfSlot w 14 = none
    ∧ w.calls.backlog.find? (fun v => v.slot == 14) = some (waiting 14) ∧ (requested 5 2).requestValue < (waiting 14).severity := by
  decide

/-- A new post in a slot whose call holds a context, in one whose call waits, and in one with no call; and a valid post while the lowest
FREE context is 1, with a ladder that can be walked and with one that cannot. -/
theorem witness_posts :
    let on := slotRead paged .paging
    let w := (slotRead .empty .waiting).modCalls fun c => { c with backlog := [waiting 14] }
    let free := withArea (.slotHost 14) (running paged)
    let h : HostPart := { readHostPart (host 1 4 0 0) with callNumber := 9 }
    14 < on.area.slots.length ∧ h.postNumber ≠ (slotImage on 14).takenPost ∧ h.postNumber ≠ (slotImage w 14).takenPost
    ∧ (slotImage on 14).state.live = true ∧ contextOfSlot on 14 = some 0 ∧ (slotImage w 14).state.live = true
    ∧ contextOfSlot w 14 = none ∧ w.calls.backlog.find? (fun v => v.slot == 14) = some (waiting 14)
    ∧ (slotImage free 14).state.live = false ∧ slotTaken free 14 = false ∧ postError free 14 h = none ∧ free.engine = .running
    ∧ 1 < free.calls.contexts.length ∧ (context free 1).state = .free ∧ (∀ d, d < 1 → (context free d).state ≠ .free)
    ∧ ladderUsable free.roster.tables h.ladder = true ∧ ladderUsable free.roster.tables 1 = false := by decide

/-- A post that fails each check of R7 first, at the bounds of the severities and the zones, with the call number of a call of another slot
that holds a context and of one that waits, and of its own slot; and the ladders that can be walked and cannot. -/
theorem test_postChecks :
    let s := (running { paged with callNumber := 9 }).modCalls fun c => { c with backlog := [{ waiting 14 with callNumber := 8 }] }
    let check (slot severity zone : Nat) (number : Word) : Option Reason :=
      postError s slot { readHostPart (host 1 4 0 0) with severity := severity, zone := zone, callNumber := number }
    check 3 0 25 9 = some .badSeverity ∧ check 3 5 25 9 = some .badSeverity ∧ check 3 1 25 9 = some .badZone
      ∧ check 3 4 3 9 = some .badZone ∧ check 3 4 2 9 = some .duplicate ∧ check 3 4 0 8 = some .duplicate
      ∧ check 0 4 1 9 = none ∧ check 14 4 1 8 = none ∧ check 3 1 0 7 = none
      ∧ ladderUsable s.roster.tables 0 = true ∧ ladderUsable s.roster.tables 1 = false ∧ ladderUsable s.roster.tables 32 = false := by
  decide

/-- A descriptor's 24 bytes, with its state. -/
def descriptor (st : Byte) : List Byte := [32, 0, 0, 0, 0, 0, 0, 0, 4, 0, 0, 0, st] ++ List.replicate 11 0

theorem witness_descriptorState :
    let s := { withArea .descriptorState (running paged) with journal := { Journal.empty with state := .stalled } }
    s.agenda = [] ∧ s.engine = .running ∧ s.area.scanEnding = false ∧ s.area.bus = some (readTransaction .descriptorState [])
      ∧ s.area.memoryFault = false ∧ s.journal.state = .stalled ∧ s.journal.bus = none
      ∧ byteAt (descriptor 1) 12 ≠ 0 ∧ byteAt (descriptor 0) 12 = 0 := by decide

/-- The last slot with nothing new, the journal STALLED and in another state, with the flag set and clear, a close pending and none, and with
each transaction of the journal, or none, in flight. -/
theorem witness_stepSix :
    let s (st : JournalState) (fault closing : Bool) (bus : Option (Transaction JournalOp)) : State :=
      (withArea (.slotHost 15) { running paged with
        journal := { Journal.empty with state := st, closePending := closing, bus := bus } }).modArea fun a => { a with memoryFault := fault }
    (∀ st f c b, (s st f c b).agenda = [] ∧ (s st f c b).engine = .running ∧ (s st f c b).area.scanEnding = false
      ∧ (s st f c b).area.bus = some (readTransaction (.slotHost 15) []) ∧ (s st f c b).journal.state = st
      ∧ (s st f c b).area.memoryFault = f ∧ (s st f c b).journal.closePending = c ∧ (s st f c b).journal.bus = b)
    ∧ (let e := s .stalled false true (some (readTransaction .orphanWrite []))
      15 < e.area.slots.length ∧ e.area.directory.slots.count ≤ 15 + 1
        ∧ (readHostPart (List.replicate 64 0)).postNumber = (slotImage e 15).takenPost
        ∧ (readHostPart (List.replicate 64 0)).requestNumber = (slotImage e 15).takenRequest)
    ∧ JournalOp.orphanWrite ∉ [JournalOp.takeRead, .takeWrite, .closeWrite, .orphanBeforeTake] := by
  intro s
  exact ⟨fun _ _ _ _ => ⟨rfl, rfl, rfl, rfl, rfl, rfl, rfl, rfl⟩, by decide⟩

/-- A write in progress, with some slots, members and drops dirty: slot 1, member 1, and the drops at address 2 of line 0 and 1 of
line 1. -/
def mirrors (op : AreaOp) (slots members drops : Bool) : State :=
  let s := running paged
  let d (b : Bool) : Drop := { drop .transmitter .ready with dirty := b }
  { withArea op s with
    area := { (withArea op s).area with
      slots := .emptyWith 0 0 :: { SlotImage.emptyWith 0 0 with dirty := slots, touched := slots } :: List.replicate 14 (.emptyWith 0 0) }
    roster := { s.roster with members := [.empty, { Member.empty with dirty := members }] }
    line0 := { Line.empty with drops := [d false, d drops] }
    line1 := { Line.empty with drops := [d drops] } }

/-- The drop of a drop mirror entry. -/
def entryDrop (s : State) (i : Nat) : Option Drop := if i < 16 then drop? s .l0 (i + 1) else drop? s .l1 (i - 15)

/-- The first of the dirty ones from an index on. -/
theorem isLeast_from {p : Nat → Prop} {start i : Nat} (h : start ≤ i) (k : p i) (q : ∀ j, j < i → start ≤ j → ¬p j) :
    IsLeast { j | start ≤ j ∧ p j } i :=
  ⟨⟨h, k⟩, fun j m => Nat.le_of_not_lt fun l => q j l m.1 m.2⟩

/-- A dirty slot, member and drop of each line after the one just written; none of them; and a drop mirror of no entries. -/
theorem witness_writeStep :
    let s := mirrors
    let n (op : AreaOp) : State := (s op false false true).modArea fun a => { a with
      directory := { a.directory with dropMirror := .empty } }
    let slotDirty (x : State) : Nat → Prop := fun i => i < x.area.slots.length ∧ (slotImage x i).dirty = true
    let memberDirty (x : State) : Nat → Prop := fun m =>
      m < 512 ∧ m < x.area.directory.memberMirror.count ∧ (member x m).dirty = true
    let dropDirty (x : State) : Nat → Prop := fun i => x.area.directory.dropMirror.count = 32 ∧ i < 32
      ∧ ∃ d, entryDrop x i = some d ∧ d.dirty = true
    (∀ op a b c, (s op a b c).agenda = [] ∧ (s op a b c).engine = .running ∧ (s op a b c).area.scanEnding = false
      ∧ (s op a b c).area.bus = some (readTransaction op []))
    ∧ (0 < (s (.slotImage 0) true true true).area.slots.length ∧ 0 < (s (.memberEntry 0) true true true).roster.members.length)
    ∧ IsLeast { i | 1 ≤ i ∧ slotDirty (s (.slotImage 0) true true true) i } 1
    ∧ (∀ i, 1 ≤ i → ¬slotDirty (s (.slotImage 0) false true true) i)
    ∧ IsLeast { m | 0 ≤ m ∧ memberDirty (s (.slotImage 0) false true true) m } 1
    ∧ (∀ m, 0 ≤ m → ¬memberDirty (s (.slotImage 0) false false true) m)
    ∧ IsLeast { i | 0 ≤ i ∧ dropDirty (s (.slotImage 0) false false true) i } 1
    ∧ IsLeast { i | 2 ≤ i ∧ dropDirty (s (.dropEntry 1) false false true) i } 16
    ∧ (∀ i, 17 ≤ i → ¬dropDirty (s (.dropEntry 16) false false true) i)
    ∧ (∀ i, 0 ≤ i → ¬dropDirty (n (.memberEntry 1)) i) := by
  intro s n slotDirty memberDirty dropDirty
  have least (i : Nat) (start : Nat) (x : State) (e : x.area.directory.dropMirror.count = 32) (h : start ≤ i) (b : i < 32)
      (d : (entryDrop x i).any (·.dirty) = true)
      (q : ∀ j, j < i → start ≤ j → (entryDrop x j).any (·.dirty) = false) : IsLeast { j | start ≤ j ∧ dropDirty x j } i := by
    refine isLeast_from h ⟨e, b, ?_⟩ fun j l m => ?_
    · cases k : entryDrop x i with
      | none => rw [k] at d; cases d
      | some v => rw [k] at d; exact ⟨v, rfl, d⟩
    · rintro ⟨_, _, v, k, w⟩
      have := q j l m
      rw [k] at this
      exact Bool.noConfusion (w.symm.trans this)
  refine ⟨fun op a b c => ⟨rfl, rfl, rfl, rfl⟩, by decide, ?_, ?_, ?_, ?_, ?_, ?_, ?_, ?_⟩
  · exact isLeast_from (Nat.le_refl 1) (by decide) fun j l m => absurd l (Nat.not_lt.2 m)
  · rintro i h ⟨b, d⟩
    have : ∀ i, i < 16 → 1 ≤ i → (slotImage (s (.slotImage 0) false true true) i).dirty = false := by decide
    exact Bool.noConfusion (d.symm.trans (this i b h))
  · exact isLeast_from (Nat.zero_le 1) (by decide) (by decide)
  · rintro m _ ⟨_, b, d⟩
    have : ∀ m, m < 2 → (member (s (.slotImage 0) false false true) m).dirty = false := by decide
    exact Bool.noConfusion (d.symm.trans (this m b))
  · exact least 1 0 _ rfl (Nat.zero_le 1) (by decide) (by decide) (by decide)
  · exact least 16 2 _ rfl (by decide) (by decide) (by decide) (by decide)
  · rintro i h ⟨_, b, v, k, w⟩
    have : ∀ i, i < 32 → 17 ≤ i → entryDrop (s (.dropEntry 16) false false true) i = none := by decide
    exact Option.some_ne_none v (k.symm.trans (this i b h))
  · rintro i _ ⟨e, _⟩
    exact absurd e (by decide)

theorem witness_headerWrite :
    let s (n : Bool) : State := (withArea .headerWrite (running paged)).modArea fun a => { a with nudgePending := n }
    let f : State := ({ s false with engine := .stopping }).modArea fun a => { a with finalScan := true }
    (∀ n, (s n).agenda = [] ∧ (s n).area.bus = some (readTransaction .headerWrite []) ∧ (s n).area.finalScan = false
      ∧ (s n).engine = .running ∧ (s n).area.memoryFault = false ∧ (s n).area.nudgePending = n)
    ∧ f.agenda = [] ∧ f.area.bus = some (readTransaction .headerWrite []) ∧ f.area.finalScan = true ∧ f.engine = .stopping := by
  intro s f
  exact ⟨fun n => ⟨rfl, rfl, rfl, rfl, rfl, rfl⟩, rfl, rfl, rfl, rfl⟩

/-- A memory-fault flag set within the scan, and one set before it, with one record skipped. -/
theorem witness_headerWrite_fault :
    let s (inScan : Bool) : State := { (withArea .headerWrite (running paged)).modArea (fun a => { a with
      memoryFault := true, faultInScan := inScan }) with journal := { Journal.empty with state := .writing, capacity := 4, skipped := 1 } }
    (∀ b, (s b).agenda = [] ∧ (s b).area.bus = some (readTransaction .headerWrite []) ∧ (s b).area.finalScan = false
      ∧ (s b).engine = .running ∧ (s b).area.memoryFault = true ∧ (s b).area.faultInScan = b)
    ∧ (s false).journal.state = .writing ∧ (s false).journal.bus = none ∧ (s false).journal.restartPending = false
    ∧ (s false).journal.fill < (s false).journal.capacity ∧ 0 < (s false).journal.skipped := by
  intro s
  exact ⟨fun b => ⟨rfl, rfl, rfl, rfl, rfl, rfl⟩, rfl, rfl, rfl, by decide, by decide⟩

/-! ## Witnesses: the journal -/

theorem witness_journal :
    let s (op : JournalOp) : State := withJournal .writing op (running paged)
    ∀ op, (s op).agenda = [] ∧ (s op).engine ≠ .stopping ∧ (s op).area.memoryFault = false
      ∧ (s op).journal.restartPending = false ∧ (s op).journal.closeThenZero = false ∧ areaCloses (s op) = false
      ∧ (s op).journal.state = .writing ∧ (s op).journal.bus = some (readTransaction op [])
      ∧ byteAt (descriptor 0) 12 = 0 ∧ byteAt (descriptor 2) 12 ≠ 0 ∧ (s op).journal.fill < (s op).journal.capacity
      ∧ (s op).journal.skipped = 0 ∧ (s op).journal.pending = [] :=
  fun _ => ⟨rfl, (by intro h; cases h), rfl, rfl, rfl, rfl, rfl, rfl, rfl, by decide, Nat.zero_lt_succ 3, rfl, rfl⟩

/-- Something skipped, a record pending, and a block that the next record fills. -/
theorem witness_journal_boundaries :
    let s (n fill : Nat) : State := (withJournal .writing .takeWrite (running paged)).modJournal fun j => { j with
      skipped := n, fill := fill, pending := [blankRecord .held] }
    0 < (s 1 0).journal.skipped ∧ (s 0 0).journal.skipped = 0 ∧ (s 0 0).journal.pending = [blankRecord .held]
      ∧ (s 0 3).journal.fill < (s 0 3).journal.capacity ∧ (s 0 3).journal.capacity ≤ (s 0 3).journal.fill + 1 := by decide

/-- A take whose read or write settles with a restart waiting, with a close pending and without, in each state; and the bytes that a take
waits for. -/
theorem witness_takeSettles :
    let s (st : JournalState) (op : JournalOp) (waits closing : Bool) : State := (withJournal st op (running paged)).modJournal fun j => { j with
      restartPending := waits, closePending := closing }
    (∀ st op w c, (s st op w c).agenda = [] ∧ (s st op w c).engine ≠ .stopping ∧ (s st op w c).area.memoryFault = false
      ∧ (s st op w c).journal.bus = some (readTransaction op []) ∧ (s st op w c).journal.state = st
      ∧ (s st op w c).journal.restartPending = w ∧ (s st op w c).journal.closePending = c)
    ∧ byteAt (descriptor 0) 12 = 0 ∧ byteAt (descriptor 2) 12 ≠ 0 :=
  ⟨fun _ _ _ _ => ⟨rfl, (by intro h; cases h), rfl, rfl, rfl, rfl, rfl⟩, by decide⟩

/-- R165: a record submitted to an idle journal in WRITING begins its write at once, and one that finds 64 waiting is skipped. -/
theorem test_submit_begins_the_write :
    let s (n : Nat) (bus : Option (Transaction JournalOp)) : State := { running paged with journal := { Journal.empty with
      state := .writing, capacity := 4, bus := bus, pending := List.replicate n (blankRecord .held) } }
    ((submit (blankRecord .held) (s 0 none)).journal.bus.map (·.op)) = some (.recordWrite none)
    ∧ (submit (blankRecord .held) (s 64 (some (readTransaction .orphanWrite [])))).journal.skipped = 1 := by decide

/-- The first of two descriptors has a successor; the last of the chain has one only with WRAP. -/
theorem witness_close :
    let s (i : Nat) (wrap : Bool) : State := (withJournal .writing .closeWrite (running paged)).modJournal fun j => { j with
      index := i, wrap := wrap }
    let r (zero : Bool) : State := (s 0 false).modJournal fun j => { j with closeThenZero := zero, restartPending := !zero }
    (∀ b, (r b).agenda = [] ∧ (r b).engine ≠ .stopping ∧ (r b).area.memoryFault = false ∧ areaCloses (r b) = false
      ∧ (r b).journal.bus = some (readTransaction .closeWrite []) ∧ (r b).journal.closeThenZero = b
      ∧ (r b).journal.restartPending = !b) ∧
    (¬((s 0 false).journal.last = true ∨ (s 0 false).area.directory.descriptors.count ≤ (s 0 false).journal.index + 1))
      ∧ (s 1 true).area.directory.descriptors.count ≤ (s 1 true).journal.index + 1 ∧ (s 1 true).journal.wrap = true
      ∧ (s 1 false).journal.wrap = false := by
  intro s r
  exact ⟨fun b => ⟨rfl, (by intro h; cases h), rfl, rfl, rfl, rfl, rfl⟩, by decide, by decide, rfl, rfl⟩

/-- A close that completes with the memory-fault flag set; and one that scan step 6 makes again, with a successor, at the end of the chain
with WRAP and without, for a restart and with one waiting, and with the bytes of a given-up record on their way or none. -/
theorem witness_closeAgain :
    let f : State := (withJournal .writing .closeWrite (running paged)).modArea fun a => { a with memoryFault := true }
    let s (i : Nat) (wrap zero waits : Bool) (bus : Option (Transaction JournalOp)) : State := withArea .descriptorClose { running paged with
      journal := { Journal.empty with
        state := .stalled, closePending := true, index := i, wrap := wrap, closeThenZero := zero, restartPending := waits, bus := bus } }
    (f.agenda = [] ∧ f.engine ≠ .stopping ∧ f.area.memoryFault = true ∧ areaCloses f = false ∧ f.journal.state = .writing
      ∧ f.journal.bus = some (readTransaction .closeWrite []) ∧ f.journal.last = false
      ∧ f.journal.index + 1 < f.area.directory.descriptors.count)
    ∧ (∀ i w z r b, (s i w z r b).agenda = [] ∧ (s i w z r b).engine = .running ∧ (s i w z r b).area.scanEnding = false
      ∧ (s i w z r b).area.memoryFault = false ∧ (s i w z r b).area.bus = some (readTransaction .descriptorClose [])
      ∧ (s i w z r b).journal.bus = b ∧ (s i w z r b).journal.restartPending = r ∧ (s i w z r b).journal.closeThenZero = z
      ∧ (s i w z r b).journal.wrap = w ∧ (s i w z r b).journal.last = false)
    ∧ (s 0 false false false none).journal.index + 1 < (s 0 false false false none).area.directory.descriptors.count
    ∧ (s 1 true false false none).area.directory.descriptors.count ≤ (s 1 true false false none).journal.index + 1 := by
  intro f s
  exact ⟨by decide, fun i w z r b => ⟨rfl, rfl, rfl, rfl, rfl, rfl, rfl, rfl, rfl, rfl⟩, by decide, by decide⟩

/-- A restart request in each state of the journal, with no transaction in progress and with one, with a close pending and without, and
with the memory-fault flag set and clear. -/
theorem witness_restart :
    let s (st : JournalState) (closing fault : Bool) : State := { (running paged).modArea (fun a => { a with memoryFault := fault }) with
      journal := { Journal.empty with state := st, closePending := closing } }
    (∀ st c f, (s st c f).journal.bus = none ∧ (s st c f).journal.state = st ∧ (s st c f).journal.closePending = c
      ∧ (s st c f).area.memoryFault = f)
    ∧ (withJournal .writing .takeRead (running paged)).journal.bus ≠ none :=
  ⟨fun _ _ _ => ⟨rfl, rfl, rfl, rfl⟩, by decide⟩

/-- A restart request that meets each transaction of the Journal Writer, in WRITING and STALLED, with the memory-fault flag set and clear; and
one that waits in WRITING for bytes given up, and for a fill-count write of a record and of a GAP. -/
theorem witness_restartMeets :
    let s (st : JournalState) (op : JournalOp) (fault waits : Bool) : State :=
      ((withJournal st op (running paged)).modArea fun a => { a with memoryFault := fault }).modJournal fun j => { j with
        restartPending := waits, fill := 2, pending := [blankRecord .held], skipped := 3 }
    (∀ st op f w, (s st op f w).journal.bus = some (readTransaction op []) ∧ (s st op f w).journal.state = st
      ∧ (s st op f w).area.memoryFault = f ∧ (s st op f w).journal.restartPending = w ∧ (s st op f w).agenda = []
      ∧ (s st op f w).engine = .running)
    ∧ JournalOp.orphanBeforeTake ∈ [JournalOp.takeRead, .takeWrite, .closeWrite, .orphanBeforeTake]
    ∧ JournalState.stalled ≠ .writing :=
  ⟨fun _ _ _ _ => ⟨rfl, rfl, rfl, rfl, rfl, rfl⟩, by decide⟩

/-! ## Witnesses: the field lines -/

/-- A reply that starts at its drop's reply timeout, and one a bit time later; a probe's at 1,023 and at 1,024. -/
theorem witness_linePhases :
    let d := drop .transmitter .ready
    ((onLine .breaking d).line .l0).phase = .breaking ∧ ((onLine .comingUp d).line .l0).phase = .comingUp
      ∧ ((onLine (.restartFrame []) d).line .l0).phase = .restartFrame []
      ∧ ((onLine .restartWait d).line .l0).phase = .restartWait
      ∧ ((onLine (.sending (exchange false)) d).line .l0).phase = .sending (exchange false)
      ∧ ((onLine (.awaiting (exchange false)) d).line .l0).phase = .awaiting (exchange false)
      ∧ ((onLine .off d).line .l0).phase = .off
      ∧ drop? (onLine (.awaiting (exchange false)) d) .l0 1 = some d ∧ 60 ≤ d.replyTimeout ∧ ¬61 ≤ d.replyTimeout
      ∧ (exchange true).isProbe = true ∧ (exchange false).isProbe = false := by decide

/-- A phase that is no command's own but EXCHANGE_START's, a line that is not RUNNING, and an answer awaited of a probe and of a POLL. -/
theorem witness_otherPhases :
    let n (p : LinePhase) : Line := (onLine p (drop .transmitter .ready)).line .l0
    (n .gap).phase ≠ .breaking ∧ (n .gap).phase ≠ .comingUp ∧ (n .gap).phase ≠ .restartWait ∧ (n .gap).phase ≠ .emptySlot
    ∧ (n .emptySlot).phase ≠ .gap ∧ Line.empty.state ≠ .running
    ∧ (∀ x, (n .gap).phase ≠ .sending x) ∧ (∀ f, (n .gap).phase ≠ .restartFrame f) ∧ (∀ x, (n .gap).phase ≠ .awaiting x)
    ∧ (∀ x, (n .gap).phase ≠ .receiving x)
    ∧ (∀ x, (n (.awaiting (exchange true))).phase = .awaiting x → x.isProbe = true)
    ∧ ∀ x, (n (.awaiting (exchange false))).phase = .awaiting x → x.isProbe = false := by
  intro n
  refine ⟨by decide, by decide, by decide, by decide, by decide, by decide, ?_, ?_, ?_, ?_, ?_, ?_⟩ <;> intro x h <;> cases h <;> rfl

/-- Line 0 with a SILENT drop due at address 2 of three; with a READY or an UNKNOWN one at the address before the poll position; and
with none. -/
theorem witness_walk :
    let d (st : DropState) : Drop := { drop .transmitter st with countdown := 0 }
    let n (l : List Drop) (p : Nat) : Line := { Line.empty with state := .running, phase := .gap, drops := l, pollPosition := p }
    chooseExchange (n [d .isolated, d .silent, d .silent] 0) = .probe 2 false
      ∧ chooseExchange (n [d .ready, d .unknown] 2) = .poll 1 ∧ chooseExchange (n [d .ready, d .unknown] 1) = .probe 2 true
      ∧ chooseExchange (n [d .isolated] 0) = .empty := by decide

theorem witness_exchangeStart :
    let s (st : DropState) : State := onLine .gap (drop .transmitter st)
    (∀ st, (s st).agenda = [] ∧ (s st).engine ≠ .stopping ∧ ((s st).line .l0).state = .running ∧ ((s st).line .l0).phase = .gap
      ∧ drop? (s st) .l0 1 = some (drop .transmitter st))
    ∧ chooseExchange ((s .ready).line .l0) = .poll 1 ∧ chooseExchange ((s .unknown).line .l0) = .probe 1 true
    ∧ chooseExchange ((s .silent).line .l0) = .probe 1 false ∧ chooseExchange ((s .isolated).line .l0) = .empty
    ∧ (drop .transmitter .ready).inFlight = [] ∧ (drop .station .ready).kind ≠ .transmitter
    ∧ ((onLine .emptySlot (drop .transmitter .silent)).line .l0).phase = .emptySlot
    ∧ ((onLine .emptySlot (drop .transmitter .silent)).line .l0).restart = none := by
  intro s
  exact ⟨fun st => ⟨rfl, (by intro h; cases h), rfl, rfl, rfl⟩, by decide⟩

set_option maxRecDepth 20000 in
/-- A reply that takes the set (its taken bit equals the down bit), and one that does not; the last accepted up bit is 1. The set holds a
control message and a PAGE. -/
theorem witness_validReply :
    let d : Drop := { drop .transmitter .ready with inFlight := [control, carried .home], misses := 2 }
    let s := onLine (.receiving (exchange false)) d
    s.agenda = [] ∧ s.engine ≠ .stopping ∧ (s.line .l0).restart = none ∧ (s.line .l0).phase = .receiving (exchange false)
      ∧ (exchange false).isProbe = false ∧ drop? s .l0 1 = some d ∧ startsWithSync (reply 2) = true
      ∧ replyArrived ((reply 2).take 8) = false ∧ replyArrived (reply 2) = true ∧ d.kind = .transmitter
      ∧ judgeReply (exchange false) d.kind ((reply 2).take (replyLength (reply 2))) =
        .valid ((reply 2).take (replyLength (reply 2)))
      ∧ judgeReply (exchange false) d.kind ((reply 3).take (replyLength (reply 3))) =
        .valid ((reply 3).take (replyLength (reply 3)))
      ∧ replyUpBit (reply 2) = d.upBit ∧ replyUpBit (reply 3) = d.upBit ∧ (exchange false).carriesSet = true
      ∧ replyTakenBit (reply 2) = d.downBit ∧ replyTakenBit (reply 3) ≠ d.downBit := by decide

/-- A PAGE whose copy at address 1 of line 0 is reported on air, with the receipt window stopped and running; and the record gone, and at
another stage. -/
theorem witness_onAir :
    let s (w : Window) : State := (withJournal .writing .takeRead (carrying .home w [.ready]))
    let r (w : Window) : Delivery := carriedRecord .home w [0]
    (carried .home).carriage = .delivery 0 .home ∧ (∃ p f u, control.carriage = .control p f u)
      ∧ (∀ w ∈ [Window.stopped, .running 1030], delivery? (s w) 0 = some (r w) ∧ (r w).isPending = false ∧ (r w).stage = .home
        ∧ ({ line := .l0, drop := 1, state := .deferred } : Copy) ∈ (r w).copies)
      ∧ (r .stopped).receipt.active = false ∧ (r (.running 1030)).receipt.active = true ∧ (r .stopped).key.kind = .page
      ∧ tagLive (s .stopped) (r .stopped).key.tag = true ∧ (s .stopped).journal.state = .writing
      ∧ (s .stopped).area.memoryFault = false ∧ (s .stopped).journal.pending.length < 64
      ∧ delivery? (s .stopped) 1 = none ∧ (carriedRecord .plant .stopped [0]).stage ≠ .home := by
  refine ⟨rfl, ⟨_, _, _, rfl⟩, by decide⟩

/-- A station whose CALL lamp was sent STEADY and whose ATTEND lamp was sent OFF, each after two mismatches. -/
def station : Station where
  call := { commanded := .steady, sent := some .steady, flag := .ok, mismatchRun := 2, matchRun := 0 }
  attend := { commanded := .off, sent := some .off, flag := .ok, mismatchRun := 2, matchRun := 0 }

set_option maxRecDepth 20000 in
/-- A station's reply that sees both lamps as their commands leave them dark and lit, so that CALL enters FAULT and ATTEND enters STUCK,
and one that sees the CALL lamp lit and the other dark. -/
theorem witness_stationReply :
    let d : Drop := { drop .station .ready with station := some station }
    let x : Exchange := { exchange false with carriesSet := false, sameCall := true, sameAttend := true }
    let s := withJournal .writing .takeRead (onLine (.receiving x) d)
    let f (lit : Byte) : List Byte := frameOf [1#8, 2#8, lit, 2#8, 0#8]
    s.agenda = [] ∧ s.engine ≠ .stopping ∧ (s.line .l0).restart = none ∧ (s.line .l0).phase = .receiving x ∧ x.isProbe = false
      ∧ drop? s .l0 1 = some d ∧ d.kind = .station ∧ d.station = some station
      ∧ (∀ lit ∈ [1#8, 2#8], startsWithSync (f lit) = true ∧ replyArrived (f lit) = true
        ∧ judgeReply x d.kind ((f lit).take (replyLength (f lit))) = .valid ((f lit).take (replyLength (f lit)))
        ∧ replyUpBit (f lit) = d.upBit)
      ∧ (station.call.afterReply x.sameCall (bitOf (byteAt (f 2) 4) 0)).1 = .fault
      ∧ (station.attend.afterReply x.sameAttend (bitOf (byteAt (f 2) 4) 1)).1 = .stuck
      ∧ station.call.afterReply x.sameCall (bitOf (byteAt (f 1) 4) 0) = (.ok, 0, 0)
      ∧ station.attend.afterReply x.sameAttend (bitOf (byteAt (f 1) 4) 1) = (.ok, 0, 0)
      ∧ s.journal.state = .writing ∧ s.area.memoryFault = false ∧ s.journal.pending.length < 63 := by decide

/-- A POLL of a READY station and a probe of an UNKNOWN one, the CALL command the one sent before and the ATTEND command another; drops of
each kind that leave READY; and an empty slot that a restart of each kind waits for, with no drop READY. -/
theorem witness_lampsAndRestarts :
    let u : Station := { station with attend := { station.attend with commanded := .steady } }
    let d (st : DropState) : Drop := { drop .station st with station := some u }
    let s (st : DropState) : State := onLine .gap (d st)
    let e (r : Restart) : State := (onLine .emptySlot (drop .transmitter .silent)).modLine .l0 fun n => { n with restart := some r }
    (∀ st, (s st).agenda = [] ∧ (s st).engine = .running ∧ ((s st).line .l0).state = .running ∧ ((s st).line .l0).phase = .gap
      ∧ drop? (s st) .l0 1 = some (d st) ∧ (d st).station = some u ∧ (d st).state = st)
    ∧ chooseExchange ((s .ready).line .l0) = .poll 1 ∧ chooseExchange ((s .unknown).line .l0) = .probe 1 true
    ∧ u.call.sent = some u.call.commanded ∧ u.attend.sent ≠ some u.attend.commanded
    ∧ (drop .transmitter .ready).station = none
    ∧ (∀ r, ((e r).line .l0).phase = .emptySlot ∧ ((e r).line .l0).restart = some r ∧ (e r).agenda = [] ∧ (e r).engine = .running)
    ∧ ((e .cold).line .l0).drops = [drop .transmitter .silent] ∧ (drop .transmitter .silent).state ≠ .ready := by
  intro u d s e
  exact ⟨fun st => ⟨rfl, rfl, rfl, rfl, rfl, rfl, rfl⟩, by decide, by decide, by decide, by decide, by decide,
    fun r => ⟨rfl, rfl, rfl, rfl⟩, rfl, by decide⟩

set_option maxRecDepth 20000 in
/-- A transmitter's reply with a new HELLO report, and a station's with a new ATTEND press. -/
theorem witness_newReports :
    let x : Exchange := { exchange false with carriesSet := false }
    let f : List Byte := frameOf ([1#8, 1#8, 3#8, 0#8, 1#8] ++ [1#8, 101#8, 0, 0, 0xFF#8, 0xFF#8, 0, 0])
    let g : List Byte := frameOf ([1#8, 2#8, 0#8, 0#8, 1#8] ++ [8#8, 5#8, 0, 0])
    startsWithSync f = true ∧ replyArrived f = true ∧ judgeReply x .transmitter (f.take (replyLength f)) = .valid (f.take (replyLength f))
      ∧ replyUpBit (f.take (replyLength f)) ≠ (drop .transmitter .ready).upBit
      ∧ startsWithSync g = true ∧ replyArrived g = true ∧ judgeReply x .station (g.take (replyLength g)) = .valid (g.take (replyLength g))
      ∧ replyUpBit (g.take (replyLength g)) ≠ (drop .station .ready).upBit := by decide

set_option maxRecDepth 20000 in
/-- One miss and two before this one; one strike and two before this one, with isolation on and off; with a message in flight and one queued,
and with none; and replies that are corrupt by their sync, CRC, kind, a kind other than the drop list's, and a report's kind, and one from
another address. -/
theorem witness_missesAndStrikes :
    let d (n : Nat) (b : List Bool) (m : List AirEntry) : Drop :=
      { drop .transmitter .ready with misses := n, strikes := b, inFlight := m, queue := m }
    let s (p : LinePhase) (n : Nat) (b : List Bool) (m : List AirEntry) : State := onLine p (d n b m)
    let judged (f : List Byte) : Outcome := judgeReply (exchange false) .transmitter (f.take (replyLength f))
    let other : List Byte := frameOf [2#8, 1#8, 3#8, 0#8, 0#8]
    let corrupt : List (List Byte) := [(reply 2).take 7 ++ [0#8, 0#8], frameOf [1#8, 3#8, 3#8, 0#8, 0#8], frameOf [1#8, 2#8, 3#8, 0#8, 0#8],
      frameOf ([1#8, 1#8, 3#8, 0#8, 1#8] ++ List.replicate 8 0#8)]
    (∀ p n b m, (s p n b m).agenda = [] ∧ (s p n b m).engine ≠ .stopping ∧ ((s p n b m).line .l0).restart = none
      ∧ (exchange false).isProbe = false ∧ drop? (s p n b m) .l0 1 = some (d n b m) ∧ (d n b m).state = .ready
      ∧ (d n b m).inFlight = m ∧ (d n b m).queue = m ∧ ((s p n b m).line .l0).phase = p)
    ∧ (d 1 [] []).misses < 2 ∧ 2 ≤ (d 2 [] [control]).misses
    ∧ ((true :: (d 0 [true] []).strikes).take 16).count true < 3
    ∧ 3 ≤ ((true :: (d 0 (true :: List.replicate 13 false ++ [true]) []).strikes).take 16).count true
    ∧ (s .gap 0 [] []).roster.settings.isolateOnBabble = false
    ∧ ((s .gap 0 [] []).modRoster fun r => { r with settings := { settings with isolateOnBabble := true } }).roster.settings.isolateOnBabble = true
    ∧ (∀ f ∈ corrupt, startsWithSync f = true ∧ replyArrived f = true ∧ judged f = .corrupt)
    ∧ startsWithSync (0#8 :: reply 2) = false ∧ startsWithSync other = true ∧ replyArrived other = true ∧ judged other = .strike
    ∧ (withJournal .writing .takeRead (s .gap 0 [] [])).journal.state = .writing
    ∧ (withJournal .writing .takeRead (s .gap 0 [] [])).area.memoryFault = false
    ∧ (withJournal .writing .takeRead (s .gap 0 [] [])).journal.pending.length < 64 := by
  intro d s judged other corrupt
  exact ⟨fun p n b m => ⟨rfl, (by intro h; cases h), rfl, rfl, rfl, rfl, rfl, rfl, rfl⟩, by decide⟩

/-- What comes back from the drop at address 1 of line 0: a copy of each stage, at PLANT the only one or one of two; a copy of a record
that is gone or at another stage; and a control message in its first position, which the member's home zone can take with nothing heard or
another zone heard last, or cannot, and one in its second. -/
theorem witness_handBack :
    let s (st : Stage) (copies : List Nat) (states : List DropState) : State := withJournal .writing .takeRead (transmitters states
      { running paged with dispatcher := { records := [carriedRecord st .stopped copies], order := 9, serial := 1, pendingCount := 0 } })
    let others (st : Stage) (copies : List Nat) : List Copy :=
      (carriedRecord st .stopped copies).copies.filter fun x => x.line != .l0 || x.drop != 1
    let heard : State := (s .home [0] [.ready]).modRoster fun r => { r with members := r.members.modify 0 fun x => { x with
      lastZone := some 2, lastTick := 1000 } }
    (∀ st copies states, delivery? (s st copies states) 0 = some (carriedRecord st .stopped copies)
      ∧ (carriedRecord st .stopped copies).isPending = false ∧ (carriedRecord st .stopped copies).stage = st
      ∧ (carried st).carriage = .delivery 0 st ∧ (s st copies states).journal.state = .writing
      ∧ (s st copies states).area.memoryFault = false ∧ (s st copies states).journal.pending = [])
    ∧ ({ line := .l0, drop := 1, state := .deferred } : Copy) ∈ (carriedRecord .plant .stopped [0]).copies
    ∧ others .plant [0] = [] ∧ others .plant [0, 1] ≠ [] ∧ (carriedRecord .plant .stopped [0]).receipt.active = false
    ∧ delivery? (s .plant [0] []) 1 = none ∧ Stage.home ≠ .plant
    ∧ control.carriage = .control .first none none ∧ control.message.member = 0 ∧ homeZone tables 0 = 1 ∧ (1 : Nat) ≠ 0
    ∧ freshZone (s .home [0] [.ready]) 0 ≠ some 1 ∧ freshZone heard 0 = some 2
    ∧ usableTransmitter (s .home [0] [.ready]) 1 = some (.l0, 1) ∧ usableTransmitter heard 1 = some (.l0, 1)
    ∧ usableTransmitter (s .home [0] [.silent]) 1 = none ∧ RoutePosition.second ≠ .first := by
  intro s others heard
  exact ⟨fun st copies states => ⟨rfl, rfl, rfl, rfl, rfl, rfl, rfl⟩, by decide⟩

set_option maxRecDepth 20000 in
/-- A probe with a valid reply of the drop-list kind, one of the other kind, a corrupt one, and one from another address, with one strike
and two before it. -/
theorem witness_probe :
    let d (st : DropState) (b : List Bool) : Drop := { drop .transmitter st with strikes := b }
    let s (p : LinePhase) (st : DropState) (b : List Bool) : State := onLine p (d st b)
    let judged (f : List Byte) : Outcome := judgeReply (exchange true) .transmitter (f.take (replyLength f))
    let found : List Byte := frameOf [1#8, 2#8, 0#8, 0#8, 0#8]
    let other : List Byte := frameOf [2#8, 1#8, 3#8, 0#8, 0#8]
    let broken : List Byte := (reply 2).take 7 ++ [0#8, 0#8]
    (∀ p st b, (s p st b).agenda = [] ∧ (s p st b).engine ≠ .stopping ∧ ((s p st b).line .l0).restart = none
      ∧ drop? (s p st b) .l0 1 = some (d st b) ∧ ((s p st b).line .l0).phase = p)
    ∧ (exchange true).isProbe = true ∧ (d .unknown []).state = .unknown ∧ (d .silent []).state = .silent
    ∧ (∀ f ∈ [reply 2, found, other, broken], startsWithSync f = true ∧ replyArrived f = true)
    ∧ judged (reply 2) = .valid ((reply 2).take (replyLength (reply 2))) ∧ replyKind (reply 2) = .transmitter
    ∧ judged found = .valid (found.take (replyLength found)) ∧ replyKind found = .station ∧ DropKind.station ≠ .transmitter
    ∧ judged other = .strike ∧ judged broken = .corrupt ∧ startsWithSync (0#8 :: reply 2) = false
    ∧ ((true :: (d .silent [true]).strikes).take 16).count true < 3
    ∧ 3 ≤ ((true :: (d .silent [true, true]).strikes).take 16).count true
    ∧ (withJournal .writing .takeRead (s .gap .silent [])).journal.pending.length < 63 := by
  intro d s judged found other broken
  exact ⟨fun p st b => ⟨rfl, (by intro h; cases h), rfl, rfl, rfl⟩, by decide⟩

/-! ## Witnesses: calls, members, pages and answers -/

/-- The tag 0 is live; the tag of the next reuse of context 0, one of context 65 and the absent tag are stale. -/
theorem witness_staleTags : tagLive (running paged) 0 = true ∧ tagLive (running paged) 128 = false
    ∧ tagLive (running paged) 65 = false ∧ tagLive (running paged) 0xFFFF = false := by decide

/-- Pager 101 is member 0's and 999 is nobody's; a HELLO report of each. -/
theorem witness_reports :
    let s := onLine .gap (drop .transmitter .ready)
    (101 : Nat) ≠ 0 ∧ s.roster.tables.roster.length ≤ 512 ∧ readReportKind [1#8, 101#8, 0, 0] = some .hello
      ∧ memberOfPager s.roster.tables (le24 [1#8, 101#8, 0, 0] 1) = some 0
      ∧ memberOfPager s.roster.tables (le24 [1#8, 0xE7#8, 3#8, 0] 1) = none
      ∧ drop? s .l0 1 = some (drop .transmitter .ready) ∧ 0 < s.roster.members.length := by decide

/-- A record of each kind of tag 0 for member 0. -/
def pageRecord (kind : DeliveryKind) : Delivery := { record .home false with key := { tag := 0, member := 0, kind := kind } }

/-- The live tag 0 with no record of the member and with one of each kind, and the member's entry current. -/
theorem witness_receipts :
    let e : Contact := { Contact.blank 0 0 0 with current := true, breakIn := true, remind := .running 1000 }
    (tagLive (running paged) 0 = true ∧ (running paged).dispatcher.ok ∧ (context (running paged) (0 % 128)).tag = 0
      ∧ ∀ v ∈ (running paged).dispatcher.records, v.key.tag ≠ 0 ∨ v.key.member ≠ 0)
    ∧ (∀ kind, (withRecord (pageRecord kind)).dispatcher.ok ∧ tagLive (withRecord (pageRecord kind)) 0 = true
      ∧ (withRecord (pageRecord kind)).dispatcher.records.filter (fun w => w.key.tag == 0 && w.key.member == 0) = [pageRecord kind]
      ∧ (pageRecord kind).key.kind = kind)
    ∧ (context (running paged) 0).contact 0 = some e ∧ e.current = true ∧ (context (running paged) 0).state = .paging := by
  refine ⟨⟨by decide, ok_noRecords _ rfl, by decide, fun v h => absurd h List.not_mem_nil⟩, fun kind => ⟨ok_oneRecord _ rfl, ?_, rfl, rfl⟩,
    by decide, rfl, by decide⟩
  cases kind <;> decide

/-- The call of the live tag 0: ACCEPTED by its member and by another one, ON SITE by them and with nobody, PAGING with an ACCEPT taken
and refused, and with no entry of the member, and HELD. -/
theorem witness_answers :
    let on (a : Option Nat) : State := running { accepted 1 with state := .onSite, accepter := a }
    let held := running { paged with state := .held, contacted := [] }
    tagLive (running (accepted 1)) 0 = true ∧ (context (running (accepted 1)) 0).state = .accepted
      ∧ (context (running (accepted 1)) 0).accepter = some 0 ∧ (0 : Nat) ≠ 1
      ∧ (∀ a ∈ [none, some 0], tagLive (on a) 0 = true ∧ (context (on a) 0).state = .onSite ∧ (context (on a) 0).accepter = a)
      ∧ (context (running paged) 0).state = .paging ∧ decideAccept (running paged) 0 1 = .taken
      ∧ decideAccept (running paged) 0 2 = .refused .offDuty ∧ (context (running paged) 0).isCurrent 1 = false
      ∧ tagLive held 0 = true ∧ (context held 0).state = .held ∧ decideAccept held 0 0 = .taken
      ∧ (context held 0).slot = some 0 ∧ 0 < held.area.slots.length := by decide

/-- A queue with the same message, one with room, and a full one whose last entry has a lower or an equal urgency. -/
theorem witness_enqueue :
    let e (u : Nat) (n : Word) (tag : Nat) : AirEntry :=
      { control with message := { control.message with tag := tag }, urgency := u, order := n }
    let full : List AirEntry := (List.range 16).map fun i => e 100 (BitVec.ofNat 32 i) (i + 1)
    ([e 5 0 0].filter fun x => !(e 4 1 0).sameMessage x) ≠ [e 5 0 0]
      ∧ ([e 5 0 1].filter fun x => !(e 4 1 0).sameMessage x) = [e 5 0 1]
      ∧ (full.filter fun x => !(e 101 16 0).sameMessage x) = full ∧ full.length = 16
      ∧ full = full.dropLast ++ [e 100 15 16] ∧ (e 100 15 16).urgency < (e 101 16 0).urgency
      ∧ (e 100 16 0).urgency ≤ (e 100 15 16).urgency
      ∧ (full.Pairwise fun a b => b.urgency ≤ a.urgency) := by decide

/-- A transmitter whose full queue gives up its last entry, a control message or a copy, or does not place the new one; and a record whose
copy waits for a window, and one whose copy does not. -/
theorem witness_leftOut :
    let full (u : Nat) (c : Nat → Carriage) : List AirEntry := (List.range 16).map fun i =>
      { control with message := { control.message with tag := 128 + i }, urgency := u, order := BitVec.ofNat 32 i, carriage := c i }
    let d (u : Nat) (c : Nat → Carriage) : Drop := { drop .transmitter .ready with queue := full u c }
    let r (w : Window) : Delivery := { carriedRecord .home .stopped [0] with retry := w }
    let s (u : Nat) (c : Nat → Carriage) (w : Window) : State := withJournal .writing .takeRead { onLine .gap (d u c) with
      dispatcher := { records := [r w], order := 20, serial := 1, pendingCount := 0 } }
    let new (carriage : Carriage) (s : State) : AirEntry :=
      { message := (carried .home).message, urgency := messageUrgency s (carried .home).message none, order := 20, carriage := carriage }
    let asControl : Nat → Carriage := fun _ => .control .first none none
    let asCopy : Nat → Carriage := fun _ => .delivery 0 .home
    let p (u : Nat) (c : Nat → Carriage) (carriage : Carriage) : Placement :=
      settleEntry (new carriage (s u c .stopped)) (full u c)
    (∀ u c w, drop? (s u c w) .l0 1 = some (d u c) ∧ delivery? (s u c w) 0 = some (r w) ∧ (r w).receipt.isRunning = false
      ∧ (r w).key.kind ≠ .remind ∧ (s u c w).journal.state = .writing ∧ (s u c w).area.memoryFault = false
      ∧ (s u c w).journal.pending.length < 64)
    ∧ (r (.running 1000)).retry.active = true ∧ (r .stopped).retry.active = false
    ∧ (p 100 asControl (asCopy 0)).placed = true ∧ (p 100 asControl (asCopy 0)).displaced = (full 100 asControl).getLast?
    ∧ (p 100 asCopy (asControl 0)).displaced = (full 100 asCopy).getLast? ∧ (p 5000 asControl (asCopy 0)).placed = false
    ∧ (p 5000 asControl (asControl 0)).placed = false ∧ ((full 100 asControl).getLast?.map (·.carriage)) = some (asControl 0)
    ∧ ((full 100 asCopy).getLast?.map (·.carriage)) = some (asCopy 0) := by
  intro full d r s new asControl asCopy p
  exact ⟨fun u c w => ⟨rfl, rfl, rfl, (by intro h; cases h), rfl, rfl, Nat.zero_lt_succ 63⟩, by decide⟩

/-- A change of a member's record, and a release that changes nothing. -/
theorem witness_memberState :
    let s := running paged
    0 < s.roster.members.length ∧ (member (stepPaged 0 s) 0).dirty = true
      ∧ ({ member s 0 with engaged := none, offDutyPending := false } : Member) = member s 0 := by decide

/-- Each row of R107 in turn: the accepter, another member, a call with no accepter, a member off the roster, a member engaged
elsewhere, and one who may take the call. -/
theorem witness_acceptRows :
    let busy : State := engage 1 128 (running paged)
    decideAccept (running (accepted 1)) 0 0 = .repeated ∧ decideAccept (running (accepted 1)) 0 1 = .refused .taken
      ∧ decideAccept (running { accepted 1 with state := .onSite, accepter := none }) 0 0 = .refused .onSite
      ∧ decideAccept (running paged) 0 2 = .refused .offDuty ∧ decideAccept busy 0 1 = .refused .busy
      ∧ decideAccept (running paged) 0 1 = .taken ∧ decideAccept (engage 0 128 (running paged)) 0 0 = .taken := by decide

/-- Member 0 current in the call of context 0 with the break-in mark, engaged with another call or with none; the accepter of an ACCEPTED
call of severity 2 that the ATTEND press selects; and a member with no entry. -/
theorem witness_breakInMarks :
    let s := engage 0 1 (running paged)
    let a := running { accepted 1 with severity := 2 }
    (∀ e : Contact, ({ e with declined := true } : Contact).member = e.member ∧ ({ e with declined := true } : Contact).breakIn = e.breakIn)
      ∧ (context s 0).contact 0 = some { Contact.blank 0 0 0 with current := true, breakIn := true, remind := .running 1000 }
      ∧ (member s 0).engaged = some 1 ∧ 1 % 128 ≠ 0 ∧ (member (running paged) 0).engaged = none
      ∧ (context a 0).accepter = some 0 ∧ (context a 0).state = .accepted ∧ attendTarget a 1 = some 0
      ∧ contextOfSlot a 0 = some 0 ∧ 1 < (context a 0).severity ∧ (context (running paged) 0).contact 1 = none
      ∧ decideAccept (running paged) 0 1 = .taken ∧ 0 < (running paged).calls.contexts.length :=
  ⟨fun _ => ⟨rfl, rfl⟩, by decide⟩

/-- Context 0 pages member 0 by a break-in out of the ACCEPTED call of context 1, and context 2 holds that member current too. -/
def takenBreakIn : State :=
  let previous : Context := { accepted 1 with severity := 2, slot := some 1, tag := 1 }
  let other : Context := { paged with slot := some 2, tag := 2, contacted := [{ Contact.blank 0 0 0 with current := true }] }
  engage 0 1 ((running paged).modCalls fun k => { k with contexts := paged :: previous :: other :: List.replicate 62 .empty })

theorem witness_takenAccept :
    let s := takenBreakIn
    0 < s.calls.contexts.length ∧ 0 < s.roster.members.length ∧ decideAccept s 0 0 = .taken
      ∧ (context s 0).slot = some 0 ∧ 0 < s.area.slots.length ∧ ((context s 0).contacted.map (·.member)).Nodup
      ∧ ((context s 0).contact 0).isSome = true ∧ s.dispatcher.ok ∧ (context s 0).isCurrent 0 = true ∧ (1 : Nat) ≠ 0
      ∧ (∀ d, d ∈ [2] ↔ d < 65 ∧ d ≠ 0 ∧ ∃ e, (context s d).contact 0 = some e ∧ e.current = true ∧ e.breakIn = false)
      ∧ tagLive s 1 = true ∧ (context s (1 % 128)).accepter = (context (takeAccept 0 0 s) 0).accepter := by
  intro s
  refine ⟨by decide, by decide, by decide, by decide, by decide, by decide, by decide, ok_noRecords _ rfl, by decide, by decide, ?_,
    by decide, by decide⟩
  intro d
  have q : ∀ d, d < 65 → ((context s d).contact 0).any (fun e => e.current && !e.breakIn) = decide (d = 2) := by decide
  constructor
  · intro h
    rw [List.mem_singleton.1 h]
    exact ⟨by decide, by decide, _, rfl, rfl, rfl⟩
  · rintro ⟨b, _, e, k, c, n⟩
    have := q d b
    rw [k] at this
    simp only [Option.any_some, c, n] at this
    exact List.mem_singleton.2 (of_decide_eq_true this.symm)

/-- The calls that lose a member's current mark with the break-in mark, here that of context 0, and room for the records of their CANCELs; room
for those of an acceptance, and an entry of another member to whom a CANCEL goes. -/
theorem witness_cancelRoom :
    let s : State := { engage 0 1 (running paged) with journal := { Journal.empty with state := .writing } }
    let e : Contact := { Contact.blank 1 0 0 with current := true }
    let a : State := { takenBreakIn.modCalls fun k => { k with contexts := k.contexts.modify 0 fun k => { k with
      contacted := k.contacted ++ [e] } } with journal := { Journal.empty with state := .writing } }
    [0].Nodup ∧ (∀ c, c ∈ [0] ↔ c < 65 ∧ (context s c).isCurrent 0 = true
        ∧ (∀ tag, (member s 0).engaged = some tag → tag % 128 ≠ c) ∧ ∃ e, (context s c).contact 0 = some e ∧ e.breakIn = true)
      ∧ s.journal.state = .writing ∧ s.area.memoryFault = false ∧ s.journal.pending.length + 1 ≤ 64
      ∧ decideAccept a 0 0 = .taken ∧ a.journal.state = .writing ∧ a.area.memoryFault = false
      ∧ a.journal.pending.length + (context a 0).contacted.length + [2].length + 2 ≤ 64 ∧ 0 < a.calls.contexts.length
      ∧ ((context a 0).contact 0).isSome = true ∧ (1 : Nat) ≠ 0 ∧ (context a 0).contact 1 = some e ∧ e.declined = false
      ∧ e.cancelled = false := by
  intro s e a
  have q : ∀ c, c < 65 → ((context s c).isCurrent 0) = decide (c = 0) := by decide
  refine ⟨by decide, fun c => ⟨fun h => ?_, fun h => ?_⟩, rfl, rfl, by decide, by decide, rfl, rfl, by decide, by decide, by decide, by decide,
    by decide, rfl, rfl⟩
  · rw [List.mem_singleton.1 h]
    exact ⟨by decide, by decide, fun tag h => (by rw [← Option.some.inj h]; decide), _, rfl, rfl⟩
  · exact List.mem_singleton.2 (of_decide_eq_true ((q c h.1).symm.trans h.2.1))

/-- A reopening by each cause of an ACCEPTED call whose accepter has an entry. -/
theorem witness_reopen :
    let s := { running (accepted 2) with journal := { Journal.empty with state := .writing } }
    0 < s.calls.contexts.length ∧ s.dispatcher.ok ∧ (context s 0).state = .accepted ∧ (context s 0).accepter = some 0
      ∧ ((context s 0).contact 0).isSome = true ∧ (context s 0).slot = some 0 ∧ 0 < s.area.slots.length
      ∧ ReopenCause.decline ≠ .breakIn ∧ s.journal.state = .writing ∧ s.area.memoryFault = false
      ∧ s.journal.pending.length + 2 ≤ 64 :=
  ⟨by decide, ok_noRecords _ rfl, by decide⟩

/-- A PAGING call of context 0 about to enter a rung of a target, with nobody contacted. -/
def entering (kind number : Nat) : State :=
  (running { paged with contacted := [], madeCurrent := [] }).modRoster fun r => { r with tables := { r.tables with ladders := [{
    rungCount := 1, stopRung := some 0, repeatLimit := 0, arrivalClass := 0
    rungs := [{ kind := kind, number := number, windowClass := 0, last := true, hold := true, rep := false }] }] } }

/-- Each target kind and one that is none of the five; crew 0 and a number past the crews, with members eligible, all declined, and
engaged with a call of severity 2; member 0, and a number past the roster; and a beacon with no station to light. -/
theorem witness_enteringARung :
    let declined : State := (entering 1 0).modCalls fun k => { k with contexts := k.contexts.modify 0 fun k => { k with
      contacted := [{ Contact.blank 0 0 0 with declined := true }, { Contact.blank 1 0 0 with declined := true }] } }
    let engaged : State := engage 0 1 (engage 1 1 ((entering 2 0).modCalls fun k => { k with
      contexts := k.contexts.modify 1 fun _ => { accepted 1 with severity := 2, tag := 1 } }))
    (∀ k n, 0 < (entering k n).calls.contexts.length ∧ (context (entering k n) 0).state = .paging ∧ (entering k n).dispatcher.ok
      ∧ ((callLadder (entering k n) (context (entering k n) 0)).rung 0).kind = k
      ∧ ((callLadder (entering k n) (context (entering k n) 0)).rung 0).number = n)
    ∧ 6 ∉ [1, 2, 3, 4, 5] ∧ (entering 1 1).roster.tables.crews.length ≤ 1 ∧ 0 < (entering 1 0).roster.tables.crews.length
    ∧ (distinct (crewList (entering 1 0).roster.tables 0)).filter (eligible (entering 1 0) 0) = [0, 1]
    ∧ (distinct (crewList (entering 2 0).roster.tables 0)).filter (eligible (entering 2 0) 0) = [0, 1]
    ∧ 1 < (entering 2 0).roster.members.length ∧ (context (entering 2 0) 0).isCurrent 1 = false
    ∧ (distinct (crewList declined.roster.tables 0)).filter (eligible declined 0) = []
    ∧ (distinct (crewList declined.roster.tables 0)).filter (candidate declined 0) = []
    ∧ (distinct (crewList engaged.roster.tables 0)).filter (eligible engaged 0) = []
    ∧ (distinct (crewList engaged.roster.tables 0)).filter (candidate engaged 0) = [0, 1]
    ∧ (context engaged 0).severity = 1 ∧ engaged.roster.settings.breakIn = true
    ∧ 0 < (crewList (entering 1 0).roster.tables 0).length ∧ (entering 1 0).roster.pointers.getD 0 0 = 0
    ∧ 0 < (entering 3 0).roster.tables.roster.length ∧ eligible (entering 3 0) 0 0 = true
    ∧ (entering 3 2).roster.tables.roster.length ≤ 2 ∧ eligible (engage 0 1 (entering 3 0)) 0 0 = false
    ∧ (entering 4 0).latches.length = 24 ∧ (context (entering 4 0) 0).zone = 1 ∧ zoneServable (entering 4 0) 1 = false := by
  intro declined engaged
  exact ⟨fun k n => ⟨Nat.zero_lt_succ 64, rfl, ok_noRecords _ rfl, rfl, rfl⟩, by decide⟩

/-- A zone with a READY station, which a beacon rung can light. -/
theorem witness_beaconRung :
    let s : State := { entering 4 0 with line0 := { Line.empty with state := .running, phase := .gap, drops := [
      { drop .station .ready with station := some Station.fresh }] } }
    s.latches.length = 24 ∧ ((callLadder s (context s 0)).rung 0).kind ∈ [4, 5] ∧ (context s 0).zone = 1 ∧ zoneServable s 1 = true := by
  decide

/-- A latch with two calls of severity 1, and an empty one. -/
theorem witness_callLamp :
    let s : State := { running paged with latches := [0] :: List.replicate 23 [] }
    (∀ c ∈ latch s 1, 1 ≤ (context s c).severity) ∧ latch s 2 = [] ∧ 0 ∈ latch s 1
      ∧ (∀ d ∈ latch s 1, (context s 0).severity ≤ (context s d).severity) := by decide

/-- The station of zone 1 at address 1 of line 0, with the call of context 0. -/
def atStation (k : Context) : State :=
  let s := running k
  { s with line0 := { Line.empty with state := .running, phase := .gap, drops := [
    { drop .station .ready with station := some Station.fresh }] } }

/-- A press of 0 and of 1 hundredth with a minimum of 1; an ATTEND press with no candidate, and with one that pages or is ACCEPTED; and a
CLEAR press with no call of this station, and with one. -/
theorem witness_presses :
    let d : Drop := { drop .station .ready with station := some Station.fresh }
    let candidate (s : State) (c : Nat) : Bool := c < 65 && [.paging, .held, .accepted].contains (context s c).state
      && ((context s c).zone == 1 || (context s c).zone == 0 && (latch s 1).contains c)
    let onSite : Context := { paged with state := .onSite, site := .station .l0 1 }
    let taken (s : State) (c : Nat) : Bool := c < 65 && (context s c).state == .onSite && (context s c).site == .station .l0 1
    (∀ k, drop? (atStation k) .l0 1 = some d ∧ (atStation k).dispatcher.ok ∧ (atStation k).roster.settings.pressMinimum = 1)
    ∧ byteAt [8#8, 0#8] 1 = 0 ∧ byteAt [8#8, 1#8] 0 = 8 ∧ byteAt [9#8, 1#8] 0 = 9 ∧ byteAt [9#8, 1#8] 1 = 1 ∧ d.zone = 1
    ∧ (∀ c, candidate (atStation .empty) c = false) ∧ (∀ c, taken (atStation paged) c = false)
    ∧ (∀ k ∈ [paged, accepted 1], candidate (atStation k) 0 = true ∧ ∀ b, b ≠ 0 → candidate (atStation k) b = false)
    ∧ taken (atStation onSite) 0 = true ∧ (∀ b, b ≠ 0 → taken (atStation onSite) b = false)
    ∧ ((context (atStation paged) 0).contacted.map (·.member)).Nodup ∧ (context (atStation paged) 0).slot = some 0
    ∧ 0 < (atStation paged).area.slots.length := by
  intro d candidate onSite taken
  have c0 : ∀ b, b < 65 → 0 ≤ b → candidate (atStation .empty) b = false := by decide
  have t0 : ∀ b, b < 65 → 0 ≤ b → taken (atStation paged) b = false := by decide
  have c1 : ∀ b, b < 65 → 1 ≤ b → candidate (atStation paged) b = false := by decide
  have c2 : ∀ b, b < 65 → 1 ≤ b → candidate (atStation (accepted 1)) b = false := by decide
  have t1 : ∀ b, b < 65 → 1 ≤ b → taken (atStation onSite) b = false := by decide
  have up (f : Nat → Bool) (h : ∀ b, b < 65 → f b = false) (g : ∀ b, ¬b < 65 → f b = false) (b : Nat) : f b = false :=
    if l : b < 65 then h b l else g b l
  have gc (k : Context) (b : Nat) (l : ¬b < 65) : candidate (atStation k) b = false := by simp only [candidate, decide_eq_false l, Bool.false_and]
  have gt (k : Context) (b : Nat) (l : ¬b < 65) : taken (atStation k) b = false := by simp only [taken, decide_eq_false l, Bool.false_and]
  refine ⟨fun k => ⟨rfl, ok_noRecords _ rfl, rfl⟩, by decide, by decide, by decide, by decide, by decide, ?_, ?_, ?_, by decide, ?_,
    by decide, by decide, by decide⟩
  · exact up _ (fun b l => c0 b l (Nat.zero_le b)) (gc _)
  · exact up _ (fun b l => t0 b l (Nat.zero_le b)) (gt _)
  · intro k m
    rcases List.mem_cons.1 m with rfl | m
    · exact ⟨by decide, fun b n => if l : b < 65 then c1 b l (Nat.one_le_iff_ne_zero.2 n) else gc _ b l⟩
    · rw [List.mem_singleton.1 m]
      exact ⟨by decide, fun b n => if l : b < 65 then c2 b l (Nat.one_le_iff_ne_zero.2 n) else gc _ b l⟩
  · exact fun b n => if l : b < 65 then t1 b l (Nat.one_le_iff_ne_zero.2 n) else gt _ b l

/-- A zone with a call ACCEPTED, and one whose station took a call of another zone ON SITE. -/
theorem witness_attended :
    (∃ k ∈ (running (accepted 1)).calls.contexts, k.state = .accepted ∧ k.zone = 1)
    ∧ (context (atStation { paged with zone := 2, state := .onSite, site := .station .l0 1 }) 0).site = .station .l0 1 :=
  ⟨⟨accepted 1, List.mem_cons_self .., rfl, rfl⟩, rfl⟩

/-! ## Witnesses: the whole block -/

/-- A step whose command completes the write in progress, which changes a byte of server memory. -/
theorem witness_memoryStep :
    let x : Transaction AreaOp := writeTransaction .headerWrite 112 [7#8]
    let s : State := { areaIssue x (running .empty) with pending := [.headerDeviceWriteDone, .tick] }
    s.area.bus = some x ∧ x.op.writeDone = some .headerDeviceWriteDone ∧ s.pending = .headerDeviceWriteDone :: [.tick]
      ∧ step s = .next (finish (endScan true (areaDone (land x { s with pending := [.tick] })), []))
      ∧ Memory.read s.memory 112 = none ∧ Memory.read (land x s).memory 112 = some 7
      ∧ State.reset.pending = [] ∧ step State.reset = .next State.reset := ⟨rfl, rfl, rfl, rfl, rfl, rfl, rfl, rfl⟩

theorem witness_latchedCauses : Instr.tick ∉ [.fullReset, .resetEngine false, .resetEngine true]
    ∧ (∀ v, Instr.tick ≠ .attentionEventWrite v) ∧ exec .tick State.reset = .next State.reset := by
  exact ⟨by decide, fun v h => (by cases h), rfl⟩

theorem witness_stateInOrder : State.reset.ok ∧ step State.reset = .next State.reset := ⟨by decide, rfl⟩

end Sys2Proof.Tests
end

/-! # Proofs: server memory, and the bounds of the block

What a command leaves of server memory (O59, O27, O28) and the bounds every step keeps (O60), from what each command begins with
(Laws/Commands) and from what internal work leaves (Laws/Quiet). -/

namespace Sys2Proof.Machine

/-! ## What a command begins with -/

/-- A command that answers began in one of the ways of `Begins`, and the rest of it was internal work. -/
theorem begins_of_exec {c : Instr} {s t : State} (e : exec c s = .next t) : ∃ u, Begins c s u ∧ Quiet u t := by
  obtain ⟨t', u, e', b, q⟩ := completes c s
  cases e.symm.trans e'
  exact ⟨u, b, q⟩

/-- A step takes the command at the front of the queue, if there is one. -/
theorem step_cases {s t : State} (e : step s = .next t) :
    (s.pending = [] ∧ t = s) ∨ ∃ c rest, s.pending = c :: rest ∧ exec c { s with pending := rest } = .next t := by
  unfold step at e
  cases p : s.pending with
  | nil => rw [p] at e; cases e; exact .inl ⟨rfl, rfl⟩
  | cons c rest => rw [p] at e; exact .inr ⟨c, rest, rfl, e⟩

/-- The resets, the tick and the register writes leave server memory as it is. -/
theorem memory_of_own {c : Instr} {s t : State} (h : c = .fullReset ∨ c = .resetEngine false ∨ c = .resetEngine true ∨ c = .tick
    ∨ (∃ half v, c = .areaBaseWrite half v) ∨ (∃ v, c = .attentionMaskWrite v) ∨ ∃ v, c = .attentionEventWrite v)
    (e : exec c s = .next t) : t.memory = s.memory := by
  rcases h with rfl | rfl | rfl | rfl | ⟨half, v, rfl⟩ | ⟨v, rfl⟩ | ⟨v, rfl⟩ <;> cases e
  case inr.inr.inr.inl => show State.memory (if _ then _ else _) = _; split <;> rfl
  case inr.inr.inr.inr.inl => show State.memory (if _ then _ else _) = _; split <;> rfl
  all_goals rfl

/-- What a command leaves at one address of server memory: the byte that was there, or one of the bytes of a transaction in progress
that the command completes or ends in error. -/
def bytesChangeOnlyBy (c : Instr) (s t : State) : Prop :=
  ∀ i, Memory.read t.memory i = Memory.read s.memory i
    ∨ (∃ x, s.area.bus = some x
      ∧ (x.op.writeDone = some c ∨ c = .busErrorCompletion .area ∨ c = .busCompletionTimeout .area)
      ∧ ∃ w ∈ x.writes ++ x.lastWrites, w.1 = i ∧ Memory.read t.memory i = some w.2)
    ∨ ∃ x, s.journal.bus = some x
      ∧ (x.op.writeDone = some c ∨ c = .busErrorCompletion .journal ∨ c = .busCompletionTimeout .journal)
      ∧ ∃ w ∈ x.writes ++ x.lastWrites, w.1 = i ∧ Memory.read t.memory i = some w.2

theorem bytesChangeOnlyBy_of_same {c : Instr} {s t : State} (h : t.memory = s.memory) : bytesChangeOnlyBy c s t :=
  fun _ => .inl (by rw [h])

theorem bytesChangeOnlyBy_of_begins {c : Instr} {s t : State} (b : Begins c s t) : bytesChangeOnlyBy c s t := by
  cases b with
  | idle => exact bytesChangeOnlyBy_of_same rfl
  | area _ _ x h k => exact fun i => (read_land x s i).imp_right fun w => .inl ⟨x, h, .inl k, w⟩
  | areaFault _ _ x h k => exact fun i => (read_landFaulted x s i).imp_right fun w => .inl ⟨x, h, .inr k, w⟩
  | journal _ _ x h k => exact fun i => (read_land x s i).imp_right fun w => .inr ⟨x, h, .inl k, w⟩
  | journalFault _ _ x h k => exact fun i => (read_landFaulted x s i).imp_right fun w => .inr ⟨x, h, .inr k, w⟩
  | start b _ => exact bytesChangeOnlyBy_of_same rfl
  | own _ _ _ h k => exact bytesChangeOnlyBy_of_same (memory_of_own h k)

/-- The command of a step changes the bytes that it may change. -/
theorem bytesChangeOnlyBy_of_exec {c : Instr} {s t : State} (e : exec c s = .next t) : bytesChangeOnlyBy c s t := by
  obtain ⟨u, b, q⟩ := begins_of_exec e
  have h := bytesChangeOnlyBy_of_begins b
  unfold bytesChangeOnlyBy at h ⊢
  rwa [q.memory]

/-- Settles O59: what a command begins with may land the transaction in progress, and internal work leaves memory alone. -/
theorem serverMemoryChangesOnlyByTheTransactionInProgress : Obligations.ServerMemoryChangesOnlyByTheTransactionInProgress := by
  refine ⟨fun c s t e => bytesChangeOnlyBy_of_exec e, fun c rest s t p e => ?_, fun s t p e => ?_⟩
  · have k : exec c { s with pending := rest } = .next t := by
      unfold step at e
      rwa [p] at e
    exact bytesChangeOnlyBy_of_exec (s := { s with pending := rest }) k
  · rcases step_cases e with ⟨-, rfl⟩ | ⟨c, rest, q, -⟩
    · rfl
    · rw [p] at q; cases q

/-! ## The bounds of the block -/

/-- The canonical form of memory, and the bounds of all blocks, are kept by internal work. -/
theorem ok_of_quiet {s t : State} (q : Quiet s t) (h : s.ok) : t.ok := by
  obtain ⟨memory, counts, journal, drops, records, calls⟩ := h
  exact ⟨by rw [q.memory]; exact memory, q.counts counts, q.journal journal, q.drops drops, q.records records, q.calls calls⟩

/-- The reset state, with whatever memory in canonical form, is in order; only the calls, the registry, the latches, the records, the
lines and the journal matter. -/
theorem ok_of_reset {t : State} (memory : Memory.wf t.memory = true) (calls : t.calls = State.reset.calls)
    (roster : t.roster = State.reset.roster) (latches : t.latches = State.reset.latches) (journal : t.journal = .empty)
    (line0 : t.line0 = .empty) (line1 : t.line1 = .empty) (dispatcher : t.dispatcher = State.reset.dispatcher) : t.ok := by
  refine ⟨memory, ⟨by rw [calls]; exact List.length_replicate, by rw [latches]; exact List.length_replicate⟩,
    by rw [journal]; decide, ⟨by rw [line0]; exact fun _ h => absurd h List.not_mem_nil,
      by rw [line1]; exact fun _ h => absurd h List.not_mem_nil⟩, by rw [dispatcher]; decide, ?_⟩
  exact callsOk_empty calls (.inl (by rw [roster]; rfl))

/-- The resets, the tick and the register writes keep the bounds. -/
theorem ok_of_own {c : Instr} {s t : State} (h : c = .fullReset ∨ c = .resetEngine false ∨ c = .resetEngine true ∨ c = .tick
    ∨ (∃ half v, c = .areaBaseWrite half v) ∨ (∃ v, c = .attentionMaskWrite v) ∨ ∃ v, c = .attentionEventWrite v)
    (e : exec c s = .next t) (o : s.ok) : t.ok := by
  have reset (b : Bool) (k : exec (.resetEngine b) s = .next t) : t.ok := by
    have r : (engineReset s).ok := ok_of_reset o.1 rfl rfl rfl rfl rfl rfl rfl
    cases k
    exact ok_of_quiet (quiet_settleNudge (.refl _) b) r
  rcases h with rfl | rfl | rfl | rfl | ⟨half, v, rfl⟩ | ⟨v, rfl⟩ | ⟨v, rfl⟩
  · cases e; exact ok_of_reset o.1 rfl rfl rfl rfl rfl rfl rfl
  · exact reset _ e
  · exact reset _ e
  · cases e; show State.ok (if _ then _ else _); split <;> exact o
  · cases e; show State.ok (if _ then _ else _); split <;> exact o
  · cases e; exact o
  · cases e; exact o

/-- What a command begins with keeps the bounds: a landing keeps the form of memory, and touches no block. -/
theorem ok_of_begins {c : Instr} {s t : State} (b : Begins c s t) (o : s.ok) : t.ok := by
  cases b with
  | idle => exact o
  | area _ _ x h k => exact ⟨wf_land x o.1, o.2⟩
  | areaFault _ _ x h k => exact ⟨wf_landFaulted x o.1, o.2⟩
  | journal _ _ x h k => exact ⟨wf_land x o.1, o.2⟩
  | journalFault _ _ x h k => exact ⟨wf_landFaulted x o.1, o.2⟩
  | start b _ => exact o
  | own _ _ _ h k => exact ok_of_own h k o

theorem ok_of_exec {c : Instr} {s t : State} (o : s.ok) (e : exec c s = .next t) : t.ok := by
  obtain ⟨u, b, q⟩ := begins_of_exec e
  exact ok_of_quiet q (ok_of_begins b o)

/-- Settles O60: no bound reads the queue of commands, and every command keeps them all. -/
theorem everyStepKeepsTheStateInOrder : Obligations.EveryStepKeepsTheStateInOrder := by
  refine ⟨fun c s t o e => ok_of_exec o e, fun s t o e => ?_⟩
  rcases step_cases e with ⟨-, rfl⟩ | ⟨c, rest, -, e⟩
  · exact o
  · exact ok_of_exec (s := { s with pending := rest }) o e

/-! ## The bytes of a write that completes -/

/-- Two landings after one another are one landing of both lists. -/
theorem writeAll_append (m a b : List Host.Cell) : Memory.writeAll m (a ++ b) = Memory.writeAll (Memory.writeAll m a) b :=
  List.foldl_append

/-- After the landing of a transaction each byte is what the transaction leaves there. -/
theorem read_land_eq_leaves {α : Type} (x : Transaction α) (s : State) (i : Nat) :
    Memory.read (land x s).memory i = x.leaves i (Memory.read s.memory i) := by
  show Memory.read (Memory.writeAll (Memory.writeAll s.memory x.writes) x.lastWrites) i = _
  rw [← writeAll_append, read_writeAll]
  rfl

/-- A command that lands a transaction and goes on with internal work leaves the bytes of the transaction. -/
theorem leaves_of_quiet {α : Type} {x : Transaction α} {s t : State} (q : Quiet (land x s) t) (i : Nat) :
    Memory.read t.memory i = x.leaves i (Memory.read s.memory i) := by
  rw [q.memory, read_land_eq_leaves]

/-- A write of the Area Controller that its command picks lands, and the rest is internal work. -/
theorem completeArea_lands {α : Type} {pick : AreaOp → Option α} {work : α → State → State × List Task} {s : State}
    {x : Transaction AreaOp} {a : α} (h : s.area.bus = some x) (p : pick x.op = some a)
    (k : ∀ v, Quiet (land x s) v → Quiet (land x s) (work a v).1) : Quiet (land x s) (completeArea pick work s) := by
  unfold completeArea
  rw [h]
  dsimp only
  rw [p]
  exact quiet_finish (k _ (quiet_areaDone (.refl _)))

/-- A write of the Journal Writer that its command picks lands, and the rest is internal work. -/
theorem completeJournal_lands {α : Type} {pick : JournalOp → Option α} {work : α → State → State} {s : State}
    {x : Transaction JournalOp} {a : α} (h : s.journal.bus = some x) (p : pick x.op = some a)
    (k : ∀ v, Quiet (land x s) v → Quiet (land x s) (work a v)) : Quiet (land x s) (completeJournal pick work s) := by
  unfold completeJournal
  rw [h]
  dsimp only
  rw [p]
  exact quiet_finish (r := (_, [])) (k _ (.refl _))

/-- The command that completes the write of the Area Controller in progress lands it. -/
theorem areaWriteDone_lands {s : State} {x : Transaction AreaOp} {c : Instr} (h : s.area.bus = some x)
    (w : x.op.writeDone = some c) : ∃ t, exec c s = .next t ∧ Quiet (land x s) t := by
  cases o : x.op <;> rw [o] at w <;> cases w
  case loadSlotWrite i =>
    exact ⟨_, rfl, completeArea_lands h (by rw [o]) fun v k => quiet_loadStep k _ fun _ k => quiet_loadWriteSlot k _⟩
  case loadHeaderWrite =>
    refine ⟨_, rfl, completeArea_lands h (by rw [o]) fun v k => ?_⟩
    split
    · exact quiet_abandonLoad k
    · exact quiet_completeLoad k
  case descriptorClose =>
    have a : areaCloses s = true := by unfold areaCloses; rw [h]; simp [o]
    refine ⟨_, rfl, ?_⟩
    rw [if_pos a]
    exact completeArea_lands h (by rw [o])
      fun v k => quiet_scanStep (quiet_afterClose k) _ fun _ k => quiet_writeSlots k _
  case slotImage i =>
    exact ⟨_, rfl, completeArea_lands h (by rw [o])
      fun v k => quiet_scanStep (quiet_cleanSlot k _) _ fun _ k => quiet_writeSlots k _⟩
  case memberEntry m =>
    exact ⟨_, rfl, completeArea_lands h (by rw [o])
      fun v k => quiet_scanStep (quiet_cleanMember k _) _ fun _ k => quiet_writeMembers k _⟩
  case dropEntry i =>
    exact ⟨_, rfl, completeArea_lands h (by rw [o])
      fun v k => quiet_scanStep (quiet_cleanDrop k _) _ fun _ k => quiet_writeDrops k _⟩
  case headerWrite =>
    refine ⟨_, rfl, completeArea_lands h (by rw [o]) fun v k => ?_⟩
    split
    · exact quiet_endFinalScan k _
    · exact quiet_endScan k _

theorem quiet_recordBytesDone {a s : State} (h : Quiet a s) (op : JournalOp) : Quiet a (recordBytesDone op s) := by
  unfold recordBytesDone
  split
  · exact quiet_recordWriteDone h _
  · exact quiet_orphanBeforeTakeDone h
  · exact quiet_journalFree (quiet_journalDone h)

/-- The command that completes the write of the Journal Writer in progress lands it, where no close of the Area Controller's takes
the command for its own. -/
theorem journalWriteDone_lands {s : State} {x : Transaction JournalOp} {c : Instr} (a : areaCloses s = false)
    (h : s.journal.bus = some x) (w : x.op.writeDone = some c) : ∃ t, exec c s = .next t ∧ Quiet (land x s) t := by
  cases o : x.op <;> rw [o] at w <;> cases w
  case takeWrite => exact ⟨_, rfl, completeJournal_lands h (by rw [o]) fun v k => quiet_takeWriteDone k⟩
  case recordWrite g => exact ⟨_, rfl, completeJournal_lands h (by rw [o]; rfl) fun v k => quiet_recordBytesDone k _⟩
  case orphanWrite => exact ⟨_, rfl, completeJournal_lands h (by rw [o]; rfl) fun v k => quiet_recordBytesDone k _⟩
  case orphanBeforeTake => exact ⟨_, rfl, completeJournal_lands h (by rw [o]; rfl) fun v k => quiet_recordBytesDone k _⟩
  case fillWrite g => exact ⟨_, rfl, completeJournal_lands h (by rw [o]) fun v k => quiet_fillWriteDone k _⟩
  case closeWrite =>
    refine ⟨_, rfl, ?_⟩
    rw [if_neg (by simp [a])]
    exact completeJournal_lands h (by rw [o]) fun v k => quiet_afterClose (quiet_journalDone k)

/-- Settles O27. -/
theorem completedWritesLandExactlyTheirBytes : Obligations.CompletedWritesLandExactlyTheirBytes := by
  refine ⟨fun s x c h w => ?_, fun s x c a h w => ?_⟩
  · obtain ⟨t, e, q⟩ := areaWriteDone_lands h w
    exact ⟨t, e, leaves_of_quiet q⟩
  · obtain ⟨t, e, q⟩ := journalWriteDone_lands a h w
    exact ⟨t, e, leaves_of_quiet q⟩

/-! ## The bytes of a write that completes with error -/

/-- An address that is written reads as one of the writes to it. -/
theorem read_writeAll_mem (m : List Host.Cell) {cells : List Host.Cell} {c : Host.Cell} (h : c ∈ cells) :
    ∃ d ∈ cells, d.1 = c.1 ∧ Memory.read (Memory.writeAll m cells) c.1 = some d.2 := by
  rw [read_writeAll]
  cases f : cells.reverse.find? (·.1 == c.1) with
  | none => exact absurd (List.find?_eq_none.1 f c (List.mem_reverse.2 h)) (by simp)
  | some d => exact ⟨d, List.mem_reverse.1 (List.mem_of_find?_eq_some f), by simpa using List.find?_some f, rfl⟩

/-- The cells of a faulted write that landed are a part of it, in its order. -/
theorem faultedCells_sublist (draw start : Nat) (cells : List Host.Cell) : (faultedCells draw start cells).Sublist cells := by
  unfold faultedCells
  induction cells generalizing start with
  | nil => simp
  | cons c cells ih =>
    rw [List.zipIdx_cons, List.filterMap_cons]
    split
    · exact (ih _).cons _
    · rename_i h
      split at h
      · cases h; exact (ih _).cons_cons _
      · cases h

/-- Of a faulted write, a byte outside the first part has changed only if every byte of the first part has landed. -/
theorem read_landFaulted_last {α : Type} (x : Transaction α) (s : State)
    (h : ∃ i, i ∉ x.writes.map (·.1) ∧ Memory.read (landFaulted x s).memory i ≠ Memory.read s.memory i) :
    ∀ c ∈ x.writes, ∃ d ∈ x.writes ++ x.lastWrites, d.1 = c.1 ∧ Memory.read (landFaulted x s).memory c.1 = some d.2 := by
  obtain ⟨i, out, changed⟩ := h
  unfold landFaulted at changed ⊢
  dsimp only at changed ⊢
  have part := faultedCells_sublist s.draws 0 x.writes
  by_cases l : (faultedCells s.draws 0 x.writes).length = x.writes.length
  · rw [if_pos l, part.eq_of_length l, ← writeAll_append]
    intro c hc
    obtain ⟨d, hd, e, r⟩ := read_writeAll_mem s.memory (List.mem_append_left (faultedCells s.draws x.writes.length x.lastWrites) hc)
    refine ⟨d, ?_, e, r⟩
    exact ((faultedCells_sublist _ _ _).append_left _).subset hd
  · rw [if_neg l] at changed
    rcases read_writeAll_cases s.memory (faultedCells s.draws 0 x.writes) i with r | ⟨d, hd, e, -⟩
    · exact absurd r changed
    · exact absurd (List.mem_map.2 ⟨d, part.subset hd, e⟩) out

/-- The error of the transaction in progress lands some of its bytes, and the rest is internal work. -/
theorem busError_landsFaulted {s : State} {event : Requester → Instr}
    (m : event ∈ [Instr.busErrorCompletion, .busCompletionTimeout]) :
    (∀ x, s.area.bus = some x → ∃ t, exec (event .area) s = .next t ∧ Quiet (landFaulted x s) t)
      ∧ ∀ x, s.journal.bus = some x → ∃ t, exec (event .journal) s = .next t ∧ Quiet (landFaulted x s) t := by
  have e (who : Requester) : exec (event who) s = .next (failBus who s) := by
    rcases List.mem_cons.1 m with rfl | m
    · rfl
    · rw [List.mem_singleton.1 m]; rfl
  refine ⟨fun x h => ⟨_, e .area, ?_⟩, fun x h => ⟨_, e .journal, ?_⟩⟩
  · simp only [failBus, h]
    exact quiet_finish (quiet_areaError x (.refl _))
  · simp only [failBus, h]
    exact quiet_finish (r := (_, [])) (quiet_journalError x (.refl _))

/-- Settles O28. -/
theorem faultedWritesLandSomeOfTheirBytes : Obligations.FaultedWritesLandSomeOfTheirBytes := by
  intro s event m lands
  obtain ⟨area, journal⟩ := busError_landsFaulted (s := s) m
  have some_land {α : Type} (x : Transaction α) (who : Requester)
      (h : ∃ t, exec (event who) s = .next t ∧ Quiet (landFaulted x s) t) : lands who x.writes x.lastWrites := by
    obtain ⟨t, e, q⟩ := h
    refine ⟨t, e, ?_⟩
    rw [q.memory]
    exact ⟨read_landFaulted x s, read_landFaulted_last x s⟩
  exact ⟨fun x h => some_land x .area (area x h), fun x h => some_land x .journal (journal x h)⟩

end Sys2Proof.Machine

/-! # Proofs: the write step of a scan

What follows a write of the write step (O39). `SlotStep`, `MemberStep` and `DropStep` say, in the model's own terms, where the step goes
on from an index; each is proved once, of a state that differs from the one before the command in what the completed write cleans. -/

namespace Sys2Proof.Machine

/-! ## The next index -/

theorem nextIndex_of_isLeast {start bound i : Nat} {p : Nat → Bool}
    (h : IsLeast { j | start ≤ j ∧ j < bound ∧ p j = true } i) : nextIndex start bound p = some i := by
  obtain ⟨⟨hs, hb, hp⟩, least⟩ := h
  have f : (List.range (bound - start)).find? (fun j => p (start + j)) = some (i - start) := by
    refine List.find?_range_eq_some.2 ⟨by rwa [Nat.add_sub_cancel' hs], List.mem_range.2 (by omega), fun j hj => ?_⟩
    by_contra c
    have := least ⟨Nat.le_add_right start j, by omega, by simpa using c⟩
    omega
  unfold nextIndex
  rw [f, Option.map_some, Nat.add_sub_cancel' hs]

theorem nextIndex_of_none {start bound : Nat} {p : Nat → Bool} (h : ∀ i, start ≤ i → ¬(i < bound ∧ p i = true)) :
    nextIndex start bound p = none := by
  have f : (List.range (bound - start)).find? (fun j => p (start + j)) = none :=
    List.find?_eq_none.2 fun j hj q => h (start + j) (Nat.le_add_right _ _) ⟨by have := List.mem_range.1 hj; omega, q⟩
  unfold nextIndex
  rw [f, Option.map_none]

/-! ## Dirty entries, and where the step goes on -/

/-- The drop of a drop mirror entry. -/
def dropAt (s : State) (i : Nat) : Option Drop := drop? s (mirrorDrop i).1 (mirrorDrop i).2

theorem dropAt_eq (s : State) (i : Nat) : dropAt s i = if i < 16 then drop? s .l0 (i + 1) else drop? s .l1 (i - 15) := by
  unfold dropAt mirrorDrop
  split <;> rfl

/-- A slot image is to be written. -/
def slotDirty (s : State) (i : Nat) : Prop := i < s.area.slots.length ∧ (slotImage s i).dirty = true

/-- A member mirror entry is to be written. -/
def memberDirty (s : State) (m : Nat) : Prop := m < 512 ∧ m < s.area.directory.memberMirror.count ∧ (member s m).dirty = true

/-- A drop mirror entry is to be written. -/
def dropDirty (s : State) (i : Nat) : Prop :=
  s.area.directory.dropMirror.count = 32 ∧ i < 32 ∧ ∃ d, dropAt s i = some d ∧ d.dirty = true

/-- The write of a slot image as it stands. -/
def slotWrite (s : State) (i : Nat) : Transaction AreaOp := slotTransaction (.slotImage i) (slotAddress s i) (slotImage s i)

/-- The write of a member mirror entry as it stands. -/
def memberWrite (s : State) (m : Nat) : Transaction AreaOp :=
  writeTransaction (.memberEntry m) (areaBase s + (s.area.directory.memberMirror.offset + 16 * m))
    (memberEntryBytes s.roster.tables m (member s m))

/-- The write of a drop mirror entry that shows a drop. -/
def dropWrite (s : State) (i : Nat) (d : Drop) : Transaction AreaOp :=
  writeTransaction (.dropEntry i) (areaBase s + (s.area.directory.dropMirror.offset + 12 * i)) (dropEntryBytes d)

/-- The write of the header's device fields as they stand. -/
def headerWrite (s : State) : Transaction AreaOp :=
  writeTransaction .headerWrite (areaBase s + 0x70)
    (headerBytes (if s.area.finalScan then .idle else s.engine) s.journal.index s)

/-- The step goes on with the first dirty drop of `s` from an entry on, or else with the header. -/
def DropStep (s : State) (start : Nat) (t : State) : Prop :=
  (∀ i d, IsLeast { j | start ≤ j ∧ dropDirty s j } i → dropAt s i = some d → t.area.bus = some (dropWrite s i d)
    ∧ ∃ e, dropAt t i = some e ∧ e.dirty = true ∧ e.touched = false)
  ∧ ((∀ i, start ≤ i → ¬dropDirty s i) → t.area.bus = some (headerWrite s))

/-- The step goes on with the first dirty member of `s` from an index on, or else with the drops. -/
def MemberStep (s : State) (start : Nat) (t : State) : Prop :=
  (∀ m, IsLeast { j | start ≤ j ∧ memberDirty s j } m → t.area.bus = some (memberWrite s m)
    ∧ (m < s.roster.members.length → member t m = { member s m with touched := false }))
  ∧ ((∀ m, start ≤ m → ¬memberDirty s m) → DropStep s 0 t)

/-- The step goes on with the first dirty slot image of `s` from an index on, or else with the members. -/
def SlotStep (s : State) (start : Nat) (t : State) : Prop :=
  (∀ i, IsLeast { j | start ≤ j ∧ slotDirty s j } i → t.area.bus = some (slotWrite s i)
    ∧ slotImage t i = { slotImage s i with touched := false })
  ∧ ((∀ i, start ≤ i → ¬slotDirty s i) → MemberStep s 0 t)

/-! ## Each part of the step, after a write -/

/-- `u` is `s` after a write, which has landed and has cleaned slot images, member records or drops. -/
def WrittenFrom (s u : State) : Prop :=
  ∃ memory slots members drops0 drops1, u = { s with
    memory := memory, area := { s.area with bus := none, slots := slots }, roster := { s.roster with members := members }
    line0 := { s.line0 with drops := drops0 }, line1 := { s.line1 with drops := drops1 } }

/-- The drops that close an event have their lamp commands, and their marks for the mirror as before. -/
theorem dropAt_recomputeLamps (s : State) (i : Nat) : dropAt (recomputeLamps s) i = (dropAt s i).map (Drop.relit s) :=
  drop?_recomputeLamps s _ _

theorem areaBase_modDrop (l : LineId) (a : Nat) (f : Drop → Drop) (s : State) : areaBase (modDrop l a f s) = areaBase s := by
  unfold areaBase
  rw [modDrop_window]

theorem dropStep_writeDrops {s u : State} (w : WrittenFrom s u) {start : Nat} (h : ∀ i, start ≤ i → dropAt u i = dropAt s i) :
    DropStep s start (recomputeLamps (writeDrops start u)) := by
  have dir : u.area.directory = s.area.directory := by obtain ⟨_, _, _, _, _, rfl⟩ := w; rfl
  have base : areaBase u = areaBase s := by obtain ⟨_, _, _, _, _, rfl⟩ := w; rfl
  have header : headerWrite u = headerWrite s := by obtain ⟨_, _, _, _, _, rfl⟩ := w; rfl
  have dirty (i : Nat) (hi : start ≤ i) : dropDirty s i ↔ i < (if u.area.directory.dropMirror.count = 32 then 32 else 0)
      ∧ (dropAt u i).any (·.dirty) = true := by
    unfold dropDirty
    rw [dir, h i hi]
    by_cases c : s.area.directory.dropMirror.count = 32 <;> cases dropAt s i <;> simp [c]
  refine ⟨fun i d least hd => ?_, fun clean => ?_⟩
  · have next : nextIndex start (if u.area.directory.dropMirror.count = 32 then 32 else 0)
        (fun i => (drop? u (mirrorDrop i).1 (mirrorDrop i).2).any (·.dirty)) = some i := by
      refine nextIndex_of_isLeast ⟨⟨least.1.1, (dirty i least.1.1).1 least.1.2⟩, fun j hj => ?_⟩
      exact least.2 ⟨hj.1, (dirty j hj.1).2 hj.2⟩
    have hu : drop? u (mirrorDrop i).1 (mirrorDrop i).2 = some d := (h i least.1.1).trans hd
    have e : writeDrops start u = areaWrite (.dropEntry i) (u.area.directory.dropMirror.offset + 12 * i) (dropEntryBytes d)
        (modDrop (mirrorDrop i).1 (mirrorDrop i).2 (fun d => { d with touched := false }) u) := by
      simp only [writeDrops, next, hu]
    obtain ⟨-, -, d', hd', isDirty⟩ := least.1.2
    cases hd.symm.trans hd'
    refine ⟨?_, ?_⟩
    · rw [e]
      show some (writeTransaction _ (areaBase (modDrop _ _ _ u) + _) _) = some _
      rw [areaBase_modDrop, base, dir]
      rfl
    · refine ⟨Drop.relit (writeDrops start u) { d with touched := false }, ?_, isDirty, rfl⟩
      rw [dropAt_recomputeLamps, e]
      have k : dropAt (modDrop (mirrorDrop i).1 (mirrorDrop i).2 (fun d => { d with touched := false }) u) i
          = some { d with touched := false } := by
        unfold dropAt
        rw [drop?_modDrop_same, hu]
        rfl
      exact congrArg _ k
  · have next : nextIndex start (if u.area.directory.dropMirror.count = 32 then 32 else 0)
        (fun i => (drop? u (mirrorDrop i).1 (mirrorDrop i).2).any (·.dirty)) = none :=
      nextIndex_of_none fun i hi q => clean i hi ((dirty i hi).2 q)
    have e : writeDrops start u = writeHeader u := by simp only [writeDrops, next]
    rw [e, ← header]
    rfl

theorem memberStep_writeMembers {s u : State} (w : WrittenFrom s u) {start : Nat} (h : ∀ m, start ≤ m → member u m = member s m)
    (len : u.roster.members.length = s.roster.members.length) (drops : ∀ i, dropAt u i = dropAt s i) :
    MemberStep s start (recomputeLamps (writeMembers start u)) := by
  have dir : u.area.directory = s.area.directory := by obtain ⟨_, _, _, _, _, rfl⟩ := w; rfl
  have base : areaBase u = areaBase s := by obtain ⟨_, _, _, _, _, rfl⟩ := w; rfl
  have tables : u.roster.tables = s.roster.tables := by obtain ⟨_, _, _, _, _, rfl⟩ := w; rfl
  have dirty (m : Nat) (hm : start ≤ m) :
      memberDirty s m ↔ m < min 512 u.area.directory.memberMirror.count ∧ (member u m).dirty = true := by
    unfold memberDirty
    rw [dir, h m hm, lt_min_iff, and_assoc]
  refine ⟨fun m least => ?_, fun clean => ?_⟩
  · have next : nextIndex start (min 512 u.area.directory.memberMirror.count) (fun m => (member u m).dirty) = some m :=
      nextIndex_of_isLeast ⟨⟨least.1.1, (dirty m least.1.1).1 least.1.2⟩, fun j hj => least.2 ⟨hj.1, (dirty j hj.1).2 hj.2⟩⟩
    have e : writeMembers start u = areaIssue (memberWrite u m)
        (u.modRoster fun r => { r with members := r.members.modify m fun x => { x with touched := false } }) := by
      simp only [writeMembers, next]
      rfl
    have same : memberWrite u m = memberWrite s m := by unfold memberWrite; rw [base, dir, tables, h m least.1.1]
    refine ⟨by rw [e, ← same]; rfl, fun hm => ?_⟩
    rw [e, ← h m least.1.1]
    show (u.roster.members.modify m _).getD m .empty = { u.roster.members.getD m .empty with touched := false }
    simp [List.getD_eq_getElem?_getD, len ▸ hm]
  · have next : nextIndex start (min 512 u.area.directory.memberMirror.count) (fun m => (member u m).dirty) = none :=
      nextIndex_of_none fun m hm q => clean m hm ((dirty m hm).2 q)
    have e : writeMembers start u = writeDrops 0 u := by simp only [writeMembers, next]
    rw [e]
    exact dropStep_writeDrops w fun i _ => drops i

theorem slotStep_writeSlots {s u : State} (w : WrittenFrom s u) {start : Nat} (h : ∀ i, start ≤ i → slotImage u i = slotImage s i)
    (len : u.area.slots.length = s.area.slots.length) (members : u.roster = s.roster) (drops : ∀ i, dropAt u i = dropAt s i) :
    SlotStep s start (recomputeLamps (writeSlots start u)) := by
  have address (i : Nat) : slotAddress u i = slotAddress s i := by obtain ⟨_, _, _, _, _, rfl⟩ := w; rfl
  have dirty (i : Nat) (hi : start ≤ i) : slotDirty s i ↔ i < u.area.slots.length ∧ (slotImage u i).dirty = true := by
    unfold slotDirty
    rw [len, h i hi]
  refine ⟨fun i least => ?_, fun clean => ?_⟩
  · have next : nextIndex start u.area.slots.length (fun i => (slotImage u i).dirty) = some i :=
      nextIndex_of_isLeast ⟨⟨least.1.1, (dirty i least.1.1).1 least.1.2⟩, fun j hj => least.2 ⟨hj.1, (dirty j hj.1).2 hj.2⟩⟩
    have e : writeSlots start u = areaIssue (slotWrite u i)
        (u.modArea fun a => { a with slots := a.slots.modify i fun g => { g with touched := false } }) := by
      simp only [writeSlots, next]
      rfl
    have same : slotWrite u i = slotWrite s i := by unfold slotWrite; rw [address, h i least.1.1]
    have hi : i < u.area.slots.length := ((dirty i least.1.1).1 least.1.2).1
    refine ⟨by rw [e, ← same]; rfl, ?_⟩
    rw [e, ← h i least.1.1]
    show (u.area.slots.modify i _).getD i (.emptyWith 0 0) = { u.area.slots.getD i (.emptyWith 0 0) with touched := false }
    simp [List.getD_eq_getElem?_getD, hi]
  · have next : nextIndex start u.area.slots.length (fun i => (slotImage u i).dirty) = none :=
      nextIndex_of_none fun i hi q => clean i hi ((dirty i hi).2 q)
    have e : writeSlots start u = writeMembers 0 u := by simp only [writeSlots, next]
    rw [e]
    refine memberStep_writeMembers w (fun m _ => ?_) (by rw [members]) drops
    unfold member
    rw [members]

/-! ## What the step leaves alone -/

/-- The drop of another entry is as before. -/
theorem dropAt_modDrop_ne {i j : Nat} (h : j ≠ i) (f : Drop → Drop) (s : State) :
    dropAt (modDrop (mirrorDrop i).1 (mirrorDrop i).2 f s) j = dropAt s j := by
  unfold dropAt mirrorDrop
  by_cases hi : i < 16 <;> by_cases hj : j < 16 <;> simp only [hi, hj, if_true, if_false]
  · exact drop?_modDrop_ne (by omega) (by omega) f s
  · exact drop?_congr rfl _
  · exact drop?_congr rfl _
  · exact drop?_modDrop_ne (by omega) (by omega) f s

theorem dropAt_modDrop_same (i : Nat) (f : Drop → Drop) (s : State) :
    dropAt (modDrop (mirrorDrop i).1 (mirrorDrop i).2 f s) i = (dropAt s i).map f := drop?_modDrop_same _ _ f s

/-- From `u` to `v` a write was begun, with no mark for the mirrors and no field that the statements read changed but `touched`. -/
structure Begun (u v : State) : Prop where
  calls : v.calls = u.calls
  attention : v.attention = u.attention
  agenda : v.agenda = u.agenda
  engine : v.engine = u.engine
  final : v.area.finalScan = u.area.finalScan
  slots : ∀ i, (slotImage v i).dirty = (slotImage u i).dirty
  members : ∀ m, (member v m).dirty = (member u m).dirty
  drops : ∀ i, (dropAt v i).map (·.dirty) = (dropAt u i).map (·.dirty)

theorem getD_modify_dirty {α : Type} (dirty : α → Bool) (f : α → α) (h : ∀ a, dirty (f a) = dirty a) (l : List α) (i j : Nat) (d : α) :
    dirty ((l.modify i f).getD j d) = dirty (l.getD j d) := by
  simp only [List.getD_eq_getElem?_getD, List.getElem?_modify]
  cases l[j]? <;> by_cases e : i = j <;> simp [e, h]

theorem getD_modify_ne {α : Type} {i j : Nat} (h : j ≠ i) (f : α → α) (l : List α) (d : α) :
    (l.modify i f).getD j d = l.getD j d := by
  simp [List.getD_eq_getElem?_getD, Ne.symm h]

theorem begun_writeDrops (start : Nat) (u : State) : Begun u (writeDrops start u) := by
  unfold writeDrops
  dsimp only
  split
  · exact ⟨rfl, rfl, rfl, rfl, rfl, fun _ => rfl, fun _ => rfl, fun _ => rfl⟩
  · rename_i i _
    split
    · exact ⟨rfl, rfl, rfl, rfl, rfl, fun _ => rfl, fun _ => rfl, fun _ => rfl⟩
    · refine ⟨modDrop_calls .., modDrop_attention .., modDrop_agenda .., modDrop_engine .., ?_, fun j => ?_, fun m => ?_, fun j => ?_⟩
      · show (modDrop _ _ _ u).area.finalScan = _
        rw [modDrop_area]
      · show ((modDrop _ _ _ u).area.slots.getD j _).dirty = _
        rw [modDrop_area]
        rfl
      · show ((modDrop _ _ _ u).roster.members.getD m _).dirty = _
        rw [modDrop_roster]
        rfl
      · show (dropAt (modDrop (mirrorDrop i).1 (mirrorDrop i).2 _ u) j).map _ = _
        by_cases e : j = i
        · rw [e, dropAt_modDrop_same, Option.map_map]
          rfl
        · rw [dropAt_modDrop_ne e]

theorem begun_writeMembers (start : Nat) (u : State) : Begun u (writeMembers start u) := by
  unfold writeMembers
  split
  · exact begun_writeDrops 0 u
  · exact ⟨rfl, rfl, rfl, rfl, rfl, fun _ => rfl, fun m =>
      getD_modify_dirty Member.dirty (fun x => { x with touched := false }) (fun _ => rfl) _ _ _ _, fun _ => rfl⟩

theorem begun_writeSlots (start : Nat) (u : State) : Begun u (writeSlots start u) := by
  unfold writeSlots
  split
  · exact begun_writeMembers 0 u
  · exact ⟨rfl, rfl, rfl, rfl, rfl, fun i =>
      getD_modify_dirty SlotImage.dirty (fun g => { g with touched := false }) (fun _ => rfl) _ _ _ _, fun _ => rfl, fun _ => rfl⟩

/-! ## The three commands of the write step -/

/-- An event without tasks closes with the lamp commands alone, outside STOPPING and in its final scan. -/
theorem finish_inScan {s : State} (agenda : s.agenda = []) (final : s.engine = .stopping → s.area.finalScan = true) :
    finish (s, []) = recomputeLamps s := by
  simp only [finish, agenda, List.append_nil, run_nil, agenda_nil s agenda]
  show settleStopping (recomputeLamps s) = _
  unfold settleStopping
  refine if_pos ?_
  show (s.engine ≠ .stopping || s.area.finalScan) = true
  by_cases e : s.engine = .stopping
  · simp [final e]
  · simp [e]

/-- The state after a write of the write step has landed, before its entry is cleaned. -/
def landed (x : Transaction AreaOp) (s : State) : State := areaDone (land x s)

/-- A command that completes a write of the write step, its scan not ended, cleans the entry and goes on with the next write. -/
theorem finish_scanStep {u : State} {next : State → State} (ending : u.area.scanEnding = false) :
    finish (scanStep (fun s => (next s, [])) u) = finish (next u, []) := by
  unfold scanStep
  rw [if_neg (by simp [ending])]

theorem slotImageWriteDone_eq {s : State} {x : Transaction AreaOp} {i : Nat} (bus : s.area.bus = some x) (op : x.op = .slotImage i)
    (ending : s.area.scanEnding = false) :
    exec .slotImageWriteDone s = .next (finish (writeSlots (i + 1) (cleanSlot i (landed x s)), [])) := by
  show Host.Outcome.next (completeArea _ _ s) = _
  unfold completeArea
  rw [bus]
  dsimp only
  rw [op]
  exact congrArg _ (finish_scanStep (next := writeSlots (i + 1)) ending)

theorem memberEntryWriteDone_eq {s : State} {x : Transaction AreaOp} {m : Nat} (bus : s.area.bus = some x)
    (op : x.op = .memberEntry m) (ending : s.area.scanEnding = false) :
    exec .memberEntryWriteDone s = .next (finish (writeMembers (m + 1) (cleanMember m (landed x s)), [])) := by
  show Host.Outcome.next (completeArea _ _ s) = _
  unfold completeArea
  rw [bus]
  dsimp only
  rw [op]
  exact congrArg _ (finish_scanStep (next := writeMembers (m + 1)) ending)

theorem dropEntryWriteDone_eq {s : State} {x : Transaction AreaOp} {i : Nat} (bus : s.area.bus = some x) (op : x.op = .dropEntry i)
    (ending : s.area.scanEnding = false) :
    exec .dropEntryWriteDone s = .next (finish (writeDrops (i + 1) (cleanDrop i (landed x s)), [])) := by
  show Host.Outcome.next (completeArea _ _ s) = _
  unfold completeArea
  rw [bus]
  dsimp only
  rw [op]
  refine congrArg _ (finish_scanStep (next := writeDrops (i + 1)) ?_)
  exact (congrArg AreaController.scanEnding (modDrop_area ..)).trans ending

/-- The close of an event in which the write step has gone on is the lamp commands. -/
theorem finish_begun {u v : State} (b : Begun u v) (agenda : u.agenda = []) (final : u.engine = .stopping → u.area.finalScan = true) :
    finish (v, []) = recomputeLamps v :=
  finish_inScan (b.agenda.trans agenda) fun e => b.final.trans (final (b.engine.symm.trans e))

/-- A slot image that has been written is clean unless it was changed, and the write step goes on after it. -/
theorem slotImageWriteDone_goes_on {s : State} {x : Transaction AreaOp} {i : Nat} (agenda : s.agenda = [])
    (ending : s.area.scanEnding = false) (final : s.engine = .stopping → s.area.finalScan = true) (bus : s.area.bus = some x)
    (op : x.op = .slotImage i) (hi : i < s.area.slots.length) :
    ∃ t, exec .slotImageWriteDone s = .next t ∧ (slotImage t i).dirty = (slotImage s i).touched ∧ SlotStep s (i + 1) t
      ∧ t.calls = s.calls ∧ t.attention = s.attention := by
  have b := begun_writeSlots (i + 1) (cleanSlot i (landed x s))
  have image (j : Nat) (h : i + 1 ≤ j) : slotImage (cleanSlot i (landed x s)) j = slotImage s j :=
    getD_modify_ne (by omega) _ s.area.slots _
  refine ⟨_, slotImageWriteDone_eq bus op ending, ?_⟩
  rw [finish_begun b agenda final]
  refine ⟨(b.slots i).trans ?_, slotStep_writeSlots ⟨_, _, _, _, _, rfl⟩ image (List.length_modify ..) rfl fun _ => rfl, b.calls,
    b.attention⟩
  show ((s.area.slots.modify i fun g => { g with dirty := g.touched }).getD i (.emptyWith 0 0)).dirty
    = (s.area.slots.getD i (.emptyWith 0 0)).touched
  simp [List.getD_eq_getElem?_getD, hi]

/-- A member mirror entry that has been written is clean unless it was changed, and the write step goes on after it. -/
theorem memberEntryWriteDone_goes_on {s : State} {x : Transaction AreaOp} {m : Nat} (agenda : s.agenda = [])
    (ending : s.area.scanEnding = false) (final : s.engine = .stopping → s.area.finalScan = true) (bus : s.area.bus = some x)
    (op : x.op = .memberEntry m) (hm : m < s.roster.members.length) :
    ∃ t, exec .memberEntryWriteDone s = .next t ∧ (member t m).dirty = (member s m).touched ∧ MemberStep s (m + 1) t
      ∧ t.calls = s.calls ∧ t.attention = s.attention := by
  have b := begun_writeMembers (m + 1) (cleanMember m (landed x s))
  have record (j : Nat) (h : m + 1 ≤ j) : member (cleanMember m (landed x s)) j = member s j :=
    getD_modify_ne (by omega) _ s.roster.members _
  refine ⟨_, memberEntryWriteDone_eq bus op ending, ?_⟩
  rw [finish_begun b agenda final]
  refine ⟨(b.members m).trans ?_, memberStep_writeMembers ⟨_, _, _, _, _, rfl⟩ record (List.length_modify ..) fun _ => rfl, b.calls,
    b.attention⟩
  show ((s.roster.members.modify m fun x => { x with dirty := x.touched }).getD m .empty).dirty
    = (s.roster.members.getD m .empty).touched
  simp [List.getD_eq_getElem?_getD, hm]

theorem cleanDrop_writtenFrom (i : Nat) (x : Transaction AreaOp) (s : State) : WrittenFrom s (cleanDrop i (landed x s)) := by
  unfold cleanDrop
  cases (mirrorDrop i).1 <;> exact ⟨_, _, _, _, _, rfl⟩

/-- A drop mirror entry that has been written is clean unless it was changed, and the write step goes on after it. -/
theorem dropEntryWriteDone_goes_on {s : State} {x : Transaction AreaOp} {i : Nat} {d : Drop} (agenda : s.agenda = [])
    (ending : s.area.scanEnding = false) (final : s.engine = .stopping → s.area.finalScan = true) (bus : s.area.bus = some x)
    (op : x.op = .dropEntry i) (hd : dropAt s i = some d) :
    ∃ t e, exec .dropEntryWriteDone s = .next t ∧ dropAt t i = some e ∧ e.dirty = d.touched ∧ DropStep s (i + 1) t
      ∧ t.calls = s.calls ∧ t.attention = s.attention := by
  have b := begun_writeDrops (i + 1) (cleanDrop i (landed x s))
  have others (j : Nat) (h : i + 1 ≤ j) : dropAt (cleanDrop i (landed x s)) j = dropAt s j :=
    dropAt_modDrop_ne (by omega) _ (landed x s)
  have cleaned : dropAt (cleanDrop i (landed x s)) i = some { d with dirty := d.touched } := by
    refine (dropAt_modDrop_same i _ (landed x s)).trans ?_
    have : dropAt (landed x s) i = some d := hd
    rw [this]
    rfl
  obtain ⟨e, he, same⟩ : ∃ e, dropAt (writeDrops (i + 1) (cleanDrop i (landed x s))) i = some e ∧ e.dirty = d.touched := by
    have := b.drops i
    rw [cleaned] at this
    exact Option.map_eq_some_iff.1 this
  have e1 : (cleanDrop i (landed x s)).agenda = [] := (modDrop_agenda ..).trans agenda
  have e2 : (cleanDrop i (landed x s)).engine = .stopping → (cleanDrop i (landed x s)).area.finalScan = true := by
    unfold cleanDrop
    rw [modDrop_engine, modDrop_area]
    exact final
  refine ⟨_, Drop.relit (writeDrops (i + 1) (cleanDrop i (landed x s))) e, dropEntryWriteDone_eq bus op ending, ?_⟩
  rw [finish_begun b e1 e2]
  refine ⟨by rw [dropAt_recomputeLamps, he]; rfl, same, dropStep_writeDrops (cleanDrop_writtenFrom i x s) others, ?_, ?_⟩
  · exact b.calls.trans (modDrop_calls ..)
  · exact b.attention.trans (modDrop_attention ..)

/-! ## The layouts, byte by byte -/

theorem siteBytes_eq (g : Site) :
    siteBytes g = match g with | .station l d => [if l = .l0 then 0 else 1, byteOf d] | _ => [0xFF, 0] := by
  cases g with
  | none => rfl
  | member => rfl
  | station l d => cases l <;> rfl

theorem lampFlagBytes_eq (t : Option Station) :
    [byteOf ((t.map fun s => s.call.flag.code).getD 0), byteOf ((t.map fun s => s.attend.flag.code).getD 0)]
      = match t with | some t => [byteOf t.call.flag.code, byteOf t.attend.flag.code] | none => [0, 0] := by
  cases t <;> rfl

/-- Settles O39. -/
theorem writeStepGoesOnInOrder : Obligations.WriteStepGoesOnInOrder := by
  intro s x agenda engine ending final bus dir word at' slotWr memberWr dropWr headerWr dropD memberD slotD drops members slots
  have atEq (u : State) (i : Nat) : dropAt u i = if i < 16 then drop? u .l0 (i + 1) else drop? u .l1 (i - 15) := dropAt_eq u i
  have slotW (i : Nat) : slotWrite s i = slotWr i := by
    unfold slotWrite slotTransaction slotFieldBytes
    rw [siteBytes_eq]
    rfl
  have dropW (i : Nat) (d : Drop) : dropWrite s i d = dropWr i d := by
    show writeTransaction _ _ (_ ++ [byteOf ((d.station.map fun s => s.call.flag.code).getD 0),
      byteOf ((d.station.map fun s => s.attend.flag.code).getD 0)]) = _
    rw [lampFlagBytes_eq]
    rfl
  have dropDEq (i : Nat) : dropDirty s i ↔ dropD i := by
    unfold dropDirty
    rw [atEq]
  have ofDrops {start : Nat} {t : State} (h : DropStep s start t) : drops start t := by
    refine ⟨fun i d least hd => ?_, fun clean => h.2 fun i hi q => clean i hi ((dropDEq i).1 q)⟩
    rw [← dropW, ← atEq]
    exact h.1 i d ⟨⟨least.1.1, (dropDEq i).2 least.1.2⟩, fun j hj => least.2 ⟨hj.1, (dropDEq j).1 hj.2⟩⟩ ((atEq s i).trans hd)
  have ofMembers {start : Nat} {t : State} (h : MemberStep s start t) : members start t := ⟨h.1, fun c => ofDrops (h.2 c)⟩
  have ofSlots {start : Nat} {t : State} (h : SlotStep s start t) : slots start t := by
    refine ⟨fun i least => ?_, fun c => ofMembers (h.2 c)⟩
    rw [← slotW]
    exact h.1 i least
  refine ⟨fun i op hi => ?_, fun m op hm => ?_, fun i d op hd _ => ?_⟩
  · obtain ⟨t, e, dirty, step, frame⟩ := slotImageWriteDone_goes_on agenda ending final bus op hi
    exact ⟨t, e, dirty, ofSlots step, frame⟩
  · obtain ⟨t, e, dirty, step, frame⟩ := memberEntryWriteDone_goes_on agenda ending final bus op hm
    exact ⟨t, e, dirty, ofMembers step, frame⟩
  · obtain ⟨t, e, done, he, dirty, step, frame⟩ := dropEntryWriteDone_goes_on agenda ending final bus op ((atEq s i).trans hd)
    exact ⟨t, e, done, (atEq t i).symm.trans he, dirty, ofDrops step, frame⟩

end Sys2Proof.Machine

/-! # Proofs: what the Page Dispatcher's work adds to the journal and to the air queues

Laws/Mail says which blocks the work of the Page Dispatcher reaches. Here: how many records it submits, which messages it puts into an
air queue, and that a control message is never lost without its record MESSAGE DROPPED (R85, R89). -/

namespace Sys2Proof.Machine

/-! ## The submission of a record -/

theorem submit_shape (r : JournalRecord) (s : State) : submit r s = { s with journal := (submit r s).journal } := by
  obtain ⟨j, e, -⟩ := submit_eq r s
  rw [e]

@[simp] theorem submit_engine (r : JournalRecord) (s : State) : (submit r s).engine = s.engine := by rw [submit_shape]
@[simp] theorem submit_attention (r : JournalRecord) (s : State) : (submit r s).attention = s.attention := by rw [submit_shape]
@[simp] theorem submit_area (r : JournalRecord) (s : State) : (submit r s).area = s.area := by rw [submit_shape]
@[simp] theorem submit_dispatcher (r : JournalRecord) (s : State) : (submit r s).dispatcher = s.dispatcher := by rw [submit_shape]
@[simp] theorem submit_line0 (r : JournalRecord) (s : State) : (submit r s).line0 = s.line0 := by rw [submit_shape]
@[simp] theorem submit_line1 (r : JournalRecord) (s : State) : (submit r s).line1 = s.line1 := by rw [submit_shape]
@[simp] theorem submit_agenda (r : JournalRecord) (s : State) : (submit r s).agenda = s.agenda := by rw [submit_shape]

/-- Where there is room, the record joins the pending list under the present tick (R165). -/
theorem submit_pending {s : State} (h : hasRoom s 1) (r : JournalRecord) :
    (submit r s).journal.pending = s.journal.pending ++ [{ r with tick := s.tickCount }] := by
  obtain ⟨j, e, -, -, -, -, taken, -⟩ := submit_eq r s
  rw [e]
  exact (taken h.1 h.2.1 (by have := h.2.2; simp only [Config.pendingCapacity]; omega)).1

/-- From `s` to `t` at most `n` records joined the pending list, and the journal stayed in its state. -/
def Logs (n : Nat) (s t : State) : Prop :=
  t.journal.state = s.journal.state ∧ t.area.memoryFault = s.area.memoryFault
    ∧ ∃ since, t.journal.pending = s.journal.pending ++ since ∧ since.length ≤ n

theorem Logs.of_same {n : Nat} {s t : State} (j : t.journal = s.journal) (a : t.area.memoryFault = s.area.memoryFault) : Logs n s t :=
  ⟨by rw [j], a, [], by rw [j, List.append_nil], Nat.zero_le _⟩

theorem Logs.refl (n : Nat) (s : State) : Logs n s s := .of_same rfl rfl

theorem Logs.trans {n k : Nat} {a b c : State} (h : Logs n a b) (g : Logs k b c) : Logs (n + k) a c := by
  obtain ⟨st, fault, since, e, l⟩ := h
  obtain ⟨st', fault', since', e', l'⟩ := g
  exact ⟨st'.trans st, fault'.trans fault, since ++ since', by rw [e', e, List.append_assoc],
    by rw [List.length_append]; omega⟩

theorem Logs.mono {n k : Nat} {s t : State} (h : Logs n s t) (l : n ≤ k) : Logs k s t :=
  ⟨h.1, h.2.1, h.2.2.imp fun _ g => ⟨g.1, le_trans g.2 l⟩⟩

theorem Logs.pending_of_zero {s t : State} (h : Logs 0 s t) : t.journal.pending = s.journal.pending := by
  obtain ⟨-, -, since, e, l⟩ := h
  rw [e, List.eq_nil_of_length_eq_zero (Nat.le_zero.1 l), List.append_nil]

/-- The room that is left after some records. -/
theorem Logs.hasRoom {n k : Nat} {s t : State} (h : Logs n s t) (r : hasRoom s (n + k)) : hasRoom t k := by
  obtain ⟨st, fault, since, e, l⟩ := h
  obtain ⟨w, f, p⟩ := r
  exact ⟨st.trans w, fault.trans f, by rw [e, List.length_append]; omega⟩

theorem Logs.mem {n : Nat} {s t : State} (h : Logs n s t) {r : JournalRecord} (m : r ∈ s.journal.pending) : r ∈ t.journal.pending := by
  obtain ⟨-, -, since, e, -⟩ := h
  rw [e]
  exact List.mem_append_left _ m

theorem logs_submit (r : JournalRecord) (s : State) : Logs 1 s (submit r s) := by
  obtain ⟨j, e, st, -, -, -, taken, skipped⟩ := submit_eq r s
  rw [e]
  refine ⟨st, rfl, ?_⟩
  by_cases h : s.journal.state ≠ .writing ∨ s.area.memoryFault = true ∨ Config.pendingCapacity ≤ s.journal.pending.length
  · exact ⟨[], by simpa using (skipped h).1, Nat.zero_le _⟩
  · push Not at h
    exact ⟨_, (taken h.1 (by simpa using h.2.1) h.2.2).1, le_refl _⟩

/-! ## Settling an entry against a queue (R85) -/

theorem settleEntry_displaced {e x : AirEntry} {q : List AirEntry} (h : (settleEntry e q).displaced = some x) :
    (settleEntry e q).placed = true := by
  unfold settleEntry at h ⊢
  repeat' split
  all_goals simp_all

theorem mem_settleEntry {e x : AirEntry} {q : List AirEntry} (h : x ∈ (settleEntry e q).queue) : x = e ∨ x ∈ q := by
  unfold settleEntry at h
  split at h
  · exact (mem_placeEntry.1 h).imp_right fun m => (List.mem_filter.1 m).1
  · split at h
    · exact mem_placeEntry.1 h
    · split at h
      · exact .inr h
      · split at h
        · exact (mem_placeEntry.1 h).imp_right fun m => List.dropLast_subset q m
        · exact .inr h

theorem settleEntry_placed {e : AirEntry} {q : List AirEntry} (h : (settleEntry e q).placed = true) : e ∈ (settleEntry e q).queue := by
  unfold settleEntry at h ⊢
  repeat' split
  all_goals simp_all

/-- An entry of the queue stays there, or is of the same message as the one that is placed, or is the one displaced. -/
theorem settleEntry_keeps (e : AirEntry) {y : AirEntry} {q : List AirEntry} (h : y ∈ q) :
    y ∈ (settleEntry e q).queue ∨ (e.sameMessage y = true ∧ e ∈ (settleEntry e q).queue) ∨ (settleEntry e q).displaced = some y := by
  unfold settleEntry
  split
  · by_cases same : e.sameMessage y = true
    · exact .inr (.inl ⟨same, mem_placeEntry.2 (.inl rfl)⟩)
    · exact .inl (mem_placeEntry.2 (.inr (List.mem_filter.2 ⟨h, by simpa using same⟩)))
  · split
    · exact .inl (mem_placeEntry.2 (.inr h))
    · split
      · exact .inl h
      · rename_i lowest last
        split
        · have split_last : q = q.dropLast ++ [lowest] := (List.dropLast_append_getLast? _ last).symm
          rw [split_last] at h
          rcases List.mem_append.1 h with m | m
          · exact .inl (mem_placeEntry.2 (.inr m))
          · exact .inr (.inr (by rw [List.mem_singleton.1 m]))
        · exact .inl h

/-! ## An entry that a queue does not hold -/

/-- The entry carries a control message, and no copy of a delivery record. -/
def AirEntry.isControl (e : AirEntry) : Bool :=
  match e.carriage with
  | .control _ _ _ => true
  | .delivery _ _ => false

theorem isCopyOf_of_isControl {e : AirEntry} (h : e.isControl = true) (serial : Nat) : e.isCopyOf serial = false := by
  unfold AirEntry.isControl at h
  unfold AirEntry.isCopyOf
  cases k : e.carriage <;> simp_all

/-- The record MESSAGE DROPPED of a control message waits in the pending list. -/
def isDropped (t : State) (kind : MessageKind) (tag m : Nat) : Prop :=
  ∃ r ∈ t.journal.pending, r.kind = .messageDropped ∧ r.tag = some tag ∧ r.member = some m ∧ r.detail1 = kind.code

theorem isDropped_messageDropped {s : State} (h : hasRoom s 1) (m : Message) (cause : DropMessageCause) (at? : Option (LineId × Nat)) :
    isDropped (messageDropped m cause at? s) m.kind m.tag m.member := by
  unfold messageDropped
  rw [isDropped, submit_pending h]
  refine ⟨_, List.mem_append_right _ (List.mem_singleton.2 rfl), ?_, ?_, rfl, rfl⟩
  · show (tagRecord s .messageDropped m.tag).kind = _
    unfold tagRecord
    split <;> rfl
  · show (tagRecord s .messageDropped m.tag).tag = _
    unfold tagRecord
    split <;> rfl

/-- The deferral of a copy changes its record alone. -/
theorem deferCopy_eq (l : LineId) (a serial : Nat) (s : State) :
    ∃ f : Delivery → Delivery, (∀ r, (f r).key = r.key ∧ (f r).serial = r.serial)
      ∧ deferCopy l a serial s = s.modDispatcher fun d => { d with records := d.records.map f } := by
  unfold deferCopy
  split
  · exact ⟨id, fun _ => ⟨rfl, rfl⟩, by simp [State.modDispatcher]⟩
  · refine ⟨_, fun r => ?_, rfl⟩
    dsimp only
    split
    · split <;> exact ⟨rfl, rfl⟩
    · exact ⟨rfl, rfl⟩

/-- What a queue did not hold leaves every drop as it was. -/
theorem notHeld_lines (e : AirEntry) (cause : DropMessageCause) (l : LineId) (a : Nat) (s : State) :
    (notHeld e cause l a s).line0 = s.line0 ∧ (notHeld e cause l a s).line1 = s.line1 := by
  unfold notHeld
  split
  · rename_i serial _ _
    obtain ⟨f, -, e⟩ := deferCopy_eq l a serial s
    rw [e]
    exact ⟨rfl, rfl⟩
  · exact ⟨submit_line0 _ s, submit_line1 _ s⟩

theorem logs_notHeld (e : AirEntry) (cause : DropMessageCause) (l : LineId) (a : Nat) (s : State) : Logs 1 s (notHeld e cause l a s) := by
  unfold notHeld
  split
  · rename_i serial _ _
    obtain ⟨f, -, e⟩ := deferCopy_eq l a serial s
    rw [e]
    exact .of_same rfl rfl
  · exact logs_submit _ s

theorem isDropped_notHeld {s : State} (h : hasRoom s 1) {e : AirEntry} (k : e.isControl = true) (cause : DropMessageCause) (l : LineId)
    (a : Nat) : isDropped (notHeld e cause l a s) e.message.kind e.message.tag e.message.member := by
  unfold AirEntry.isControl at k
  unfold notHeld
  split
  · rename_i q
    rw [q] at k
    cases k
  · exact isDropped_messageDropped h _ _ _

/-- The keys of the delivery records, in their order. -/
def keysOf (s : State) : List RecordKey := s.dispatcher.records.map (·.key)

theorem keysOf_map {s : State} {f : Delivery → Delivery} (k : ∀ r, (f r).key = r.key) (g : Dispatcher → Dispatcher)
    (h : (g s.dispatcher).records = s.dispatcher.records.map f) : keysOf (s.modDispatcher g) = keysOf s := by
  show (g s.dispatcher).records.map _ = _
  rw [h, List.map_map]
  exact List.map_congr_left fun r _ => k r

theorem keysOf_modDelivery (serial : Nat) {f : Delivery → Delivery} (k : ∀ r, (f r).key = r.key) (s : State) :
    keysOf (modDelivery serial f s) = keysOf s :=
  keysOf_map (f := fun r => if r.serial = serial then f r else r) (fun r => by split <;> [exact k r; rfl]) _ rfl

theorem keysOf_notHeld (e : AirEntry) (cause : DropMessageCause) (l : LineId) (a : Nat) (s : State) :
    keysOf (notHeld e cause l a s) = keysOf s := by
  unfold notHeld
  split
  · rename_i serial _ _
    obtain ⟨f, k, e⟩ := deferCopy_eq l a serial s
    rw [e]
    exact keysOf_map (fun r => (k r).1) _ rfl
  · exact congrArg (fun d : Dispatcher => d.records.map (·.key)) (submit_dispatcher _ s)

/-! ## Enqueueing (R85) -/

/-- The entry that an enqueue makes of a message. -/
def entryOf (s : State) (m : Message) (k : Carriage) : AirEntry where
  message := m
  urgency := messageUrgency s m k.endUrgency
  order := s.dispatcher.order
  carriage := k

/-- What an enqueue comes to at a drop. -/
def placement (s : State) (m : Message) (k : Carriage) (l : LineId) (a : Nat) : Placement :=
  settleEntry (entryOf s m k) (queueOf s l a)

/-- An enqueue in three parts: the queue, the records of the dispatcher, and what the queue does not hold. -/
theorem enqueue_parts (m : Message) (k : Carriage) (l : LineId) (a : Nat) (s : State) :
    ∃ u : State, u.line0 = (modDrop l a (fun d => { d with queue := (placement s m k l a).queue }) s).line0
      ∧ u.line1 = (modDrop l a (fun d => { d with queue := (placement s m k l a).queue }) s).line1
      ∧ u.journal = s.journal ∧ u.area = s.area ∧ keysOf u = keysOf s
      ∧ ((placement s m k l a).placed = false ∧ enqueue m k l a s = notHeld (entryOf s m k) .full l a u
        ∨ (placement s m k l a).placed = true ∧ (placement s m k l a).displaced = none ∧ enqueue m k l a s = u
        ∨ (placement s m k l a).placed = true ∧ ∃ x, (placement s m k l a).displaced = some x
          ∧ enqueue m k l a s = notHeld x .displaced l a u) := by
  generalize hp : placement s m k l a = p
  let s1 := modDrop l a (fun d => { d with queue := p.queue }) { s with draws := s.draws + 1 }
  let s2 := if p.placed then s1.modDispatcher fun d => { d with order := d.order + 1 } else s1
  let u := match k with
    | .control _ _ _ => s2
    | .delivery serial _ => if p.placed then modDelivery serial (Delivery.queueCopy l a) s2 else s2
  have e : enqueue m k l a s = match p.displaced with
      | none => if p.placed then u else notHeld (entryOf s m k) .full l a u
      | some x => notHeld x .displaced l a (if p.placed then u else notHeld (entryOf s m k) .full l a u) := by
    subst hp
    cases k <;> rfl
  have shape : ∃ d, u = { s1 with dispatcher := d } ∧ d.records.map (·.key) = s.dispatcher.records.map (·.key) := by
    have h1 : s1.dispatcher = s.dispatcher := modDrop_dispatcher ..
    have h2 : ∃ d, s2 = { s1 with dispatcher := d } ∧ d.records = s.dispatcher.records := by
      unfold s2
      split
      · exact ⟨_, rfl, (congrArg Dispatcher.records h1 :)⟩
      · exact ⟨s1.dispatcher, rfl, congrArg Dispatcher.records h1⟩
    obtain ⟨d, e2, r⟩ := h2
    unfold u
    cases k with
    | control p f n => exact ⟨d, e2, by rw [r]⟩
    | delivery serial st =>
      dsimp only
      split
      · refine ⟨(modDelivery serial (Delivery.queueCopy l a) s2).dispatcher, by rw [e2]; rfl, ?_⟩
        have := keysOf_modDelivery serial (f := Delivery.queueCopy l a) (fun _ => rfl) s2
        refine this.trans ?_
        show s2.dispatcher.records.map _ = _
        rw [e2, r]
      · exact ⟨d, e2, by rw [r]⟩
  obtain ⟨d, eu, keys⟩ := shape
  have line (i : State → Line) (h : ∀ (x : State) (n : Nat) (y : Dispatcher), i { x with draws := n, dispatcher := y } = i x)
      (g : i s1 = i (modDrop l a (fun d => { d with queue := p.queue }) s)) :
      i u = i (modDrop l a (fun d => { d with queue := p.queue }) s) := by
    rw [eu, ← g]
    exact h s1 s1.draws d
  refine ⟨u, line State.line0 (fun _ _ _ => rfl) (by cases l <;> rfl), line State.line1 (fun _ _ _ => rfl) (by cases l <;> rfl),
    by rw [eu]; exact modDrop_journal .., by rw [eu]; exact modDrop_area .., by rw [eu]; exact keys, ?_⟩
  rw [e]
  cases placed : p.placed with
  | false =>
    have : p.displaced = none := by
      cases q : p.displaced with
      | none => rfl
      | some x =>
        subst hp
        exact absurd (settleEntry_displaced q) (by unfold placement at placed; rw [placed]; decide)
    rw [this]
    exact .inl ⟨rfl, rfl⟩
  | true =>
    cases p.displaced with
    | none => exact .inr (.inl ⟨rfl, rfl, rfl⟩)
    | some x => exact .inr (.inr ⟨rfl, x, rfl, rfl⟩)

/-- After an enqueue every drop stands as it stood but for the queue that was settled. -/
theorem drop?_enqueue (m : Message) (k : Carriage) (l : LineId) (a : Nat) (s : State) (o : LineId) (b : Nat) :
    drop? (enqueue m k l a s) o b
      = drop? (modDrop l a (fun d => { d with queue := (placement s m k l a).queue }) s) o b := by
  obtain ⟨u, l0, l1, -, -, -, h⟩ := enqueue_parts m k l a s
  have hu : drop? u o b = drop? (modDrop l a (fun d => { d with queue := (placement s m k l a).queue }) s) o b :=
    drop?_congr (by cases o <;> simp only [State.line, l0, l1]) b
  have held (x : AirEntry) (cause : DropMessageCause) : drop? (notHeld x cause l a u) o b = drop? u o b :=
    drop?_congr (by cases o <;> simp only [State.line, notHeld_lines]) b
  rcases h with ⟨-, e⟩ | ⟨-, -, e⟩ | ⟨-, x, -, e⟩
  · rw [e, held, hu]
  · rw [e, hu]
  · rw [e, held, hu]

theorem logs_enqueue (m : Message) (k : Carriage) (l : LineId) (a : Nat) (s : State) : Logs 1 s (enqueue m k l a s) := by
  obtain ⟨u, -, -, j, ar, -, h⟩ := enqueue_parts m k l a s
  have hu : Logs 0 s u := .of_same j (by rw [ar])
  have held (x : AirEntry) (cause : DropMessageCause) : Logs 1 s (notHeld x cause l a u) := hu.trans (logs_notHeld x cause l a u)
  rcases h with ⟨-, e⟩ | ⟨-, -, e⟩ | ⟨-, x, -, e⟩
  · rw [e]; exact held _ _
  · rw [e]; exact hu.mono (Nat.zero_le _)
  · rw [e]; exact held _ _

theorem keysOf_enqueue (m : Message) (k : Carriage) (l : LineId) (a : Nat) (s : State) : keysOf (enqueue m k l a s) = keysOf s := by
  obtain ⟨u, -, -, -, -, keys, h⟩ := enqueue_parts m k l a s
  rcases h with ⟨-, e⟩ | ⟨-, -, e⟩ | ⟨-, x, -, e⟩
  · rw [e, keysOf_notHeld, keys]
  · rw [e, keys]
  · rw [e, keysOf_notHeld, keys]

/-! ## Where a control message is -/

/-- A control message of a call for a member stands in some air queue, or has been dropped with its record. -/
def isHeldOrDropped (t : State) (kind : MessageKind) (tag m pager : Nat) : Prop :=
  (∃ l a d, ∃ e : AirEntry, drop? t l a = some d ∧ e ∈ d.queue ∧ e.isControl = true ∧ e.message.kind = kind ∧ e.message.tag = tag
      ∧ e.message.member = m ∧ e.message.pager = pager)
    ∨ isDropped t kind tag m

/-- From `s` to `t` no control message left its queue and no record left the pending list. -/
def KeepsControl (s t : State) : Prop :=
  (∀ l a d, drop? s l a = some d → ∃ d', drop? t l a = some d' ∧ ∀ e ∈ d.queue, e.isControl = true → e ∈ d'.queue)
    ∧ ∀ r ∈ s.journal.pending, r ∈ t.journal.pending

theorem KeepsControl.trans {a b c : State} (h : KeepsControl a b) (k : KeepsControl b c) : KeepsControl a c := by
  refine ⟨fun l i d hd => ?_, fun r m => k.2 r (h.2 r m)⟩
  obtain ⟨d', hd', q⟩ := h.1 l i d hd
  obtain ⟨d'', hd'', q'⟩ := k.1 l i d' hd'
  exact ⟨d'', hd'', fun e m c => q' e (q e m c) c⟩

theorem keepsControl_of_same {s t : State} (l0 : t.line0 = s.line0) (l1 : t.line1 = s.line1)
    (p : ∀ r ∈ s.journal.pending, r ∈ t.journal.pending) : KeepsControl s t :=
  ⟨fun l a d hd => ⟨d, (drop?_congr (by cases l <;> simp only [State.line, l0, l1]) a).trans hd, fun _ m _ => m⟩, p⟩

theorem KeepsControl.refl (s : State) : KeepsControl s s := keepsControl_of_same rfl rfl fun _ m => m

theorem keepsControl_submit (r : JournalRecord) (s : State) : KeepsControl s (submit r s) :=
  keepsControl_of_same (submit_line0 r s) (submit_line1 r s) fun _ m => (logs_submit r s).mem m

theorem isHeldOrDropped_of_keeps {s t : State} (k : KeepsControl s t) {kind : MessageKind} {tag m pager : Nat}
    (h : isHeldOrDropped s kind tag m pager) : isHeldOrDropped t kind tag m pager := by
  rcases h with ⟨l, a, d, e, hd, he, c, rest⟩ | ⟨r, hr, rest⟩
  · obtain ⟨d', hd', q⟩ := k.1 l a d hd
    exact .inl ⟨l, a, d', e, hd', q e he c, c, rest⟩
  · exact .inr ⟨r, k.2 r hr, rest⟩

/-! ## Sending a control message (R89) -/

/-- The entries of every queue were there before, or are ones that were allowed to come. -/
def QueuesFrom (P : AirEntry → Prop) (s t : State) : Prop :=
  ∀ l a d, drop? t l a = some d → ∃ old, drop? s l a = some old ∧ ∀ e ∈ d.queue, e ∈ old.queue ∨ P e

theorem QueuesFrom.trans {P : AirEntry → Prop} {a b c : State} (h : QueuesFrom P a b) (k : QueuesFrom P b c) : QueuesFrom P a c := by
  intro l i d hd
  obtain ⟨d', hd', q⟩ := k l i d hd
  obtain ⟨d'', hd'', q'⟩ := h l i d' hd'
  exact ⟨d'', hd'', fun e m => (q e m).elim (q' e) .inr⟩

theorem QueuesFrom.mono {P Q : AirEntry → Prop} {s t : State} (h : QueuesFrom P s t) (k : ∀ e, P e → Q e) : QueuesFrom Q s t :=
  fun l a d hd => (h l a d hd).imp fun _ g => ⟨g.1, fun e m => (g.2 e m).imp_right (k e)⟩

theorem queuesFrom_of_same {P : AirEntry → Prop} {s t : State} (l0 : t.line0 = s.line0) (l1 : t.line1 = s.line1) : QueuesFrom P s t :=
  fun l a d hd => ⟨d, (drop?_congr (by cases l <;> simp only [State.line, l0, l1]) a).symm.trans hd, fun _ m => .inl m⟩

/-- A drop after the update of one drop of its line. -/
theorem drop?_modDrop_cases {s : State} {l o : LineId} {a b : Nat} {f : Drop → Drop} {x d : Drop} (h : drop? s l a = some x)
    (hd : drop? (modDrop l a f s) o b = some d) : (o = l ∧ b = a ∧ d = f x) ∨ drop? s o b = some d := by
  have ha : a ≠ 0 := by rintro rfl; simp [drop?] at h
  by_cases ho : o = l
  · subst ho
    by_cases hb : b = a
    · subst hb
      rw [drop?_modDrop_same, h] at hd
      cases hd
      exact .inl ⟨rfl, rfl, rfl⟩
    · exact .inr ((drop?_modDrop_ne hb ha f s).symm.trans hd)
  · refine .inr ((drop?_congr ?_ b).symm.trans hd)
    rw [modDrop, State.line_modLine_ne ho]

theorem queueOf_of_drop {s : State} {l : LineId} {a : Nat} {d : Drop} (h : drop? s l a = some d) : queueOf s l a = d.queue := by
  unfold queueOf
  rw [h]
  rfl

theorem queuesFrom_enqueue {s : State} {l : LineId} {a : Nat} {x : Drop} (h : drop? s l a = some x) (m : Message) (k : Carriage) :
    QueuesFrom (fun e => e.message = m) s (enqueue m k l a s) := by
  intro o b d hd
  rw [drop?_enqueue] at hd
  rcases drop?_modDrop_cases h hd with ⟨rfl, rfl, rfl⟩ | hd
  · refine ⟨x, h, fun e he => ?_⟩
    rcases mem_settleEntry he with rfl | he
    · exact .inr rfl
    · exact .inl (queueOf_of_drop h ▸ he)
  · exact ⟨d, hd, fun _ m => .inl m⟩

/-- A control message that is enqueued stands in the queue or is dropped with its record. -/
theorem isHeldOrDropped_enqueue {s : State} (room : hasRoom s 1) {l : LineId} {a : Nat} {x : Drop} (h : drop? s l a = some x)
    (m : Message) {k : Carriage} (c : (entryOf s m k).isControl = true) :
    isHeldOrDropped (enqueue m k l a s) m.kind m.tag m.member m.pager := by
  obtain ⟨u, -, -, j, ar, -, e⟩ := enqueue_parts m k l a s
  have roomU : hasRoom u 1 := (Logs.of_same (n := 0) j (by rw [ar])).hasRoom (by simpa using room)
  have placed (p : (placement s m k l a).placed = true) : isHeldOrDropped (enqueue m k l a s) m.kind m.tag m.member m.pager := by
    refine .inl ⟨l, a, { x with queue := (placement s m k l a).queue }, entryOf s m k, ?_, settleEntry_placed p, c, rfl, rfl, rfl, rfl⟩
    rw [drop?_enqueue, drop?_modDrop_same, h]
    rfl
  rcases e with ⟨-, e⟩ | ⟨p, -, -⟩ | ⟨p, -⟩
  · rw [e]
    exact .inr (isDropped_notHeld (e := entryOf s m k) roomU c .full l a)
  · exact placed p
  · exact placed p

/-- A control message that is held or dropped is so after the enqueueing of another, or of one that replaces it. -/
theorem isHeldOrDropped_after_enqueue {s : State} (room : hasRoom s 1) {l : LineId} {a : Nat} {x : Drop} (h : drop? s l a = some x)
    (m : Message) {k : Carriage} (c : (entryOf s m k).isControl = true) {kind : MessageKind} {tag n pager : Nat}
    (same : m.kind = kind → m.tag = tag → m.member = n → m.pager = pager) (held : isHeldOrDropped s kind tag n pager) :
    isHeldOrDropped (enqueue m k l a s) kind tag n pager := by
  obtain ⟨u, -, -, j, ar, -, e⟩ := enqueue_parts m k l a s
  have roomU : hasRoom u 1 := (Logs.of_same (n := 0) j (by rw [ar])).hasRoom (by simpa using room)
  rcases held with ⟨o, b, d, y, hd, hy, cy, rfl, rfl, rfl, rfl⟩ | ⟨r, hr, rest⟩
  · by_cases p : (o, b) = (l, a)
    · cases p
      cases h.symm.trans hd
      have now : drop? (enqueue m k l a s) l a = some { x with queue := (placement s m k l a).queue } := by
        rw [drop?_enqueue, drop?_modDrop_same, h]
        rfl
      rcases settleEntry_keeps (entryOf s m k) (queueOf_of_drop h ▸ hy : y ∈ queueOf s l a) with q | ⟨sm, q⟩ | q
      · exact .inl ⟨l, a, _, y, now, q, cy, rfl, rfl, rfl, rfl⟩
      · simp only [AirEntry.sameMessage, Bool.and_eq_true, beq_iff_eq, entryOf] at sm
        obtain ⟨⟨t, n⟩, kd⟩ := sm
        exact .inl ⟨l, a, _, entryOf s m k, now, q, c, kd, t, n, same kd t n⟩
      · rcases e with ⟨no, -⟩ | ⟨-, no, -⟩ | ⟨-, z, hz, e⟩
        · rw [show (placement s m k l a).placed = true from settleEntry_displaced q] at no
          cases no
        · rw [show (placement s m k l a).displaced = some y from q] at no
          cases no
        · cases hz.symm.trans q
          rw [e]
          exact .inr (isDropped_notHeld roomU cy _ _ _)
    · refine .inl ⟨o, b, d, y, ?_, hy, cy, rfl, rfl, rfl, rfl⟩
      rw [drop?_enqueue]
      have ha : a ≠ 0 := by rintro rfl; simp [drop?] at h
      by_cases ho : o = l
      · subst ho
        exact (drop?_modDrop_ne (fun q => p (by rw [q])) ha _ s).trans hd
      · refine (drop?_congr ?_ b).trans hd
        rw [modDrop, State.line_modLine_ne ho]
  · exact .inr ⟨r, (logs_enqueue m k l a s).mem hr, rest⟩

/-- The transmitter of a route position is a drop. -/
theorem routeTransmitter_drop {s : State} {f : FixedRoute} {p : RoutePosition} {a : LineId × Nat} (h : routeTransmitter s f p = some a) :
    ∃ d, drop? s a.1 a.2 = some d := by
  obtain ⟨z, -, hz⟩ := Option.bind_eq_some_iff.1 h
  obtain ⟨-, u⟩ := Option.filter_eq_some_iff.1 hz
  obtain ⟨d, hd, -⟩ := (usableAt_iff s a).1 u
  exact ⟨d, hd⟩

/-- The three ends of the sending of a control message: at a usable transmitter of its route, or dropped. -/
theorem sendControl_cases (m : Message) (fixed : Option FixedRoute) (u : Option Nat) (s : State) :
    (∃ l a x k, drop? s l a = some x ∧ (entryOf s m k).isControl = true ∧ sendControl m fixed u s = enqueue m k l a s)
      ∨ ∃ cause, sendControl m fixed u s = messageDropped m cause none s := by
  unfold sendControl
  dsimp only
  split
  · exact .inr ⟨_, rfl⟩
  · split
    · rename_i a h
      obtain ⟨x, hx⟩ := routeTransmitter_drop h
      exact .inl ⟨a.1, a.2, x, _, hx, rfl, rfl⟩
    · split
      · rename_i a h
        obtain ⟨x, hx⟩ := routeTransmitter_drop h
        exact .inl ⟨a.1, a.2, x, _, hx, rfl, rfl⟩
      · exact .inr ⟨_, rfl⟩

theorem logs_sendControl (m : Message) (fixed : Option FixedRoute) (u : Option Nat) (s : State) : Logs 1 s (sendControl m fixed u s) := by
  rcases sendControl_cases m fixed u s with ⟨l, a, x, k, -, -, e⟩ | ⟨cause, e⟩
  · rw [e]; exact logs_enqueue ..
  · rw [e]; exact logs_submit ..

theorem keysOf_sendControl (m : Message) (fixed : Option FixedRoute) (u : Option Nat) (s : State) :
    keysOf (sendControl m fixed u s) = keysOf s := by
  rcases sendControl_cases m fixed u s with ⟨l, a, x, k, -, -, e⟩ | ⟨cause, e⟩
  · rw [e]; exact keysOf_enqueue ..
  · rw [e]; exact congrArg (fun d : Dispatcher => d.records.map (·.key)) (submit_dispatcher _ s)

theorem queuesFrom_sendControl (m : Message) (fixed : Option FixedRoute) (u : Option Nat) (s : State) :
    QueuesFrom (fun e => e.message = m) s (sendControl m fixed u s) := by
  rcases sendControl_cases m fixed u s with ⟨l, a, x, k, h, -, e⟩ | ⟨cause, e⟩
  · rw [e]; exact queuesFrom_enqueue h m k
  · rw [e]; exact queuesFrom_of_same (submit_line0 _ s) (submit_line1 _ s)

theorem isHeldOrDropped_sendControl {s : State} (room : hasRoom s 1) (m : Message) (fixed : Option FixedRoute) (u : Option Nat) :
    isHeldOrDropped (sendControl m fixed u s) m.kind m.tag m.member m.pager := by
  rcases sendControl_cases m fixed u s with ⟨l, a, x, k, h, c, e⟩ | ⟨cause, e⟩
  · rw [e]; exact isHeldOrDropped_enqueue room h m c
  · rw [e]; exact .inr (isDropped_messageDropped room m cause none)

theorem isHeldOrDropped_after_sendControl {s : State} (room : hasRoom s 1) (m : Message) (fixed : Option FixedRoute) (u : Option Nat)
    {kind : MessageKind} {tag n pager : Nat} (same : m.kind = kind → m.tag = tag → m.member = n → m.pager = pager)
    (held : isHeldOrDropped s kind tag n pager) : isHeldOrDropped (sendControl m fixed u s) kind tag n pager := by
  rcases sendControl_cases m fixed u s with ⟨l, a, x, k, h, c, e⟩ | ⟨cause, e⟩
  · rw [e]; exact isHeldOrDropped_after_enqueue room h m c same held
  · rw [e]; exact isHeldOrDropped_of_keeps (keepsControl_submit _ s) held

/-! ## Withdrawals (R96) -/

/-- From `s` to `t` delivery records were discarded, and copies of delivery records left their queues. -/
def Withdraws (s t : State) : Prop :=
  ∃ (keep : AirEntry → Bool) (records : List Delivery), (∀ e, e.isControl = true → keep e = true)
    ∧ records.Sublist s.dispatcher.records
    ∧ t = { s.mapDrops (fun d => { d with queue := d.queue.filter keep }) with dispatcher := { s.dispatcher with records := records } }

theorem Withdraws.refl (s : State) : Withdraws s s := by
  refine ⟨fun _ => true, s.dispatcher.records, fun _ _ => rfl, List.Sublist.refl _, ?_⟩
  have e : (fun d : Drop => { d with queue := d.queue.filter fun _ => true }) = id := by
    funext d
    simp
  rw [e]
  simp [State.mapDrops]

theorem Withdraws.trans {a b c : State} (h : Withdraws a b) (k : Withdraws b c) : Withdraws a c := by
  obtain ⟨p, rs, hp, sub, rfl⟩ := h
  obtain ⟨q, rs', hq, sub', rfl⟩ := k
  refine ⟨fun e => q e && p e, rs', fun e m => by simp [hp e m, hq e m], sub'.trans sub, ?_⟩
  simp [State.mapDrops, Function.comp_def, List.filter_filter]

theorem withdraws_withdraw (serial : Nat) (s : State) : Withdraws s (withdraw serial s) :=
  ⟨fun e => !e.isCopyOf serial, s.dispatcher.records.filter (·.serial != serial), fun e h => by simp [isCopyOf_of_isControl h],
    List.filter_sublist, rfl⟩

theorem withdraws_withdrawKey (key : RecordKey) (s : State) : Withdraws s (withdrawKey key s) := by
  unfold withdrawKey
  split
  · exact .refl s
  · exact withdraws_withdraw _ s

theorem withdraws_withdrawPages (tag m : Nat) (s : State) : Withdraws s (withdrawPages tag m s) :=
  (withdraws_withdrawKey _ s).trans (withdraws_withdrawKey _ _)

theorem withdraws_foldl {α : Type} (f : State → α → State) (hf : ∀ s x, Withdraws s (f s x)) (l : List α) (s : State) :
    Withdraws s (l.foldl f s) := by
  induction l generalizing s with
  | nil => exact .refl s
  | cons x l ih => exact (hf s x).trans (ih _)

theorem withdraws_withdrawTag (tag : Nat) (s : State) : Withdraws s (withdrawTag tag s) :=
  withdraws_foldl (fun s (r : Delivery) => withdraw r.serial s) (fun s r => withdraws_withdraw r.serial s) _ s

theorem Withdraws.logs {s t : State} (h : Withdraws s t) : Logs 0 s t := by
  obtain ⟨p, rs, -, -, rfl⟩ := h
  exact .of_same rfl rfl

theorem Withdraws.keys {s t : State} (h : Withdraws s t) : (keysOf t).Sublist (keysOf s) := by
  obtain ⟨p, rs, -, sub, rfl⟩ := h
  exact sub.map _

/-- Every queue is a part of what it was. -/
def QueuesShrink (s t : State) : Prop :=
  ∀ l a d, drop? t l a = some d → ∃ e, drop? s l a = some e ∧ d.queue.Sublist e.queue

theorem QueuesShrink.trans {a b c : State} (h : QueuesShrink a b) (k : QueuesShrink b c) : QueuesShrink a c := by
  intro l i d hd
  obtain ⟨d', hd', q⟩ := k l i d hd
  obtain ⟨d'', hd'', q'⟩ := h l i d' hd'
  exact ⟨d'', hd'', q.trans q'⟩

theorem queuesShrink_of_same {s t : State} (l0 : t.line0 = s.line0) (l1 : t.line1 = s.line1) : QueuesShrink s t :=
  fun l a d hd => ⟨d, (drop?_congr (by cases l <;> simp only [State.line, l0, l1]) a).symm.trans hd, List.Sublist.refl _⟩

theorem QueuesShrink.from {P : AirEntry → Prop} {s t : State} (h : QueuesShrink s t) : QueuesFrom P s t :=
  fun l a d hd => (h l a d hd).imp fun _ g => ⟨g.1, fun _ m => .inl (g.2.subset m)⟩

theorem Withdraws.drop? {s t : State} (h : Withdraws s t) : ∃ keep : AirEntry → Bool, (∀ e, e.isControl = true → keep e = true)
    ∧ ∀ l a, Machine.drop? t l a = (Machine.drop? s l a).map fun d => { d with queue := d.queue.filter keep } := by
  obtain ⟨keep, rs, hk, -, rfl⟩ := h
  refine ⟨keep, hk, fun l a => ?_⟩
  exact (drop?_congr (by cases l <;> rfl) a).trans (drop?_mapDrops _ s l a)

theorem Withdraws.queues {s t : State} (h : Withdraws s t) : QueuesShrink s t := by
  obtain ⟨keep, -, e⟩ := h.drop?
  intro l a d hd
  rw [e] at hd
  obtain ⟨x, hx, rfl⟩ := Option.map_eq_some_iff.1 hd
  exact ⟨x, hx, List.filter_sublist⟩

theorem Withdraws.keepsControl {s t : State} (h : Withdraws s t) : KeepsControl s t := by
  refine ⟨fun l a d hd => ?_, fun r m => h.logs.mem m⟩
  obtain ⟨keep, hk, e⟩ := h.drop?
  refine ⟨_, by rw [e, hd]; rfl, fun x m c => List.mem_filter.2 ⟨m, hk x c⟩⟩

/-- A withdrawal of records leaves those of other serials. -/
theorem records_foldl_withdraw (l : List Delivery) (s : State) :
    ∀ r ∈ (l.foldl (fun s r => withdraw r.serial s) s).dispatcher.records,
      r ∈ s.dispatcher.records ∧ ∀ x ∈ l, r.serial ≠ x.serial := by
  induction l generalizing s with
  | nil => exact fun r m => ⟨m, fun x h => absurd h List.not_mem_nil⟩
  | cons y l ih =>
    intro r m
    obtain ⟨hr, hl⟩ := ih _ r m
    obtain ⟨hr, hy⟩ := List.mem_filter.1 hr
    refine ⟨hr, fun x hx => ?_⟩
    rcases List.mem_cons.1 hx with rfl | hx
    · simpa using hy
    · exact hl x hx

/-- After the withdrawal of a tag no record has it (R42, R96). -/
theorem withdrawTag_free (tag : Nat) (s : State) : ∀ r ∈ (withdrawTag tag s).dispatcher.records, r.key.tag ≠ tag := by
  intro r m e
  obtain ⟨hr, hl⟩ := records_foldl_withdraw _ s r m
  exact hl r (List.mem_filter.2 ⟨hr, by simp [e]⟩) rfl

end Sys2Proof.Machine

/-! # Proofs: the work on one call, and its end

What the Call Engine's work on one context leaves of everything else (`CallWork`), and what the end of the call leaves, whatever state it
began in and however it began (`finishCall_ended`; R19 to R21). -/

namespace Sys2Proof.Machine

/-! ## Slot images -/

/-- A change of a slot image changes the fields it names, and the marks for the mirror (R2). -/
theorem SlotImage.change_eq (f : SlotImage → SlotImage) (g : SlotImage) :
    SlotImage.change f g = { f g with dirty := (SlotImage.change f g).dirty, touched := (SlotImage.change f g).touched } := by
  unfold SlotImage.change
  split
  · rename_i h
    rw [h]
  · rfl

theorem slotImage_modSlot_same {i : Nat} {s : State} (h : i < s.area.slots.length) (f : SlotImage → SlotImage) :
    slotImage (modSlot i f s) i = SlotImage.change f (slotImage s i) := by
  simp [slotImage, modSlot, State.modArea, List.getD_eq_getElem?_getD, h]

theorem slotImage_modContext (c : Nat) (f : Context → Context) (s : State) (j : Nat) :
    slotImage (modContext c f s) j = slotImage s j := rfl

/-- The images of all slots but one are as before, and of that one what the server's numbers and its request came to. -/
structure SlotKept (i : Nat) (s t : State) : Prop where
  others : ∀ j, j ≠ i → slotImage t j = slotImage s j
  length : t.area.slots.length = s.area.slots.length
  result : (slotImage t i).result = (slotImage s i).result
  takenPost : (slotImage t i).takenPost = (slotImage s i).takenPost
  takenRequest : (slotImage t i).takenRequest = (slotImage s i).takenRequest

theorem SlotKept.trans {i : Nat} {a b c : State} (h : SlotKept i a b) (k : SlotKept i b c) : SlotKept i a c where
  others j n := (k.others j n).trans (h.others j n)
  length := k.length.trans h.length
  result := k.result.trans h.result
  takenPost := k.takenPost.trans h.takenPost
  takenRequest := k.takenRequest.trans h.takenRequest

theorem slotKept_of_same {i : Nat} {s t : State} (h : t.area.slots = s.area.slots) : SlotKept i s t where
  others j _ := by unfold slotImage; rw [h]
  length := by rw [h]
  result := by unfold slotImage; rw [h]
  takenPost := by unfold slotImage; rw [h]
  takenRequest := by unfold slotImage; rw [h]

theorem slotKept_modSlot (i : Nat) {f : SlotImage → SlotImage} (s : State)
    (k : ∀ g, (f g).result = g.result ∧ (f g).takenPost = g.takenPost ∧ (f g).takenRequest = g.takenRequest) :
    SlotKept i s (modSlot i f s) := by
  have length : (modSlot i f s).area.slots.length = s.area.slots.length := List.length_modify ..
  by_cases h : i < s.area.slots.length
  · have e := (slotImage_modSlot_same h f).trans (SlotImage.change_eq f _)
    exact ⟨fun j n => slotImage_modSlot_ne n f s, length, by rw [e]; exact (k _).1, by rw [e]; exact (k _).2.1,
      by rw [e]; exact (k _).2.2⟩
  · have e : slotImage (modSlot i f s) i = slotImage s i := by
      unfold slotImage
      rw [List.getD_eq_default _ _ (by omega), List.getD_eq_default _ _ (by omega)]
    exact ⟨fun j n => slotImage_modSlot_ne n f s, length, by rw [e], by rw [e], by rw [e]⟩

/-- Work on one call, as the Area Controller sees it: nothing but slot images has changed there, and of another slot or of what the server
is answered, nothing (R2). -/
structure OnSlot (i : Nat) (s t : State) : Prop where
  agenda : t.agenda = s.agenda
  kept : SlotKept i s t
  area : t.area = { s.area with slots := t.area.slots }

theorem OnSlot.trans {i : Nat} {a b c : State} (h : OnSlot i a b) (k : OnSlot i b c) : OnSlot i a c where
  agenda := k.agenda.trans h.agenda
  kept := h.kept.trans k.kept
  area := by rw [k.area, h.area]

theorem onSlot_of_same {i : Nat} {s t : State} (agenda : t.agenda = s.agenda) (area : t.area = s.area) : OnSlot i s t where
  agenda := agenda
  kept := slotKept_of_same (congrArg _ area)
  area := by rw [area]

/-! ## The parts of a context -/

/-- A context without its state, its windows and turn, and its contacted list. -/
def Context.bare (k : Context) : Context :=
  { k with state := .free, deadline := .stopped, turn := .stopped, arrival := .stopped, mode := .none, turnMember := none
           contacted := [] }

/-- Two contexts of one call at one rung. -/
theorem Context.same_of_bare {k l : Context} (h : l.bare = k.bare) :
    (l.reuse = k.reuse ∧ l.slot = k.slot ∧ l.callNumber = k.callNumber ∧ l.zone = k.zone ∧ l.origin = k.origin ∧ l.text = k.text)
      ∧ (l.severity = k.severity ∧ l.ladder = k.ladder ∧ l.tag = k.tag ∧ l.rung = k.rung ∧ l.pass = k.pass)
      ∧ l.accepter = k.accepter ∧ l.site = k.site ∧ l.admitTick = k.admitTick ∧ l.acceptTick = k.acceptTick
      ∧ l.arriveTick = k.arriveTick := by
  simp only [Context.bare, Context.mk.injEq] at h
  simp only [h, and_self]

theorem callRecord_of_bare {k l : Context} (h : l.bare = k.bare) (kind : RecordKind) : callRecord kind l = callRecord kind k := by
  obtain ⟨⟨-, slot, number, zone, origin, -⟩, ⟨-, -, tag, -⟩, -⟩ := Context.same_of_bare h
  simp only [callRecord, slot, number, zone, origin, tag]

/-- The marks of a contacted list that decide who may be paged and who is sent a CANCEL. -/
def Context.marks (k : Context) : List (Nat × Bool × Bool × Bool) :=
  k.contacted.map fun e => (e.member, e.declined, e.unreached, e.cancelled)

theorem Context.marks_map {k l : Context} {f : Contact → Contact} (h : l.contacted = k.contacted.map f)
    (hf : ∀ e, (f e).member = e.member ∧ (f e).declined = e.declined ∧ (f e).unreached = e.unreached ∧ (f e).cancelled = e.cancelled) :
    l.marks = k.marks := by
  unfold Context.marks
  rw [h, List.map_map]
  exact List.map_congr_left fun e _ => by simp [hf]

theorem Context.isCurrent_map {k l : Context} {f : Contact → Contact} (h : l.contacted = k.contacted.map f)
    (hf : ∀ e, (f e).member = e.member ∧ (f e).current = e.current) (m : Nat) : l.isCurrent m = k.isCurrent m := by
  simp [Context.isCurrent, h, hf, Function.comp_def]

/-! ## Work on one call -/

/-- From `s` to `t` there was work on the call of context `c`: at most `n` records were submitted, entries for which `P` holds may have come
into the queues, members of the call may have lost the current mark, and the fields of the context outside `bare` and the slot images
may have changed; everything else is as it was, but that delivery records may have been discarded. -/
structure CallWork (P : AirEntry → Prop) (n c : Nat) (s t : State) : Prop where
  engine : t.engine = s.engine
  tickCount : t.tickCount = s.tickCount
  window : t.window = s.window
  watch : t.watch = s.watch
  attention : t.attention = s.attention
  latches : t.latches = s.latches
  agenda : t.agenda = s.agenda
  backlog : t.calls.backlog = s.calls.backlog
  area : t.area = { s.area with bus := t.area.bus, slots := t.area.slots }
  slots : t.area.slots.length = s.area.slots.length
  roster : t.roster = { s.roster with members := t.roster.members }
  members : t.roster.members.length = s.roster.members.length
  length : t.calls.contexts.length = s.calls.contexts.length
  others : ∀ d, d ≠ c → context t d = context s d
  bare : (context t c).bare = (context s c).bare
  engaged : ∀ m, (member t m).engaged = (member s m).engaged
  net : ∀ m, (member t m).paged - (if (context t c).isCurrent m then 1 else 0)
    = (member s m).paged - (if (context s c).isCurrent m then 1 else 0)
  keys : keysOf t ⊆ keysOf s
  logs : Logs n s t
  queues : QueuesFrom P s t

variable {P : AirEntry → Prop} {n c : Nat} {s t : State}

theorem CallWork.trans {k : Nat} {u : State} (h : CallWork P n c s t) (g : CallWork P k c t u) : CallWork P (n + k) c s u where
  engine := g.engine.trans h.engine
  tickCount := g.tickCount.trans h.tickCount
  window := g.window.trans h.window
  watch := g.watch.trans h.watch
  attention := g.attention.trans h.attention
  latches := g.latches.trans h.latches
  agenda := g.agenda.trans h.agenda
  backlog := g.backlog.trans h.backlog
  area := by rw [g.area, h.area]
  slots := g.slots.trans h.slots
  roster := by rw [g.roster, h.roster]
  members := g.members.trans h.members
  length := g.length.trans h.length
  others d hd := (g.others d hd).trans (h.others d hd)
  bare := g.bare.trans h.bare
  engaged m := (g.engaged m).trans (h.engaged m)
  net m := (g.net m).trans (h.net m)
  keys := fun _ m => h.keys (g.keys m)
  logs := h.logs.trans g.logs
  queues := h.queues.trans g.queues

theorem CallWork.mono {k : Nat} {Q : AirEntry → Prop} (h : CallWork P n c s t) (q : ∀ e, P e → Q e) (l : n ≤ k) :
    CallWork Q k c s t :=
  { h with logs := h.logs.mono l, queues := h.queues.mono q }

theorem CallWork.tables (h : CallWork P n c s t) : t.roster.tables = s.roster.tables := by rw [h.roster]

theorem CallWork.settings (h : CallWork P n c s t) : t.roster.settings = s.roster.settings := by rw [h.roster]

theorem CallWork.directory (h : CallWork P n c s t) : t.area.directory = s.area.directory := by rw [h.area]

theorem CallWork.tag (h : CallWork P n c s t) : (context t c).tag = (context s c).tag := (Context.same_of_bare h.bare).2.1.2.2.1

theorem CallWork.ladder (h : CallWork P n c s t) : callLadder t (context t c) = callLadder s (context s c) := by
  obtain ⟨-, ⟨-, ladder, -⟩, -⟩ := Context.same_of_bare h.bare
  unfold callLadder
  rw [h.tables, ladder]

/-- Work that reaches neither the calls nor the registry. -/
theorem callWork_of_same (engine : t.engine = s.engine) (tickCount : t.tickCount = s.tickCount) (window : t.window = s.window)
    (watch : t.watch = s.watch) (attention : t.attention = s.attention) (latches : t.latches = s.latches) (agenda : t.agenda = s.agenda)
    (calls : t.calls = s.calls) (area : t.area = { s.area with bus := t.area.bus, slots := t.area.slots })
    (slots : t.area.slots.length = s.area.slots.length) (roster : t.roster = s.roster) (keys : keysOf t ⊆ keysOf s)
    (logs : Logs n s t) (queues : QueuesFrom P s t) :
    CallWork P n c s t where
  engine := engine
  tickCount := tickCount
  window := window
  watch := watch
  attention := attention
  latches := latches
  agenda := agenda
  backlog := by rw [calls]
  area := area
  slots := slots
  roster := by rw [roster]
  members := by rw [roster]
  length := by rw [calls]
  others d _ := context_of_calls calls d
  bare := by rw [context_of_calls calls]
  engaged m := by unfold member; rw [roster]
  net m := by unfold member; rw [roster, context_of_calls calls]
  keys := keys
  logs := logs
  queues := queues

theorem CallWork.refl (P : AirEntry → Prop) (n c : Nat) (s : State) : CallWork P n c s s :=
  callWork_of_same rfl rfl rfl rfl rfl rfl rfl rfl rfl rfl rfl (fun _ m => m) (.refl n s) (queuesFrom_of_same rfl rfl)

/-- The work of the Page Dispatcher alone. -/
theorem callWork_mail (h : Mail s t) (keys : keysOf t ⊆ keysOf s)
    (logs : Logs n s t) (queues : QueuesFrom P s t) : CallWork P n c s t :=
  callWork_of_same h.engine h.tickCount h.window h.watch h.attention h.latches h.agenda h.calls (by rw [h.area]) (by rw [h.area])
    h.roster keys logs queues

theorem callWork_withdraws (h : Mail s t) (w : Withdraws s t) : CallWork P 0 c s t :=
  callWork_mail h w.keys.subset w.logs w.queues.from

theorem callWork_submit (r : JournalRecord) (s : State) : CallWork P 1 c s (submit r s) :=
  callWork_mail (mail_submit (.refl s) r) (by unfold keysOf; rw [submit_dispatcher]; exact fun _ m => m) (logs_submit r s)
    (queuesFrom_of_same (submit_line0 r s) (submit_line1 r s))

/-- A change of the slot images. -/
theorem callWork_modSlot (i : Nat) (f : SlotImage → SlotImage) (s : State) : CallWork P 0 c s (modSlot i f s) :=
  callWork_of_same rfl rfl rfl rfl rfl rfl rfl rfl rfl (List.length_modify ..) rfl (fun _ m => m) (.of_same rfl rfl)
    (queuesFrom_of_same rfl rfl)

/-- A change of the context that leaves its call, its rung and its current marks. -/
theorem callWork_modContext (f : Context → Context) (hf : ∀ k, (f k).bare = k.bare) (cur : ∀ k m, (f k).isCurrent m = k.isCurrent m)
    (s : State) : CallWork P 0 c s (modContext c f s) where
  engine := rfl
  tickCount := rfl
  window := rfl
  watch := rfl
  attention := rfl
  latches := rfl
  agenda := rfl
  backlog := rfl
  area := rfl
  slots := rfl
  roster := rfl
  members := rfl
  length := List.length_modify ..
  others d hd := context_modContext_ne hd f s
  bare := by rw [context_modContext]; split <;> [exact hf _; rfl]
  engaged _ := rfl
  net m := by
    have : (context (modContext c f s) c).isCurrent m = (context s c).isCurrent m := by
      rw [context_modContext]; split <;> [exact cur _ m; rfl]
    rw [this]
    rfl
  keys := fun _ m => m
  logs := .of_same rfl rfl
  queues := queuesFrom_of_same rfl rfl

/-! ## The loss of current marks (R32, R66, R96) -/

theorem member_modMember (m x : Nat) (f : Member → Member) (s : State) :
    member (modMember m f s) x = if x = m ∧ m < s.roster.members.length then Member.change f (member s m) else member s x := by
  by_cases h : x = m
  · subst h
    by_cases l : x < s.roster.members.length <;>
      simp [member, modMember, State.modRoster, List.getD_eq_getElem?_getD, l]
  · rw [if_neg (fun k => h k.1), member_modMember_ne h]

theorem Member.change_eq (f : Member → Member) (r : Member) :
    Member.change f r = { f r with dirty := (Member.change f r).dirty, touched := (Member.change f r).touched } := by
  unfold Member.change
  split
  · rename_i h
    rw [h]
  · rfl

/-- The record of a member whose paged count is lowered. -/
theorem lowerPaged_member (m x : Nat) (s : State) : (member (lowerPaged m s) x).engaged = (member s x).engaged
    ∧ (member (lowerPaged m s) x).paged = (member s x).paged - (if x = m then 1 else 0) := by
  unfold lowerPaged
  rw [member_modMember]
  split
  · rename_i h
    obtain ⟨rfl, -⟩ := h
    rw [Member.change_eq, if_pos rfl]
    exact ⟨rfl, rfl⟩
  · rename_i h
    refine ⟨rfl, ?_⟩
    by_cases e : x = m
    · subst e
      have : member s x = .empty := by
        unfold member
        rw [List.getD_eq_default _ _ (by simpa using h)]
      simp [this, Member.empty]
    · rw [if_neg e, Nat.sub_zero]

/-- What a member's entry is after the loss of the mark. -/
def Contact.unmarked (e : Contact) : Contact := { e with current := false, remind := .stopped }

theorem loseMark_eq (c m : Nat) (s : State) : loseMark c m s = if (context s c).isCurrent m then
    withdrawPages (context s c).tag m (lowerPaged m (modContext c (Context.modContact m Contact.unmarked) s)) else s := rfl

/-- The context, once a member has lost the mark. -/
theorem context_loseMark (c m d : Nat) (s : State) : context (loseMark c m s) d
    = if d = c ∧ (context s c).isCurrent m then (context s c).modContact m Contact.unmarked else context s d := by
  rw [loseMark_eq]
  by_cases k : (context s c).isCurrent m = true
  · rw [if_pos k, (mail_withdrawPages (.refl _) _ _).context]
    show context (modContext c _ s) d = _
    obtain ⟨hc, -⟩ := context_mem (c := c) (.inr ⟨m, k⟩)
    by_cases e : d = c
    · rw [if_pos ⟨e, k⟩, e, context_modContext, if_pos hc]
    · rw [if_neg (fun h => e h.1), context_modContext_ne e]
  · rw [if_neg k, if_neg (fun h => k h.2)]

theorem callWork_loseMark (m : Nat) (s : State) : CallWork P 0 c s (loseMark c m s) := by
  by_cases k : (context s c).isCurrent m = true
  · let u := lowerPaged m (modContext c (Context.modContact m Contact.unmarked) s)
    have e : loseMark c m s = withdrawPages (context s c).tag m u := by rw [loseMark_eq, if_pos k]
    have w : CallWork P 0 c u (loseMark c m s) := by
      rw [e]
      exact callWork_withdraws (mail_withdrawPages (.refl _) _ _) (withdraws_withdrawPages _ _ _)
    have records (x : Nat) := lowerPaged_member m x (modContext c (Context.modContact m Contact.unmarked) s)
    have ctx : context u c = context (loseMark c m s) c := by rw [e, (mail_withdrawPages (.refl _) _ _).context]
    refine CallWork.trans (n := 0) (t := u) ?_ w
    exact
      { engine := rfl, tickCount := rfl, window := rfl, watch := rfl, attention := rfl, latches := rfl, agenda := rfl, backlog := rfl
        area := rfl, slots := rfl, roster := rfl, members := List.length_modify .., length := List.length_modify ..
        others := fun d hd => context_modContext_ne hd _ s
        bare := by
          rw [ctx, context_loseMark, if_pos ⟨rfl, k⟩]
          rfl
        engaged := fun x => (records x).1
        net := fun x => by
          have cur : (context u c).isCurrent x = if x = m then false else (context s c).isCurrent x := by
            rw [ctx, isCurrent_loseMark]
          rw [cur]
          show (member u x).paged - _ = _
          rw [(records x).2]
          show (member s x).paged - _ - _ = _
          by_cases h : x = m
          · subst h; simp [k]
          · simp [h]
        keys := fun _ m => m
        logs := .of_same rfl rfl
        queues := queuesFrom_of_same rfl rfl }
  · rw [loseMark_eq, if_neg k]
    exact .refl P 0 c s

theorem area_loseMark (c m : Nat) (s : State) : (loseMark c m s).area = s.area := by
  rw [loseMark_eq]
  split
  · exact (mail_withdrawPages (.refl _) _ _).area
  · rfl

/-- What holds of each loss of a mark, and along them, holds of the loss of all. -/
theorem loseMarks_induction {R : State → State → Prop} (refl : ∀ s, R s s) (trans : ∀ {a b c}, R a b → R b c → R a c)
    (one : ∀ m s, R s (loseMark c m s)) (s : State) : R s (loseMarks c s) := by
  have fold (l : List Nat) (s : State) : R s (l.foldl (fun s m => loseMark c m s) s) := by
    induction l generalizing s with
    | nil => exact refl s
    | cons m l ih => exact trans (one m s) (ih _)
  exact fold _ s

theorem callWork_loseMarks (s : State) : CallWork P 0 c s (loseMarks c s) :=
  loseMarks_induction (fun s => .refl P 0 c s) (fun h k => h.trans k) callWork_loseMark s

theorem area_loseMarks (c : Nat) (s : State) : (loseMarks c s).area = s.area :=
  loseMarks_induction (R := fun s t => t.area = s.area) (fun _ => rfl) (fun h k => k.trans h) (area_loseMark c) s

theorem keepsControl_loseMarks (c : Nat) (s : State) : KeepsControl s (loseMarks c s) :=
  loseMarks_induction KeepsControl.refl KeepsControl.trans (fun m s => by
    rw [loseMark_eq]
    split
    · exact KeepsControl.trans (b := lowerPaged m (modContext c (Context.modContact m Contact.unmarked) s))
        (keepsControl_of_same rfl rfl fun _ m => m) (withdraws_withdrawPages _ _ _).keepsControl
    · exact .refl s) s

theorem queuesShrink_loseMarks (c : Nat) (s : State) : QueuesShrink s (loseMarks c s) :=
  loseMarks_induction (fun _ => queuesShrink_of_same rfl rfl) QueuesShrink.trans (fun m s => by
    rw [loseMark_eq]
    split
    · exact QueuesShrink.trans (b := lowerPaged m (modContext c (Context.modContact m Contact.unmarked) s))
        (queuesShrink_of_same rfl rfl) (withdraws_withdrawPages _ _ _).queues
    · exact queuesShrink_of_same rfl rfl) s

theorem marks_modContact {k : Context} {f : Contact → Contact} (m : Nat)
    (hf : ∀ e, (f e).member = e.member ∧ (f e).declined = e.declined ∧ (f e).unreached = e.unreached ∧ (f e).cancelled = e.cancelled) :
    (k.modContact m f).marks = k.marks := by
  refine Context.marks_map (f := fun e => if e.member = m then f e else e) rfl fun e => ?_
  split
  · exact hf e
  · exact ⟨rfl, rfl, rfl, rfl⟩

/-- A context without its contacted list. -/
def Context.unlisted (k : Context) : Context := { k with contacted := [] }

/-- The losses leave the state and the windows of the context, and the marks of its list that are not the current one. -/
theorem context_loseMarks (c : Nat) (s : State) : (context (loseMarks c s) c).marks = (context s c).marks
    ∧ (context (loseMarks c s) c).unlisted = (context s c).unlisted := by
  refine loseMarks_induction (c := c) (R := fun s t => (context t c).marks = (context s c).marks
    ∧ (context t c).unlisted = (context s c).unlisted) (fun _ => ⟨rfl, rfl⟩)
    (fun h k => ⟨k.1.trans h.1, k.2.trans h.2⟩) (fun m s => ?_) s
  rw [context_loseMark]
  split
  · exact ⟨marks_modContact m fun _ => ⟨rfl, rfl, rfl, rfl⟩, rfl⟩
  · exact ⟨rfl, rfl⟩

/-! ## The CANCELs of a call's end (R19) -/

/-- A member's entry is marked cancelled, and the CANCEL is sent. -/
def sendMarkedCancel (c m : Nat) (s : State) : State :=
  sendEndCancel (context s c) m (modContext c (Context.modContact m fun e => { e with cancelled := true }) s)

theorem callWork_sendMarkedCancel (m : Nat) (s : State) :
    CallWork (fun e => e.message.kind = .cancel ∧ e.message.tag = (context s c).tag ∧ e.message.member = m) 1 c s
      (sendMarkedCancel c m s) := by
  let marked := modContext c (Context.modContact m fun e => { e with cancelled := true }) s
  have mark : CallWork (fun e => e.message.kind = .cancel ∧ e.message.tag = (context s c).tag ∧ e.message.member = m) 0 c s marked :=
    callWork_modContext (Context.modContact m fun e => { e with cancelled := true }) (fun _ => rfl)
      (fun k x => (alike_modContact m (fun e => { e with cancelled := true }) (fun _ => ⟨rfl, rfl⟩) k).current x) s
  have comes : QueuesFrom (fun e => e.message.kind = .cancel ∧ e.message.tag = (context s c).tag ∧ e.message.member = m) marked
      (sendMarkedCancel c m s) :=
    (queuesFrom_sendControl _ none _ marked).mono fun e h => by rw [h]; exact ⟨rfl, rfl, rfl⟩
  have send := callWork_mail (c := c) (mail_sendEndCancel (.refl marked) (context s c) m)
    (fun _ h => (keysOf_sendControl _ none _ marked) ▸ h) (logs_sendControl _ none _ marked) comes
  exact (mark.trans send).mono (fun _ h => h) (by omega)

/-- The CANCELs to some members: only they come into the queues, and each is held or dropped with its record, given room. -/
theorem sendMarkedCancels_spec (c : Nat) (l : List Nat) (s : State) :
    let t := l.foldl (fun s m => sendMarkedCancel c m s) s
    CallWork (fun e => e.message.kind = .cancel ∧ e.message.tag = (context s c).tag ∧ e.message.member ∈ l) l.length c s t
    ∧ (hasRoom s l.length → ∀ m, m ∈ l ∨ isHeldOrDropped s .cancel (context s c).tag m (effectivePager s.roster.tables m) →
      isHeldOrDropped t .cancel (context s c).tag m (effectivePager s.roster.tables m)) := by
  induction l generalizing s with
  | nil => exact ⟨.refl _ _ _ _, fun _ m h => h.elim (fun h => absurd h List.not_mem_nil) id⟩
  | cons x l ih =>
    have one := callWork_sendMarkedCancel (c := c) x s
    obtain ⟨work, held⟩ := ih (sendMarkedCancel c x s)
    rw [one.tag] at work held
    rw [one.tables] at held
    refine ⟨?_, fun room m h => ?_⟩
    · rw [List.length_cons, Nat.add_comm]
      exact (one.mono (fun e h => ⟨h.1, h.2.1, by rw [h.2.2]; exact List.mem_cons_self⟩) (le_refl _)).trans
        (work.mono (fun e h => ⟨h.1, h.2.1, List.mem_cons_of_mem _ h.2.2⟩) (le_refl _))
    · have here : hasRoom (modContext c (Context.modContact x fun e => { e with cancelled := true }) s) 1 :=
        ⟨room.1, room.2.1, by have := room.2.2; rw [List.length_cons] at this; show s.journal.pending.length + 1 ≤ 64; omega⟩
      have rest : hasRoom (sendMarkedCancel c x s) l.length := one.logs.hasRoom (by rw [Nat.add_comm]; exact room)
      refine held rest m ?_
      rcases h with h | h
      · rcases List.mem_cons.1 h with rfl | h
        · exact .inr (isHeldOrDropped_sendControl here _ _ _)
        · exact .inl h
      · refine .inr (isHeldOrDropped_after_sendControl here _ _ _ ?_ (isHeldOrDropped_of_keeps (.refl _) h))
        rintro - - rfl
        rfl

/-! ## The end of a call (R19 to R21) -/

/-- The slot image of a call that has ended. -/
def SlotImage.ended (st : SlotState) (reason : Reason) (tick : Tick) (g : SlotImage) : SlotImage :=
  { g with state := st, reason := reason, endTick := tick, accepter := none }

/-- The slot of a call, if it has one, shows that the call has ended. -/
def showEnded (k : Context) (st : SlotState) (reason : Reason) (s : State) : State :=
  match k.slot with
  | none => s
  | some i => modSlot i (SlotImage.ended st reason s.tickCount) s

/-- The accepter of a call, if it has one, is released. -/
def releaseAccepter (k : Context) (s : State) : State :=
  match k.accepter with
  | none => s
  | some m => release m s

/-- The last part of a call's end, once nobody is current. -/
def closeCall (c : Nat) (st : SlotState) (reason : Reason) (s : State) : State :=
  let k := context s c
  let s := submit { callRecord (terminalRecord st) k with
    member := k.accepter, detail1 := reason.code, detail2 := packBytes k.rung k.pass }
    (showEnded k st reason (leaveLatches c (releaseAccepter k s)))
  let s := raise .callEnded s
  let s := if st = .exhausted then raise .exhausted s else s
  modContext c Context.freed s

/-- The first part of a call's end: the windows stop, the records are withdrawn, the CANCELs are sent and the marks are lost. -/
def unwindCall (c : Nat) (reason : Reason) (s : State) : State :=
  let s := withdrawTag (context s c).tag (modContext c Context.stopWindows s)
  loseMarks c (((context s c).endCancels reason).foldl (fun s m => sendMarkedCancel c m s) s)

theorem finishCall_eq (c : Nat) (st : SlotState) (reason : Reason) {s : State} (live : (context s c).live = true) :
    finishCall c st reason s = closeCall c st reason (unwindCall c reason s) := by
  unfold finishCall
  rw [if_neg (by simp [live])]
  extract_lets stopped sent unwound k released left shown logged raised told
  have unwinds : unwound = unwindCall c reason s := rfl
  rw [← unwinds]
  clear_value unwound
  rfl

end Sys2Proof.Machine

/-! # Proofs: what the end of a call leaves (R19 to R21)

`finishCall` in two parts: it unwinds the call (`unwindCall`), which is work on one call, and then closes it (`closeCall`). -/

namespace Sys2Proof.Machine

/-! ## Closing -/

theorem releaseAccepter_eq (k : Context) (s : State) :
    releaseAccepter k s = { s with roster := (releaseAccepter k s).roster } := by
  unfold releaseAccepter
  split <;> rfl

theorem showEnded_eq (k : Context) (st : SlotState) (reason : Reason) (s : State) :
    showEnded k st reason s = { s with area := { s.area with slots := (showEnded k st reason s).area.slots } } := by
  unfold showEnded
  split <;> rfl

/-- What the close of a call does, part by part. -/
theorem closeCall_eq (c : Nat) (st : SlotState) (reason : Reason) (s : State) :
    let k := context s c
    let r := { callRecord (terminalRecord st) k with member := k.accepter, detail1 := reason.code, detail2 := packBytes k.rung k.pass }
    ∃ j, closeCall c st reason s = { s with
        calls := (modContext c Context.freed s).calls
        roster := (releaseAccepter k s).roster
        latches := s.latches.map fun l => l.filter (· != c)
        area := { s.area with slots := (showEnded k st reason s).area.slots }
        attention := { s.attention with
          event := s.attention.event ||| 1 ||| (if st = .exhausted then BitVec.twoPow 14 4 else 0) }
        journal := j }
      ∧ Logs 1 s { s with journal := j }
      ∧ (hasRoom s 1 → j.pending = s.journal.pending ++ [{ r with tick := s.tickCount }]) := by
  intro k r
  let v := leaveLatches c (releaseAccepter k s)
  let u := showEnded k st reason v
  have left : v = { s with roster := (releaseAccepter k s).roster, latches := s.latches.map fun l => l.filter (· != c) } := by
    show leaveLatches c (releaseAccepter k s) = _
    conv_lhs => rw [releaseAccepter_eq]
    rfl
  have slots : u.area.slots = (showEnded k st reason s).area.slots := by
    show (showEnded k st reason v).area.slots = _
    rw [left]
    unfold showEnded
    split <;> rfl
  have shape : u = { s with
      roster := (releaseAccepter k s).roster, latches := s.latches.map fun l => l.filter (· != c)
      area := { s.area with slots := (showEnded k st reason s).area.slots } } := by
    have := showEnded_eq k st reason v
    rw [show showEnded k st reason v = u from rfl, slots, left] at this
    exact this
  have zero : BitVec.twoPow 14 0 = 1 := by decide
  refine ⟨(submit r u).journal, ?_, ?_, fun room => ?_⟩
  · show modContext c Context.freed (if st = .exhausted then raise .exhausted (raise .callEnded (submit r u))
      else raise .callEnded (submit r u)) = _
    rw [submit_shape, shape]
    split <;> simp [raise, Cause.mask, Cause.bit, zero, State.modAttention, modContext, State.modCalls]
  · obtain ⟨state, -, since⟩ := logs_submit r u
    rw [shape] at state since ⊢
    exact ⟨state, rfl, since⟩
  · rw [shape]
    exact submit_pending (s := { s with
      roster := (releaseAccepter k s).roster, latches := s.latches.map fun l => l.filter (· != c)
      area := { s.area with slots := (showEnded k st reason s).area.slots } }) room r

/-! ## Unwinding -/

theorem Context.mem_endCancels {k : Context} {reason : Reason} {m : Nat} :
    m ∈ k.endCancels reason ↔ ∃ e ∈ k.contacted, e.member = m ∧ isSentEndCancel k reason e := by
  simp only [Context.endCancels, List.mem_map, List.mem_filter, isSentEndCancel]
  refine exists_congr fun e => ⟨fun ⟨⟨h, g⟩, q⟩ => ⟨h, q, ?_⟩, fun ⟨h, q, g⟩ => ⟨⟨h, ?_⟩, q⟩⟩ <;>
    split at g <;> simp_all

/-- Who is sent a CANCEL at the end of a call is told by the marks of its contacted list and its accepter. -/
theorem Context.endCancels_congr {k l : Context} (marks : l.marks = k.marks) (accepter : l.accepter = k.accepter) (reason : Reason) :
    l.endCancels reason = k.endCancels reason := by
  have told (k : Context) : k.endCancels reason = (k.marks.filter fun x =>
      if k.accepter = some x.1 then reason != .clearedByMember else !x.2.1 && !x.2.2.2).map (·.1) := by
    simp only [Context.endCancels, Context.marks, List.filter_map, List.map_map]
    rfl
  rw [told, told, marks, accepter]

/-- The records that are left have keys that were there. -/
theorem tag_ne_of_keys {s t : State} {tag : Nat} (keys : keysOf t ⊆ keysOf s) (free : ∀ r ∈ s.dispatcher.records, r.key.tag ≠ tag) :
    ∀ r ∈ t.dispatcher.records, r.key.tag ≠ tag := by
  intro r hr
  obtain ⟨x, hx, e⟩ := List.mem_map.1 (keys (List.mem_map_of_mem hr))
  rw [← e]
  exact free x hx

theorem marks_stopWindows (k : Context) : k.stopWindows.marks = k.marks :=
  Context.marks_map (f := fun e => { e with remind := .stopped }) rfl fun _ => ⟨rfl, rfl, rfl, rfl⟩

theorem callWork_stopWindows {P : AirEntry → Prop} (c : Nat) (s : State) : CallWork P 0 c s (modContext c Context.stopWindows s) :=
  callWork_modContext Context.stopWindows (fun _ => rfl)
    (fun _ m => Context.isCurrent_map (f := fun e => { e with remind := .stopped }) rfl (fun _ => ⟨rfl, rfl⟩) m) s

theorem unwindCall_spec (c : Nat) (reason : Reason) (s : State) :
    let k := context s c
    let t := unwindCall c reason s
    CallWork (fun e => e.message.kind = .cancel ∧ e.message.tag = k.tag ∧ e.message.member ∈ k.endCancels reason)
        (k.endCancels reason).length c s t
      ∧ (hasRoom s (k.endCancels reason).length → ∀ m ∈ k.endCancels reason,
        isHeldOrDropped t .cancel k.tag m (effectivePager s.roster.tables m))
      ∧ (∀ r ∈ t.dispatcher.records, r.key.tag ≠ k.tag) ∧ ∀ e ∈ (context t c).contacted, e.current = false := by
  intro k t
  let stopped := modContext c Context.stopWindows s
  let alone := withdrawTag k.tag stopped
  let sent := (k.endCancels reason).foldl (fun s m => sendMarkedCancel c m s) alone
  have stop {P : AirEntry → Prop} : CallWork P 0 c s stopped := callWork_stopWindows c s
  have draw {P : AirEntry → Prop} : CallWork P 0 c stopped alone :=
    callWork_withdraws (mail_withdrawTag (.refl _) _) (withdraws_withdrawTag _ _)
  have marks : (context alone c).marks = k.marks := by
    rw [(mail_withdrawTag (.refl stopped) k.tag).context, context_modContext]
    split
    · exact marks_stopWindows k
    · rfl
  have same := (stop (P := fun _ => False)).trans draw
  obtain ⟨-, -, accepter, -⟩ := Context.same_of_bare same.bare
  have tag : (context stopped c).tag = k.tag := stop (P := fun _ => False) |>.tag
  have unwind : t = loseMarks c sent := by
    show loseMarks c (((context (withdrawTag (context s c).tag stopped) c).endCancels reason).foldl _ alone) = _
    rw [show context (withdrawTag (context s c).tag stopped) c = context alone c from rfl, Context.endCancels_congr marks accepter]
  obtain ⟨work, held⟩ := sendMarkedCancels_spec c (k.endCancels reason) alone
  rw [same.tag] at work held
  rw [same.tables] at held
  refine ⟨?_, fun room m hm => ?_, ?_, ?_⟩
  · rw [unwind]
    exact (((stop.trans draw).trans work).trans (callWork_loseMarks sent)).mono (fun _ h => h) (by omega)
  · rw [unwind]
    exact isHeldOrDropped_of_keeps (keepsControl_loseMarks c sent) (held (same.logs.hasRoom (by simpa using room)) m (.inl hm))
  · rw [unwind]
    refine tag_ne_of_keys (s := alone) ?_ (withdrawTag_free k.tag stopped)
    exact (work.trans (callWork_loseMarks sent)).keys
  · rw [unwind]
    exact loseMarks_nobody c sent

/-! ## The end as one event -/

/-- The registry record of a member, once a call's accepter is released. -/
theorem member_releaseAccepter (k : Context) (s : State) (m : Nat) :
    (member (releaseAccepter k s) m).engaged = (if k.accepter = some m then none else (member s m).engaged)
      ∧ (member (releaseAccepter k s) m).paged = (member s m).paged := by
  unfold releaseAccepter
  cases k.accepter with
  | none => exact ⟨rfl, rfl⟩
  | some a =>
    show (member (modMember a _ s) m).engaged = _ ∧ (member (modMember a _ s) m).paged = _
    rw [member_modMember]
    by_cases h : m = a
    · subst h
      by_cases l : m < s.roster.members.length
      · rw [if_pos ⟨rfl, l⟩, Member.change_eq]
        simp
      · have : member s m = .empty := List.getD_eq_default _ _ (by omega)
        simp [this, Member.empty, l]
    · simp [h, Ne.symm h]

theorem terminalRecord_eq {st : SlotState} (h : st ≠ .rejected) :
    terminalRecord st = if st = .cleared then .cleared else if st = .exhausted then .exhausted else .withdrawn := by
  cases st with
  | rejected => exact absurd rfl h
  | _ => rfl

theorem Context.length_endCancels (reason : Reason) (k : Context) : (k.endCancels reason).length ≤ k.contacted.length := by
  rw [Context.endCancels, List.length_map]
  exact List.length_filter_le ..

/-- What the end of a call leaves, whatever work on the call came before it in the same event, with at most one record (R19 to R21). -/
theorem finishCall_ended {o s : State} {n c : Nat} {st : SlotState} {reason : Reason} (w : CallWork (fun _ => False) n c o s) (hn : n ≤ 1)
    (live : (context s c).live = true) (marks : (context s c).marks = (context o c).marks) (terminal : st ≠ .rejected) :
    isEndedAfter o (finishCall c st reason s) c st reason := by
  rw [finishCall_eq c st reason live]
  obtain ⟨unwind, held, free, nobody⟩ := unwindCall_spec c reason s
  obtain ⟨⟨reuse, slot, -⟩, ⟨-, -, -, rung, pass⟩, accepter, -⟩ := Context.same_of_bare (w.bare.symm.trans unwind.bare.symm).symm
  obtain ⟨-, -, acc, -⟩ := Context.same_of_bare w.bare
  have cancels : (context s c).endCancels reason = (context o c).endCancels reason := Context.endCancels_congr marks acc reason
  rw [cancels] at unwind held
  rw [w.tag] at unwind held free
  rw [w.tables] at held
  have work := (w.mono (Q := fun e => e.message.kind = .cancel ∧ e.message.tag = (context o c).tag
    ∧ e.message.member ∈ (context o c).endCancels reason) (fun _ h => h.elim) hn).trans unwind
  have size := (context o c).length_endCancels reason
  obtain ⟨hc, -⟩ := context_mem (c := c) (.inl live)
  obtain ⟨j, e, logs, record⟩ := closeCall_eq c st reason (unwindCall c reason s)
  generalize unwindCall c reason s = u at *
  rw [e]
  have nobody := isCurrent_eq_false.2 nobody
  have shown : ∀ i, (context u c).slot = some i → i < u.area.slots.length →
      (showEnded (context u c) st reason u).area.slots.getD i (.emptyWith 0 0)
        = SlotImage.change (SlotImage.ended st reason u.tickCount) (slotImage u i) := by
    intro i hi hl
    unfold showEnded
    rw [hi]
    exact slotImage_modSlot_same hl _
  refine ⟨?_, fun d hd => ?_, work.backlog, fun m => ?_, fun m => ?_, free, ?_, fun i hi hl => ?_, ?_, ⟨fun room m x hx sent => ?_,
    fun m unsent l a d x hd hx kind tag of => ?_⟩, fun room => ?_, work.engine, work.tickCount, work.window, work.watch⟩
  · show context (modContext c Context.freed u) c = _
    rw [context_modContext, if_pos (by rw [unwind.length]; exact hc), ← reuse]
    rfl
  · exact (context_modContext_ne hd _ u).trans (work.others d hd)
  · rw [← work.engaged m, ← accepter]
    exact (member_releaseAccepter _ u m).1
  · have net := work.net m
    rw [nobody m] at net
    exact ((member_releaseAccepter _ u m).2).trans net
  · intro l hl
    obtain ⟨x, -, rfl⟩ := List.mem_map.1 hl
    simp
  · have image := shown i (slot.trans hi) (work.slots ▸ hl)
    rw [SlotImage.change_eq] at image
    show ((showEnded (context u c) st reason u).area.slots.getD i _).state = _ ∧ _
    unfold slotImage
    rw [image]
    exact ⟨rfl, rfl, work.tickCount, rfl⟩
  · show ({ u.attention with event := _ } : Attention) = _
    rw [work.attention]
  · have inList : m ∈ (context o c).endCancels reason :=
      Context.mem_endCancels.2 ⟨x, List.mem_of_find?_eq_some hx, by simpa using List.find?_some hx, sent⟩
    have now := held (w.logs.hasRoom ⟨room.1, room.2.1, by omega⟩) m inList
    have kept : KeepsControl u { u with journal := j } := keepsControl_of_same rfl rfl fun _ h => logs.mem h
    rcases isHeldOrDropped_of_keeps kept now with ⟨l, a, d, y, hd, hy, -, rest⟩ | dropped
    · exact .inl ⟨l, a, d, y, hd, hy, rest⟩
    · exact .inr dropped
  · obtain ⟨old, hold, comes⟩ := work.queues l a d hd
    refine ⟨old, hold, (comes x hx).resolve_right fun ⟨_, _, h⟩ => ?_⟩
    obtain ⟨y, hy, q, sent⟩ := Context.mem_endCancels.1 h
    exact unsent y hy (q.trans of) sent
  · obtain ⟨-, -, since, h, -⟩ := work.logs
    refine ⟨since ++ [endRecord o (context o c) st reason], ?_, List.mem_append_right _ (List.mem_singleton.2 rfl)⟩
    show j.pending = _
    rw [record (work.logs.hasRoom ⟨room.1, room.2.1, by omega⟩), h, List.append_assoc, callRecord_of_bare work.bare, accepter, rung, pass,
      work.tickCount, terminalRecord_eq terminal]
    rfl

theorem area_unwindCall (c : Nat) (reason : Reason) (s : State) : (unwindCall c reason s).area = s.area := by
  have sends (l : List Nat) (s : State) : (l.foldl (fun s m => sendMarkedCancel c m s) s).area = s.area := by
    induction l generalizing s with
    | nil => rfl
    | cons m l ih =>
      rw [List.foldl_cons, ih]
      exact (mail_sendEndCancel (.refl _) _ _).area
  unfold unwindCall
  rw [area_loseMarks, sends]
  exact (mail_withdrawTag (.refl _) _).area

/-- The end of a call leaves the agenda, and of the Area Controller all but the image of its slot. -/
theorem finishCall_onSlot {s : State} {c i : Nat} (st : SlotState) (reason : Reason) (live : (context s c).live = true)
    (slot : (context s c).slot = some i) : OnSlot i s (finishCall c st reason s) := by
  rw [finishCall_eq c st reason live]
  obtain ⟨unwind, -⟩ := unwindCall_spec c reason s
  obtain ⟨⟨-, same, -⟩, -⟩ := Context.same_of_bare unwind.bare
  obtain ⟨j, e, -⟩ := closeCall_eq c st reason (unwindCall c reason s)
  refine (onSlot_of_same unwind.agenda (area_unwindCall c reason s)).trans ?_
  generalize unwindCall c reason s = u at *
  have shown : showEnded (context u c) st reason u = modSlot i (SlotImage.ended st reason u.tickCount) u := by
    unfold showEnded
    rw [same, slot]
  rw [shown] at e
  rw [e]
  exact ⟨rfl, (slotKept_modSlot i (f := SlotImage.ended st reason u.tickCount) u fun _ => ⟨rfl, rfl, rfl⟩).trans
    (slotKept_of_same rfl), rfl⟩

end Sys2Proof.Machine

/-! # Proofs: the hand-over of a delivery message (R83, R87, R90)

The records that a hand-over submits, and the delivery record that it leaves. -/

namespace Sys2Proof.Machine

/-- From `s` to `t` some records may have joined the pending list, and the delivery records kept their keys. -/
def KeepsKeys (s t : State) : Prop := (∃ n, Logs n s t) ∧ keysOf t = keysOf s

theorem KeepsKeys.refl (s : State) : KeepsKeys s s := ⟨⟨0, .refl 0 s⟩, rfl⟩

theorem KeepsKeys.trans {a b c : State} (h : KeepsKeys a b) (k : KeepsKeys b c) : KeepsKeys a c := by
  obtain ⟨⟨n, h⟩, e⟩ := h
  obtain ⟨⟨m, k⟩, e'⟩ := k
  exact ⟨⟨n + m, h.trans k⟩, e'.trans e⟩

theorem keepsKeys_modDelivery (serial : Nat) (f : Delivery → Delivery) (h : ∀ r, (f r).key = r.key) (s : State) :
    KeepsKeys s (modDelivery serial f s) :=
  ⟨⟨0, .of_same rfl rfl⟩, keysOf_modDelivery serial h s⟩

theorem keepsKeys_enqueueCopies (r : Delivery) (st : Stage) (ts : List (LineId × Nat)) (s : State) :
    KeepsKeys s (enqueueCopies r st ts s) := by
  unfold enqueueCopies
  induction ts generalizing s with
  | nil => exact .refl s
  | cons a ts ih => exact .trans ⟨⟨1, logs_enqueue ..⟩, keysOf_enqueue ..⟩ (ih _)

theorem keepsKeys_becomePending (serial : Nat) (st : Stage) (s : State) : KeepsKeys s (becomePending serial st s) := by
  refine .trans (b := s.modDispatcher fun d => { d with pendingCount := d.pendingCount + 1 }) ⟨⟨0, .of_same rfl rfl⟩, rfl⟩ ?_
  refine keepsKeys_modDelivery serial _ ?_ _
  exact fun _ => rfl

theorem logs_endUnreached (r : Delivery) (s : State) : Logs 1 s (endUnreached r s).1 :=
  (logs_submit _ s).trans (withdraws_withdraw r.serial _).logs

/-- A stage begun submits records alone, and leaves every delivery record, where its own still has the no-route retry. -/
theorem beginStage_spec (serial : Nat) (st : Stage) (s : State) : (∃ n, Logs n s (beginStage serial st s).1)
    ∧ ((∀ r, delivery? s serial = some r → r.noRouteUsed = false) → keysOf (beginStage serial st s).1 = keysOf s) := by
  have keeps {t : State} {found : Option Delivery} (h : KeepsKeys s t) : (∃ n, Logs n s t)
      ∧ ((∀ r, found = some r → r.noRouteUsed = false) → keysOf t = keysOf s) := ⟨h.1, fun _ => h.2⟩
  unfold beginStage
  cases h : delivery? s serial with
  | none => exact keeps (.refl s)
  | some r =>
    dsimp only
    split
    · exact keeps (keepsKeys_becomePending ..)
    · split
      · split
        · rename_i used
          refine ⟨?_, fun retry => absurd (retry r rfl) (by simp [used])⟩
          exact ⟨_, Logs.trans (n := 0) (.of_same rfl rfl) (logs_endUnreached ..)⟩
        · refine keeps (.trans (keepsKeys_modDelivery serial _ ?_ s) (keepsKeys_modDelivery serial _ ?_ _)) <;> exact fun _ => rfl
      · refine keeps (.trans (keepsKeys_modDelivery serial _ ?_ s) (keepsKeys_enqueueCopies ..))
        exact fun _ => rfl

/-- The delivery record that a hand-over makes (R83, R90). -/
def freshDelivery (kind : DeliveryKind) (c m : Nat) (breakIn : Bool) (s u : State) : Delivery where
  serial := u.dispatcher.serial
  key := { tag := (context s c).tag, member := m, kind := kind }
  message := deliveryMessage u kind (context s c) m breakIn
  stage := .lastHeard
  isPending := false
  pendingOrder := 0
  copies := []
  receipt := .stopped
  retry := .stopped
  noRouteUsed := false

theorem handOver_eq (kind : DeliveryKind) (c m : Nat) (breakIn : Bool) (s : State) :
    let u := withdrawKey { tag := (context s c).tag, member := m, kind := kind } s
    handOver kind c m breakIn s = (beginStage u.dispatcher.serial .lastHeard (u.modDispatcher fun d =>
      { d with records := d.records ++ [freshDelivery kind c m breakIn s u], serial := d.serial + 1 })).1 := rfl

theorem logs_handOver (kind : DeliveryKind) (c m : Nat) (breakIn : Bool) (s : State) :
    ∃ n, Logs n s (handOver kind c m breakIn s) := by
  rw [handOver_eq]
  have draws := withdraws_withdrawKey { tag := (context s c).tag, member := m, kind := kind } s
  generalize withdrawKey { tag := (context s c).tag, member := m, kind := kind } s = u at draws ⊢
  obtain ⟨n, logs⟩ := (beginStage_spec u.dispatcher.serial .lastHeard (u.modDispatcher fun d =>
    { d with records := d.records ++ [freshDelivery kind c m breakIn s u], serial := d.serial + 1 })).1
  exact ⟨_, (draws.logs.trans (k := 0) (.of_same rfl rfl)).trans logs⟩

/-- A hand-over leaves a record of its key (R83). -/
theorem deliveryOf_handOver {s : State} (kind : DeliveryKind) (c m : Nat) (breakIn : Bool) (ok : s.dispatcher.ok) :
    (deliveryOf (handOver kind c m breakIn s) { tag := (context s c).tag, member := m, kind := kind }).isSome = true := by
  rw [handOver_eq]
  have kept := (quiet_withdrawKey (.refl s) { tag := (context s c).tag, member := m, kind := kind }).records ok
  generalize withdrawKey { tag := (context s c).tag, member := m, kind := kind } s = u at kept ⊢
  obtain ⟨-, -, below⟩ := kept
  let v := u.modDispatcher fun d => { d with records := d.records ++ [freshDelivery kind c m breakIn s u], serial := d.serial + 1 }
  have records : v.dispatcher.records = u.dispatcher.records ++ [freshDelivery kind c m breakIn s u] := rfl
  have keys := (beginStage_spec u.dispatcher.serial .lastHeard v).2 fun r hr => by
    have mem := List.mem_of_find?_eq_some hr
    have serial : r.serial = u.dispatcher.serial := by simpa using List.find?_some hr
    rw [records] at mem
    rcases List.mem_append.1 mem with h | h
    · exact absurd serial (ne_of_lt (below r h))
    · rw [List.mem_singleton.1 h]
      rfl
  have : { tag := (context s c).tag, member := m, kind := kind } ∈ keysOf (beginStage u.dispatcher.serial .lastHeard v).1 := by
    rw [keys, keysOf, records]
    simp [freshDelivery]
  obtain ⟨r, hr, e⟩ := List.mem_map.1 this
  exact List.find?_isSome.2 ⟨r, hr, by simp [e]⟩

end Sys2Proof.Machine

/-! # Proofs: the unanswered end of a rung (R40 to R43)

What the end of a rung comes to: the call enters HELD, enters the next rung, or goes past its last. -/

namespace Sys2Proof.Machine

variable {P : AirEntry → Prop} {n c : Nat} {s t : State}

/-! ## The slot of a context -/

/-- The slot image of a call that holds a context. -/
def SlotImage.shown (k : Context) (g : SlotImage) : SlotImage :=
  { g with
    state := k.state.toSlot, rung := k.rung, pass := k.pass, site := k.site, tag := some k.tag, accepter := k.accepter
    admitTick := k.admitTick, acceptTick := k.acceptTick, arriveTick := k.arriveTick }

theorem showContext_some {i : Nat} (h : (context s c).slot = some i) :
    showContext c s = modSlot i (SlotImage.shown (context s c)) s := by
  unfold showContext
  dsimp only
  rw [h]
  rfl

theorem showContext_shape (c : Nat) (s : State) :
    showContext c s = { s with area := { s.area with slots := (showContext c s).area.slots } }
      ∧ (showContext c s).area.slots.length = s.area.slots.length := by
  cases h : (context s c).slot with
  | none =>
    have : showContext c s = s := by unfold showContext; dsimp only; rw [h]
    rw [this]
    exact ⟨rfl, rfl⟩
  | some i =>
    rw [showContext_some h]
    exact ⟨rfl, List.length_modify ..⟩

theorem slotImage_showContext {i : Nat} (h : (context s c).slot = some i) (l : i < s.area.slots.length) :
    (slotImage (showContext c s) i).state = (context s c).state.toSlot ∧ (slotImage (showContext c s) i).rung = (context s c).rung
      ∧ (slotImage (showContext c s) i).pass = (context s c).pass := by
  rw [showContext_some h, slotImage_modSlot_same l, SlotImage.change_eq]
  exact ⟨rfl, rfl, rfl⟩

theorem slotKept_showContext {i : Nat} (h : (context s c).slot = some i) : SlotKept i s (showContext c s) := by
  rw [showContext_some h]
  exact slotKept_modSlot i s fun _ => ⟨rfl, rfl, rfl⟩

theorem callWork_showContext (c : Nat) (s : State) : CallWork P 0 c s (showContext c s) := by
  obtain ⟨e, l⟩ := showContext_shape c s
  rw [e]
  exact callWork_of_same rfl rfl rfl rfl rfl rfl rfl rfl rfl l rfl (fun _ m => m) (.of_same rfl rfl) (queuesFrom_of_same rfl rfl)

/-- Work on a call goes on the same whatever the attention latch holds. -/
theorem CallWork.attended (h : CallWork P n c s t) (a : Attention) :
    CallWork P n c { s with attention := a } { t with attention := a } :=
  { h with attention := rfl }

/-! ## The end of a rung -/

/-- The state of a call whose rung has ended unanswered (R40). -/
def rungOver (c : Nat) (s : State) : State := loseMarks c (stopRung c s)

/-- The causes latched as a rung ends unanswered: OVERDUE joins them at the stop rung (R40). -/
def overdueEvents (s : State) (c : Nat) : BitVec 14 :=
  let k := context s c
  let l := callLadder s k
  s.attention.event ||| (if l.stopRung = some k.rung ∧ k.rung ≤ l.effectiveLast then BitVec.twoPow 14 3 else 0)

/-- A state in which a rung of one call has ended unanswered, its OVERDUE raised. -/
def rungEnded (c : Nat) (s : State) : State :=
  { rungOver c s with attention := { s.attention with event := overdueEvents s c } }

/-- What a rung that has ended unanswered leaves of its context: no window of the rung and nobody current, and all else but the
contacted list (R40). -/
theorem rungOver_spec (c : Nat) (s : State) : CallWork P 0 c s (rungOver c s)
    ∧ (context (rungOver c s) c).marks = (context s c).marks
    ∧ ((context (rungOver c s) c).state = (context s c).state
      ∧ ((context s c).live = true → (context (rungOver c s) c).deadline = .stopped ∧ (context (rungOver c s) c).turn = .stopped))
    ∧ (∀ m, (context (rungOver c s) c).isCurrent m = false) ∧ (rungOver c s).area = s.area := by
  let f : Context → Context := fun k => { k with deadline := .stopped, turn := .stopped, mode := .none, turnMember := none }
  have stop : CallWork P 0 c s (stopRung c s) := callWork_modContext f (fun _ => rfl) (fun _ _ => rfl) s
  have here : context (stopRung c s) c = if c < s.calls.contexts.length then f (context s c) else context s c :=
    context_modContext c f s
  obtain ⟨marks, unlisted⟩ := context_loseMarks c (stopRung c s)
  refine ⟨stop.trans (callWork_loseMarks _), marks.trans ?_, ⟨?_, fun live => ?_⟩, isCurrent_eq_false.2 (loseMarks_nobody c _),
    area_loseMarks c _⟩
  · rw [here]
    split <;> rfl
  · rw [here] at unlisted
    show (context (loseMarks c (stopRung c s)) c).state = _
    generalize context (loseMarks c (stopRung c s)) c = k at unlisted ⊢
    refine (congrArg Context.state unlisted :).trans ?_
    split <;> rfl
  · obtain ⟨hc, -⟩ := context_mem (c := c) (.inl live)
    rw [here, if_pos hc] at unlisted
    show (context (loseMarks c (stopRung c s)) c).deadline = _ ∧ (context (loseMarks c (stopRung c s)) c).turn = _
    generalize context (loseMarks c (stopRung c s)) c = k at unlisted ⊢
    exact ⟨(congrArg Context.deadline unlisted :), (congrArg Context.turn unlisted :)⟩

theorem endRung_eq (paging : (context s c).state = .paging) : endRung c s =
    if (callRung s (context s c)).hold && (callLadder s (context s c)).has (context s c).rung then (enterHeld c (rungEnded c s), [])
    else if (context s c).rung < (callLadder s (context s c)).effectiveLast
      then (rungEnded c s, [.enterRung c ((context s c).rung + 1)])
      else (rungEnded c s, [.pastLast c]) := by
  obtain ⟨work, -⟩ := rungOver_spec (P := fun _ => False) c s
  have ladder := work.ladder
  have rung : (context (rungOver c s) c).rung = (context s c).rung := (Context.same_of_bare work.bare).2.1.2.2.2.1
  have ended : (if (callLadder s (context s c)).stopRung = some (context s c).rung ∧ (callLadder s (context s c)).has (context s c).rung
      then raise .overdue (rungOver c s) else rungOver c s) = rungEnded c s := by
    unfold rungEnded overdueEvents
    rw [← work.attention]
    simp only [Ladder.has, decide_eq_true_eq]
    split
    · rfl
    · simp
  unfold endRung
  rw [if_neg (by simp [paging])]
  dsimp only
  rw [show loseMarks c (stopRung c s) = rungOver c s from rfl, callRung, ladder, rung, ended,
    show callLadder (rungEnded c s) (context (rungOver c s) c) = _ from ladder]
  rfl

/-- A rung that has ended unanswered leaves the call in HELD (R42). -/
def heldAfterRung (c : Nat) (s : State) : State := enterHeld c (rungEnded c s)

/-- The entry into HELD: the records of the tag go, and the context and its slot are HELD (R42). -/
def beHeld (c : Nat) (s : State) : State :=
  showContext c (modContext c (fun k => { k with state := .held }) (withdrawTag (context s c).tag s))

theorem enterHeld_eq (c : Nat) (s : State) : enterHeld c s = raise .callHeld
    (submit { callRecord .held (context (beHeld c s) c) with
      detail1 := packBytes (context (beHeld c s) c).rung (context (beHeld c s) c).pass } (beHeld c s)) := rfl

theorem beHeld_spec (live : (context s c).live = true) : CallWork P 0 c s (beHeld c s)
    ∧ context (beHeld c s) c = { context s c with state := .held }
    ∧ (∀ r ∈ (beHeld c s).dispatcher.records, r.key.tag ≠ (context s c).tag) ∧ QueuesShrink s (beHeld c s)
    ∧ (∀ i, (context s c).slot = some i → i < s.area.slots.length → (slotImage (beHeld c s) i).state = .held)
    ∧ (∀ i, (context s c).slot = some i → SlotKept i s (beHeld c s))
    ∧ (beHeld c s).area = { s.area with slots := (beHeld c s).area.slots } := by
  let u := withdrawTag (context s c).tag s
  let v := modContext c (fun k => { k with state := .held }) u
  have mail := mail_withdrawTag (.refl s) (context s c).tag
  have draw : CallWork P 0 c s u := callWork_withdraws mail (withdraws_withdrawTag _ _)
  have mark : CallWork P 0 c u v :=
    callWork_modContext (fun k => { k with state := .held }) (fun _ => rfl) (fun _ _ => rfl) u
  have held : context v c = { context s c with state := .held } := by
    obtain ⟨hc, -⟩ := context_mem (c := c) (.inl live)
    show context (modContext c _ u) c = _
    rw [context_modContext, if_pos (by rw [draw.length]; exact hc), mail.context]
  obtain ⟨shape, -⟩ := showContext_shape c v
  have slot : (context v c).slot = (context s c).slot := by rw [held]
  have area : v.area = s.area := mail.area
  have shown : beHeld c s = showContext c v := rfl
  rw [shown]
  refine ⟨(draw.trans mark).trans (callWork_showContext c v), ?_, ?_, ?_, fun i hi l => ?_, fun i hi => ?_, ?_⟩
  · rw [← held, shape]
    rfl
  · rw [shape]
    exact withdrawTag_free _ s
  · rw [shape]
    exact (withdraws_withdrawTag (context s c).tag s).queues.trans (queuesShrink_of_same rfl rfl)
  · rw [(slotImage_showContext (slot.trans hi) (area ▸ l)).1, held]
    rfl
  · exact (slotKept_of_same (congrArg _ area)).trans (slotKept_showContext (slot.trans hi))
  · rw [shape, area]

theorem queuesShrink_rungOver (c : Nat) (s : State) : QueuesShrink s (rungOver c s) :=
  (queuesShrink_of_same (t := stopRung c s) rfl rfl).trans (queuesShrink_loseMarks c _)

theorem currentMembers_eq_nil {k : Context} (h : ∀ m, k.isCurrent m = false) : k.currentMembers = [] := by
  rw [isCurrent_eq_false] at h
  simpa [Context.currentMembers] using h

/-- The call that has entered HELD at the end of its rung (R42). -/
theorem heldAfterRung_isHeld (paging : (context s c).state = .paging)
    (has : (context s c).rung ≤ (callLadder s (context s c)).effectiveLast) :
    isHeldAfter s (heldAfterRung c s) c := by
  have live : (context s c).live = true := by simp [Context.live, paging]
  obtain ⟨ended, -, ⟨state, windows⟩, nobody, -⟩ := rungOver_spec (P := fun _ => False) c s
  obtain ⟨deadline, turn⟩ := windows live
  have liveR : (context (rungEnded c s) c).live = true := by
    show (context (rungOver c s) c).live = true
    simp [Context.live, state, paging]
  obtain ⟨held, ctx, free, shrink, shows, -, -⟩ := beHeld_spec (P := fun _ => False) liveR
  have ctx : context (beHeld c (rungEnded c s)) c = { context (rungOver c s) c with state := .held } := ctx
  have still : (context (rungEnded c s) c).slot = (context s c).slot := (Context.same_of_bare ended.bare).1.2.1
  have slots : (rungEnded c s).area.slots.length = s.area.slots.length := ended.slots
  have work := (ended.attended { s.attention with event := overdueEvents s c }).trans held
  have shrunk : QueuesShrink s (beHeld c (rungEnded c s)) := (queuesShrink_rungOver c s).trans shrink
  obtain ⟨⟨-, slot, -⟩, ⟨-, -, tag, rung, pass⟩, -⟩ := Context.same_of_bare work.bare
  have e : heldAfterRung c s = raise .callHeld (submit { callRecord .held (context (beHeld c (rungEnded c s)) c) with
      detail1 := packBytes (context (beHeld c (rungEnded c s)) c).rung (context (beHeld c (rungEnded c s)) c).pass }
      (beHeld c (rungEnded c s))) := enterHeld_eq c (rungEnded c s)
  have freeTag : (context (rungEnded c s) c).tag = (context s c).tag := ended.tag
  rw [freeTag] at free
  generalize beHeld c (rungEnded c s) = u at *
  obtain ⟨j, submits⟩ : ∃ j, submit { callRecord .held (context u c) with
      detail1 := packBytes (context u c).rung (context u c).pass } u = { u with journal := j } := ⟨_, submit_shape _ _⟩
  have record := fun room => submit_pending (s := u) room { callRecord .held (context u c) with
    detail1 := packBytes (context u c).rung (context u c).pass }
  have event : ({ s.attention with event := overdueEvents s c } : Attention) = u.attention := work.attention.symm
  rw [submits] at record
  rw [e, submits]
  refine ⟨?_, ?_, ?_, ?_, rung, pass, tag, slot, free, ?_, ?_, fun m => ?_, fun i hi hl => shows i (still.trans hi) (slots ▸ hl),
    fun room => ?_, shrunk, work.others, work.backlog, work.engine, work.tickCount, work.window, work.watch, work.latches⟩
  · show (context u c).state = _
    rw [ctx]
  · show (context u c).deadline = _
    rw [ctx]
    exact deadline
  · show (context u c).turn = _
    rw [ctx]
    exact turn
  · show (context u c).currentMembers = _
    rw [ctx]
    exact currentMembers_eq_nil nobody
  · show (u.attention.event ||| BitVec.twoPow 14 1).getLsbD 1 = true
    simp
  · show (u.attention.event ||| BitVec.twoPow 14 1).getLsbD 3 = true ↔ _
    rw [← event]
    simp only [overdueEvents, has, and_true]
    split <;> simp_all
  · have net := work.net m
    rw [show (context u c).isCurrent m = false by rw [ctx]; exact nobody m] at net
    exact net
  · refine (record (work.logs.hasRoom room)).trans ?_
    rw [work.logs.pending_of_zero, callRecord_of_bare work.bare, rung, pass, work.tickCount]
    rfl

theorem rungEnded_onSlot (i c : Nat) (s : State) : OnSlot i s (rungEnded c s) := by
  obtain ⟨work, -, -, -, area⟩ := rungOver_spec (P := fun _ => False) c s
  exact onSlot_of_same work.agenda area

theorem heldAfterRung_onSlot {i : Nat} (paging : (context s c).state = .paging) (slot : (context s c).slot = some i) :
    OnSlot i s (heldAfterRung c s) := by
  obtain ⟨ended, -, ⟨state, -⟩, -⟩ := rungOver_spec (P := fun _ => False) c s
  have live : (context (rungEnded c s) c).live = true := by
    show (context (rungOver c s) c).live = true
    simp [Context.live, state, paging]
  have still : (context (rungEnded c s) c).slot = some i := (Context.same_of_bare ended.bare).1.2.1.trans slot
  obtain ⟨held, -, -, -, -, kept, area⟩ := beHeld_spec (P := fun _ => False) live
  refine (rungEnded_onSlot i c s).trans (.trans (b := beHeld c (rungEnded c s)) ⟨held.agenda, kept i still, area⟩ ?_)
  show OnSlot i _ (enterHeld c (rungEnded c s))
  rw [enterHeld_eq]
  exact onSlot_of_same (submit_agenda _ _) (submit_area _ _)

end Sys2Proof.Machine

/-! # Proofs: the entry of a MEMBER rung (R29, R31, R36)

What a call that enters a rung holds before the rung's target kind acts, and what the paging of the rung's one member adds. -/

namespace Sys2Proof.Machine

variable {c rung : Nat} {s t : State}

/-! ## Before the target acts -/

/-- A context at the beginning of a rung (R29). -/
def Context.atRung (rung : Nat) (k : Context) : Context :=
  { k with rung := rung, mode := .none, turn := .stopped, turnMember := none, turnCount := 0, turnLength := 0
           firstPosition := 0, breakInRung := false, reloaded := false, madeCurrent := [] }

/-- The state in which a rung's target acts (R29). -/
def rungBegun (c rung : Nat) (s : State) : State :=
  let shown := showContext c (modContext c (Context.atRung rung) s)
  let k := context shown c
  let r := callRung shown k
  let timed := modContext c (fun x => { x with deadline := startWindow shown (classLength shown k r.windowClass) }) shown
  let entered := submit (rungRecord .rungEntered k r) timed
  raiseEscalated (callLadder entered k) rung entered

theorem enterRung_eq (paging : (context s c).state = .paging) : enterRung c rung s =
    (let shown := showContext c (modContext c (Context.atRung rung) s)
     let k := context shown c
     let r := callRung shown k
     actOnTarget c (classLength shown k r.windowClass) r (rungBegun c rung s)) := by
  unfold enterRung
  rw [if_neg (by simp [paging])]
  rfl

theorem raiseEscalated_eq (l : Ladder) (rung : Nat) (s : State) : raiseEscalated l rung s = { s with attention := { s.attention with
    event := s.attention.event ||| (if ∃ p, l.stopRung = some p ∧ p ≤ rung then BitVec.twoPow 14 2 else 0) } } := by
  have : l.stopRung.any (· ≤ rung) = true ↔ ∃ p, l.stopRung = some p ∧ p ≤ rung := by
    cases l.stopRung <;> simp
  unfold raiseEscalated
  by_cases h : ∃ p, l.stopRung = some p ∧ p ≤ rung
  · rw [if_pos (this.2 h), if_pos h]
    rfl
  · rw [if_neg (fun k => h (this.1 k)), if_neg h]
    simp

/-- The slot images once a context at the beginning of a rung is shown in its slot's. -/
def atRungSlots (c rung : Nat) (s : State) : List SlotImage := (showContext c (modContext c (Context.atRung rung) s)).area.slots

theorem showContext_atRung (live : (context s c).live = true) :
    let k := context s c
    showContext c (modContext c (Context.atRung rung) s)
        = { modContext c (Context.atRung rung) s with area := { s.area with slots := atRungSlots c rung s } }
      ∧ (atRungSlots c rung s).length = s.area.slots.length
      ∧ ∀ i, k.slot = some i → SlotKept i s { s with area := { s.area with slots := atRungSlots c rung s } }
        ∧ (i < s.area.slots.length → ((atRungSlots c rung s).getD i (.emptyWith 0 0)).state = k.state.toSlot
          ∧ ((atRungSlots c rung s).getD i (.emptyWith 0 0)).rung = rung
          ∧ ((atRungSlots c rung s).getD i (.emptyWith 0 0)).pass = k.pass) := by
  intro k
  obtain ⟨shape, length⟩ := showContext_shape c (modContext c (Context.atRung rung) s)
  obtain ⟨hc, -⟩ := context_mem (c := c) (.inl live)
  have ctx : context (modContext c (Context.atRung rung) s) c = k.atRung rung := by rw [context_modContext, if_pos hc]
  refine ⟨shape, length, fun i hi => ⟨?_, fun hl => ?_⟩⟩
  · have first : SlotKept i s (modContext c (Context.atRung rung) s) := slotKept_of_same rfl
    have last : SlotKept i (showContext c (modContext c (Context.atRung rung) s))
        { s with area := { s.area with slots := atRungSlots c rung s } } := slotKept_of_same rfl
    exact (first.trans (slotKept_showContext (by rw [ctx]; exact hi))).trans last
  · have image := slotImage_showContext (s := modContext c (Context.atRung rung) s) (c := c) (i := i) (by rw [ctx]; exact hi) hl
    rw [ctx] at image
    exact image

/-- The calls once a rung has begun with its deadline. -/
def onRungCalls (c rung : Nat) (deadline : Window) (s : State) : CallEngine :=
  (modContext c (fun x => { x with deadline := deadline }) (modContext c (Context.atRung rung) s)).calls

theorem rungBegun_eq (live : (context s c).live = true) :
    let k := context s c
    let l := callLadder s k
    let timed : State := { s with
      calls := onRungCalls c rung (startWindow s (classLength s k (l.rung rung).windowClass)) s
      area := { s.area with slots := atRungSlots c rung s } }
    let entered := submit (rungRecord .rungEntered (k.atRung rung) (l.rung rung)) timed
    rungBegun c rung s = { entered with attention := { s.attention with
      event := s.attention.event ||| (if ∃ p, l.stopRung = some p ∧ p ≤ rung then BitVec.twoPow 14 2 else 0) } }
    ∧ enterRung c rung s = if k.state = .paging
      then actOnTarget c (classLength s k (l.rung rung).windowClass) (l.rung rung) (rungBegun c rung s) else (s, []) := by
  intro k l timed entered
  obtain ⟨shape, -⟩ := showContext_atRung (rung := rung) live
  obtain ⟨hc, -⟩ := context_mem (c := c) (.inl live)
  have ctx : context (modContext c (Context.atRung rung) s) c = k.atRung rung := by rw [context_modContext, if_pos hc]
  have shown : context (showContext c (modContext c (Context.atRung rung) s)) c = k.atRung rung := by
    rw [shape]
    exact ctx
  constructor
  · have ladder : callLadder entered (k.atRung rung) = l := by
      show callLadder (submit _ timed) _ = _
      rw [submit_shape]
      rfl
    have attention : entered.attention = s.attention := submit_attention _ timed
    unfold rungBegun
    dsimp only
    rw [shown, shape]
    show raiseEscalated (callLadder entered (k.atRung rung)) rung entered = _
    rw [ladder, raiseEscalated_eq, attention]
  · split
    · rename_i paging
      rw [enterRung_eq paging]
      dsimp only
      rw [shown, shape]
      rfl
    · rename_i other
      unfold enterRung
      rw [if_pos other]

/-- What the begun rung leaves of everything else. -/
theorem rungBegun_spec (live : (context s c).live = true) :
    let k := context s c
    let l := callLadder s k
    let u := rungBegun c rung s
    ∃ j, u = { s with
        calls := onRungCalls c rung (startWindow s (classLength s k (l.rung rung).windowClass)) s
        area := { s.area with slots := atRungSlots c rung s }
        attention := { s.attention with
          event := s.attention.event ||| (if ∃ p, l.stopRung = some p ∧ p ≤ rung then BitVec.twoPow 14 2 else 0) }
        journal := j }
      ∧ context u c = { k.atRung rung with deadline := startWindow s (classLength s k (l.rung rung).windowClass) }
      ∧ (∀ d, d ≠ c → context u d = context s d) ∧ u.calls.contexts.length = s.calls.contexts.length
      ∧ Logs 1 s u
      ∧ (hasRoom s 1 → j.pending = s.journal.pending ++ [{ callRecord .rungEntered k with
        tick := s.tickCount, detail1 := packBytes rung k.pass
        detail2 := packTarget (l.rung rung).kind (l.rung rung).number }]) := by
  intro k l u
  obtain ⟨e, -⟩ := rungBegun_eq (rung := rung) live
  obtain ⟨hc, -⟩ := context_mem (c := c) (.inl live)
  have hc' : c < (modContext c (Context.atRung rung) s).calls.contexts.length := by
    show c < (s.calls.contexts.modify c _).length
    rwa [List.length_modify]
  let w := startWindow s (classLength s k (l.rung rung).windowClass)
  let timed : State := { s with calls := onRungCalls c rung w s, area := { s.area with slots := atRungSlots c rung s } }
  let r := rungRecord .rungEntered (k.atRung rung) (l.rung rung)
  have logs := logs_submit r timed
  have record := fun room => submit_pending (s := timed) room r
  have e : u = { submit r timed with attention := { s.attention with
    event := s.attention.event ||| (if ∃ p, l.stopRung = some p ∧ p ≤ rung then BitVec.twoPow 14 2 else 0) } } := e
  rw [submit_shape] at e
  have calls : u.calls = (modContext c (fun x => { x with deadline := w }) (modContext c (Context.atRung rung) s)).calls := by
    rw [e]
    rfl
  refine ⟨(submit r timed).journal, e, ?_, fun d hd => ?_, ?_, ?_, ?_⟩
  · rw [context_of_calls calls, context_modContext, if_pos hc', context_modContext, if_pos hc]
  · rw [context_of_calls calls, context_modContext_ne hd, context_modContext_ne hd]
  · rw [calls]
    show ((s.calls.contexts.modify c _).modify c _).length = _
    rw [List.length_modify, List.length_modify]
  · obtain ⟨state, -, since⟩ := logs
    rw [e]
    exact ⟨state, rfl, since⟩
  · exact record

/-! ## The paging of one member -/

theorem Context.unlisted_addContact (e : Contact) (k : Context) : (k.addContact e).unlisted = k.unlisted := by
  unfold Context.addContact
  split
  · rfl
  · split <;> rfl

theorem Context.unlisted_ensureContact (m : Nat) (k : Context) : (k.ensureContact m).unlisted = k.unlisted := by
  unfold Context.ensureContact
  split
  · rfl
  · exact Context.unlisted_addContact _ k

/-- To be made current changes the contacted list, and the list of those the rung has made current (R31). -/
theorem Context.unlisted_markCurrent (m : Nat) (b : Bool) (k : Context) :
    (k.markCurrent m b).unlisted = { k.unlisted with madeCurrent := k.madeCurrent ++ [m] } := by
  have e := Context.unlisted_ensureContact m k
  have made : (k.ensureContact m).madeCurrent = k.madeCurrent := (congrArg Context.madeCurrent e :)
  show ({ (k.ensureContact m).unlisted with madeCurrent := (k.ensureContact m).madeCurrent ++ [m] } : Context) = _
  rw [e, made]

/-- What a call that has entered a MEMBER rung and paged its member holds, the rung's state before it taken as it was (R29, R31, R36). -/
def PagesMember (s t : State) (c rung : Nat) : Prop :=
  let k := context s c
  let l := callLadder s k
  let m := (l.rung rung).number
  let d := classLength s k (l.rung rung).windowClass
  let u := context t c
  u.state = .paging ∧ u.rung = rung ∧ u.pass = k.pass ∧ u.tag = k.tag ∧ u.slot = k.slot ∧ u.mode = .member ∧ u.turn = .stopped
    ∧ u.deadline = (if s.engine = .paused then .frozen d else .running (s.tickCount + BitVec.ofNat 32 d))
    ∧ (∀ x, u.isCurrent x = true ↔ x = m) ∧ u.madeCurrent = [m]
    ∧ (s.dispatcher.ok → (deliveryOf t { tag := k.tag, member := m, kind := .page }).isSome = true)
    ∧ (∀ x, x < s.roster.members.length →
      (member t x).paged = (member s x).paged - (if k.isCurrent x then 1 else 0) + (if x = m then 1 else 0))
    ∧ (∀ i, k.slot = some i → i < s.area.slots.length →
      (slotImage t i).state = .paging ∧ (slotImage t i).rung = rung ∧ (slotImage t i).pass = k.pass)
    ∧ (hasRoom s 1 → m < 4096 → ∃ rest, t.journal.pending = s.journal.pending ++ { callRecord .rungEntered k with
      tick := s.tickCount, detail1 := rung * 256 + k.pass, detail2 := 3 * 4096 + m } :: rest)
    ∧ t.attention = { s.attention with
      event := s.attention.event ||| (if ∃ p, l.stopRung = some p ∧ p ≤ rung then BitVec.twoPow 14 2 else 0) }
    ∧ (∀ d, d ≠ c → context t d = context s d) ∧ t.calls.backlog = s.calls.backlog
    ∧ t.engine = s.engine ∧ t.tickCount = s.tickCount ∧ t.window = s.window ∧ t.watch = s.watch ∧ t.latches = s.latches

/-- The member of a rung becomes the only one current, by a page that is no break-in (R31, R66). -/
def pageMember (c m : Nat) (s : State) : State :=
  handOver .page c m false (modContext c (Context.markCurrent m false) (stepPaged m s))

theorem makeCurrent_eq {m : Nat} (live : (context s c).live = true) (free : (member s m).engaged = none)
    (new : (context s c).isCurrent m = false) : makeCurrent c m s = pageMember c m s := by
  unfold makeCurrent
  rw [if_neg (by simp [live]), if_neg (by simp [new]), free]
  rfl

theorem paged_stepPaged (m x : Nat) (s : State) (h : x < s.roster.members.length) :
    (member (stepPaged m s) x).paged = (member s x).paged + (if x = m then 1 else 0) := by
  unfold stepPaged
  rw [member_modMember]
  by_cases e : x = m
  · subst e
    rw [if_pos ⟨rfl, h⟩, Member.change_eq]
    simp
  · rw [if_neg fun k => e k.1, if_neg e]
    rfl

theorem pageMember_spec {m : Nat} (live : (context s c).live = true) :
    let t := pageMember c m s
    Mail (modContext c (Context.markCurrent m false) (stepPaged m s)) t
      ∧ context t c = (context s c).markCurrent m false ∧ (∀ d, d ≠ c → context t d = context s d)
      ∧ (∀ x, x < s.roster.members.length → (member t x).paged = (member s x).paged + (if x = m then 1 else 0))
      ∧ (∃ n, Logs n s t)
      ∧ (s.dispatcher.ok → (deliveryOf t { tag := (context s c).tag, member := m, kind := .page }).isSome = true) := by
  intro t
  let u := modContext c (Context.markCurrent m false) (stepPaged m s)
  have mail : Mail u t := mail_handOver (.refl u) .page c m false
  obtain ⟨hc, -⟩ := context_mem (c := c) (.inl live)
  have ctx : context u c = (context s c).markCurrent m false := by
    exact (context_modContext c _ (stepPaged m s)).trans (if_pos hc)
  have tag : (context u c).tag = (context s c).tag := by
    have := Context.unlisted_markCurrent m false (context s c)
    rw [ctx]
    exact (congrArg Context.tag this :)
  obtain ⟨n, logs⟩ := logs_handOver .page c m false u
  refine ⟨mail, (mail.context c).trans ctx, fun d hd => ?_, fun x hx => ?_, ⟨_, Logs.trans (n := 0) (.of_same rfl rfl) logs⟩, fun ok => ?_⟩
  · exact (mail.context d).trans (context_modContext_ne hd _ (stepPaged m s))
  · rw [mail.member]
    exact paged_stepPaged m x s hx
  · rw [← tag]
    exact deliveryOf_handOver .page c m false (s := u) ok

/-- The state in which a MEMBER rung pages its member (R36). -/
def memberRung (c rung : Nat) (s : State) : State := modContext c (fun k => { k with mode := .member }) (rungBegun c rung s)

theorem memberRung_spec (live : (context s c).live = true) :
    let k := context s c
    let l := callLadder s k
    let u := memberRung c rung s
    ∃ calls j, u = { s with
        calls := calls
        area := { s.area with slots := atRungSlots c rung s }
        attention := { s.attention with
          event := s.attention.event ||| (if ∃ p, l.stopRung = some p ∧ p ≤ rung then BitVec.twoPow 14 2 else 0) }
        journal := j }
      ∧ context u c = { k.atRung rung with
        deadline := startWindow s (classLength s k (l.rung rung).windowClass), mode := .member }
      ∧ (∀ d, d ≠ c → context u d = context s d) ∧ calls.backlog = s.calls.backlog
      ∧ (hasRoom s 1 → u.journal.pending = s.journal.pending ++ [{ callRecord .rungEntered k with
        tick := s.tickCount, detail1 := packBytes rung k.pass
        detail2 := packTarget (l.rung rung).kind (l.rung rung).number }]) := by
  intro k l u
  obtain ⟨j, shape, ctx, others, length, -, record⟩ := rungBegun_spec (rung := rung) live
  obtain ⟨hc, -⟩ := context_mem (c := c) (.inl live)
  refine ⟨u.calls, j, ?_, ?_, fun d hd => ?_, ?_, fun room => ?_⟩
  · have same : u = { rungBegun c rung s with calls := u.calls } := rfl
    refine same.trans ?_
    generalize u.calls = calls
    rw [shape]
  · refine (context_modContext c _ (rungBegun c rung s)).trans ((if_pos (by rw [length]; exact hc)).trans ?_)
    rw [ctx]
  · exact (context_modContext_ne hd _ _).trans (others d hd)
  · show (rungBegun c rung s).calls.backlog = _
    rw [shape]
    rfl
  · show (rungBegun c rung s).journal.pending = _
    rw [shape]
    exact record room

/-- The call may page the member of the rung that begins. -/
theorem eligible_rungBegun (live : (context s c).live = true) {r : Rung} (may : mayPage s r) (unmarked : isUnmarked (context s c) r) :
    (r.number < (rungBegun c rung s).roster.tables.roster.length && eligible (rungBegun c rung s) c r.number) = true := by
  obtain ⟨-, number, duty, free⟩ := may
  obtain ⟨j, shape, ctx, -⟩ := rungBegun_spec (rung := rung) live
  unfold eligible
  rw [ctx, shape]
  simp only [Bool.and_eq_true]
  refine ⟨decide_eq_true number, ⟨duty, ?_⟩, ?_⟩
  · show (member s _).engaged.isNone = true
    rw [free]
    rfl
  · show ((context s c).contact _).all _ = true
    cases h : (context s c).contact r.number with
    | none => rfl
    | some x => simp [unmarked x h]

/-- The entry of a MEMBER rung whose member may be paged, nobody being current, pages that member (R29, R30, R36). -/
theorem enterRung_member (paging : (context s c).state = .paging) (nobody : ∀ m, (context s c).isCurrent m = false)
    (may : mayPage s ((callLadder s (context s c)).rung rung))
    (unmarked : isUnmarked (context s c) ((callLadder s (context s c)).rung rung)) :
    enterRung c rung s = (pageMember c ((callLadder s (context s c)).rung rung).number (memberRung c rung s), []) := by
  have live : (context s c).live = true := by simp [Context.live, paging]
  obtain ⟨-, e⟩ := rungBegun_eq (rung := rung) live
  have eligible := eligible_rungBegun (rung := rung) live may unmarked
  obtain ⟨kind, -, -, free⟩ := may
  obtain ⟨calls, j, shape, ctx, -⟩ := memberRung_spec (rung := rung) live
  generalize (callLadder s (context s c)).rung rung = r at *
  rw [e, if_pos paging]
  unfold actOnTarget
  rw [kind]
  show enterMember c r _ = _
  unfold enterMember
  rw [if_pos eligible]
  refine congrArg (·, []) (makeCurrent_eq ?_ ?_ ?_)
  · exact (congrArg Context.live ctx).trans live
  · show (member (memberRung c rung s) r.number).engaged = none
    rw [shape]
    exact free
  · exact (congrArg (Context.isCurrent · r.number) ctx).trans (nobody r.number)

/-- The context of a member rung that has paged its member. -/
theorem pageMember_context {m : Nat} (live : (context s c).live = true) {u : State} {w : Window}
    (ctx : context u c = { (context s c).atRung rung with deadline := w, mode := .member }) :
    let k := context s c
    let v := context (pageMember c m u) c
    v.state = k.state ∧ v.rung = rung ∧ v.pass = k.pass ∧ v.tag = k.tag ∧ v.slot = k.slot ∧ v.mode = .member ∧ v.turn = .stopped
      ∧ v.deadline = w ∧ (∀ x, v.isCurrent x = if x = m then true else k.isCurrent x) ∧ v.madeCurrent = [m] := by
  intro k
  obtain ⟨-, marked, -⟩ := pageMember_spec (c := c) (m := m) (s := u) ((congrArg Context.live ctx).trans live)
  have fields := Context.unlisted_markCurrent m false (context u c)
  rw [← marked, ctx] at fields
  have current (x : Nat) : (context (pageMember c m u) c).isCurrent x = if x = m then true else k.isCurrent x := by
    rw [marked, isCurrent_markCurrent, ctx]
    rfl
  clear marked
  generalize context (pageMember c m u) c = v at fields current ⊢
  refine ⟨(congrArg Context.state fields :), (congrArg Context.rung fields :), (congrArg Context.pass fields :),
    (congrArg Context.tag fields :), (congrArg Context.slot fields :), (congrArg Context.mode fields :),
    (congrArg Context.turn fields :), (congrArg Context.deadline fields :), current, (congrArg Context.madeCurrent fields :)⟩

/-- What the paging on a member rung leaves of the rest of the state. -/
theorem pageMember_frame (live : (context s c).live = true) (m : Nat) :
    let k := context s c
    let t := pageMember c m (memberRung c rung s)
    t.attention = { s.attention with event := s.attention.event
        ||| (if ∃ p, (callLadder s k).stopRung = some p ∧ p ≤ rung then BitVec.twoPow 14 2 else 0) }
      ∧ t.area = { s.area with slots := atRungSlots c rung s }
      ∧ (∀ d, d ≠ c → context t d = context s d) ∧ t.calls.backlog = s.calls.backlog
      ∧ t.engine = s.engine ∧ t.tickCount = s.tickCount ∧ t.window = s.window ∧ t.watch = s.watch ∧ t.latches = s.latches
      ∧ t.agenda = s.agenda := by
  intro k
  obtain ⟨calls, j, shape, ctx, others, backlog, -⟩ := memberRung_spec (rung := rung) live
  generalize memberRung c rung s = u at *
  obtain ⟨mail, -, rest, -⟩ := pageMember_spec (c := c) (m := m) (s := u) ((congrArg Context.live ctx).trans live)
  subst shape
  exact ⟨mail.attention, mail.area, fun d hd => (rest d hd).trans (others d hd), (congrArg CallEngine.backlog mail.calls).trans backlog,
    mail.engine, mail.tickCount, mail.window, mail.watch, mail.latches,
    mail.agenda⟩

/-- The paged counts, the delivery record and the journal after the paging on a member rung (R66, R83, R165). -/
theorem pageMember_results (live : (context s c).live = true) (m : Nat) :
    let k := context s c
    let r := (callLadder s k).rung rung
    let t := pageMember c m (memberRung c rung s)
    (∀ x, x < s.roster.members.length → (member t x).paged = (member s x).paged + (if x = m then 1 else 0))
      ∧ (s.dispatcher.ok → (deliveryOf t { tag := k.tag, member := m, kind := .page }).isSome = true)
      ∧ (hasRoom s 1 → ∃ rest, t.journal.pending = s.journal.pending ++ { callRecord .rungEntered k with
        tick := s.tickCount, detail1 := packBytes rung k.pass, detail2 := packTarget r.kind r.number } :: rest) := by
  intro k r t
  obtain ⟨calls, j, shape, ctx, -, -, record⟩ := memberRung_spec (rung := rung) live
  obtain ⟨-, -, -, paged, ⟨n, since⟩, delivery⟩ :=
    pageMember_spec (c := c) (m := m) (s := memberRung c rung s) ((congrArg Context.live ctx).trans live)
  have roster : (memberRung c rung s).roster = s.roster := by rw [shape]
  have dispatcher : (memberRung c rung s).dispatcher = s.dispatcher := by rw [shape]
  have tag : (context (memberRung c rung s) c).tag = k.tag := (congrArg Context.tag ctx :)
  refine ⟨fun x hx => ?_, fun ok => ?_, fun room => ?_⟩
  · have same : (member (memberRung c rung s) x).paged = (member s x).paged := by
      unfold member
      rw [roster]
    rw [← same]
    exact paged x (by rw [roster]; exact hx)
  · rw [← tag]
    exact delivery (by rw [dispatcher]; exact ok)
  · obtain ⟨-, -, since, e, -⟩ := since
    refine ⟨since, ?_⟩
    rw [e, record room, List.append_assoc]
    rfl

/-- What the entry of a MEMBER rung leaves, where its member may be paged and nobody is current (R29, R30, R36). -/
theorem enterRung_pages (paging : (context s c).state = .paging) (nobody : ∀ m, (context s c).isCurrent m = false)
    (may : mayPage s ((callLadder s (context s c)).rung rung)) :
    PagesMember s (pageMember c ((callLadder s (context s c)).rung rung).number (memberRung c rung s)) c rung := by
  have live : (context s c).live = true := by simp [Context.live, paging]
  obtain ⟨calls, j, -, ctx, -⟩ := memberRung_spec (rung := rung) live
  obtain ⟨-, -, shown⟩ := showContext_atRung (rung := rung) live
  obtain ⟨kind, -⟩ := may
  obtain ⟨state, at', pass, tag, slot, mode, turn, deadline, current, made⟩ :=
    pageMember_context (m := ((callLadder s (context s c)).rung rung).number) live ctx
  obtain ⟨attention, area, others, backlog, engine, tick, window, watch, latches, -⟩ :=
    pageMember_frame (rung := rung) live ((callLadder s (context s c)).rung rung).number
  obtain ⟨paged, delivery, record⟩ := pageMember_results (rung := rung) live ((callLadder s (context s c)).rung rung).number
  generalize pageMember c ((callLadder s (context s c)).rung rung).number (memberRung c rung s) = t at *
  unfold PagesMember
  intro k l m d u
  have images : ∀ i, k.slot = some i → i < s.area.slots.length →
      (slotImage t i).state = .paging ∧ (slotImage t i).rung = rung ∧ (slotImage t i).pass = k.pass := by
    intro i hi hl
    obtain ⟨-, image⟩ := shown i hi
    rw [paging] at image
    unfold slotImage
    rw [area]
    exact image hl
  refine ⟨state.trans paging, at', pass, tag, slot, mode, turn, deadline, fun x => ?_, made, delivery, fun x hx => ?_, images,
    fun room narrow => ?_, attention, others, backlog, engine, tick, window, watch, latches⟩
  · rw [current x, nobody x]
    show (if x = m then true else false) = true ↔ x = m
    by_cases e : x = m <;> simp [e]
  · rw [paged x hx, show k.isCurrent x = false from nobody x]
    rfl
  · have packed : packTarget (l.rung rung).kind (l.rung rung).number = 3 * 4096 + m := by
      rw [show (l.rung rung).kind = 3 from kind, packTarget, if_pos (by decide : 3 < 16), if_pos narrow]
    obtain ⟨rest, e⟩ := record room
    rw [packed] at e
    exact ⟨rest, e⟩

theorem pageMember_onSlot {i : Nat} (live : (context s c).live = true) (slot : (context s c).slot = some i) (m : Nat) :
    OnSlot i s (pageMember c m (memberRung c rung s)) := by
  obtain ⟨-, area, -, -, -, -, -, -, -, agenda⟩ := pageMember_frame (rung := rung) live m
  obtain ⟨-, -, shown⟩ := showContext_atRung (rung := rung) live
  refine ⟨agenda, ?_, by rw [area]⟩
  exact (shown i slot).1.trans (slotKept_of_same (by rw [area]))

end Sys2Proof.Machine

/-! # Proofs: a call that moves on (R16, R17, R40, R41)

A run of tasks is told by the state that it reaches, whatever tasks wait behind it. With that: the unanswered end of a rung, through
the next rung or the next pass, or to the end of the call. -/

namespace Sys2Proof.Machine

variable {P : AirEntry → Prop} {n c i : Nat} {s t : State}

/-! ## Runs of tasks -/

/-- From `s` the tasks are done after `k` of them, and leave `t`, whatever waits behind them. -/
def RunsTo (k : Nat) (ts : List Task) (s t : State) : Prop :=
  ∀ n rest, run (n + k) (ts ++ rest) s = run n rest t

theorem RunsTo.nil (s : State) : RunsTo 0 [] s s := fun _ _ => rfl

theorem RunsTo.cons {k : Nat} {x : Task} {ts : List Task} {u : State} (h : RunsTo k ((perform x s).2 ++ ts) (perform x s).1 u) :
    RunsTo (k + 1) (x :: ts) s u := fun n rest => by
  rw [← Nat.add_assoc, List.cons_append, run_cons, ← List.append_assoc]
  exact h n rest

/-- A task whose outcome is known, done first. -/
theorem RunsTo.step {k : Nat} {x : Task} {ts us : List Task} {v u : State} (e : perform x s = (v, us))
    (h : RunsTo k (us ++ ts) v u) : RunsTo (k + 1) (x :: ts) s u := .cons (by rw [e]; exact h)

/-- An event whose tasks are done is closed in the state that they leave. -/
theorem finish_runs {k : Nat} {ts rest : List Task} {s t : State} (agenda : s.agenda = []) (h : RunsTo k ts s t)
    (few : k ≤ Config.workLimit) : finish (s, ts ++ rest) = closeEvent (run (Config.workLimit - k) rest t) := by
  simp only [finish, agenda, List.nil_append, agenda_nil s agenda]
  rw [← h (Config.workLimit - k) rest, Nat.sub_add_cancel few]

/-- With nobody waiting, nobody is admitted (R12). -/
theorem admitHeads_nil (h : s.calls.backlog = []) : admitHeads s = (s, []) := by
  unfold admitHeads
  rw [h]
  split
  · rename_i e _
    cases e
  · rfl

/-- The end of a call with nobody waiting is the call's end alone (R12, R20). -/
theorem runsTo_endCall {st : SlotState} {reason : Reason} (live : (context s c).live = true)
    (nobody : (finishCall c st reason s).calls.backlog = []) :
    RunsTo 2 [.endCall c st reason] s (finishCall c st reason s) := by
  refine .step (v := finishCall c st reason s) (us := [.admitHeads]) (if_pos live) ?_
  exact .step (admitHeads_nil nobody) (.nil _)

/-! ## Past the last rung -/

/-- A context at the beginning of the next pass (R41). -/
def Context.nextPass (k : Context) : Context :=
  { k with state := .paging, pass := k.pass + 1
           contacted := k.contacted.map fun e => { e with declined := false, unreached := false } }

theorem pastLast_eq (c : Nat) (s : State) : (repeatsOnce (callLadder s (context s c)) (context s c) →
      pastLast c s = (modContext c Context.nextPass s, [.enterRung c 0]))
    ∧ (¬repeatsOnce (callLadder s (context s c)) (context s c) → pastLast c s = (s, [.endCall c .exhausted .ladderExhausted])) := by
  unfold pastLast repeatsOnce
  dsimp only
  refine ⟨fun h => if_pos (by simpa using h), fun h => if_neg (by simpa using h)⟩

/-- A change of a context beside one of the state the work began in. -/
theorem CallWork.modContext {f g : Context → Context} (h : CallWork P n c s t)
    (bare : ∀ k l, l.bare = k.bare → (f l).bare = (g k).bare) (curF : ∀ k m, (f k).isCurrent m = k.isCurrent m)
    (curG : ∀ k m, (g k).isCurrent m = k.isCurrent m) :
    CallWork P n c (Machine.modContext c g s) (Machine.modContext c f t) :=
  { h with
    length := by
      show (t.calls.contexts.modify c f).length = (s.calls.contexts.modify c g).length
      rw [List.length_modify, List.length_modify, h.length]
    others := fun d hd => by rw [context_modContext_ne hd, context_modContext_ne hd, h.others d hd]
    bare := by
      rw [context_modContext, context_modContext, h.length]
      split
      · exact bare _ _ h.bare
      · exact h.bare
    net := fun m => by
      have kept {f : Context → Context} (cur : ∀ k m, (f k).isCurrent m = k.isCurrent m) (s : State) :
          (context (Machine.modContext c f s) c).isCurrent m = (context s c).isCurrent m := by
        rw [context_modContext]
        split <;> [exact cur _ m; rfl]
      rw [kept curF, kept curG]
      exact h.net m }

theorem Context.isCurrent_nextPass (k : Context) (m : Nat) : k.nextPass.isCurrent m = k.isCurrent m :=
  Context.isCurrent_map (f := fun e => { e with declined := false, unreached := false }) rfl (fun _ => ⟨rfl, rfl⟩) m

/-! ## Paging after other work on the call -/

/-- Who may be paged is told by the marks of the contacted list. -/
theorem isUnmarked_congr {k l : Context} (h : l.marks = k.marks) {r : Rung} (u : isUnmarked k r) : isUnmarked l r := by
  have told (k : Context) : (k.contact r.number).map (fun e => (e.member, e.declined, e.unreached, e.cancelled))
      = k.marks.find? (fun x => x.1 == r.number) := by
    simp only [Context.contact, Context.marks, List.find?_map]
    rfl
  intro e he
  have := told l
  rw [h, ← told k, he] at this
  obtain ⟨x, hx, q⟩ := Option.map_eq_some_iff.1 this.symm
  obtain ⟨declined, unreached⟩ := u x hx
  simp only [Prod.mk.injEq] at q
  obtain ⟨-, d, n, -⟩ := q
  exact ⟨d.symm.trans declined, n.symm.trans unreached⟩

theorem classLength_after {u : State} (w : CallWork P n c u s) (x : Nat) :
    classLength s (context s c) x = classLength u (context u c) x := by
  obtain ⟨⟨-, -, -, zone, -⟩, ⟨severity, -⟩, -⟩ := Context.same_of_bare w.bare
  unfold classLength reachPercent
  rw [w.settings, w.tables, zone, severity]

/-- What the entry of a MEMBER rung leaves is the same of the state before other work on the call, in which nobody stayed current. -/
theorem PagesMember.after {u : State} {rung : Nat} (w : CallWork (fun _ => False) 0 c u s)
    (nobody : ∀ m, (context s c).isCurrent m = false) (records : u.dispatcher.ok → s.dispatcher.ok) (h : PagesMember s t c rung) :
    PagesMember u t c rung := by
  obtain ⟨⟨-, sameSlot, -⟩, ⟨-, -, sameTag, -, samePass⟩, -⟩ := Context.same_of_bare w.bare
  unfold PagesMember at h ⊢
  dsimp only at h ⊢
  rw [w.ladder, classLength_after w, w.engine, w.tickCount, w.members, w.slots, w.attention, w.backlog, w.window, w.watch, w.latches,
    sameSlot, sameTag, samePass, callRecord_of_bare w.bare, w.logs.pending_of_zero] at h
  obtain ⟨state, at', pass, tag, slot, mode, turn, deadline, current, made, delivery, paged, images, record, attention, others, rest⟩ := h
  refine ⟨state, at', pass, tag, slot, mode, turn, deadline, current, made, fun ok => delivery (records ok), fun x hx => ?_, images,
    fun room => record (w.logs.hasRoom (by simpa using room)), attention, fun d hd => (others d hd).trans (w.others d hd), rest⟩
  have net := w.net x
  have now := paged x hx
  rw [nobody x] at net now
  rw [now, ← net]

/-! ## The unanswered end of a rung that comes to rest at once -/

/-- The state from which a call goes on after the unanswered end of its rung: the causes latched by then raised. -/
theorem rungEnded_work (c : Nat) (s : State) :
    CallWork P 0 c { s with attention := { s.attention with event := overdueEvents s c } } (rungEnded c s) :=
  (rungOver_spec c s).1.attended _

theorem rungEnded_context (c : Nat) (s : State) : (context (rungEnded c s) c).marks = (context s c).marks
    ∧ (context (rungEnded c s) c).state = (context s c).state ∧ ∀ m, (context (rungEnded c s) c).isCurrent m = false := by
  obtain ⟨-, marks, ⟨state, -⟩, nobody, -⟩ := rungOver_spec (P := fun _ => False) c s
  exact ⟨marks, state, nobody⟩

theorem rungEnded_records (c : Nat) (ok : s.dispatcher.ok) : (rungEnded c s).dispatcher.ok :=
  (quiet_loseMarks (quiet_stopRung (.refl s) c) c).records ok

theorem mayPage_after {u : State} (w : CallWork P n c u s) {r : Rung} (h : mayPage u r) : mayPage s r := by
  obtain ⟨kind, number, duty, free⟩ := h
  refine ⟨kind, ?_, ?_, (w.engaged _).trans free⟩
  · rw [w.tables]; exact number
  · rw [w.tables]; exact duty

/-- A call moves on from its rung to the next one, and pages its member (R29, R40). -/
theorem runsTo_nextRung (paging : (context s c).state = .paging) (slot : (context s c).slot = some i) (more : ¬holdsAtEnd s c)
    (next : (context s c).rung < (callLadder s (context s c)).effectiveLast)
    (may : mayPage s ((callLadder s (context s c)).rung ((context s c).rung + 1)))
    (unmarked : isUnmarked (context s c) ((callLadder s (context s c)).rung ((context s c).rung + 1))) :
    ∃ k t, k ≤ 10 ∧ RunsTo k [.endRung c] s t ∧ isMovedOnAfter s t c ∧ OnSlot i s t := by
  have work := rungEnded_work (P := fun _ => False) c s
  obtain ⟨marks, state, nobody⟩ := rungEnded_context c s
  have ladder : callLadder (rungEnded c s) (context (rungEnded c s) c) = callLadder s (context s c) := work.ladder
  have pagingR := state.trans paging
  have live : (context (rungEnded c s) c).live = true := by simp [Context.live, pagingR]
  have slotR : (context (rungEnded c s) c).slot = some i := (Context.same_of_bare work.bare).1.2.1.trans slot
  have ends : perform (.endRung c) s = (rungEnded c s, [.enterRung c ((context s c).rung + 1)]) := by
    show endRung c s = _
    rw [endRung_eq paging, if_neg (by simpa [Ladder.has] using more), if_pos next]
  have mayR := mayPage_after work may
  have unmarkedR := isUnmarked_congr marks unmarked
  rw [← ladder] at mayR unmarkedR
  have enters := enterRung_member pagingR nobody mayR unmarkedR
  have pages := (enterRung_pages pagingR nobody mayR).after work nobody
    (rungEnded_records (s := s) c)
  refine ⟨2, _, by decide, .step ends (.step enters (.nil _)), ⟨fun _ _ _ => pages, fun h => ?_, fun h => ?_⟩,
    (rungEnded_onSlot i c s).trans (pageMember_onSlot live slotR _)⟩
  · exact absurd h (by omega)
  · exact absurd h (by omega)

/-- A context in which one more pass is counted. -/
def Context.countPass (k : Context) : Context := { k with pass := k.pass + 1 }

/-- A call goes on to the next pass of its ladder, and pages the member of rung 0 (R29, R41). -/
theorem runsTo_nextPass (paging : (context s c).state = .paging) (slot : (context s c).slot = some i) (more : ¬holdsAtEnd s c)
    (last : (callLadder s (context s c)).effectiveLast ≤ (context s c).rung)
    (again : repeatsOnce (callLadder s (context s c)) (context s c)) (may : mayPage s ((callLadder s (context s c)).rung 0)) :
    ∃ k t, k ≤ 10 ∧ RunsTo k [.endRung c] s t ∧ isMovedOnAfter s t c ∧ OnSlot i s t := by
  have work := rungEnded_work (P := fun _ => False) c s
  obtain ⟨-, state, nobody⟩ := rungEnded_context c s
  have pass : (context (rungEnded c s) c).pass = (context s c).pass := (Context.same_of_bare work.bare).2.1.2.2.2.2
  have live : (context s c).live = true := by simp [Context.live, paging]
  have liveR : (context (rungEnded c s) c).live = true := by simp [Context.live, state, paging]
  have ends : perform (.endRung c) s = (rungEnded c s, [.pastLast c]) := by
    show endRung c s = _
    rw [endRung_eq paging, if_neg (by simpa [Ladder.has] using more), if_neg (by omega)]
  let next := modContext c Context.nextPass (rungEnded c s)
  have past : perform (.pastLast c) (rungEnded c s) = (next, [.enterRung c 0]) := by
    refine (pastLast_eq c _).1 ?_
    rw [show callLadder (rungEnded c s) (context (rungEnded c s) c) = _ from work.ladder]
    exact ⟨again.1, pass ▸ again.2⟩
  obtain ⟨hc, -⟩ := context_mem (c := c) (.inl liveR)
  have ctx : context next c = (context (rungEnded c s) c).nextPass := (context_modContext c _ _).trans (if_pos hc)
  have counted : CallWork (fun _ => False) 0 c
      (modContext c Context.countPass { s with attention := { s.attention with event := overdueEvents s c } }) next := by
    refine work.modContext (fun k l h => ?_) Context.isCurrent_nextPass (fun _ _ => rfl)
    show { l.bare with pass := l.bare.pass + 1 } = { k.bare with pass := k.bare.pass + 1 }
    rw [h]
  have ladder : callLadder next (context next c) = callLadder s (context s c) := by
    rw [ctx]
    exact work.ladder
  have pagingN : (context next c).state = .paging := by rw [ctx]; rfl
  have nobodyN (m : Nat) : (context next c).isCurrent m = false := by
    rw [ctx, Context.isCurrent_nextPass]
    exact nobody m
  have mayN := mayPage_after counted (r := (callLadder s (context s c)).rung 0) may
  have unmarked : isUnmarked (context next c) ((callLadder s (context s c)).rung 0) := by
    intro e he
    rw [ctx] at he
    obtain ⟨x, -, rfl⟩ := List.mem_map.1 (List.mem_of_find?_eq_some he)
    exact ⟨rfl, rfl⟩
  rw [← ladder] at mayN unmarked
  have enters := enterRung_member pagingN nobodyN mayN unmarked
  have pages := (enterRung_pages pagingN nobodyN mayN).after counted nobodyN (rungEnded_records (s := s) c)
  have onSlot : OnSlot i s next := (rungEnded_onSlot i c s).trans (onSlot_of_same rfl rfl)
  have slotN : (context next c).slot = some i := by
    rw [ctx]
    exact (Context.same_of_bare work.bare).1.2.1.trans slot
  have liveN : (context next c).live = true := by simp [Context.live, pagingN]
  refine ⟨3, _, by decide, .step ends (.step past (.step enters (.nil _))), ⟨fun h => ?_, fun _ _ _ => ?_, fun _ h => absurd again h⟩,
    onSlot.trans (pageMember_onSlot liveN slotN _)⟩
  · exact absurd h (by omega)
  · generalize pageMember c ((callLadder next (context next c)).rung 0).number (memberRung c 0 next) = t at pages
    obtain ⟨hs, -⟩ := context_mem (c := c) (.inl live)
    have origin : context (modContext c Context.countPass { s with attention := { s.attention with event := overdueEvents s c } }) c
        = (context s c).countPass := (context_modContext c _ _).trans (if_pos hs)
    unfold PagesMember at pages
    rw [origin] at pages
    obtain ⟨state, at', pass, tag, slot, mode, turn, deadline, current, made, delivery, paged, images, record, attention, others,
      rest⟩ := pages
    exact ⟨state, at', pass, tag, slot, mode, turn, deadline, current, made, delivery, paged, images, record, attention,
      fun d hd => (others d hd).trans (context_modContext_ne hd _ _), rest⟩

/-- A call whose ladder has run out ends EXHAUSTED, with nobody to be admitted in its place (R12, R41). -/
theorem runsTo_exhausted (paging : (context s c).state = .paging) (slot : (context s c).slot = some i) (more : ¬holdsAtEnd s c)
    (last : (callLadder s (context s c)).effectiveLast ≤ (context s c).rung)
    (done : ¬repeatsOnce (callLadder s (context s c)) (context s c)) (nobody : s.calls.backlog = []) :
    ∃ k t, k ≤ 10 ∧ RunsTo k [.endRung c] s t ∧ isMovedOnAfter s t c ∧ OnSlot i s t := by
  have work := rungEnded_work (P := fun _ => False) c s
  obtain ⟨marks, state, -⟩ := rungEnded_context c s
  have pass : (context (rungEnded c s) c).pass = (context s c).pass := (Context.same_of_bare work.bare).2.1.2.2.2.2
  have slotR : (context (rungEnded c s) c).slot = some i := (Context.same_of_bare work.bare).1.2.1.trans slot
  have live : (context (rungEnded c s) c).live = true := by simp [Context.live, state, paging]
  have ends : perform (.endRung c) s = (rungEnded c s, [.pastLast c]) := by
    show endRung c s = _
    rw [endRung_eq paging, if_neg (by simpa [Ladder.has] using more), if_neg (by omega)]
  have past : perform (.pastLast c) (rungEnded c s) = (rungEnded c s, [.endCall c .exhausted .ladderExhausted]) := by
    refine (pastLast_eq c _).2 ?_
    rw [show callLadder (rungEnded c s) (context (rungEnded c s) c) = _ from work.ladder]
    exact fun h => done ⟨h.1, pass ▸ h.2⟩
  have ended := finishCall_ended work (Nat.zero_le 1) live marks (st := .exhausted) (reason := .ladderExhausted) (by decide)
  have empty : (finishCall c .exhausted .ladderExhausted (rungEnded c s)).calls.backlog = [] := by
    obtain ⟨-, -, backlog, -⟩ := ended
    exact backlog.trans nobody
  refine ⟨4, _, by decide, .step ends (.step past (runsTo_endCall live empty)), ⟨fun h => ?_, fun _ h => ?_, fun _ _ _ => ended⟩,
    (rungEnded_onSlot i c s).trans (finishCall_onSlot _ _ live slotR)⟩
  · exact absurd h (by omega)
  · exact absurd h done

end Sys2Proof.Machine

/-! # Proofs: the host part of a slot, as a scan reads it (R5, R156)

The event of a slot read: what the read is taken for, the tasks that it sets off, and the read of the slot after it. -/

namespace Sys2Proof.Machine

variable {c i : Nat} {s t u : State}

/-! ## The event of a slot read -/

/-- The event of a slot read takes the host part, and goes on with the next slot (R156). -/
theorem slotHostReadDone_eq {x : Transaction AreaOp} (data : List Byte) (ending : s.area.scanEnding = false)
    (bus : s.area.bus = some x) (op : x.op = .slotHost i) : exec (.slotHostReadDone data) s = .next
      (finish ((takeHostPart i (readHostPart data) (areaDone s)).1,
        (takeHostPart i (readHostPart data) (areaDone s)).2 ++ [.scanSlot (i + 1)])) := by
  show Host.Outcome.next (completeAreaRead _ _ s) = _
  unfold completeAreaRead
  rw [bus]
  dsimp only
  rw [op]
  dsimp only
  unfold scanStep
  rw [if_neg (by simp [areaDone, State.modArea, ending])]

/-- The end of the event of a slot read, in the state that its tasks leave: the read of the next slot begins, and the lamp commands. -/
def nextSlotRead (i : Nat) (s : State) : State :=
  recomputeLamps (areaRead (.slotHost (i + 1)) (s.area.directory.slots.offset + 128 * (i + 1)) 64 s)

/-- A slot read is in progress, in the run of a scan, of a slot that is not the last. -/
structure ReadsSlot (i : Nat) (s : State) : Prop where
  agenda : s.agenda = []
  running : s.engine = .running ∨ s.engine = .paused
  ending : s.area.scanEnding = false
  bus : ∃ x, s.area.bus = some x ∧ x.op = .slotHost i
  slot : i < s.area.slots.length
  count : i + 1 < s.area.directory.slots.count

/-- The slot read of `s` leaves `t`, in which the next slot is being read (R156). -/
def Becomes (i : Nat) (data : List Byte) (s t : State) : Prop :=
  exec (.slotHostReadDone data) s = .next t ∧ t.area.bus = some
    (readTransaction (.slotHost (i + 1)) [(areaBase s + (s.area.directory.slots.offset + 128 * (i + 1)), 64)])

/-- A slot read whose tasks are done goes on to the next slot. -/
theorem ReadsSlot.becomes {data : List Byte} {k : Nat} {ts : List Task} {v w : State} (r : ReadsSlot i s)
    (take : takeHostPart i (readHostPart data) (areaDone s) = (v, ts)) (agenda : v.agenda = []) (few : k ≤ 10) (runs : RunsTo k ts v w)
    (directory : w.area.directory = s.area.directory) (engine : w.engine = s.engine) (window : w.window = s.window) :
    Becomes i data s (nextSlotRead i w) := by
  have limit : Config.workLimit = 999989 + 1 + 10 := rfl
  obtain ⟨x, bus, op⟩ := r.bus
  constructor
  · rw [slotHostReadDone_eq data r.ending bus op, take, finish_runs agenda runs (by omega)]
    obtain ⟨left, e⟩ : ∃ left, Config.workLimit - k = left + 1 := ⟨Config.workLimit - k - 1, by omega⟩
    have scans : perform (.scanSlot (i + 1)) w
        = (areaRead (.slotHost (i + 1)) (w.area.directory.slots.offset + 128 * (i + 1)) 64 w, []) := by
      show (scanSlot (i + 1) w, []) = _
      unfold scanSlot
      rw [if_pos (by rw [directory]; exact r.count)]
    rw [e, run_cons, scans, List.append_nil, run_nil]
    refine congrArg _ (closeEvent_eq _ ?_)
    show w.engine ≠ .stopping
    rw [engine]
    rcases r.running with e | e <;> simp [e]
  · show some (readTransaction _ [(areaBase w + _, 64)]) = _
    rw [directory, areaBase, window]
    rfl

/-- The next read leaves the calls, the causes and the journal. -/
theorem nextSlotRead_same (i : Nat) (s : State) : (nextSlotRead i s).calls = s.calls ∧ (nextSlotRead i s).attention = s.attention
    ∧ (nextSlotRead i s).journal = s.journal := ⟨rfl, rfl, rfl⟩

/-- The next read leaves the slot images. -/
theorem slotImage_nextSlotRead (i : Nat) (s : State) (j : Nat) : slotImage (nextSlotRead i s) j = slotImage s j := rfl

theorem drop?_nextSlotRead (i : Nat) (s : State) (l : LineId) (a : Nat) :
    ∃ f : Drop → Drop, (∀ d, (f d).queue = d.queue) ∧ drop? (nextSlotRead i s) l a = (drop? s l a).map f :=
  ⟨Drop.relit (areaRead _ _ _ s), fun _ => rfl, drop?_recomputeLamps _ l a⟩

/-- The queues are the same once the next read has begun. -/
theorem queues_nextSlotRead {l : LineId} {a : Nat} {d : Drop} (h : drop? (nextSlotRead i s) l a = some d) :
    ∃ e, drop? s l a = some e ∧ d.queue = e.queue := by
  obtain ⟨f, queue, e⟩ := drop?_nextSlotRead i s l a
  rw [e] at h
  obtain ⟨x, hx, rfl⟩ := Option.map_eq_some_iff.1 h
  exact ⟨x, hx, queue x⟩

theorem isEndedAfter_nextSlotRead {st : SlotState} {reason : Reason} (h : isEndedAfter s t c st reason) :
    isEndedAfter s (nextSlotRead i t) c st reason := by
  obtain ⟨freed, others, backlog, engaged, paged, records, latches, image, attention, ⟨held, only⟩, submitted, rest⟩ := h
  refine ⟨freed, others, backlog, engaged, paged, records, latches, image, attention, ⟨fun room m e he sent => ?_,
    fun m unsent l a d e hd he => ?_⟩, submitted, rest⟩
  · rcases held room m e he sent with ⟨l, a, d, y, hd, hy, is⟩ | dropped
    · obtain ⟨f, queue, q⟩ := drop?_nextSlotRead i t l a
      exact .inl ⟨l, a, f d, y, by rw [q, hd]; rfl, by rw [queue]; exact hy, is⟩
    · exact .inr dropped
  · obtain ⟨d', hd', q⟩ := queues_nextSlotRead hd
    exact only m unsent l a d' e hd' (q ▸ he)

theorem isHeldAfter_nextSlotRead (h : isHeldAfter s t c) : isHeldAfter s (nextSlotRead i t) c := by
  obtain ⟨state, deadline, turn, nobody, rung, pass, tag, slot, records, held, overdue, paged, image, record, queues, rest⟩ := h
  refine ⟨state, deadline, turn, nobody, rung, pass, tag, slot, records, held, overdue, paged, image, record,
    fun l a d hd => ?_, rest⟩
  obtain ⟨e, he, q⟩ := queues_nextSlotRead hd
  rw [q]
  exact queues l a e he

theorem isMovedOnAfter_nextSlotRead (h : isMovedOnAfter s t c) : isMovedOnAfter s (nextSlotRead i t) c := by
  obtain ⟨next, pass, ended⟩ := h
  exact ⟨next, pass, fun a b e => isEndedAfter_nextSlotRead (ended a b e)⟩

/-! ## The image of the slot before the tasks -/

/-- The state of `s` with other slot images, as many, and another transaction in the Area Controller. -/
def withSlots (bus : Option (Transaction AreaOp)) (slots : List SlotImage) (s : State) : State :=
  { s with area := { s.area with bus := bus, slots := slots } }

theorem isEndedAfter_withSlots {bus : Option (Transaction AreaOp)} {slots : List SlotImage} {st : SlotState} {reason : Reason}
    (length : slots.length = s.area.slots.length) (h : isEndedAfter (withSlots bus slots s) t c st reason) :
    isEndedAfter s t c st reason := by
  obtain ⟨freed, others, backlog, engaged, paged, records, latches, image, rest⟩ := h
  exact ⟨freed, others, backlog, engaged, paged, records, latches, fun j hj l => image j hj (length ▸ l), rest⟩

theorem isHeldAfter_withSlots {bus : Option (Transaction AreaOp)} {slots : List SlotImage}
    (length : slots.length = s.area.slots.length) (h : isHeldAfter (withSlots bus slots s) t c) : isHeldAfter s t c := by
  obtain ⟨state, deadline, turn, nobody, rung, pass, tag, slot, records, held, overdue, paged, image, rest⟩ := h
  exact ⟨state, deadline, turn, nobody, rung, pass, tag, slot, records, held, overdue, paged,
    fun j hj l => image j hj (length ▸ l), rest⟩

theorem isMovedOnAfter_withSlots {bus : Option (Transaction AreaOp)} {slots : List SlotImage}
    (length : slots.length = s.area.slots.length) (h : isMovedOnAfter (withSlots bus slots s) t c) : isMovedOnAfter s t c := by
  obtain ⟨next, pass, ended⟩ := h
  refine ⟨fun more may unmarked => ?_, fun last again may => ?_, fun last spent nobody => ?_⟩
  · obtain ⟨state, at', pass, tag, slot, mode, turn, deadline, current, made, delivery, paged, images, rest⟩ :=
      next more may unmarked
    exact ⟨state, at', pass, tag, slot, mode, turn, deadline, current, made, delivery, paged,
      fun j hj l => images j hj (length ▸ l), rest⟩
  · obtain ⟨state, at', pass, tag, slot, mode, turn, deadline, current, made, delivery, paged, images, rest⟩ :=
      pass last again may
    exact ⟨state, at', pass, tag, slot, mode, turn, deadline, current, made, delivery, paged,
      fun j hj l => images j hj (length ▸ l), rest⟩
  · exact isEndedAfter_withSlots (s := { s with attention := { s.attention with event := overdueEvents s c } }) length
      (ended last spent nobody)

end Sys2Proof.Machine

/-! # Proofs: the requests on a slot's call (R13 to R18) -/

namespace Sys2Proof.Machine

variable {c i : Nat} {s t u : State}

/-! ## What a read is taken for -/

/-- The state in which a request is settled: its number is taken (R13). -/
def requestTaken (i : Nat) (n : Word) (s : State) : State := modSlot i (fun g => { g with takenRequest := n }) (areaDone s)

theorem takeHostPart_nothing {h : HostPart} (post : h.postNumber = (slotImage s i).takenPost)
    (request : h.requestNumber = (slotImage s i).takenRequest ∨ (slotImage s i).state = .empty) :
    takeHostPart i h (areaDone s) = (areaDone s, []) := by
  have image : slotImage (areaDone s) i = slotImage s i := rfl
  unfold takeHostPart
  dsimp only
  rw [image, if_neg (by simp [post]), if_neg (by rcases request with e | e <;> simp [e])]

theorem takeHostPart_request {h : HostPart} (post : h.postNumber = (slotImage s i).takenPost)
    (request : h.requestNumber ≠ (slotImage s i).takenRequest) (state : (slotImage s i).state ≠ .empty) :
    takeHostPart i h (areaDone s) = settleRequest i h.requestCode h.requestValue (requestTaken i h.requestNumber s) := by
  have image : slotImage (areaDone s) i = slotImage s i := rfl
  unfold takeHostPart
  dsimp only
  rw [image, if_neg (by simp [post]), if_pos ⟨request, state⟩]
  rfl

theorem state_requestTaken (h : i < s.area.slots.length) (n : Word) :
    (slotImage (requestTaken i n s) i).state = (slotImage s i).state := by
  refine (congrArg SlotImage.state ((slotImage_modSlot_same (s := areaDone s) h _).trans (SlotImage.change_eq _ _))).trans ?_
  rfl

/-- The state of a request with its result (R13). -/
def answered (i : Nat) (n : Word) (r : RequestResult) (s : State) : State := setResult i r (requestTaken i n s)

theorem answered_eq (i : Nat) (n : Word) (r : RequestResult) (s : State) :
    answered i n r s = withSlots none (answered i n r s).area.slots s ∧ (answered i n r s).area.slots.length = s.area.slots.length := by
  refine ⟨rfl, ?_⟩
  show ((s.area.slots.modify i _).modify i _).length = _
  rw [List.length_modify, List.length_modify]

/-- The image of a slot whose new request has been answered, and no other image changed (R2, R13). -/
theorem slotImage_answered {n : Word} (r : RequestResult) (h : i < s.area.slots.length) (new : n ≠ (slotImage s i).takenRequest) :
    slotImage (answered i n r s) i = { slotImage s i with takenRequest := n, result := r, dirty := true, touched := true } := by
  have taken : slotImage (requestTaken i n s) i = { slotImage s i with takenRequest := n, dirty := true, touched := true } := by
    refine (slotImage_modSlot_same (s := areaDone s) h _).trans (if_neg fun e => new ?_)
    exact congrArg SlotImage.takenRequest e
  refine (slotImage_modSlot_same (s := requestTaken i n s) ?_ _).trans ?_
  · show i < (s.area.slots.modify i _).length
    rw [List.length_modify]
    exact h
  · rw [taken]
    unfold SlotImage.change
    split
    · rename_i e
      exact e.symm
    · rfl

theorem slotImage_answered_ne {j : Nat} (n : Word) (r : RequestResult) (h : j ≠ i) (s : State) :
    slotImage (answered i n r s) j = slotImage s j :=
  (slotImage_modSlot_ne h _ _).trans (slotImage_modSlot_ne h _ _)

/-! ## The context of a slot -/

theorem contextOfSlot_some (h : contextOfSlot s i = some c) :
    c < 64 ∧ (context s c).live = true ∧ (context s c).slot = some i ∧ c < s.calls.contexts.length := by
  have mem := List.mem_of_find?_eq_some h
  have is := List.find?_some h
  simp only [Bool.and_eq_true, beq_iff_eq] at is
  obtain ⟨hc, -⟩ := context_mem (c := c) (.inl is.1)
  exact ⟨List.mem_range.1 mem, is.1, is.2, hc⟩

/-! ## Requests that are answered at once -/

/-- A request that is answered at once sets off no task and changes its slot's image alone (R13). -/
theorem settleRequest_at_once {code value : Nat} {r : RequestResult}
    (is : code = 0 ∧ r = .done ∨ 5 < code ∧ r = .badValue ∨ code = 1 ∧ (slotImage s i).state.live = false ∧ r = .wrongState
      ∨ code = 2 ∧ contextOfSlot s i = none ∧ r = .wrongState
      ∨ code = 3 ∧ (∀ c, contextOfSlot s i = some c → (context s c).state ≠ .held) ∧ r = .wrongState
      ∨ code = 4 ∧ (∀ c, contextOfSlot s i = some c → (context s c).state ≠ .paging) ∧ r = .wrongState
      ∨ code = 5 ∧ presentSeverity s i = none ∧ r = .wrongState
      ∨ code = 5 ∧ (∃ p, presentSeverity s i = some p ∧ (value = 0 ∨ p ≤ value)) ∧ r = .badValue) :
    settleRequest i code value s = (setResult i r s, []) := by
  have unfit (state : CallState) (no : ∀ c, contextOfSlot s i = some c → (context s c).state ≠ state) :
      (contextOfSlot s i).filter (fun c => (context s c).state == state) = none := by
    cases e : contextOfSlot s i with
    | none => rfl
    | some c => simp [Option.filter, no c e]
  rcases is with ⟨rfl, rfl⟩ | ⟨more, rfl⟩ | ⟨rfl, ended, rfl⟩ | ⟨rfl, none, rfl⟩ | ⟨rfl, no, rfl⟩ | ⟨rfl, no, rfl⟩ | ⟨rfl, none, rfl⟩
    | ⟨rfl, ⟨p, some, bad⟩, rfl⟩
  · rfl
  · obtain ⟨k, rfl⟩ : ∃ k, code = k + 6 := ⟨code - 6, by omega⟩
    rfl
  · exact if_neg (by simp [ended])
  · show requestClose i s = _
    unfold requestClose
    rw [none]
  · show requestRelease i s = _
    unfold requestRelease
    rw [unfit .held no]
  · show requestAdvance i s = _
    unfold requestAdvance
    rw [unfit .paging no]
  · show requestRaise i value s = _
    unfold requestRaise
    rw [none]
  · show requestRaise i value s = _
    unfold requestRaise
    rw [some]
    exact if_pos bad

/-- A request that is answered at once: its slot's image alone is changed, and the next slot is read (R13). -/
theorem ReadsSlot.answersAtOnce {data : List Byte} {result : RequestResult} (r : ReadsSlot i s)
    (post : (readHostPart data).postNumber = (slotImage s i).takenPost)
    (new : (readHostPart data).requestNumber ≠ (slotImage s i).takenRequest) (used : (slotImage s i).state ≠ .empty)
    (is : let code := (readHostPart data).requestCode
      code = 0 ∧ result = .done ∨ 5 < code ∧ result = .badValue
      ∨ code = 1 ∧ (slotImage s i).state.live = false ∧ result = .wrongState
      ∨ code = 2 ∧ contextOfSlot s i = none ∧ result = .wrongState
      ∨ code = 3 ∧ (∀ c, contextOfSlot s i = some c → (context s c).state ≠ .held) ∧ result = .wrongState
      ∨ code = 4 ∧ (∀ c, contextOfSlot s i = some c → (context s c).state ≠ .paging) ∧ result = .wrongState
      ∨ code = 5 ∧ presentSeverity s i = none ∧ result = .wrongState
      ∨ code = 5 ∧ (∃ p, presentSeverity s i = some p
        ∧ ((readHostPart data).requestValue = 0 ∨ p ≤ (readHostPart data).requestValue)) ∧ result = .badValue) :
    ∃ t, Becomes i data s t
      ∧ slotImage t i = { slotImage s i with
        takenRequest := (readHostPart data).requestNumber, result := result, dirty := true, touched := true }
      ∧ (∀ j, j ≠ i → slotImage t j = slotImage s j) ∧ t.calls = s.calls ∧ t.attention = s.attention ∧ t.journal = s.journal := by
  have take : takeHostPart i (readHostPart data) (areaDone s) = (answered i (readHostPart data).requestNumber result s, []) := by
    rw [takeHostPart_request post new used]
    refine settleRequest_at_once (s := requestTaken i (readHostPart data).requestNumber s) ?_
    rw [state_requestTaken r.slot]
    exact is
  exact ⟨_, r.becomes take r.agenda (by decide) (.nil _) rfl rfl rfl, slotImage_answered result r.slot new,
    fun j hj => slotImage_answered_ne _ _ hj s, rfl, rfl, rfl⟩

/-! ## Requests that end or move on a call -/

/-- What every answered request shows once its call has gone on: the result, the number taken, and the other images as before. -/
def Done (i : Nat) (n : Word) (s t : State) : Prop :=
  (slotImage t i).result = .done ∧ (slotImage t i).takenRequest = n ∧ ∀ j, j ≠ i → slotImage t j = slotImage s j

/-- A request that has been answered DONE and whose work has come to rest: the next slot is read. -/
theorem ReadsSlot.done {data : List Byte} {k : Nat} {ts : List Task} {v w : State} (r : ReadsSlot i s)
    (new : (readHostPart data).requestNumber ≠ (slotImage s i).takenRequest)
    (take : takeHostPart i (readHostPart data) (areaDone s) = (v, ts)) (agenda : v.agenda = []) (few : k ≤ 10) (runs : RunsTo k ts v w)
    (onSlot : OnSlot i (answered i (readHostPart data).requestNumber .done s) w) (engine : w.engine = s.engine)
    (window : w.window = s.window) :
    Becomes i data s (nextSlotRead i w) ∧ Done i (readHostPart data).requestNumber s (nextSlotRead i w) := by
  have image := slotImage_answered .done r.slot new
  refine ⟨r.becomes take agenda few runs (by rw [onSlot.area]; rfl) engine window, ?_, ?_, fun j hj => ?_⟩
  · exact (onSlot.kept.result).trans (by rw [image])
  · exact (onSlot.kept.takenRequest).trans (by rw [image])
  · exact (onSlot.kept.others j hj).trans (slotImage_answered_ne _ _ hj s)

/-- What ends of a call with an answered request: all of it, as from the state before (R14, R15, R19). -/
theorem finishCall_answered {n : Word} (r : RequestResult) {st : SlotState} (reason : Reason) (of : contextOfSlot s i = some c)
    (terminal : st ≠ .rejected) :
    isEndedAfter s (finishCall c st reason (answered i n r s)) c st reason
      ∧ OnSlot i (answered i n r s) (finishCall c st reason (answered i n r s)) := by
  obtain ⟨-, live, slot, -⟩ := contextOfSlot_some of
  obtain ⟨e, length⟩ := answered_eq i n r s
  have liveA : (context (answered i n r s) c).live = true := live
  have slotA : (context (answered i n r s) c).slot = some i := slot
  refine ⟨isEndedAfter_withSlots (bus := none) length ?_, finishCall_onSlot st reason liveA slotA⟩
  rw [← e]
  exact finishCall_ended (.refl _ 0 c _) (by decide) liveA rfl terminal

/-- A request that ends the slot's call, with nobody waiting to be admitted in its place (R12, R14, R15). -/
theorem ReadsSlot.endsCall {data : List Byte} {st : SlotState} {reason : Reason} (r : ReadsSlot i s)
    (new : (readHostPart data).requestNumber ≠ (slotImage s i).takenRequest) (of : contextOfSlot s i = some c)
    (nobody : s.calls.backlog = []) (terminal : st ≠ .rejected)
    (take : takeHostPart i (readHostPart data) (areaDone s)
      = endCall c st reason (answered i (readHostPart data).requestNumber .done s)) :
    ∃ t, Becomes i data s t ∧ isEndedAfter s t c st reason ∧ Done i (readHostPart data).requestNumber s t := by
  obtain ⟨-, live, -, -⟩ := contextOfSlot_some of
  obtain ⟨ended, onSlot⟩ := finishCall_answered (n := (readHostPart data).requestNumber) .done reason of terminal
  have liveA : (context (answered i (readHostPart data).requestNumber .done s) c).live = true := live
  have kept := isEndedAfter_nextSlotRead (i := i) ended
  obtain ⟨-, -, backlog, -, -, -, -, -, -, -, -, engine, -, window, -⟩ := ended
  obtain ⟨becomes, done⟩ := r.done new (take.trans (if_pos liveA)) (onSlot.agenda.trans r.agenda) (by decide)
    (.step (admitHeads_nil (backlog.trans nobody)) (.nil _)) onSlot engine window
  exact ⟨_, becomes, kept, done⟩

/-- WITHDRAW ends the call of a context (R14). -/
theorem settleRequest_withdraw {n : Word} {value : Nat} (slot : i < s.area.slots.length) (live : (slotImage s i).state.live = true)
    (of : contextOfSlot s i = some c) :
    settleRequest i 1 value (requestTaken i n s) = endCall c .withdrawn .withdrawn (answered i n .done s) := by
  show requestWithdraw i (requestTaken i n s) = _
  unfold requestWithdraw
  rw [if_pos (by rw [state_requestTaken slot]; exact live)]
  show endSlotCall i _ _ (answered i n .done s) = _
  unfold endSlotCall
  rw [show contextOfSlot (answered i n .done s) i = some c from of]

/-- CLOSE ends the call of a context (R15). -/
theorem settleRequest_close {n : Word} {value : Nat} (of : contextOfSlot s i = some c) :
    settleRequest i 2 value (requestTaken i n s) = endCall c .cleared .controlRoom (answered i n .done s) := by
  show requestClose i (requestTaken i n s) = _
  unfold requestClose
  rw [show contextOfSlot (requestTaken i n s) i = some c from of]
  rfl

/-- A call that a request releases from HELD: PAGING again, with the record RELEASED (R16). -/
def releasedCall (i c : Nat) (s : State) : State :=
  modContext c (fun k => { k with state := .paging }) (submit { callRecord .released (context s c) with
    detail1 := packBytes (context s c).rung (context s c).pass } (setResult i .done s))

theorem context_releasedCall (live : (context s c).live = true) :
    context (releasedCall i c s) c = { context s c with state := .paging } := by
  obtain ⟨hc, -⟩ := context_mem (c := c) (.inl live)
  unfold releasedCall
  rw [submit_shape]
  exact (context_modContext c _ _).trans (if_pos hc)

/-- RELEASE moves a HELD call on (R16). -/
theorem settleRequest_release {value : Nat} (of : contextOfSlot s i = some c) (held : (context s c).state = .held) :
    settleRequest i 3 value s = (releasedCall i c s,
      [if (context s c).rung < (callLadder s (context s c)).effectiveLast then Task.enterRung c ((context s c).rung + 1)
        else .pastLast c]) := by
  have live : (context s c).live = true := by simp [Context.live, held]
  have ladder : callLadder (releasedCall i c s) (context (releasedCall i c s) c) = callLadder s (context s c) := by
    rw [context_releasedCall live]
    unfold releasedCall
    rw [submit_shape]
    rfl
  show requestRelease i s = _
  unfold requestRelease
  rw [show (contextOfSlot s i).filter (fun c => (context s c).state == .held) = some c by simp [of, Option.filter, held]]
  show moveOn c (context s c).rung (releasedCall i c s) = _
  unfold moveOn
  rw [ladder]
  split <;> rfl

/-- The release of a HELD call is work on the call (R16). -/
theorem callWork_releasedCall (P : AirEntry → Prop) (i c : Nat) (s : State) : CallWork P 1 c s (releasedCall i c s) := by
  have result : CallWork P 0 c s (setResult i .done s) := callWork_modSlot i _ s
  have paging : CallWork P 0 c (submit { callRecord .released (context s c) with
      detail1 := packBytes (context s c).rung (context s c).pass } (setResult i .done s)) (releasedCall i c s) :=
    callWork_modContext (fun k => { k with state := .paging }) (fun _ => rfl) (fun _ _ => rfl) _
  exact ((result.trans (callWork_submit _ _)).trans paging).mono (fun _ h => h) (by decide)

/-- The record RELEASED of a call that is released from HELD (R16). -/
theorem pending_releasedCall (i c : Nat) (room : hasRoom s 1) : (releasedCall i c s).journal.pending = s.journal.pending
    ++ [{ callRecord .released (context s c) with
      tick := s.tickCount, detail1 := (context s c).rung * 256 + (context s c).pass }] :=
  submit_pending (s := setResult i .done s) room { callRecord .released (context s c) with
    detail1 := packBytes (context s c).rung (context s c).pass }

theorem releasedCall_onSlot (i c : Nat) (n : Word) (s : State) :
    OnSlot i (answered i n .done s) (releasedCall i c (requestTaken i n s)) :=
  onSlot_of_same (submit_agenda _ _) (submit_area _ _)

theorem requestTaken_eq (i : Nat) (n : Word) (s : State) :
    requestTaken i n s = withSlots none (requestTaken i n s).area.slots s
      ∧ (requestTaken i n s).area.slots.length = s.area.slots.length :=
  ⟨rfl, List.length_modify ..⟩

/-- RELEASE of a call at the end of its ladder, which does not repeat, ends it EXHAUSTED (R16, R41). -/
theorem ReadsSlot.releaseExhausts {data : List Byte} (r : ReadsSlot i s) (post : (readHostPart data).postNumber = (slotImage s i).takenPost)
    (new : (readHostPart data).requestNumber ≠ (slotImage s i).takenRequest) (used : (slotImage s i).state ≠ .empty)
    (code : (readHostPart data).requestCode = 3) (of : contextOfSlot s i = some c) (nobody : s.calls.backlog = [])
    (held : (context s c).state = .held) (last : (callLadder s (context s c)).effectiveLast ≤ (context s c).rung)
    (spent : ¬repeatsOnce (callLadder s (context s c)) (context s c)) :
    ∃ t, Becomes i data s t ∧ isEndedAfter s t c .exhausted .ladderExhausted ∧ Done i (readHostPart data).requestNumber s t := by
  obtain ⟨-, live, slot, -⟩ := contextOfSlot_some of
  generalize hn : (readHostPart data).requestNumber = n at *
  let u := requestTaken i n s
  obtain ⟨shape, length⟩ := requestTaken_eq i n s
  have liveU : (context u c).live = true := live
  have work := callWork_releasedCall (fun _ => False) i c u
  have ctx := context_releasedCall (i := i) liveU
  have liveV : (context (releasedCall i c u) c).live = true := by rw [ctx]; rfl
  have take : takeHostPart i (readHostPart data) (areaDone s) = (releasedCall i c u, [.pastLast c]) := by
    rw [takeHostPart_request post (by rw [hn]; exact new) used, code, hn,
      settleRequest_release (s := u) (show contextOfSlot u i = some c from of) held,
      if_neg (show ¬(context u c).rung < (callLadder u (context u c)).effectiveLast from not_lt.2 last)]
  have past : perform (.pastLast c) (releasedCall i c u) = (releasedCall i c u, [.endCall c .exhausted .ladderExhausted]) := by
    refine (pastLast_eq c _).2 ?_
    rw [work.ladder, ctx]
    exact spent
  have ended := finishCall_ended work (le_refl 1) liveV (by rw [ctx]; rfl) (st := .exhausted) (reason := .ladderExhausted) (by decide)
  have onSlot := (releasedCall_onSlot i c n s).trans (finishCall_onSlot .exhausted .ladderExhausted liveV (by rw [ctx]; exact slot))
  have kept := isEndedAfter_withSlots (bus := none) length (by rw [← shape]; exact isEndedAfter_nextSlotRead (i := i) ended)
  obtain ⟨-, -, backlog, -, -, -, -, -, -, -, -, engine, -, window, -⟩ := ended
  have runs := runsTo_endCall (reason := .ladderExhausted) liveV (backlog.trans nobody)
  obtain ⟨becomes, done⟩ := r.done (by rw [hn]; exact new) take (work.agenda.trans r.agenda) (by decide) (.step past runs)
    (by rw [hn]; exact onSlot) engine window
  exact ⟨_, becomes, kept, hn ▸ done⟩

/-- ADVANCE ends the running rung (R17). -/
theorem settleRequest_advance {value : Nat} (of : contextOfSlot s i = some c) (paging : (context s c).state = .paging) :
    settleRequest i 4 value s = (setResult i .done s, [.endRung c]) := by
  show requestAdvance i s = _
  unfold requestAdvance
  rw [show (contextOfSlot s i).filter (fun c => (context s c).state == .paging) = some c by simp [of, Option.filter, paging]]

/-- The unanswered end of a rung that comes to rest at once (R40, R41). -/
theorem runsTo_movedOn (paging : (context s c).state = .paging) (slot : (context s c).slot = some i) (more : ¬holdsAtEnd s c)
    (moves : movesOnAtOnce s c) : ∃ k t, k ≤ 10 ∧ RunsTo k [.endRung c] s t ∧ isMovedOnAfter s t c ∧ OnSlot i s t := by
  rcases moves with ⟨next, may, unmarked⟩ | ⟨last, again, may⟩ | ⟨last, spent, nobody⟩
  · exact runsTo_nextRung paging slot more next may unmarked
  · exact runsTo_nextPass paging slot more last again may
  · exact runsTo_exhausted paging slot more last spent nobody

theorem isMovedOnAfter_frame (h : isMovedOnAfter s t c) (moves : movesOnAtOnce s c) : t.engine = s.engine ∧ t.window = s.window := by
  obtain ⟨next, pass, ended⟩ := h
  rcases moves with ⟨more, may, unmarked⟩ | ⟨last, again, may⟩ | ⟨last, spent, nobody⟩
  · obtain ⟨-, -, -, -, -, -, -, -, -, -, -, -, -, -, -, -, -, engine, -, window, -⟩ := next more may unmarked
    exact ⟨engine, window⟩
  · obtain ⟨-, -, -, -, -, -, -, -, -, -, -, -, -, -, -, -, -, engine, -, window, -⟩ := pass last again may
    exact ⟨engine, window⟩
  · obtain ⟨-, -, -, -, -, -, -, -, -, -, -, engine, -, window, -⟩ := ended last spent nobody
    exact ⟨engine, window⟩

/-- ADVANCE, its rung's end having brought the call to HELD or on to rest (R17, R40 to R43). -/
theorem ReadsSlot.advances {data : List Byte} (r : ReadsSlot i s) (post : (readHostPart data).postNumber = (slotImage s i).takenPost)
    (new : (readHostPart data).requestNumber ≠ (slotImage s i).takenRequest) (used : (slotImage s i).state ≠ .empty)
    (code : (readHostPart data).requestCode = 4) (of : contextOfSlot s i = some c) (paging : (context s c).state = .paging) :
    (holdsAtEnd s c → ∃ t, Becomes i data s t ∧ Done i (readHostPart data).requestNumber s t ∧ isHeldAfter s t c)
      ∧ (¬holdsAtEnd s c → movesOnAtOnce s c →
        ∃ t, Becomes i data s t ∧ Done i (readHostPart data).requestNumber s t ∧ isMovedOnAfter s t c) := by
  obtain ⟨-, live, slot, -⟩ := contextOfSlot_some of
  let a := answered i (readHostPart data).requestNumber .done s
  obtain ⟨shape, length⟩ := answered_eq i (readHostPart data).requestNumber .done s
  have slotA : (context a c).slot = some i := slot
  have pagingA : (context a c).state = .paging := paging
  have take : takeHostPart i (readHostPart data) (areaDone s) = (a, [.endRung c]) := by
    rw [takeHostPart_request post new used, code]
    exact settleRequest_advance (s := requestTaken i (readHostPart data).requestNumber s) of paging
  constructor
  · intro holds
    have held := heldAfterRung_isHeld pagingA holds.2
    have ends : perform (.endRung c) a = (heldAfterRung c a, []) := by
      show endRung c a = _
      rw [endRung_eq pagingA, if_pos]
      · rfl
      · have holdsA : holdsAtEnd a c := holds
        simpa [Ladder.has] using holdsA
    have kept := isHeldAfter_withSlots (s := s) (bus := none) length (isHeldAfter_nextSlotRead (i := i) held)
    obtain ⟨-, -, -, -, -, -, -, -, -, -, -, -, -, -, -, -, -, engine, -, window, -⟩ := held
    obtain ⟨becomes, done⟩ := r.done new take r.agenda (by decide) (.step ends (.nil _)) (heldAfterRung_onSlot pagingA slotA) engine window
    exact ⟨_, becomes, done, kept⟩
  · intro more moves
    have movesA : movesOnAtOnce a c := moves
    obtain ⟨k, w, few, runs, moved, onSlot⟩ := runsTo_movedOn pagingA slotA more movesA
    obtain ⟨engine, window⟩ := isMovedOnAfter_frame moved movesA
    obtain ⟨becomes, done⟩ := r.done new take r.agenda few runs onSlot engine window
    exact ⟨_, becomes, done, isMovedOnAfter_withSlots (s := s) (bus := none) length (isMovedOnAfter_nextSlotRead (i := i) moved)⟩

/-! ## WAITING calls, and RAISE -/

/-- The lamp commands leave the zone that a site mark names. -/
theorem siteZone_recomputeLamps (s : State) (x : Site) : siteZone (recomputeLamps s) x = siteZone s x := by
  cases x with
  | station l a =>
    show (drop? (recomputeLamps s) l a).map (·.zone) = (drop? s l a).map (·.zone)
    rw [drop?_recomputeLamps, Option.map_map]
    rfl
  | none => rfl
  | member => rfl

theorem attendCommand_recomputeLamps (s : State) : attendCommand (recomputeLamps s) = attendCommand s := by
  have same (z : Nat) : Context.attends (recomputeLamps s) z = Context.attends s z := by
    funext k
    simp only [Context.attends, siteZone_recomputeLamps]
  funext z
  show (if s.calls.contexts.any (Context.attends (recomputeLamps s) z) then _ else _) = _
  rw [same]
  rfl

/-- A second round of lamp commands changes nothing (R144). -/
theorem recomputeLamps_idem (s : State) : recomputeLamps (recomputeLamps s) = recomputeLamps s := by
  have once (d : Drop) : Drop.relit (recomputeLamps s) (Drop.relit s d) = Drop.relit s d := by
    have call : callCommand (recomputeLamps s) = callCommand s := rfl
    simp only [Drop.relit, Option.map_map, call, attendCommand_recomputeLamps, Function.comp_def]
  show ((s.mapDrops (Drop.relit s)).mapDrops (Drop.relit (recomputeLamps s))) = s.mapDrops (Drop.relit s)
  simp [State.mapDrops, Function.comp_def, once]

theorem recomputeLamps_nextSlotRead (i : Nat) (s : State) : recomputeLamps (nextSlotRead i s) = nextSlotRead i s := recomputeLamps_idem _

/-- A WAITING call ends: its entry leaves the backlog, its slot shows the end, and its record is submitted (R19, R21). -/
theorem endWaiting_spec {w : Waiting} (st : SlotState) (reason : Reason) (slot : i < s.area.slots.length)
    (waits : s.calls.backlog.find? (fun v => v.slot == i) = some w) :
    let t := endWaiting i st reason s
    OnSlot i s t ∧ t.calls = { s.calls with backlog := s.calls.backlog.filter fun v => v.slot != i }
      ∧ (slotImage t i).state = st ∧ (slotImage t i).reason = reason ∧ (slotImage t i).endTick = s.tickCount
      ∧ t.attention = { s.attention with event := s.attention.event ||| 1 }
      ∧ (hasRoom s 1 → t.journal.pending = s.journal.pending ++ [{ blankRecord (terminalRecord st) with
        tick := s.tickCount, zone := w.zone, slot := some w.slot, callNumber := w.callNumber, origin := w.origin
        detail1 := reason.code, detail2 := (slotImage s i).rung * 256 + (slotImage s i).pass }])
      ∧ t.engine = s.engine ∧ t.window = s.window := by
  intro t
  let shows : SlotImage → SlotImage := fun g => { g with
    state := st, reason := reason, endTick := s.tickCount, tag := none, accepter := none }
  let u := modSlot i shows (leaveBacklog i s)
  let r := { waitingRecord (terminalRecord st) w with
    detail1 := reason.code, detail2 := packBytes (slotImage u i).rung (slotImage u i).pass }
  have image : slotImage u i = SlotImage.change shows (slotImage s i) := slotImage_modSlot_same (s := leaveBacklog i s) slot shows
  rw [SlotImage.change_eq] at image
  have e : t = raise .callEnded (submit r u) := by
    show endWaiting i st reason s = _
    unfold endWaiting
    rw [waits]
  have record := fun room => submit_pending (s := u) room r
  rw [submit_shape] at e
  have zero : BitVec.twoPow 14 0 = 1 := by decide
  refine ⟨?_, ?_, ?_, ?_, ?_, ?_, fun room => ?_, ?_, ?_⟩
  · have left : SlotKept i s (leaveBacklog i s) := slotKept_of_same rfl
    have first : OnSlot i s u := ⟨rfl, left.trans (slotKept_modSlot i (leaveBacklog i s) fun _ => ⟨rfl, rfl, rfl⟩), rfl⟩
    rw [e]
    exact first.trans (onSlot_of_same rfl rfl)
  all_goals rw [e]
  · rfl
  · show (slotImage u i).state = _
    rw [image]
  · show (slotImage u i).reason = _
    rw [image]
  · show (slotImage u i).endTick = _
    rw [image]
  · show ({ s.attention with event := s.attention.event ||| BitVec.twoPow 14 0 } : Attention) = _
    rw [zero]
  · refine (record room).trans ?_
    show s.journal.pending ++ [{ r with tick := s.tickCount }] = _
    simp only [r, image]
    rfl
  · rfl
  · rfl

/-- WITHDRAW ends a WAITING call (R14). -/
theorem settleRequest_withdrawWaiting {n : Word} {value : Nat} (slot : i < s.area.slots.length) (live : (slotImage s i).state.live = true)
    (of : contextOfSlot s i = none) :
    settleRequest i 1 value (requestTaken i n s) = (endWaiting i .withdrawn .withdrawn (answered i n .done s), []) := by
  show requestWithdraw i (requestTaken i n s) = _
  unfold requestWithdraw
  rw [if_pos (by rw [state_requestTaken slot]; exact live)]
  show endSlotCall i _ _ (answered i n .done s) = _
  unfold endSlotCall
  rw [show contextOfSlot (answered i n .done s) i = none from of]

theorem ReadsSlot.withdrawsWaiting {data : List Byte} {w : Waiting} (r : ReadsSlot i s)
    (post : (readHostPart data).postNumber = (slotImage s i).takenPost)
    (new : (readHostPart data).requestNumber ≠ (slotImage s i).takenRequest) (used : (slotImage s i).state ≠ .empty)
    (code : (readHostPart data).requestCode = 1) (live : (slotImage s i).state.live = true) (of : contextOfSlot s i = none)
    (waits : s.calls.backlog.find? (fun v => v.slot == i) = some w) :
    ∃ t, Becomes i data s t ∧ Done i (readHostPart data).requestNumber s t
      ∧ t.calls = { s.calls with backlog := s.calls.backlog.filter fun v => v.slot != i }
      ∧ (slotImage t i).state = .withdrawn ∧ (slotImage t i).reason = .withdrawn ∧ (slotImage t i).endTick = s.tickCount
      ∧ t.attention = { s.attention with event := s.attention.event ||| 1 }
      ∧ (hasRoom s 1 → t.journal.pending = s.journal.pending ++ [{ blankRecord .withdrawn with
        tick := s.tickCount, zone := w.zone, slot := some w.slot, callNumber := w.callNumber, origin := w.origin
        detail1 := Reason.withdrawn.code, detail2 := (slotImage s i).rung * 256 + (slotImage s i).pass }]) := by
  let a := answered i (readHostPart data).requestNumber .done s
  obtain ⟨-, length⟩ := answered_eq i (readHostPart data).requestNumber .done s
  have image : slotImage a i = _ := slotImage_answered .done r.slot new
  obtain ⟨onSlot, calls, state, reason, ended, attention, record, engine, window⟩ :=
    endWaiting_spec (s := a) .withdrawn .withdrawn (by rw [length]; exact r.slot) waits
  rw [image] at record
  have take : takeHostPart i (readHostPart data) (areaDone s) = (endWaiting i .withdrawn .withdrawn a, []) := by
    rw [takeHostPart_request post new used, code, settleRequest_withdrawWaiting r.slot live of]
  obtain ⟨becomes, done⟩ := r.done new take (onSlot.agenda.trans r.agenda) (by decide) (.nil _) onSlot engine window
  exact ⟨_, becomes, done, calls, state, reason, ended, attention, record⟩

/-- RAISE of a valid value: the call's present severity becomes it (R18). -/
theorem settleRequest_raise {value : Nat} (of : contextOfSlot s i = some c) (some : value ≠ 0) (less : value < (context s c).severity) :
    settleRequest i 5 value s = (modContext c (fun k => { k with severity := value }) (setResult i .done s),
      if value = 1 then ((context s c).accepter.map fun m => Task.dropBreakIn m).toList else []) := by
  show requestRaise i value s = _
  unfold requestRaise presentSeverity
  rw [of]
  dsimp only
  rw [if_neg (by omega), show contextOfSlot (setResult i .done s) i = Option.some c from of]
  rfl

theorem ReadsSlot.raises {data : List Byte} (r : ReadsSlot i s) (post : (readHostPart data).postNumber = (slotImage s i).takenPost)
    (new : (readHostPart data).requestNumber ≠ (slotImage s i).takenRequest) (used : (slotImage s i).state ≠ .empty)
    (code : (readHostPart data).requestCode = 5) (of : contextOfSlot s i = some c) (some : (readHostPart data).requestValue ≠ 0)
    (less : (readHostPart data).requestValue < (context s c).severity)
    (nobody : (readHostPart data).requestValue ≠ 1 ∨ (context s c).accepter = none) :
    ∃ t, Becomes i data s t
      ∧ slotImage t i = { slotImage s i with
        takenRequest := (readHostPart data).requestNumber, result := .done, dirty := true, touched := true }
      ∧ (∀ j, j ≠ i → slotImage t j = slotImage s j)
      ∧ t.calls = { s.calls with
        contexts := s.calls.contexts.modify c fun k => { k with severity := (readHostPart data).requestValue } }
      ∧ recomputeLamps t = t ∧ t.attention = s.attention ∧ t.journal = s.journal := by
  let a := answered i (readHostPart data).requestNumber .done s
  have none : (if (readHostPart data).requestValue = 1
      then ((context s c).accepter.map fun m => Task.dropBreakIn m).toList else []) = [] := by
    rcases nobody with h | h <;> simp [h]
  let v := modContext c (fun k => { k with severity := (readHostPart data).requestValue }) a
  have take : takeHostPart i (readHostPart data) (areaDone s) = (v, []) := by
    rw [takeHostPart_request post new used, code, settleRequest_raise (s := requestTaken i _ s) of some less]
    exact congrArg (_, ·) none
  have images (j : Nat) : slotImage (nextSlotRead i v) j = slotImage a j :=
    (slotImage_nextSlotRead i v j).trans (slotImage_modContext ..)
  have image : slotImage a i = _ := slotImage_answered .done r.slot new
  have rest (j : Nat) (hj : j ≠ i) : slotImage a j = slotImage s j := slotImage_answered_ne _ _ hj s
  obtain ⟨calls, attention, journal⟩ := nextSlotRead_same i v
  exact ⟨nextSlotRead i v, r.becomes take r.agenda (by decide) (.nil _) rfl rfl rfl, (images i).trans image,
    fun j hj => (images j).trans (rest j hj), calls, recomputeLamps_nextSlotRead i v, attention, journal⟩

/-- RAISE of a WAITING call: its entry takes the place of its new severity (R11, R18). -/
theorem ReadsSlot.raisesWaiting {data : List Byte} {w : Waiting} (r : ReadsSlot i s)
    (post : (readHostPart data).postNumber = (slotImage s i).takenPost)
    (new : (readHostPart data).requestNumber ≠ (slotImage s i).takenRequest) (used : (slotImage s i).state ≠ .empty)
    (code : (readHostPart data).requestCode = 5) (of : contextOfSlot s i = none)
    (waits : s.calls.backlog.find? (fun v => v.slot == i) = some w) (some : (readHostPart data).requestValue ≠ 0)
    (less : (readHostPart data).requestValue < w.severity) :
    ∃ t, Becomes i data s t
      ∧ slotImage t i = { slotImage s i with
        takenRequest := (readHostPart data).requestNumber, result := .done, dirty := true, touched := true }
      ∧ (∀ j, j ≠ i → slotImage t j = slotImage s j) ∧ t.calls.contexts = s.calls.contexts
      ∧ t.calls.backlog = placeWaiting { w with severity := (readHostPart data).requestValue }
        (s.calls.backlog.filter fun v => v.slot != i)
      ∧ t.attention = s.attention ∧ t.journal = s.journal := by
  let a := answered i (readHostPart data).requestNumber .done s
  have waitsA : a.calls.backlog.find? (fun v => v.slot == i) = Option.some w := waits
  let calls : CallEngine := { s.calls with
    backlog := placeWaiting { w with severity := (readHostPart data).requestValue } (s.calls.backlog.filter fun v => v.slot != i) }
  have raised : raiseWaiting i (readHostPart data).requestValue a = { a with calls := calls } := by
    unfold raiseWaiting
    rw [waitsA]
    rfl
  have take : takeHostPart i (readHostPart data) (areaDone s) = (raiseWaiting i (readHostPart data).requestValue a, []) := by
    rw [takeHostPart_request post new used, code]
    show requestRaise i _ (requestTaken i _ s) = _
    unfold requestRaise presentSeverity
    rw [show contextOfSlot (requestTaken i (readHostPart data).requestNumber s) i = Option.none from of]
    dsimp only
    rw [show (requestTaken i (readHostPart data).requestNumber s).calls.backlog.find? (fun v => v.slot == i) = Option.some w from waits]
    dsimp only [Option.map_some]
    rw [if_neg (by omega),
      show contextOfSlot (setResult i .done (requestTaken i (readHostPart data).requestNumber s)) i = Option.none from of]
    rfl
  rw [raised] at take
  have images (j : Nat) : slotImage (nextSlotRead i { a with calls := calls }) j = slotImage a j :=
    (slotImage_nextSlotRead i _ j).trans rfl
  exact ⟨_, r.becomes take r.agenda (by decide) (.nil _) rfl rfl rfl, (images i).trans (slotImage_answered .done r.slot new),
    fun j hj => (images j).trans (slotImage_answered_ne _ _ hj s), rfl, rfl, rfl, rfl⟩

end Sys2Proof.Machine

/-! # Proofs: posts, admission and the backlog (R5 to R12) -/

namespace Sys2Proof.Machine

variable {c i : Nat} {s t u : State} {h : HostPart}

/-! ## The checks and the order of the backlog -/

theorem ladderUsable_iff (tables : Tables) (n : Nat) :
    ladderUsable tables n = true ↔ n ≤ 31 ∧ ∃ l, tables.ladders[n]? = some l ∧ 0 < l.rungCount := by
  unfold ladderUsable
  rw [Bool.and_eq_true, decide_eq_true_eq, Nat.lt_succ_iff]
  cases tables.ladders[n]? <;> simp

theorem zoneEnabled_iff (tables : Tables) {z : Nat} (h : z ≠ 0) :
    zoneEnabled tables z = true ↔ ∃ x, tables.zones[z - 1]? = some x ∧ x.enabled = true := by
  unfold zoneEnabled
  rw [Bool.and_eq_true, bne_iff_ne]
  cases tables.zones[z - 1]? <;> simp [h]

theorem isDuplicate_iff (s : State) (i : Nat) (number : Word) : isDuplicate s i number = true ↔
    (∃ k ∈ s.calls.contexts, k.state ≠ .free ∧ k.callNumber = number ∧ ∃ j, k.slot = some j ∧ j ≠ i)
      ∨ ∃ w ∈ s.calls.backlog, w.callNumber = number ∧ w.slot ≠ i := by
  unfold isDuplicate
  rw [Bool.or_eq_true, List.any_eq_true, List.any_eq_true]
  refine or_congr (exists_congr fun k => and_congr_right fun _ => ?_) (exists_congr fun w => and_congr_right fun _ => ?_)
  · cases k.slot <;> simp [Context.live]
    tauto
  · simp [and_comm]

/-- The checks of a post, in their order (R7). -/
theorem postError_cases (s : State) (i : Nat) (h : HostPart) :
    let severityOk : Prop := h.severity ∈ [1, 2, 3, 4]
    let zoneOk : Prop := h.zone = 0
      ∨ h.zone ∈ List.range' 1 24 ∧ ∃ z, s.roster.tables.zones[h.zone - 1]? = some z ∧ z.enabled = true
    (¬severityOk → postError s i h = some .badSeverity)
      ∧ (severityOk → ¬zoneOk → postError s i h = some .badZone)
      ∧ (severityOk → zoneOk → isDuplicate s i h.callNumber = true → postError s i h = some .duplicate)
      ∧ (severityOk → zoneOk → ¬isDuplicate s i h.callNumber = true → postError s i h = none) := by
  intro severityOk zoneOk
  have severity : severityOk ↔ ¬(h.severity < 1 ∨ 4 < h.severity) := by
    simp only [severityOk, List.mem_cons, List.not_mem_nil, or_false]
    omega
  have zone : zoneOk ↔ ¬(h.zone ≠ 0 ∧ (24 < h.zone ∨ (!zoneEnabled s.roster.tables h.zone) = true)) := by
    by_cases z : h.zone = 0
    · simp [zoneOk, z]
    · simp only [zoneOk, z, false_or, List.mem_range'_1, ← zoneEnabled_iff s.roster.tables z, ne_eq, not_false_eq_true, true_and,
        Bool.not_eq_true', not_or, Bool.not_eq_false]
      exact and_congr_left fun _ => by omega
  unfold postError
  rw [severity, zone]
  refine ⟨fun bad => ?_, fun good bad => ?_, fun good also double => ?_, fun good also single => ?_⟩
  · rw [if_pos (not_not.1 bad)]
  · rw [if_neg good, if_pos (not_not.1 bad)]
  · rw [if_neg good, if_neg also, if_pos double]
  · rw [if_neg good, if_neg also, if_neg single]

/-- A waiting call comes before another: it is more severe, or as severe and earlier (R11). -/
theorem Waiting.before_iff (a b : Waiting) : a.before b = true ↔ a.severity < b.severity
    ∨ a.severity = b.severity ∧ 0 < (b.order - a.order).toNat ∧ (b.order - a.order).toNat < 2147483648 := by
  unfold Waiting.before earlierOrder
  simp

/-- An entry stands before the first one that it comes before, after all those it does not (R11). -/
theorem placeWaiting_split (w : Waiting) (l : List Waiting) : ∃ front back, l = front ++ back
    ∧ placeWaiting w l = front ++ w :: back ∧ (∀ x ∈ front, w.before x ≠ true) ∧ ∀ x, back.head? = some x → w.before x = true := by
  induction l with
  | nil => exact ⟨[], [], rfl, rfl, by simp, by simp⟩
  | cons y l ih =>
    by_cases first : w.before y = true
    · exact ⟨[], y :: l, rfl, if_pos first, by simp, by simpa using first⟩
    · obtain ⟨front, back, e, placed, after, next⟩ := ih
      refine ⟨y :: front, back, by rw [e]; rfl, ?_, ?_, next⟩
      · exact (if_neg first).trans (by rw [placed]; rfl)
      · rintro x hx
        rcases List.mem_cons.1 hx with rfl | hx
        · exact first
        · exact after x hx

theorem length_placeWaiting (w : Waiting) (l : List Waiting) : (placeWaiting w l).length = l.length + 1 :=
  (placeWaiting_perm w l).length_eq

/-- Among take order numbers within half the range from a base, the earlier is the nearer to the base (R11). -/
theorem earlier_iff_nearer {a b base : Word} (ha : (a - base).toNat < 2147483648) (hb : (b - base).toNat < 2147483648) :
    (0 < (b - a).toNat ∧ (b - a).toNat < 2147483648) ↔ (a - base).toNat < (b - base).toNat := by
  bv_omega

/-- A backlog in order stays so when an entry takes its place, while the take order numbers lie within half the range (R11). -/
theorem placeWaiting_sorted {w : Waiting} {l : List Waiting} (base : Word)
    (near : ∀ x ∈ w :: l, (x.order - base).toNat < 2147483648) (other : ∀ x ∈ l, x.order ≠ w.order)
    (sorted : l.Pairwise fun a b => a.before b = true) : (placeWaiting w l).Pairwise fun a b => a.before b = true := by
  have told {a b : Waiting} (ha : a ∈ w :: l) (hb : b ∈ w :: l) : a.before b = true ↔ a.severity < b.severity
      ∨ a.severity = b.severity ∧ (a.order - base).toNat < (b.order - base).toNat := by
    rw [Waiting.before_iff, earlier_iff_nearer (near a ha) (near b hb)]
  have trans {a b d : Waiting} (ha : a ∈ w :: l) (hb : b ∈ w :: l) (hd : d ∈ w :: l) (h : a.before b = true) (g : b.before d = true) :
      a.before d = true := by
    rw [told ha hb] at h
    rw [told hb hd] at g
    rw [told ha hd]
    omega
  have self : w ∈ w :: l := List.mem_cons_self
  have total {x : Waiting} (hx : x ∈ l) (h : w.before x ≠ true) : x.before w = true := by
    have differ : (x.order - base).toNat ≠ (w.order - base).toNat := fun e => other x hx (by
      have := BitVec.eq_of_toNat_eq e
      simpa using this)
    have memX : x ∈ w :: l := List.mem_cons_of_mem _ hx
    rw [ne_eq, told self memX] at h
    rw [told memX self]
    omega
  obtain ⟨front, back, e, placed, after, next⟩ := placeWaiting_split w l
  have mem (x : Waiting) (hx : x ∈ front ∨ x ∈ back) : x ∈ w :: l := List.mem_cons_of_mem _ (by rw [e]; exact List.mem_append.2 hx)
  rw [e, List.pairwise_append] at sorted
  obtain ⟨sortedFront, sortedBack, between⟩ := sorted
  have behind (x : Waiting) (hx : x ∈ back) : w.before x = true := by
    cases back with
    | nil => exact absurd hx List.not_mem_nil
    | cons y rest =>
      have first := next y rfl
      rcases List.mem_cons.1 hx with rfl | hx'
      · exact first
      · exact trans self (mem y (.inr List.mem_cons_self)) (mem x (.inr hx)) first ((List.pairwise_cons.1 sortedBack).1 x hx')
  rw [placed, List.pairwise_append, List.pairwise_cons]
  refine ⟨sortedFront, ⟨behind, sortedBack⟩, fun x hx y hy => ?_⟩
  have before : x.before w = true := total (by rw [e]; exact List.mem_append_left _ hx) (after x hx)
  rcases List.mem_cons.1 hy with rfl | hy
  · exact before
  · exact between x hx y hy

/-! ## A new post -/

/-- The state in which a post is taken: both numbers of the host part are (R5). -/
def postTaken (i : Nat) (h : HostPart) (s : State) : State :=
  modSlot i (fun g => { g with takenPost := h.postNumber, takenRequest := h.requestNumber }) s

theorem postTaken_shape (i : Nat) (h : HostPart) (s : State) :
    postTaken i h s = { s with area := { s.area with slots := (postTaken i h s).area.slots } }
      ∧ (postTaken i h s).area.slots.length = s.area.slots.length :=
  ⟨rfl, List.length_modify ..⟩

theorem slotImage_postTaken (slot : i < s.area.slots.length) (new : h.postNumber ≠ (slotImage s i).takenPost) :
    slotImage (postTaken i h s) i = { slotImage s i with
      takenPost := h.postNumber, takenRequest := h.requestNumber, dirty := true, touched := true } := by
  refine (slotImage_modSlot_same slot _).trans (if_neg fun e => new ?_)
  exact congrArg SlotImage.takenPost e

theorem slotImage_postTaken_ne {j : Nat} (h : HostPart) (other : j ≠ i) (s : State) :
    slotImage (postTaken i h s) j = slotImage s j := slotImage_modSlot_ne other _ s

theorem takeHostPart_post (new : h.postNumber ≠ (slotImage s i).takenPost) :
    ((slotImage s i).state.live = false → takeHostPart i h s = (postTaken i h s, [.takePost i h]))
      ∧ (∀ c, (slotImage s i).state.live = true → contextOfSlot s i = some c →
        takeHostPart i h s = (finishCall c .withdrawn .slotLost (postTaken i h s), [.admitHeads, .takePost i h]))
      ∧ ((slotImage s i).state.live = true → contextOfSlot s i = none →
        takeHostPart i h s = (endWaiting i .withdrawn .slotLost (postTaken i h s), [.takePost i h])) := by
  have e : takeHostPart i h s =
      (let r := if (slotImage s i).state.live then endSlotCall i .withdrawn .slotLost (postTaken i h s) else (postTaken i h s, [])
       (r.1, r.2 ++ [.takePost i h])) := if_pos new
  refine ⟨fun dead => ?_, fun c live of => ?_, fun live of => ?_⟩
  · rw [e, if_neg (by simp [dead])]
    rfl
  · have ends : endSlotCall i .withdrawn .slotLost (postTaken i h s)
        = (finishCall c .withdrawn .slotLost (postTaken i h s), [.admitHeads]) := by
      unfold endSlotCall
      rw [show contextOfSlot (postTaken i h s) i = some c from of]
      exact if_pos (contextOfSlot_some of).2.1
    rw [e, if_pos live, ends]
    rfl
  · have ends : endSlotCall i .withdrawn .slotLost (postTaken i h s) = (endWaiting i .withdrawn .slotLost (postTaken i h s), []) := by
      unfold endSlotCall
      rw [show contextOfSlot (postTaken i h s) i = none from of]
    rw [e, if_pos live, ends]
    rfl

/-- A post that ends the slot's call, SLOT LOST (R6). -/
theorem finishCall_postTaken (of : contextOfSlot s i = some c) :
    isEndedAfter s (finishCall c .withdrawn .slotLost (postTaken i h s)) c .withdrawn .slotLost
      ∧ OnSlot i (postTaken i h s) (finishCall c .withdrawn .slotLost (postTaken i h s)) := by
  obtain ⟨-, live, slot, -⟩ := contextOfSlot_some of
  obtain ⟨-, length⟩ := postTaken_shape i h s
  have liveP : (context (postTaken i h s) c).live = true := live
  have slotP : (context (postTaken i h s) c).slot = some i := slot
  exact ⟨isEndedAfter_withSlots (bus := s.area.bus) length
    (finishCall_ended (.refl _ 0 c (postTaken i h s)) (by decide) liveP rfl (by decide)), finishCall_onSlot _ _ liveP slotP⟩

theorem slotKept_takeHostPart (slot : i < s.area.slots.length) (new : h.postNumber ≠ (slotImage s i).takenPost) :
    SlotKept i (postTaken i h s) (takeHostPart i h s).1 := by
  obtain ⟨asFree, asCall, asWaiting⟩ := takeHostPart_post (i := i) (s := s) (h := h) new
  by_cases live : (slotImage s i).state.live = true
  · cases of : contextOfSlot s i with
    | some c =>
      rw [asCall c live of]
      exact (finishCall_postTaken of).2.kept
    | none =>
      rw [asWaiting live of]
      show SlotKept i _ (endWaiting i .withdrawn .slotLost (postTaken i h s))
      cases waits : s.calls.backlog.find? (fun v => v.slot == i) with
      | some w =>
        obtain ⟨-, length⟩ := postTaken_shape i h s
        exact (endWaiting_spec (s := postTaken i h s) .withdrawn .slotLost (by rw [length]; exact slot) waits).1.kept
      | none =>
        have same : endWaiting i .withdrawn .slotLost (postTaken i h s) = postTaken i h s := by
          unfold endWaiting
          rw [show (postTaken i h s).calls.backlog.find? (fun v => v.slot == i) = none from waits]
        rw [same]
        exact slotKept_of_same rfl
  · rw [asFree (by simpa using live)]
    exact slotKept_of_same rfl

/-- The live call of a slot that is posted again ends, its slot lost, before the post is taken (R6). -/
theorem takeHostPart_posted (slot : i < s.area.slots.length) (new : h.postNumber ≠ (slotImage s i).takenPost) :
    let r := takeHostPart i h s
    (slotImage r.1 i).takenPost = h.postNumber ∧ (slotImage r.1 i).takenRequest = h.requestNumber
    ∧ ((slotImage s i).state.live = false → r.2 = [.takePost i h] ∧ r.1.calls = s.calls ∧ r.1.attention = s.attention
      ∧ (slotImage r.1 i).state = (slotImage s i).state)
    ∧ (∀ c, (slotImage s i).state.live = true → contextOfSlot s i = some c →
      r.2 = [.admitHeads, .takePost i h] ∧ isEndedAfter s r.1 c .withdrawn .slotLost)
    ∧ ∀ w, (slotImage s i).state.live = true → contextOfSlot s i = none →
      s.calls.backlog.find? (fun v => v.slot == i) = some w →
      r.2 = [.takePost i h] ∧ r.1.calls = { s.calls with backlog := s.calls.backlog.filter fun v => v.slot != i }
        ∧ (slotImage r.1 i).state = .withdrawn ∧ (slotImage r.1 i).reason = .slotLost
        ∧ (slotImage r.1 i).endTick = s.tickCount
        ∧ r.1.attention = { s.attention with event := s.attention.event ||| 1 }
        ∧ (hasRoom s 1 → r.1.journal.pending = s.journal.pending ++ [{ blankRecord .withdrawn with
          tick := s.tickCount, zone := w.zone, slot := some w.slot, callNumber := w.callNumber, origin := w.origin
          detail1 := Reason.slotLost.code, detail2 := (slotImage s i).rung * 256 + (slotImage s i).pass }]) := by
  intro r
  have image := slotImage_postTaken slot new
  obtain ⟨-, length⟩ := postTaken_shape i h s
  obtain ⟨asFree, asCall, asWaiting⟩ := takeHostPart_post (i := i) (s := s) (h := h) new
  have waited (w : Waiting) := endWaiting_spec (s := postTaken i h s) (w := w) .withdrawn .slotLost (by rw [length]; exact slot)
  rw [image] at waited
  have kept : SlotKept i (postTaken i h s) r.1 := slotKept_takeHostPart slot new
  have post := kept.takenPost
  have request := kept.takenRequest
  rw [image] at post request
  refine ⟨post, request, fun dead => ?_, fun c live of => ?_, fun w live of waits => ?_⟩
  · show (takeHostPart i h s).2 = _ ∧ (takeHostPart i h s).1.calls = _ ∧ (takeHostPart i h s).1.attention = _
      ∧ (slotImage (takeHostPart i h s).1 i).state = _
    rw [asFree dead, image]
    exact ⟨rfl, rfl, rfl, rfl⟩
  · show (takeHostPart i h s).2 = _ ∧ isEndedAfter s (takeHostPart i h s).1 c .withdrawn .slotLost
    rw [asCall c live of]
    exact ⟨rfl, (finishCall_postTaken of).1⟩
  · show (takeHostPart i h s).2 = _ ∧ _
    obtain ⟨-, calls, state, reason, ended, attention, record, -⟩ := waited w waits
    have e : r = _ := asWaiting live of
    rw [e]
    exact ⟨congrArg Prod.snd (asWaiting live of), calls, state, reason, ended, attention, record⟩

/-! ## What the post comes to -/

/-- A post as the backlog would hold it (R11). -/
def postOf (i : Nat) (h : HostPart) (s : State) : Waiting where
  slot := i
  severity := h.severity
  order := s.area.takeOrder
  callNumber := h.callNumber
  zone := h.zone
  ladder := h.ladder
  origin := h.origin
  text := h.text

/-- The take order count has stepped (R11). -/
def orderTaken (s : State) : State := s.modArea fun a => { a with takeOrder := a.takeOrder + 1 }

theorem takePost_rejected {reason : Reason} (free : slotTaken s i = false) (bad : postError s i h = some reason) :
    takePost i h s = (rejectPost (postOf i h s) reason (orderTaken s), []) := by
  unfold takePost
  rw [if_neg (by simp [free])]
  dsimp only
  rw [show postError (s.modArea fun a => { a with takeOrder := a.takeOrder + 1 }) i h = some reason from bad]
  rfl

/-- A post that has passed the checks is admitted into the lowest FREE context, or waits (R9, R11, R12). -/
theorem takePost_valid (free : slotTaken s i = false) (good : postError s i h = none) : takePost i h s =
    (let p := substituteLadder (postOf i h s) (orderTaken s)
     match s.engine, freeContext p.2 with
     | .running, some c => openCall c (some i) p.1 p.2
     | _, _ => (backlogPost p.1 p.2, [])) := by
  have engine : (substituteLadder (postOf i h s) (orderTaken s)).2.engine = s.engine := by
    unfold substituteLadder
    split
    · rfl
    · exact submit_engine _ _
  unfold takePost
  rw [if_neg (by simp [free])]
  dsimp only
  rw [show postError (s.modArea fun a => { a with takeOrder := a.takeOrder + 1 }) i h = none from good]
  dsimp only
  rfl

theorem SlotImage.dirty_change {g : SlotImage} (f : SlotImage → SlotImage) (dirty : g.dirty = true) :
    (SlotImage.change f g).dirty = true := by
  unfold SlotImage.change
  split
  · exact dirty
  · rfl

/-- The slot image of a REJECTED post (R7). -/
def SlotImage.rejected (reason : Reason) (tick : Tick) (g : SlotImage) : SlotImage :=
  { g with state := .rejected, reason := reason, endTick := tick, tag := none, accepter := none, admitTick := 0 }

theorem rejectPost_eq (w : Waiting) (reason : Reason) (s : State) : ∃ j, rejectPost w reason s
      = { modSlot w.slot (SlotImage.rejected reason s.tickCount) s with
        attention := { s.attention with event := s.attention.event ||| 1 }, journal := j }
    ∧ (hasRoom s 1 → j.pending = s.journal.pending ++ [{ waitingRecord .rejected w with
      tick := s.tickCount, detail1 := reason.code }]) := by
  let u := modSlot w.slot (SlotImage.rejected reason s.tickCount) s
  have zero : BitVec.twoPow 14 0 = 1 := by decide
  refine ⟨(submit { waitingRecord .rejected w with detail1 := reason.code } u).journal, ?_, fun room => submit_pending (s := u) room _⟩
  show raise .callEnded (submit { waitingRecord .rejected w with detail1 := reason.code } u) = _
  rw [submit_shape]
  simp [raise, Cause.mask, Cause.bit, zero, State.modAttention, u]

/-- A post that fails a check is REJECTED, with its record (R7). -/
theorem ReadsSlot.rejects {data : List Byte} {reason : Reason} (r : ReadsSlot i s)
    (new : (readHostPart data).postNumber ≠ (slotImage s i).takenPost) (dead : (slotImage s i).state.live = false)
    (free : slotTaken s i = false) (bad : postError s i (readHostPart data) = some reason) :
    ∃ t, Becomes i data s t
      ∧ (slotImage t i).state = .rejected ∧ (slotImage t i).reason = reason ∧ (slotImage t i).endTick = s.tickCount
      ∧ (slotImage t i).tag = none ∧ (slotImage t i).accepter = none ∧ (slotImage t i).admitTick = 0
      ∧ (slotImage t i).takenPost = (readHostPart data).postNumber ∧ (slotImage t i).takenRequest = (readHostPart data).requestNumber
      ∧ (slotImage t i).dirty = true ∧ (∀ j, j ≠ i → slotImage t j = slotImage s j) ∧ t.calls = s.calls
      ∧ t.attention = { s.attention with event := s.attention.event ||| 1 }
      ∧ (hasRoom s 1 → t.journal.pending = s.journal.pending ++ [{ blankRecord .rejected with
        tick := s.tickCount, zone := (readHostPart data).zone, slot := some i, callNumber := (readHostPart data).callNumber
        origin := (readHostPart data).origin, detail1 := reason.code }]) := by
  generalize hh : readHostPart data = h at *
  let u := postTaken i h (areaDone s)
  have image : slotImage u i = _ := slotImage_postTaken (s := areaDone s) r.slot new
  obtain ⟨j, e, record⟩ := rejectPost_eq (postOf i h u) reason (orderTaken u)
  have length : i < (orderTaken u).area.slots.length := by
    show i < (s.area.slots.modify i _).length
    rw [List.length_modify]
    exact r.slot
  have shown : slotImage (rejectPost (postOf i h u) reason (orderTaken u)) i
      = SlotImage.change (SlotImage.rejected reason s.tickCount) (slotImage u i) := by
    rw [e]
    exact slotImage_modSlot_same length _
  have rest (k : Nat) (hk : k ≠ i) : slotImage (rejectPost (postOf i h u) reason (orderTaken u)) k = slotImage s k := by
    rw [e]
    exact (slotImage_modSlot_ne hk _ (orderTaken u)).trans (slotImage_postTaken_ne h hk (areaDone s))
  have dirty : (slotImage (rejectPost (postOf i h u) reason (orderTaken u)) i).dirty = true := by
    rw [shown]
    exact SlotImage.dirty_change _ (by rw [image])
  have take : takeHostPart i (readHostPart data) (areaDone s) = (u, [.takePost i h]) := by
    rw [hh]
    exact (takeHostPart_post (s := areaDone s) new).1 dead
  have runs : RunsTo 1 [.takePost i h] u (rejectPost (postOf i h u) reason (orderTaken u)) :=
    .step (takePost_rejected (s := u) free bad) (.nil _)
  rw [SlotImage.change_eq, image] at shown
  generalize rejectPost (postOf i h u) reason (orderTaken u) = t at *
  refine ⟨nextSlotRead i t, r.becomes take r.agenda (by decide) runs (by rw [e]; rfl) (by rw [e]; rfl) (by rw [e]; rfl), ?_⟩
  simp only [slotImage_nextSlotRead]
  refine ⟨by rw [shown]; rfl, by rw [shown]; rfl, by rw [shown]; rfl, by rw [shown]; rfl, by rw [shown]; rfl, by rw [shown]; rfl,
    by rw [shown]; rfl, by rw [shown]; rfl, dirty, rest, ?_, ?_, fun room => ?_⟩
  · show t.calls = _
    rw [e]
    rfl
  · show t.attention = _
    rw [e]
    rfl
  · show t.journal.pending = _
    rw [e]
    exact record room

/-- A ladder that cannot be walked is replaced by ladder 0, with the record LADDER SUBSTITUTED (R8). -/
theorem substituteLadder_eq (w : Waiting) (s : State) : ∃ j,
    substituteLadder w s = ({ w with ladder := if ladderUsable s.roster.tables w.ladder then w.ladder else 0 }, { s with journal := j })
    ∧ Logs 1 s { s with journal := j }
    ∧ (hasRoom s 1 → j.pending = s.journal.pending ++ (if ladderUsable s.roster.tables w.ladder then []
      else [{ waitingRecord .ladderSubstituted w with tick := s.tickCount, detail1 := w.ladder }])) := by
  unfold substituteLadder
  by_cases usable : ladderUsable s.roster.tables w.ladder = true
  · rw [if_pos usable, if_pos usable, if_pos usable]
    exact ⟨s.journal, rfl, .refl 1 s, fun _ => (List.append_nil _).symm⟩
  · rw [if_neg usable, if_neg usable, if_neg usable]
    have logs := logs_submit { waitingRecord .ladderSubstituted w with detail1 := w.ladder } s
    have record := fun room => submit_pending (s := s) room { waitingRecord .ladderSubstituted w with detail1 := w.ladder }
    rw [submit_shape] at logs ⊢
    exact ⟨_, rfl, logs, record⟩

/-- The slot image of a WAITING call (R11). -/
def SlotImage.waits (g : SlotImage) : SlotImage :=
  { g with
    state := .waiting, tag := none, accepter := none, rung := 0, pass := 0, admitTick := 0, acceptTick := 0, arriveTick := 0
    endTick := 0, reason := .none, result := .none }

theorem backlogPost_eq (w : Waiting) (s : State) : ∃ j, backlogPost w s
      = { modSlot w.slot SlotImage.waits s with
        calls := { s.calls with backlog := placeWaiting w s.calls.backlog }, journal := j }
    ∧ (hasRoom s 1 → j.pending = s.journal.pending ++ [{ waitingRecord .waiting w with
      tick := s.tickCount, detail1 := w.severity, detail2 := s.calls.backlog.length + 1 }]) := by
  let u : State := { modSlot w.slot SlotImage.waits s with calls := { s.calls with backlog := placeWaiting w s.calls.backlog } }
  let r := { waitingRecord .waiting w with detail1 := w.severity, detail2 := (placeWaiting w s.calls.backlog).length }
  have e : backlogPost w s = submit r u := rfl
  refine ⟨(submit r u).journal, by rw [e, submit_shape], fun room => ?_⟩
  refine (submit_pending (s := u) room r).trans ?_
  simp only [r, length_placeWaiting]
  rfl

/-- A valid post waits in the backlog while the engine is PAUSED or no context is FREE (R11). -/
theorem ReadsSlot.backlogs {data : List Byte} (r : ReadsSlot i s)
    (new : (readHostPart data).postNumber ≠ (slotImage s i).takenPost) (dead : (slotImage s i).state.live = false)
    (free : slotTaken s i = false) (good : postError s i (readHostPart data) = none)
    (full : s.engine = .paused ∨ ∀ c, c < 64 → (context s c).state ≠ .free) :
    let h := readHostPart data
    let usable := ladderUsable s.roster.tables h.ladder
    let w : Waiting := { slot := i, severity := h.severity, order := s.area.takeOrder, callNumber := h.callNumber, zone := h.zone
                         ladder := if usable then h.ladder else 0, origin := h.origin, text := h.text }
    let ofSlot : RecordKind → JournalRecord := fun kind => { blankRecord kind with
      tick := s.tickCount, zone := h.zone, slot := some i, callNumber := h.callNumber, origin := h.origin }
    ∃ t : State, Becomes i data s t ∧ t.calls = { s.calls with backlog := placeWaiting w s.calls.backlog }
      ∧ t.area.takeOrder = s.area.takeOrder + 1 ∧ (∀ j, j ≠ i → slotImage t j = slotImage s j) ∧ t.attention = s.attention
      ∧ (let g := slotImage t i
        g.state = .waiting ∧ g.tag = none ∧ g.accepter = none ∧ g.rung = 0 ∧ g.pass = 0 ∧ g.admitTick = 0 ∧ g.acceptTick = 0
          ∧ g.arriveTick = 0 ∧ g.endTick = 0 ∧ g.reason = .none ∧ g.result = .none
          ∧ g.takenPost = h.postNumber ∧ g.takenRequest = h.requestNumber)
      ∧ (s.journal.state = .writing → s.area.memoryFault = false → s.journal.pending.length < 63 →
        t.journal.pending = s.journal.pending
          ++ (if usable then [] else [{ ofSlot .ladderSubstituted with detail1 := h.ladder }])
          ++ [{ ofSlot .waiting with detail1 := h.severity, detail2 := s.calls.backlog.length + 1 }]) := by
  generalize hh : readHostPart data = h at *
  intro h' usable w ofSlot
  let u := postTaken i h (areaDone s)
  have image : slotImage u i = _ := slotImage_postTaken (s := areaDone s) r.slot new
  obtain ⟨j, substituted, logs, first⟩ := substituteLadder_eq (postOf i h u) (orderTaken u)
  let v : State := { orderTaken u with journal := j }
  obtain ⟨j', e, second⟩ := backlogPost_eq w v
  have length : i < v.area.slots.length := by
    show i < (s.area.slots.modify i _).length
    rw [List.length_modify]
    exact r.slot
  have posts : takePost i h u = (backlogPost w v, []) := by
    rw [takePost_valid (s := u) free good, substituted]
    dsimp only
    rcases full with paused | full
    · rw [show u.engine = .paused from paused]
      rfl
    · have none : freeContext v = none := by
        refine List.find?_eq_none.2 fun c hc => ?_
        have busy : (context v c).state ≠ .free := full c (List.mem_range.1 hc)
        simpa [Context.live] using busy
      rw [none]
      cases u.engine <;> rfl
  have shown : slotImage (backlogPost w v) i = SlotImage.change SlotImage.waits (slotImage u i) := by
    rw [e]
    exact slotImage_modSlot_same length _
  have rest (k : Nat) (hk : k ≠ i) : slotImage (backlogPost w v) k = slotImage s k := by
    rw [e]
    exact (slotImage_modSlot_ne hk _ v).trans (slotImage_postTaken_ne h hk (areaDone s))
  have take : takeHostPart i (readHostPart data) (areaDone s) = (u, [.takePost i h]) := by
    rw [hh]
    exact (takeHostPart_post (s := areaDone s) new).1 dead
  rw [SlotImage.change_eq, image] at shown
  generalize backlogPost w v = t at *
  refine ⟨nextSlotRead i t, r.becomes take r.agenda (by decide) (.step posts (.nil _)) (by rw [e]; rfl) (by rw [e]; rfl)
    (by rw [e]; rfl), ?_⟩
  simp only [slotImage_nextSlotRead]
  refine ⟨?_, ?_, rest, ?_, ?_, fun writing clear room => ?_⟩
  · show t.calls = _
    rw [e]
    rfl
  · show t.area.takeOrder = _
    rw [e]
    rfl
  · show t.attention = _
    rw [e]
    rfl
  · rw [shown]
    exact ⟨rfl, rfl, rfl, rfl, rfl, rfl, rfl, rfl, rfl, rfl, rfl, rfl, rfl⟩
  · have two : hasRoom (orderTaken u) (1 + 1) := ⟨writing, clear, by show s.journal.pending.length + 2 ≤ 64; omega⟩
    show t.journal.pending = _
    rw [e]
    refine (second (logs.hasRoom two)).trans ?_
    rw [first ⟨writing, clear, by show s.journal.pending.length + 1 ≤ 64; omega⟩]
    rfl

/-- The lowest FREE context. -/
theorem freeContext_some (low : c < 64) (free : (context s c).state = .free) (used : ∀ d, d < c → (context s d).state ≠ .free) :
    freeContext s = some c :=
  List.find?_range_eq_some.2 ⟨by simp [Context.live, free], List.mem_range.2 low, fun d hd => by simpa [Context.live] using used d hd⟩

/-- The slot image of a call that has just been admitted: the ends of the call before it are gone (R2, R10). -/
def SlotImage.opened (g : SlotImage) : SlotImage := { g with endTick := 0, reason := .none, result := .none }

theorem openCall_eq (c i : Nat) (w : Waiting) (s : State) :
    let opened := modContext c (Context.admitted c (some i) w s.tickCount) s
    let shown := modSlot i SlotImage.opened (showContext c opened)
    let k := context shown c
    openCall c (some i) w s
      = (submit { callRecord .admitted k with detail1 := k.severity, detail2 := k.ladder } shown, [.enterRung c 0]) := rfl

/-- A call that takes a context (R9, R10). -/
theorem openCall_spec (w : Waiting) (slot : i < s.area.slots.length) (hc : c < s.calls.contexts.length) :
    let k := (context s c).admitted c (some i) w s.tickCount
    ∃ slots j, openCall c (some i) w s = ({ s with
        calls := { s.calls with contexts := s.calls.contexts.modify c (Context.admitted c (some i) w s.tickCount) }
        area := { s.area with slots := slots }, journal := j }, [.enterRung c 0])
      ∧ context (openCall c (some i) w s).1 c = k ∧ (∀ d, d ≠ c → context (openCall c (some i) w s).1 d = context s d)
      ∧ (∃ dirty touched, slotImage (openCall c (some i) w s).1 i
        = { SlotImage.opened (SlotImage.shown k (slotImage s i)) with dirty := dirty, touched := touched })
      ∧ (∀ d, d ≠ i → slotImage (openCall c (some i) w s).1 d = slotImage s d)
      ∧ (hasRoom s 1 → j.pending = s.journal.pending ++ [{ callRecord .admitted k with
        tick := s.tickCount, detail1 := k.severity, detail2 := k.ladder }]) := by
  intro k
  let opened := modContext c (Context.admitted c (some i) w s.tickCount) s
  have ctx : context opened c = k := (context_modContext c _ s).trans (if_pos hc)
  have shows : showContext c opened = modSlot i (SlotImage.shown k) opened := by
    rw [← ctx]
    exact showContext_some (by rw [ctx]; rfl)
  let shown := modSlot i SlotImage.opened (modSlot i (SlotImage.shown k) opened)
  have ctxS : context shown c = k := ctx
  have e := openCall_eq c i w s
  dsimp only at e
  rw [show modContext c (Context.admitted c (some i) w s.tickCount) s = opened from rfl, shows,
    show context (modSlot i SlotImage.opened (modSlot i (SlotImage.shown k) opened)) c = k from ctx] at e
  have record := fun room => submit_pending (s := shown) room { callRecord .admitted k with detail1 := k.severity, detail2 := k.ladder }
  rw [show modSlot i SlotImage.opened (modSlot i (SlotImage.shown k) opened) = shown from rfl, submit_shape] at e
  refine ⟨shown.area.slots, (submit { callRecord .admitted k with detail1 := k.severity, detail2 := k.ladder } shown).journal, e, ?_,
    fun d hd => ?_, ?_, fun d hd => ?_, record⟩
  all_goals rw [e]
  · exact ctxS
  · exact context_modContext_ne hd _ s
  · have first : slotImage (modSlot i (SlotImage.shown k) opened) i = SlotImage.change (SlotImage.shown k) (slotImage s i) :=
      slotImage_modSlot_same (s := opened) slot _
    have second : slotImage shown i = SlotImage.change SlotImage.opened (slotImage (modSlot i (SlotImage.shown k) opened) i) := by
      refine slotImage_modSlot_same (s := modSlot i (SlotImage.shown k) opened) ?_ _
      show i < (s.area.slots.modify i _).length
      rw [List.length_modify]
      exact slot
    refine ⟨(slotImage shown i).dirty, (slotImage shown i).touched, ?_⟩
    show slotImage shown i = _
    rw [second]
    refine (SlotImage.change_eq _ _).trans ?_
    rw [first, SlotImage.change_eq (SlotImage.shown k)]
    rfl
  · exact (slotImage_modSlot_ne hd _ _).trans (slotImage_modSlot_ne hd _ opened)

/-- A valid post takes the lowest FREE context while the engine is RUNNING (R9, R10). -/
theorem takePost_admits (slot : i < s.area.slots.length) (notTaken : slotTaken s i = false) (good : postError s i h = none)
    (running : s.engine = .running) (low : c < 64) (hc : c < s.calls.contexts.length) (free : (context s c).state = .free)
    (used : ∀ d, d < c → (context s d).state ≠ .free) :
    let r := takePost i h s
    let ladder := if ladderUsable s.roster.tables h.ladder then h.ladder else 0
    let tag := (context s c).reuse * 128 + c
    let k : Context := { Context.empty with
      state := .paging, reuse := (context s c).reuse, slot := some i, callNumber := h.callNumber, zone := h.zone
      origin := h.origin, text := h.text, severity := h.severity, ladder := ladder, tag := tag, admitTick := s.tickCount }
    r.2 = [.enterRung c 0] ∧ context r.1 c = k ∧ (∀ d, d ≠ c → context r.1 d = context s d)
    ∧ r.1.calls.backlog = s.calls.backlog ∧ r.1.area.takeOrder = s.area.takeOrder + 1 ∧ r.1.attention = s.attention
    ∧ (let g := slotImage r.1 i
      g.state = .paging ∧ g.tag = some tag ∧ g.rung = 0 ∧ g.pass = 0 ∧ g.accepter = none ∧ g.site = .none
        ∧ g.admitTick = s.tickCount ∧ g.acceptTick = 0 ∧ g.arriveTick = 0 ∧ g.endTick = 0 ∧ g.reason = .none ∧ g.result = .none
        ∧ g.takenPost = (slotImage s i).takenPost)
    ∧ (∀ j, j ≠ i → slotImage r.1 j = slotImage s j)
    ∧ (s.journal.state = .writing → s.area.memoryFault = false → s.journal.pending.length < 63 →
      r.1.journal.pending = s.journal.pending
        ++ (if ladderUsable s.roster.tables h.ladder then [] else [{ blankRecord .ladderSubstituted with
          tick := s.tickCount, zone := h.zone, slot := some i, callNumber := h.callNumber, origin := h.origin
          detail1 := h.ladder }])
        ++ [{ blankRecord .admitted with
          tick := s.tickCount, zone := h.zone, slot := some i, tag := some tag, callNumber := h.callNumber, origin := h.origin
          detail1 := h.severity, detail2 := ladder }]) := by
  obtain ⟨j, substituted, logs, first⟩ := substituteLadder_eq (postOf i h s) (orderTaken s)
  let w : Waiting := { postOf i h s with ladder := if ladderUsable s.roster.tables h.ladder then h.ladder else 0 }
  let v : State := { orderTaken s with journal := j }
  have admits : takePost i h s = openCall c (some i) w v := by
    have lowest : freeContext v = some c := freeContext_some low free used
    rw [takePost_valid notTaken good, substituted, running]
    dsimp only
    rw [show freeContext { orderTaken s with journal := j } = some c from lowest]
    rfl
  obtain ⟨slots, j', e, ctx, others, ⟨dirty, touched, image⟩, images, second⟩ := openCall_spec (s := v) (c := c) w slot hc
  rw [admits]
  refine ⟨congrArg Prod.snd e, ctx, others, ?_, ?_, ?_, ?_, images, fun writing clear room => ?_⟩
  · rw [e]
    rfl
  · rw [e]
    rfl
  · rw [e]
    rfl
  · dsimp only
    rw [image]
    exact ⟨rfl, rfl, rfl, rfl, rfl, rfl, rfl, rfl, rfl, rfl, rfl, rfl, rfl⟩
  · have two : hasRoom (orderTaken s) (1 + 1) := ⟨writing, clear, by show s.journal.pending.length + 2 ≤ 64; omega⟩
    rw [e]
    refine (second (logs.hasRoom two)).trans ?_
    rw [show v.journal.pending = _ from first ⟨writing, clear, by show s.journal.pending.length + 1 ≤ 64; omega⟩]
    rfl

end Sys2Proof.Machine

/-! # Proofs: the host part of a slot, settled -/

namespace Sys2Proof.Machine

/-- Settles O37: the host part of a slot case by case, each of them an event of its own (`ReadsSlot`). -/
theorem slotReadTakesPostsAndRequests : Obligations.SlotReadTakesPostsAndRequests := by
  refine ⟨fun s x i data agenda running ending bus op slot count => ?_, fun s i h slot new => ?_,
    fun s i c h slot notTaken good running low hc free used => ?_, fun s i h => ?_, fun tables n => ladderUsable_iff tables n,
    fun w l => ?_, fun s i c value of => ?_⟩
  · have r : ReadsSlot i s := ⟨agenda, running, ending, ⟨x, bus, op⟩, slot, count⟩
    intro h old becomes others
    refine ⟨slotHostReadDone_eq data ending bus op, fun post request => ?_, fun reason new dead free bad => ?_,
      fun new dead free good full => ?_, fun post new used => ?_⟩
    · exact ⟨_, r.becomes (takeHostPart_nothing post request) agenda (by decide) (.nil _) rfl rfl rfl, rfl, rfl, rfl, rfl, rfl⟩
    · exact r.rejects new dead free bad
    · exact r.backlogs new dead free good full
    · intro answer done
      refine ⟨fun result is => ?_, fun c nobody of => ⟨fun code live => ?_, fun code => ?_, fun code held last spent => ?_⟩,
        fun w code live of waits => ?_, fun c code of paging => ?_, fun c code of some less unheard => ?_,
        fun w code of waits some less => ?_⟩
      · exact r.answersAtOnce post new used is
      · exact r.endsCall new of nobody (by decide) ((takeHostPart_request post new used).trans (by
          rw [code]
          exact settleRequest_withdraw slot live of))
      · exact r.endsCall new of nobody (by decide) ((takeHostPart_request post new used).trans (by
          rw [code]
          exact settleRequest_close of))
      · exact r.releaseExhausts post new used code of nobody held last spent
      · exact r.withdrawsWaiting post new used code live of waits
      · exact r.advances post new used code of paging
      · exact r.raises post new used code of some less unheard
      · exact r.raisesWaiting post new used code of waits some less
  · exact takeHostPart_posted slot new
  · exact takePost_admits slot notTaken good running low hc free used
  · intro severityOk zoneOk isDouble
    obtain ⟨severity, zone, double, single⟩ := postError_cases s i h
    rw [isDuplicate_iff] at double single
    exact ⟨severity, zone, double, single⟩
  · intro before
    have told (a b : Waiting) : a.before b = true ↔ before a b := Waiting.before_iff a b
    refine ⟨?_, fun base near other sorted => ?_⟩
    · obtain ⟨front, back, e, placed, after, next⟩ := placeWaiting_split w l
      exact ⟨front, back, e, placed, fun x hx => (told w x).not.1 (after x hx), fun x hx => (told w x).1 (next x hx)⟩
    · exact (placeWaiting_sorted base near other (sorted.imp fun h => (told _ _).2 h)).imp fun h => (told _ _).1 h
  · obtain ⟨-, live, -, hc⟩ := contextOfSlot_some of
    refine ⟨fun held => ?_, fun paging => settleRequest_advance of paging, fun m accepter severe => ?_⟩
    · rw [settleRequest_release of held]
      exact ⟨context_releasedCall live, pending_releasedCall i c, rfl⟩
    · rw [settleRequest_raise of (by decide) severe, accepter]
      exact ⟨(context_modContext c _ _).trans (if_pos hc), rfl⟩

end Sys2Proof.Machine

/-! # Proofs: the paging of members by a rung (R31, R33, R35, R36, R39)

What it leaves that members have been made current one after another (`Pages`), whatever the target kind of the rung that does so. -/

namespace Sys2Proof.Machine

variable {c m : Nat} {l : List Nat} {s t u : State}

/-! ## The entry of a paged member -/

/-- The entry of a member as a page leaves it (R31, R57). -/
def Contact.IsPaged (breakIn : Bool) (rung pass : Nat) (e : Contact) : Prop :=
  e.current = true ∧ e.received = false ∧ e.cancelled = false ∧ e.breakIn = breakIn ∧ e.rung = rung ∧ e.pass = pass
    ∧ e.remind = .stopped ∧ e.remindCount = 0

/-- The member is current in a context, and every entry of the member is as a page leaves it. -/
def Context.HasPaged (m : Nat) (breakIn : Bool) (rung pass : Nat) (k : Context) : Prop :=
  k.isCurrent m = true ∧ ∀ e ∈ k.contacted, e.member = m → e.IsPaged breakIn rung pass

theorem Context.HasPaged.contact {b : Bool} {rung pass : Nat} {k : Context} (h : k.HasPaged m b rung pass) :
    ∃ e, k.contact m = some e ∧ e.IsPaged b rung pass := by
  obtain ⟨current, entries⟩ := h
  obtain ⟨x, mem, is⟩ := List.any_eq_true.1 current
  simp only [Bool.and_eq_true] at is
  obtain ⟨e, he⟩ := Option.isSome_iff_exists.1 (List.find?_isSome (p := (·.member == m)).2 ⟨x, mem, is.1⟩)
  exact ⟨e, he, entries e (List.mem_of_find?_eq_some he) (by simpa using List.find?_some he)⟩

/-- A list that another member's entry joins has no entries that it had not. -/
theorem Context.mem_ensureContact_ne {k : Context} {x : Nat} {e : Contact} (h : e ∈ (k.ensureContact x).contacted) (ne : e.member ≠ x) :
    e ∈ k.contacted := by
  have old {l : List Contact} (sub : l ⊆ k.contacted) (h : e ∈ l ++ [Contact.blank x k.rung k.pass]) : e ∈ k.contacted := by
    rcases List.mem_append.1 h with h | h
    · exact sub h
    · exact absurd (by rw [List.mem_singleton.1 h]; rfl) ne
  unfold Context.ensureContact at h
  split at h
  · exact h
  · unfold Context.addContact at h
    split at h
    · exact old (List.Subset.refl _) h
    · split at h
      · exact old (List.eraseIdx_subset) h
      · exact old (List.Subset.refl _) h

theorem Context.hasPaged_markCurrent (m : Nat) (b : Bool) (k : Context) : (k.markCurrent m b).HasPaged m b k.rung k.pass := by
  refine ⟨by rw [isCurrent_markCurrent, if_pos rfl], fun e he is => ?_⟩
  obtain ⟨x, -, rfl⟩ := List.mem_map.1 he
  split
  · exact ⟨rfl, rfl, rfl, rfl, rfl, rfl, rfl, rfl⟩
  · rename_i other
    rw [if_neg other] at is
    exact absurd is other

/-- The page of another member leaves a paged member's entries. -/
theorem Context.HasPaged.markCurrent {b : Bool} {rung pass : Nat} {k : Context} (h : k.HasPaged m b rung pass) {x : Nat} (ne : m ≠ x)
    (breakIn : Bool) : (k.markCurrent x breakIn).HasPaged m b rung pass := by
  obtain ⟨current, entries⟩ := h
  refine ⟨by rw [isCurrent_markCurrent, if_neg ne, current], fun e he is => ?_⟩
  obtain ⟨y, mem, rfl⟩ := List.mem_map.1 he
  by_cases same : y.member = x
  · rw [if_pos same] at is
    exact absurd (is.symm.trans same) ne
  · rw [if_neg same] at is ⊢
    exact entries y (Context.mem_ensureContact_ne mem same) is

/-! ## The delivery records of a hand-over -/

theorem deliveryOf_isSome_iff (s : State) (key : RecordKey) : (deliveryOf s key).isSome = true ↔ key ∈ keysOf s := by
  simp [deliveryOf, keysOf, List.find?_isSome]

/-- To withdraw the record of a key leaves the records of the others. -/
theorem mem_keysOf_withdrawKey (ok : s.dispatcher.ok) {key other : RecordKey} (h : other ∈ keysOf s) (ne : other ≠ key) :
    other ∈ keysOf (withdrawKey key s) := by
  obtain ⟨-, serials, -⟩ := ok
  obtain ⟨x, mem, rfl⟩ := List.mem_map.1 h
  unfold withdrawKey
  cases found : deliveryOf s key with
  | none => exact h
  | some r =>
    have is : r.key = key := by simpa using List.find?_some found
    refine List.mem_map.2 ⟨x, List.mem_filter.2 ⟨mem, ?_⟩, rfl⟩
    rw [bne_iff_ne]
    intro same
    rw [List.inj_on_of_nodup_map serials mem (List.mem_of_find?_eq_some found) same, is] at ne
    exact ne rfl

/-- A hand-over leaves the record of every other key (R83). -/
theorem keysOf_handOver (kind : DeliveryKind) (c m : Nat) (breakIn : Bool) (ok : s.dispatcher.ok) :
    keysOf s ⊆ keysOf (handOver kind c m breakIn s) := by
  intro key old
  by_cases same : key = { tag := (context s c).tag, member := m, kind := kind }
  · rw [same]
    exact (deliveryOf_isSome_iff _ _).1 (deliveryOf_handOver kind c m breakIn ok)
  · have kept := mem_keysOf_withdrawKey ok old same
    rw [handOver_eq]
    obtain ⟨-, -, below⟩ := (quiet_withdrawKey (.refl s) { tag := (context s c).tag, member := m, kind := kind }).records ok
    generalize withdrawKey { tag := (context s c).tag, member := m, kind := kind } s = u at kept below ⊢
    rw [(beginStage_spec u.dispatcher.serial .lastHeard _).2 fun r hr => ?_]
    · exact List.mem_map.2 ((List.mem_map.1 kept).imp fun r h => ⟨List.mem_append_left _ h.1, h.2⟩)
    · have serial : r.serial = u.dispatcher.serial := by simpa using List.find?_some hr
      rcases List.mem_append.1 (List.mem_of_find?_eq_some hr) with h | h
      · exact absurd serial (ne_of_lt (below r h))
      · rw [List.mem_singleton.1 h]
        rfl

/-! ## Members made current -/

/-- From `s` to `t` the call of context `c` has made the members of a list current, one after another (R31, R66). -/
structure Pages (c : Nat) (l : List Nat) (s t : State) : Prop where
  engine : t.engine = s.engine
  tickCount : t.tickCount = s.tickCount
  attention : t.attention = s.attention
  area : t.area = s.area
  latches : t.latches = s.latches
  agenda : t.agenda = s.agenda
  backlog : t.calls.backlog = s.calls.backlog
  length : t.calls.contexts.length = s.calls.contexts.length
  others : ∀ d, d ≠ c → context t d = context s d
  unlisted : (context t c).unlisted = { (context s c).unlisted with madeCurrent := (context s c).madeCurrent ++ l }
  current : ∀ x, x ∉ l → (context t c).isCurrent x = (context s c).isCurrent x
  kept : ∀ x b rung pass, x ∉ l → (context s c).HasPaged x b rung pass → (context t c).HasPaged x b rung pass
  paged : ∀ x ∈ l, (context t c).HasPaged x (member s x).engaged.isSome (context s c).rung (context s c).pass
  members : t.roster.members.length = s.roster.members.length
  engaged : ∀ x, (member t x).engaged = (member s x).engaged
  unpaged : ∀ x, x ∉ l → member t x = member s x
  stepped : ∀ x ∈ l, x < s.roster.members.length → (context s c).isCurrent x = false → (member t x).paged = (member s x).paged + 1
  records : s.dispatcher.ok → t.dispatcher.ok ∧ keysOf s ⊆ keysOf t
    ∧ ∀ x ∈ l, { tag := (context s c).tag, member := x, kind := .page } ∈ keysOf t
  logs : ∃ n, Logs n s t

theorem Pages.refl (c : Nat) (s : State) : Pages c [] s s where
  engine := rfl
  tickCount := rfl
  attention := rfl
  area := rfl
  latches := rfl
  agenda := rfl
  backlog := rfl
  length := rfl
  others _ _ := rfl
  unlisted := by rw [List.append_nil]; rfl
  current _ _ := rfl
  kept _ _ _ _ _ h := h
  paged _ h := absurd h List.not_mem_nil
  members := rfl
  engaged _ := rfl
  unpaged _ _ := rfl
  stepped _ h := absurd h List.not_mem_nil
  records ok := ⟨ok, fun _ h => h, fun _ h => absurd h List.not_mem_nil⟩
  logs := ⟨0, .refl 0 s⟩

/-- What the pages leave of the context besides its contacted list. -/
theorem Pages.fields (h : Pages c l s t) :
    ((context t c).state = (context s c).state ∧ (context t c).rung = (context s c).rung ∧ (context t c).pass = (context s c).pass
      ∧ (context t c).tag = (context s c).tag)
    ∧ ((context t c).deadline = (context s c).deadline ∧ (context t c).turn = (context s c).turn
      ∧ (context t c).mode = (context s c).mode ∧ (context t c).turnMember = (context s c).turnMember
      ∧ (context t c).turnCount = (context s c).turnCount ∧ (context t c).turnLength = (context s c).turnLength
      ∧ (context t c).firstPosition = (context s c).firstPosition)
    ∧ (context t c).madeCurrent = (context s c).madeCurrent ++ l := by
  have e := h.unlisted
  generalize context t c = k at e ⊢
  exact ⟨⟨(congrArg Context.state e :), (congrArg Context.rung e :), (congrArg Context.pass e :), (congrArg Context.tag e :)⟩,
    ⟨(congrArg Context.deadline e :), (congrArg Context.turn e :), (congrArg Context.mode e :), (congrArg Context.turnMember e :),
      (congrArg Context.turnCount e :), (congrArg Context.turnLength e :), (congrArg Context.firstPosition e :)⟩,
    (congrArg Context.madeCurrent e :)⟩

/-- One member's page, and the pages of other members after it. -/
theorem Pages.cons (h : Pages c [m] s t) (g : Pages c l t u) (new : m ∉ l) : Pages c (m :: l) s u := by
  obtain ⟨⟨-, rung, pass, tag⟩, -, made⟩ := h.fields
  have first {x : Nat} (hx : x ∉ m :: l) : x ∉ [m] ∧ x ∉ l := by simpa using hx
  have later {x : Nat} (hx : x ∈ l) : x ∉ [m] := fun k => new (List.mem_singleton.1 k ▸ hx)
  have self : m ∈ [m] := List.mem_singleton_self m
  refine ⟨g.engine.trans h.engine, g.tickCount.trans h.tickCount, g.attention.trans h.attention, g.area.trans h.area,
    g.latches.trans h.latches, g.agenda.trans h.agenda, g.backlog.trans h.backlog, g.length.trans h.length,
    fun d hd => (g.others d hd).trans (h.others d hd), ?_, fun x hx => ?_, fun x b r p hx k => ?_, fun x hx => ?_,
    g.members.trans h.members, fun x => (g.engaged x).trans (h.engaged x), fun x hx => ?_, fun x hx low old => ?_, fun ok => ?_, ?_⟩
  · rw [g.unlisted, h.unlisted, made, List.append_assoc]
    rfl
  · exact (g.current x (first hx).2).trans (h.current x (first hx).1)
  · exact g.kept x b r p (first hx).2 (h.kept x b r p (first hx).1 k)
  · rcases List.mem_cons.1 hx with rfl | hx
    · exact g.kept _ _ _ _ new (h.paged _ self)
    · have k := g.paged x hx
      rwa [h.engaged, rung, pass] at k
  · exact (g.unpaged x (first hx).2).trans (h.unpaged x (first hx).1)
  · rcases List.mem_cons.1 hx with rfl | hx
    · rw [g.unpaged _ new, h.stepped _ self low old]
    · rw [g.stepped x hx (h.members ▸ low) ((h.current x (later hx)).trans old), h.unpaged x (later hx)]
  · obtain ⟨okT, kept, here⟩ := h.records ok
    obtain ⟨okU, keptU, rest⟩ := g.records okT
    refine ⟨okU, fun _ k => keptU (kept k), fun x hx => ?_⟩
    rcases List.mem_cons.1 hx with rfl | hx
    · exact keptU (here _ self)
    · exact tag ▸ rest x hx
  · obtain ⟨n, a⟩ := h.logs
    obtain ⟨k, b⟩ := g.logs
    exact ⟨n + k, a.trans b⟩

/-- The state in which a member who becomes current is paged: the paged count is stepped, and the entry is marked (R31, R66). -/
def markedCurrent (c m : Nat) (s : State) : State :=
  modContext c (Context.markCurrent m (member s m).engaged.isSome) (if (context s c).isCurrent m then s else stepPaged m s)

theorem makeCurrent_live (live : (context s c).live = true) (m : Nat) :
    makeCurrent c m s = handOver .page c m (member s m).engaged.isSome (markedCurrent c m s) := by
  unfold makeCurrent
  rw [if_neg (by simp [live])]
  rfl

theorem markedCurrent_shape (c m : Nat) (s : State) : ∃ calls members, markedCurrent c m s = { s with
      calls := calls, roster := { s.roster with members := members } }
    ∧ members.length = s.roster.members.length ∧ calls.contexts.length = s.calls.contexts.length
    ∧ calls.backlog = s.calls.backlog := by
  unfold markedCurrent
  by_cases k : (context s c).isCurrent m = true
  · rw [if_pos k]
    exact ⟨_, s.roster.members, rfl, rfl, List.length_modify .., rfl⟩
  · rw [if_neg k]
    exact ⟨_, _, rfl, List.length_modify .., List.length_modify .., rfl⟩

/-- The registry record of a member, once one has become current. -/
theorem member_markedCurrent (c m x : Nat) (s : State) : (member (markedCurrent c m s) x).engaged = (member s x).engaged
    ∧ (x ≠ m → member (markedCurrent c m s) x = member s x)
    ∧ (x = m → x < s.roster.members.length → (context s c).isCurrent x = false →
      (member (markedCurrent c m s) x).paged = (member s x).paged + 1) := by
  have e : member (markedCurrent c m s) x = member (if (context s c).isCurrent m then s else stepPaged m s) x := rfl
  rw [e]
  by_cases k : (context s c).isCurrent m = true
  · rw [if_pos k]
    exact ⟨rfl, fun _ => rfl, fun is _ old => by rw [is, k] at old; cases old⟩
  · rw [if_neg k]
    refine ⟨?_, fun ne => member_modMember_ne ne _ s, fun is low _ => ?_⟩
    · unfold stepPaged
      rw [member_modMember]
      split
      · rename_i here
        obtain ⟨rfl, -⟩ := here
        rw [Member.change_eq]
      · rfl
    · rw [paged_stepPaged m x s low, if_pos is]

/-- The context in which one has become current, and the others. -/
theorem context_markedCurrent (live : (context s c).live = true) (m : Nat) :
    context (markedCurrent c m s) c = (context s c).markCurrent m (member s m).engaged.isSome
      ∧ ∀ d, d ≠ c → context (markedCurrent c m s) d = context s d := by
  obtain ⟨hc, -⟩ := context_mem (c := c) (.inl live)
  have same (d : Nat) : context (if (context s c).isCurrent m then s else stepPaged m s) d = context s d := by split <;> rfl
  refine ⟨?_, fun d hd => (context_modContext_ne hd _ _).trans (same d)⟩
  unfold markedCurrent
  rw [context_modContext, if_pos, same]
  split <;> exact hc

theorem pages_makeCurrent (live : (context s c).live = true) (m : Nat) : Pages c [m] s (makeCurrent c m s) := by
  let b := (member s m).engaged.isSome
  obtain ⟨calls, members, shape, registry, length, backlog⟩ := markedCurrent_shape c m s
  have records := member_markedCurrent c m (s := s)
  obtain ⟨here, others⟩ := context_markedCurrent live m
  have ok := (quiet_makeCurrent (.refl s) c m).records
  rw [makeCurrent_live live m] at ok ⊢
  have mail : Mail (markedCurrent c m s) _ := mail_handOver (.refl _) .page c m b
  have logs := logs_handOver .page c m b (markedCurrent c m s)
  have keys := keysOf_handOver .page c m b (s := markedCurrent c m s)
  have mine := deliveryOf_handOver .page c m b (s := markedCurrent c m s)
  have tag : (context (markedCurrent c m s) c).tag = (context s c).tag := by
    rw [here]
    exact (congrArg Context.tag (Context.unlisted_markCurrent m b (context s c)) :)
  rw [tag, deliveryOf_isSome_iff] at mine
  have dispatcher : (markedCurrent c m s).dispatcher = s.dispatcher := by rw [shape]
  have known : keysOf (markedCurrent c m s) = keysOf s := by unfold keysOf; rw [dispatcher]
  rw [known] at keys
  rw [dispatcher] at keys mine
  have journal : Logs 0 s (markedCurrent c m s) := .of_same (by rw [shape]) (by rw [shape])
  have now : context (handOver .page c m b (markedCurrent c m s)) c = (context s c).markCurrent m b := (mail.context c).trans here
  generalize handOver .page c m b (markedCurrent c m s) = t at *
  have one {x : Nat} (hx : x ∉ [m]) : x ≠ m := fun e => hx (List.mem_singleton.2 e)
  refine ⟨mail.engine.trans (by rw [shape]), mail.tickCount.trans (by rw [shape]), mail.attention.trans (by rw [shape]),
    mail.area.trans (by rw [shape]), mail.latches.trans (by rw [shape]), mail.agenda.trans (by rw [shape]), ?_, ?_,
    fun d hd => (mail.context d).trans (others d hd), ?_, fun x hx => ?_, fun x b' r p hx k => ?_, fun x hx => ?_, ?_, fun x => ?_,
    fun x hx => ?_, fun x hx low old => ?_, fun good => ⟨ok good, keys good, fun x hx => ?_⟩, ?_⟩
  · rw [mail.calls, shape]
    exact backlog
  · rw [mail.calls, shape]
    exact length
  · rw [now]
    exact Context.unlisted_markCurrent m b _
  · rw [now, isCurrent_markCurrent, if_neg (one hx)]
  · rw [now]
    exact k.markCurrent (one hx) b
  · rw [List.mem_singleton.1 hx, now]
    exact Context.hasPaged_markCurrent m b _
  · rw [mail.roster, shape]
    exact registry
  · rw [mail.member]
    exact (records x).1
  · rw [mail.member]
    exact (records x).2.1 (one hx)
  · rw [mail.member]
    exact (records x).2.2 (List.mem_singleton.1 hx) low old
  · rw [List.mem_singleton.1 hx]
    exact mine good
  · obtain ⟨n, h⟩ := logs
    exact ⟨0 + n, journal.trans h⟩

/-- The pages of a CREW-ALL rung (R35). -/
theorem pages_foldl (l : List Nat) (nodup : l.Nodup) (live : (context s c).live = true) :
    Pages c l s (l.foldl (fun s m => makeCurrent c m s) s) := by
  induction l generalizing s with
  | nil => exact .refl c s
  | cons m l ih =>
    obtain ⟨new, rest⟩ := List.nodup_cons.1 nodup
    have one := pages_makeCurrent live m
    have still : (context (makeCurrent c m s) c).live = true := by
      obtain ⟨⟨state, -⟩, -⟩ := one.fields
      simpa [Context.live, state] using live
    exact one.cons (ih rest still) new

end Sys2Proof.Machine

/-! # Proofs: who a rung may page, and whose turn is next (R30, R33, R34, R39)

Who is eligible for a call, who is a break-in candidate of it, and the search of a crew's list for the next member. -/

namespace Sys2Proof.Machine

variable {c m : Nat} {s u : State}

/-! ## Who may be paged -/

theorem Context.mayPage_iff (k : Context) (m : Nat) :
    k.mayPage m = true ↔ ∀ e, k.contact m = some e → e.declined = false ∧ e.unreached = false := by
  unfold Context.mayPage
  cases k.contact m <;> simp

theorem eligible_iff (s : State) (c m : Nat) : eligible s c m = true ↔ onDuty s.roster.tables m = true ∧ (member s m).engaged = none
    ∧ ∀ e, (context s c).contact m = some e → e.declined = false ∧ e.unreached = false := by
  simp only [eligible, Bool.and_eq_true, Context.mayPage_iff, Option.isNone_iff_eq_none, and_assoc]

theorem candidate_iff (s : State) (c m : Nat) : candidate s c m = true ↔ onDuty s.roster.tables m = true
    ∧ (∀ e, (context s c).contact m = some e → e.declined = false ∧ e.unreached = false)
    ∧ ∃ p, (member s m).engaged = some p ∧ tagLive s p = true ∧ (context s (p % 128)).state = .accepted
      ∧ 2 ≤ (context s (p % 128)).severity := by
  simp only [candidate, Bool.and_eq_true, Context.mayPage_iff, Option.any_eq_true, beq_iff_eq, decide_eq_true_eq]
  simp only [tagContext, and_assoc]

/-- What tells who may be paged by the call of a context is the same in two states. -/
structure SamePaging (c : Nat) (s u : State) : Prop where
  roster : u.roster = s.roster
  contacted : (context u c).contacted = (context s c).contacted
  calls : ∀ d, (context u d).state = (context s d).state ∧ (context u d).reuse = (context s d).reuse
    ∧ (context u d).severity = (context s d).severity

/-- Work that changes one context alone, and leaves its call and its contacted list. -/
theorem samePaging_of {k : Context} (roster : u.roster = s.roster) (others : ∀ d, d ≠ c → context u d = context s d)
    (here : context u c = k) (same : k.contacted = (context s c).contacted ∧ k.state = (context s c).state
      ∧ k.reuse = (context s c).reuse ∧ k.severity = (context s c).severity) : SamePaging c s u := by
  obtain ⟨contacted, state, reuse, severity⟩ := same
  refine ⟨roster, by rw [here, contacted], fun d => ?_⟩
  by_cases e : d = c
  · rw [e, here]
    exact ⟨state, reuse, severity⟩
  · rw [others d e]
    exact ⟨rfl, rfl, rfl⟩

theorem SamePaging.eligible (h : SamePaging c s u) : eligible u c = eligible s c := by
  funext m
  simp only [Machine.eligible, Context.mayPage, Context.contact, member, h.roster, h.contacted]

theorem SamePaging.candidate (h : SamePaging c s u) : candidate u c = candidate s c := by
  have live (d : Nat) : (context u d).live = (context s d).live := by simp only [Context.live, (h.calls d).1]
  funext m
  simp only [Machine.candidate, Context.mayPage, Context.contact, member, tagLive, h.roster, h.contacted, live, (h.calls _).1,
    (h.calls _).2.1, (h.calls _).2.2]

/-! ## Positions of a list -/

theorem isFirstPosition_iff {l : List Nat} {i : Nat} (h : i < l.length) :
    isFirstPosition l i = true ↔ ∀ j, j < i → l.getD j 0 ≠ l.getD i 0 := by
  have at' {j : Nat} (hj : j < l.length) : l.getD j 0 = l[j] := List.getD_eq_getElem _ _ hj
  unfold isFirstPosition
  rw [beq_iff_eq, List.findIdx?_eq_some_iff_getElem]
  constructor
  · rintro ⟨_, -, first⟩ j hj
    have k := first j hj
    rw [at' (hj.trans h)]
    simpa using k
  · refine fun first => ⟨h, by rw [at' h]; exact beq_self_eq_true _, fun j hj => ?_⟩
    have k := first j hj
    rw [at' (hj.trans h)] at k
    simpa using k

/-- The first position with a property, of those from one on, cyclically. -/
theorem find?_positionsFrom {n start count x : Nat} {p : Nat → Bool} : (positionsFrom n start count).find? p = some x ↔
    ∃ i, i < count ∧ (start + i) % n = x ∧ p ((start + i) % n) = true ∧ ∀ j, j < i → p ((start + j) % n) = false := by
  unfold positionsFrom
  rw [List.find?_map, Option.map_eq_some_iff]
  simp only [List.find?_range_eq_some, Function.comp_apply, List.mem_range, Bool.not_eq_true']
  exact exists_congr fun i => ⟨fun ⟨⟨is, low, first⟩, at'⟩ => ⟨low, at', is, first⟩,
    fun ⟨low, at', is, first⟩ => ⟨⟨is, low, first⟩, at'⟩⟩

/-- The positions after one of a list, up to another: the other is not among them exactly while they are few enough (R34). -/
theorem short_of_position {n own first k : Nat} (ho : own < n) (hf : first < n) :
    (∀ e, 1 ≤ e → e ≤ k → (own + e) % n ≠ first) ↔ k ≤ (first + n - (own + 1) % n) % n := by
  have wraps : (own + 1) % n = if own + 1 < n then own + 1 else 0 := by
    split
    · rename_i h
      exact Nat.mod_eq_of_lt h
    · rename_i h
      rw [show own + 1 = n by omega, Nat.mod_self]
  have steps (e : Nat) (he : e ≤ n) : (own + e) % n = if own + e < n then own + e else own + e - n := by
    split
    · rename_i h
      exact Nat.mod_eq_of_lt h
    · rename_i h
      rw [Nat.mod_eq_sub_mod (by omega), Nat.mod_eq_of_lt (by omega)]
  have count : (first + n - (own + 1) % n) % n = if own < first then first - own - 1 else first + n - own - 1 := by
    rw [wraps]
    by_cases last : own + 1 < n
    · rw [if_pos last]
      by_cases before : own < first
      · rw [if_pos before, Nat.mod_eq_sub_mod (by omega), Nat.mod_eq_of_lt (by omega)]
        omega
      · rw [if_neg before, Nat.mod_eq_of_lt (by omega)]
        omega
    · rw [if_neg last, if_neg (by omega), Nat.sub_zero, Nat.add_mod_right, Nat.mod_eq_of_lt hf]
      omega
  rw [count]
  constructor
  · intro avoids
    by_contra more
    split at more
    · refine avoids (first - own) (by omega) (by omega) ?_
      rw [steps _ (by omega)]
      split <;> omega
    · refine avoids (first + n - own) (by omega) (by omega) ?_
      rw [steps _ (by omega)]
      split <;> omega
  · intro few e one most
    split at few
    · rw [steps e (by omega)]
      split <;> omega
    · rw [steps e (by omega)]
      split <;> omega

/-! ## The next turn's member (R34) -/

/-- The member at a position of the crew's list may have the next turn (R34). -/
def TakesTurn (s : State) (c i : Nat) : Prop :=
  let k := context s c
  let list := crewList s.roster.tables (callRung s k).number
  (∀ j, j < i → list.getD j 0 ≠ list.getD i 0) ∧ list.getD i 0 ∉ k.madeCurrent
    ∧ (eligible s c (list.getD i 0) = true ∨ k.breakInRung = true ∧ candidate s c (list.getD i 0) = true)

/-- The search for the next turn's member, through the positions from one on. -/
theorem nextTurnMember_iff {list : List Nat} {start count : Nat}
    (crew : crewList s.roster.tables (callRung s (context s c)).number = list)
    (positions : turnPositions (context s c) list = positionsFrom list.length start count) (filled : 0 < count → 0 < list.length) :
    nextTurnMember s c = some m ↔ ∃ i, i < count ∧ list.getD ((start + i) % list.length) 0 = m
      ∧ TakesTurn s c ((start + i) % list.length) ∧ ∀ j, j < i → ¬TakesTurn s c ((start + j) % list.length) := by
  have takes (i : Nat) (h : i < list.length) : (isFirstPosition list i && !(context s c).madeCurrent.contains (list.getD i 0)
      && (eligible s c (list.getD i 0) || ((context s c).breakInRung && candidate s c (list.getD i 0)))) = true
        ↔ TakesTurn s c i := by
    unfold TakesTurn
    dsimp only
    rw [crew]
    simp only [Bool.and_eq_true, Bool.or_eq_true, isFirstPosition_iff h, Bool.not_eq_true', List.contains_eq_mem,
      decide_eq_false_iff_not]
    rw [and_assoc]
  have inside (i : Nat) (h : i < count) (j : Nat) : (start + j) % list.length < list.length :=
    Nat.mod_lt _ (filled (Nat.zero_lt_of_lt h))
  unfold nextTurnMember
  dsimp only
  rw [crew, positions, Option.map_eq_some_iff]
  simp only [find?_positionsFrom]
  constructor
  · rintro ⟨x, ⟨i, low, rfl, is, first⟩, rfl⟩
    refine ⟨i, low, rfl, (takes _ (inside i low i)).1 is, fun j hj k => ?_⟩
    exact ne_true_of_eq_false (first j hj) ((takes _ (inside i low j)).2 k)
  · rintro ⟨i, low, rfl, is, first⟩
    refine ⟨_, ⟨i, low, rfl, (takes _ (inside i low i)).2 is, fun j hj => ?_⟩, rfl⟩
    exact Bool.eq_false_iff.2 fun k => first j hj ((takes _ (inside i low j)).1 k)

/-- The search from the position after one of the list, told by the distance from it. -/
theorem nextTurnMember_after_iff {list : List Nat} {own count : Nat}
    (crew : crewList s.roster.tables (callRung s (context s c)).number = list)
    (positions : turnPositions (context s c) list = positionsFrom list.length (own + 1) count) (filled : 0 < list.length) :
    nextTurnMember s c = some m ↔ ∃ n, 1 ≤ n ∧ n ≤ count ∧ list.getD ((own + n) % list.length) 0 = m
      ∧ TakesTurn s c ((own + n) % list.length) ∧ ∀ e, 1 ≤ e → e < n → ¬TakesTurn s c ((own + e) % list.length) := by
  have shift (i : Nat) : own + 1 + i = own + (i + 1) := by omega
  rw [nextTurnMember_iff crew positions fun _ => filled]
  simp only [shift]
  constructor
  · rintro ⟨i, low, is, takes, first⟩
    refine ⟨i + 1, by omega, by omega, is, takes, fun e one less => ?_⟩
    have k := first (e - 1) (by omega)
    rwa [Nat.sub_add_cancel one] at k
  · rintro ⟨n, one, most, is, takes, first⟩
    refine ⟨n - 1, by omega, ?_⟩
    rw [Nat.sub_add_cancel one]
    exact ⟨is, takes, fun j hj => first (j + 1) (by omega) (by omega)⟩

/-- The position of the ended turn's member in a list. -/
theorem findIdx?_turnMember {k : Context} {w : Nat} (turn : k.turnMember = some w) (list : List Nat) :
    list.findIdx? (fun x => k.turnMember == some x) = if w ∈ list then some (list.idxOf w) else none := by
  have same : (fun x => k.turnMember == some x) = (· == w) := by
    funext x
    rw [turn, Bool.eq_iff_iff, beq_iff_eq, beq_iff_eq, Option.some_inj]
    exact eq_comm
  rw [same]
  split
  · rename_i mem
    exact List.findIdx?_eq_some_of_exists ⟨w, mem, beq_self_eq_true w⟩
  · rename_i out
    exact List.findIdx?_eq_none_iff.2 fun x hx => beq_eq_false_iff_ne.2 (ne_of_mem_of_not_mem hx out)

/-- Where the next turn's member is found: short of the first turn's position, or once round a reloaded list (R34, R46). -/
theorem nextTurnMember_spec {w : Nat} (turn : (context s c).turnMember = some w) :
    let k := context s c
    let list := crewList s.roster.tables (callRung s k).number
    let own := list.idxOf w
    let at' : Nat → Nat := fun n => (own + n) % list.length
    (k.reloaded = false → w ∈ list → k.firstPosition < list.length → ∀ m, nextTurnMember s c = some m ↔
      ∃ n, 1 ≤ n ∧ list.getD (at' n) 0 = m ∧ TakesTurn s c (at' n) ∧ (∀ e, 1 ≤ e → e ≤ n → at' e ≠ k.firstPosition)
        ∧ ∀ e, 1 ≤ e → e < n → ¬TakesTurn s c (at' e))
    ∧ (k.reloaded = true → w ∈ list → ∀ m, nextTurnMember s c = some m ↔
      ∃ n, 1 ≤ n ∧ n ≤ list.length ∧ list.getD (at' n) 0 = m ∧ TakesTurn s c (at' n)
        ∧ ∀ e, 1 ≤ e → e < n → ¬TakesTurn s c (at' e))
    ∧ (k.reloaded = true → w ∉ list → ∀ m, nextTurnMember s c = some m ↔
      ∃ n, n < list.length ∧ list.getD n 0 = m ∧ TakesTurn s c n ∧ ∀ e, e < n → ¬TakesTurn s c e) := by
  intro k list own at'
  have found := findIdx?_turnMember turn list
  refine ⟨fun fresh mem first m => ?_, fun reloaded mem m => ?_, fun reloaded out m => ?_⟩
  · have low : own < list.length := List.idxOf_lt_length_iff.2 mem
    rw [if_pos mem] at found
    have positions : turnPositions k list
        = positionsFrom list.length (own + 1) ((k.firstPosition + list.length - (own + 1) % list.length) % list.length) := by
      unfold turnPositions
      rw [found, fresh]
      rfl
    rw [nextTurnMember_after_iff rfl positions (Nat.zero_lt_of_lt low)]
    simp only [← short_of_position low first]
    exact exists_congr fun n => ⟨fun ⟨one, short, is, takes, next⟩ => ⟨one, is, takes, short, next⟩,
      fun ⟨one, is, takes, short, next⟩ => ⟨one, short, is, takes, next⟩⟩
  · have low : own < list.length := List.idxOf_lt_length_iff.2 mem
    rw [if_pos mem] at found
    have positions : turnPositions k list = positionsFrom list.length (own + 1) list.length := by
      unfold turnPositions
      rw [found, reloaded]
      rfl
    exact nextTurnMember_after_iff rfl positions (Nat.zero_lt_of_lt low)
  · rw [if_neg out] at found
    have positions : turnPositions k list = positionsFrom list.length 0 list.length := by
      unfold turnPositions
      rw [found, reloaded]
      rfl
    rw [nextTurnMember_iff rfl positions id]
    have direct (i : Nat) (h : i < list.length) : (0 + i) % list.length = i := by rw [Nat.zero_add, Nat.mod_eq_of_lt h]
    refine exists_congr fun n => and_congr_right fun low => ?_
    rw [show (0 + n) % (crewList s.roster.tables (callRung s (context s c)).number).length = n from direct n low]
    refine and_congr_right fun _ => and_congr_right fun _ => forall_congr' fun e => forall_congr' fun less => ?_
    rw [show (0 + e) % (crewList s.roster.tables (callRung s (context s c)).number).length = e from direct e (less.trans low)]

theorem readTargetKind_eq_crewRotate (x : Nat) : readTargetKind x = some .crewRotate ↔ x = 1 := by
  unfold readTargetKind
  split <;> simp_all

/-- The rung goes on rotating through its crew (R27, R46). -/
theorem rotationGoesOn_iff (s : State) (k : Context) : rotationGoesOn s k = true ↔ k.rung ≤ (callLadder s k).effectiveLast
    ∧ (callRung s k).kind = 1 ∧ (callRung s k).number < s.roster.tables.crews.length ∧ k.madeCurrent.length < 16 := by
  simp only [rotationGoesOn, Ladder.has, Bool.and_eq_true, decide_eq_true_eq, beq_iff_eq, readTargetKind_eq_crewRotate]
  simp only [Config.rungCapacity, and_assoc]

end Sys2Proof.Machine

/-! # Proofs: the expiry of a turn (R34, R46, R53)

The event of a turn's expiry: the ended turn is followed by the next one, or by the unanswered end of the rung, which comes to HELD
or on to rest (R40 to R43). -/

namespace Sys2Proof.Machine

variable {c m : Nat} {s t u : State}

/-! ## The close of the event -/

/-- The queues are the same once the lamp commands have been computed. -/
theorem queues_recomputeLamps {l : LineId} {a : Nat} {d : Drop} (h : drop? (recomputeLamps s) l a = some d) :
    ∃ e, drop? s l a = some e ∧ d.queue = e.queue := by
  rw [drop?_recomputeLamps] at h
  obtain ⟨x, hx, rfl⟩ := Option.map_eq_some_iff.1 h
  exact ⟨x, hx, rfl⟩

theorem isHeldAfter_recomputeLamps (h : isHeldAfter s t c) : isHeldAfter s (recomputeLamps t) c := by
  obtain ⟨state, deadline, turn, nobody, rung, pass, tag, slot, records, held, overdue, paged, image, record, queues, rest⟩ := h
  refine ⟨state, deadline, turn, nobody, rung, pass, tag, slot, records, held, overdue, paged, image, record,
    fun l a d hd => ?_, rest⟩
  obtain ⟨e, he, same⟩ := queues_recomputeLamps hd
  rw [same]
  exact queues l a e he

theorem isEndedAfter_recomputeLamps {st : SlotState} {reason : Reason} (h : isEndedAfter s t c st reason) :
    isEndedAfter s (recomputeLamps t) c st reason := by
  obtain ⟨freed, others, backlog, engaged, paged, records, latches, image, attention, ⟨held, only⟩, submitted, rest⟩ := h
  refine ⟨freed, others, backlog, engaged, paged, records, latches, image, attention, ⟨fun room m e he sent => ?_,
    fun m unsent l a d e hd he => ?_⟩, submitted, rest⟩
  · refine (held room m e he sent).imp_left ?_
    rintro ⟨l, a, d, y, hd, is⟩
    exact ⟨l, a, d.relit t, y, by rw [drop?_recomputeLamps, hd]; rfl, is⟩
  · obtain ⟨d', hd', same⟩ := queues_recomputeLamps hd
    exact only m unsent l a d' e hd' (same ▸ he)

theorem isMovedOnAfter_recomputeLamps (h : isMovedOnAfter s t c) : isMovedOnAfter s (recomputeLamps t) c := by
  obtain ⟨next, pass, ended⟩ := h
  exact ⟨next, pass, fun last spent nobody => isEndedAfter_recomputeLamps (ended last spent nobody)⟩

/-! ## The unanswered end of a rung, for a call with a slot or without (R23, R40, R41) -/

/-- The unanswered end of a rung without HOLD goes on to the next rung, or past the last. -/
theorem endRung_goes_on (paging : (context s c).state = .paging) (more : ¬holdsAtEnd s c) : endRung c s = (rungEnded c s,
    [if (context s c).rung < (callLadder s (context s c)).effectiveLast then .enterRung c ((context s c).rung + 1) else .pastLast c]) := by
  rw [endRung_eq paging, if_neg (by simpa [Ladder.has] using more)]
  split <;> rfl

theorem endRung_holds (paging : (context s c).state = .paging) (holds : holdsAtEnd s c) :
    endRung c s = (heldAfterRung c s, []) := by
  rw [endRung_eq paging, if_pos (by simpa [Ladder.has] using holds)]
  rfl

/-- The entry of a MEMBER rung after other work on the call, told of the state before that work. -/
theorem entersMember_after {rung : Nat} (work : CallWork (fun _ => False) 0 c s u) (paging : (context u c).state = .paging)
    (nobody : ∀ m, (context u c).isCurrent m = false) (records : s.dispatcher.ok → u.dispatcher.ok)
    (may : mayPage s ((callLadder s (context s c)).rung rung))
    (unmarked : isUnmarked (context u c) ((callLadder s (context s c)).rung rung)) :
    ∃ t, perform (.enterRung c rung) u = (t, []) ∧ PagesMember s t c rung := by
  have mayU := mayPage_after work may
  rw [← work.ladder] at mayU unmarked
  exact ⟨_, enterRung_member paging nobody mayU unmarked, (enterRung_pages paging nobody mayU).after work nobody records⟩

/-- The call moves on to the next rung and pages its member, from any state in which the rung's end has the same outcome. -/
theorem runsTo_endRung_next (same : endRung c u = endRung c s) (paging : (context s c).state = .paging) (more : ¬holdsAtEnd s c)
    (next : (context s c).rung < (callLadder s (context s c)).effectiveLast)
    (may : mayPage s ((callLadder s (context s c)).rung ((context s c).rung + 1)))
    (unmarked : isUnmarked (context s c) ((callLadder s (context s c)).rung ((context s c).rung + 1))) :
    ∃ t, RunsTo 2 [.endRung c] u t ∧ isMovedOnAfter s t c := by
  obtain ⟨marks, state, nobody⟩ := rungEnded_context c s
  obtain ⟨t, enters, pages⟩ := entersMember_after (rungEnded_work c s) (state.trans paging) nobody (rungEnded_records (s := s) c) may
    (isUnmarked_congr marks unmarked)
  have ends : perform (.endRung c) u = (rungEnded c s, [.enterRung c ((context s c).rung + 1)]) := by
    refine same.trans ((endRung_goes_on paging more).trans ?_)
    rw [if_pos next]
  exact ⟨t, .step ends (.step enters (.nil _)), fun _ _ _ => pages, fun last => absurd last (by omega),
    fun last => absurd last (by omega)⟩

/-- A call past its last rung begins its next pass, or ends (R41). -/
theorem pastLast_rungEnded (c : Nat) (s : State) : (repeatsOnce (callLadder s (context s c)) (context s c) →
      pastLast c (rungEnded c s) = (modContext c Context.nextPass (rungEnded c s), [.enterRung c 0]))
    ∧ (¬repeatsOnce (callLadder s (context s c)) (context s c) →
      pastLast c (rungEnded c s) = (rungEnded c s, [.endCall c .exhausted .ladderExhausted])) := by
  have work := rungEnded_work (P := fun _ => False) c s
  have ladder : callLadder (rungEnded c s) (context (rungEnded c s) c) = callLadder s (context s c) := work.ladder
  have pass : (context (rungEnded c s) c).pass = (context s c).pass := (Context.same_of_bare work.bare).2.1.2.2.2.2
  have same : repeatsOnce (callLadder (rungEnded c s) (context (rungEnded c s) c)) (context (rungEnded c s) c)
      ↔ repeatsOnce (callLadder s (context s c)) (context s c) := by rw [ladder, repeatsOnce, repeatsOnce, pass]
  obtain ⟨again, done⟩ := pastLast_eq c (rungEnded c s)
  exact ⟨fun h => again (same.2 h), fun h => done fun k => h (same.1 k)⟩

/-- The call moves on to the next pass and pages the member of rung 0. -/
theorem runsTo_endRung_nextPass (same : endRung c u = endRung c s) (paging : (context s c).state = .paging) (more : ¬holdsAtEnd s c)
    (last : (callLadder s (context s c)).effectiveLast ≤ (context s c).rung)
    (again : repeatsOnce (callLadder s (context s c)) (context s c)) (may : mayPage s ((callLadder s (context s c)).rung 0)) :
    ∃ t, RunsTo 3 [.endRung c] u t ∧ isMovedOnAfter s t c := by
  let told : State := { s with attention := { s.attention with event := overdueEvents s c } }
  let counted := modContext c Context.countPass told
  let next := modContext c Context.nextPass (rungEnded c s)
  obtain ⟨hs, -⟩ := context_mem (s := s) (c := c) (.inl (by simp [Context.live, paging]))
  obtain ⟨-, state, nobody⟩ := rungEnded_context c s
  obtain ⟨hc, -⟩ := context_mem (s := rungEnded c s) (c := c) (.inl (by simp [Context.live, state, paging]))
  have origin : context counted c = (context s c).countPass := (context_modContext c _ _).trans (if_pos hs)
  have ctx : context next c = (context (rungEnded c s) c).nextPass := (context_modContext c _ _).trans (if_pos hc)
  have work : CallWork (fun _ => False) 0 c counted next := by
    refine (rungEnded_work c s).modContext (fun k l h => ?_) Context.isCurrent_nextPass (fun _ _ => rfl)
    show { l.bare with pass := l.bare.pass + 1 } = { k.bare with pass := k.bare.pass + 1 }
    rw [h]
  have ladder : callLadder counted (context counted c) = callLadder s (context s c) := by rw [origin]; rfl
  have unmarked (r : Rung) : isUnmarked (context next c) r := by
    intro e he
    rw [ctx] at he
    obtain ⟨x, -, rfl⟩ := List.mem_map.1 (List.mem_of_find?_eq_some he)
    exact ⟨rfl, rfl⟩
  obtain ⟨t, enters, pages⟩ := entersMember_after (rung := 0) work (by rw [ctx]; rfl)
    (fun m => by rw [ctx, Context.isCurrent_nextPass]; exact nobody m) (rungEnded_records (s := s) c) (by rw [ladder]; exact may)
    (unmarked _)
  have ends : perform (.endRung c) u = (rungEnded c s, [.pastLast c]) := by
    refine same.trans ((endRung_goes_on paging more).trans ?_)
    rw [if_neg (by omega)]
  refine ⟨t, .step ends (.step ((pastLast_rungEnded c s).1 again) (.step enters (.nil _))), fun h => absurd h (by omega), fun _ _ _ => ?_,
    fun _ spent => absurd again spent⟩
  unfold PagesMember at pages
  rw [origin] at pages
  obtain ⟨state, at', pass, tag, slot, mode, turn, deadline, current, made, delivery, paged, images, record, attention, others,
    rest⟩ := pages
  exact ⟨state, at', pass, tag, slot, mode, turn, deadline, current, made, delivery, paged, images, record, attention,
    fun d hd => (others d hd).trans (context_modContext_ne hd _ _), rest⟩

/-- The call ends EXHAUSTED, with nobody to be admitted in its place. -/
theorem runsTo_endRung_exhausted (same : endRung c u = endRung c s) (paging : (context s c).state = .paging) (more : ¬holdsAtEnd s c)
    (last : (callLadder s (context s c)).effectiveLast ≤ (context s c).rung)
    (done : ¬repeatsOnce (callLadder s (context s c)) (context s c)) (nobody : s.calls.backlog = []) :
    ∃ t, RunsTo 4 [.endRung c] u t ∧ isMovedOnAfter s t c := by
  obtain ⟨marks, state, -⟩ := rungEnded_context c s
  have live : (context (rungEnded c s) c).live = true := by simp [Context.live, state, paging]
  have ended := finishCall_ended (rungEnded_work c s) (Nat.zero_le 1) live marks (st := .exhausted) (reason := .ladderExhausted) (by decide)
  have empty : (finishCall c .exhausted .ladderExhausted (rungEnded c s)).calls.backlog = [] := by
    obtain ⟨-, -, backlog, -⟩ := ended
    exact backlog.trans nobody
  have ends : perform (.endRung c) u = (rungEnded c s, [.pastLast c]) := by
    refine same.trans ((endRung_goes_on paging more).trans ?_)
    rw [if_neg (by omega)]
  exact ⟨_, .step ends (.step ((pastLast_rungEnded c s).2 done) (runsTo_endCall live empty)), fun h => absurd h (by omega),
    fun _ h => absurd h done, fun _ _ _ => ended⟩

/-- The unanswered end of a rung that comes to rest at once, from any state in which the rung's end has the same outcome. -/
theorem runsTo_endRung_rests (same : endRung c u = endRung c s) (paging : (context s c).state = .paging) (more : ¬holdsAtEnd s c)
    (moves : movesOnAtOnce s c) : ∃ k t, k ≤ 4 ∧ RunsTo k [.endRung c] u t ∧ isMovedOnAfter s t c := by
  rcases moves with ⟨next, may, unmarked⟩ | ⟨last, again, may⟩ | ⟨last, spent, nobody⟩
  · exact ⟨2, (runsTo_endRung_next same paging more next may unmarked).imp fun _ h => ⟨by decide, h⟩⟩
  · exact ⟨3, (runsTo_endRung_nextPass same paging more last again may).imp fun _ h => ⟨by decide, h⟩⟩
  · exact ⟨4, (runsTo_endRung_exhausted same paging more last spent nobody).imp fun _ h => ⟨by decide, h⟩⟩

/-- Nothing is said of an end that does not come to rest at once. -/
theorem isMovedOnAfter_of_not (rests : ¬movesOnAtOnce s c) (t : State) : isMovedOnAfter s t c :=
  ⟨fun next may unmarked => absurd (.inl ⟨next, may, unmarked⟩) rests,
    fun last again may => absurd (.inr (.inl ⟨last, again, may⟩)) rests,
    fun last spent nobody => absurd (.inr (.inr ⟨last, spent, nobody⟩)) rests⟩

/-! ## The ended turn -/

theorem modContext_modContext (c : Nat) (f g : Context → Context) (s : State) :
    modContext c f (modContext c g s) = modContext c (f ∘ g) s := by
  simp only [modContext, State.modCalls, List.modify_modify_eq]

/-- The turn of a call is over. -/
def turnOver (c : Nat) (s : State) : State := modContext c (fun k => { k with turn := .stopped }) s

theorem turnOver_turnOver (c : Nat) (s : State) : turnOver c (turnOver c s) = turnOver c s := modContext_modContext ..

theorem context_turnOver (live : (context s c).live = true) :
    context (turnOver c s) c = { context s c with turn := .stopped } := by
  obtain ⟨hc, -⟩ := context_mem (c := c) (.inl live)
  exact context_modContext_same _ hc

theorem samePaging_turnOver (live : (context s c).live = true) : SamePaging c s (turnOver c s) :=
  samePaging_of rfl (fun _ hd => context_modContext_ne hd _ s) (context_turnOver live) ⟨rfl, rfl, rfl, rfl⟩

theorem nextTurnMember_turnOver (live : (context s c).live = true) : nextTurnMember (turnOver c s) c = nextTurnMember s c := by
  have same := samePaging_turnOver live
  unfold nextTurnMember
  rw [same.eligible, same.candidate, context_turnOver live]
  rfl

/-- A rung ends from an ended turn as it ends without (R40). -/
theorem endRung_turnOver (paging : (context s c).state = .paging) : endRung c (turnOver c s) = endRung c s := by
  have live : (context s c).live = true := by simp [Context.live, paging]
  have stops : stopRung c (turnOver c s) = stopRung c s := modContext_modContext ..
  have still : (context (turnOver c s) c).state = .paging := by rw [context_turnOver live]; exact paging
  unfold endRung
  simp only [paging, still, stops, ne_eq, not_true_eq_false, if_false]

/-- The end of a turn: the rung ends, or the next turn starts (R34, R46, R53). -/
theorem endTurn_turnOver (paging : (context s c).state = .paging) (rotate : (context s c).mode = .rotate) :
    ((context s c).deadline.remaining s.tickCount < s.roster.settings.minimumTurn ∨ rotationGoesOn s (context s c) = false
        ∨ nextTurnMember s c = none → endTurn c (turnOver c s) = (turnOver c s, [.endRung c]))
    ∧ (∀ m, s.roster.settings.minimumTurn ≤ (context s c).deadline.remaining s.tickCount → rotationGoesOn s (context s c) = true →
      nextTurnMember s c = some m → endTurn c (turnOver c s) = (startTurn c m (turnOver c s), [])) := by
  have live : (context s c).live = true := by simp [Context.live, paging]
  have e : endTurn c (turnOver c s) =
      if (context s c).deadline.remaining s.tickCount < s.roster.settings.minimumTurn || !rotationGoesOn s (context s c)
        then (turnOver c s, [.endRung c])
      else match nextTurnMember s c with
        | none => (turnOver c s, [.endRung c])
        | some m => (startTurn c m (turnOver c s), []) := by
    unfold endTurn
    dsimp only
    rw [context_turnOver live, if_neg (by simp [paging, rotate]), ← nextTurnMember_turnOver live]
    show (if _ then (turnOver c (turnOver c s), _) else match nextTurnMember (turnOver c (turnOver c s)) c with
      | none => (turnOver c (turnOver c s), _) | some m => (startTurn c m (turnOver c (turnOver c s)), _)) = _
    rw [turnOver_turnOver]
    rfl
  rw [e]
  constructor
  · rintro (short | stops | nobody)
    · rw [if_pos (by simp [short])]
    · rw [if_pos (by simp [stops])]
    · rw [nobody]
      exact ite_self _
  · intro m long goes next
    rw [if_neg (by simp [long, goes]), next]

/-- The start of a turn: the member is paged, and the turn runs (R33, R34, R53). -/
theorem startTurn_spec (live : (context s c).live = true) (m : Nat) : ∃ p, Pages c [m] s p
    ∧ startTurn c m s = modContext c (fun k => { k with
      turn := startWindow s (min (context s c).turnLength ((context s c).deadline.remaining s.tickCount))
      turnMember := some m }) p := by
  have pages := pages_makeCurrent live m
  obtain ⟨-, ⟨deadline, -, -, -, -, length, -⟩, -⟩ := pages.fields
  refine ⟨_, pages, ?_⟩
  have window (n : Nat) : startWindow (makeCurrent c m s) n = startWindow s n := by
    simp only [startWindow, pages.engine, pages.tickCount]
  unfold startTurn
  dsimp only
  rw [window, length, deadline, pages.tickCount]

/-! ## The event -/

theorem turnExpiry_runs {k : Nat} (agenda : s.agenda = []) (due : (context s c).turn.due s.tickCount = true)
    (runs : RunsTo k [.endTurn c] (turnOver c s) t) (few : k ≤ 10) (engine : t.engine ≠ .stopping) :
    exec (.turnExpiry c) s = .next (recomputeLamps t) := by
  have expires : perform (.expireTurn c) s = (turnOver c s, [.endTurn c]) := if_pos due
  have whole : RunsTo (k + 1) [.expireTurn c] s t := .step expires runs
  have closes := finish_runs (rest := []) agenda whole ((Nat.succ_le_succ few).trans (by decide : 11 ≤ Config.workLimit))
  rw [List.append_nil, run_nil, closeEvent_eq t engine] at closes
  rw [← closes]
  exact congrArg Host.Outcome.next (if_pos due)

/-- A turn's expiry with which the rung ends unanswered (R40 to R43). -/
theorem turnExpiry_ends_rung (agenda : s.agenda = []) (running : s.engine = .running) (paging : (context s c).state = .paging)
    (rotate : (context s c).mode = .rotate) (due : (context s c).turn.due s.tickCount = true)
    (ends : (context s c).deadline.remaining s.tickCount < s.roster.settings.minimumTurn ∨ rotationGoesOn s (context s c) = false
      ∨ nextTurnMember s c = none) :
    ∃ t : State, exec (.turnExpiry c) s = .next t ∧ (holdsAtEnd s c → isHeldAfter s t c)
      ∧ (¬holdsAtEnd s c → isMovedOnAfter s t c) := by
  have turnEnds : perform (.endTurn c) (turnOver c s) = (turnOver c s, [.endRung c]) :=
    (endTurn_turnOver paging rotate).1 ends
  have same := endRung_turnOver paging
  by_cases holds : holdsAtEnd s c
  · have held := heldAfterRung_isHeld paging holds.2
    have rungEnds : perform (.endRung c) (turnOver c s) = (heldAfterRung c s, []) := same.trans (endRung_holds paging holds)
    have kept := isHeldAfter_recomputeLamps held
    obtain ⟨-, -, -, -, -, -, -, -, -, -, -, -, -, -, -, -, -, engine, -⟩ := held
    exact ⟨_, turnExpiry_runs agenda due (.step turnEnds (.step rungEnds (.nil _))) (by decide) (by rw [engine, running]; decide),
      fun _ => kept, fun more => absurd holds more⟩
  · by_cases rests : movesOnAtOnce s c
    · obtain ⟨k, t, few, runs, moved⟩ := runsTo_endRung_rests same paging holds rests
      have engine := (isMovedOnAfter_frame moved rests).1
      exact ⟨_, turnExpiry_runs agenda due (.step turnEnds runs) (by omega) (by rw [engine, running]; decide),
        fun h => absurd h holds, fun _ => isMovedOnAfter_recomputeLamps moved⟩
    · exact ⟨_, congrArg Host.Outcome.next (if_pos due), fun h => absurd h holds, fun _ => isMovedOnAfter_of_not rests _⟩

/-- A turn's expiry that the next turn follows (R34, R53). -/
theorem turnExpiry_starts_turn (agenda : s.agenda = []) (running : s.engine = .running) (ok : s.dispatcher.ok)
    (paging : (context s c).state = .paging) (rotate : (context s c).mode = .rotate)
    (due : (context s c).turn.due s.tickCount = true)
    (long : s.roster.settings.minimumTurn ≤ (context s c).deadline.remaining s.tickCount)
    (goes : rotationGoesOn s (context s c) = true) (next : nextTurnMember s c = some m) :
    ∃ t : State, exec (.turnExpiry c) s = .next t
      ∧ (context t c).turnMember = some m ∧ (context t c).isCurrent m = true
      ∧ (context t c).madeCurrent = (context s c).madeCurrent ++ [m]
      ∧ (context t c).turn = .running (s.tickCount + BitVec.ofNat 32
        (min (context s c).turnLength ((context s c).deadline.remaining s.tickCount)))
      ∧ (context t c).state = .paging ∧ (context t c).rung = (context s c).rung
      ∧ (context t c).deadline = (context s c).deadline
      ∧ (deliveryOf t { tag := (context s c).tag, member := m, kind := .page }).isSome = true
      ∧ (∀ d, d ≠ c → context t d = context s d) ∧ t.attention = s.attention ∧ t.tickCount = s.tickCount := by
  have live : (context s c).live = true := by simp [Context.live, paging]
  have here := context_turnOver live
  obtain ⟨p, pages, starts⟩ := startTurn_spec (s := turnOver c s) (c := c) (by rw [here]; exact live) m
  obtain ⟨⟨state, rung, -, -⟩, ⟨deadline, -⟩, made⟩ := pages.fields
  obtain ⟨current, -⟩ := pages.paged m (List.mem_singleton_self m)
  obtain ⟨-, -, record⟩ := pages.records ok
  rw [here] at state rung deadline made record starts
  have engine : p.engine = .running := pages.engine.trans running
  have performs : perform (.endTurn c) (turnOver c s) = (startTurn c m (turnOver c s), []) :=
    (endTurn_turnOver paging rotate).2 m long goes next
  rw [starts] at performs
  obtain ⟨hc, -⟩ := context_mem (s := p) (c := c) (.inl (by simp [Context.live, state, paging]))
  refine ⟨_, turnExpiry_runs agenda due (.step performs (.nil _)) (by decide) (by rw [modContext_engine, engine]; decide), ?_⟩
  show (context (modContext c _ p) c).turnMember = _ ∧ (context (modContext c _ p) c).isCurrent m = true
    ∧ (context (modContext c _ p) c).madeCurrent = _ ∧ (context (modContext c _ p) c).turn = _
    ∧ (context (modContext c _ p) c).state = _ ∧ (context (modContext c _ p) c).rung = _
    ∧ (context (modContext c _ p) c).deadline = _ ∧ _
  rw [context_modContext_same _ hc]
  refine ⟨rfl, current, made, ?_, state.trans paging, rung, deadline,
    (deliveryOf_isSome_iff _ _).2 (record m (List.mem_singleton_self m)), fun d hd => ?_, pages.attention, pages.tickCount⟩
  · exact if_neg (by rw [show (turnOver c s).engine = .running from running]; decide)
  · exact (context_modContext_ne hd _ p).trans ((pages.others d hd).trans (context_modContext_ne hd _ s))

/-- Settles O19: the search of the list (`nextTurnMember_spec`), and the event with each outcome of the search. -/
theorem turnExpiryFollowsTheNoShortTurnRule : Obligations.TurnExpiryFollowsTheNoShortTurnRule := by
  refine ⟨fun s c w turn => nextTurnMember_spec turn, rotationGoesOn_iff,
    fun s c agenda running ok paging rotate due => ⟨fun ends => ?_, fun m long goes next => ?_⟩⟩
  · exact turnExpiry_ends_rung agenda running paging rotate due ends
  · exact turnExpiry_starts_turn agenda running ok paging rotate due long goes next

end Sys2Proof.Machine

/-! # Proofs: the entry of a rung, whatever its target (R29, R37 to R40)

What every target kind leaves of the rung's beginning (`Acts`), and the rung that is found unservable. -/

namespace Sys2Proof.Machine

variable {c rung : Nat} {r : Rung} {s t u : State} {beacon : Prop}

/-! ## What the target of a rung leaves -/

/-- A context without what the target of a rung sets. -/
def Context.untargeted (k : Context) : Context :=
  { k with turn := .stopped, mode := .none, turnMember := none, turnCount := 0, turnLength := 0, firstPosition := 0
           breakInRung := false, madeCurrent := [], contacted := [] }

/-- From `s` to `t` the target of a rung has acted on the call of context `c`; only that of a beacon rung joins latches. -/
structure Acts (beacon : Prop) (c : Nat) (s t : State) : Prop where
  tickCount : t.tickCount = s.tickCount
  attention : t.attention = s.attention
  area : t.area = s.area
  backlog : t.calls.backlog = s.calls.backlog
  others : ∀ d, d ≠ c → context t d = context s d
  untargeted : (context t c).untargeted = (context s c).untargeted
  latches : ¬beacon → t.latches = s.latches
  logs : ∃ n, Logs n s t

theorem Acts.trans (h : Acts beacon c s t) (g : Acts beacon c t u) : Acts beacon c s u where
  tickCount := g.tickCount.trans h.tickCount
  attention := g.attention.trans h.attention
  area := g.area.trans h.area
  backlog := g.backlog.trans h.backlog
  others d hd := (g.others d hd).trans (h.others d hd)
  untargeted := g.untargeted.trans h.untargeted
  latches no := (g.latches no).trans (h.latches no)
  logs := by
    obtain ⟨n, a⟩ := h.logs
    obtain ⟨k, b⟩ := g.logs
    exact ⟨n + k, a.trans b⟩

theorem acts_pages {l : List Nat} (h : Pages c l s t) : Acts beacon c s t where
  tickCount := h.tickCount
  attention := h.attention
  area := h.area
  backlog := h.backlog
  others := h.others
  untargeted := by
    have e := h.unlisted
    generalize context t c = k at e ⊢
    exact (congrArg Context.untargeted e :)
  latches _ := h.latches
  logs := h.logs

theorem acts_modContext (f : Context → Context) (keeps : ∀ k, (f k).untargeted = k.untargeted) (s : State) :
    Acts beacon c s (modContext c f s) where
  tickCount := rfl
  attention := rfl
  area := rfl
  backlog := rfl
  others d hd := context_modContext_ne hd f s
  untargeted := by rw [context_modContext]; split <;> [exact keeps _; rfl]
  latches _ := rfl
  logs := ⟨0, .of_same rfl rfl⟩

theorem acts_unservable (c : Nat) (r : Rung) (s : State) : Acts beacon c s (unservable c r s).1 := by
  have mail := mail_submit (.refl s) (rungRecord .noOneAvailable (context s c) r)
  exact ⟨mail.tickCount, mail.attention, mail.area, by rw [unservable, mail.calls], fun d _ => mail.context d,
    by rw [unservable, mail.context], fun _ => mail.latches, 1, logs_submit _ s⟩

theorem acts_joinLatches (is : beacon) (c : Nat) (zones : List Nat) (s : State) : Acts beacon c s (joinLatches c zones s) :=
  ⟨rfl, rfl, rfl, rfl, fun _ _ => rfl, rfl, fun no => absurd is no, 0, .of_same rfl rfl⟩

/-! ## The target kinds -/

theorem nodup_distinct (l : List Nat) : (distinct l).Nodup := by
  induction l with
  | nil => exact List.nodup_nil
  | cons m l ih => exact List.nodup_cons.2 ⟨fun mem => by simp at mem, ih.filter _⟩

/-- The pool of a CREW rung: the eligible members, or else the break-in candidates of a call that qualifies (R33, R35, R39). -/
theorem rungPool_fst (s : State) (c : Nat) (l : List Nat) : (rungPool s c l).1 =
    if l.filter (eligible s c) ≠ [] then l.filter (eligible s c)
    else if (context s c).severity = 1 ∧ s.roster.settings.breakIn = true then l.filter (candidate s c) else [] := by
  unfold rungPool
  cases l.filter (eligible s c) with
  | nil => simp [qualifies]
  | cons m l => simp

theorem nodup_rungPool (s : State) (c : Nat) (l : List Nat) : (rungPool s c (distinct l)).1.Nodup := by
  rw [rungPool_fst]
  split
  · exact (nodup_distinct l).filter _
  · split
    · exact (nodup_distinct l).filter _
    · exact List.nodup_nil

theorem SamePaging.rungPool (h : SamePaging c s u) (l : List Nat) : rungPool u c l = rungPool s c l := by
  have qualifies : qualifies u c = qualifies s c := by simp only [Machine.qualifies, (h.calls c).2.2, h.roster]
  unfold Machine.rungPool
  rw [h.eligible, h.candidate, qualifies]

/-- A context on a CREW-ROTATE rung, before its first turn (R33, R52). -/
def Context.rotating (i n length : Nat) (breakIn : Bool) (k : Context) : Context :=
  { k with mode := .rotate, turnCount := n, turnLength := length, firstPosition := i, breakInRung := breakIn }

/-- A context on a CREW-ALL rung, before its pages (R35). -/
def Context.pagingAll (breakIn : Bool) (k : Context) : Context := { k with mode := .all, breakInRung := breakIn }

/-- A context on a rung of a mode, with nobody made current. -/
def Context.inMode (mode : RungMode) (k : Context) : Context := { k with mode := mode }

/-- The position of a CREW-ROTATE rung's first turn (R33). -/
def firstTurn (c : Nat) (r : Rung) (s : State) : Option Nat :=
  let list := crewList s.roster.tables r.number
  (positionsFrom list.length (s.roster.pointers.getD r.number 0) list.length).find? fun i =>
    isFirstPosition list i && (rungPool s c (distinct list)).1.contains (list.getD i 0)

theorem enterRotate_eq (c d : Nat) (r : Rung) (s : State) : enterRotate c d r s =
    let list := crewList s.roster.tables r.number
    let pool := rungPool s c (distinct list)
    match firstTurn c r s with
    | none => unservable c r s
    | some i => (startTurn c (list.getD i 0) (modContext c (Context.rotating i pool.1.length
      (turnLengthOf d pool.1.length s.roster.settings.minimumTurn) pool.2) s), []) := rfl

theorem enterAll_eq (c : Nat) (r : Rung) (s : State) : enterAll c r s =
    let pool := rungPool s c (distinct (crewList s.roster.tables r.number))
    if pool.1.isEmpty then unservable c r s
    else (pool.1.foldl (fun s m => makeCurrent c m s) (modContext c (Context.pagingAll pool.2) s), []) := rfl

theorem enterMember_eq (c : Nat) (r : Rung) (s : State) : enterMember c r s =
    if r.number < s.roster.tables.roster.length && eligible s c r.number
      then (makeCurrent c r.number (modContext c (Context.inMode .member) s), []) else unservable c r s := rfl

theorem enterBeacon_eq (c : Nat) (r : Rung) (plant : Bool) (s : State) : enterBeacon c r plant s =
    let zones := joinedZones s (context s c) plant
    let lit := joinLatches c zones s
    if zones.any (zoneServable lit) then (modContext c (Context.inMode .beacon) lit, []) else unservable c r lit := rfl

theorem actOnTarget_rotate {d : Nat} (kind : r.kind = 1) : actOnTarget c d r s =
    if r.number < s.roster.tables.crews.length then enterRotate c d r s else unservable c r s := by
  unfold actOnTarget
  rw [kind]
  rfl

theorem actOnTarget_all {d : Nat} (kind : r.kind = 2) : actOnTarget c d r s =
    if r.number < s.roster.tables.crews.length then enterAll c r s else unservable c r s := by
  unfold actOnTarget
  rw [kind]
  rfl

theorem actOnTarget_member {d : Nat} (kind : r.kind = 3) : actOnTarget c d r s = enterMember c r s := by
  unfold actOnTarget
  rw [kind]
  rfl

theorem actOnTarget_beacon {d : Nat} (kind : r.kind ∈ [4, 5]) : actOnTarget c d r s = enterBeacon c r (r.kind == 5) s := by
  unfold actOnTarget
  rcases List.mem_pair.1 kind with e | e <;> rw [e] <;> rfl

theorem actOnTarget_other {d : Nat} (kind : r.kind ∉ [1, 2, 3, 4, 5]) : actOnTarget c d r s = unservable c r s := by
  have none : readTargetKind r.kind = none := by
    unfold readTargetKind
    split <;> simp_all
  unfold actOnTarget
  rw [none]

theorem live_modContext {f : Context → Context} (keeps : ∀ k, (f k).state = k.state) (live : (context s c).live = true) :
    (context (modContext c f s) c).live = true := by
  obtain ⟨hc, -⟩ := context_mem (c := c) (.inl live)
  rw [context_modContext_same f hc, Context.live, keeps]
  exact live

theorem acts_startTurn (live : (context s c).live = true) (m : Nat) : Acts beacon c s (startTurn c m s) := by
  obtain ⟨p, pages, e⟩ := startTurn_spec live m
  rw [e]
  refine (acts_pages pages).trans (acts_modContext _ ?_ p)
  exact fun _ => rfl

theorem acts_enterRotate (live : (context s c).live = true) (d : Nat) (r : Rung) : Acts beacon c s (enterRotate c d r s).1 := by
  rw [enterRotate_eq]
  dsimp only
  split
  · exact acts_unservable c r s
  · exact (acts_modContext (Context.rotating _ _ _ _) (fun _ => rfl) s).trans
      (acts_startTurn (live_modContext (f := Context.rotating _ _ _ _) (fun _ => rfl) live) _)

theorem acts_enterAll (live : (context s c).live = true) (r : Rung) : Acts beacon c s (enterAll c r s).1 := by
  rw [enterAll_eq]
  dsimp only
  split
  · exact acts_unservable c r s
  · exact (acts_modContext (Context.pagingAll _) (fun _ => rfl) s).trans
      (acts_pages (pages_foldl _ (nodup_rungPool ..) (live_modContext (f := Context.pagingAll _) (fun _ => rfl) live)))

theorem acts_enterMember (live : (context s c).live = true) (r : Rung) : Acts beacon c s (enterMember c r s).1 := by
  rw [enterMember_eq]
  split
  · exact (acts_modContext (Context.inMode .member) (fun _ => rfl) s).trans
      (acts_pages (pages_makeCurrent (live_modContext (f := Context.inMode .member) (fun _ => rfl) live) _))
  · exact acts_unservable c r s

theorem acts_enterBeacon (is : beacon) (c : Nat) (r : Rung) (plant : Bool) (s : State) :
    Acts beacon c s (enterBeacon c r plant s).1 := by
  rw [enterBeacon_eq]
  have joins := acts_joinLatches is c (joinedZones s (context s c) plant) s
  dsimp only
  split
  · exact joins.trans (acts_modContext (Context.inMode .beacon) (fun _ => rfl) _)
  · exact joins.trans (acts_unservable c r _)

/-- The target of a rung, whatever its kind, acts so. -/
theorem acts_actOnTarget (live : (context s c).live = true) (d : Nat) (r : Rung) :
    Acts (r.kind ∈ [4, 5]) c s (actOnTarget c d r s).1 := by
  by_cases rotate : r.kind = 1
  · rw [actOnTarget_rotate rotate]
    split
    · exact acts_enterRotate live d r
    · exact acts_unservable c r s
  by_cases all : r.kind = 2
  · rw [actOnTarget_all all]
    split
    · exact acts_enterAll live r
    · exact acts_unservable c r s
  by_cases member : r.kind = 3
  · rw [actOnTarget_member member]
    exact acts_enterMember live r
  by_cases beacon : r.kind ∈ [4, 5]
  · rw [actOnTarget_beacon beacon]
    exact acts_enterBeacon beacon c r _ s
  · rw [actOnTarget_other (by simp_all)]
    exact acts_unservable c r s

/-! ## What every rung's entry leaves -/

theorem enterRung_target (paging : (context s c).state = .paging) (is : (callLadder s (context s c)).rung rung = r) :
    enterRung c rung s = actOnTarget c (classLength s (context s c) r.windowClass) r (rungBegun c rung s) := by
  obtain ⟨-, e⟩ := rungBegun_eq (s := s) (c := c) (rung := rung) (by simp [Context.live, paging])
  rw [e, if_pos paging, is]

theorem packTarget_eq {kind number : Nat} (k : kind < 16) (n : number < 4096) : packTarget kind number = kind * 4096 + number := by
  rw [packTarget, if_pos k, if_pos n]

/-- What the entry of a rung leaves, whatever its target (R29, R40). -/
theorem enterRung_entered (paging : (context s c).state = .paging) (is : (callLadder s (context s c)).rung rung = r) :
    let before := context s c
    let d := classLength s before r.windowClass
    let t := (enterRung c rung s).1
    let k := context t c
    k.rung = rung ∧ k.state = .paging ∧ k.pass = before.pass ∧ k.tag = before.tag ∧ k.deadline = startWindow s d
    ∧ (∀ i, before.slot = some i → i < s.area.slots.length →
      (slotImage t i).rung = rung ∧ (slotImage t i).pass = before.pass ∧ (slotImage t i).state = .paging)
    ∧ t.attention.event = s.attention.event |||
      (if ∃ p, (callLadder s before).stopRung = some p ∧ p ≤ rung then BitVec.twoPow 14 2 else 0)
    ∧ (∀ x, x ≠ c → context t x = context s x) ∧ t.calls.backlog = s.calls.backlog ∧ t.tickCount = s.tickCount
    ∧ (hasRoom s 1 → r.kind < 16 → r.number < 4096 → ∃ rest, t.journal.pending = s.journal.pending
      ++ { callRecord .rungEntered before with
        tick := s.tickCount, detail1 := rung * 256 + before.pass, detail2 := r.kind * 4096 + r.number } :: rest)
    ∧ (r.kind ∉ [4, 5] → t.latches = s.latches) := by
  intro before d t k
  have live : (context s c).live = true := by simp [Context.live, paging]
  obtain ⟨j, shape, ctx, others, -, -, record⟩ := rungBegun_spec (rung := rung) live
  obtain ⟨-, -, shown⟩ := showContext_atRung (rung := rung) live
  have acts : Acts (r.kind ∈ [4, 5]) c (rungBegun c rung s) t := by
    show Acts _ _ _ (enterRung c rung s).1
    rw [enterRung_target paging is]
    exact acts_actOnTarget (by rw [ctx]; exact live) d r
  have area : t.area = { s.area with slots := atRungSlots c rung s } := acts.area.trans (by rw [shape])
  have untargeted := acts.untargeted
  rw [ctx, is] at untargeted
  have images : ∀ i, before.slot = some i → i < s.area.slots.length →
      (slotImage t i).rung = rung ∧ (slotImage t i).pass = before.pass ∧ (slotImage t i).state = .paging := by
    intro i hi hl
    obtain ⟨state, at', pass⟩ := (shown i hi).2 hl
    rw [paging] at state
    unfold slotImage
    rw [area]
    exact ⟨at', pass, state⟩
  have fields : k.untargeted = _ := untargeted
  clear_value k
  refine ⟨(congrArg Context.rung fields :), (congrArg Context.state fields :).trans paging, (congrArg Context.pass fields :),
    (congrArg Context.tag fields :), (congrArg Context.deadline fields :), images, ?_, fun x hx => (acts.others x hx).trans (others x hx),
    ?_, acts.tickCount.trans (by rw [shape]), fun room kind number => ?_, fun no => (acts.latches no).trans (by rw [shape])⟩
  · rw [acts.attention, shape]
  · rw [acts.backlog, shape]
    rfl
  · obtain ⟨n, -, -, since, e, -⟩ := acts.logs
    refine ⟨since, ?_⟩
    rw [e, shape]
    show j.pending ++ since = _
    rw [record room, is, packTarget_eq kind number, List.append_assoc]
    rfl

/-! ## The rung that is found unservable (R38) -/

/-- A rung found unservable at its entry, the state before the entry taken as it was. -/
def IsUnservable (s : State) (c rung : Nat) (r : Rung) (u : State × List Task) : Prop :=
  let before := context s c
  let t := u.1
  let k := context t c
  u.2 = [.endRung c] ∧ k.turn = .stopped ∧ k.madeCurrent = [] ∧ k.contacted = before.contacted
    ∧ t.roster = s.roster ∧ t.dispatcher = s.dispatcher
    ∧ (s.journal.state = .writing → s.area.memoryFault = false → s.journal.pending.length < 63 →
      r.kind < 16 → r.number < 4096 →
      let record : RecordKind → JournalRecord := fun kind => { callRecord kind before with
        tick := s.tickCount, detail1 := rung * 256 + before.pass, detail2 := r.kind * 4096 + r.number }
      t.journal.pending = s.journal.pending ++ [record .rungEntered, record .noOneAvailable])

/-- A state in which the target of the rung acts, but for what it has done already to the latches (R29, R37). -/
structure AtEntry (s : State) (c rung : Nat) (r : Rung) (w : State) : Prop where
  roster : w.roster = s.roster
  dispatcher : w.dispatcher = s.dispatcher
  tickCount : w.tickCount = s.tickCount
  here : context w c = { (context s c).atRung rung with
    deadline := startWindow s (classLength s (context s c) r.windowClass) }
  logs : Logs 1 s w
  record : hasRoom s 1 → w.journal.pending = s.journal.pending ++ [{ callRecord .rungEntered (context s c) with
    tick := s.tickCount, detail1 := packBytes rung (context s c).pass, detail2 := packTarget r.kind r.number }]

theorem atEntry_rungBegun (live : (context s c).live = true) (is : (callLadder s (context s c)).rung rung = r) :
    AtEntry s c rung r (rungBegun c rung s) := by
  obtain ⟨j, shape, ctx, -, -, logs, record⟩ := rungBegun_spec (rung := rung) live
  rw [is] at ctx record
  refine ⟨by rw [shape], by rw [shape], by rw [shape], ctx, logs, fun room => ?_⟩
  rw [shape]
  exact record room

theorem AtEntry.joinLatches {w : State} (h : AtEntry s c rung r w) (zones : List Nat) :
    AtEntry s c rung r (joinLatches c zones w) :=
  ⟨h.roster, h.dispatcher, h.tickCount, h.here, h.logs.trans (k := 0) (.of_same rfl rfl), h.record⟩

/-- The record NO ONE AVAILABLE follows the record RUNG ENTERED (R38). -/
theorem AtEntry.isUnservable {w : State} (h : AtEntry s c rung r w) : IsUnservable s c rung r (unservable c r w) := by
  obtain ⟨roster, dispatcher, tick, ctx, logs, record⟩ := h
  have mail := mail_submit (.refl w) (rungRecord .noOneAvailable (context w c) r)
  have here := (mail.context c).trans ctx
  refine ⟨rfl, ?_, ?_, ?_, mail.roster.trans roster, (submit_dispatcher _ w).trans dispatcher, fun state fault few kind number => ?_⟩
  · exact (congrArg Context.turn here :)
  · exact (congrArg Context.madeCurrent here :)
  · exact (congrArg Context.contacted here :)
  · have room : hasRoom w 1 := logs.hasRoom ⟨state, fault, by omega⟩
    show (submit _ w).journal.pending = _
    rw [submit_pending room, record ⟨state, fault, by omega⟩, tick, ctx, packTarget_eq kind number, List.append_assoc, rungRecord,
      packTarget_eq kind number]
    rfl

end Sys2Proof.Machine

/-! # Proofs: the entry of a rung, target by target (R33 to R38, R52, R141)

Who is paged by a CREW-ROTATE, a CREW-ALL and a MEMBER rung, which latches a beacon rung joins, and when each is unservable. -/

namespace Sys2Proof.Machine

variable {c rung m : Nat} {r : Rung} {pool : List Nat} {s t p : State}

/-! ## The begun rung -/

theorem samePaging_rungBegun (live : (context s c).live = true) : SamePaging c s (rungBegun c rung s) := by
  obtain ⟨j, shape, ctx, others, -⟩ := rungBegun_spec (rung := rung) live
  exact samePaging_of (by rw [shape]) others ctx ⟨rfl, rfl, rfl, rfl⟩

/-- The begun rung, once its target kind has set its mode. -/
theorem begunTarget_spec (live : (context s c).live = true) (f : Context → Context) :
    let v := modContext c f (rungBegun c rung s)
    (v.roster = s.roster ∧ v.dispatcher = s.dispatcher ∧ v.engine = s.engine ∧ v.tickCount = s.tickCount)
      ∧ context v c = f { (context s c).atRung rung with
        deadline := startWindow s (classLength s (context s c) ((callLadder s (context s c)).rung rung).windowClass) } := by
  intro v
  obtain ⟨j, shape, ctx, -, length, -⟩ := rungBegun_spec (rung := rung) live
  obtain ⟨hc, -⟩ := context_mem (c := c) (.inl live)
  refine ⟨⟨(modContext_roster ..).trans (by rw [shape]), (modContext_dispatcher ..).trans (by rw [shape]),
    (modContext_engine ..).trans (by rw [shape]), (modContext_tickCount ..).trans (by rw [shape])⟩, ?_⟩
  rw [← ctx]
  exact context_modContext_same f (by rw [length]; exact hc)

/-! ## The members that a rung pages (R31, R66, R83) -/

/-- The entry of a rung has paged a member, the state before the entry taken as it was. -/
def PagedBy (s : State) (c rung : Nat) (t : State) (m : Nat) : Prop :=
  let before := context s c
  let k := context t c
  k.isCurrent m = true
    ∧ (∃ e, k.contact m = some e ∧ e.current = true ∧ e.received = false ∧ e.cancelled = false
      ∧ e.breakIn = (member s m).engaged.isSome ∧ e.rung = rung ∧ e.pass = before.pass ∧ e.remind = .stopped ∧ e.remindCount = 0)
    ∧ (deliveryOf t { tag := before.tag, member := m, kind := .page }).isSome = true
    ∧ (m < s.roster.members.length → before.isCurrent m = false → (member t m).paged = (member s m).paged + 1)

/-- The members of a list paged from the begun rung, and no other member's record changed. -/
theorem pagedBy_of_pages {l : List Nat} {f : Context → Context} (live : (context s c).live = true) (ok : s.dispatcher.ok)
    (keeps : ∀ k, (f k).untargeted = k.untargeted ∧ (f k).contacted = k.contacted)
    (pages : Pages c l (modContext c f (rungBegun c rung s)) p) :
    (∀ m ∈ l, PagedBy s c rung p m) ∧ ∀ m, m ∉ l → member p m = member s m := by
  obtain ⟨⟨roster, dispatcher, -, -⟩, ctx⟩ := begunTarget_spec (rung := rung) live f
  generalize modContext c f (rungBegun c rung s) = v at pages roster dispatcher ctx
  obtain ⟨same, contacted⟩ := keeps { (context s c).atRung rung with
    deadline := startWindow s (classLength s (context s c) ((callLadder s (context s c)).rung rung).windowClass) }
  rw [← ctx] at same contacted
  have at' : (context v c).rung = rung := (congrArg Context.rung same :)
  have pass : (context v c).pass = (context s c).pass := (congrArg Context.pass same :)
  have tag : (context v c).tag = (context s c).tag := (congrArg Context.tag same :)
  have record (m : Nat) : member v m = member s m := by unfold member; rw [roster]
  refine ⟨fun m mem => ?_, fun m out => (pages.unpaged m out).trans (record m)⟩
  have paged := pages.paged m mem
  rw [record, at', pass] at paged
  obtain ⟨-, -, delivery⟩ := pages.records (dispatcher ▸ ok)
  refine ⟨paged.1, paged.contact, (deliveryOf_isSome_iff _ _).2 (tag ▸ delivery m mem), fun low old => ?_⟩
  have unmarked : (context v c).isCurrent m = false := by
    unfold Context.isCurrent
    rw [contacted]
    exact old
  rw [pages.stepped m mem (roster ▸ low) unmarked, record]

/-- A change of the context that leaves its contacted list leaves who has been paged. -/
theorem PagedBy.modContext {g : Context → Context} (h : PagedBy s c rung p m) (keeps : ∀ k, (g k).contacted = k.contacted) :
    PagedBy s c rung (modContext c g p) m := by
  have contacted : (context (Machine.modContext c g p) c).contacted = (context p c).contacted := by
    rw [context_modContext]
    split <;> [exact keeps _; rfl]
  obtain ⟨current, entry, delivery, paged⟩ := h
  unfold PagedBy Context.isCurrent Context.contact
  dsimp only
  rw [contacted]
  exact ⟨current, entry, delivery, paged⟩

/-! ## CREW-ROTATE (R33, R52) -/

theorem SamePaging.firstTurn (h : SamePaging c s t) (r : Rung) : firstTurn c r t = firstTurn c r s := by
  unfold Machine.firstTurn
  rw [h.roster]
  simp only [h.rungPool]

/-- The first turn is of the first position from the rotation pointer on that holds a member of the pool for the first time (R33). -/
theorem firstTurn_eq_some {list : List Nat} {start j : Nat} (crew : crewList s.roster.tables r.number = list)
    (pointer : s.roster.pointers.getD r.number 0 = start) (served : (rungPool s c (distinct list)).1 = pool) (low : j < list.length)
    (fits : (∀ i, i < (start + j) % list.length → list.getD i 0 ≠ list.getD ((start + j) % list.length) 0)
      ∧ list.getD ((start + j) % list.length) 0 ∈ pool)
    (first : ∀ n, n < j → ¬((∀ i, i < (start + n) % list.length → list.getD i 0 ≠ list.getD ((start + n) % list.length) 0)
      ∧ list.getD ((start + n) % list.length) 0 ∈ pool)) :
    firstTurn c r s = some ((start + j) % list.length) := by
  have told (n : Nat) : (isFirstPosition list ((start + n) % list.length) && pool.contains (list.getD ((start + n) % list.length) 0)) = true
      ↔ (∀ i, i < (start + n) % list.length → list.getD i 0 ≠ list.getD ((start + n) % list.length) 0)
        ∧ list.getD ((start + n) % list.length) 0 ∈ pool := by
    rw [Bool.and_eq_true, isFirstPosition_iff (Nat.mod_lt _ (Nat.zero_lt_of_lt low)), List.contains_iff_mem]
  unfold firstTurn
  dsimp only
  rw [crew, pointer, served]
  exact find?_positionsFrom.2 ⟨j, low, rfl, (told j).2 fits, fun n hn => Bool.eq_false_iff.2 fun k => first n hn ((told n).1 k)⟩

theorem firstTurn_eq_none (nobody : (rungPool s c (distinct (crewList s.roster.tables r.number))).1 = []) : firstTurn c r s = none := by
  unfold firstTurn
  dsimp only
  rw [nobody]
  exact List.find?_eq_none.2 fun i _ => by simp

/-- A quotient of naturals, rounded up. -/
theorem ceil_div_toNat (d : Nat) {n : Nat} (h : 0 < n) : ⌈(d : ℚ) / n⌉.toNat = (d + n - 1) / n := by
  rw [Int.ceil_toNat, ← Nat.ceilDiv_eq_add_pred_div]
  refine eq_of_forall_ge_iff fun k => ?_
  rw [Nat.ceil_le, ceilDiv_le_iff_le_mul h, div_le_iff₀ (by exact_mod_cast h), mul_comm]
  exact_mod_cast Iff.rfl

/-- The length of a rung deadline is a clamped one (R49). -/
theorem classLength_bounds (s : State) (k : Context) (x : Nat) : 50 ≤ classLength s k x ∧ classLength s k x ≤ 36000 := by
  unfold classLength windowLength clamp
  omega

/-- A window just started has its length left (R48, R51). -/
theorem remaining_startWindow (s : State) {d : Nat} (some : 0 < d) (few : d ≤ 36000) :
    (startWindow s d).remaining s.tickCount = d := by
  unfold startWindow
  split
  · rfl
  · have ahead : reached s.tickCount (s.tickCount + BitVec.ofNat 32 d) = false := by
      unfold reached
      rw [decide_eq_false_iff_not]
      bv_omega
    show (if reached s.tickCount (s.tickCount + BitVec.ofNat 32 d) = true then 0 else _) = d
    rw [if_neg (by simp [ahead])]
    bv_omega

/-- What the entry of a CREW-ROTATE rung leaves, with its first turn at a position of the crew's list (R33, R34, R52). -/
theorem enterRung_rotates {list : List Nat} {i : Nat} (paging : (context s c).state = .paging) (ok : s.dispatcher.ok)
    (is : (callLadder s (context s c)).rung rung = r) (kind : r.kind = 1) (number : r.number < s.roster.tables.crews.length)
    (crew : crewList s.roster.tables r.number = list) (served : (rungPool s c (distinct list)).1 = pool)
    (first : firstTurn c r s = some i) (someone : 0 < pool.length) :
    let d := classLength s (context s c) r.windowClass
    let length := min d (max s.roster.settings.minimumTurn ⌈(d : ℚ) / pool.length⌉.toNat)
    let u := enterRung c rung s
    let k := context u.1 c
    u.2 = [] ∧ k.mode = .rotate ∧ k.turnMember = some (list.getD i 0) ∧ k.turnCount = pool.length ∧ k.turnLength = length
      ∧ k.firstPosition = i ∧ k.madeCurrent = [list.getD i 0] ∧ PagedBy s c rung u.1 (list.getD i 0)
      ∧ k.turn = startWindow s length := by
  intro d length
  have live : (context s c).live = true := by simp [Context.live, paging]
  have same := samePaging_rungBegun (rung := rung) live
  let breakIn := (rungPool s c (distinct list)).2
  obtain ⟨⟨roster, -, engine, tick⟩, ctx⟩ := begunTarget_spec (rung := rung) live (Context.rotating i pool.length length breakIn)
  have turns : turnLengthOf d pool.length s.roster.settings.minimumTurn = length := by
    rw [turnLengthOf, ← ceil_div_toNat d someone]
  have enters : enterRung c rung s = (startTurn c (list.getD i 0)
      (modContext c (Context.rotating i pool.length length breakIn) (rungBegun c rung s)), []) := by
    rw [enterRung_target paging is, actOnTarget_rotate kind, same.roster, if_pos number, enterRotate_eq]
    dsimp only
    rw [same.firstTurn, first, same.roster, crew, same.rungPool, served, turns]
  obtain ⟨p, pages, starts⟩ := startTurn_spec (s := modContext c (Context.rotating i pool.length length breakIn) (rungBegun c rung s))
    (c := c) (by rw [ctx]; exact live) (list.getD i 0)
  obtain ⟨paged, -⟩ := pagedBy_of_pages (f := Context.rotating _ _ _ _) live ok (fun _ => ⟨rfl, rfl⟩) pages
  obtain ⟨-, ⟨-, -, mode, -, count, turnLength, position⟩, made⟩ := pages.fields
  have window (n : Nat) : startWindow (modContext c (Context.rotating i pool.length length breakIn) (rungBegun c rung s)) n
      = startWindow s n := by simp only [startWindow, engine, tick]
  have whole : (startWindow s d).remaining s.tickCount = d := by
    obtain ⟨most, least⟩ := classLength_bounds s (context s c) r.windowClass
    exact remaining_startWindow s (by omega) least
  have rest : min length ((startWindow s d).remaining s.tickCount) = length := by
    rw [whole]
    exact min_eq_left (min_le_left ..)
  rw [ctx, is] at starts mode count turnLength position made
  rw [window, tick, show min (Context.turnLength _) (Window.remaining _ (Context.deadline _)) = length from rest] at starts
  rw [enters, starts]
  obtain ⟨hc, -⟩ := context_mem (s := p) (c := c) (.inr ⟨_, (paged _ (List.mem_singleton_self _)).1⟩)
  dsimp only
  refine ⟨rfl, ?_, ?_, ?_, ?_, ?_, ?_, (paged _ (List.mem_singleton_self _)).modContext fun _ => rfl, ?_⟩
  all_goals rw [context_modContext_same _ hc]
  · exact mode
  · exact count
  · exact turnLength
  · exact position
  · exact made

/-! ## CREW-ALL and MEMBER (R35, R36) -/

/-- What the entry of a CREW-ALL rung leaves, its pool holding somebody (R35). -/
theorem enterRung_pagesAll (paging : (context s c).state = .paging) (ok : s.dispatcher.ok)
    (is : (callLadder s (context s c)).rung rung = r) (kind : r.kind = 2) (number : r.number < s.roster.tables.crews.length)
    (served : (rungPool s c (distinct (crewList s.roster.tables r.number))).1 = pool) (someone : pool ≠ []) :
    let u := enterRung c rung s
    let k := context u.1 c
    u.2 = [] ∧ k.mode = .all ∧ k.madeCurrent = pool ∧ k.turn = .stopped ∧ (∀ m ∈ pool, PagedBy s c rung u.1 m)
      ∧ ∀ m, m ∉ pool → member u.1 m = member s m := by
  have live : (context s c).live = true := by simp [Context.live, paging]
  have same := samePaging_rungBegun (rung := rung) live
  let breakIn := (rungPool s c (distinct (crewList s.roster.tables r.number))).2
  let v := modContext c (Context.pagingAll breakIn) (rungBegun c rung s)
  obtain ⟨-, ctx⟩ := begunTarget_spec (rung := rung) live (Context.pagingAll breakIn)
  have enters : enterRung c rung s = (pool.foldl (fun s m => makeCurrent c m s) v, []) := by
    rw [enterRung_target paging is, actOnTarget_all kind, same.roster, if_pos number, enterAll_eq, same.roster, same.rungPool]
    dsimp only
    rw [served, if_neg (by simpa using someone)]
  have pages := pages_foldl (s := v) (c := c) pool (served ▸ nodup_rungPool ..) (by rw [ctx]; exact live)
  obtain ⟨paged, others⟩ := pagedBy_of_pages (f := Context.pagingAll breakIn) live ok (fun _ => ⟨rfl, rfl⟩) pages
  obtain ⟨-, ⟨-, turn, mode, -⟩, made⟩ := pages.fields
  rw [ctx] at turn mode made
  rw [enters]
  exact ⟨rfl, mode, made, turn, paged, others⟩

/-- What the entry of a MEMBER rung leaves, its member being eligible (R36). -/
theorem enterRung_pagesMember (paging : (context s c).state = .paging) (ok : s.dispatcher.ok)
    (is : (callLadder s (context s c)).rung rung = r) (kind : r.kind = 3) (number : r.number < s.roster.tables.roster.length)
    (fit : eligible s c r.number = true) :
    let u := enterRung c rung s
    let k := context u.1 c
    u.2 = [] ∧ k.mode = .member ∧ k.madeCurrent = [r.number] ∧ k.turn = .stopped ∧ PagedBy s c rung u.1 r.number := by
  have live : (context s c).live = true := by simp [Context.live, paging]
  have same := samePaging_rungBegun (rung := rung) live
  let v := modContext c (Context.inMode .member) (rungBegun c rung s)
  obtain ⟨-, ctx⟩ := begunTarget_spec (rung := rung) live (Context.inMode .member)
  have enters : enterRung c rung s = (makeCurrent c r.number v, []) := by
    rw [enterRung_target paging is, actOnTarget_member kind, enterMember_eq, same.roster, same.eligible, if_pos (by simp [number, fit])]
  have pages := pages_makeCurrent (s := v) (c := c) (by rw [ctx]; exact live) r.number
  obtain ⟨paged, -⟩ := pagedBy_of_pages (f := Context.inMode .member) live ok (fun _ => ⟨rfl, rfl⟩) pages
  obtain ⟨-, ⟨-, turn, mode, -⟩, made⟩ := pages.fields
  rw [ctx] at turn mode made
  rw [enters]
  exact ⟨rfl, mode, made, turn, paged _ (List.mem_singleton_self _)⟩

/-! ## Crews and members with nobody to page, and rungs of no kind (R27, R38) -/

/-- A rung of no target kind is unservable (R27). -/
theorem enterRung_noKind (paging : (context s c).state = .paging) (is : (callLadder s (context s c)).rung rung = r)
    (kind : r.kind ∉ [1, 2, 3, 4, 5]) : IsUnservable s c rung r (enterRung c rung s) := by
  rw [enterRung_target paging is, actOnTarget_other kind]
  exact (atEntry_rungBegun (by simp [Context.live, paging]) is).isUnservable

/-- A CREW rung with no crew, or with nobody in its pool, is unservable (R38). -/
theorem enterRung_noCrew (paging : (context s c).state = .paging) (is : (callLadder s (context s c)).rung rung = r)
    (kind : r.kind ∈ [1, 2]) (nobody : s.roster.tables.crews.length ≤ r.number
      ∨ (rungPool s c (distinct (crewList s.roster.tables r.number))).1 = []) : IsUnservable s c rung r (enterRung c rung s) := by
  have live : (context s c).live = true := by simp [Context.live, paging]
  have same := samePaging_rungBegun (rung := rung) live
  have unservable := (atEntry_rungBegun live is).isUnservable
  rw [enterRung_target paging is]
  rcases List.mem_pair.1 kind with e | e
  · rw [actOnTarget_rotate e, same.roster]
    split
    · have empty := nobody.resolve_left (by omega)
      rw [enterRotate_eq]
      dsimp only
      rw [same.firstTurn, firstTurn_eq_none empty]
      exact unservable
    · exact unservable
  · rw [actOnTarget_all e, same.roster]
    split
    · have empty := nobody.resolve_left (by omega)
      rw [enterAll_eq, same.roster, same.rungPool]
      dsimp only
      rw [empty, if_pos List.isEmpty_nil]
      exact unservable
    · exact unservable

/-- A MEMBER rung whose member may not be paged is unservable (R36, R38). -/
theorem enterRung_noMember (paging : (context s c).state = .paging) (is : (callLadder s (context s c)).rung rung = r)
    (kind : r.kind = 3) (nobody : s.roster.tables.roster.length ≤ r.number ∨ eligible s c r.number = false) :
    IsUnservable s c rung r (enterRung c rung s) := by
  have live : (context s c).live = true := by simp [Context.live, paging]
  have same := samePaging_rungBegun (rung := rung) live
  rw [enterRung_target paging is, actOnTarget_member kind, enterMember_eq, same.roster, same.eligible, if_neg]
  · exact (atEntry_rungBegun live is).isUnservable
  · rcases nobody with none | unfit
    · simp [none]
    · simp [unfit]

/-! ## BEACON-ZONE and BEACON-PLANT (R37, R141) -/

theorem mem_insertContext (c x : Nat) (l : List Nat) : x ∈ insertContext c l ↔ x = c ∨ x ∈ l := by
  induction l with
  | nil => simp [insertContext]
  | cons y l ih =>
    unfold insertContext
    split
    · rw [List.mem_cons]
    · split
      · rename_i same
        simp [same]
      · rw [List.mem_cons, ih, List.mem_cons, or_left_comm]

theorem mem_latch_joinLatches {z x : Nat} {zones : List Nat} (all : s.latches.length = 24) (low : 1 ≤ z) (high : z ≤ 24) :
    x ∈ latch (joinLatches c zones s) z ↔ x ∈ latch s z ∨ x = c ∧ z ∈ zones := by
  have inside : z - 1 < s.latches.length := by omega
  unfold latch joinLatches
  rw [if_neg (by omega), if_neg (by omega)]
  simp only [List.getD_eq_getElem?_getD, List.getElem?_mapIdx, List.getElem?_eq_getElem inside, Option.map_some, Option.getD_some,
    Nat.sub_add_cancel low, List.contains_iff_mem]
  split
  · rename_i joins
    rw [mem_insertContext]
    tauto
  · tauto

/-- The zones that a beacon rung joins: the call's own, or every enabled one (R37). -/
theorem mem_joinedZones {z : Nat} {k : Context} {plant : Bool} (low : 1 ≤ z) (high : z ≤ 24) :
    z ∈ joinedZones s k plant ↔ if plant = false ∧ k.zone ≠ 0 then z = k.zone else zoneEnabled s.roster.tables z = true := by
  have numbered : z ∈ (List.range 24).map (· + 1) := List.mem_map.2 ⟨z - 1, List.mem_range.2 (by omega), by omega⟩
  unfold joinedZones enabledZones
  by_cases own : plant = false ∧ k.zone ≠ 0
  · rw [if_pos own, if_neg (by simp [own]), List.mem_singleton]
  · rw [if_neg own, if_pos (by simpa using not_and_or.1 own), List.mem_filter]
    exact and_iff_right numbered

/-- The zones that a beacon rung joins are zones of the part, where the call's own zone is. -/
theorem joinedZones_bounds {z : Nat} {k : Context} {plant : Bool} (own : k.zone ≤ 24) (h : z ∈ joinedZones s k plant) :
    1 ≤ z ∧ z ≤ 24 := by
  unfold joinedZones enabledZones at h
  split at h
  · obtain ⟨i, hi, rfl⟩ := List.mem_map.1 (List.mem_filter.1 h).1
    exact ⟨Nat.le_add_left 1 i, List.mem_range.1 hi⟩
  · rename_i zone
    simp only [Bool.or_eq_true, decide_eq_true_eq, not_or] at zone
    rw [List.mem_singleton.1 h]
    omega

/-- The call joins the latch of a zone on a beacon rung: of its own zone, or of every enabled one (R37). -/
def Joins (s : State) (c : Nat) (r : Rung) (z : Nat) : Prop :=
  if r.kind = 4 ∧ (context s c).zone ≠ 0 then z = (context s c).zone else zoneEnabled s.roster.tables z = true

theorem mem_joinedZones_iff_joins {z : Nat} (kind : r.kind ∈ [4, 5]) (low : 1 ≤ z) (high : z ≤ 24) :
    z ∈ joinedZones s (context s c) (r.kind == 5) ↔ Joins s c r z := by
  have zone : (r.kind == 5) = false ↔ r.kind = 4 := by
    rcases List.mem_pair.1 kind with e | e <;> simp [e]
  rw [mem_joinedZones low high]
  simp only [zone]
  rfl

/-- The state in which a beacon rung has joined its latches (R37). -/
def beaconLit (c rung : Nat) (r : Rung) (s : State) : State :=
  joinLatches c (joinedZones s (context s c) (r.kind == 5)) (rungBegun c rung s)

/-- The begun rung is as it was in all but the latches. -/
theorem beaconLit_spec (live : (context s c).live = true) (r : Rung) : (beaconLit c rung r s).roster = s.roster
    ∧ zoneServable (beaconLit c rung r s) = zoneServable s
    ∧ c < (beaconLit c rung r s).calls.contexts.length
    ∧ context (beaconLit c rung r s) c = { (context s c).atRung rung with
        deadline := startWindow s (classLength s (context s c) ((callLadder s (context s c)).rung rung).windowClass) } := by
  obtain ⟨j, shape, ctx, -, length, -⟩ := rungBegun_spec (rung := rung) live
  obtain ⟨hc, -⟩ := context_mem (c := c) (.inl live)
  have roster : (rungBegun c rung s).roster = s.roster := by rw [shape]
  have drops : allDrops (rungBegun c rung s) = allDrops s := by rw [shape]; rfl
  rw [← length] at hc
  unfold beaconLit
  clear shape length
  generalize rungBegun c rung s = w at *
  refine ⟨roster, ?_, hc, ctx⟩
  unfold zoneServable
  rw [← drops]
  rfl

theorem mem_latch_beaconLit {z x : Nat} (live : (context s c).live = true) (kind : r.kind ∈ [4, 5]) (all : s.latches.length = 24)
    (low : 1 ≤ z) (high : z ≤ 24) : x ∈ latch (beaconLit c rung r s) z ↔ x ∈ latch s z ∨ x = c ∧ Joins s c r z := by
  obtain ⟨j, shape, -⟩ := rungBegun_spec (rung := rung) live
  have begun : (rungBegun c rung s).latches = s.latches := by rw [shape]
  have same : latch (rungBegun c rung s) z = latch s z := by
    unfold latch
    rw [begun]
  rw [beaconLit, mem_latch_joinLatches (by rw [begun]; exact all) low high, same, mem_joinedZones_iff_joins kind low high]

theorem enterRung_beacon (paging : (context s c).state = .paging) (is : (callLadder s (context s c)).rung rung = r)
    (kind : r.kind ∈ [4, 5]) : enterRung c rung s =
      if (joinedZones s (context s c) (r.kind == 5)).any (zoneServable s)
        then (modContext c (Context.inMode .beacon) (beaconLit c rung r s), []) else unservable c r (beaconLit c rung r s) := by
  have live : (context s c).live = true := by simp [Context.live, paging]
  obtain ⟨j, shape, ctx, -⟩ := rungBegun_spec (rung := rung) live
  obtain ⟨-, servable, -⟩ := beaconLit_spec (rung := rung) live r
  have zones : joinedZones (rungBegun c rung s) (context (rungBegun c rung s) c) (r.kind == 5)
      = joinedZones s (context s c) (r.kind == 5) := by
    rw [ctx, shape]
    rfl
  rw [enterRung_target paging is, actOnTarget_beacon kind, enterBeacon_eq]
  dsimp only
  rw [zones, show zoneServable (joinLatches c (joinedZones s (context s c) (r.kind == 5)) (rungBegun c rung s)) = _ from servable]
  rfl

/-- The call joins the latches whether or not one of their zones is servable (R37). -/
theorem latches_enterRung_beacon (paging : (context s c).state = .paging) (is : (callLadder s (context s c)).rung rung = r)
    (kind : r.kind ∈ [4, 5]) : (enterRung c rung s).1.latches = (beaconLit c rung r s).latches := by
  rw [enterRung_beacon paging is kind]
  split
  · exact modContext_latches ..
  · exact (mail_submit (.refl _) _).latches

/-- A beacon rung with a servable zone runs, with nobody paged (R37). -/
theorem enterRung_lights {z : Nat} (paging : (context s c).state = .paging) (is : (callLadder s (context s c)).rung rung = r)
    (kind : r.kind ∈ [4, 5]) (low : 1 ≤ z) (high : z ≤ 24) (joins : Joins s c r z) (serves : zoneServable s z = true) :
    let u := enterRung c rung s
    let k := context u.1 c
    u.2 = [] ∧ k.mode = .beacon ∧ k.madeCurrent = [] ∧ k.turn = .stopped ∧ u.1.roster = s.roster := by
  obtain ⟨roster, -, hc, ctx⟩ := beaconLit_spec (s := s) (c := c) (rung := rung) (by simp [Context.live, paging]) r
  have some : (joinedZones s (context s c) (r.kind == 5)).any (zoneServable s) = true :=
    List.any_eq_true.2 ⟨z, (mem_joinedZones_iff_joins kind low high).2 joins, serves⟩
  rw [enterRung_beacon paging is kind, if_pos some]
  dsimp only
  rw [context_modContext_same _ hc, ctx, modContext_roster, roster]
  exact ⟨rfl, rfl, rfl, rfl, rfl⟩

/-- A beacon rung without a servable zone is unservable (R37, R38). -/
theorem enterRung_dark (paging : (context s c).state = .paging) (is : (callLadder s (context s c)).rung rung = r)
    (kind : r.kind ∈ [4, 5]) (own : (context s c).zone ≤ 24)
    (dark : ∀ z, 1 ≤ z → z ≤ 24 → Joins s c r z → zoneServable s z = false) : IsUnservable s c rung r (enterRung c rung s) := by
  have none : ¬(joinedZones s (context s c) (r.kind == 5)).any (zoneServable s) = true := by
    rw [List.any_eq_true]
    rintro ⟨z, mem, serves⟩
    obtain ⟨low, high⟩ := joinedZones_bounds own mem
    rw [dark z low high ((mem_joinedZones_iff_joins kind low high).1 mem)] at serves
    cases serves
  rw [enterRung_beacon paging is kind, if_neg none]
  exact ((atEntry_rungBegun (by simp [Context.live, paging]) is).joinLatches _).isUnservable

/-- The latches that the entry of a beacon rung joins (R141). -/
theorem mem_latch_enterRung {z x : Nat} (paging : (context s c).state = .paging) (is : (callLadder s (context s c)).rung rung = r)
    (kind : r.kind ∈ [4, 5]) (all : s.latches.length = 24) (low : 1 ≤ z) (high : z ≤ 24) :
    x ∈ latch (enterRung c rung s).1 z ↔ x ∈ latch s z ∨ x = c ∧ Joins s c r z := by
  rw [← mem_latch_beaconLit (rung := rung) (by simp [Context.live, paging]) kind all low high, latch, latch,
    latches_enterRung_beacon paging is kind]

/-! ## Settled -/

/-- Settles O55: what every target kind leaves (`enterRung_entered`), and then kind by kind. -/
theorem enteringARungStartsItsDeadline : Obligations.EnteringARungStartsItsDeadline := by
  refine ⟨fun s c m => ⟨eligible_iff s c m, candidate_iff s c m⟩, fun s c rung _ paging ok => ?_⟩
  intro before r d list isFirst eligibles pool joins u t k isPaged isUnservable
  have served : (rungPool s c (distinct list)).1 = pool := rungPool_fst s c (distinct list)
  obtain ⟨at', state, pass, tag, deadline, images, event, others, backlog, tick, record, latches⟩ :=
    enterRung_entered paging (rung := rung) (r := r) rfl
  refine ⟨at', state, pass, tag, deadline, images, event, others, backlog, tick, record, latches, enterRung_noKind paging rfl,
    fun kind nobody => enterRung_noCrew paging rfl kind (served ▸ nobody), fun j kind number low => ?_,
    fun kind number someone => enterRung_pagesAll paging ok rfl kind number served someone,
    fun kind number fit => enterRung_pagesMember paging ok rfl kind number fit, enterRung_noMember paging rfl,
    fun kind all => ⟨fun z x low high => mem_latch_enterRung paging rfl kind all low high,
      fun ⟨z, low, high, joined, serves⟩ => enterRung_lights paging rfl kind low high joined serves,
      fun own dark => enterRung_dark paging rfl kind own dark⟩⟩
  intro positions fits here first
  exact enterRung_rotates paging ok rfl kind number rfl served (firstTurn_eq_some rfl rfl served low here first)
    (List.length_pos_of_mem here.2)

end Sys2Proof.Machine

/-! # Proofs: the tick, and the expiries that are not due (R47, R48) -/

namespace Sys2Proof.Machine

/-- Settles O15, state by state. -/
theorem tickStepsTheCountWhileActive : Obligations.TickStepsTheCountWhileActive := by
  refine fun s => ⟨fun active => ?_, fun rests => ?_⟩
  · have h : s.engine.active = true := by
      cases e : s.engine <;> simp_all [EngineState.active]
    exact congrArg Host.Outcome.next (if_pos h)
  · have h : ¬s.engine.active = true := by
      cases e : s.engine <;> simp_all [EngineState.active]
    exact congrArg Host.Outcome.next (if_neg h)

/-- A command that acts on a condition only, and whose condition fails. -/
theorem next_of_not {b : Bool} {s t : State} (h : b = false) :
    (.next (if b then t else s) : Host.Outcome State Fault Refusal) = .next s := by
  rw [h]
  rfl

theorem any_eq_false_of_forall {α : Type} {o : Option α} {p : α → Bool} (h : ∀ x, o = some x → p x = false) : o.any p = false := by
  cases o with
  | none => rfl
  | some x => exact h x rfl

/-- Settles O16: each expiry command acts only where its window, timer or limit is due. -/
theorem expiriesThatAreNotDueChangeNothing : Obligations.ExpiriesThatAreNotDueChangeNothing := by
  refine fun s c m key => ⟨fun h => next_of_not h, fun h => next_of_not h, fun h => ⟨next_of_not ?_, next_of_not ?_⟩,
    fun h => next_of_not (any_eq_false_of_forall h), fun h => next_of_not (any_eq_false_of_forall h),
    fun h => next_of_not (any_eq_false_of_forall h), fun h => next_of_not ?_, fun h => next_of_not ?_⟩
  · rw [arrivalDue, h, Bool.false_and]
  · rw [arrivalDue, h, Bool.false_and]
  · rw [scanTimerDue, any_eq_false_of_forall h, Bool.and_false]
  · rw [stoppingLimitDue, any_eq_false_of_forall h, Bool.and_false]

end Sys2Proof.Machine

/-! # Proofs: PAUSE (R59, R171, R172) -/

namespace Sys2Proof.Machine

variable {s t : State}

/-! ## The windows of every call -/

/-- The lamps read the latches, the drops' zones and, of each call, its severity, its state, its zone and its site (R142, R143). -/
theorem commands_mapContexts (g : Context → Context) (s : State) (calls : t.calls.contexts = s.calls.contexts.map g)
    (empty : g .empty = .empty) (latches : t.latches = s.latches) (line0 : t.line0 = s.line0) (line1 : t.line1 = s.line1)
    (keeps : ∀ k, (g k).severity = k.severity ∧ (g k).state = k.state ∧ (g k).zone = k.zone ∧ (g k).site = k.site) :
    callCommand t = callCommand s ∧ attendCommand t = attendCommand s := by
  have ctx (c : Nat) : context t c = g (context s c) := by
    unfold context
    rw [calls]
    conv_lhs => rw [← empty]
    exact List.getD_map ..
  have site : siteZone t = siteZone s := by
    funext x
    cases x with
    | station l a => cases l <;> simp [siteZone, drop?, State.line, line0, line1]
    | none => rfl
    | member => rfl
  constructor
  · funext z
    simp only [callCommand, mostSevere, latch, latches, ctx, keeps]
  · funext z
    have same : Context.attends t z ∘ g = Context.attends s z := by
      funext k
      obtain ⟨-, state, zone, place⟩ := keeps k
      simp only [Function.comp_apply, Context.attends, state, zone, place, site]
    rw [attendCommand, attendCommand, calls, List.any_map, same]

/-- Where the lamp commands are those of another state, an event closes with that state's lines. -/
theorem recomputeLamps_eq_of_commands (commands : callCommand t = callCommand s ∧ attendCommand t = attendCommand s)
    (line0 : t.line0 = s.line0) (line1 : t.line1 = s.line1) :
    recomputeLamps t = { t with line0 := (recomputeLamps s).line0, line1 := (recomputeLamps s).line1 } := by
  simp only [recomputeLamps, State.mapDrops, commands.1, commands.2, line0, line1]

/-- The windows of every call, changed alike where a STOPPED one stays so, leave the lamps as they were. -/
theorem recomputeLamps_mapWindows {f : Window → Window} (stopped : f .stopped = .stopped)
    (calls : t.calls.contexts = s.calls.contexts.map (Context.mapWindows f)) (latches : t.latches = s.latches)
    (line0 : t.line0 = s.line0) (line1 : t.line1 = s.line1) :
    recomputeLamps t = { t with line0 := (recomputeLamps s).line0, line1 := (recomputeLamps s).line1 } :=
  recomputeLamps_eq_of_commands (commands_mapContexts (Context.mapWindows f) s calls
    (by simp [Context.mapWindows, Context.empty, stopped]) latches line0 line1 fun _ => ⟨rfl, rfl, rfl, rfl⟩) line0 line1

/-! ## The event -/

/-- The part once PAUSE has frozen its windows, before the record ENGINE STATE (R59, R172). -/
def paused (s : State) : State :=
  raise .engineChange { mapWindows (Window.freeze s.tickCount) (showCommand .pause s) with engine := .paused }

/-- The record of a PAUSE (R172). -/
def pauseRecord : JournalRecord := { blankRecord .engineState with detail1 := 2, detail2 := 3 }

theorem pause_eq (agenda : s.agenda = []) (running : s.engine = .running) :
    exec (.pause false) s = .next (recomputeLamps (submit pauseRecord (paused s))) := by
  have pauses : pauseEngine (showCommand .pause s) = submit pauseRecord (paused s) := by
    show submit { blankRecord .engineState with detail1 := s.engine.code, detail2 := EngineState.paused.code } (paused s) = _
    rw [running]
    rfl
  refine (congrArg Host.Outcome.next (if_pos running)).trans (congrArg Host.Outcome.next ?_)
  rw [pauses]
  exact finish_nil _ ((submit_agenda _ _).trans agenda) (by rw [submit_engine]; exact (by decide : EngineState.paused ≠ .stopping))

/-- Settles O12: the frozen windows (`paused`), and what the submission of ENGINE STATE leaves of the journal. -/
theorem pauseFreezesEveryWindow : Obligations.PauseFreezesEveryWindow := by
  intro s running agenda
  obtain ⟨j, e, shape, bus⟩ := submit_journal pauseRecord (paused s)
  obtain ⟨j', e', -, -, -, -, taken, skipped⟩ := submit_eq pauseRecord (paused s)
  obtain rfl : j = j' := congrArg State.journal (e.symm.trans e')
  have lamps := recomputeLamps_mapWindows (t := { paused s with journal := j }) (s := s) (f := Window.freeze s.tickCount)
    rfl rfl rfl rfl rfl
  refine ⟨_, pause_eq agenda running, ?_⟩
  rw [e, lamps]
  exact ⟨congrArg (fun j => { paused s with
      line0 := (recomputeLamps s).line0, line1 := (recomputeLamps s).line1, journal := j }) shape,
    fun writing clear room => (taken writing clear room).symm, skipped, bus⟩

end Sys2Proof.Machine

/-! # Proofs: RESUME (R61, R102, R12) -/

namespace Sys2Proof.Machine

variable {c : Nat} {s t u : State}

/-! ## The windows that RESUME restarts -/

/-- A tick that lies some ticks ahead is reached at once only where there are none (R47). -/
theorem reached_add (now : Tick) {r : Nat} (h : r < 2147483648) : reached now (now + BitVec.ofNat 32 r) = true ↔ r = 0 := by
  have : (now - (now + BitVec.ofNat 32 r)).toNat = (4294967296 - r) % 4294967296 := by
    simp only [BitVec.toNat_sub, BitVec.toNat_add, BitVec.toNat_ofNat]
    omega
  rw [reached, this, decide_eq_true_iff]
  omega

theorem due_thaw (now : Tick) {r : Nat} (h : r < 2147483648) : ((Window.frozen r).thaw now).due now = true ↔ r = 0 :=
  reached_add now h

theorem Window.runsOn.not_due {w : Window} (h : w.runsOn) (now : Tick) : (w.thaw now).due now = false := by
  cases w with
  | stopped => rfl
  | running e => exact h.elim
  | frozen r =>
    obtain ⟨some, few⟩ := h
    rw [← Bool.not_eq_true, due_thaw now few]
    omega

/-- The part once RESUME has restarted its windows (R61, R172). -/
def resumed (s : State) : State := mapWindows (Window.thaw s.tickCount) (setEngine .running (showCommand .resume s))

theorem resumed_eq (s : State) : resumed s = { s with
    engine := .running
    window := { s.window with control := .resume }
    attention := { s.attention with event := s.attention.event ||| BitVec.twoPow 14 12 }
    calls := { s.calls with contexts := s.calls.contexts.map (Context.mapWindows (Window.thaw s.tickCount)) }
    dispatcher := { s.dispatcher with records := s.dispatcher.records.map fun r =>
      { r with receipt := r.receipt.thaw s.tickCount, retry := r.retry.thaw s.tickCount } }
    journal := (resumed s).journal } := by
  obtain ⟨j, e, -⟩ := setEngine_eq .running (showCommand .resume s)
  rw [resumed, e]
  rfl

theorem context_resumed (s : State) (c : Nat) :
    context (resumed s) c = (context s c).mapWindows (Window.thaw s.tickCount) := by
  rw [resumed_eq]
  exact List.getD_map (f := Context.mapWindows (Window.thaw s.tickCount)) (d := .empty) ..

/-! ## The PENDING records, in the order in which they became PENDING (R102) -/

/-- A record takes its place among others, before the first that has not become PENDING before it. -/
def placePending (r : Delivery) (l : List Delivery) : List Delivery :=
  l.takeWhile (fun x => x.pendingOrder < r.pendingOrder) ++ r :: l.dropWhile (fun x => x.pendingOrder < r.pendingOrder)

/-- The PENDING records in their order. -/
def waitingRecords (s : State) : List Delivery := (s.dispatcher.records.filter (·.isPending)).foldr placePending []

theorem pendingRecords_eq (s : State) : pendingRecords s = (waitingRecords s).map (·.serial) := rfl

theorem perm_placePending (r : Delivery) (l : List Delivery) : (placePending r l).Perm (r :: l) := by
  refine List.perm_middle.trans ?_
  rw [List.takeWhile_append_dropWhile]

theorem placePending_sorted (r : Delivery) {l : List Delivery} (h : l.Pairwise fun a b => a.pendingOrder ≤ b.pendingOrder) :
    (placePending r l).Pairwise fun a b => a.pendingOrder ≤ b.pendingOrder := by
  induction l with
  | nil => exact List.pairwise_singleton _ _
  | cons x l ih =>
    obtain ⟨first, rest⟩ := List.pairwise_cons.1 h
    unfold placePending
    by_cases lower : x.pendingOrder < r.pendingOrder
    · rw [List.takeWhile_cons_of_pos (by simpa using lower), List.dropWhile_cons_of_pos (by simpa using lower), List.cons_append]
      refine List.pairwise_cons.2 ⟨fun y hy => ?_, ih rest⟩
      rcases List.mem_cons.1 ((perm_placePending r l).mem_iff.1 hy) with rfl | hy
      · exact Nat.le_of_lt lower
      · exact first y hy
    · rw [List.takeWhile_cons_of_neg (by simpa using lower), List.dropWhile_cons_of_neg (by simpa using lower), List.nil_append]
      refine List.pairwise_cons.2 ⟨fun y hy => ?_, h⟩
      rcases List.mem_cons.1 hy with rfl | hy
      · omega
      · have := first y hy
        omega

theorem waitingRecords_spec (s : State) : (waitingRecords s).Perm (s.dispatcher.records.filter (·.isPending))
    ∧ (waitingRecords s).Pairwise fun a b => a.pendingOrder ≤ b.pendingOrder := by
  have fold (l : List Delivery) : (l.foldr placePending []).Perm l
      ∧ (l.foldr placePending []).Pairwise fun a b => a.pendingOrder ≤ b.pendingOrder := by
    induction l with
    | nil => exact ⟨.refl _, .nil⟩
    | cons r l ih => exact ⟨(perm_placePending r _).trans (ih.1.cons r), placePending_sorted r ih.2⟩
  exact fold _

/-! ## The event of a RESUME -/

theorem resume_eq (paused : s.engine = .paused) : exec (.resume false) s = .next (finish (resumed s,
    dueExpiries (resumed s) ++ (waitingRecords (resumed s)).map (fun r => Task.beginPending r.serial) ++ [.admitHeads])) := by
  refine (congrArg Host.Outcome.next (if_pos paused)).trans (congrArg Host.Outcome.next (congrArg finish ?_))
  have tasks : (waitingRecords (resumed s)).map (fun r => Task.beginPending r.serial)
      = (pendingRecords (resumed s)).map Task.beginPending := (List.map_map ..).symm
  rw [tasks]
  rfl

/-- Where every window runs on and nothing is PENDING, RESUME sets off the admissions alone. -/
theorem resume_quiet (contexts : ∀ k ∈ s.calls.contexts, k.deadline.runsOn ∧ k.turn.runsOn ∧ k.arrival.runsOn
      ∧ ∀ e ∈ k.contacted, e.remind.runsOn)
    (records : ∀ r ∈ s.dispatcher.records, r.receipt.runsOn ∧ r.retry.runsOn ∧ r.isPending = false) :
    dueExpiries (resumed s) = [] ∧ waitingRecords (resumed s) = [] := by
  have restarted : (resumed s).dispatcher.records = s.dispatcher.records.map fun r =>
      { r with receipt := r.receipt.thaw s.tickCount, retry := r.retry.thaw s.tickCount } := by rw [resumed_eq]
  have tick : (resumed s).tickCount = s.tickCount := by rw [resumed_eq]
  constructor
  · refine List.append_eq_nil_iff.2 ⟨List.flatMap_eq_nil_iff.2 fun c _ => ?_, List.flatMap_eq_nil_iff.2 fun r hr => ?_⟩
    · have runs : (context s c).deadline.runsOn ∧ (context s c).turn.runsOn ∧ (context s c).arrival.runsOn
          ∧ ∀ e ∈ (context s c).contacted, e.remind.runsOn := by
        by_cases hc : c < s.calls.contexts.length
        · refine contexts _ ?_
          rw [context, List.getD_eq_getElem _ _ hc]
          exact List.getElem_mem hc
        · rw [context, List.getD_eq_default _ _ (not_lt.1 hc)]
          exact ⟨trivial, trivial, trivial, fun e he => absurd he List.not_mem_nil⟩
      obtain ⟨deadline, turn, arrival, reminds⟩ := runs
      have none : ((context (resumed s) c).contacted.filter fun e => e.remind.due (resumed s).tickCount) = [] := by
        rw [context_resumed, tick]
        refine List.filter_eq_nil_iff.2 fun e he => ?_
        obtain ⟨x, hx, rfl⟩ := List.mem_map.1 he
        rw [Bool.not_eq_true]
        exact (reminds x hx).not_due _
      dsimp only
      rw [none]
      simp only [context_resumed, tick, Context.mapWindows, deadline.not_due, turn.not_due, arrival.not_due]
      rfl
    · rw [restarted] at hr
      obtain ⟨x, hx, rfl⟩ := List.mem_map.1 hr
      obtain ⟨receipt, retry, -⟩ := records x hx
      simp only [tick, receipt.not_due, retry.not_due]
      rfl
  · have none : (resumed s).dispatcher.records.filter (·.isPending) = [] := by
      rw [restarted]
      refine List.filter_eq_nil_iff.2 fun r hr => ?_
      obtain ⟨x, hx, rfl⟩ := List.mem_map.1 hr
      rw [Bool.not_eq_true]
      exact (records x hx).2.2
    rw [waitingRecords, none]
    rfl

/-! ## Admissions from the backlog (R12) -/

/-- A call that takes a context, whatever its slot (R9, R10). -/
theorem openCall_opens (i : Nat) (w : Waiting) (hc : c < s.calls.contexts.length) :
    let k := (context s c).admitted c (some i) w s.tickCount
    ∃ slots j, openCall c (some i) w s = ({ s with
        calls := { s.calls with contexts := s.calls.contexts.modify c (Context.admitted c (some i) w s.tickCount) }
        area := { s.area with slots := slots }, journal := j }, [.enterRung c 0])
      ∧ (hasRoom s 1 → j.pending = s.journal.pending ++ [{ callRecord .admitted k with
        tick := s.tickCount, detail1 := k.severity, detail2 := k.ladder }]) := by
  intro k
  let opened := modContext c (Context.admitted c (some i) w s.tickCount) s
  have ctx : context opened c = k := (context_modContext c _ s).trans (if_pos hc)
  have e := openCall_eq c i w s
  dsimp only at e
  rw [show modContext c (Context.admitted c (some i) w s.tickCount) s = opened from rfl,
    showContext_some (s := opened) (c := c) (i := i) (by rw [ctx]; rfl)] at e
  let shown := modSlot i SlotImage.opened (modSlot i (SlotImage.shown (context opened c)) opened)
  rw [show context (modSlot i SlotImage.opened (modSlot i (SlotImage.shown (context opened c)) opened)) c = k from ctx,
    submit_shape] at e
  exact ⟨shown.area.slots, _, e, fun room => submit_pending (s := shown) room _⟩

theorem admitHeads_nobody (h : s.engine ≠ .running ∨ s.calls.backlog = [] ∨ ∀ c, c < 64 → (context s c).state ≠ .free) :
    admitHeads s = (s, []) := by
  unfold admitHeads
  split
  · rename_i running waits some
    exfalso
    rcases h with h | h | h
    · exact h running
    · rw [h] at waits
      exact absurd waits (by simp)
    · have live := freeContext_free some
      exact h _ (List.mem_range.1 (List.mem_of_find?_eq_some some)) (by simpa [Context.live] using live)
  · rfl

/-- The head of the backlog, as it is admitted: with the ladder it is to walk (R8). -/
def admittedHead (s : State) (w : Waiting) : Waiting :=
  { w with ladder := if ladderUsable s.roster.tables w.ladder then w.ladder else 0 }

/-- The head of the backlog takes the lowest FREE context (R12). -/
theorem admitHeads_admits {w : Waiting} {rest : List Waiting} (running : s.engine = .running) (backlog : s.calls.backlog = w :: rest)
    (low : c < 64) (free : (context s c).state = .free) (used : ∀ d, d < c → (context s d).state ≠ .free) :
    ∃ j, admitHeads s = (let v : State := { s with calls := { s.calls with backlog := rest }, journal := j }
        ((openCall c (some w.slot) (admittedHead s w) v).1, (openCall c (some w.slot) (admittedHead s w) v).2 ++ [.admitHeads]))
      ∧ Logs 1 s { s with journal := j }
      ∧ (hasRoom s 1 → j.pending = s.journal.pending ++ (if ladderUsable s.roster.tables w.ladder then []
        else [{ waitingRecord .ladderSubstituted w with tick := s.tickCount, detail1 := w.ladder }])) := by
  obtain ⟨j, substituted, logs, record⟩ := substituteLadder_eq w (s.modCalls fun k => { k with backlog := rest })
  have admits : admitHeads s = (let p := substituteLadder w (s.modCalls fun k => { k with backlog := rest })
      ((openCall c (some w.slot) p.1 p.2).1, (openCall c (some w.slot) p.1 p.2).2 ++ [.admitHeads])) := by
    unfold admitHeads
    rw [running, backlog, freeContext_some low free used]
  rw [substituted] at admits
  exact ⟨j, admits, logs, record⟩

/-- What the admission of the backlog's head leaves (R8 to R10, R12). -/
theorem admitHeads_spec {w : Waiting} {rest : List Waiting} (running : s.engine = .running) (backlog : s.calls.backlog = w :: rest)
    (low : c < 64) (hc : c < s.calls.contexts.length) (free : (context s c).state = .free)
    (used : ∀ d, d < c → (context s d).state ≠ .free) :
    let r := admitHeads s
    let ladder := if ladderUsable s.roster.tables w.ladder then w.ladder else 0
    let tag := (context s c).reuse * 128 + c
    r.2 = [.enterRung c 0, .admitHeads]
      ∧ r.1.calls.backlog = rest ∧ (∀ d, d ≠ c → context r.1 d = context s d)
      ∧ context r.1 c = (context s c).admitted c (some w.slot) (admittedHead s w) s.tickCount
      ∧ (w.slot < s.area.slots.length → (slotImage r.1 w.slot).state = .paging ∧ (slotImage r.1 w.slot).tag = some tag
        ∧ (slotImage r.1 w.slot).admitTick = s.tickCount)
      ∧ (s.journal.state = .writing → s.area.memoryFault = false → s.journal.pending.length < 63 →
        r.1.journal.pending = s.journal.pending
          ++ (if ladderUsable s.roster.tables w.ladder then [] else [{ blankRecord .ladderSubstituted with
            tick := s.tickCount, zone := w.zone, slot := some w.slot, callNumber := w.callNumber, origin := w.origin
            detail1 := w.ladder }])
          ++ [{ blankRecord .admitted with
            tick := s.tickCount, zone := w.zone, slot := some w.slot, tag := some tag, callNumber := w.callNumber
            origin := w.origin, detail1 := w.severity, detail2 := ladder }])
      ∧ r.1.roster = s.roster ∧ r.1.attention = s.attention ∧ r.1.dispatcher = s.dispatcher := by
  intro r ladder tag
  obtain ⟨j, admits, logs, first⟩ := admitHeads_admits running backlog low free used
  let v : State := { s with calls := { s.calls with backlog := rest }, journal := j }
  obtain ⟨slots, j', e, second⟩ := openCall_opens (s := v) w.slot (admittedHead s w) hc
  have is : r = ((openCall c (some w.slot) (admittedHead s w) v).1, [.enterRung c 0, .admitHeads]) := by
    refine admits.trans ?_
    dsimp only
    rw [show (openCall c (some w.slot) (admittedHead s w) _).2 = _ from congrArg Prod.snd e]
    rfl
  rw [is]
  refine ⟨rfl, ?_, fun d hd => ?_, ?_, fun slot => ?_, fun writing clear room => ?_, ?_, ?_, ?_⟩
  · rw [e]
  · rw [e]
    exact context_modContext_ne hd _ s
  · rw [e]
    exact (context_modContext c _ s).trans (if_pos hc)
  · obtain ⟨-, -, -, -, -, ⟨dirty, touched, image⟩, -⟩ := openCall_spec (s := v) (c := c) (admittedHead s w) slot hc
    dsimp only
    rw [image]
    exact ⟨rfl, rfl, rfl⟩
  · have two : hasRoom s (1 + 1) := ⟨writing, clear, by omega⟩
    rw [e]
    refine (second (logs.hasRoom two)).trans ?_
    rw [show v.journal.pending = _ from first ⟨writing, clear, by omega⟩]
    rfl
  all_goals rw [e]

/-- Settles O13: the windows (`resumed`), the order of the PENDING records (`waitingRecords`), the expiries and the admissions. -/
theorem resumeRestartsEveryWindow : Obligations.ResumeRestartsEveryWindow := by
  refine ⟨fun s isPaused agenda nobody _ contexts records => ?_, fun now r few => due_thaw now few, fun s isPaused => ?_,
    fun s c m key => ⟨fun h => ?_, fun h => ?_, fun h => ⟨fun one => ?_, fun two => ?_⟩, fun e he h => ?_,
    fun r hr => ⟨fun h => ?_, fun h => ?_⟩,
      fun r hr => ?_⟩,
    fun s => ⟨admitHeads_nobody, fun w rest c running backlog low hc free used => admitHeads_spec running backlog low hc free used⟩⟩
  · obtain ⟨expiries, waiting⟩ := resume_quiet contexts records
    have admits : perform .admitHeads (resumed s) = (resumed s, []) := by
      refine admitHeads_nobody (.inr (.inl ?_))
      rw [resumed_eq]
      exact nobody
    have e := resume_eq isPaused
    rw [expiries, waiting, List.map_nil, List.nil_append, List.nil_append,
      finish_one _ _ (by rw [resumed_eq]; exact agenda) (by rw [admits]), admits,
      closeEvent_eq _ (by rw [resumed_eq]; exact (by decide : EngineState.running ≠ .stopping)), resumed_eq] at e
    exact ⟨_, e, rfl, rfl, rfl, rfl, rfl, rfl, rfl, rfl, rfl, rfl, rfl, rfl⟩
  · refine ⟨resumed s, waitingRecords (resumed s), resumed_eq s, (waitingRecords_spec _).1, (waitingRecords_spec _).2, ?_⟩
    have tick : (resumed s).tickCount = s.tickCount := by rw [resumed_eq]
    have e := resume_eq isPaused
    rw [dueExpiries, tick] at e
    exact e
  · exact congrArg Host.Outcome.next (if_pos h)
  · exact congrArg Host.Outcome.next (if_pos h)
  · exact congrArg Host.Outcome.next (if_pos (by rw [arrivalDue, h, one]; rfl))
  · exact congrArg Host.Outcome.next (if_pos (by rw [arrivalDue, h, two]; rfl))
  · exact congrArg Host.Outcome.next (if_pos (by rw [he]; exact h))
  · exact congrArg Host.Outcome.next (if_pos (by rw [hr]; exact h))
  · exact congrArg Host.Outcome.next (if_pos (by rw [hr]; exact h))
  · show beginPending r.serial s = _
    rw [beginPending, hr]

end Sys2Proof.Machine

/-! # Proofs: the lengths of deadlines and arrival windows (R49), and the first arrival expiry (R54, R115) -/

namespace Sys2Proof.Machine

variable {c m : Nat} {s t : State}

/-! ## The formula of R49 -/

theorem windowLength_eq (t r s : Nat) :
    windowLength t r s = max 50 (min 36000 ⌈((t * 10 * r * s : Nat) : ℚ) / 10000⌉.toNat) := by
  have ceil := ceil_div_toNat (t * 10 * r * s) (n := 10000) (by decide)
  rw [Nat.cast_ofNat] at ceil
  rw [ceil]
  rfl

theorem severityScale_eq (s : Nat) :
    severityScale s = if s = 1 then 50 else if s = 2 then 75 else if s = 3 then 100 else 150 := by
  unfold severityScale
  split
  · rfl
  · rfl
  · rfl
  · rename_i one two three
    rw [if_neg one, if_neg two, if_neg three]

theorem reachPercent_plant (s : State) : reachPercent s 0 = s.roster.settings.plantReach := rfl

theorem reachPercent_zone {z : Nat} {r : ZoneRecord} (some : z ≠ 0) (h : s.roster.tables.zones[z - 1]? = .some r) :
    reachPercent s z = r.reach := by
  rw [reachPercent, if_neg some, h]
  rfl

theorem windowTable_readSettings (data : List Byte) {i : Nat} (h : i < 16) :
    (readSettings data).windowTable[i]? = some (max 1 (min 3600 (le16 data (28 + 2 * i)))) := by
  show ((List.range 16).map fun i => clamp 1 3600 (le16 data (28 + 2 * i)))[i]? = _
  rw [List.getElem?_map, List.getElem?_range h]
  rfl

theorem product_lt {t r s : Nat} (ht : t ≤ 3600) (hr : r ≤ 400) (hs : s ≤ 150) : t * 10 * r * s < 2 ^ 32 :=
  calc t * 10 * r * s ≤ 3600 * 10 * 400 * 150 := by gcongr
    _ < 2 ^ 32 := by norm_num

/-- The length of a window is read from the settings, the tables and the call alone (R49). -/
theorem classLength_congr {k l : Context} (settings : t.roster.settings = s.roster.settings)
    (tables : t.roster.tables = s.roster.tables) (zone : l.zone = k.zone) (severity : l.severity = k.severity) (x : Nat) :
    classLength t l x = classLength s k x := by
  simp only [classLength, reachPercent, settings, tables, zone, severity]

/-! ## The arrival window of a taken ACCEPT (R108) -/

/-- A CANCEL marks an entry of the contacted list and changes nothing else of the context. -/
theorem unlisted_cancelMember (c m : Nat) (s : State) :
    (context (cancelMember c m s) c).unlisted = (context s c).unlisted := by
  unfold cancelMember
  rw [(mail_sendCancel (.refl _) _ _).context, context_modContext]
  split <;> rfl

theorem unlisted_cancelOthers (c : Nat) (but : Option Nat) (s : State) :
    (context (cancelOthers c but s) c).unlisted = (context s c).unlisted := by
  unfold cancelOthers
  generalize (context s c).contacted.filter _ = l
  induction l generalizing s with
  | nil => rfl
  | cons e l ih => exact (ih _).trans (unlisted_cancelMember c e.member s)

/-- The length of an arrival window of a call that begins now (R49). -/
def arrivalLengthOf (s : State) (k : Context) : Nat := classLength s k (callLadder s k).arrivalClass

/-- A call is accepted and its arrival window begins, before its members are told. -/
def arrivalBegun (c m : Nat) (s : State) : State :=
  let u := moveRotationPointers m (engage m (context s c).tag s)
  let a := arrivalLengthOf u (context u c)
  modContext c (fun k => { k with arrival := startWindow (stopRung c u) a, arrivalLength := a, arrivalCount := 1 }) (stopRung c u)

theorem arrival_arrivalBegun (hc : c < s.calls.contexts.length) (running : s.engine = .running) :
    (context (arrivalBegun c m s) c).arrival = .running (s.tickCount + BitVec.ofNat 32 (arrivalLengthOf s (context s c))) := by
  unfold arrivalBegun
  rw [context_modContext_same _ (by exact (List.length_modify ..).symm ▸ hc)]
  exact if_neg (by show s.engine ≠ _; rw [running]; decide)

/-- The context of a call accepted by a member (R108). -/
def Context.acceptedBy (m : Nat) (tick : Tick) (k : Context) : Context :=
  { (k.ensureContact m) with state := .accepted, accepter := some m, acceptRung := k.rung, acceptTick := tick }

/-- The call that takes an ACCEPT, with its members' marks lost and their CANCELs sent. -/
def acceptTold (c m : Nat) (s : State) : State :=
  let u := arrivalBegun c m s
  cancelOthers c (some m) (loseMarks c (showContext c (modContext c (Context.acceptedBy m u.tickCount) u)))

theorem takeAccept_eq (c m : Nat) (s : State) :
    ∃ r, takeAccept c m s = submit r (sendConfirm (context (acceptTold c m s) c) m (leaveLatches c (acceptTold c m s))) :=
  ⟨_, rfl⟩

theorem arrival_of_unlisted {k l : Context} (h : l.unlisted = k.unlisted) : l.arrival = k.arrival :=
  (congrArg Context.arrival h :)

theorem arrival_takeAccept (c m : Nat) (s : State) :
    (context (takeAccept c m s) c).arrival = (context (arrivalBegun c m s) c).arrival := by
  obtain ⟨r, e⟩ := takeAccept_eq c m s
  have tells : context (takeAccept c m s) c = context (acceptTold c m s) c := by
    rw [e, (mail_submit (mail_sendConfirm (.refl _) _ _) _).context]
    generalize acceptTold c m s = u
    rfl
  have told : (context (acceptTold c m s) c).unlisted
      = (context (modContext c (Context.acceptedBy m (arrivalBegun c m s).tickCount) (arrivalBegun c m s)) c).unlisted := by
    unfold acceptTold
    rw [unlisted_cancelOthers, (context_loseMarks c _).2, (showContext_shape c _).1]
    rfl
  rw [tells, arrival_of_unlisted told, context_modContext]
  split
  · show (Context.ensureContact m _).arrival = _
    exact arrival_of_unlisted (Context.unlisted_ensureContact m (context (arrivalBegun c m s) c))
  · rfl

/-! ## The first arrival expiry (R54, R115) -/

/-- The second arrival window of a call begins with a length. -/
def Context.secondArrival (w : Window) (a : Nat) (k : Context) : Context :=
  { k with arrival := w, arrivalLength := a, arrivalCount := 2 }

/-- The record of a first arrival expiry (R54). -/
def arrivalOverdueRecord (k : Context) (m : Nat) : JournalRecord :=
  { callRecord .arrivalOverdue k with member := some m, detail1 := k.acceptRung, detail2 := k.arrivalLength }

/-- The first arrival expiry before the second window begins: the record, the attention and the ARRIVAL CHECK. -/
def arrivalOverdue (c m : Nat) (s : State) : State :=
  let told := raise .arrivalOverdue (submit (arrivalOverdueRecord (context s c) m) s)
  if effectivePager s.roster.tables m = 0 then told else handOver .arrivalCheck c m false told

theorem mail_arrivalOverdue (c m : Nat) (s : State) : Mail (raise .arrivalOverdue s) (arrivalOverdue c m s) := by
  have told : Mail (raise .arrivalOverdue s) (raise .arrivalOverdue (submit (arrivalOverdueRecord (context s c) m) s)) := by
    rw [submit_shape]
    exact ⟨rfl, rfl, rfl, rfl, rfl⟩
  unfold arrivalOverdue
  dsimp only
  split
  · exact told
  · exact mail_handOver told _ _ _ _

theorem arrivalLengthOf_congr {k : Context} (roster : t.roster = s.roster) : arrivalLengthOf t k = arrivalLengthOf s k := by
  unfold arrivalLengthOf callLadder
  rw [roster]
  exact classLength_congr (by rw [roster]) (by rw [roster]) rfl rfl _

theorem startWindow_congr (engine : t.engine = s.engine) (tick : t.tickCount = s.tickCount) (a : Nat) :
    startWindow t a = startWindow s a := by
  unfold startWindow
  rw [engine, tick]

theorem expireFirstArrival_eq (c m : Nat) (s : State) : expireFirstArrival c m s =
    modContext c (Context.secondArrival (startWindow s (arrivalLengthOf s (context s c))) (arrivalLengthOf s (context s c)))
      (arrivalOverdue c m s) := by
  have mail := mail_arrivalOverdue c m s
  have tables : (raise .arrivalOverdue (submit (arrivalOverdueRecord (context s c) m) s)).roster.tables = s.roster.tables := by
    rw [submit_shape]
    rfl
  have e : expireFirstArrival c m s = modContext c (Context.secondArrival
      (startWindow (arrivalOverdue c m s) (arrivalLengthOf (arrivalOverdue c m s) (context s c)))
      (arrivalLengthOf (arrivalOverdue c m s) (context s c))) (arrivalOverdue c m s) := by
    unfold arrivalOverdue
    rw [← tables]
    rfl
  rw [e, arrivalLengthOf_congr (s := s) mail.roster, startWindow_congr (s := s) mail.engine mail.tickCount]

/-- The context of a call after its first arrival expiry. -/
theorem context_expireFirstArrival (hc : c < s.calls.contexts.length) (running : s.engine = .running) (m : Nat) :
    context (expireFirstArrival c m s) c = (context s c).secondArrival
      (.running (s.tickCount + BitVec.ofNat 32 (arrivalLengthOf s (context s c)))) (arrivalLengthOf s (context s c)) := by
  have mail := mail_arrivalOverdue c m s
  rw [expireFirstArrival_eq, context_modContext_same _ (by rw [mail.calls]; exact hc), mail.context, startWindow, running]
  rfl

/-- Settles O17. -/
theorem windowLengthFollowsTheFormula : Obligations.WindowLengthFollowsTheFormula := by
  refine ⟨windowLength_eq, fun s k c => ⟨(classLength_bounds s k c).1, (classLength_bounds s k c).2, ?_⟩,
    fun s => ⟨reachPercent_plant s, fun z r some h => reachPercent_zone some h⟩,
    fun data => ⟨rfl, fun i h => windowTable_readSettings data h, rfl, fun i => rfl⟩, fun t r s => product_lt,
    fun s c rung hc paging running => ?_, fun s c m hc running t ht => ?_⟩
  · rw [classLength, severityScale_eq]
  · obtain ⟨-, -, -, -, deadline, -⟩ := enterRung_entered (rung := rung) paging rfl
    rw [deadline]
    exact if_neg (by rw [running]; decide)
  · rcases List.mem_cons.1 ht with rfl | ht
    · rw [arrival_takeAccept, arrival_arrivalBegun hc running]
      rfl
    · rw [List.mem_singleton.1 ht, context_expireFirstArrival hc running]
      rfl

/-! ## The event of a first arrival expiry -/

/-- A context that is not the empty one is there. -/
theorem lt_of_context_ne (h : context s c ≠ .empty) : c < s.calls.contexts.length := by
  by_contra out
  exact h (List.getD_eq_default _ _ (not_lt.1 out))

theorem lt_of_accepter (h : (context s c).accepter = some m) : c < s.calls.contexts.length :=
  lt_of_context_ne fun e => by rw [e] at h; exact absurd h (by simp [Context.empty])

/-- The arrival window of a call has run out. -/
def arrivalOver (c : Nat) (s : State) : State := modContext c (fun k => { k with arrival := .stopped }) s

theorem context_arrivalOver (hc : c < s.calls.contexts.length) :
    context (arrivalOver c s) c = { context s c with arrival := .stopped } := context_modContext_same _ hc

theorem expireArrival_first (accepter : (context s c).accepter = some m) (due : (context s c).arrival.due s.tickCount = true)
    (count : (context s c).arrivalCount = 1) : expireArrival c s = (expireFirstArrival c m (arrivalOver c s), []) := by
  unfold expireArrival
  rw [if_pos due, accepter]
  exact if_pos count

theorem firstArrivalExpiry_eq (agenda : s.agenda = []) (running : s.engine = .running) (accepter : (context s c).accepter = some m)
    (due : (context s c).arrival.due s.tickCount = true) (count : (context s c).arrivalCount = 1) :
    exec (.firstArrivalWindowExpiry c) s = .next (recomputeLamps (expireFirstArrival c m (arrivalOver c s))) := by
  have e : perform (.expireArrival c) s = (expireFirstArrival c m (arrivalOver c s), []) := expireArrival_first accepter due count
  have engine : (expireFirstArrival c m (arrivalOver c s)).engine = .running := by
    rw [expireFirstArrival_eq, modContext_engine, (mail_arrivalOverdue c m _).engine]
    exact running
  refine (congrArg Host.Outcome.next (if_pos (by rw [arrivalDue, due, count]; rfl))).trans (congrArg Host.Outcome.next ?_)
  rw [finish_one s _ agenda (by rw [e]), e]
  exact closeEvent_eq _ (by rw [engine]; decide)

theorem arrivalOverdue_noPager (pager : effectivePager s.roster.tables m = 0) :
    arrivalOverdue c m s = raise .arrivalOverdue (submit (arrivalOverdueRecord (context s c) m) s) := if_pos pager

theorem arrivalOverdue_checks (pager : effectivePager s.roster.tables m ≠ 0) : arrivalOverdue c m s
    = handOver .arrivalCheck c m false (raise .arrivalOverdue (submit (arrivalOverdueRecord (context s c) m) s)) := if_neg pager

/-- An accepter with a pager is sent an ARRIVAL CHECK (R54, R115). -/
theorem deliveryOf_arrivalOverdue (ok : s.dispatcher.ok) (pager : effectivePager s.roster.tables m ≠ 0) :
    (deliveryOf (arrivalOverdue c m s) { tag := (context s c).tag, member := m, kind := .arrivalCheck }).isSome = true := by
  rw [arrivalOverdue_checks pager]
  have same : context (raise .arrivalOverdue (submit (arrivalOverdueRecord (context s c) m) s)) c = context s c := by
    rw [submit_shape]
    rfl
  have handed := deliveryOf_handOver (s := raise .arrivalOverdue (submit (arrivalOverdueRecord (context s c) m) s))
    .arrivalCheck c m false (by rw [raise_dispatcher, submit_dispatcher]; exact ok)
  rwa [same] at handed

/-- ARRIVAL OVERDUE is the first record of the event, and the only one where no ARRIVAL CHECK is sent (R54). -/
theorem pending_arrivalOverdue (room : hasRoom s 1) (c m : Nat) : ∃ rest, (arrivalOverdue c m s).journal.pending
      = s.journal.pending ++ { arrivalOverdueRecord (context s c) m with tick := s.tickCount } :: rest
    ∧ (effectivePager s.roster.tables m = 0 → rest = []) := by
  have record := submit_pending room (arrivalOverdueRecord (context s c) m)
  by_cases pager : effectivePager s.roster.tables m = 0
  · rw [arrivalOverdue_noPager pager]
    exact ⟨[], record, fun _ => rfl⟩
  · rw [arrivalOverdue_checks pager]
    obtain ⟨n, -, -, since, e, -⟩ := logs_handOver .arrivalCheck c m false
      (raise .arrivalOverdue (submit (arrivalOverdueRecord (context s c) m) s))
    refine ⟨since, ?_, fun none => absurd none pager⟩
    rw [e, raise_journal, record, List.append_assoc]
    rfl

/-- Settles O20: the expiry is the first of two steps (`arrivalOverdue`), and the second window is the other. -/
theorem firstArrivalExpiryStartsTheSecondWindow : Obligations.FirstArrivalExpiryStartsTheSecondWindow := by
  intro s c m agenda running ok accepter due count
  have hc := lt_of_accepter accepter
  have stops := context_arrivalOver hc
  have mail := mail_arrivalOverdue c m (arrivalOver c s)
  have after := context_expireFirstArrival (s := arrivalOver c s) (c := c) (by exact (List.length_modify ..).symm ▸ hc) running m
  have told := expireFirstArrival_eq c m (arrivalOver c s)
  rw [stops] at after
  refine ⟨_, firstArrivalExpiry_eq agenda running accepter due count, after, ?_, fun pager => ?_, fun pager => ?_,
    fun writing clear room => ?_, fun d hd => ?_, ?_, ?_⟩
  · show (expireFirstArrival c m (arrivalOver c s)).attention = _
    rw [told]
    exact mail.attention
  · have checks := deliveryOf_arrivalOverdue (s := arrivalOver c s) (c := c) ok pager
    rw [stops] at checks
    show (deliveryOf (expireFirstArrival c m (arrivalOver c s)) _).isSome = true
    rw [told]
    exact checks
  · show (expireFirstArrival c m (arrivalOver c s)).dispatcher = _
    rw [told, modContext_dispatcher, arrivalOverdue_noPager (s := arrivalOver c s) pager, raise_dispatcher, submit_dispatcher]
    rfl
  · have records := pending_arrivalOverdue (s := arrivalOver c s) ⟨writing, clear, room⟩ c m
    rw [stops] at records
    show ∃ rest, (expireFirstArrival c m (arrivalOver c s)).journal.pending = _ ∧ _
    rw [told]
    exact records
  · show context (expireFirstArrival c m (arrivalOver c s)) d = _
    rw [told, context_modContext_ne hd, mail.context]
    exact context_modContext_ne hd _ s
  · show (expireFirstArrival c m (arrivalOver c s)).roster = _
    rw [told]
    exact mail.roster
  · show (expireFirstArrival c m (arrivalOver c s)).engine = _
    rw [told]
    exact mail.engine

end Sys2Proof.Machine

/-! # Proofs: the end of a rung, field by field, and the expiry of a rung deadline (R40, R41, R51) -/

namespace Sys2Proof.Machine

variable {c m : Nat} {s t u : State}

/-! ## The loss of every current mark (R32, R96) -/

/-- A context is its contacted list and all the rest. -/
theorem context_of_unlisted {k l : Context} (h : l.unlisted = k.unlisted) : l = { k with contacted := l.contacted } :=
  congrArg (fun x : Context => { x with contacted := l.contacted }) h

/-- The contacted list once some members have lost the mark. -/
theorem contacted_foldl_loseMark (c : Nat) (l : List Nat) (s : State) :
    (context (l.foldl (fun s m => loseMark c m s) s) c).contacted = (context s c).contacted.map fun e =>
      if e.member ∈ l ∧ (context s c).isCurrent e.member = true then e.unmarked else e := by
  induction l generalizing s with
  | nil => simp
  | cons m l ih =>
    rw [List.foldl_cons, ih]
    have current := isCurrent_loseMark c m s
    rw [context_loseMark]
    by_cases own : (context s c).isCurrent m = true
    · rw [if_pos ⟨rfl, own⟩, Context.modContact, List.map_map]
      refine List.map_congr_left fun e _ => ?_
      have after := current e.member
      rw [context_loseMark, if_pos ⟨rfl, own⟩] at after
      by_cases same : e.member = m
      · subst same
        simp only [Function.comp_apply, if_true, own, List.mem_cons, true_or, and_self]
        split <;> rfl
      · rw [if_neg same] at after
        simp only [Function.comp_apply, List.mem_cons, same, false_or]
        rw [← after]
        rfl
    · rw [if_neg fun h => own h.2]
      refine List.map_congr_left fun e _ => ?_
      have iff : (e.member ∈ l ∧ (context s c).isCurrent e.member = true)
          ↔ (e.member ∈ m :: l ∧ (context s c).isCurrent e.member = true) := by
        rw [List.mem_cons]
        constructor
        · exact fun h => ⟨.inr h.1, h.2⟩
        · rintro ⟨same | mem, is⟩
          · exact absurd (same ▸ is) own
          · exact ⟨mem, is⟩
      simp only [iff]

theorem mem_currentMembers (k : Context) (m : Nat) : m ∈ k.currentMembers ↔ k.isCurrent m = true := by
  simp only [Context.currentMembers, Context.isCurrent, List.mem_map, List.mem_filter, List.any_eq_true, Bool.and_eq_true, beq_iff_eq]
  exact ⟨fun ⟨e, ⟨he, cur⟩, same⟩ => ⟨e, he, same, cur⟩, fun ⟨e, he, same, cur⟩ => ⟨e, ⟨he, cur⟩, same⟩⟩

/-- A context whose current members have all lost the mark. -/
def Context.allUnmarked (k : Context) : Context :=
  { k with contacted := k.contacted.map fun e => if k.isCurrent e.member then e.unmarked else e }

theorem context_loseMarks_eq (c : Nat) (s : State) : context (loseMarks c s) c = (context s c).allUnmarked := by
  refine (context_of_unlisted (context_loseMarks c s).2).trans ?_
  rw [loseMarks, contacted_foldl_loseMark]
  simp only [mem_currentMembers, and_self]
  rfl

/-- A member who has lost the mark has no record PAGE or REMIND of the call any more (R96). -/
theorem keysOf_loseMark (ok : s.dispatcher.ok) (own : (context s c).isCurrent m = true) {kind : DeliveryKind}
    (is : kind ∈ [DeliveryKind.page, .remind]) :
    ({ tag := (context s c).tag, member := m, kind := kind } : RecordKey) ∉ keysOf (loseMark c m s) := by
  let u := lowerPaged m (modContext c (Context.modContact m Contact.unmarked) s)
  let v := withdrawKey { tag := (context s c).tag, member := m, kind := .page } u
  have e : loseMark c m s = withdrawKey { tag := (context s c).tag, member := m, kind := .remind } v := by
    rw [loseMark_eq, if_pos own]
    rfl
  have okV : v.dispatcher.ok := (quiet_withdrawKey (.refl u) _).records ok
  rw [e]
  intro mem
  rcases List.mem_cons.1 is with rfl | is
  · have gone := (withdraws_withdrawKey { tag := (context s c).tag, member := m, kind := .remind } v).keys.subset mem
    obtain ⟨r, hr, key⟩ := List.mem_map.1 gone
    exact withdrawKey_free _ (s := u) ok r hr key
  · obtain ⟨r, hr, key⟩ := List.mem_map.1 mem
    refine withdrawKey_free _ okV r hr ?_
    rw [key, List.mem_singleton.1 is]

theorem keysOf_foldl_loseMark (l : List Nat) (s : State) (ok : s.dispatcher.ok) (mem : m ∈ l)
    (own : (context s c).isCurrent m = true) {kind : DeliveryKind} (is : kind ∈ [DeliveryKind.page, .remind]) :
    ({ tag := (context s c).tag, member := m, kind := kind } : RecordKey) ∉ keysOf (l.foldl (fun s m => loseMark c m s) s) := by
  induction l generalizing s with
  | nil => exact absurd mem List.not_mem_nil
  | cons x l ih =>
    have rest (l : List Nat) (s : State) : keysOf (l.foldl (fun s m => loseMark c m s) s) ⊆ keysOf s := by
      induction l generalizing s with
      | nil => exact fun _ h => h
      | cons y l ih => exact fun _ h => (callWork_loseMark (P := fun _ => False) (c := c) y s).keys (ih _ h)
    by_cases same : m = x
    · subst same
      exact fun h => keysOf_loseMark ok own is (rest l _ h)
    · have tag := (callWork_loseMark (P := fun _ => False) (c := c) x s).tag
      have later := ih (loseMark c x s) ((quiet_loseMark (.refl s) c x).records ok)
        ((List.mem_cons.1 mem).resolve_left same) (by rw [isCurrent_loseMark, if_neg same]; exact own)
      rw [tag] at later
      exact later

/-- From `s` to `t` entries may have left the air queues, and nothing else has changed of the drops' messages. -/
def DropsShrink (s t : State) : Prop :=
  ∀ l a d, drop? t l a = some d → ∃ e, drop? s l a = some e ∧ d.queue.Sublist e.queue ∧ d.inFlight = e.inFlight

theorem dropsShrink_loseMarks (c : Nat) (s : State) : DropsShrink s (loseMarks c s) := by
  refine loseMarks_induction (fun s l a d h => ⟨d, h, .refl _, rfl⟩) (fun h k l a d hd => ?_) (fun m s l a d hd => ?_) s
  · obtain ⟨x, hx, sub, same⟩ := k l a d hd
    obtain ⟨y, hy, sub', same'⟩ := h l a x hx
    exact ⟨y, hy, sub.trans sub', same.trans same'⟩
  · rw [loseMark_eq] at hd
    split at hd
    · obtain ⟨keep, -, e⟩ := (withdraws_withdrawPages (context s c).tag m
        (lowerPaged m (modContext c (Context.modContact m Contact.unmarked) s))).drop?
      rw [e] at hd
      obtain ⟨x, hx, rfl⟩ := Option.map_eq_some_iff.1 hd
      exact ⟨x, hx, List.filter_sublist, rfl⟩
    · exact ⟨d, hd, .refl _, rfl⟩

theorem journal_loseMarks (c : Nat) (s : State) : (loseMarks c s).journal = s.journal := by
  refine loseMarks_induction (R := fun s t => t.journal = s.journal) (fun _ => rfl) (fun h k => k.trans h) (fun m s => ?_) s
  rw [loseMark_eq]
  split
  · obtain ⟨keep, records, -, -, e⟩ := withdraws_withdrawPages (context s c).tag m
      (lowerPaged m (modContext c (Context.modContact m Contact.unmarked) s))
    rw [e]
    rfl
  · rfl

/-! ## The rung that has ended (R40) -/

/-- What the unanswered end of a rung leaves (R40): every current mark is lost and the rung's windows are stopped; nothing is queued, and
nothing is submitted. -/
theorem rungEnded_spec (paging : (context s c).state = .paging) (ok : s.dispatcher.ok) :
    let k := context s c
    let r := rungEnded c s
    context r c = { k with
        deadline := .stopped, turn := .stopped, mode := .none, turnMember := none
        contacted := k.contacted.map fun e => if k.isCurrent e.member then { e with current := false, remind := .stopped } else e }
    ∧ (∀ d, d ≠ c → context r d = context s d) ∧ r.calls.backlog = s.calls.backlog
    ∧ (∀ m, (member r m).paged = (member s m).paged - if k.isCurrent m then 1 else 0)
    ∧ (∀ m, k.isCurrent m = true → ∀ kind ∈ [DeliveryKind.page, .remind],
      deliveryOf r { tag := k.tag, member := m, kind := kind } = none)
    ∧ (∀ i a d, drop? r i a = some d → ∃ e, drop? s i a = some e ∧ d.queue.Sublist e.queue ∧ d.inFlight = e.inFlight)
    ∧ r.journal = s.journal ∧ r.area = s.area ∧ r.latches = s.latches := by
  intro k r
  obtain ⟨work, -, -, nobody, area⟩ := rungOver_spec (P := fun _ => False) c s
  obtain ⟨hc, -⟩ := context_mem (s := s) (c := c) (.inl (by simp [Context.live, paging]))
  have stopped : context (stopRung c s) c = { k with deadline := .stopped, turn := .stopped, mode := .none, turnMember := none } :=
    context_modContext_same _ hc
  refine ⟨?_, work.others, work.backlog, fun m => ?_, fun m own kind is => ?_, fun l a d hd => ?_, ?_, area, work.latches⟩
  · refine (context_loseMarks_eq c (stopRung c s)).trans ?_
    rw [stopped]
    rfl
  · have net := work.net m
    rw [nobody m] at net
    exact net
  · have gone : { tag := (context (stopRung c s) c).tag, member := m, kind := kind } ∉ keysOf (rungEnded c s) :=
      keysOf_foldl_loseMark (c := c) (context (stopRung c s) c).currentMembers (stopRung c s) ok
      ((mem_currentMembers _ m).2 (by rw [stopped]; exact own)) (by rw [stopped]; exact own) is
    rw [stopped] at gone
    have none := mt (deliveryOf_isSome_iff (rungEnded c s) _).1 gone
    rwa [Bool.not_eq_true, Option.isSome_eq_false_iff, Option.isNone_iff_eq_none] at none
  · exact dropsShrink_loseMarks c (stopRung c s) l a d hd
  · exact journal_loseMarks c (stopRung c s)

/-! ## The expiry of a rung deadline (R51) -/

/-- The rung deadline of a call is over. -/
def deadlineOver (c : Nat) (s : State) : State := modContext c (fun k => { k with deadline := .stopped }) s

/-- A rung ends from an expired deadline as it ends without (R40). -/
theorem endRung_deadlineOver (paging : (context s c).state = .paging) : endRung c (deadlineOver c s) = endRung c s := by
  obtain ⟨hc, -⟩ := context_mem (s := s) (c := c) (.inl (by simp [Context.live, paging]))
  have stops : stopRung c (deadlineOver c s) = stopRung c s := modContext_modContext ..
  have still : (context (deadlineOver c s) c).state = .paging := by
    rw [deadlineOver, context_modContext_same _ hc]
    exact paging
  unfold endRung
  simp only [paging, still, stops, ne_eq, not_true_eq_false, if_false]

theorem expireDeadline_due (due : (context s c).deadline.due s.tickCount = true) :
    expireDeadline c s = (deadlineOver c s, [.endRung c]) := if_pos due

theorem deadlineExpiry_runs {k : Nat} (agenda : s.agenda = []) (due : (context s c).deadline.due s.tickCount = true)
    (runs : RunsTo k [.endRung c] (deadlineOver c s) t) (few : k ≤ 10) (engine : t.engine ≠ .stopping) :
    exec (.rungDeadlineExpiry c) s = .next (recomputeLamps t) := by
  have expires : perform (.expireDeadline c) s = (deadlineOver c s, [.endRung c]) := expireDeadline_due due
  have whole : RunsTo (k + 1) [.expireDeadline c] s t := .step expires runs
  have closes := finish_runs (rest := []) agenda whole ((Nat.succ_le_succ few).trans (by decide : 11 ≤ Config.workLimit))
  rw [List.append_nil, run_nil, closeEvent_eq t engine] at closes
  rw [← closes]
  exact congrArg Host.Outcome.next (if_pos due)

/-- A rung with HOLD that its deadline ends leaves the call in HELD (R42, R51). -/
theorem deadlineExpiry_holds (agenda : s.agenda = []) (engine : s.engine ≠ .stopping) (paging : (context s c).state = .paging)
    (due : (context s c).deadline.due s.tickCount = true) (holds : holdsAtEnd s c) :
    ∃ t : State, exec (.rungDeadlineExpiry c) s = .next t ∧ isHeldAfter s t c := by
  have held := heldAfterRung_isHeld paging holds.2
  have kept := isHeldAfter_recomputeLamps held
  have ends : perform (.endRung c) (deadlineOver c s) = (heldAfterRung c s, []) :=
    (endRung_deadlineOver paging).trans (endRung_holds paging holds)
  obtain ⟨-, -, -, -, -, -, -, -, -, -, -, -, -, -, -, -, -, same, -⟩ := held
  exact ⟨_, deadlineExpiry_runs agenda due (.step ends (.nil _)) (by decide) (by rw [same]; exact engine), kept⟩

/-- A rung without HOLD that its deadline ends is followed by what the ladder has next (R40, R41, R51). -/
theorem deadlineExpiry_moves_on (agenda : s.agenda = []) (engine : s.engine ≠ .stopping) (paging : (context s c).state = .paging)
    (due : (context s c).deadline.due s.tickCount = true) (more : ¬holdsAtEnd s c) :
    ∃ t : State, exec (.rungDeadlineExpiry c) s = .next t ∧ isMovedOnAfter s t c := by
  by_cases rests : movesOnAtOnce s c
  · obtain ⟨k, t, few, runs, moved⟩ := runsTo_endRung_rests (endRung_deadlineOver paging) paging more rests
    have same := (isMovedOnAfter_frame moved rests).1
    exact ⟨_, deadlineExpiry_runs agenda due runs (by omega) (by rw [same]; exact engine), isMovedOnAfter_recomputeLamps moved⟩
  · exact ⟨_, congrArg Host.Outcome.next (if_pos due), isMovedOnAfter_of_not rests _⟩

/-- The event of a deadline's expiry, up to the entry of the next rung and with what that sets off (R29, R40). -/
theorem deadlineExpiry_enters (agenda : s.agenda = []) (paging : (context s c).state = .paging)
    (due : (context s c).deadline.due s.tickCount = true) (more : (callRung s (context s c)).hold = false)
    (next : (context s c).rung < (callLadder s (context s c)).effectiveLast) :
    let entered := enterRung c ((context s c).rung + 1) (endRung c (expireDeadline c s).1).1
    exec (.rungDeadlineExpiry c) s = .next (closeEvent (run (Config.workLimit - 3) entered.2 entered.1)) := by
  intro entered
  have tasks : (endRung c (expireDeadline c s).1).2 = [.enterRung c ((context s c).rung + 1)] := by
    rw [expireDeadline_due due, endRung_deadlineOver paging,
      endRung_goes_on paging (fun h => absurd (more.symm.trans h.1) (by decide)), if_pos next]
  refine (congrArg Host.Outcome.next (if_pos due)).trans (congrArg (fun x => Host.Outcome.next (closeEvent x)) ?_)
  have limit : Config.workLimit = Config.workLimit - 3 + 1 + 1 + 1 := rfl
  rw [agenda, List.nil_append, agenda_nil s agenda, limit, run_cons, List.append_nil]
  show run _ (expireDeadline c s).2 (expireDeadline c s).1 = _
  rw [congrArg Prod.snd (expireDeadline_due due), run_cons, List.append_nil]
  show run _ (endRung c (expireDeadline c s).1).2 (endRung c (expireDeadline c s).1).1 = _
  rw [tasks, run_cons, List.append_nil]
  rfl

/-- Settles O18: the event with each outcome, the end of a rung (`rungEnded_spec`), and the ladder past its effective last rung. -/
theorem deadlineEndsTheRungUnanswered : Obligations.DeadlineEndsTheRungUnanswered := by
  refine ⟨fun s c agenda engine paging due => ⟨deadlineExpiry_holds agenda engine paging due,
    deadlineExpiry_moves_on agenda engine paging due, deadlineExpiry_enters agenda paging due⟩,
    fun s c paging more ok => ?_, fun s c hc => ⟨fun again => ?_, (pastLast_eq c s).2⟩⟩
  · obtain ⟨ctx, others, backlog, rest⟩ := rungEnded_spec paging ok
    rw [endRung_goes_on paging more]
    exact ⟨by split <;> rfl, ctx, others, backlog, rfl, rest⟩
  · rw [(pastLast_eq c s).1 again]
    exact ⟨rfl, fun d hd => context_modContext_ne hd _ s, context_modContext_same _ hc⟩

end Sys2Proof.Machine

/-! # Proofs: the reopening of a call, and the second arrival expiry (R44, R45, R55) -/

namespace Sys2Proof.Machine

variable {c m : Nat} {s t u : State}

/-! ## What the end of a call keeps of the events before it -/

/-- From `s` to `t` no member's mark of a pending end of duty has changed. -/
def KeepsDuty (s t : State) : Prop := ∀ m, (member t m).offDutyPending = (member s m).offDutyPending

theorem Mail.keepsDuty (h : Mail s t) : KeepsDuty s t := fun m => congrArg Member.offDutyPending (h.member m)

theorem keepsDuty_lowerPaged (m : Nat) (s : State) : KeepsDuty s (lowerPaged m s) := by
  intro x
  unfold lowerPaged
  rw [member_modMember]
  split
  · rename_i h
    rw [Member.change_eq, h.1]
  · rfl

theorem keepsDuty_loseMarks (c : Nat) (s : State) : KeepsDuty s (loseMarks c s) := by
  refine loseMarks_induction (fun s _ => rfl) (fun h k m => (k m).trans (h m)) (fun m s x => ?_) s
  rw [loseMark_eq]
  split
  · exact ((mail_withdrawPages (.refl _) _ _).keepsDuty x).trans (keepsDuty_lowerPaged m _ x)
  · rfl

/-- A call whose windows have stopped and whose records are withdrawn: the beginning of its end (R19). -/
def recordsWithdrawn (c : Nat) (s : State) : State := withdrawTag (context s c).tag (modContext c Context.stopWindows s)

theorem recordsWithdrawn_work {P : AirEntry → Prop} (c : Nat) (s : State) : CallWork P 0 c s (recordsWithdrawn c s)
    ∧ (context (recordsWithdrawn c s) c).marks = (context s c).marks ∧ KeepsControl s (recordsWithdrawn c s) := by
  let stopped := modContext c Context.stopWindows s
  have mail := mail_withdrawTag (.refl stopped) (context s c).tag
  have draws := withdraws_withdrawTag (context s c).tag stopped
  refine ⟨(callWork_stopWindows c s).trans (callWork_withdraws mail draws), ?_,
    KeepsControl.trans (b := stopped) (keepsControl_of_same rfl rfl fun _ h => h) draws.keepsControl⟩
  rw [recordsWithdrawn, mail.context, context_modContext]
  split
  · exact marks_stopWindows _
  · rfl

theorem unwindCall_eq (c : Nat) (reason : Reason) (s : State) : unwindCall c reason s = loseMarks c
    (((context s c).endCancels reason).foldl (fun s m => sendMarkedCancel c m s) (recordsWithdrawn c s)) := by
  obtain ⟨work, marks, -⟩ := recordsWithdrawn_work (P := fun _ => False) c s
  obtain ⟨-, -, accepter, -⟩ := Context.same_of_bare work.bare
  rw [← Context.endCancels_congr marks accepter]
  rfl

/-- A CANCEL of the call that is queued or dropped already stays so as the call ends. -/
theorem isHeldOrDropped_unwindCall {reason : Reason} (room : hasRoom s ((context s c).endCancels reason).length)
    (held : isHeldOrDropped s .cancel (context s c).tag m (effectivePager s.roster.tables m)) :
    isHeldOrDropped (unwindCall c reason s) .cancel (context s c).tag m (effectivePager s.roster.tables m) := by
  obtain ⟨work, -, keeps⟩ := recordsWithdrawn_work (P := fun _ => False) c s
  have sends := (sendMarkedCancels_spec c ((context s c).endCancels reason) (recordsWithdrawn c s)).2
    (work.logs.hasRoom (by rwa [Nat.zero_add])) m
  rw [work.tag, work.tables] at sends
  rw [unwindCall_eq]
  exact isHeldOrDropped_of_keeps (keepsControl_loseMarks c _) (sends (.inr (isHeldOrDropped_of_keeps keeps held)))

theorem KeepsDuty.trans (h : KeepsDuty s t) (k : KeepsDuty t u) : KeepsDuty s u := fun m => (k m).trans (h m)

theorem keepsDuty_sendMarkedCancel (c m : Nat) (s : State) : KeepsDuty s (sendMarkedCancel c m s) :=
  (mail_sendEndCancel (.refl (modContext c (Context.modContact m fun e => { e with cancelled := true }) s)) (context s c) m).keepsDuty

theorem keepsDuty_sendMarkedCancels (c : Nat) (l : List Nat) (s : State) :
    KeepsDuty s (l.foldl (fun s m => sendMarkedCancel c m s) s) := by
  induction l generalizing s with
  | nil => exact fun _ => rfl
  | cons x l ih => exact (keepsDuty_sendMarkedCancel c x s).trans (ih _)

theorem keepsDuty_recordsWithdrawn (c : Nat) (s : State) : KeepsDuty s (recordsWithdrawn c s) :=
  (mail_withdrawTag (.refl (modContext c Context.stopWindows s)) _).keepsDuty

theorem keepsDuty_unwindCall (c : Nat) (reason : Reason) (s : State) : KeepsDuty s (unwindCall c reason s) := by
  rw [unwindCall_eq]
  exact ((keepsDuty_recordsWithdrawn c s).trans (keepsDuty_sendMarkedCancels c _ _)).trans (keepsDuty_loseMarks c _)

/-- What the end of a call without an accepter leaves of the duties, of the journal, and of a CANCEL sent before it. -/
theorem finishCall_keeps {st : SlotState} {reason : Reason} (live : (context s c).live = true)
    (nobody : (context s c).accepter = none) :
    KeepsDuty s (finishCall c st reason s) ∧ (∃ since, (finishCall c st reason s).journal.pending = s.journal.pending ++ since)
      ∧ (hasRoom s ((context s c).endCancels reason).length → ∀ m,
        isHeldOrDropped s .cancel (context s c).tag m (effectivePager s.roster.tables m) →
        isHeldOrDropped (finishCall c st reason s) .cancel (context s c).tag m (effectivePager s.roster.tables m)) := by
  obtain ⟨unwind, -⟩ := unwindCall_spec c reason s
  obtain ⟨-, -, accepter, -⟩ := Context.same_of_bare unwind.bare
  have before := unwind.logs
  have duty := keepsDuty_unwindCall c reason s
  have keeps (room) (m) := isHeldOrDropped_unwindCall (m := m) (reason := reason) (s := s) (c := c) room
  rw [finishCall_eq c st reason live]
  generalize unwindCall c reason s = u at *
  obtain ⟨j, e, logs, -⟩ := closeCall_eq c st reason u
  have release : releaseAccepter (context u c) u = u := by
    unfold releaseAccepter
    rw [accepter, nobody]
  rw [release] at e
  rw [e]
  obtain ⟨-, -, since, same, -⟩ := before.trans logs
  refine ⟨duty, ⟨since, same⟩, fun room m held => ?_⟩
  refine isHeldOrDropped_of_keeps ?_ (keeps room m held)
  exact keepsControl_of_same rfl rfl fun r h => logs.mem h

/-! ## A reopening after the second arrival window (R44, R45) -/

theorem arrivalOver_arrivalOver (c : Nat) (s : State) : arrivalOver c (arrivalOver c s) = arrivalOver c s := modContext_modContext ..

/-- The accepter of a call that is reopened is released, and the ARRIVAL CHECK withdrawn (R44). -/
def reopenReleased (c m : Nat) (s : State) : State :=
  release m (withdrawKey { tag := (context (arrivalOver c s) c).tag, member := m, kind := .arrivalCheck } (arrivalOver c s))

/-- A call that is reopened is PAGING without an accepter (R44). -/
def Context.reopened (k : Context) : Context := { k with accepter := none, acceptTick := 0, arrivalCount := 0, state := .paging }

/-- A call that is reopened, with its slot image. -/
def reopenShown (c m : Nat) (s : State) : State := showContext c (modContext c Context.reopened (reopenReleased c m s))

/-- A call that is reopened after the second arrival window: its accepter is marked unreached and is sent a CANCEL (R45). -/
def reopenCancelled (c m : Nat) (s : State) : State :=
  cancelMember c m (modContext c (Context.modContact m fun e => { e with unreached := true }) (reopenShown c m s))

/-- The record of a reopening after the second arrival window (R44). -/
def reopenRecord (k : Context) : JournalRecord :=
  { callRecord .reopened k with detail1 := ReopenCause.secondArrivalWindow.code, detail2 := k.acceptRung }

theorem reopen_eq (hc : c < s.calls.contexts.length) (accepted : (context s c).state = .accepted)
    (accepter : (context s c).accepter = some m) : reopen c .secondArrivalWindow (arrivalOver c s) =
      (let v := reopenCancelled c m s
      moveOn c (context v c).acceptRung (submit (reopenRecord (context v c)) v)) := by
  have here := context_arrivalOver hc
  have state : (context (arrivalOver c s) c).state = .accepted := by rw [here]; exact accepted
  have who : (context (arrivalOver c s) c).accepter = some m := by rw [here]; exact accepter
  unfold reopen
  rw [state, who]
  dsimp only
  rw [show modContext c (fun k => { k with arrival := .stopped }) (arrivalOver c s) = arrivalOver c s from arrivalOver_arrivalOver c s]
  rfl

/-- A call just reopened after the second arrival window, as its context holds it. -/
def Context.reopenedBy (m : Nat) (k : Context) : Context :=
  ((({ k with arrival := .stopped } : Context).reopened.modContact m fun e => { e with unreached := true }).modContact m
    fun e => { e with cancelled := true })

/-- What a reopening after the second arrival window leaves, before its record (R44, R45). -/
structure Reopens (c m : Nat) (s t : State) : Prop where
  engine : t.engine = s.engine
  tickCount : t.tickCount = s.tickCount
  attention : t.attention = s.attention
  agenda : t.agenda = s.agenda
  backlog : t.calls.backlog = s.calls.backlog
  slots : t.area.slots.length = s.area.slots.length
  tables : t.roster.tables = s.roster.tables
  others : ∀ d, d ≠ c → context t d = context s d
  here : context t c = (context s c).reopenedBy m
  released : (member t m).engaged = none ∧ (member t m).offDutyPending = false
  logs : Logs 1 s t
  cancelled : hasRoom s 1 → isHeldOrDropped t .cancel (context s c).tag m (effectivePager s.roster.tables m)

theorem member_release (m : Nat) (s : State) :
    (member (release m s) m).engaged = none ∧ (member (release m s) m).offDutyPending = false := by
  unfold release
  rw [member_modMember]
  split
  · rw [Member.change_eq]
    exact ⟨rfl, rfl⟩
  · rename_i out
    have : member s m = .empty := List.getD_eq_default _ _ (not_lt.1 fun h => out ⟨rfl, h⟩)
    rw [this]
    exact ⟨rfl, rfl⟩

theorem reopens (hc : c < s.calls.contexts.length) (m : Nat) : Reopens c m s (reopenCancelled c m s) := by
  let drawn := withdrawKey { tag := (context (arrivalOver c s) c).tag, member := m, kind := .arrivalCheck } (arrivalOver c s)
  let opened := modContext c Context.reopened (release m drawn)
  let marked := modContext c (Context.modContact m fun e => { e with unreached := true }) (showContext c opened)
  let noted := modContext c (Context.modContact m fun e => { e with cancelled := true }) marked
  have is : reopenCancelled c m s = sendCancel (context marked c).tag m noted := rfl
  have mail : Mail (arrivalOver c s) drawn := mail_withdrawKey (.refl (arrivalOver c s)) _
  have drew : Logs 0 (arrivalOver c s) drawn := (withdraws_withdrawKey _ (arrivalOver c s)).logs
  have there : c < drawn.calls.contexts.length := by
    rw [mail.calls]
    exact (List.length_modify ..).symm ▸ hc
  have held : context drawn c = { context s c with arrival := .stopped } := (mail.context c).trans (context_arrivalOver hc)
  obtain ⟨shape, slots⟩ := showContext_shape c opened
  have sends : Mail noted (reopenCancelled c m s) := mail_sendCancel (.refl noted) _ m
  have reopens : context opened c = Context.reopened { context s c with arrival := .stopped } := by
    rw [← held]
    exact context_modContext_same _ there
  have same : (showContext c opened).calls = opened.calls := by rw [shape]
  have length : c < opened.calls.contexts.length := (List.length_modify ..).symm ▸ there
  have marks : context marked c
      = (Context.reopened { context s c with arrival := .stopped }).modContact m fun e => { e with unreached := true } := by
    rw [← reopens, ← show context (showContext c opened) c = context opened c by unfold context; rw [same]]
    exact context_modContext_same _ (same ▸ length)
  have notes : context noted c = (context s c).reopenedBy m := by
    rw [Context.reopenedBy, ← marks]
    exact context_modContext_same _ ((List.length_modify ..).symm ▸ same ▸ length)
  have tag : (context marked c).tag = (context s c).tag := by rw [marks]; rfl
  have members : noted.roster = (release m drawn).roster := by
    show (showContext c opened).roster = _
    rw [shape]
    rfl
  have tables : noted.roster.tables = s.roster.tables := by
    rw [members]
    show drawn.roster.tables = _
    rw [mail.roster]
    rfl
  have logs : Logs 0 s noted := by
    refine (Logs.trans (n := 0) (k := 0) (.of_same rfl rfl) drew).trans (n := 0) (k := 0) (.of_same ?_ ?_) <;>
      (show _ = _; simp only [noted, marked, modContext_journal, modContext_area]; rw [shape]; rfl)
  have sent := (logs_sendControl (controlMessage .cancel (context marked c).tag m (effectivePager noted.roster.tables m) 0 none)
    none none noted)
  have outside (d : Nat) (hd : d ≠ c) : context noted d = context s d := by
    have shows : context (showContext c opened) d = context opened d := by unfold context; rw [same]
    rw [context_modContext_ne hd, context_modContext_ne hd, shows,
      context_modContext_ne hd]
    exact (mail.context d).trans (context_modContext_ne hd _ s)
  have shownFrame : (showContext c opened).engine = drawn.engine ∧ (showContext c opened).tickCount = drawn.tickCount
      ∧ (showContext c opened).attention = drawn.attention ∧ (showContext c opened).agenda = drawn.agenda := by
    rw [shape]
    exact ⟨rfl, rfl, rfl, rfl⟩
  obtain ⟨engine, tick, attention, agenda⟩ := shownFrame
  exact {
    engine := sends.engine.trans (engine.trans mail.engine)
    tickCount := sends.tickCount.trans (tick.trans mail.tickCount)
    attention := sends.attention.trans (attention.trans mail.attention)
    agenda := sends.agenda.trans (agenda.trans mail.agenda)
    backlog := by
      rw [sends.calls]
      show (showContext c opened).calls.backlog = _
      rw [same]
      rw [show opened.calls.backlog = drawn.calls.backlog from rfl, mail.calls]
      rfl
    slots := by
      rw [sends.area]
      exact slots.trans (by rw [show opened.area = drawn.area from rfl, mail.area]; rfl)
    tables := by rw [sends.roster, tables]
    others := fun d hd => (sends.context d).trans (outside d hd)
    here := (sends.context c).trans notes
    released := by
      have gone := member_release m drawn
      rw [sends.member, show member noted m = member (release m drawn) m by unfold member; rw [members]]
      exact gone
    logs := logs.trans (n := 0) (k := 1) sent
    cancelled := fun room => by
      have holds := isHeldOrDropped_sendControl (s := noted) (logs.hasRoom (n := 0) (by rwa [Nat.zero_add]))
        (controlMessage .cancel (context marked c).tag m (effectivePager noted.roster.tables m) 0 none) none none
      rw [tag, tables] at holds
      rw [is, sendCancel, tag, tables]
      exact holds }

/-! ## The second arrival expiry (R55) -/

/-- A call that is reopened after the second arrival window, with its record. -/
def reopenTold (c m : Nat) (s : State) : State :=
  submit (reopenRecord (context (reopenCancelled c m s) c)) (reopenCancelled c m s)

/-- The end of a call that the second arrival window has reopened. -/
def reopenEnded (c m : Nat) (s : State) : State := finishCall c .exhausted .ladderExhausted (reopenTold c m s)

theorem live_reopenTold (hc : c < s.calls.contexts.length) (m : Nat) : (context (reopenTold c m s) c).live = true := by
  rw [reopenTold, (mail_submit (.refl _) _).context, (reopens hc m).here]
  rfl

theorem reopenEnded_isEnded (hc : c < s.calls.contexts.length) (m : Nat) :
    isEndedAfter (reopenCancelled c m s) (reopenEnded c m s) c .exhausted .ladderExhausted :=
  finishCall_ended (callWork_submit _ _) (le_refl 1) (live_reopenTold hc m)
    (congrArg Context.marks ((mail_submit (.refl _) _).context c)) (by decide)

/-- The ladder of a call that the second arrival window reopens has run out: the call ends in the same event (R41, R44, R55). -/
theorem secondArrivalExpiry_eq (agenda : s.agenda = []) (engine : s.engine ≠ .stopping) (backlog : s.calls.backlog = [])
    (accepted : (context s c).state = .accepted) (accepter : (context s c).accepter = some m)
    (due : (context s c).arrival.due s.tickCount = true) (count : (context s c).arrivalCount = 2)
    (last : (callLadder s (context s c)).effectiveLast ≤ (context s c).acceptRung)
    (spent : ¬repeatsOnce (callLadder s (context s c)) (context s c)) :
    exec (.secondArrivalWindowExpiry c) s = .next (recomputeLamps (reopenEnded c m s)) := by
  have hc := lt_of_accepter accepter
  have r := reopens hc m
  have told : Mail (reopenCancelled c m s) (reopenTold c m s) := mail_submit (.refl _) _
  have here : context (reopenTold c m s) c = (context s c).reopenedBy m := (told.context c).trans r.here
  have ladder : callLadder (reopenTold c m s) (context (reopenTold c m s) c) = callLadder s (context s c) := by
    rw [here]
    unfold callLadder
    rw [told.roster, r.tables]
    rfl
  have expires : perform (.expireArrival c) s = (arrivalOver c s, [.reopen c .secondArrivalWindow]) := by
    show expireArrival c s = _
    unfold expireArrival
    rw [if_pos due, accepter, count]
    rfl
  have rung : (context (reopenCancelled c m s) c).acceptRung = (context s c).acceptRung := by rw [r.here]; rfl
  have moves : perform (.reopen c .secondArrivalWindow) (arrivalOver c s) = (reopenTold c m s, [.pastLast c]) := by
    refine (reopen_eq hc accepted accepter).trans ?_
    show moveOn c _ (reopenTold c m s) = _
    rw [rung, moveOn, ladder, if_neg (not_lt.2 last)]
  have past : perform (.pastLast c) (reopenTold c m s) = (reopenTold c m s, [.endCall c .exhausted .ladderExhausted]) := by
    refine (pastLast_eq c _).2 ?_
    rw [ladder, here]
    exact spent
  obtain ⟨-, -, nobody, -, -, -, -, -, -, -, -, still, -⟩ := reopenEnded_isEnded hc m
  have ends : RunsTo 2 [.endCall c .exhausted .ladderExhausted] (reopenTold c m s) (reopenEnded c m s) :=
    runsTo_endCall (live_reopenTold hc m) (nobody.trans (r.backlog.trans backlog))
  have whole := RunsTo.step expires (.step moves (.step past ends))
  have closes := finish_runs (rest := []) agenda whole (by decide)
  rw [List.append_nil, run_nil, closeEvent_eq _ (by rw [still, r.engine]; exact engine)] at closes
  rw [← closes]
  exact congrArg Host.Outcome.next (if_pos (by rw [arrivalDue, due, count]; rfl))

/-- What the end of a reopened call keeps of the reopening: the release of the accepter, and the record REOPENED. -/
theorem reopenEnded_keeps (hc : c < s.calls.contexts.length) (m : Nat) :
    (member (reopenEnded c m s) m).offDutyPending = false
    ∧ (hasRoom s 2 → ∃ before after, (reopenEnded c m s).journal.pending = s.journal.pending ++ before ++
      [{ reopenRecord ((context s c).reopenedBy m) with tick := s.tickCount }] ++ after) := by
  have r := reopens hc m
  have told : Mail (reopenCancelled c m s) (reopenTold c m s) := mail_submit (.refl _) _
  obtain ⟨duty, ⟨after, later⟩, -⟩ := finishCall_keeps (st := .exhausted) (reason := .ladderExhausted) (live_reopenTold hc m)
    (by rw [told.context, r.here]; rfl)
  refine ⟨(duty m).trans ((congrArg Member.offDutyPending (told.member m)).trans r.released.2), fun room => ?_⟩
  obtain ⟨-, -, before, first, -⟩ := r.logs
  refine ⟨before, after, later.trans ?_⟩
  rw [reopenTold, submit_pending (r.logs.hasRoom room), first, r.here, r.tickCount]

theorem contact_modContact (k : Context) (m j : Nat) {f : Contact → Contact} (keeps : ∀ e, (f e).member = e.member) :
    (k.modContact m f).contact j = (k.contact j).map fun e => if e.member = m then f e else e := by
  have same : ((fun e : Contact => e.member == j) ∘ fun e : Contact => if e.member = m then f e else e) = fun e => e.member == j := by
    funext e
    simp only [Function.comp_apply]
    split
    · rw [keeps]
    · rfl
  rw [Context.contact, Context.modContact, List.find?_map, same]
  rfl

theorem contact_modContact_ne {k : Context} {m j : Nat} {f : Contact → Contact} (keeps : ∀ e, (f e).member = e.member) (ne : j ≠ m) :
    (k.modContact m f).contact j = k.contact j := by
  rw [contact_modContact k m j keeps]
  cases h : k.contact j with
  | none => rfl
  | some e =>
    have own : e.member = j := by simpa using List.find?_some h
    rw [Option.map_some, if_neg (by rw [own]; exact ne)]

/-- Each contacted member whose entry is marked neither declined nor cancelled is sent a CANCEL, and so is the former accepter (R19,
R45). -/
theorem reopenEnded_cancels (hc : c < s.calls.contexts.length) (room : hasRoom s ((context s c).contacted.length + 3)) :
    isQueuedOrDropped (reopenEnded c m s) .cancel (context s c).tag m (effectivePager s.roster.tables m)
    ∧ ∀ j e, (context s c).contact j = some e → e.declined = false → e.cancelled = false →
      isQueuedOrDropped (reopenEnded c m s) .cancel (context s c).tag j (effectivePager s.roster.tables j) := by
  have r := reopens hc m
  have told : Mail (reopenCancelled c m s) (reopenTold c m s) := mail_submit (.refl _) _
  have size : ((context s c).reopenedBy m).contacted.length = (context s c).contacted.length := by
    simp [Context.reopenedBy, Context.modContact, Context.reopened]
  have own : isQueuedOrDropped (reopenEnded c m s) .cancel (context s c).tag m (effectivePager s.roster.tables m) := by
    have left : hasRoom (reopenTold c m s) ((context s c).contacted.length + 1) := by
      refine (logs_submit _ _).hasRoom (r.logs.hasRoom ?_)
      have all := room.2.2
      exact ⟨room.1, room.2.1, by omega⟩
    have few := (context (reopenTold c m s) c).length_endCancels .ladderExhausted
    obtain ⟨-, -, keeps⟩ := finishCall_keeps (st := .exhausted) (reason := .ladderExhausted) (live_reopenTold hc m)
      (by rw [told.context, r.here]; rfl)
    rw [told.context, r.here, size] at few
    rw [told.context, r.here, told.roster, r.tables] at keeps
    have sent := r.cancelled ⟨room.1, room.2.1, by have := room.2.2; omega⟩
    have held := keeps ⟨left.1, left.2.1, by have := left.2.2; omega⟩ m (isHeldOrDropped_of_keeps (keepsControl_submit _ _) sent)
    rcases held with ⟨l, a, d, y, hd, hy, -, rest⟩ | dropped
    · exact .inl ⟨l, a, d, y, hd, hy, rest⟩
    · exact .inr dropped
  refine ⟨own, fun j e he declined cancelled => ?_⟩
  by_cases same : j = m
  · exact same ▸ own
  obtain ⟨-, -, -, -, -, -, -, -, -, ⟨sends, -⟩, -⟩ := reopenEnded_isEnded hc m
  rw [r.here, r.tables] at sends
  refine sends (r.logs.hasRoom (by rw [size, Nat.add_comm 1]; exact room)) j e ?_ ⟨declined, cancelled⟩
  have kept (k : Context) {f : Contact → Contact} (keeps : ∀ e, (f e).member = e.member) : (k.modContact m f).contact j = k.contact j :=
    contact_modContact_ne keeps same
  refine (kept _ ?_).trans ((kept _ ?_).trans he) <;> exact fun _ => rfl

theorem isQueuedOrDropped_recomputeLamps {kind : MessageKind} {tag j pager : Nat} (h : isQueuedOrDropped t kind tag j pager) :
    isQueuedOrDropped (recomputeLamps t) kind tag j pager := by
  refine h.imp_left ?_
  rintro ⟨l, a, d, y, hd, is⟩
  exact ⟨l, a, d.relit t, y, by rw [drop?_recomputeLamps, hd]; rfl, is⟩

/-- Settles O21: the reopening (`Reopens`) is followed, in the same event, by the end of the call. -/
theorem secondArrivalExpiryExhaustsTheLadder : Obligations.SecondArrivalExpiryExhaustsTheLadder := by
  intro s c m agenda engine backlog accepted accepter due count last spent
  have hc := lt_of_accepter accepter
  have r := reopens hc m
  obtain ⟨duty, told⟩ := reopenEnded_keeps hc m
  obtain ⟨freed, others, -, engaged, -, records, -, image, attention, -, submitted, -, tick, -⟩ := reopenEnded_isEnded hc m
  have size : ((context s c).reopenedBy m).contacted.length = (context s c).contacted.length := by
    simp [Context.reopenedBy, Context.modContact, Context.reopened]
  rw [r.here] at freed records image submitted engaged
  have step := secondArrivalExpiry_eq agenda engine backlog accepted accepter due count last spent
  have cancels (room) := reopenEnded_cancels (m := m) hc room
  have released : (member (reopenEnded c m s) m).engaged = none := (engaged m).trans r.released.1
  clear engaged
  generalize reopenEnded c m s = t at *
  refine ⟨recomputeLamps t, step, freed, released, duty, ?_, ?_,
    fun i slot inside => ?_, records, fun room => ?_, fun room => ?_, fun room => ?_, fun d hd => (others d hd).trans (r.others d hd),
    tick.trans r.tickCount⟩
  · show t.attention.event.getLsbD 0 = true
    rw [attention]
    simp
  · show t.attention.event.getLsbD 4 = true
    rw [attention]
    simp
  · have shows := image i slot (r.slots ▸ inside)
    rwa [r.tickCount] at shows
  · obtain ⟨own, rest⟩ := cancels room
    exact ⟨isQueuedOrDropped_recomputeLamps own, fun j e he d x => isQueuedOrDropped_recomputeLamps (rest j e he d x)⟩
  · obtain ⟨before, after, e⟩ := told ⟨room.1, room.2.1, by have := room.2.2; omega⟩
    refine ⟨_, e.trans (by rw [List.append_assoc, List.append_assoc]), ?_⟩
    exact List.mem_append_right _ (List.mem_append_left _ (List.mem_singleton.2 rfl))
  · obtain ⟨since, e, mem⟩ := submitted (r.logs.hasRoom (by rw [size, Nat.add_comm 1]; exact room))
    obtain ⟨-, -, before, first, -⟩ := r.logs
    refine ⟨before ++ since, e.trans (by rw [first, List.append_assoc]), List.mem_append_right _ ?_⟩
    unfold endRecord at mem
    rw [r.tickCount] at mem
    exact mem

end Sys2Proof.Machine

/-! # Proofs: the copies of a record, enqueued to several transmitters (R56, R85, R88, R94)

First what the enqueues make of the record alone (`Delivery.settledAll`), and then that they make that of it. -/

namespace Sys2Proof.Machine

variable {s t u : State} {r : Delivery} {a : LineId × Nat} {ts : List (LineId × Nat)} {n : Nat} {waits placed : Bool} {w : Window}
  {p : LineId × Nat → Bool}

/-! ## The record (R56, R94) -/

/-- Where a copy is. -/
def Copy.address (x : Copy) : LineId × Nat := (x.line, x.drop)

/-- A record once its copy at a transmitter has been settled: QUEUED when it was placed, and DEFERRED otherwise, with a retry window unless
something is waited for already. -/
def Delivery.settled (waits : Bool) (w : Window) (a : LineId × Nat) (placed : Bool) (r : Delivery) : Delivery :=
  if placed then r.queueCopy a.1 a.2
  else if r.receipt.isRunning || r.retry.active || waits then r.setCopy a.1 a.2 .deferred
  else { r.setCopy a.1 a.2 .deferred with retry := w }

/-- A record once its copies at some transmitters have been settled, in their order. -/
def Delivery.settledAll (waits : Bool) (w : Window) (p : LineId × Nat → Bool) (ts : List (LineId × Nat)) (r : Delivery) : Delivery :=
  ts.foldl (fun r a => r.settled waits w a (p a)) r

/-- A copy once the one at a transmitter has come to a state. -/
def Copy.become (a : LineId × Nat) (st : CopyState) (x : Copy) : Copy := if x.address = a then { x with state := st } else x

theorem setCopy_eq (a : LineId × Nat) (st : CopyState) (r : Delivery) :
    r.setCopy a.1 a.2 st = { r with copies := r.copies.map (Copy.become a st) } := by
  unfold Delivery.setCopy Copy.become Copy.address
  simp only [Prod.ext_iff]

/-- A copy once it has been settled at a transmitter. -/
def Copy.settled (a : LineId × Nat) (placed : Bool) (x : Copy) : Copy := x.become a (if placed then .queued else .deferred)

theorem Copy.address_settled (a : LineId × Nat) (placed : Bool) (x : Copy) : (x.settled a placed).address = x.address := by
  unfold Copy.settled Copy.become
  split <;> rfl

theorem Copy.settled_other {x : Copy} (other : x.address ≠ a) : x.settled a placed = x := if_neg other

theorem Delivery.settled_eq (waits : Bool) (w : Window) (a : LineId × Nat) (placed : Bool) (r : Delivery) :
    r.settled waits w a placed = { r with
      copies := r.copies.map (Copy.settled a placed), retry := (r.settled waits w a placed).retry } := by
  unfold Delivery.settled Delivery.queueCopy
  simp only [setCopy_eq]
  cases placed
  · rw [if_neg (by decide)]
    split <;> rfl
  · rfl

theorem copies_settled : (r.settled waits w a placed).copies = r.copies.map (Copy.settled a placed) := by rw [Delivery.settled_eq]
theorem receipt_settled : (r.settled waits w a placed).receipt = r.receipt := by rw [Delivery.settled_eq]
theorem key_settled : (r.settled waits w a placed).key = r.key := by rw [Delivery.settled_eq]

/-- The retry window of a record whose copy has been placed (R56). -/
theorem retry_settled_placed : (r.settled waits w a true).retry
    = if (r.settled waits w a true).copies.any (·.state == .deferred) then r.retry else .stopped := rfl

/-- The retry window of a record whose copy has been deferred (R94). -/
theorem retry_settled_deferred : (r.settled waits w a false).retry
    = if r.receipt.isRunning || r.retry.active || waits then r.retry else w := by
  unfold Delivery.settled
  rw [if_neg (by decide)]
  split <;> rfl

/-- A copy once it has been settled where it is one of several transmitters. -/
def Copy.settledAt (p : LineId × Nat → Bool) (ts : List (LineId × Nat)) (x : Copy) : Copy :=
  if x.address ∈ ts then { x with state := if p x.address then .queued else .deferred } else x

theorem Copy.settledAt_cons (x : Copy) : (x.settled a (p a)).settledAt p ts = x.settledAt p (a :: ts) := by
  unfold Copy.settledAt
  rw [Copy.address_settled]
  unfold Copy.settled Copy.become
  by_cases own : x.address = a
  · subst own
    by_cases more : x.address ∈ ts <;> simp [more]
  · simp [own]

theorem Delivery.settledAll_eq (waits : Bool) (w : Window) (p : LineId × Nat → Bool) (ts : List (LineId × Nat)) (r : Delivery) :
    r.settledAll waits w p ts = { r with
      copies := r.copies.map (Copy.settledAt p ts), retry := (r.settledAll waits w p ts).retry } := by
  induction ts generalizing r with
  | nil =>
    have same : Copy.settledAt p [] = id := funext fun _ => if_neg List.not_mem_nil
    rw [same, List.map_id]
    rfl
  | cons a ts ih =>
    show (r.settled waits w a (p a)).settledAll waits w p ts = _
    rw [ih, Delivery.settled_eq]
    simp only [List.map_map, Function.comp_def, Copy.settledAt_cons]
    rw [← Delivery.settled_eq]
    rfl

theorem Delivery.settledAll_congr {q : LineId × Nat → Bool} (same : ∀ a ∈ ts, q a = p a) (r : Delivery) :
    r.settledAll waits w q ts = r.settledAll waits w p ts := by
  induction ts generalizing r with
  | nil => rfl
  | cons a ts ih =>
    show (r.settled waits w a (q a)).settledAll waits w q ts = (r.settled waits w a (p a)).settledAll waits w p ts
    rw [same a List.mem_cons_self, ih fun b hb => same b (List.mem_cons_of_mem _ hb)]

/-- The retry window stops as the last DEFERRED copy is placed (R56). -/
theorem retry_settledAll_stopped (some : ts ≠ []) (there : ∀ a ∈ ts, ∃ x ∈ r.copies, x.address = a)
    (none : ∀ x ∈ (r.settledAll waits w p ts).copies, x.state ≠ .deferred) : (r.settledAll waits w p ts).retry = .stopped := by
  obtain ⟨front, a, rfl⟩ := (List.eq_nil_or_concat' ts).resolve_left some
  have last : r.settledAll waits w p (front ++ [a]) = (r.settledAll waits w p front).settled waits w a (p a) := by
    unfold Delivery.settledAll
    rw [List.foldl_append]
    rfl
  cases h : p a with
  | true =>
    rw [last, h] at none ⊢
    rw [retry_settled_placed, if_neg]
    simpa using none
  | false =>
    obtain ⟨x, hx, own⟩ := there a (by simp)
    have copies : (r.settledAll waits w p (front ++ [a])).copies = r.copies.map (Copy.settledAt p (front ++ [a])) := by
      rw [Delivery.settledAll_eq]
    refine absurd ?_ (none _ (by rw [copies]; exact List.mem_map_of_mem hx))
    simp [Copy.settledAt, own, h]

/-- A retry window that is started already, or a receipt window that runs, is what a copy DEFERRED once more waits for (R94). -/
theorem retry_settledAll_kept (started : r.retry.active = true ∨ r.receipt.isRunning = true) (nodup : ts.Nodup)
    (deferred : ∀ x ∈ r.copies, x.address ∈ ts → x.state = .deferred)
    (left : ∃ x ∈ (r.settledAll waits w p ts).copies, x.state = .deferred) : (r.settledAll waits w p ts).retry = r.retry := by
  induction ts generalizing r with
  | nil => rfl
  | cons a ts ih =>
    obtain ⟨fresh, rest⟩ := List.nodup_cons.1 nodup
    have later : ∀ x ∈ (r.settled waits w a (p a)).copies, x.address ∈ ts → x.state = .deferred := by
      rw [copies_settled]
      intro y hy mem
      obtain ⟨x, hx, rfl⟩ := List.mem_map.1 hy
      rw [Copy.address_settled] at mem
      have other : x.address ≠ a := fun e => fresh (e ▸ mem)
      rw [Copy.settled_other other]
      exact deferred x hx (List.mem_cons_of_mem _ mem)
    have now : ∃ x ∈ (r.settled waits w a (p a)).copies, x.state = .deferred := by
      obtain ⟨y, hy, is⟩ := left
      change y ∈ ((r.settled waits w a (p a)).settledAll waits w p ts).copies at hy
      rw [Delivery.settledAll_eq] at hy
      obtain ⟨x, hx, rfl⟩ := List.mem_map.1 hy
      by_cases mem : x.address ∈ ts
      · exact ⟨x, hx, later x hx mem⟩
      · rw [Copy.settledAt, if_neg mem] at is
        exact ⟨x, hx, is⟩
    have kept : (r.settled waits w a (p a)).retry = r.retry := by
      cases h : p a with
      | true =>
        rw [h] at now
        rw [retry_settled_placed, if_pos (by simpa using now)]
      | false =>
        rw [retry_settled_deferred, if_pos (by rcases started with h | h <;> simp [h])]
    have goes := ih (r := r.settled waits w a (p a)) (by rw [kept, receipt_settled]; exact started) rest later left
    exact goes.trans kept

/-- A copy that is DEFERRED once more, with nothing to wait for, waits for the retry window that is started (R94). -/
theorem retry_settledAll_started (idle : r.receipt.isRunning = false)
    (retry : r.retry = .stopped ∨ r.retry = w) (others : ∀ x ∈ r.copies, x.state = .deferred → x.address ∉ ts → r.retry = w)
    (left : ∃ x ∈ (r.settledAll false w p ts).copies, x.state = .deferred) : (r.settledAll false w p ts).retry = w := by
  induction ts generalizing r with
  | nil =>
    obtain ⟨x, hx, is⟩ := left
    exact others x hx is List.not_mem_nil
  | cons a ts ih =>
    refine ih (r := r.settled false w a (p a)) (by rw [receipt_settled]; exact idle) ?_ ?_ left
    · cases h : p a with
      | true =>
        rw [retry_settled_placed]
        split
        · exact retry
        · exact .inl rfl
      | false =>
        rw [retry_settled_deferred]
        split
        · exact retry
        · exact .inr rfl
    · intro y hy is away
      cases h : p a with
      | true =>
        rw [h] at hy
        rw [retry_settled_placed, if_pos (List.any_eq_true.2 ⟨y, hy, by simp [is]⟩)]
        rw [copies_settled] at hy
        obtain ⟨x, hx, rfl⟩ := List.mem_map.1 hy
        rw [Copy.address_settled] at away
        have other : x.address ≠ a := fun e => by simp [Copy.settled, Copy.become, e] at is
        rw [Copy.settled_other other] at is
        exact others x hx is (List.not_mem_cons_of_ne_of_not_mem other away)
      | false =>
        rw [retry_settled_deferred, idle]
        rcases retry with e | e <;> simp [e, Window.active]

end Sys2Proof.Machine

/-! # Proofs: the enqueues of a record's copies, as the state holds them (R58, R85, R88, R94) -/

namespace Sys2Proof.Machine

variable {s t u : State} {r : Delivery} {n : Nat}

/-! ## The record of a serial -/

theorem serial_of_delivery? (h : delivery? s n = some r) : r.serial = n := by simpa using List.find?_some h

theorem delivery?_congr (h : t.dispatcher.records = s.dispatcher.records) : delivery? t n = delivery? s n := by
  unfold delivery?
  rw [h]

theorem delivery?_modDelivery {f : Delivery → Delivery} (keeps : ∀ r, (f r).serial = r.serial) (n k : Nat) (s : State) :
    delivery? (modDelivery n f s) k = (delivery? s k).map fun r => if r.serial = n then f r else r := by
  have same : (fun r : Delivery => (if r.serial = n then f r else r).serial == k) = fun r => r.serial == k := by
    funext r
    split
    · rw [keeps]
    · rfl
  show (s.dispatcher.records.map _).find? _ = _
  rw [List.find?_map, Function.comp_def, same]
  rfl

theorem delivery?_modDelivery_same {f : Delivery → Delivery} (keeps : ∀ r, (f r).serial = r.serial) (h : delivery? s n = some r) :
    delivery? (modDelivery n f s) n = some (f r) := by
  rw [delivery?_modDelivery keeps, h, Option.map_some, if_pos (serial_of_delivery? h)]

theorem delivery?_modDelivery_ne {f : Delivery → Delivery} (keeps : ∀ r, (f r).serial = r.serial) {k : Nat} (ne : k ≠ n) (s : State) :
    delivery? (modDelivery k f s) n = delivery? s n := by
  rw [delivery?_modDelivery keeps]
  cases h : delivery? s n with
  | none => rfl
  | some r => rw [Option.map_some, if_neg (by rw [serial_of_delivery? h]; exact ne.symm)]

/-! ## Deferral (R94) -/

/-- A record waits for the remind interval of its member, which runs (R94). -/
def Delivery.awaitsRemind (s : State) (r : Delivery) : Bool := r.key.kind == .remind && remindRunning s r.key.tag r.key.member

/-- A retry window that starts now (R94). -/
def retryWindow (s : State) : Window := startWindow s s.roster.settings.receiptWindow

theorem delivery?_deferCopy_same (h : delivery? s n = some r) (a : LineId × Nat) :
    delivery? (deferCopy a.1 a.2 n s) n = some (r.settled (r.awaitsRemind s) (retryWindow s) a false) := by
  unfold deferCopy
  rw [h]
  refine (delivery?_modDelivery_same (fun r => ?_) h).trans ?_
  · dsimp only
    split <;> rfl
  · rfl

theorem delivery?_deferCopy_ne {k : Nat} (ne : k ≠ n) (l : LineId) (a : Nat) (s : State) :
    delivery? (deferCopy l a k s) n = delivery? s n := by
  unfold deferCopy
  split
  · rfl
  · refine delivery?_modDelivery_ne (fun r => ?_) ne s
    dsimp only
    split <;> rfl

/-- What a queue gave up leaves the record of another message. -/
theorem delivery?_notHeld {x : AirEntry} (other : x.isCopyOf n = false) (cause : DropMessageCause) (l : LineId) (a : Nat) (s : State) :
    delivery? (notHeld x cause l a s) n = delivery? s n := by
  unfold notHeld
  split
  · rename_i k st carriage
    refine delivery?_deferCopy_ne (fun e => ?_) l a s
    rw [AirEntry.isCopyOf, carriage, e] at other
    simp at other
  · exact delivery?_congr (congrArg Dispatcher.records (submit_dispatcher _ s))

/-! ## One enqueue (R85) -/

/-- The entry that a queue gives up to a new one was the queue's. -/
theorem mem_of_displaced {e x : AirEntry} {q : List AirEntry} (h : (settleEntry e q).displaced = some x) : x ∈ q := by
  unfold settleEntry at h
  split at h
  · cases h
  · split at h
    · cases h
    · split at h
      · cases h
      · rename_i lowest last
        split at h
        · exact Option.some.inj h ▸ List.mem_of_getLast? last
        · cases h

/-- A drop's queue has been settled. -/
def queueSettled (a : LineId × Nat) (p : Placement) (s : State) : State :=
  modDrop a.1 a.2 (fun d => { d with queue := p.queue }) { s with draws := s.draws + 1 }

/-- A copy of a record has been settled, before what it displaces. -/
def copySettled (m : Message) (n : Nat) (st : Stage) (a : LineId × Nat) (p : Placement) (s : State) : State :=
  if p.placed then
    modDelivery n (Delivery.queueCopy a.1 a.2) ((queueSettled a p s).modDispatcher fun d => { d with order := d.order + 1 })
  else notHeld (entryOf s m (.delivery n st)) .full a.1 a.2 (queueSettled a p s)

theorem enqueue_delivery (m : Message) (n : Nat) (st : Stage) (a : LineId × Nat) (s : State) :
    enqueue m (.delivery n st) a.1 a.2 s =
      (let p := placement s m (.delivery n st) a.1 a.2
      match p.displaced with
      | none => copySettled m n st a p s
      | some x => notHeld x .displaced a.1 a.2 (copySettled m n st a p s)) := by
  unfold enqueue copySettled queueSettled
  extract_lets e p drawn settled counted queued held q
  have same : q = p := rfl
  rw [same]
  have queuedIs : held = if p.placed then
      modDelivery n (Delivery.queueCopy a.1 a.2) (settled.modDispatcher fun d => { d with order := d.order + 1 })
      else notHeld e .full a.1 a.2 settled := by
    unfold held queued counted
    cases p.placed <;> rfl
  rw [queuedIs]
  rfl

theorem delivery?_copySettled {st : Stage} (h : delivery? s n = some r) (m : Message) (a : LineId × Nat) (p : Placement) :
    delivery? (copySettled m n st a p s) n = some (r.settled (r.awaitsRemind s) (retryWindow s) a p.placed) := by
  have calls : (queueSettled a p s).calls = s.calls := modDrop_calls ..
  have settings : (queueSettled a p s).roster = s.roster := modDrop_roster ..
  have engine : (queueSettled a p s).engine = s.engine := modDrop_engine ..
  have tick : (queueSettled a p s).tickCount = s.tickCount := modDrop_tickCount ..
  have here : delivery? (queueSettled a p s) n = some r :=
    (delivery?_congr (congrArg Dispatcher.records (modDrop_dispatcher ..))).trans h
  unfold copySettled
  cases p.placed with
  | true => exact delivery?_modDelivery_same (fun _ => rfl) (s := (queueSettled a p s).modDispatcher _) here
  | false =>
    refine (delivery?_deferCopy_same here a).trans ?_
    have waits : r.awaitsRemind (queueSettled a p s) = r.awaitsRemind s := by
      simp only [Delivery.awaitsRemind, remindRunning, tagLive, context, calls]
    have window : retryWindow (queueSettled a p s) = retryWindow s := by
      rw [retryWindow, settings, startWindow_congr engine tick]
      rfl
    rw [waits, window]

/-- An enqueue of a record's copy settles it, and leaves every other record's serial to itself. -/
theorem delivery?_enqueue {st : Stage} (h : delivery? s n = some r) (m : Message) (a : LineId × Nat)
    (fresh : ∀ e ∈ queueOf s a.1 a.2, e.isCopyOf n = false) :
    delivery? (enqueue m (.delivery n st) a.1 a.2 s) n = some (r.settled (r.awaitsRemind s) (retryWindow s) a
      (placement s m (.delivery n st) a.1 a.2).placed) := by
  rw [enqueue_delivery]
  dsimp only
  split
  · exact delivery?_copySettled h m a _
  · rename_i x displaced
    rw [delivery?_notHeld (fresh x (mem_of_displaced displaced))]
    exact delivery?_copySettled h m a _

theorem drop?_enqueue_same (m : Message) (k : Carriage) (a : LineId × Nat) (s : State) :
    drop? (enqueue m k a.1 a.2 s) a.1 a.2
      = (drop? s a.1 a.2).map fun d => { d with queue := (settleEntry (entryOf s m k) d.queue).queue } := by
  rw [drop?_enqueue, drop?_modDrop_same]
  cases h : drop? s a.1 a.2 with
  | none => rfl
  | some d => rw [placement, queueOf_of_drop h]; rfl

theorem drop?_enqueue_ne {a b : LineId × Nat} (ne : b ≠ a) (there : a.2 ≠ 0) (m : Message) (k : Carriage) (s : State) :
    drop? (enqueue m k a.1 a.2 s) b.1 b.2 = drop? s b.1 b.2 := by
  rw [drop?_enqueue]
  by_cases line : b.1 = a.1
  · rw [line]
    exact drop?_modDrop_ne (fun e => ne (Prod.ext line e)) there _ s
  · refine drop?_congr ?_ b.2
    rw [modDrop, State.line_modLine_ne line]

/-! ## Several enqueues of one record's copies (R88) -/

/-- An entry that carries a copy of a record, under the urgency of this moment where its call is live (R58). -/
def CarriesCopy (s : State) (m : Message) (n : Nat) (st : Stage) (e : AirEntry) : Prop :=
  e.message = m ∧ e.carriage = .delivery n st
    ∧ (tagLive s m.tag = true → e.urgency = callUrgency s (context s (tagContext m.tag)) m.kind.isControl)

theorem carriesCopy_entryOf (s : State) (m : Message) (n : Nat) (st : Stage) : CarriesCopy s m n st (entryOf s m (.delivery n st)) :=
  ⟨rfl, rfl, fun live => if_pos live⟩

theorem CarriesCopy.of_mail {m : Message} {st : Stage} {e : AirEntry} (h : CarriesCopy t m n st e) (mail : Mail s t) :
    CarriesCopy s m n st e := by
  obtain ⟨message, carriage, urgency⟩ := h
  refine ⟨message, carriage, fun live => ?_⟩
  rw [urgency (by rw [mail.tagLive]; exact live), mail.context, callUrgency, ticksSince, mail.tickCount]
  rfl

theorem awaitsRemind_of_mail (mail : Mail s t) (r : Delivery) : r.awaitsRemind t = r.awaitsRemind s := by
  simp only [Delivery.awaitsRemind, remindRunning, mail.tagLive, mail.context]

theorem retryWindow_of_mail (mail : Mail s t) : retryWindow t = retryWindow s := by
  rw [retryWindow, mail.roster, startWindow_congr mail.engine mail.tickCount]
  rfl

/-- A message of a record is enqueued to several transmitters in order. -/
def enqueueAll (m : Message) (n : Nat) (st : Stage) (ts : List (LineId × Nat)) (s : State) : State :=
  ts.foldl (fun s a => enqueue m (.delivery n st) a.1 a.2 s) s

theorem enqueueAll_spec {ts : List (LineId × Nat)} {st : Stage} (m : Message) (nodup : ts.Nodup) (there : ∀ a ∈ ts, a.2 ≠ 0)
    (h : delivery? s n = some r) (fresh : ∀ a ∈ ts, ∀ e ∈ queueOf s a.1 a.2, e.isCopyOf n = false) :
    ∃ entry : LineId × Nat → AirEntry,
      (∀ a ∈ ts, CarriesCopy s m n st (entry a) ∧ drop? (enqueueAll m n st ts s) a.1 a.2
        = (drop? s a.1 a.2).map fun d => { d with queue := (settleEntry (entry a) d.queue).queue })
      ∧ (∀ a : LineId × Nat, a ∉ ts → drop? (enqueueAll m n st ts s) a.1 a.2 = drop? s a.1 a.2)
      ∧ delivery? (enqueueAll m n st ts s) n = some (r.settledAll (r.awaitsRemind s) (retryWindow s)
        (fun a => (settleEntry (entry a) (queueOf s a.1 a.2)).placed) ts) := by
  induction ts generalizing s r with
  | nil => exact ⟨fun _ => entryOf s m (.delivery n st), fun a h => absurd h List.not_mem_nil, fun a _ => rfl, h⟩
  | cons x ts ih =>
    obtain ⟨new, rest⟩ := List.nodup_cons.1 nodup
    let s1 := enqueue m (.delivery n st) x.1 x.2 s
    have mail : Mail s s1 := mail_enqueue (.refl s) _ _ _ _
    have away (b : LineId × Nat) (ne : b ≠ x) : drop? s1 b.1 b.2 = drop? s b.1 b.2 :=
      drop?_enqueue_ne ne (there x List.mem_cons_self) m _ s
    have queue (b : LineId × Nat) (ne : b ≠ x) : queueOf s1 b.1 b.2 = queueOf s b.1 b.2 := by
      unfold queueOf
      rw [away b ne]
    have other {b : LineId × Nat} (mem : b ∈ ts) : b ≠ x := fun e => new (e ▸ mem)
    obtain ⟨entry, stands, out, record⟩ := ih rest (fun a ha => there a (List.mem_cons_of_mem _ ha))
      (delivery?_enqueue (st := st) h m x (fresh x List.mem_cons_self))
      fun a ha => by rw [queue a (other ha)]; exact fresh a (List.mem_cons_of_mem _ ha)
    refine ⟨Function.update entry x (entryOf s m (.delivery n st)), fun a ha => ?_, fun a ha => ?_, ?_⟩
    · by_cases own : a = x
      · subst own
        rw [Function.update_self]
        exact ⟨carriesCopy_entryOf s m n st, (out a new).trans (drop?_enqueue_same m _ a s)⟩
      · rw [Function.update_of_ne own]
        obtain ⟨carries, settles⟩ := stands a ((List.mem_cons.1 ha).resolve_left own)
        exact ⟨carries.of_mail mail, settles.trans (by rw [away a own])⟩
    · obtain ⟨own, no⟩ := not_or.1 (fun h => ha (List.mem_cons.2 h))
      exact (out a no).trans (away a own)
    · refine record.trans ?_
      rw [awaitsRemind_of_mail mail, retryWindow_of_mail mail]
      have first : (settleEntry (Function.update entry x (entryOf s m (.delivery n st)) x) (queueOf s x.1 x.2)).placed
          = (placement s m (.delivery n st) x.1 x.2).placed := by
        rw [Function.update_self]
        rfl
      have waits : (r.settled (r.awaitsRemind s) (retryWindow s) x (placement s m (.delivery n st) x.1 x.2).placed).awaitsRemind s
          = r.awaitsRemind s := by rw [Delivery.awaitsRemind, key_settled, Delivery.awaitsRemind]
      rw [waits, Delivery.settledAll, Delivery.settledAll, List.foldl_cons, first]
      exact congrArg some (Delivery.settledAll_congr (fun a ha => by
        rw [queue a (other ha), Function.update_of_ne (other ha)]) _)

end Sys2Proof.Machine

/-! # Proofs: a record that is offered again (R94, R95), and the expiry of a remind interval (R57) -/

namespace Sys2Proof.Machine

variable {c m n : Nat} {s t u : State} {r : Delivery} {ts : List (LineId × Nat)}

/-! ## The enqueues of DEFERRED copies (R94) -/

/-- The DEFERRED copies of a record, enqueued once more. -/
theorem areEnqueued_enqueueCopies (h : delivery? s r.serial = some r) (nodup : ts.Nodup) (there : ∀ a ∈ ts, a.2 ≠ 0)
    (fresh : ∀ a ∈ ts, ∀ e ∈ queueOf s a.1 a.2, e.isCopyOf r.serial = false)
    (deferred : ∀ x ∈ r.copies, x.address ∈ ts ↔ x.state = .deferred) (own : ∀ a ∈ ts, ∃ x ∈ r.copies, x.address = a) :
    areEnqueued s (enqueueCopies r r.stage ts s) r ts := by
  obtain ⟨entry, stands, out, record⟩ := enqueueAll_spec (st := r.stage) r.message nodup there h fresh
  have mail : Mail s (enqueueCopies r r.stage ts s) := mail_enqueueCopies (.refl s) r r.stage ts
  refine ⟨entry, _, fun a ha => ?_, out, record, ?_, fun some => ⟨fun none => ?_, fun left => ⟨fun started => ?_,
    fun retry receipt kind => ?_⟩⟩, mail.calls, mail.roster, mail.attention, mail.area, mail.latches, mail.engine, mail.tickCount⟩
  · obtain ⟨⟨message, carriage, urgency⟩, settles⟩ := stands a ha
    refine ⟨message, carriage, fun live plain => ?_, settles⟩
    rw [urgency live, plain, callUrgency, urgencyOf, if_neg (by decide), Nat.add_zero]
    rfl
  · exact Delivery.settledAll_eq ..
  · exact retry_settledAll_stopped some own none
  · exact retry_settledAll_kept started nodup (fun x hx => (deferred x hx).1) left
  · have waits : r.awaitsRemind s = false := by
      rw [Delivery.awaitsRemind, beq_eq_false_iff_ne.2 kind]
      rfl
    rw [waits] at left ⊢
    exact retry_settledAll_started (by rw [receipt]; rfl) (.inl retry) (fun x hx is away => absurd ((deferred x hx).2 is) away) left

/-! ## The cases of a record that is offered again (R94, R95) -/

/-- Where the DEFERRED copies of a record are. -/
def Delivery.deferredAt (r : Delivery) : List (LineId × Nat) := (r.copies.filter (·.state == .deferred)).map Copy.address

/-- A copy that is DEFERRED where its transmitter is not usable any more. -/
def Copy.away (s : State) (x : Copy) : Bool := x.state == .deferred && !usableAt s x.address

/-- The record without its copies at transmitters that are not usable any more (R94). -/
def routesForgotten (r : Delivery) (s : State) : State :=
  modDelivery r.serial (fun x => (r.deferredAt.filter fun a => !usableAt s a).foldl (fun x a => x.removeCopy a.1 a.2) x) s

theorem away_iff (s : State) (x : Copy) : x.away s = true
    ↔ x.state = .deferred ∧ ¬∃ d, drop? s x.line x.drop = some d ∧ d.kind = .transmitter ∧ d.state = .ready := by
  have usable := usableAt_iff s x.address
  rw [Copy.away, Bool.and_eq_true, Bool.not_eq_true', beq_iff_eq]
  refine and_congr_right fun _ => ?_
  rw [← Bool.not_eq_true, usable]
  rfl

theorem offerAgain_begins (h : delivery? s r.serial = some r) (engine : s.engine ≠ .paused)
    (fresh : r.isPending = true ∨ r.copies = []) : offerAgain r.serial s = beginStage r.serial r.stage s := by
  unfold offerAgain
  rw [h]
  dsimp only
  rw [if_neg engine, if_pos (by rcases fresh with e | e <;> simp [e])]

theorem offerAgain_stage (h : delivery? s r.serial = some r) (engine : s.engine ≠ .paused) (begun : r.isPending = false)
    (copies : r.copies ≠ []) (stage : r.stage ≠ .plant) : offerAgain r.serial s
      = if r.copies.any (Copy.away s) then beginStage r.serial r.stage.next s else (enqueueCopies r r.stage r.deferredAt s, []) := by
  have any : (r.deferredAt.any fun a => !usableAt s a) = r.copies.any (Copy.away s) := by
    rw [Delivery.deferredAt, List.any_map, List.any_filter]
    rfl
  unfold offerAgain
  rw [h]
  dsimp only
  rw [if_neg engine, if_neg (by simp [begun, copies]), ← any]
  split
  · rename_i is
    exact absurd is stage
  · rfl

theorem offerAgain_plant (h : delivery? s r.serial = some r) (engine : s.engine ≠ .paused) (begun : r.isPending = false)
    (copies : r.copies ≠ []) (stage : r.stage = .plant) : offerAgain r.serial s
      = checkRoute r.serial (enqueueCopies r .plant (r.deferredAt.filter (usableAt s)) (routesForgotten r s)) := by
  unfold offerAgain
  rw [h]
  dsimp only
  rw [if_neg engine, if_neg (by simp [begun, copies]), stage]
  rfl

theorem removeCopies_eq (gone : List (LineId × Nat)) (r : Delivery) : gone.foldl (fun x a => x.removeCopy a.1 a.2) r
    = { r with copies := r.copies.filter fun x => decide (x.address ∉ gone) } := by
  induction gone generalizing r with
  | nil => simp
  | cons a gone ih =>
    rw [List.foldl_cons, ih]
    simp only [Delivery.removeCopy, List.filter_filter]
    congr 1
    refine List.filter_congr fun x _ => ?_
    have own : (x.line == a.1 && x.drop == a.2) = true ↔ x.address = a := by simp [Copy.address, Prod.ext_iff]
    rw [Bool.eq_iff_iff]
    by_cases same : x.address = a
    · simp [own.2 same, same]
    · simp [Bool.eq_false_iff.2 (mt own.1 same), same]

theorem address_mem_gone_of_away {x : Copy} (hx : x ∈ r.copies) (away : x.away s = true) :
    x.address ∈ (r.deferredAt.filter fun a => !usableAt s a) := by
  obtain ⟨is, out⟩ := Bool.and_eq_true_iff.1 away
  exact List.mem_filter.2 ⟨List.mem_map.2 ⟨x, List.mem_filter.2 ⟨hx, is⟩, rfl⟩, out⟩

/-- With one copy at each transmitter, the copies that are forgotten are those that are away. -/
theorem address_mem_gone (nodup : (r.copies.map Copy.address).Nodup) {x : Copy} (hx : x ∈ r.copies) :
    x.address ∈ (r.deferredAt.filter fun a => !usableAt s a) ↔ x.away s = true := by
  refine ⟨fun mem => ?_, address_mem_gone_of_away hx⟩
  obtain ⟨stands, out⟩ := List.mem_filter.1 mem
  obtain ⟨y, hy, same⟩ := List.mem_map.1 stands
  obtain ⟨hy, is⟩ := List.mem_filter.1 hy
  obtain rfl := List.inj_on_of_nodup_map nodup hy hx same
  rw [Copy.away, is, out]
  rfl

theorem delivery?_routesForgotten (h : delivery? s r.serial = some r) (nodup : (r.copies.map Copy.address).Nodup) :
    delivery? (routesForgotten r s) r.serial = some { r with copies := r.copies.filter fun x => !x.away s } := by
  refine (delivery?_modDelivery_same (fun x => ?_) h).trans (congrArg some ?_)
  · rw [removeCopies_eq]
  · rw [removeCopies_eq]
    congr 1
    refine List.filter_congr fun x hx => ?_
    simp only [address_mem_gone nodup hx]
    cases x.away s <;> rfl

/-- A part of a list without repetition is what its members tell. -/
theorem eq_filter_of_sublist {α : Type} {l k : List α} {p : α → Bool} (sub : k.Sublist l) (nodup : l.Nodup)
    (iff : ∀ x ∈ l, x ∈ k ↔ p x = true) : k = l.filter p := by
  have all : k.filter p = k := List.filter_eq_self.2 fun x hx => (iff x (sub.subset hx)).1 hx
  have part : k.Sublist (l.filter p) := all ▸ sub.filter p
  refine part.eq_of_length_le ((nodup.filter p).subperm fun x hx => ?_).length_le
  obtain ⟨mem, is⟩ := List.mem_filter.1 hx
  exact (iff x mem).2 is

/-! ## The copies that are enqueued again (R94) -/

/-- The record without its copies that are away. -/
def Delivery.without (s : State) (r : Delivery) : Delivery := { r with copies := r.copies.filter fun x => !x.away s }

theorem deferredAt_without (s : State) (r : Delivery) : (r.without s).deferredAt = r.deferredAt.filter (usableAt s) := by
  simp only [Delivery.deferredAt, Delivery.without, List.filter_map, List.filter_filter]
  refine congrArg (List.map Copy.address) (List.filter_congr fun x _ => ?_)
  simp only [Function.comp_apply, Copy.away]
  cases x.state == .deferred <;> simp

/-- A usable transmitter is at no address 0. -/
theorem address_ne_zero {a : LineId × Nat} (usable : usableAt s a = true) : a.2 ≠ 0 := by
  obtain ⟨d, hd, -⟩ := (usableAt_iff s a).1 usable
  intro zero
  rw [drop?_eq, if_pos zero] at hd
  cases hd

/-- What a record that has no copy away enqueues again (R85, R94). -/
theorem areEnqueued_deferredAt (h : delivery? s r.serial = some r) (nodup : (r.copies.map Copy.address).Nodup)
    (near : ∀ x ∈ r.copies, x.away s = false)
    (fresh : ∀ x ∈ r.copies, x.state = .deferred → ∀ e ∈ queueOf s x.line x.drop, e.isCopyOf r.serial = false) :
    areEnqueued s (enqueueCopies r r.stage r.deferredAt s) r r.deferredAt := by
  have mem (a : LineId × Nat) : a ∈ r.deferredAt ↔ ∃ x ∈ r.copies, x.state = .deferred ∧ x.address = a := by
    simp [Delivery.deferredAt, and_assoc]
  refine areEnqueued_enqueueCopies h (nodup.sublist (List.filter_sublist.map _)) (fun a ha => ?_) (fun a ha => ?_)
    (fun x hx => ⟨fun ha => ?_, fun is => (mem _).2 ⟨x, hx, is, rfl⟩⟩) fun a ha => ?_
  · obtain ⟨x, hx, is, rfl⟩ := (mem a).1 ha
    exact address_ne_zero (by simpa [Copy.away, is] using near x hx)
  · obtain ⟨x, hx, is, rfl⟩ := (mem a).1 ha
    exact fresh x hx is
  · obtain ⟨y, hy, is, same⟩ := (mem _).1 ha
    rwa [List.inj_on_of_nodup_map nodup hx hy same.symm]
  · obtain ⟨x, hx, -, same⟩ := (mem a).1 ha
    exact ⟨x, hx, same⟩

/-- A stage that has a copy left, or whose receipt window is started, has not lost its route (R95). -/
theorem checkRoute_kept {v : Delivery} (h : delivery? t n = some v) (lives : v.copies ≠ [] ∨ v.receipt.active = true) :
    checkRoute n t = (t, []) := by
  unfold checkRoute
  rw [h]
  refine if_neg ?_
  rcases lives with e | e <;> simp [Delivery.routeLost, e]

/-- A PLANT stage with nothing left begins anew (R95). -/
theorem checkRoute_lost {v : Delivery} (h : delivery? t n = some v) (copies : v.copies = []) (receipt : v.receipt.active = false) :
    checkRoute n t = beginStage n .plant t := by
  unfold checkRoute
  rw [h]
  exact if_pos (by simp [Delivery.routeLost, copies, receipt])

/-- The record of a serial is the only one. -/
theorem eq_of_delivery? (ok : s.dispatcher.ok) (h : delivery? s n = some r) {x : Delivery} (hx : x ∈ s.dispatcher.records)
    (same : x.serial = n) : x = r :=
  List.inj_on_of_nodup_map ok.2.1 hx (List.mem_of_find?_eq_some h) (same.trans (serial_of_delivery? h).symm)

/-- With every copy away, nothing is left of a record's copies. -/
theorem removeCopies_all (away : ∀ x ∈ r.copies, x.away s = true) :
    (r.deferredAt.filter fun a => !usableAt s a).foldl (fun x a => x.removeCopy a.1 a.2) r = { r with copies := [] } := by
  rw [removeCopies_eq]
  congr 1
  refine List.filter_eq_nil_iff.2 fun x hx => ?_
  simpa only [decide_not, Bool.not_eq_true', decide_eq_false_iff_not, not_not] using address_mem_gone_of_away hx (away x hx)

/-- With every copy away, a PLANT stage forgets them all (R94). -/
theorem routesForgotten_all (ok : s.dispatcher.ok) (h : delivery? s r.serial = some r) (away : ∀ x ∈ r.copies, x.away s = true) :
    routesForgotten r s = { s with dispatcher := { s.dispatcher with
      records := s.dispatcher.records.map fun x => if x.serial = r.serial then { x with copies := [] } else x } } := by
  have maps : (s.dispatcher.records.map fun x => if x.serial = r.serial then
      (r.deferredAt.filter fun a => !usableAt s a).foldl (fun x a => x.removeCopy a.1 a.2) x else x)
      = s.dispatcher.records.map fun x => if x.serial = r.serial then { x with copies := [] } else x := by
    refine List.map_congr_left fun x hx => ?_
    split
    · rename_i same
      rw [eq_of_delivery? ok h hx same]
      exact removeCopies_all away
    · rfl
  rw [← maps]
  rfl

theorem delivery?_routesForgotten_all (h : delivery? s r.serial = some r) (away : ∀ x ∈ r.copies, x.away s = true) :
    delivery? (routesForgotten r s) r.serial = some { r with copies := [] } := by
  refine (delivery?_modDelivery_same (fun x => ?_) h).trans (congrArg some (removeCopies_all away))
  rw [removeCopies_eq]

/-- A PLANT stage whose copies are all away begins anew (R94, R95). -/
theorem offerAgain_forgets (h : delivery? s r.serial = some r) (engine : s.engine ≠ .paused)
    (begun : r.isPending = false) (copies : r.copies ≠ []) (stage : r.stage = .plant) (receipt : r.receipt.active = false)
    (away : ∀ x ∈ r.copies, x.away s = true) : offerAgain r.serial s = beginStage r.serial .plant (routesForgotten r s) := by
  have nowhere : r.deferredAt.filter (usableAt s) = [] := by
    refine (deferredAt_without s r).symm.trans ?_
    have none : (r.without s).copies = [] := List.filter_eq_nil_iff.2 fun x hx => by simp [away x hx]
    simp [Delivery.deferredAt, none]
  rw [offerAgain_plant h engine begun copies stage, nowhere]
  exact checkRoute_lost (delivery?_routesForgotten_all h away) rfl receipt

/-- A PLANT stage that keeps a copy, or its receipt window, enqueues what it has DEFERRED at usable transmitters (R94). -/
theorem offerAgain_keeps (h : delivery? s r.serial = some r) (engine : s.engine ≠ .paused)
    (begun : r.isPending = false) (copies : r.copies ≠ []) (stage : r.stage = .plant) (nodup : (r.copies.map Copy.address).Nodup)
    (fresh : ∀ x ∈ r.copies, x.state = .deferred → ∀ e ∈ queueOf s x.line x.drop, e.isCopyOf r.serial = false)
    (lives : (r.without s).copies ≠ [] ∨ r.receipt.active = true) :
    offerAgain r.serial s = (enqueueCopies r .plant (r.without s).deferredAt (routesForgotten r s), [])
    ∧ areEnqueued s (offerAgain r.serial s).1 (r.without s) (r.without s).deferredAt := by
  have forgets : delivery? (routesForgotten r s) r.serial = some (r.without s) := delivery?_routesForgotten h nodup
  have kept : (r.without s).copies.Sublist r.copies := List.filter_sublist
  have same : enqueueCopies (r.without s) (r.without s).stage (r.without s).deferredAt (routesForgotten r s)
      = enqueueCopies r .plant (r.without s).deferredAt (routesForgotten r s) := by
    rw [show (r.without s).stage = .plant from stage]
    rfl
  have enqueues : areEnqueued (routesForgotten r s) (enqueueCopies r .plant (r.without s).deferredAt (routesForgotten r s))
      (r.without s) (r.without s).deferredAt := by
    rw [← same]
    refine areEnqueued_deferredAt (r := r.without s) forgets (nodup.sublist (kept.map _)) (fun x hx => ?_)
      fun x hx => fresh x (kept.subset hx)
    have near := (List.mem_filter.1 hx).2
    rwa [Bool.not_eq_true'] at near
  have route : offerAgain r.serial s = (enqueueCopies r .plant (r.without s).deferredAt (routesForgotten r s), []) := by
    rw [offerAgain_plant h engine begun copies stage, ← deferredAt_without]
    obtain ⟨entry, v, -, -, here, is, -⟩ := enqueues
    refine checkRoute_kept here ?_
    rw [is]
    exact lives.imp_left fun some none => some (List.map_eq_nil_iff.1 none)
  refine ⟨route, ?_⟩
  rw [route]
  exact enqueues

theorem offerAgain_isOfferedAgain (ok : s.dispatcher.ok) (h : delivery? s r.serial = some r) (engine : s.engine ≠ .paused) :
    isOfferedAgain s r (offerAgain r.serial s) := by
  refine ⟨offerAgain_begins h engine, fun begun copies => ⟨fun ⟨x, hx, away⟩ => ?_, fun stage receipt all => ?_,
    fun nodup fresh kept offered sub keeps subO offers whole lives => ?_⟩⟩
  · have any : r.copies.any (Copy.away s) = true := List.any_eq_true.2 ⟨x, hx, (away_iff s x).2 away⟩
    constructor <;> intro stage <;>
      rw [offerAgain_stage h engine begun copies (by rw [stage]; decide), if_pos any, stage] <;> rfl
  · have away := fun x hx => (away_iff s x).2 (all x hx)
    rw [offerAgain_forgets h engine begun copies stage receipt away, routesForgotten_all ok h away]
  · have nodup : (r.copies.map Copy.address).Nodup := nodup
    obtain rfl : kept = (r.without s).copies := eq_filter_of_sublist sub (List.Nodup.of_map _ nodup) fun x hx => by
      refine (keeps x hx).trans ((not_congr (away_iff s x)).symm.trans ?_)
      rw [Bool.not_eq_true', Bool.not_eq_true]
    obtain rfl : offered = (r.without s).copies.filter (·.state == .deferred) :=
      eq_filter_of_sublist subO ((List.Nodup.of_map _ nodup).sublist sub) fun x hx => by rw [offers x hx, beq_iff_eq]
    by_cases stage : r.stage = .plant
    · obtain ⟨route, enqueues⟩ := offerAgain_keeps h engine begun copies stage nodup fresh lives
      exact ⟨by rw [route], enqueues⟩
    · have all : r.without s = r := congrArg (fun l => { r with copies := l }) (whole.resolve_right stage)
      have near : ∀ x ∈ r.copies, x.away s = false := fun x hx => by
        have mem : x ∈ (r.without s).copies := by rw [all]; exact hx
        simpa using (List.mem_filter.1 mem).2
      rw [offerAgain_stage h engine begun copies stage, if_neg (by simpa using near)]
      refine ⟨rfl, ?_⟩
      rw [all]
      exact areEnqueued_deferredAt h nodup near fresh

end Sys2Proof.Machine

/-! # Proofs: the expiry of a remind interval (R57, R94) -/

namespace Sys2Proof.Machine

variable {c m n : Nat} {s t u : State} {r : Delivery} {ts : List (LineId × Nat)} {st : Stage}

/-! ## The transmitters of a stage (R87) -/

theorem usableTransmitter_spec (s : State) (z : Nat) : (usableTransmitter s z).toList.Nodup
    ∧ ∀ a ∈ (usableTransmitter s z).toList, usableAt s a = true := by
  unfold usableTransmitter
  cases h : (zoneTransmitter s z).filter (usableAt s) with
  | none => exact ⟨List.nodup_nil, fun a h => absurd h List.not_mem_nil⟩
  | some a =>
    refine ⟨List.nodup_singleton a, fun b hb => ?_⟩
    rw [List.mem_singleton.1 hb]
    exact (Option.filter_eq_some_iff.1 h).2

theorem stageTransmitters_spec (s : State) (m : Nat) (st : Stage) : (stageTransmitters s m st).Nodup
    ∧ ∀ a ∈ stageTransmitters s m st, usableAt s a = true := by
  cases st with
  | lastHeard =>
    have is : stageTransmitters s m .lastHeard = [] ∨ ∃ z, stageTransmitters s m .lastHeard = (usableTransmitter s z).toList := by
      simp only [stageTransmitters]
      split
      · exact .inl rfl
      · split
        · exact .inl rfl
        · exact .inr ⟨_, rfl⟩
    rcases is with e | ⟨z, e⟩
    · rw [e]
      exact ⟨List.nodup_nil, fun a h => absurd h List.not_mem_nil⟩
    · rw [e]
      exact usableTransmitter_spec s z
  | home => exact usableTransmitter_spec s _
  | plant => exact ⟨List.Nodup.filter _ (by decide), fun a ha => (List.mem_filter.1 ha).2⟩

theorem chooseStage_spec (s : State) (m : Nat) (st : Stage) : (chooseStage s m st).2.Nodup
    ∧ ∀ a ∈ (chooseStage s m st).2, usableAt s a = true := by
  have each := stageTransmitters_spec s m
  unfold chooseStage
  repeat' split
  · exact each .plant
  · exact each .home
  · exact each .lastHeard
  · exact each .plant
  · exact each .home
  · exact each .plant

/-! ## The retry window of a copy that is DEFERRED once more (R56, R94) -/

/-- Every copy of a record that stands DEFERRED waits for a retry window that has just been started. -/
def RetriesFromNow (n : Nat) (s t : State) : Prop :=
  ∀ w, delivery? t n = some w → (∃ x ∈ w.copies, x.state = .deferred) → w.retry = retryWindow s

/-- No queue holds a copy of a record. -/
def NotQueued (n : Nat) (s : State) : Prop := ∀ a : LineId × Nat, ∀ e ∈ queueOf s a.1 a.2, e.isCopyOf n = false

/-- A record for which nothing is waited: no window of its own, and no remind interval. -/
def Idle (s : State) (r : Delivery) : Prop := r.retry = .stopped ∧ r.receipt = .stopped ∧ r.awaitsRemind s = false

theorem retriesFromNow_enqueueAll (msg : Message) (h : delivery? s n = some r) (idle : Idle s r) (clean : NotQueued n s) (nodup : ts.Nodup)
    (usable : ∀ a ∈ ts, usableAt s a = true) (all : ∀ x ∈ r.copies, x.state = .deferred → x.address ∈ ts) :
    RetriesFromNow n s (enqueueAll msg n st ts s) := by
  obtain ⟨retry, receipt, waits⟩ := idle
  obtain ⟨entry, -, -, record⟩ := enqueueAll_spec (st := st) msg nodup (fun a ha => address_ne_zero (usable a ha)) h fun a _ => clean a
  intro w here left
  rw [record, waits] at here
  obtain rfl := Option.some.inj here
  exact retry_settledAll_started (by rw [receipt]; rfl) (.inl retry) (fun x hx is away => absurd (all x hx is) away) left

theorem delivery?_withdraw (n : Nat) (s : State) : delivery? (withdraw n s) n = none := by
  refine List.find?_eq_none.2 fun x hx => ?_
  have other := (List.mem_filter.1 hx).2
  simpa using other

theorem retriesFromNow_beginStage (h : delivery? s n = some r) (engine : s.engine ≠ .paused) (retry : r.retry = .stopped)
    (waits : r.awaitsRemind s = false) (clean : NotQueued n s) : RetriesFromNow n s (beginStage n st s).1 := by
  obtain rfl := serial_of_delivery? h
  obtain ⟨nodup, usable⟩ := chooseStage_spec s r.key.member st
  unfold beginStage
  rw [h]
  dsimp only
  rw [if_neg engine]
  generalize chooseStage s r.key.member st = chosen at *
  let begun (x : Delivery) : Delivery := { x with
    stage := chosen.1, isPending := false, receipt := .stopped
    copies := chosen.2.map fun a => { line := a.1, drop := a.2, state := .deferred } }
  have here : delivery? (modDelivery r.serial begun s) r.serial = some (begun r) := delivery?_modDelivery_same (fun _ => rfl) h
  split
  · rename_i none
    split
    · intro w hw
      have gone : delivery? (endUnreached r (modDelivery r.serial begun s)).1 r.serial = Option.none := delivery?_withdraw r.serial _
      exact absurd (gone.symm.trans hw) (by simp)
    · intro w hw left
      let retried (x : Delivery) : Delivery := { x with noRouteUsed := true, retry := retryWindow (modDelivery r.serial begun s) }
      have again : delivery? (modDelivery r.serial retried (modDelivery r.serial begun s)) r.serial = some (retried (begun r)) :=
        delivery?_modDelivery_same (fun _ => rfl) here
      obtain rfl := Option.some.inj (again.symm.trans hw)
      obtain ⟨x, hx, -⟩ := left
      obtain ⟨a, ha, -⟩ := List.mem_map.1 hx
      rw [List.isEmpty_iff.1 none] at ha
      exact absurd ha List.not_mem_nil
  · refine retriesFromNow_enqueueAll (s := modDelivery r.serial begun s) r.message here ⟨retry, rfl, waits⟩ clean nodup usable
      fun x hx _ => ?_
    obtain ⟨a, ha, rfl⟩ := List.mem_map.1 hx
    exact ha

theorem retriesFromNow_offerAgain (h : delivery? s r.serial = some r) (engine : s.engine ≠ .paused) (idle : Idle s r)
    (clean : NotQueued r.serial s) (nodup : (r.copies.map Copy.address).Nodup) :
    RetriesFromNow r.serial s (offerAgain r.serial s).1 := by
  obtain ⟨retry, receipt, waits⟩ := idle
  have begins (st : Stage) : RetriesFromNow r.serial s (beginStage r.serial st s).1 :=
    retriesFromNow_beginStage h engine retry waits clean
  by_cases fresh : r.isPending = true ∨ r.copies = []
  · rw [offerAgain_begins h engine fresh]
    exact begins _
  obtain ⟨begun, copies⟩ := not_or.1 fresh
  have begun := Bool.eq_false_iff.2 begun
  have mem (v : Delivery) : ∀ x ∈ v.copies, x.state = .deferred → x.address ∈ v.deferredAt := fun x hx is =>
    List.mem_map_of_mem (List.mem_filter.2 ⟨hx, by rw [is]; rfl⟩)
  by_cases stage : r.stage = .plant
  · by_cases lives : (r.without s).copies = []
    · have away : ∀ x ∈ r.copies, x.away s = true := fun x hx => by simpa using List.filter_eq_nil_iff.1 lives x hx
      rw [offerAgain_forgets h engine begun copies stage (by rw [receipt]; rfl) away]
      exact retriesFromNow_beginStage (s := routesForgotten r s) (delivery?_routesForgotten_all h away) engine retry waits clean
    · obtain ⟨route, -⟩ := offerAgain_keeps h engine begun copies stage nodup (fun x _ _ => clean x.address) (.inl lives)
      rw [route]
      refine retriesFromNow_enqueueAll (s := routesForgotten r s) (r := r.without s) r.message
        (delivery?_routesForgotten h nodup) ⟨retry, receipt, waits⟩ clean ?_ (fun a ha => ?_) (mem _)
      · exact nodup.sublist ((List.filter_sublist.trans List.filter_sublist).map _)
      · rw [deferredAt_without] at ha
        exact (List.mem_filter.1 ha).2
  · rw [offerAgain_stage h engine begun copies stage]
    split
    · exact begins _
    · rename_i near
      refine retriesFromNow_enqueueAll r.message h ⟨retry, receipt, waits⟩ clean (nodup.sublist (List.filter_sublist.map _))
        (fun a ha => ?_) (mem r)
      obtain ⟨x, hx, rfl⟩ := List.mem_map.1 ha
      obtain ⟨hx, is⟩ := List.mem_filter.1 hx
      by_contra out
      exact near (List.any_eq_true.2 ⟨x, hx, by rw [Copy.away, is, Bool.not_eq_true _ |>.mp out]; rfl⟩)

/-! ## The expiry of a remind interval (R57) -/

theorem lt_of_contact {e : Contact} (h : (context s c).contact m = some e) : c < s.calls.contexts.length :=
  lt_of_context_ne fun empty => by
    rw [empty] at h
    cases h

/-- A change of one member's entry, as the context holds it afterwards. -/
theorem contact_change {e : Contact} (f : Contact → Contact) (keeps : ∀ e, (f e).member = e.member)
    (h : (context s c).contact m = some e) : (context (modContext c (Context.modContact m f) s) c).contact m = some (f e) := by
  have own : e.member = m := by simpa using List.find?_some h
  rw [context_modContext_same _ (lt_of_contact h), contact_modContact _ m m keeps, h, Option.map_some, if_pos own]

/-- The remind interval of a member in a call stops. -/
def remindStopped (c m : Nat) (s : State) : State := modContext c (Context.modContact m fun e => { e with remind := .stopped }) s

/-- A REMIND is counted, and the remind interval starts again (R57). -/
def remindCounted (c m : Nat) (s : State) : State :=
  modContext c (Context.modContact m fun e =>
    { e with remind := startWindow s s.roster.settings.remindInterval, remindCount := e.remindCount + 1 }) s

theorem tag_modContact (c m : Nat) (f : Contact → Contact) (s : State) :
    (context (modContext c (Context.modContact m f) s) c).tag = (context s c).tag
      ∧ (context (modContext c (Context.modContact m f) s) c).state = (context s c).state := by
  rw [context_modContext]
  split <;> exact ⟨rfl, rfl⟩

section
variable {e : Contact} (contact : (context s c).contact m = some e) (due : e.remind.due s.tickCount = true)
include contact due

theorem expireRemind_below (below : e.remindCount < s.roster.settings.remindLimit) :
    expireRemind c m s = (handOver .remind c m false (remindCounted c m s), []) := by
  unfold expireRemind
  rw [contact]
  dsimp only
  rw [if_neg (by simp [due]), if_pos below]
  rfl

theorem expireRemind_limit (limit : s.roster.settings.remindLimit ≤ e.remindCount) :
    expireRemind c m s = offerDeferredRemind (context s c).tag m (remindStopped c m s) := by
  unfold expireRemind
  rw [contact]
  dsimp only
  rw [if_neg (by simp [due]), if_neg (not_lt.2 limit)]
  show offerDeferredRemind (context (remindStopped c m s) c).tag m (remindStopped c m s) = _
  rw [show (context (remindStopped c m s) c).tag = (context s c).tag from (tag_modContact c m _ s).1]

theorem remindExpiry_runs (agenda : s.agenda = []) : exec (.remindIntervalExpiry c m) s
    = .next (closeEvent (run (Config.workLimit - 1) (expireRemind c m s).2 (expireRemind c m s).1)) := by
  refine congrArg Host.Outcome.next ((if_pos (by rw [contact]; exact due)).trans (congrArg closeEvent ?_))
  have limit : Config.workLimit = Config.workLimit - 1 + 1 := rfl
  rw [agenda, List.nil_append, agenda_nil s agenda, limit, run_cons, List.append_nil]
  rfl

/-- A remind interval that sets no more off. -/
theorem remindExpiry_rests (agenda : s.agenda = []) (none : expireRemind c m s = (t, [])) (engine : t.engine ≠ .stopping) :
    exec (.remindIntervalExpiry c m) s = .next (recomputeLamps t) := by
  rw [remindExpiry_runs contact due agenda, none, run_nil, closeEvent_eq t engine]

end

/-- A REMIND that is DEFERRED with neither window started is offered again (R94). -/
theorem offerDeferredRemind_some {tag : Nat} (h : deliveryOf s { tag := tag, member := m, kind := .remind } = some r) :
    ((¬∃ x ∈ r.copies, x.state = .deferred) ∨ r.receipt ≠ .stopped ∨ r.retry ≠ .stopped →
      offerDeferredRemind tag m s = (s, []))
    ∧ ((∃ x ∈ r.copies, x.state = .deferred) → r.receipt = .stopped → r.retry = .stopped →
      offerDeferredRemind tag m s = offerAgain r.serial s) := by
  have active (w : Window) : w.active = false ↔ w = .stopped := by cases w <;> simp [Window.active]
  unfold offerDeferredRemind
  rw [h]
  refine ⟨fun left => if_neg ?_, fun deferred receipt retry => if_pos ?_⟩
  · simp only [Bool.and_eq_true, List.any_eq_true, beq_iff_eq, Bool.not_eq_true', active]
    rintro ⟨⟨deferred, receipt⟩, retry⟩
    rcases left with no | no | no
    · exact no deferred
    · exact no receipt
    · exact no retry
  · simpa only [Bool.and_eq_true, List.any_eq_true, beq_iff_eq, Bool.not_eq_true', active] using ⟨⟨deferred, receipt⟩, retry⟩

theorem delivery?_of_deliveryOf (ok : s.dispatcher.ok) {key : RecordKey} (h : deliveryOf s key = some r) :
    delivery? s r.serial = some r := by
  cases is : delivery? s r.serial with
  | none => exact absurd (List.find?_eq_none.1 is r (List.mem_of_find?_eq_some h)) (by simp)
  | some x => exact congrArg some (eq_of_delivery? ok is (List.mem_of_find?_eq_some h) rfl).symm

theorem notQueued_of_drops (clean : ∀ d ∈ s.line0.drops ++ s.line1.drops, ∀ e ∈ d.queue, e.isCopyOf n = false) : NotQueued n s := by
  intro a e he
  unfold queueOf at he
  cases h : drop? s a.1 a.2 with
  | none =>
    rw [h] at he
    exact absurd he List.not_mem_nil
  | some d =>
    rw [h] at he
    rw [drop?_eq] at h
    split at h
    · cases h
    · refine clean d (List.mem_append.2 ?_) e he
      have mem := List.mem_of_getElem? h
      generalize a.1 = l at mem
      cases l
      · exact .inl mem
      · exact .inr mem

/-- With its remind interval stopped, nothing is waited for by a REMIND without windows (R94). -/
theorem idle_remindStopped {e : Contact} (contact : (context s c).contact m = some e) (own : (context s c).tag % 128 = c)
    (key : r.key = { tag := (context s c).tag, member := m, kind := .remind })
    (receipt : r.receipt = .stopped) (retry : r.retry = .stopped) : Idle (remindStopped c m s) r := by
  refine ⟨retry, receipt, ?_⟩
  have stopped : (context (remindStopped c m s) c).contact m = some { e with remind := .stopped } :=
    contact_change (fun e => { e with remind := .stopped }) (fun _ => rfl) contact
  rw [Delivery.awaitsRemind, remindRunning, key]
  dsimp only
  rw [show tagContext (context s c).tag = c from own, stopped]
  simp [Window.isRunning]

/-- Settles O23: below the limit by `handOver`, and at the limit by `offerAgain` of a record for which nothing is waited any more. -/
theorem remindExpiryHandsOverAReminder : Obligations.RemindExpiryHandsOverAReminder := by
  intro s c m e agenda engine ok contact due
  have running : s.engine ≠ .stopping := by rw [engine]; decide
  refine ⟨fun below => ?_, fun limit none => ?_, fun r limit own handed => ?_⟩
  · have mail := mail_handOver (.refl (remindCounted c m s)) .remind c m false
    obtain ⟨tag, state⟩ := tag_modContact c m (fun e =>
      { e with remind := startWindow s s.roster.settings.remindInterval, remindCount := e.remindCount + 1 }) s
    refine ⟨_, remindExpiry_rests contact due agenda (expireRemind_below contact due below) (by rw [mail.engine]; exact running),
      ?_, ?_, ?_, mail.attention, mail.roster⟩
    · have counted := contact_change (fun e =>
        { e with remind := startWindow s s.roster.settings.remindInterval, remindCount := e.remindCount + 1 }) (fun _ => rfl) contact
      refine (congrArg (·.contact m) (mail.context c)).trans (counted.trans ?_)
      rw [startWindow, if_neg (by rw [engine]; decide)]
    · have made := deliveryOf_handOver (s := remindCounted c m s) .remind c m false ok
      rw [show (context (remindCounted c m s) c).tag = (context s c).tag from tag] at made
      exact made
    · exact (congrArg Context.state (mail.context c)).trans state
  · have rests : expireRemind c m s = (remindStopped c m s, []) := by
      rw [expireRemind_limit contact due limit, offerDeferredRemind, show deliveryOf (remindStopped c m s) _ = _ from none]
    exact ⟨_, remindExpiry_rests contact due agenda rests running,
      contact_change (fun e => { e with remind := .stopped }) (fun _ => rfl) contact, rfl, rfl, rfl⟩
  · intro u v isDeferred
    have same : v = offerDeferredRemind (context s c).tag m u := expireRemind_limit contact due limit
    obtain ⟨left, again⟩ := offerDeferredRemind_some (s := u) handed
    have here : delivery? u r.serial = some r := delivery?_of_deliveryOf (s := u) ok handed
    have unpaused : u.engine ≠ .paused := by rw [show u.engine = s.engine from rfl, engine]; decide
    refine ⟨remindExpiry_runs contact due agenda, fun h => same.trans (left h), fun deferred receipt retry => ?_⟩
    have offers : v = offerAgain r.serial u := same.trans (again deferred receipt retry)
    rw [offers]
    refine ⟨offerAgain_isOfferedAgain (s := u) ok here unpaused, fun nodup clean w hw waits => ?_⟩
    have idle : Idle u r := idle_remindStopped contact own (by simpa using List.find?_some handed) receipt retry
    rw [retriesFromNow_offerAgain here unpaused idle (notQueued_of_drops clean) nodup w hw waits, retryWindow, startWindow, if_neg unpaused]

end Sys2Proof.Machine

/-! # Proofs: the state of a member, and the changes of its record (R65 to R68, R70, R81) -/

namespace Sys2Proof.Machine

variable {duty : Bool} {m : Nat} {s : State} {r : Member}

/-! ## The rows of R65 -/

/-- The first row. -/
theorem state_of_engaged {tag : Nat} (held : r.engaged = some tag) : Member.state duty r = .engaged := by
  simp [Member.state, held]

/-- The rows after the first, for a member who is not engaged. -/
theorem state_of_not_engaged (free : r.engaged = none) :
    Member.state duty r = if duty = false then .offShift else if r.paged = 0 then .idle else .paged := by
  cases duty <;> simp [Member.state, free, Nat.pos_iff_ne_zero]

/-- When each state is that of the first matching row. -/
theorem state_iff_rows (duty : Bool) (r : Member) :
    (Member.state duty r = .engaged ↔ r.engaged ≠ none)
    ∧ (Member.state duty r = .offShift ↔ r.engaged = none ∧ duty = false)
    ∧ (Member.state duty r = .paged ↔ r.engaged = none ∧ duty = true ∧ r.paged ≠ 0)
    ∧ (Member.state duty r = .idle ↔ r.engaged = none ∧ duty = true ∧ r.paged = 0) := by
  cases held : r.engaged with
  | some tag => simp [state_of_engaged held]
  | none =>
    rw [state_of_not_engaged held]
    cases duty with
    | false => simp
    | true => by_cases unpaged : r.paged = 0 <;> simp [unpaged]

/-! ## A change of one record (R81) -/

/-- The record of `m` has become `new`, with its mirror entry dirty if that is a change, and nothing else differs from `s` to `t`. -/
def RecordBecomes (s : State) (m : Nat) (new : Member) (t : State) : Prop :=
  member t m = (if new = member s m then member s m else { new with dirty := true, touched := true })
    ∧ (∀ j, j ≠ m → member t j = member s j)
    ∧ t = { s with roster := { s.roster with members := t.roster.members } }

theorem recordBecomes_modMember (f : Member → Member) (low : m < s.roster.members.length) :
    RecordBecomes s m (f (member s m)) (modMember m f s) :=
  ⟨(member_modMember m m f s).trans (if_pos ⟨rfl, low⟩), fun _ other => member_modMember_ne other f s, rfl⟩

/-- Settles O52: the rows by `state_iff_rows`, and each of the five changes by `recordBecomes_modMember`. -/
theorem memberStateIsTheFirstMatchingRow : Obligations.MemberStateIsTheFirstMatchingRow := by
  refine ⟨state_iff_rows, fun s m tag zone low => ?_⟩
  have becomes (f : Member → Member) : RecordBecomes s m (f (member s m)) (modMember m f s) := recordBecomes_modMember f low
  intro old p mem
  simp only [List.mem_cons, List.not_mem_nil, or_false] at mem
  obtain rfl | rfl | rfl | rfl | rfl := mem
  · exact becomes fun r => { r with paged := r.paged + 1 }
  · exact becomes fun r => { r with paged := r.paged - 1 }
  · exact becomes fun r => { r with engaged := some tag }
  · exact becomes fun r => { r with engaged := none, offDutyPending := false }
  · exact becomes fun r => { r with lastZone := some zone, lastTick := s.tickCount }

end Sys2Proof.Machine

/-! # Proofs: the beginning of a reach stage, and a record that ends unreached (R87, R88, R92, R95, R101) -/

namespace Sys2Proof.Machine

variable {m n : Nat} {s t u : State} {r : Delivery} {st : Stage} {key : RecordKey}

/-! ## A record that ends unreached (R92) -/

theorem dispatcher_endUnreached (r : Delivery) (s : State) : (endUnreached r s).1.dispatcher
    = { s.dispatcher with records := s.dispatcher.records.filter fun x => x.serial != r.serial } :=
  congrArg (fun d : Dispatcher => { d with records := d.records.filter (·.serial != r.serial) }) (submit_dispatcher _ s)

/-- To report the record of no live call, or an ARRIVAL CHECK, does nothing (R92). -/
theorem reportUnreached_nothing (none : tagLive s key.tag = false ∨ key.kind = .arrivalCheck) : reportUnreached key s = (s, []) := by
  unfold reportUnreached
  exact if_pos (by simpa using none)

/-! ## The beginning of a stage (R87, R88, R95, R101) -/

/-- A record at the beginning of a stage, before its copies are enqueued (R88). -/
def Delivery.begun (chosen : Stage × List (LineId × Nat)) (r : Delivery) : Delivery :=
  { r with
    stage := chosen.1, isPending := false, receipt := .stopped
    copies := chosen.2.map fun a => { line := a.1, drop := a.2, state := .deferred } }

/-- A record at the beginning of a stage. -/
def stageBegun (n : Nat) (chosen : Stage × List (LineId × Nat)) (s : State) : State := modDelivery n (Delivery.begun chosen) s

theorem delivery?_stageBegun (h : delivery? s n = some r) (chosen : Stage × List (LineId × Nat)) :
    delivery? (stageBegun n chosen s) n = some (r.begun chosen) :=
  delivery?_modDelivery_same (fun _ => rfl) h

/-- A record whose stage has found no route waits one retry window (R95). -/
def Delivery.retried (w : Window) (r : Delivery) : Delivery := { r with noRouteUsed := true, retry := w }

theorem beginStage_paused (h : delivery? s n = some r) (engine : s.engine = .paused) : beginStage n st s = (becomePending n st s, []) := by
  unfold beginStage
  rw [h]
  exact if_pos engine

theorem beginStage_begins (h : delivery? s n = some r) (engine : s.engine ≠ .paused) : beginStage n st s =
    (let chosen := chooseStage s r.key.member st
    if chosen.2.isEmpty then
      if r.noRouteUsed then endUnreached r (stageBegun n chosen s)
      else (modDelivery n (Delivery.retried (retryWindow s)) (stageBegun n chosen s), [])
    else (enqueueCopies r chosen.1 chosen.2 (stageBegun n chosen s), [])) := by
  unfold beginStage
  rw [h]
  exact if_neg engine

/-- A stage without a usable transmitter waits one retry window (R95). -/
theorem beginStage_waits (h : delivery? s n = some r) (engine : s.engine ≠ .paused) {next : Stage}
    (chosen : chooseStage s r.key.member st = (next, [])) (unused : r.noRouteUsed = false) : beginStage n st s
      = (modDelivery n (Delivery.retried (retryWindow s)) (stageBegun n (next, []) s), []) := by
  rw [beginStage_begins h engine, chosen]
  dsimp only
  rw [if_pos List.isEmpty_nil, unused]
  rfl

/-- A stage without a usable transmitter ends a record that has waited already (R95). -/
theorem beginStage_unreached (h : delivery? s n = some r) (engine : s.engine ≠ .paused) {next : Stage}
    (chosen : chooseStage s r.key.member st = (next, [])) (used : r.noRouteUsed = true) :
    beginStage n st s = endUnreached r (stageBegun n (next, []) s) := by
  rw [beginStage_begins h engine, chosen]
  dsimp only
  rw [if_pos List.isEmpty_nil, used]
  rfl

/-- A stage with usable transmitters has a copy enqueued at each of them (R88). -/
theorem beginStage_enqueues (h : delivery? s n = some r) (engine : s.engine ≠ .paused) {next : Stage} {ts : List (LineId × Nat)}
    (chosen : chooseStage s r.key.member st = (next, ts)) (some : ts ≠ []) (clean : NotQueued n s) :
    (beginStage n st s).2 = [] ∧ areEnqueued s (beginStage n st s).1 (r.begun (next, ts)) ts := by
  obtain rfl := serial_of_delivery? h
  have usable := chooseStage_spec s r.key.member st
  have e := beginStage_begins (st := st) h engine
  rw [chosen] at usable e
  obtain ⟨nodup, usable⟩ := usable
  dsimp only at e
  rw [if_neg (by simpa using some)] at e
  rw [e]
  have deferred : ∀ x ∈ (r.begun (next, ts)).copies, x.address ∈ ts ∧ x.state = .deferred := fun x hx => by
    obtain ⟨a, ha, rfl⟩ := List.mem_map.1 hx
    exact ⟨ha, rfl⟩
  exact ⟨rfl, areEnqueued_enqueueCopies (r := r.begun (next, ts)) (delivery?_stageBegun h _) nodup
    (fun a ha => address_ne_zero (usable a ha)) (fun a _ => clean a)
    (fun x hx => iff_of_true (deferred x hx).1 (deferred x hx).2) fun a ha => ⟨_, List.mem_map_of_mem ha, rfl⟩⟩

/-- With no usable transmitter anywhere, every stage comes to PLANT without a transmitter (R87). -/
theorem chooseStage_nowhere (nowhere : ∀ a, usableAt s a = false) (m : Nat) (st : Stage) : chooseStage s m st = (.plant, []) := by
  have none (st : Stage) : stageTransmitters s m st = [] := List.eq_nil_iff_forall_not_mem.2 fun a ha => by
    have usable := (stageTransmitters_spec s m st).2 a ha
    rw [nowhere a] at usable
    cases usable
  cases st <;> simp [chooseStage, none]

end Sys2Proof.Machine

/-! # Proofs: the expiry of a retry window (R92, R94, R95) -/

namespace Sys2Proof.Machine

variable {n : Nat} {s t : State} {r : Delivery} {key : RecordKey}

/-- A task that sets nothing off, alone in a run. -/
theorem run_one {x : Task} (e : perform x s = (t, [])) : run (n + 1) [x] s = t := by
  rw [run_cons, e, List.append_nil, run_nil]

/-- An event of one task. -/
theorem finish_task (agenda : s.agenda = []) (x : Task) :
    finish (s, [x]) = closeEvent (run (Config.workLimit - 1) (perform x s).2 (perform x s).1) := by
  have limit : Config.workLimit = Config.workLimit - 1 + 1 := rfl
  rw [finish, agenda, List.nil_append, agenda_nil s agenda, limit, run_cons, List.append_nil]
  rfl

/-- The retry window of a record has expired. -/
def retryOver (r : Delivery) (s : State) : State := modDelivery r.serial (fun x => { x with retry := .stopped }) s

section
variable (handed : deliveryOf s key = some r) (due : r.retry.due s.tickCount = true)
include handed due

theorem retryExpiry_runs (agenda : s.agenda = []) : exec (.retryWindowExpiry key) s
    = .next (closeEvent (run (Config.workLimit - 1) (expireRetry key s).2 (expireRetry key s).1)) :=
  congrArg Host.Outcome.next ((if_pos (by rw [handed]; exact due)).trans (finish_task agenda (.expireRetry key)))

theorem expireRetry_due : expireRetry key s = offerAgain r.serial (retryOver r s) := by
  unfold expireRetry
  rw [handed]
  exact if_pos due

end

theorem delivery?_retryOver (h : delivery? s r.serial = some r) :
    delivery? (retryOver r s) r.serial = some { r with retry := .stopped } :=
  delivery?_modDelivery_same (fun _ => rfl) h

theorem ok_retryOver (ok : s.dispatcher.ok) (r : Delivery) : (retryOver r s).dispatcher.ok :=
  mapRecords_ok ok _ fun x => by split <;> exact ⟨rfl, rfl⟩

/-- A change of one record leaves the others. -/
theorem others_modDelivery (n : Nat) {f : Delivery → Delivery} (keeps : ∀ r, (f r).serial = r.serial) (s : State) :
    (modDelivery n f s).dispatcher.records.filter (fun x => x.serial != n) = s.dispatcher.records.filter fun x => x.serial != n := by
  show (s.dispatcher.records.map _).filter _ = _
  induction s.dispatcher.records with
  | nil => rfl
  | cons x records ih =>
    rw [List.map_cons]
    by_cases own : x.serial = n
    · rw [if_pos own, List.filter_cons_of_neg (by simp [keeps, own]), List.filter_cons_of_neg (by simp [own]), ih]
    · rw [if_neg own, List.filter_cons_of_pos (by simp [own]), List.filter_cons_of_pos (by simp [own]), ih]

/-- The event of an ARRIVAL CHECK that ends unreached is closed at once: its call is told nothing (R92). -/
theorem closeEvent_endUnreached (check : r.key.kind = .arrivalCheck) (engine : s.engine ≠ .stopping) :
    closeEvent (run (Config.workLimit - 1) (endUnreached r s).2 (endUnreached r s).1) = recomputeLamps (endUnreached r s).1 := by
  have limit : Config.workLimit - 1 = Config.workLimit - 2 + 1 := rfl
  rw [show (endUnreached r s).2 = [.unreached r.key] from rfl, limit,
    run_one (x := .unreached r.key) (reportUnreached_nothing (.inr check)),
    closeEvent_eq _ (by rw [(mail_endUnreached (.refl s) r).engine]; exact engine)]

/-- Settles O24: the record of an ARRIVAL CHECK without a route by `beginStage_unreached`, and every other by `offerAgain`. -/
theorem retryExpiryOffersTheRecordAgain : Obligations.RetryExpiryOffersTheRecordAgain := by
  refine ⟨fun s key r agenda engine ok handed due copies used check nowhere => ?_, fun s key r agenda engine ok handed due => ?_⟩
  · have here := delivery?_retryOver (delivery?_of_deliveryOf ok handed)
    have own : r.key = key := by simpa using List.find?_some handed
    have unpaused : (retryOver r s).engine ≠ .paused := fun pauses => by cases engine.symm.trans pauses
    have ends : expireRetry key s = endUnreached { r with retry := .stopped } (stageBegun r.serial (.plant, []) (retryOver r s)) := by
      rw [expireRetry_due handed due]
      refine (offerAgain_begins (r := { r with retry := .stopped }) here unpaused (.inr copies)).trans ?_
      exact beginStage_unreached here unpaused (chooseStage_nowhere nowhere _ _) used
    refine ⟨_, by rw [retryExpiry_runs handed due agenda, ends, closeEvent_endUnreached (own ▸ check)
      (fun stops => by cases engine.symm.trans stops)], ?_, ?_⟩
    · refine (dispatcher_endUnreached _ _).trans (congrArg (fun l => { s.dispatcher with records := l }) ?_)
      refine (others_modDelivery r.serial ?_ (retryOver r s)).trans (others_modDelivery r.serial ?_ s) <;> exact fun _ => rfl
    · have mail := mail_endUnreached (.refl (stageBegun r.serial (.plant, []) (retryOver r s))) { r with retry := .stopped }
      exact ⟨mail.calls, mail.attention, mail.roster⟩
  · intro u v
    refine ⟨retryExpiry_runs handed due agenda, ?_⟩
    rw [show v = _ from expireRetry_due handed due]
    exact offerAgain_isOfferedAgain (s := u) (r := { r with retry := .stopped }) (ok_retryOver ok r)
      (delivery?_retryOver (delivery?_of_deliveryOf ok handed)) fun pauses => by cases engine.symm.trans pauses

end Sys2Proof.Machine

/-! # Proofs: which transmitters a stage goes to (R87) -/

namespace Sys2Proof.Machine

variable {m z i : Nat} {s t : State} {a : LineId × Nat} {st : Stage}

/-- The order of R87's search is that of the drop mirror. -/
theorem allAddresses_eq : allAddresses = (List.range 32).map mirrorDrop := by decide

/-- A usable transmitter stands at an address (R87). -/
def Usable (s : State) (a : LineId × Nat) : Prop := ∃ d, drop? s a.1 a.2 = some d ∧ d.kind = .transmitter ∧ d.state = .ready

/-- The drop at a place of R87's search is a transmitter of the zone. -/
def IsOfZone (s : State) (z i : Nat) : Prop :=
  ∃ d, drop? s (mirrorDrop i).1 (mirrorDrop i).2 = some d ∧ d.kind = .transmitter ∧ d.zone = z

/-- The first transmitter of the zone stands at an address, and is usable (R87). -/
def Serves (s : State) (z : Nat) (a : LineId × Nat) : Prop :=
  z ≠ 0 ∧ Usable s a ∧ ∃ i, i < 32 ∧ mirrorDrop i = a ∧ IsOfZone s z i ∧ ∀ j, j < i → ¬IsOfZone s z j

/-- The member has been heard lately, in a zone other than the home zone whose first transmitter stands at an address (R71, R87). -/
def HeardAt (s : State) (m : Nat) (a : LineId × Nat) : Prop :=
  ∃ z, (member s m).lastZone = some z ∧ z ≠ homeZone s.roster.tables m ∧ Serves s z a
    ∧ (s.tickCount - (member s m).lastTick).toNat ≤ s.roster.settings.locationAge

theorem any_transmitter_iff (s : State) (z i : Nat) :
    ((drop? s (mirrorDrop i).1 (mirrorDrop i).2).any fun d => d.isTransmitter && d.zone == z) = true ↔ IsOfZone s z i := by
  unfold IsOfZone Drop.isTransmitter
  cases drop? s (mirrorDrop i).1 (mirrorDrop i).2 <;> simp

theorem zoneTransmitter_iff : zoneTransmitter s z = some a
    ↔ z ≠ 0 ∧ ∃ i, i < 32 ∧ mirrorDrop i = a ∧ IsOfZone s z i ∧ ∀ j, j < i → ¬IsOfZone s z j := by
  unfold zoneTransmitter
  by_cases zero : z = 0
  · simp [zero]
  · rw [if_neg zero, allAddresses_eq, List.find?_eq_some_iff_getElem]
    simp only [any_transmitter_iff, List.getElem_map, List.getElem_range, List.length_map, List.length_range, Bool.not_eq_true',
      ← Bool.not_eq_true]
    constructor
    · rintro ⟨own, i, low, rfl, first⟩
      exact ⟨zero, i, low, rfl, (any_transmitter_iff s z i).1 own, first⟩
    · rintro ⟨-, i, low, rfl, own, first⟩
      exact ⟨(any_transmitter_iff s z i).2 own, i, low, rfl, first⟩

theorem usableTransmitter_iff : usableTransmitter s z = some a ↔ Serves s z a := by
  rw [usableTransmitter, Option.filter_eq_some_iff, zoneTransmitter_iff, usableAt_iff, Serves]
  exact ⟨fun ⟨⟨zone, first⟩, usable⟩ => ⟨zone, usable, first⟩, fun ⟨zone, usable, first⟩ => ⟨⟨zone, first⟩, usable⟩⟩

theorem freshZone_iff : freshZone s m = some z
    ↔ (member s m).lastZone = some z ∧ (s.tickCount - (member s m).lastTick).toNat ≤ s.roster.settings.locationAge := by
  unfold freshZone ticksSince
  dsimp only
  split
  · rename_i fresh
    exact (and_iff_left fresh).symm
  · rename_i old
    exact iff_of_false (by simp) fun h => old h.2

/-- The transmitters of LAST-HEARD and of HOME are one at most. -/
theorem stageTransmitters_lastHeard (h : HeardAt s m a) : stageTransmitters s m .lastHeard = [a] := by
  obtain ⟨z, heard, away, serves, fresh⟩ := h
  simp only [stageTransmitters, freshZone_iff.2 ⟨heard, fresh⟩]
  rw [if_neg away, usableTransmitter_iff.2 serves]
  rfl

theorem stageTransmitters_lastHeard_none (h : ∀ b, ¬HeardAt s m b) : stageTransmitters s m .lastHeard = [] := by
  simp only [stageTransmitters]
  split
  · rfl
  · rename_i z fresh
    obtain ⟨heard, fresh⟩ := freshZone_iff.1 fresh
    split
    · rfl
    · rename_i away
      refine Option.toList_eq_nil_iff.2 (Option.eq_none_iff_forall_ne_some.2 fun b serves => ?_)
      exact h b ⟨z, heard, away, usableTransmitter_iff.1 serves, fresh⟩

theorem stageTransmitters_home (h : Serves s (homeZone s.roster.tables m) a) : stageTransmitters s m .home = [a] := by
  rw [stageTransmitters, usableTransmitter_iff.2 h]
  rfl

theorem stageTransmitters_home_none (h : ∀ b, ¬Serves s (homeZone s.roster.tables m) b) : stageTransmitters s m .home = [] :=
  Option.toList_eq_nil_iff.2 (Option.eq_none_iff_forall_ne_some.2 fun b serves => h b (usableTransmitter_iff.1 serves))

theorem chooseStage_lastHeard (h : HeardAt s m a) : chooseStage s m .lastHeard = (.lastHeard, [a]) := by
  simp only [chooseStage, stageTransmitters_lastHeard h]

theorem chooseStage_home (skips : st = .lastHeard → ∀ b, ¬HeardAt s m b) (early : st ≠ .plant)
    (h : Serves s (homeZone s.roster.tables m) a) : chooseStage s m st = (.home, [a]) := by
  cases st with
  | lastHeard => simp only [chooseStage, stageTransmitters_lastHeard_none (skips rfl), stageTransmitters_home h]
  | home => simp only [chooseStage, stageTransmitters_home h]
  | plant => exact absurd rfl early

theorem chooseStage_plant (skips : st = .lastHeard → ∀ b, ¬HeardAt s m b)
    (homeless : st ≠ .plant → ∀ b, ¬Serves s (homeZone s.roster.tables m) b) :
    chooseStage s m st = (.plant, allAddresses.filter (usableAt s)) := by
  cases st with
  | lastHeard =>
    simp only [chooseStage, stageTransmitters_lastHeard_none (skips rfl), stageTransmitters_home_none (homeless (by decide))]
    rfl
  | home =>
    simp only [chooseStage, stageTransmitters_home_none (homeless (by decide))]
    rfl
  | plant => rfl

/-- PLANT goes to every usable transmitter in the order of the search. -/
theorem plantTransmitters_eq {targets : List (LineId × Nat)} (order : targets.Sublist ((List.range 32).map mirrorDrop))
    (all : ∀ a, a ∈ targets ↔ Usable s a) : allAddresses.filter (usableAt s) = targets :=
  (eq_filter_of_sublist (allAddresses_eq ▸ order) (by decide) fun a _ => (all a).trans (usableAt_iff s a).symm).symm

theorem plantTransmitters_none (none : ∀ a, ¬Usable s a) : allAddresses.filter (usableAt s) = [] :=
  List.filter_eq_nil_iff.2 fun a _ usable => none a ((usableAt_iff s a).1 usable)

end Sys2Proof.Machine

/-! # Proofs: the expiry of a receipt window (R92, R95, R101), and the report of an unreached record (R32, R34 to R36, R92) -/

namespace Sys2Proof.Machine

variable {c m n : Nat} {s t u : State} {r : Delivery} {key : RecordKey} {st : Stage} {e : Contact}

/-! ## The report to the call (R92) -/

/-- The member's entry in the call of a record is marked unreached. -/
def unreachedMarked (key : RecordKey) (s : State) : State :=
  modContext (tagContext key.tag) (Context.modContact key.member fun e => { e with unreached := true }) s

theorem contact_unreachedMarked (contact : (context s (tagContext key.tag)).contact key.member = some e) :
    (context (unreachedMarked key s) (tagContext key.tag)).contact key.member = some { e with unreached := true } :=
  contact_change (fun e => { e with unreached := true }) (fun _ => rfl) contact

/-- The unreached mark leaves everything else of the call, and its current marks. -/
theorem context_unreachedMarked (contact : (context s (tagContext key.tag)).contact key.member = some e) :
    context (unreachedMarked key s) (tagContext key.tag)
      = (context s (tagContext key.tag)).modContact key.member fun e => { e with unreached := true } :=
  context_modContext_same _ (lt_of_contact contact)

theorem isCurrent_unreachedMarked (contact : (context s (tagContext key.tag)).contact key.member = some e) (m : Nat) :
    (context (unreachedMarked key s) (tagContext key.tag)).isCurrent m = (context s (tagContext key.tag)).isCurrent m := by
  rw [context_unreachedMarked contact]
  simp only [Context.isCurrent, Context.modContact, List.any_map]
  refine congrArg (List.any _) (funext fun x => ?_)
  simp only [Function.comp_apply]
  split <;> rfl

theorem reportUnreached_told (live : tagLive s key.tag = true) (kind : key.kind ≠ .arrivalCheck)
    (contact : (context s (tagContext key.tag)).contact key.member = some e) : reportUnreached key s
      = if (context s (tagContext key.tag)).isCurrent key.member then
          (loseMark (tagContext key.tag) key.member (unreachedMarked key s), [.lostMark (tagContext key.tag) key.member])
        else (unreachedMarked key s, []) := by
  rw [← isCurrent_unreachedMarked contact]
  unfold reportUnreached
  exact if_neg (by simp [live, kind])

theorem journal_loseMark (c m : Nat) (s : State) : (loseMark c m s).journal = s.journal := by
  rw [loseMark_eq]
  split
  · obtain ⟨keep, records, -, -, e⟩ := withdraws_withdrawPages (context s c).tag m
      (lowerPaged m (modContext c (Context.modContact m Contact.unmarked) s))
    rw [e]
    rfl
  · rfl

theorem paged_loseMark (current : (context s c).isCurrent m = true) :
    (member (loseMark c m s) m).paged = (member s m).paged - 1 := by
  rw [loseMark_eq, if_pos current, (mail_withdrawPages (.refl _) _ _).member, (lowerPaged_member m m _).2, if_pos rfl]
  rfl

theorem contact_loseMark (current : (context s c).isCurrent m = true) (contact : (context s c).contact m = some e) :
    (context (loseMark c m s) c).contact m = some e.unmarked := by
  have own : e.member = m := by simpa using List.find?_some contact
  rw [context_loseMark, if_pos ⟨rfl, current⟩, contact_modContact (f := Contact.unmarked) _ m m fun _ => rfl, contact, Option.map_some,
    if_pos own]

/-- An unreached record's member, who was current, has the unreached mark, and has lost the current one (R92). -/
structure LosesUnreached (key : RecordKey) (e : Contact) (s t : State) : Prop where
  contact : (context t (tagContext key.tag)).contact key.member = some { e with unreached := true, current := false, remind := .stopped }
  current : ∀ m, (context t (tagContext key.tag)).isCurrent m
    = if m = key.member then false else (context s (tagContext key.tag)).isCurrent m
  mode : (context t (tagContext key.tag)).mode = (context s (tagContext key.tag)).mode
  state : (context t (tagContext key.tag)).state = (context s (tagContext key.tag)).state
  others : ∀ d, d ≠ tagContext key.tag → context t d = context s d
  paged : (member t key.member).paged = (member s key.member).paged - 1
  attention : t.attention = s.attention
  journal : t.journal = s.journal
  engine : t.engine = s.engine
  records : s.dispatcher.ok → (context s (tagContext key.tag)).tag = key.tag →
    ∀ kind ∈ [DeliveryKind.page, .remind], deliveryOf t { key with kind := kind } = none

theorem losesUnreached (contact : (context s (tagContext key.tag)).contact key.member = some e)
    (current : (context s (tagContext key.tag)).isCurrent key.member = true) :
    LosesUnreached key e s (loseMark (tagContext key.tag) key.member (unreachedMarked key s)) := by
  have still := (isCurrent_unreachedMarked contact key.member).trans current
  have marked := context_unreachedMarked contact
  have lost := context_loseMark (tagContext key.tag) key.member (tagContext key.tag) (unreachedMarked key s)
  rw [if_pos ⟨rfl, still⟩, marked] at lost
  exact
    { contact := contact_loseMark still (contact_unreachedMarked contact)
      current := fun m => by rw [isCurrent_loseMark, isCurrent_unreachedMarked contact]
      mode := by rw [lost]; rfl
      state := by rw [lost]; rfl
      others := fun d other => by
        rw [context_loseMark, if_neg fun h => other h.1]
        exact context_modContext_ne other _ s
      paged := paged_loseMark still
      attention := (callWork_loseMark (P := fun _ => False) key.member (unreachedMarked key s)).attention
      journal := journal_loseMark _ _ _
      engine := (callWork_loseMark (P := fun _ => False) (c := tagContext key.tag) key.member (unreachedMarked key s)).engine
      records := fun ok tag kind is => by
        have gone := keysOf_loseMark (s := unreachedMarked key s) ok still is
        rw [marked, show Context.tag (Context.modContact _ _ _) = key.tag from tag, ← deliveryOf_isSome_iff] at gone
        simpa using gone }

/-- The test after the loss of a mark (R34 to R36). -/
theorem lostMark_eq (c m : Nat) (s : State) : lostMark c m s = (s,
    let k := context s c
    if k.state = .paging ∧ k.isCurrent m = false then
      match k.mode with
      | .rotate => if k.turnMember = some m then [.endTurn c] else []
      | .all => if k.currentMembers = [] then [.endRung c] else []
      | .member => if k.currentMembers = [] then [.endRung c] else []
      | .beacon => []
      | .none => []
    else []) := by
  unfold lostMark
  dsimp only
  by_cases tested : (context s c).state = .paging ∧ (context s c).isCurrent m = false
  · rw [if_neg (by simp [tested]), if_pos tested]
    cases (context s c).mode <;> simp only [List.isEmpty_iff] <;> split <;> rfl
  · rw [if_pos (by simpa only [not_and_or, Bool.not_eq_false] using tested), if_neg tested]

/-- The rung goes on while another member is current in it (R35). -/
theorem lostMark_goes_on {x : Nat} (all : (context s c).mode = .all) (another : (context s c).isCurrent x = true) :
    lostMark c m s = (s, []) := by
  have more : (context s c).currentMembers ≠ [] := List.ne_nil_of_mem ((mem_currentMembers _ x).2 another)
  rw [lostMark_eq]
  dsimp only
  rw [all]
  dsimp only
  rw [if_neg more, ite_self]

/-! ## The event (R92) -/

/-- The receipt window of a record has expired, and its queued copies are withdrawn. -/
def receiptOver (r : Delivery) (s : State) : State :=
  removeQueued r.serial (modDelivery r.serial (fun x => { x with receipt := .stopped }) s)

section
variable (handed : deliveryOf s key = some r) (due : r.receipt.due s.tickCount = true)
include handed due

theorem receiptExpiry_runs (agenda : s.agenda = []) : exec (.receiptWindowExpiry key) s
    = .next (closeEvent (run (Config.workLimit - 1) (expireReceipt key s).2 (expireReceipt key s).1)) :=
  congrArg Host.Outcome.next ((if_pos (by rw [handed]; exact due)).trans (finish_task agenda (.expireReceipt key)))

theorem expireReceipt_due : expireReceipt key s = match r.stage with
      | .lastHeard => beginStage r.serial .home (receiptOver r s)
      | .home => beginStage r.serial .plant (receiptOver r s)
      | .plant => endUnreached r (receiptOver r s) := by
  unfold expireReceipt
  rw [handed]
  refine (if_pos due).trans ?_
  unfold receiptExpired receiptOver
  cases r.stage <;> rfl

end

theorem mail_receiptOver (r : Delivery) (s : State) : Mail s (receiptOver r s) := mail_removeQueued (mail_modDelivery (.refl s) _ _) _

theorem delivery?_receiptOver (h : delivery? s r.serial = some r) :
    delivery? (receiptOver r s) r.serial = some { r with receipt := .stopped } :=
  delivery?_modDelivery_same (fun _ => rfl) h

/-- No air queue of a line holds a copy of a record. -/
def QueuesWithout (n : Nat) (s : State) : Prop := ∀ d ∈ s.line0.drops ++ s.line1.drops, ∀ e ∈ d.queue, e.isCopyOf n = false

theorem queuesWithout_removeQueued (n : Nat) (s : State) : QueuesWithout n (removeQueued n s) := by
  intro d hd e he
  rw [show (removeQueued n s).line0.drops ++ (removeQueued n s).line1.drops
    = (s.line0.drops ++ s.line1.drops).map fun d => { d with queue := d.queue.filter fun e => !e.isCopyOf n } from
      List.map_append.symm] at hd
  obtain ⟨x, -, rfl⟩ := List.mem_map.1 hd
  simpa using (List.mem_filter.1 he).2

theorem QueuesWithout.modDelivery (h : QueuesWithout n s) (k : Nat) (f : Delivery → Delivery) : QueuesWithout n (modDelivery k f s) := h

theorem QueuesWithout.recomputeLamps (h : QueuesWithout n s) : QueuesWithout n (recomputeLamps s) := by
  intro d hd
  rw [show (Machine.recomputeLamps s).line0.drops ++ (Machine.recomputeLamps s).line1.drops
    = (s.line0.drops ++ s.line1.drops).map (Drop.relit s) from List.map_append.symm] at hd
  obtain ⟨x, hx, rfl⟩ := List.mem_map.1 hd
  exact h x hx

theorem deliveryOf_of_delivery? (ok : s.dispatcher.ok) (h : delivery? s n = some r) : deliveryOf s r.key = some r := by
  have mem := List.mem_of_find?_eq_some h
  cases is : deliveryOf s r.key with
  | none => exact absurd (List.find?_eq_none.1 is r mem) (by simp)
  | some x => exact congrArg some (List.inj_on_of_nodup_map ok.1 (List.mem_of_find?_eq_some is) mem (by simpa using List.find?_some is))

/-- A record that finds no transmitter at its next stage waits one retry window, and its event is closed at once (R92, R95). -/
theorem receiptExpiry_waits (agenda : s.agenda = []) (engine : s.engine = .running) (ok : s.dispatcher.ok)
    (handed : deliveryOf s key = some r) (due : r.receipt.due s.tickCount = true) (home : r.stage = .home) (unused : r.noRouteUsed = false)
    (nowhere : ∀ a, usableAt s a = false) : ∃ t : State, exec (.receiptWindowExpiry key) s = .next t
      ∧ deliveryOf t key = some { r with
          stage := .plant, isPending := false, copies := [], receipt := .stopped, noRouteUsed := true
          retry := .running (s.tickCount + BitVec.ofNat 32 s.roster.settings.receiptWindow) }
      ∧ QueuesWithout r.serial t
      ∧ t.calls = s.calls ∧ t.attention = s.attention ∧ t.roster = s.roster ∧ t.journal = s.journal := by
  have here := delivery?_receiptOver (delivery?_of_deliveryOf ok handed)
  have unpaused : (receiptOver r s).engine ≠ .paused := fun pauses => by cases engine.symm.trans pauses
  have chosen : chooseStage (receiptOver r s) r.key.member .plant = (.plant, []) :=
    chooseStage_nowhere (fun a => by rw [(mail_receiptOver r s).usableAt, nowhere]) _ _
  let v := modDelivery r.serial (Delivery.retried (retryWindow (receiptOver r s))) (stageBegun r.serial (.plant, []) (receiptOver r s))
  have waits : expireReceipt key s = (v, []) := by
    rw [expireReceipt_due handed due, home]
    exact beginStage_waits here unpaused chosen unused
  have okAfter : v.dispatcher.ok := by
    have kept := (quiet_expireReceipt (.refl s) key).records ok
    rwa [waits] at kept
  have exits : exec (.receiptWindowExpiry key) s = .next (recomputeLamps v) := by
    rw [receiptExpiry_runs handed due agenda, waits, run_nil, closeEvent_eq v fun stops => by cases engine.symm.trans stops]
  have clean : QueuesWithout r.serial (receiptOver r s) := queuesWithout_removeQueued r.serial _
  have journal : v.journal = (receiptOver r s).journal := rfl
  have mail : Mail s v := mail_modDelivery (mail_modDelivery (mail_receiptOver r s) _ _) _ _
  refine ⟨_, exits, ?_, ((clean.modDelivery _ _).modDelivery _ _).recomputeLamps, mail.calls, mail.attention, mail.roster, journal⟩
  have after := deliveryOf_of_delivery? okAfter (delivery?_modDelivery_same (f := Delivery.retried _) (fun _ => rfl)
    (delivery?_stageBegun here (.plant, [])))
  rw [retryWindow, startWindow, if_neg unpaused] at after
  have own : r.key = key := by simpa using List.find?_some handed
  exact own ▸ after

/-- At PLANT the record ends unreached, and its queued copies are withdrawn (R92). -/
theorem receiptExpiry_plant (handed : deliveryOf s key = some r) (due : r.receipt.due s.tickCount = true) (plant : r.stage = .plant) :
    expireReceipt key s = endUnreached r (receiptOver r s) := by
  rw [expireReceipt_due handed due, plant]

theorem queuesWithout_endUnreached (r : Delivery) (s : State) : QueuesWithout r.serial (endUnreached r s).1 :=
  queuesWithout_removeQueued r.serial _

/-- An ARRIVAL CHECK that ends unreached is discarded, and nothing follows (R92). -/
theorem receiptExpiry_unreached_check (agenda : s.agenda = []) (engine : s.engine = .running) (handed : deliveryOf s key = some r)
    (due : r.receipt.due s.tickCount = true) (plant : r.stage = .plant) (check : key.kind = .arrivalCheck) :
    ∃ t : State, exec (.receiptWindowExpiry key) s = .next t
      ∧ t.dispatcher = { s.dispatcher with records := s.dispatcher.records.filter fun x => x.serial != r.serial }
      ∧ QueuesWithout r.serial t ∧ t.calls = s.calls ∧ t.attention = s.attention ∧ t.roster = s.roster := by
  have own : r.key = key := by simpa using List.find?_some handed
  have mail := mail_endUnreached (mail_receiptOver r s) r
  have exits : exec (.receiptWindowExpiry key) s = .next (recomputeLamps (endUnreached r (receiptOver r s)).1) := by
    rw [receiptExpiry_runs handed due agenda, receiptExpiry_plant handed due plant, closeEvent_endUnreached (own ▸ check)
      (by rw [(mail_receiptOver r s).engine, engine]; decide)]
  refine ⟨_, exits, ?_, (queuesWithout_endUnreached r _).recomputeLamps, mail.calls, mail.attention, mail.roster⟩
  refine (dispatcher_endUnreached r (receiptOver r s)).trans (congrArg (fun l => { s.dispatcher with records := l }) ?_)
  exact others_modDelivery r.serial (f := fun x => { x with receipt := .stopped }) (fun _ => rfl) s

/-- A PAGE or a REMIND that ends unreached takes the current mark of its member, and the rung goes on where it pages another (R35, R92). -/
theorem receiptExpiry_unreached_page (agenda : s.agenda = []) (engine : s.engine = .running) (ok : s.dispatcher.ok)
    (handed : deliveryOf s key = some r) (due : r.receipt.due s.tickCount = true) (plant : r.stage = .plant)
    (kind : key.kind ≠ .arrivalCheck) (live : tagLive s key.tag = true) (tag : (context s (tagContext key.tag)).tag = key.tag)
    (contact : (context s (tagContext key.tag)).contact key.member = some e) (current : e.current = true)
    (all : (context s (tagContext key.tag)).mode = .all) {x : Nat} (other : x ≠ key.member)
    (another : (context s (tagContext key.tag)).isCurrent x = true) :
    ∃ t : State, exec (.receiptWindowExpiry key) s = .next (recomputeLamps t) ∧ ∃ u, Mail s u ∧ LosesUnreached key e u t
      ∧ deliveryOf t key = none := by
  have own : r.key = key := by simpa using List.find?_some handed
  let u := (endUnreached r (receiptOver r s)).1
  have mail : Mail s u := mail_endUnreached (mail_receiptOver r s) r
  have contactU : (context u (tagContext key.tag)).contact key.member = some e := by rw [mail.context, contact]
  have currentU : (context u (tagContext key.tag)).isCurrent key.member = true :=
    List.any_eq_true.2 ⟨e, List.mem_of_find?_eq_some contactU, by simpa [current] using List.find?_some contactU⟩
  have okU : u.dispatcher.ok := by
    have kept := (quiet_expireReceipt (.refl s) key).records ok
    rwa [receiptExpiry_plant handed due plant] at kept
  have loses := losesUnreached contactU currentU
  let t := loseMark (tagContext key.tag) key.member (unreachedMarked key u)
  have told : perform (.unreached key) u = (t, [.lostMark (tagContext key.tag) key.member]) :=
    (reportUnreached_told (by rw [mail.tagLive, live]) kind contactU).trans (if_pos currentU)
  have goesOn : perform (.lostMark (tagContext key.tag) key.member) t = (t, []) :=
    lostMark_goes_on (by rw [loses.mode, mail.context, all]) (by rw [loses.current, if_neg other, mail.context, another])
  have limit : Config.workLimit - 1 = Config.workLimit - 3 + 1 + 1 := rfl
  refine ⟨t, ?_, u, mail, loses, ?_⟩
  · rw [receiptExpiry_runs handed due agenda, receiptExpiry_plant handed due plant,
      show (endUnreached r (receiptOver r s)).2 = [.unreached r.key] from rfl, own, limit, run_cons, told, List.append_nil,
      run_one goesOn, closeEvent_eq t (by rw [loses.engine, mail.engine, engine]; decide)]
  · refine loses.records okU (by rw [mail.context, tag]) key.kind ?_
    cases is : key.kind with
    | page => decide
    | remind => decide
    | arrivalCheck => exact absurd is kind

/-! ## The statement -/

theorem delivery?_becomePending (h : delivery? s n = some r) (st : Stage) : delivery? (becomePending n st s) n
    = some { r with stage := st, isPending := true, pendingOrder := s.dispatcher.pendingCount, copies := [] } :=
  delivery?_modDelivery_same (s := s.modDispatcher fun d => { d with pendingCount := d.pendingCount + 1 }) (fun _ => rfl) h

/-- UNREACHED of a live call's record is submitted (R92). -/
theorem pending_endUnreached (r : Delivery) (live : tagLive s r.key.tag = true) (room : hasRoom s 1) :
    (endUnreached r s).1.journal.pending = s.journal.pending ++ [{ callRecord .unreached (context s (r.key.tag % 128)) with
      tick := s.tickCount, tag := some r.key.tag, member := some r.key.member
      detail1 := (deliveryMessageKind r.key.kind).code }] := by
  refine (submit_pending room _).trans ?_
  rw [tagRecord, if_pos live]
  rfl

/-- Settles O22: the event stage by stage, the beginning of a stage by `chooseStage` and `beginStage_enqueues`, and the report of a record
that ends unreached by `losesUnreached`. -/
theorem receiptExpiryMovesTheRecordOn : Obligations.ReceiptExpiryMovesTheRecordOn := by
  refine ⟨fun s key r agenda engine ok handed due => ⟨fun home unused nowhere => ?_, fun plant check => ?_,
      fun e plant kind live tag contact current all ⟨x, other, another⟩ => ?_⟩,
    fun s key r agenda ok handed due => ?_, fun s n st r h clean => ?_, fun s r => ?_, fun s key ok => ?_⟩
  · exact receiptExpiry_waits agenda engine ok handed due home unused nowhere
  · exact receiptExpiry_unreached_check agenda engine handed due plant check
  · obtain ⟨t, exits, u, mail, loses, gone⟩ :=
      receiptExpiry_unreached_page agenda engine ok handed due plant kind live tag contact current all other another
    exact ⟨_, exits, loses.contact, loses.state.trans (by rw [mail.context]; rfl), loses.paged.trans (by rw [mail.member]), gone,
      fun d other => (loses.others d other).trans (mail.context d), loses.attention.trans mail.attention⟩
  · intro withdrawn u v
    rw [receiptExpiry_runs handed due agenda, expireReceipt_due handed due]
    rfl
  · intro m v place usable isOf serves home heardAt begins
    have clean : NotQueued n s := notQueued_of_drops clean
    refine ⟨fun pauses => ?_, fun engine => ⟨fun a last heard => ?_, fun a skips early serves => ?_, fun skips homeless =>
      ⟨fun targets some order all => ?_, fun none => ⟨fun unused => ?_, fun used => ?_⟩⟩⟩⟩
    · rw [show v = _ from beginStage_paused h pauses]
      exact ⟨rfl, rfl, delivery?_becomePending h st⟩
    · exact beginStage_enqueues h engine (by rw [last]; exact chooseStage_lastHeard heard) (List.cons_ne_nil _ _) clean
    · exact beginStage_enqueues h engine (chooseStage_home skips early serves) (List.cons_ne_nil _ _) clean
    · exact beginStage_enqueues h engine ((chooseStage_plant skips homeless).trans (by rw [plantTransmitters_eq order all])) some clean
    · have chosen := (chooseStage_plant skips homeless).trans (by rw [plantTransmitters_none none])
      rw [show v = _ from beginStage_waits h engine chosen unused]
      exact ⟨rfl, rfl, delivery?_modDelivery_same (f := Delivery.retried _) (fun _ => rfl) (delivery?_stageBegun h _)⟩
    · have chosen := (chooseStage_plant skips homeless).trans (by rw [plantTransmitters_none none])
      have mail := mail_endUnreached (.refl (stageBegun n (.plant, []) s)) r
      rw [show v = _ from beginStage_unreached h engine chosen used]
      refine ⟨rfl, ?_, mail.calls, mail.attention⟩
      obtain rfl := serial_of_delivery? h
      exact delivery?_withdraw r.serial _
  · have mail := mail_endUnreached (.refl s) r
    exact ⟨rfl, dispatcher_endUnreached r s, mail.calls, mail.roster, mail.attention,
      fun live writing clear room => pending_endUnreached r live ⟨writing, clear, room⟩⟩
  · refine ⟨reportUnreached_nothing, fun e live tag kind contact => ?_, fun m => lostMark_eq _ m s⟩
    have told := reportUnreached_told live kind contact
    by_cases current : (context s (key.tag % 128)).isCurrent key.member = true
    · have loses := losesUnreached contact current
      rw [show perform (.unreached key) s = _ from told.trans (if_pos current)]
      exact ⟨loses.others, loses.attention, loses.journal,
        fun _ => ⟨rfl, loses.contact, loses.paged, loses.records ok tag⟩, fun not => absurd (current.symm.trans not) (by decide)⟩
    · rw [show perform (.unreached key) s = _ from told.trans (if_neg current)]
      exact ⟨fun d other => context_modContext_ne other _ s, rfl, rfl, fun is => absurd is current,
        fun _ => ⟨rfl, rfl, rfl, contact_unreachedMarked contact⟩⟩

end Sys2Proof.Machine

/-! # Proofs: an enqueue (R82, R84, R85, R94) -/

namespace Sys2Proof.Machine

variable {n : Nat} {s t u : State} {r : Delivery} {e x : AirEntry} {q : List AirEntry} {a : LineId × Nat} {m : Message} {k : Carriage}

/-! ## The queue (R84, R85) -/

/-- In a queue in order an entry is placed after every entry of its urgency or a higher one. -/
theorem placeEntry_eq (e : AirEntry) (sorted : q.Pairwise fun a b => b.urgency ≤ a.urgency) :
    placeEntry e q = q.filter (fun x => e.urgency ≤ x.urgency) ++ e :: q.filter (fun x => x.urgency < e.urgency) := by
  induction q with
  | nil => rfl
  | cons x q ih =>
    obtain ⟨first, rest⟩ := List.pairwise_cons.1 sorted
    unfold placeEntry
    by_cases lower : x.urgency < e.urgency
    · have all : ∀ y ∈ x :: q, y.urgency < e.urgency := fun y hy => by
        rcases List.mem_cons.1 hy with rfl | hy
        · exact lower
        · exact lt_of_le_of_lt (first y hy) lower
      rw [if_pos lower, List.filter_eq_nil_iff.2 fun y hy => by simpa using all y hy,
        List.filter_eq_self.2 fun y hy => by simpa using all y hy]
      rfl
    · rw [if_neg lower, ih rest, List.filter_cons_of_pos (by simpa using lower), List.filter_cons_of_neg (by simpa using lower)]
      rfl

/-- The queue has no entry of the same message exactly where nothing is replaced (R85). -/
theorem filter_sameMessage_eq_self : (q.filter fun x => !e.sameMessage x) = q ↔ q.any e.sameMessage = false := by
  rw [List.filter_eq_self, List.any_eq_false]
  simp

theorem settleEntry_replaces (same : (q.filter fun x => !e.sameMessage x) ≠ q) : settleEntry e q
    = { queue := placeEntry e (q.filter fun x => !e.sameMessage x), placed := true, displaced := none } :=
  if_pos (by simpa only [Bool.not_eq_false] using mt filter_sameMessage_eq_self.2 same)

theorem settleEntry_fits (new : (q.filter fun x => !e.sameMessage x) = q) (room : q.length < 16) : settleEntry e q
    = { queue := placeEntry e q, placed := true, displaced := none } :=
  (if_neg (by simp [filter_sameMessage_eq_self.1 new])).trans (if_pos room)

theorem settleEntry_full {before : List AirEntry} {lowest : AirEntry} (new : (q.filter fun x => !e.sameMessage x) = q)
    (full : q.length = 16) (split : q = before ++ [lowest]) : settleEntry e q
      = if lowest.urgency < e.urgency then { queue := placeEntry e before, placed := true, displaced := some lowest }
        else { queue := q, placed := false, displaced := none } := by
  unfold settleEntry
  rw [if_neg (by simp [filter_sameMessage_eq_self.1 new]), if_neg (by rw [full]; decide), split, List.getLast?_concat]
  simp

/-- The three cases keep the queue's order and its bound (R84). -/
theorem settleEntry_bounds (e : AirEntry) (sorted : q.Pairwise fun a b => b.urgency ≤ a.urgency) (few : q.length ≤ 16) :
    ((settleEntry e q).queue.Pairwise fun a b => b.urgency ≤ a.urgency) ∧ (settleEntry e q).queue.length ≤ 16 := by
  by_cases new : (q.filter fun x => !e.sameMessage x) = q
  · by_cases room : q.length < 16
    · rw [settleEntry_fits new room]
      exact ⟨placeEntry_sorted e sorted, by simpa using room⟩
    · have full : q.length = 16 := le_antisymm few (not_lt.1 room)
      obtain ⟨before, lowest, split⟩ := (List.eq_nil_or_concat' q).resolve_left fun nil => by simp [nil] at full
      rw [settleEntry_full new full split]
      split
      · refine ⟨placeEntry_sorted e (sorted.sublist (split ▸ List.sublist_append_left before _)), ?_⟩
        rw [split, List.length_append, List.length_singleton] at full
        rw [length_placeEntry, full]
      · exact ⟨sorted, few⟩
  · rw [settleEntry_replaces new]
    refine ⟨placeEntry_sorted e (sorted.sublist List.filter_sublist), ?_⟩
    have fewer : (q.filter fun x => !e.sameMessage x).length < q.length :=
      lt_of_le_of_ne (List.length_filter_le _ _) fun same => new (List.filter_sublist.eq_of_length same)
    rw [length_placeEntry]
    omega

/-! ## The enqueue in its parts (R85, R94) -/

/-- A placed copy of a delivery record is QUEUED in its record (R94). -/
def copyQueued (k : Carriage) (a : LineId × Nat) (s : State) : State :=
  match k with
  | .control _ _ _ => s
  | .delivery n _ => modDelivery n (Delivery.queueCopy a.1 a.2) s

/-- What an enqueue leaves but for the entry that the queue does not hold: the queue, and where the entry was placed the order count and
its copy (R84, R85). -/
def entrySettled (k : Carriage) (a : LineId × Nat) (p : Placement) (s : State) : State :=
  if p.placed then copyQueued k a ((queueSettled a p s).modDispatcher fun d => { d with order := d.order + 1 }) else queueSettled a p s

/-- The entry that the queue does not hold after an enqueue, with why: the new one where it was not placed, or else the one displaced. -/
def leftOut (e : AirEntry) (p : Placement) : Option (AirEntry × DropMessageCause) :=
  if p.placed then p.displaced.map (·, .displaced) else some (e, .full)

theorem leftOut_iff {e : AirEntry} {p : Placement} {c : DropMessageCause} : leftOut e p = some (x, c)
    ↔ (p.placed = false ∧ x = e ∧ c = .full) ∨ (p.placed = true ∧ p.displaced = some x ∧ c = .displaced) := by
  unfold leftOut
  cases p.placed <;> simp [eq_comm]

theorem leftOut_none {p : Placement} (placed : p.placed = true) (fits : p.displaced = none) : leftOut e p = none := by
  rw [leftOut, if_pos placed, fits]
  rfl

theorem enqueue_eq (m : Message) (k : Carriage) (a : LineId × Nat) (s : State) : enqueue m k a.1 a.2 s =
    (let p := placement s m k a.1 a.2
    match leftOut (entryOf s m k) p with
    | none => entrySettled k a p s
    | some (x, c) => notHeld x c a.1 a.2 (entrySettled k a p s)) := by
  have displaces : (placement s m k a.1 a.2).displaced.isSome = true → (placement s m k a.1 a.2).placed = true := fun some => by
    obtain ⟨x, is⟩ := Option.isSome_iff_exists.1 some
    exact settleEntry_displaced is
  unfold enqueue
  extract_lets e p drawn settled counted queued held q
  change p.displaced.isSome = true → p.placed = true at displaces
  change _ = match leftOut e p with
    | none => entrySettled k a p s
    | some (x, c) => notHeld x c a.1 a.2 (entrySettled k a p s)
  unfold held queued counted leftOut entrySettled copyQueued
  cases placed : p.placed with
  | true => cases k <;> cases p.displaced <;> rfl
  | false =>
    have none : p.displaced = none := by simpa [placed] using displaces
    rw [none]
    cases k <;> rfl

section
variable (k : Carriage) (a : LineId × Nat) (p : Placement) (s : State)

theorem mail_entrySettled : Mail s (entrySettled k a p s) := by
  have queue : Mail s (queueSettled a p s) := mail_modDrop (mail_draws (.refl s) _) _ _ _ fun _ => rfl
  unfold entrySettled
  split
  · have counted := mail_modDispatcher queue fun d => { d with order := d.order + 1 }
    cases k with
    | control => exact counted
    | delivery n st => exact mail_modDelivery counted n _
  · exact queue

theorem journal_entrySettled : (entrySettled k a p s).journal = s.journal := by
  have queue : (queueSettled a p s).journal = s.journal := modDrop_journal ..
  unfold entrySettled
  split
  · cases k <;> exact queue
  · exact queue

theorem order_entrySettled : (entrySettled k a p s).dispatcher.order = s.dispatcher.order + if p.placed then 1 else 0 := by
  have queue : (queueSettled a p s).dispatcher = s.dispatcher := modDrop_dispatcher ..
  unfold entrySettled
  split
  · cases k <;> exact congrArg (·.order + 1) queue
  · exact (congrArg Dispatcher.order queue).trans (BitVec.add_zero _).symm

end

theorem delivery?_entrySettled_other {p : Placement} (other : p.placed = true → ∀ st, k ≠ .delivery n st) :
    delivery? (entrySettled k a p s) n = delivery? s n := by
  have queue : delivery? (queueSettled a p s) n = delivery? s n := delivery?_congr (congrArg Dispatcher.records (modDrop_dispatcher ..))
  unfold entrySettled
  split
  · rename_i placed
    cases k with
    | control => exact queue
    | delivery i st =>
      have ne : i ≠ n := fun own => other placed st (by rw [own])
      exact (delivery?_modDelivery_ne (f := Delivery.queueCopy a.1 a.2) (fun _ => rfl) ne _).trans queue
  · exact queue

theorem delivery?_entrySettled_own {p : Placement} {st : Stage} (h : delivery? s n = some r) (placed : p.placed = true) :
    delivery? (entrySettled (.delivery n st) a p s) n = some (r.queueCopy a.1 a.2) := by
  have queue : delivery? (queueSettled a p s) n = some r :=
    (delivery?_congr (congrArg Dispatcher.records (modDrop_dispatcher ..))).trans h
  rw [entrySettled, if_pos placed]
  exact delivery?_modDelivery_same (s := (queueSettled a p s).modDispatcher fun d => { d with order := d.order + 1 }) (fun _ => rfl) queue

/-! ## The entry that the queue does not hold (R85, R94) -/

theorem notHeld_delivery {st : Stage} (is : x.carriage = .delivery n st) (c : DropMessageCause) (l : LineId) (i : Nat) (s : State) :
    notHeld x c l i s = deferCopy l i n s := by
  unfold notHeld
  rw [is]

theorem notHeld_control {pos : RoutePosition} {route : Option FixedRoute} {w : Option Nat} (is : x.carriage = .control pos route w)
    (c : DropMessageCause) (l : LineId) (i : Nat) (s : State) : notHeld x c l i s = messageDropped x.message c (some (l, i)) s := by
  unfold notHeld
  rw [is]

theorem order_notHeld (x : AirEntry) (c : DropMessageCause) (l : LineId) (i : Nat) (s : State) :
    (notHeld x c l i s).dispatcher.order = s.dispatcher.order := by
  unfold notHeld
  split
  · rename_i n _ _
    obtain ⟨f, -, e⟩ := deferCopy_eq l i n s
    rw [e]
    rfl
  · exact congrArg Dispatcher.order (submit_dispatcher _ s)

theorem journal_deferCopy (l : LineId) (i n : Nat) (s : State) : (deferCopy l i n s).journal = s.journal := by
  obtain ⟨f, -, e⟩ := deferCopy_eq l i n s
  rw [e]
  rfl

/-- MESSAGE DROPPED of a queue's control message (R85, R169). -/
theorem pending_messageDropped (room : hasRoom s 1) (m : Message) (c : DropMessageCause) (l : LineId) (i : Nat) :
    (messageDropped m c (some (l, i)) s).journal.pending = s.journal.pending ++
      [{ (if tagLive s m.tag then callRecord .messageDropped (context s (m.tag % 128)) else blankRecord .messageDropped) with
        tick := s.tickCount, tag := some m.tag, member := some m.member, line := some l, drop := i
        detail1 := m.kind.code, detail2 := c.code }] := by
  refine (submit_pending room _).trans ?_
  unfold tagRecord
  split <;> rfl

theorem isCopyOf_eq_false (x : AirEntry) (n : Nat) : x.isCopyOf n = false ↔ ∀ st, x.carriage ≠ .delivery n st := by
  unfold AirEntry.isCopyOf
  cases is : x.carriage with
  | control => simp
  | delivery k st => simp

/-- A copy waits already for a window that runs, or as a REMIND for the remind interval of its member (R56, R94). -/
theorem waits_iff (s : State) (r : Delivery) : (r.receipt.isRunning || r.retry.active || r.awaitsRemind s) = true
    ↔ r.receipt.isRunning = true ∨ r.retry.active = true ∨ r.key.kind = .remind ∧ tagLive s r.key.tag = true
      ∧ ∃ c, (context s (r.key.tag % 128)).contact r.key.member = some c ∧ c.remind.isRunning = true := by
  simp only [Bool.or_eq_true, Delivery.awaitsRemind, remindRunning, Bool.and_eq_true, beq_iff_eq, Option.any_eq_true, or_assoc]
  rfl

/-- The record of a copy that is DEFERRED. -/
theorem delivery?_deferred (h : delivery? s n = some r) (l : LineId) (i : Nat) :
    ((r.receipt.isRunning || r.retry.active || r.awaitsRemind s) = true →
      delivery? (deferCopy l i n s) n = some (r.setCopy l i .deferred))
    ∧ (¬(r.receipt.isRunning || r.retry.active || r.awaitsRemind s) = true →
      delivery? (deferCopy l i n s) n = some { r.setCopy l i .deferred with retry := retryWindow s }) := by
  have deferred := delivery?_deferCopy_same h (l, i)
  refine ⟨fun waits => deferred.trans ?_, fun idle => deferred.trans ?_⟩
  · exact congrArg some ((if_neg (by decide)).trans (if_pos waits))
  · exact congrArg some ((if_neg (by decide)).trans (if_neg idle))

/-! ## The enqueue as a whole (R85, R94) -/

section
variable {p : Placement} {c : DropMessageCause} {st : Stage} (is : placement s m k a.1 a.2 = p)
include is

theorem enqueue_holds (left : leftOut (entryOf s m k) p = none) : enqueue m k a.1 a.2 s = entrySettled k a p s := by
  rw [enqueue_eq, is]
  dsimp only
  rw [left]

theorem enqueue_leaves_out (left : leftOut (entryOf s m k) p = some (x, c)) :
    enqueue m k a.1 a.2 s = notHeld x c a.1 a.2 (entrySettled k a p s) := by
  rw [enqueue_eq, is]
  dsimp only
  rw [left]

theorem order_enqueue : (enqueue m k a.1 a.2 s).dispatcher.order = s.dispatcher.order + if p.placed then 1 else 0 := by
  cases left : leftOut (entryOf s m k) p with
  | none => rw [enqueue_holds is left, order_entrySettled]
  | some y => rw [enqueue_leaves_out is left, order_notHeld, order_entrySettled]

/-- A record whose copy is placed, and not displaced with it, has it QUEUED (R94). -/
theorem delivery?_enqueue_placed (carries : k = .delivery n st) (h : delivery? s n = some r) (placed : p.placed = true)
    (others : ∀ x, p.displaced = some x → x.isCopyOf n = false) : delivery? (enqueue m k a.1 a.2 s) n = some (r.queueCopy a.1 a.2) := by
  subst carries
  have queued := delivery?_entrySettled_own (a := a) (st := st) h placed
  cases left : leftOut (entryOf s m (.delivery n st)) p with
  | none => rw [enqueue_holds is left, queued]
  | some y =>
    obtain ⟨no, -⟩ | ⟨-, displaced, -⟩ := leftOut_iff.1 left
    · exact absurd (placed.symm.trans no) (by decide)
    · rw [enqueue_leaves_out is left, delivery?_notHeld (others y.1 displaced), queued]

/-- A copy that is left out is DEFERRED in its record, without a journal record (R94). -/
theorem enqueue_defers (left : leftOut (entryOf s m k) p = some (x, c)) (carries : x.carriage = .delivery n st)
    (h : delivery? s n = some r) (other : p.placed = true → ∀ st, k ≠ .delivery n st) :
    (enqueue m k a.1 a.2 s).journal = s.journal
    ∧ ((r.receipt.isRunning || r.retry.active || r.awaitsRemind s) = true →
      delivery? (enqueue m k a.1 a.2 s) n = some (r.setCopy a.1 a.2 .deferred))
    ∧ (¬(r.receipt.isRunning || r.retry.active || r.awaitsRemind s) = true →
      delivery? (enqueue m k a.1 a.2 s) n = some { r.setCopy a.1 a.2 .deferred with retry := retryWindow s }) := by
  have mail := mail_entrySettled k a p s
  have deferred := delivery?_deferred ((delivery?_entrySettled_other (a := a) other).trans h) a.1 a.2
  rw [awaitsRemind_of_mail mail, retryWindow_of_mail mail] at deferred
  rw [enqueue_leaves_out is left, notHeld_delivery carries]
  exact ⟨(journal_deferCopy ..).trans (journal_entrySettled ..), deferred⟩

/-- A control message that is left out is dropped with its record, and no delivery record is concerned (R85). -/
theorem enqueue_drops (left : leftOut (entryOf s m k) p = some (x, c)) {pos : RoutePosition} {route : Option FixedRoute} {w : Option Nat}
    (control : x.carriage = .control pos route w) :
    (hasRoom s 1 → (enqueue m k a.1 a.2 s).journal.pending = s.journal.pending ++
      [{ (if tagLive s x.message.tag then callRecord .messageDropped (context s (x.message.tag % 128))
          else blankRecord .messageDropped) with
        tick := s.tickCount, tag := some x.message.tag, member := some x.message.member, line := some a.1, drop := a.2
        detail1 := x.message.kind.code, detail2 := c.code }])
    ∧ ∀ n, (∀ st, k ≠ .delivery n st) → delivery? (enqueue m k a.1 a.2 s) n = delivery? s n := by
  have mail := mail_entrySettled k a p s
  have journal : (entrySettled k a p s).journal = s.journal := journal_entrySettled ..
  rw [enqueue_leaves_out is left]
  refine ⟨fun ⟨writing, clear, room⟩ => ?_, fun n other => ?_⟩
  · rw [notHeld_control control, pending_messageDropped ⟨by rw [journal, writing], by rw [mail.area, clear], by rw [journal]; omega⟩,
      mail.tagLive, mail.context, mail.tickCount, journal]
  · rw [delivery?_notHeld ((isCopyOf_eq_false x n).2 fun st own => by cases control.symm.trans own)]
    exact delivery?_entrySettled_other fun _ => other

end

/-- Settles O51: the three cases of the queue, and then what the entry that it does not hold comes to (`leftOut`). -/
theorem enqueueSettlesByTheThreeCases : Obligations.EnqueueSettlesByTheThreeCases := by
  refine ⟨fun e q sorted few => ?_, fun s m k l i d found => ?_⟩
  · intro p rest place
    obtain ⟨order, bound⟩ := settleEntry_bounds e sorted few
    have sublist {l : List AirEntry} (sub : l.Sublist q) : placeEntry e l = place l := placeEntry_eq e (sorted.sublist sub)
    refine ⟨order, bound, fun same => ?_, fun new room => ?_, fun before lowest new full split => ⟨fun lower => ?_, fun not => ?_⟩⟩
    · rw [← sublist List.filter_sublist]
      exact settleEntry_replaces same
    · rw [← sublist (List.Sublist.refl q)]
      exact settleEntry_fits new room
    · rw [← sublist (split ▸ List.sublist_append_left before _)]
      exact (settleEntry_full new full split).trans (if_pos lower)
    · exact (settleEntry_full new full split).trans (if_neg (not_lt.2 not))
  · intro e p t isLeftOut marked waits isOwn
    have near : i ≠ 0 := by
      rintro rfl
      simp [drop?] at found
    have is : placement s m k (l, i).1 (l, i).2 = p := by rw [placement, queueOf_of_drop found]; rfl
    have mail : Mail s t := mail_enqueue (.refl s) m k l i
    have out {x : AirEntry} {cause : Nat} (h : isLeftOut x cause) :
        ∃ c : DropMessageCause, c.code = cause ∧ leftOut e p = some (x, c) := by
      rcases h with ⟨no, rfl, rfl⟩ | ⟨displaced, rfl⟩
      · exact ⟨.full, rfl, leftOut_iff.2 (.inl ⟨no, rfl, rfl⟩)⟩
      · exact ⟨.displaced, rfl, leftOut_iff.2 (.inr ⟨settleEntry_displaced displaced, displaced, rfl⟩)⟩
    refine ⟨?_, fun o b other => ?_, order_enqueue is, mail.calls, mail.roster, mail.attention, mail.area, mail.latches, mail.engine,
      mail.tickCount, fun n st r placed carries here others => ?_, fun x cause n st r h carries here notOwn => ?_,
      fun x cause pos route w h control => ?_, fun placed fits => ?_⟩
    · rw [show drop? t l i = _ from drop?_enqueue_same m k (l, i) s, found]
      rfl
    · exact drop?_enqueue_ne (a := (l, i)) (b := (o, b)) other near m k s
    · exact delivery?_enqueue_placed is carries here placed fun x displaced =>
        (isCopyOf_eq_false x n).2 fun st' => others x st' displaced
    · obtain ⟨c, -, left⟩ := out h
      have defers := enqueue_defers is left carries here fun placed st own => notOwn ⟨placed, st, own⟩
      rwa [waits_iff] at defers
    · obtain ⟨c, rfl, left⟩ := out h
      obtain ⟨dropped, others⟩ := enqueue_drops is left control
      exact ⟨fun writing clear room => dropped ⟨writing, clear, room⟩, others⟩
    · rw [show t = _ from enqueue_holds is (leftOut_none placed fits)]
      exact journal_entrySettled ..

end Sys2Proof.Machine

/-! # Proofs: the sending of several control messages, and a member's current marks lost in several calls (R32, R67, R99)

A CANCEL or CONFIRM that is queued, or dropped with its record, stays so while others are sent (`Sends`). What the loss of one member's
marks leaves of everything but the contexts (`Loses`), and the losses of several contexts, one after another (`MarkStep`). -/

namespace Sys2Proof.Machine

variable {n k m c : Nat} {s t u : State}

/-! ## Control messages, one after another -/

/-- A control message to a member, under the effective pager address, is held or dropped. -/
def isTold (t : State) (tables : Tables) (kind : MessageKind) (tag m : Nat) : Prop :=
  isHeldOrDropped t kind tag m (effectivePager tables m)

/-- From `s` to `t` at most `n` records were submitted, and given room for them every control message that was told its member under the
effective pager address is told still. -/
structure Sends (n : Nat) (s t : State) : Prop where
  logs : Logs n s t
  tables : t.roster.tables = s.roster.tables
  kept : hasRoom s n → ∀ kind tag m, isTold s s.roster.tables kind tag m → isTold t s.roster.tables kind tag m

theorem Sends.trans (h : Sends n s t) (g : Sends k t u) : Sends (n + k) s u where
  logs := h.logs.trans g.logs
  tables := g.tables.trans h.tables
  kept room kind tag m told := by
    have first := h.kept ⟨room.1, room.2.1, by have := room.2.2; omega⟩ kind tag m told
    have second := g.kept (h.logs.hasRoom room) kind tag m
    rw [h.tables] at second
    exact second first

theorem Sends.mono (h : Sends n s t) (few : n ≤ k) : Sends k s t where
  logs := h.logs.mono few
  tables := h.tables
  kept room := h.kept ⟨room.1, room.2.1, by have := room.2.2; omega⟩

theorem sends_of_keeps (logs : Logs n s t) (tables : t.roster.tables = s.roster.tables) (keeps : KeepsControl s t) : Sends n s t :=
  ⟨logs, tables, fun _ _ _ _ told => isHeldOrDropped_of_keeps keeps told⟩

theorem sends_of_same (l0 : t.line0 = s.line0) (l1 : t.line1 = s.line1) (journal : t.journal = s.journal)
    (fault : t.area.memoryFault = s.area.memoryFault) (tables : t.roster.tables = s.roster.tables) : Sends 0 s t :=
  sends_of_keeps (.of_same journal fault) tables (keepsControl_of_same l0 l1 fun _ h => by rw [journal]; exact h)

theorem sends_submit (r : JournalRecord) (s : State) : Sends 1 s (submit r s) :=
  sends_of_keeps (logs_submit r s) (by rw [submit_shape]) (keepsControl_submit r s)

/-- A control message under its member's effective pager address is told, and so are those before it. -/
theorem sends_sendControl (msg : Message) (own : msg.pager = effectivePager s.roster.tables msg.member) (u : Option Nat) :
    Sends 1 s (sendControl msg none u s) where
  logs := logs_sendControl msg none u s
  tables := by rw [(mail_sendControl (.refl s) msg none u).roster]
  kept room _ _ _ told := isHeldOrDropped_after_sendControl room msg none u (fun _ _ same => by rw [own, same]) told

theorem isTold_sendControl (room : hasRoom s 1) (msg : Message) (own : msg.pager = effectivePager s.roster.tables msg.member)
    (u : Option Nat) : isTold (sendControl msg none u s) s.roster.tables msg.kind msg.tag msg.member := by
  unfold isTold
  rw [← own]
  exact isHeldOrDropped_sendControl room msg none u

theorem isQueuedOrDropped_of_told {tables : Tables} {kind : MessageKind} {tag : Nat} (h : isTold t tables kind tag m) :
    isQueuedOrDropped t kind tag m (effectivePager tables m) := by
  rcases h with ⟨l, a, d, y, hd, hy, -, rest⟩ | dropped
  · exact .inl ⟨l, a, d, y, hd, hy, rest⟩
  · exact .inr dropped

theorem sends_foldl {α : Type} {f : State → α → State} (sends : ∀ s x, Sends 1 s (f s x)) (l : List α) (s : State) :
    Sends l.length s (l.foldl f s) := by
  induction l generalizing s with
  | nil => exact sends_of_same rfl rfl rfl rfl rfl
  | cons x l ih =>
    rw [List.length_cons, Nat.add_comm]
    exact (sends s x).trans (ih (f s x))

/-! ## The CANCELs of one call (R99, R108) -/

/-- The entry of a member whom the call sends a CANCEL is marked. -/
def Contact.told (e : Contact) : Contact := { e with cancelled := true }

theorem cancelMember_eq (c m : Nat) (s : State) :
    cancelMember c m s = sendCancel (context s c).tag m (modContext c (Context.modContact m Contact.told) s) := rfl

theorem context_modContact (c m d : Nat) (f : Contact → Contact) (s : State) :
    context (modContext c (Context.modContact m f) s) d = if d = c then (context s c).modContact m f else context s d := by
  by_cases same : d = c
  · subst same
    rw [if_pos rfl, context_modContext]
    split
    · rfl
    · rename_i out
      rw [show context s d = .empty from List.getD_eq_default _ _ (not_lt.1 out)]
      rfl
  · rw [if_neg same, context_modContext_ne same]

theorem context_cancelMember (c m d : Nat) (s : State) :
    context (cancelMember c m s) d = if d = c then (context s c).modContact m Contact.told else context s d := by
  rw [cancelMember_eq, (mail_sendCancel (.refl _) _ _).context, context_modContact]

/-- A CANCEL is work on its call alone. -/
theorem callWork_cancelMember (c m : Nat) (s : State) : CallWork (fun _ => True) 1 c s (cancelMember c m s) := by
  let noted := modContext c (Context.modContact m Contact.told) s
  have note : CallWork (fun _ => True) 0 c s noted := callWork_modContext (Context.modContact m Contact.told) (fun _ => rfl)
    (fun k x => (alike_modContact m Contact.told (fun _ => ⟨rfl, rfl⟩) k).current x) s
  have send : CallWork (fun _ => True) 1 c noted (cancelMember c m s) :=
    callWork_mail (mail_sendCancel (.refl noted) _ m) (fun _ h => (keysOf_sendControl _ none _ noted) ▸ h)
      (logs_sendControl _ none _ noted) ((queuesFrom_sendControl _ none _ noted).mono fun _ _ => trivial)
  exact (note.trans send).mono (fun _ h => h) (by omega)

theorem area_cancelMember (c m : Nat) (s : State) : (cancelMember c m s).area = s.area := by
  rw [cancelMember_eq, (mail_sendCancel (.refl _) _ _).area]
  rfl

theorem roster_cancelMember (c m : Nat) (s : State) : (cancelMember c m s).roster = s.roster := by
  rw [cancelMember_eq, (mail_sendCancel (.refl _) _ _).roster]
  rfl

theorem keysOf_cancelMember (c m : Nat) (s : State) : keysOf (cancelMember c m s) = keysOf s := keysOf_sendControl _ none _ _

theorem sends_cancelMember (c m : Nat) (s : State) : Sends 1 s (cancelMember c m s) := by
  let noted := modContext c (Context.modContact m Contact.told) s
  have note : Sends 0 s noted := sends_of_same rfl rfl rfl rfl rfl
  have send : Sends 1 noted (cancelMember c m s) := sends_sendControl (s := noted)
    (controlMessage .cancel (context s c).tag m (effectivePager noted.roster.tables m) 0 none) rfl none
  exact (note.trans send).mono (by omega)

theorem isTold_cancelMember (room : hasRoom s 1) (c m : Nat) :
    isTold (cancelMember c m s) s.roster.tables .cancel (context s c).tag m :=
  isTold_sendControl (s := modContext c (Context.modContact m Contact.told) s) room _ rfl _

/-! ## The current marks of one member -/

/-- From `s` to `t` a member lost `n` current marks, with a CANCEL for each (R32, R66, R67); beside the contexts, the records of pages
that are withdrawn, the air queues and the journal nothing else has changed. -/
structure Loses (n m : Nat) (s t : State) : Prop where
  engine : t.engine = s.engine
  tickCount : t.tickCount = s.tickCount
  attention : t.attention = s.attention
  latches : t.latches = s.latches
  area : t.area = s.area
  backlog : t.calls.backlog = s.calls.backlog
  roster : t.roster = { s.roster with members := t.roster.members }
  others : ∀ j, j ≠ m → member t j = member s j
  engaged : (member t m).engaged = (member s m).engaged
  paged : (member t m).paged = (member s m).paged - n
  keys : keysOf t ⊆ keysOf s
  sends : Sends n s t

theorem Loses.trans (h : Loses n m s t) (g : Loses k m t u) : Loses (n + k) m s u where
  engine := g.engine.trans h.engine
  tickCount := g.tickCount.trans h.tickCount
  attention := g.attention.trans h.attention
  latches := g.latches.trans h.latches
  area := g.area.trans h.area
  backlog := g.backlog.trans h.backlog
  roster := by rw [g.roster, h.roster]
  others j ne := (g.others j ne).trans (h.others j ne)
  engaged := g.engaged.trans h.engaged
  paged := by rw [g.paged, h.paged, Nat.sub_sub]
  keys := fun _ mem => h.keys (g.keys mem)
  sends := h.sends.trans g.sends

theorem loses_of_contexts (calls : t = { s with calls := t.calls }) (backlog : t.calls.backlog = s.calls.backlog) (m : Nat) :
    Loses 0 m s t := by
  generalize t.calls = w at *
  subst calls
  exact ⟨rfl, rfl, rfl, rfl, rfl, backlog, rfl, fun _ _ => rfl, rfl, rfl, fun _ h => h, sends_of_same rfl rfl rfl rfl rfl⟩

theorem loses_modContext (c m : Nat) (f : Context → Context) (s : State) : Loses 0 m s (modContext c f s) :=
  loses_of_contexts (t := modContext c f s) rfl rfl m

/-- The other members' records stay as one member's paged count is lowered. -/
theorem member_loseMark_ne {j : Nat} (other : j ≠ m) (c : Nat) (s : State) : member (loseMark c m s) j = member s j := by
  rw [loseMark_eq]
  split
  · rw [(mail_withdrawPages (.refl _) _ _).member]
    exact member_modMember_ne other _ _
  · rfl

theorem keepsControl_loseMark (c m : Nat) (s : State) : KeepsControl s (loseMark c m s) := by
  rw [loseMark_eq]
  split
  · exact KeepsControl.trans (b := lowerPaged m (modContext c (Context.modContact m Contact.unmarked) s))
      (keepsControl_of_same rfl rfl fun _ m => m) (withdraws_withdrawPages _ _ _).keepsControl
  · exact .refl s

theorem sends_loseMark (c m : Nat) (s : State) : Sends 0 s (loseMark c m s) := by
  have work : CallWork (fun _ => False) 0 c s (loseMark c m s) := callWork_loseMark m s
  exact sends_of_keeps work.logs work.tables (keepsControl_loseMark c m s)

/-- A current mark that is lost, and the CANCEL for it. -/
theorem loses_cancel (own : (context s c).isCurrent m = true) (f : Context → Context) :
    Loses 1 m s (cancelMember c m (modContext c f (loseMark c m s))) := by
  have lost : CallWork (fun _ => False) 0 c s (loseMark c m s) := callWork_loseMark m s
  have changed := loses_modContext c m f (loseMark c m s)
  generalize modContext c f (loseMark c m s) = v at *
  have sent := callWork_cancelMember c m v
  have roster := (roster_cancelMember c m v)
  have same (j : Nat) : member (cancelMember c m v) j = member v j := by unfold member; rw [roster]
  have still : (member v m).engaged = (member (loseMark c m s) m).engaged := changed.engaged
  exact
    { engine := sent.engine.trans (changed.engine.trans lost.engine)
      tickCount := sent.tickCount.trans (changed.tickCount.trans lost.tickCount)
      attention := sent.attention.trans (changed.attention.trans lost.attention)
      latches := sent.latches.trans (changed.latches.trans lost.latches)
      area := (area_cancelMember c m v).trans (changed.area.trans (area_loseMark c m s))
      backlog := sent.backlog.trans (changed.backlog.trans lost.backlog)
      roster := by rw [sent.roster, changed.roster, lost.roster]
      others := fun j other => (same j).trans ((changed.others j other).trans (member_loseMark_ne other c s))
      engaged := (congrArg Member.engaged (same m)).trans (still.trans (lost.engaged m))
      paged := (congrArg Member.paged (same m)).trans (changed.paged.trans (paged_loseMark own))
      keys := fun _ mem => lost.keys (changed.keys (sent.keys mem))
      sends := (((sends_loseMark c m s).trans changed.sends).trans (sends_cancelMember c m v)).mono (by omega) }

/-- How often a call's loss of a member's mark counts. -/
def Context.marksOf (m : Nat) (k : Context) : Nat := if k.isCurrent m then 1 else 0

/-- A step that takes a member's current mark, in each context for which `p` holds: it changes the context by `f`, and sends a CANCEL for a
mark that was lost. -/
structure MarkStep (m : Nat) (f : Context → Context) (p : Context → Prop) (step : State → Nat → State) : Prop where
  changes : ∀ s c, p (context s c) → ∀ d, context (step s c) d = if d = c then f (context s c) else context s d
  loses : ∀ s c, p (context s c) → Loses ((context s c).marksOf m) m s (step s c)
  tells : ∀ s c, (context s c).isCurrent m = true → hasRoom s 1 → isTold (step s c) s.roster.tables .cancel (context s c).tag m

section
variable {f : Context → Context} {p : Context → Prop} {step : State → Nat → State}

theorem MarkStep.context_foldl (h : MarkStep m f p step) {l : List Nat} (nodup : l.Nodup) (may : ∀ c ∈ l, p (context s c)) (d : Nat) :
    context (l.foldl step s) d = if d ∈ l then f (context s d) else context s d := by
  induction l generalizing s with
  | nil => simp
  | cons c l ih =>
    obtain ⟨new, nodup⟩ := List.nodup_cons.1 nodup
    have one := h.changes s c (may c List.mem_cons_self)
    have kept (x : Nat) (hx : x ∈ l) : context (step s c) x = context s x :=
      (one x).trans (if_neg (by rintro rfl; exact new hx))
    rw [List.foldl_cons, ih nodup fun x hx => by rw [kept x hx]; exact may x (List.mem_cons_of_mem c hx), one]
    by_cases same : d = c
    · subst same
      simp [new]
    · simp [same]

theorem MarkStep.loses_foldl (h : MarkStep m f p step) {l : List Nat} (nodup : l.Nodup) (may : ∀ c ∈ l, p (context s c)) :
    Loses (l.countP fun c => (context s c).isCurrent m) m s (l.foldl step s)
    ∧ (hasRoom s (l.countP fun c => (context s c).isCurrent m) → ∀ c ∈ l, (context s c).isCurrent m = true →
      isTold (l.foldl step s) s.roster.tables .cancel (context s c).tag m) := by
  induction l generalizing s with
  | nil => exact ⟨loses_of_contexts rfl rfl m, fun _ c hc => absurd hc List.not_mem_nil⟩
  | cons c l ih =>
    obtain ⟨new, nodup⟩ := List.nodup_cons.1 nodup
    have one := h.changes s c (may c List.mem_cons_self)
    have lost := h.loses s c (may c List.mem_cons_self)
    have kept (x : Nat) (hx : x ∈ l) : context (step s c) x = context s x :=
      (one x).trans (if_neg (by rintro rfl; exact new hx))
    obtain ⟨rest, told⟩ := ih (s := step s c) nodup fun x hx => by rw [kept x hx]; exact may x (List.mem_cons_of_mem c hx)
    have count : (l.countP fun x => (context (step s c) x).isCurrent m)
        = l.countP fun x => (context s x).isCurrent m := List.countP_congr fun x hx => by rw [kept x hx]
    have all : ((c :: l).countP fun x => (context s x).isCurrent m)
        = (context s c).marksOf m + l.countP fun x => (context s x).isCurrent m := by
      rw [List.countP_cons, Nat.add_comm]
      rfl
    rw [count] at rest told
    rw [all, List.foldl_cons]
    refine ⟨lost.trans rest, fun room x hx own => ?_⟩
    have left := lost.sends.logs.hasRoom room
    rw [lost.sends.tables] at told
    rcases List.mem_cons.1 hx with rfl | hx
    · have here : hasRoom s 1 := by
        have := room.2.2
        rw [Context.marksOf, if_pos own] at this
        exact ⟨room.1, room.2.1, by omega⟩
      have later := rest.sends.kept left .cancel (context s x).tag m
      rw [lost.sends.tables] at later
      exact later (h.tells s x own here)
    · have := told left x hx
      rw [kept x hx] at this
      exact this own

end

end Sys2Proof.Machine

/-! # Proofs: the decision on an ACCEPT (R107), its answers, and the break-in marks that end (R32) -/

namespace Sys2Proof.Machine

variable {n k m c : Nat} {s t u : State}

/-! ## The rows of R107 -/

/-- The call of a context is ACCEPTED or ON SITE. -/
def Context.settled (k : Context) : Prop := k.state = .accepted ∨ k.state = .onSite

theorem breakInTest_iff (s : State) (c m : Nat) : breakInTest s c m = true ↔ (context s c).severity = 1
    ∧ s.roster.settings.breakIn = true ∧ ∃ e, (context s c).contact m = some e ∧ e.breakIn = true := by
  simp [breakInTest, Option.any_eq_true, and_assoc]

/-- The decision on an ACCEPT of a settled call. -/
theorem decideAccept_settled (is : (context s c).settled) (m : Nat) : decideAccept s c m =
    if (context s c).accepter = some m then .repeated else if (context s c).accepter = none then .refused .onSite else .refused .taken := by
  unfold decideAccept
  have is' : (context s c).state = .accepted ∨ (context s c).state = .onSite := is
  cases accepter : (context s c).accepter with
  | none => simp [is', accepter]
  | some a => simp [is', accepter]

/-- The decision on an ACCEPT of a call that is not settled. -/
theorem decideAccept_open (is : ¬(context s c).settled) (m : Nat) : decideAccept s c m =
    if onDuty s.roster.tables m = false then .refused .offDuty
    else if (member s m).engaged ≠ none ∧ ¬breakInTest s c m = true then .refused .busy else .taken := by
  have is' : ¬((context s c).state = .accepted ∨ (context s c).state = .onSite) := is
  unfold decideAccept
  simp [is', Option.isSome_iff_ne_none]

/-- What each outcome says of the call and the member: the first row that applies. -/
theorem decideAccept_iff (s : State) (c m : Nat) :
    let k := context s c
    (decideAccept s c m = .repeated ↔ k.settled ∧ k.accepter = some m)
    ∧ (decideAccept s c m = .refused .taken ↔ k.settled ∧ ∃ a, k.accepter = some a ∧ a ≠ m)
    ∧ (decideAccept s c m = .refused .onSite ↔ k.settled ∧ k.accepter = none)
    ∧ (decideAccept s c m = .refused .offDuty ↔ ¬k.settled ∧ onDuty s.roster.tables m = false)
    ∧ (decideAccept s c m = .refused .busy ↔ ¬k.settled ∧ onDuty s.roster.tables m = true ∧ (member s m).engaged ≠ none
      ∧ ¬breakInTest s c m = true)
    ∧ (decideAccept s c m = .taken ↔ ¬k.settled ∧ onDuty s.roster.tables m = true
      ∧ ((member s m).engaged = none ∨ breakInTest s c m = true)) := by
  intro k
  by_cases settled : k.settled
  · rw [decideAccept_settled settled]
    simp only [settled, not_true_eq_false, false_and, true_and]
    cases accepter : k.accepter with
    | none => simp
    | some a => by_cases same : a = m <;> simp [same]
  · rw [decideAccept_open settled]
    simp only [settled, not_false_eq_true, false_and, true_and]
    cases onDuty s.roster.tables m with
    | false => simp
    | true =>
      by_cases free : (member s m).engaged = none
      · simp [free]
      · cases breakInTest s c m <;> simp [free]

/-- A change of the member's entry that leaves its break-in mark leaves the decision. -/
theorem decideAccept_modContact {f : Contact → Contact} (keeps : ∀ e, (f e).member = e.member ∧ (f e).breakIn = e.breakIn) :
    decideAccept (modContext c (Context.modContact m f) s) c m = decideAccept s c m := by
  have here := context_modContact c m c f s
  rw [if_pos rfl] at here
  have mark : ((context (modContext c (Context.modContact m f) s) c).contact m).any (·.breakIn)
      = ((context s c).contact m).any (·.breakIn) := by
    rw [here, contact_modContact _ m m fun e => (keeps e).1]
    cases (context s c).contact m with
    | none => rfl
    | some e =>
      show (if e.member = m then f e else e).breakIn = e.breakIn
      split
      · exact (keeps e).2
      · rfl
  unfold decideAccept breakInTest
  rw [mark, here]
  rfl

/-! ## The answers (R110, R111) -/

theorem answerAccept_repeated (is : decideAccept s c m = .repeated) : answerAccept c m s = (sendConfirm (context s c) m s, []) := by
  unfold answerAccept
  rw [is]

theorem answerAccept_refused {cause : StandCause} (is : decideAccept s c m = .refused cause) :
    answerAccept c m s = (standDown (context s c).tag m .accept cause s, []) := by
  unfold answerAccept
  rw [is]

theorem answerAccept_taken (is : decideAccept s c m = .taken) :
    answerAccept c m s = acceptElsewhere c m (member s m).engaged (takeAccept c m s) := by
  unfold answerAccept
  rw [is]

/-- The message of a STAND DOWN (R111). -/
def standDownMessage (s : State) (tag m : Nat) (reason : StandReason) : Message :=
  controlMessage .standDown tag m (effectivePager s.roster.tables m) 0 (some reason)

/-- A STAND DOWN is sent, and its record names the call as it stood before (R111). -/
theorem standDown_eq (tag m : Nat) (report : ReportKind) (cause : StandCause) (s : State) : standDown tag m report cause s
    = submit { tagRecord s .standDownSent tag with member := some m, detail1 := report.code, detail2 := cause.code }
      (sendControl (standDownMessage s tag m cause.reason) none none s) := by
  have mail := mail_sendControl (.refl s) (standDownMessage s tag m cause.reason) none none
  unfold standDown
  rw [← mail.tagRecord]
  rfl

theorem calls_standDown (tag m : Nat) (report : ReportKind) (cause : StandCause) (s : State) :
    (standDown tag m report cause s).calls = s.calls := by
  rw [standDown_eq]
  exact (mail_submit (mail_sendControl (.refl s) _ _ _) _).calls

/-! ## The loss of a member's marks in other calls (R32, R67) -/

/-- What the entry of a member is after the loss of the break-in mark alone. -/
def Contact.unbroken (e : Contact) : Contact := { e with breakIn := false }

theorem Context.modContact_modContact (k : Context) (m : Nat) {f : Contact → Contact} (g : Contact → Contact)
    (keeps : ∀ e, (f e).member = e.member) : (k.modContact m f).modContact m g = k.modContact m fun e => g (f e) := by
  simp only [Context.modContact, List.map_map, Context.mk.injEq, true_and, and_true]
  refine List.map_congr_left fun e _ => ?_
  simp only [Function.comp_apply]
  by_cases own : e.member = m
  · rw [if_pos own, if_pos ((keeps e).trans own), if_pos own]
  · rw [if_neg own, if_neg own, if_neg own]

/-- The loss of the break-in mark, as the context holds it (R32). -/
def Context.breakInDropped (m : Nat) (k : Context) : Context :=
  k.modContact m fun e => { e with
    breakIn := false, current := if k.isCurrent m then false else e.current, remind := if k.isCurrent m then .stopped else e.remind
    cancelled := e.cancelled || k.isCurrent m }

theorem context_dropBreakInOf (c m d : Nat) (s : State) :
    context (dropBreakInOf c m s) d = if d = c then (context s c).breakInDropped m else context s d := by
  by_cases other : d = c
  · subst other
    rw [if_pos rfl]
    unfold dropBreakInOf
    dsimp only
    split
    · rename_i own
      rw [context_cancelMember, if_pos rfl, context_modContact, if_pos rfl, context_loseMark, if_pos ⟨rfl, own⟩,
        Context.modContact_modContact (f := fun e => { e with breakIn := false }) _ _ _ fun _ => rfl,
        Context.modContact_modContact (f := Contact.unmarked) _ _ _ fun _ => rfl]
      simp only [Context.breakInDropped, own, Bool.or_true, if_true]
      rfl
    · rename_i not
      rw [context_modContact, if_pos rfl]
      simp only [Context.breakInDropped, not, Bool.or_false]
      rfl
  · rw [if_neg other]
    unfold dropBreakInOf
    dsimp only
    split
    · rw [context_cancelMember, if_neg other, context_modContact, if_neg other, context_loseMark, if_neg fun h => other h.1]
    · rw [context_modContact, if_neg other]

/-- The end of a break-in mark takes the current mark with it (R32). -/
theorem markStep_dropBreakIn (m : Nat) :
    MarkStep m (Context.breakInDropped m) (fun _ => True) fun s c => dropBreakInOf c m s where
  changes s c _ d := context_dropBreakInOf c m d s
  loses s c _ := by
    unfold dropBreakInOf Context.marksOf
    dsimp only
    split
    · rename_i own
      exact loses_cancel own _
    · exact loses_modContext c m _ s
  tells s c own room := by
    unfold dropBreakInOf
    rw [if_pos own]
    have lost : CallWork (fun _ => False) 0 c s (loseMark c m s) := callWork_loseMark m s
    have told := isTold_cancelMember (s := modContext c (Context.modContact m Contact.unbroken) (loseMark c m s))
      (lost.logs.hasRoom (n := 0) (k := 1) (by rwa [Nat.zero_add])) c m
    rw [(tag_modContact c m Contact.unbroken (loseMark c m s)).1, lost.tag] at told
    rwa [show (modContext c _ (loseMark c m s)).roster.tables = s.roster.tables from lost.tables] at told

/-- The loss of a current mark to an ACCEPT of another call, as the context holds it (R67). -/
def Context.markTaken (m : Nat) (k : Context) : Context :=
  k.modContact m fun e => { e with current := false, remind := .stopped, cancelled := true }

/-- An ACCEPT takes the member's current mark in another call (R67). -/
theorem markStep_acceptElsewhere (m : Nat) :
    MarkStep m (Context.markTaken m) (fun k => k.isCurrent m = true) fun s c => cancelMember c m (loseMark c m s) where
  changes s c own d := by
    rw [context_cancelMember]
    split
    · rw [context_loseMark, if_pos ⟨rfl, own⟩, Context.modContact_modContact (f := Contact.unmarked) _ _ _ fun _ => rfl]
      rfl
    · rename_i other
      rw [context_loseMark, if_neg fun h => other h.1]
  loses s c own := by
    have lost := loses_cancel own id
    have same : modContext c id (loseMark c m s) = loseMark c m s := by
      simp [modContext, State.modCalls]
    rw [same] at lost
    rwa [Context.marksOf, if_pos own]
  tells s c own room := by
    have lost : CallWork (fun _ => False) 0 c s (loseMark c m s) := callWork_loseMark m s
    have told := isTold_cancelMember (lost.logs.hasRoom (n := 0) (k := 1) (by rwa [Nat.zero_add])) c m
    rwa [lost.tag, lost.tables] at told

/-! ## The end of a member's break-in marks (R32) -/

/-- The calls that hold a member with the break-in mark, but for the one that the member is engaged with. -/
def brokenInto (m : Nat) (s : State) : List Nat := breakInContexts s (((member s m).engaged.map tagContext).getD 65) m

theorem dropBreakIn_eq (m : Nat) (s : State) : dropBreakIn m s = ((brokenInto m s).foldl (fun s c => dropBreakInOf c m s) s,
    ((brokenInto m s).filter fun c => (context s c).isCurrent m).map fun c => .lostMark c m) := rfl

theorem nodup_brokenInto (m : Nat) (s : State) : (brokenInto m s).Nodup := List.nodup_range.filter _

theorem mem_brokenInto : c ∈ brokenInto m s ↔ c < 65 ∧ (∀ tag, (member s m).engaged = some tag → tag % 128 ≠ c)
    ∧ ∃ e, (context s c).contact m = some e ∧ e.breakIn = true := by
  unfold brokenInto breakInContexts
  rw [List.mem_filter, List.mem_range, Bool.and_eq_true, Option.any_eq_true, bne_iff_ne]
  refine and_congr_right fun low => and_congr_left fun _ => ?_
  cases (member s m).engaged with
  | none => simpa using (by omega : c ≠ 65)
  | some tag => simpa [tagContext] using ne_comm

/-- The tests that follow name each call once that lost the current mark. -/
theorem lost_perm {lost : List Nat} (nodup : lost.Nodup) (are : ∀ c, c ∈ lost ↔ c < 65 ∧ (context s c).isCurrent m = true
      ∧ (∀ tag, (member s m).engaged = some tag → tag % 128 ≠ c) ∧ ∃ e, (context s c).contact m = some e ∧ e.breakIn = true) :
    ((brokenInto m s).filter fun c => (context s c).isCurrent m).Perm lost := by
  refine (List.perm_ext_iff_of_nodup ((nodup_brokenInto m s).filter _) nodup).2 fun c => ?_
  rw [are, List.mem_filter, mem_brokenInto]
  tauto

/-- The entry after the loss of the break-in mark. -/
theorem contact_breakInDropped {k : Context} {e : Contact} (h : k.contact m = some e) : (k.breakInDropped m).contact m = some { e with
    breakIn := false, current := false, remind := if k.isCurrent m then .stopped else e.remind
    cancelled := e.cancelled || k.isCurrent m } := by
  have own : e.member = m := by simpa using List.find?_some h
  rw [Context.breakInDropped, contact_modContact _ m m (by exact fun _ => rfl), h, Option.map_some, if_pos own]
  by_cases current : k.isCurrent m = true
  · simp [current]
  · have not : e.current = false := by
      by_contra is
      refine current (List.any_eq_true.2 ⟨e, List.mem_of_find?_eq_some h, ?_⟩)
      simpa [own] using is
    simp [current, not]

/-- What the end of a member's break-in marks leaves: of the calls that lose the current mark with it, the tests, the paged count and the
CANCELs (R32). -/
theorem dropBreakIn_lost {lost : List Nat} (perm : ((brokenInto m s).filter fun c => (context s c).isCurrent m).Perm lost) :
    (∀ d n, Task.lostMark d n ∈ (dropBreakIn m s).2 ↔ d ∈ lost ∧ n = m)
    ∧ (member (dropBreakIn m s).1 m).paged = (member s m).paged - lost.length
    ∧ (hasRoom s lost.length → ∀ c ∈ lost,
      isQueuedOrDropped (dropBreakIn m s).1 .cancel (context s c).tag m (effectivePager s.roster.tables m)) := by
  obtain ⟨loses, told⟩ := (markStep_dropBreakIn m).loses_foldl (s := s) (nodup_brokenInto m s) fun _ _ => trivial
  rw [List.countP_eq_length_filter, perm.length_eq] at loses told
  refine ⟨fun d n => ?_, loses.paged, fun room c hc => ?_⟩
  · rw [dropBreakIn_eq, List.mem_map]
    constructor
    · rintro ⟨x, hx, same⟩
      cases same
      exact ⟨perm.mem_iff.1 hx, rfl⟩
    · rintro ⟨hd, rfl⟩
      exact ⟨d, perm.mem_iff.2 hd, rfl⟩
  · obtain ⟨mem, own⟩ := List.mem_filter.1 (perm.mem_iff.2 hc)
    exact isQueuedOrDropped_of_told (told room c mem own)

end Sys2Proof.Machine

/-! # Proofs: the taking of an ACCEPT (R108)

`takeAccept` in three parts: the call is accepted (`acceptBegun`), its members are told (`acceptTold`), and the accepter is confirmed. -/

namespace Sys2Proof.Machine

variable {n k m c : Nat} {s t u : State}

/-! ## Who is sent a CANCEL (R108) -/

/-- The members whose entries are marked neither declined nor cancelled, but for one. -/
def Context.untold (but : Option Nat) (k : Context) : List Nat :=
  (k.contacted.filter fun e => !e.declined && !e.cancelled && some e.member != but).map (·.member)

theorem Context.mem_untold {k : Context} {but : Option Nat} {j : Nat} : j ∈ k.untold but
    ↔ some j ≠ but ∧ ∃ e ∈ k.contacted, e.member = j ∧ e.declined = false ∧ e.cancelled = false := by
  simp only [Context.untold, List.mem_map, List.mem_filter, Bool.and_eq_true, bne_iff_ne, Bool.not_eq_true']
  constructor
  · rintro ⟨e, ⟨he, ⟨declined, cancelled⟩, ne⟩, rfl⟩
    exact ⟨ne, e, he, rfl, declined, cancelled⟩
  · rintro ⟨ne, e, he, rfl, declined, cancelled⟩
    exact ⟨e, ⟨he, ⟨declined, cancelled⟩, ne⟩, rfl⟩

theorem Context.untold_congr {k l : Context} (marks : l.marks = k.marks) (but : Option Nat) : l.untold but = k.untold but := by
  have told (k : Context) : k.untold but
      = (k.marks.filter fun x => !x.2.1 && !x.2.2.2 && some x.1 != but).map (·.1) := by
    simp only [Context.untold, Context.marks, List.filter_map, List.map_map]
    rfl
  rw [told, told, marks]

/-- An entry made for the member who accepts adds nobody who is sent a CANCEL. -/
theorem Context.untold_ensureContact (m : Nat) (k : Context) : ((k.ensureContact m).untold (some m)).Sublist (k.untold (some m)) := by
  have fresh : (!(Contact.blank m k.rung k.pass).declined && !(Contact.blank m k.rung k.pass).cancelled
      && some (Contact.blank m k.rung k.pass).member != some m) = false := by simp [Contact.blank]
  unfold Context.ensureContact Context.addContact Context.untold
  split
  · exact List.Sublist.refl _
  · split
    · simp only [List.filter_append, List.filter_cons, fresh, Bool.false_eq_true, if_false, List.filter_nil, List.append_nil]
      exact List.Sublist.refl _
    · split
      · simp only [List.filter_append, List.filter_cons, fresh, Bool.false_eq_true, if_false, List.filter_nil, List.append_nil]
        exact ((List.eraseIdx_sublist _ _).filter _).map _
      · simp only [List.filter_append, List.filter_cons, fresh, Bool.false_eq_true, if_false, List.filter_nil, List.append_nil]
        exact List.Sublist.refl _

theorem Context.length_untold (but : Option Nat) (k : Context) : (k.untold but).length ≤ k.contacted.length := by
  rw [Context.untold, List.length_map]
  exact List.length_filter_le ..

theorem cancelOthers_eq (c : Nat) (but : Option Nat) (s : State) :
    cancelOthers c but s = ((context s c).untold but).foldl (fun s m => cancelMember c m s) s := by
  rw [Context.untold, List.foldl_map]
  rfl

/-- A context some of whose members have been sent a CANCEL. -/
def Context.toldAll (l : List Nat) (k : Context) : Context :=
  { k with contacted := k.contacted.map fun e => if e.member ∈ l then e.told else e }

theorem context_foldl_cancelMember (c : Nat) (l : List Nat) (s : State) :
    context (l.foldl (fun s m => cancelMember c m s) s) c = (context s c).toldAll l := by
  induction l generalizing s with
  | nil => simp [Context.toldAll]
  | cons m l ih =>
    rw [List.foldl_cons, ih, context_cancelMember, if_pos rfl]
    simp only [Context.toldAll, Context.modContact, List.map_map, Context.mk.injEq, true_and, and_true]
    refine List.map_congr_left fun e _ => ?_
    simp only [Function.comp_apply, List.mem_cons]
    by_cases own : e.member = m
    · simp only [own, if_true, true_or]
      split <;> rfl
    · simp only [own, if_false, false_or]

/-- The CANCELs of one call: the work on it, and that each is told. -/
theorem cancels_spec (c : Nat) (l : List Nat) (s : State) :
    let t := l.foldl (fun s m => cancelMember c m s) s
    CallWork (fun _ => True) l.length c s t ∧ t.area = s.area
    ∧ (hasRoom s l.length → ∀ m ∈ l, isTold t s.roster.tables .cancel (context s c).tag m) := by
  induction l generalizing s with
  | nil => exact ⟨.refl _ _ _ _, rfl, fun _ m h => absurd h List.not_mem_nil⟩
  | cons x l ih =>
    have one := callWork_cancelMember c x s
    obtain ⟨work, area, told⟩ := ih (cancelMember c x s)
    rw [one.tag, one.tables] at told
    refine ⟨?_, area.trans (area_cancelMember c x s), fun room m hm => ?_⟩
    · rw [List.length_cons, Nat.add_comm]
      exact one.trans work
    · rw [List.length_cons, Nat.add_comm] at room
      have left := one.logs.hasRoom room
      rcases List.mem_cons.1 hm with rfl | hm
      · have rest := (sends_foldl (fun s x => sends_cancelMember c x s) l (cancelMember c m s)).kept left .cancel (context s c).tag m
        rw [one.tables] at rest
        exact rest (isTold_cancelMember ⟨room.1, room.2.1, by have := room.2.2; omega⟩ c m)
      · exact told left m hm

/-! ## The call is accepted -/

/-- The context of a call whose rung has stopped, with its first arrival window (R108). -/
def Context.arriving (w : Window) (a : Nat) (k : Context) : Context :=
  { k with
    deadline := .stopped, turn := .stopped, mode := .none, turnMember := none, arrival := w, arrivalLength := a, arrivalCount := 1 }

/-- The context of a call that a member accepts, with its arrival window (R108). -/
def Context.accepting (m : Nat) (tick : Tick) (w : Window) (a : Nat) (k : Context) : Context := (k.arriving w a).acceptedBy m tick

theorem Context.unlisted_accepting (m : Nat) (tick : Tick) (w : Window) (a : Nat) (k : Context) :
    (k.accepting m tick w a).unlisted = { k.unlisted with
      deadline := .stopped, turn := .stopped, mode := .none, turnMember := none, arrival := w, arrivalLength := a, arrivalCount := 1
      state := .accepted, accepter := some m, acceptRung := k.rung, acceptTick := tick } := by
  have e := Context.unlisted_ensureContact m (k.arriving w a)
  unfold Context.accepting Context.acceptedBy
  generalize Context.ensureContact m _ = x at e ⊢
  exact congrArg (fun x : Context => { x with state := .accepted, accepter := some m, acceptRung := k.rung, acceptTick := tick }) e

/-- The list after an entry is made for a member is told by the list, the rung and the pass count. -/
theorem Context.contacted_ensureContact_congr {k l : Context} (contacted : l.contacted = k.contacted) (rung : l.rung = k.rung)
    (pass : l.pass = k.pass) (m : Nat) : (l.ensureContact m).contacted = (k.ensureContact m).contacted := by
  have same : (l.contact m).isSome = (k.contact m).isSome := by rw [Context.contact, Context.contact, contacted]
  unfold Context.ensureContact
  rw [same]
  by_cases has : (k.contact m).isSome = true
  · rw [if_pos has, if_pos has]
    exact contacted
  · rw [if_neg has, if_neg has]
    unfold Context.addContact
    rw [contacted, rung, pass]
    by_cases room : k.contacted.length < Config.contactedCapacity
    · rw [if_pos room, if_pos room]
    · rw [if_neg room, if_neg room]
      cases reusedEntry k.contacted <;> rfl

theorem Context.contacted_accepting (m : Nat) (tick : Tick) (w : Window) (a : Nat) (k : Context) :
    (k.accepting m tick w a).contacted = (k.ensureContact m).contacted :=
  Context.contacted_ensureContact_congr (k := k) (l := k.arriving w a) rfl rfl rfl m

/-- A call is accepted, before its slot shows it. -/
@[irreducible] def acceptOpened (c m : Nat) (s : State) : State :=
  modContext c (Context.acceptedBy m (arrivalBegun c m s).tickCount) (arrivalBegun c m s)

/-- A call is accepted, and its slot shows it, before its members are told. -/
@[irreducible] def acceptBegun (c m : Nat) (s : State) : State := showContext c (acceptOpened c m s)

theorem acceptTold_begun (c m : Nat) (s : State) : acceptTold c m s = cancelOthers c (some m) (loseMarks c (acceptBegun c m s)) := by
  unfold acceptBegun acceptOpened
  rfl

/-- The accepted call's context, before its members are told. -/
def acceptingContext (s : State) (c m : Nat) : Context :=
  (context s c).accepting m s.tickCount (startWindow s (arrivalLengthOf s (context s c))) (arrivalLengthOf s (context s c))

theorem unlisted_acceptingContext (s : State) (c m : Nat) : (acceptingContext s c m).unlisted = { (context s c).unlisted with
      deadline := .stopped, turn := .stopped, mode := .none, turnMember := none
      arrival := startWindow s (arrivalLengthOf s (context s c)), arrivalLength := arrivalLengthOf s (context s c), arrivalCount := 1
      state := .accepted, accepter := some m, acceptRung := (context s c).rung, acceptTick := s.tickCount } :=
  Context.unlisted_accepting m _ _ _ _

/-- The Roster Store, once a member is engaged with a call's tag and the pointers have moved. -/
def acceptedRoster (m tag : Nat) (s : State) : RosterStore := (moveRotationPointers m (engage m tag s)).roster

theorem modContext_shape (c : Nat) (f : Context → Context) (s : State) :
    modContext c f s = { s with calls := (modContext c f s).calls } := rfl

/-- A change of a context keeps the shape of a state that differs from another in its roster and calls. -/
theorem shape_modContext {r : RosterStore} (shape : t = { s with roster := r, calls := t.calls }) (f : Context → Context) :
    modContext c f t = { s with roster := r, calls := (modContext c f t).calls } := by
  generalize t.calls = w at *
  subst shape
  exact modContext_shape c f _

theorem acceptOpened_shape (c m : Nat) (s : State) :
    acceptOpened c m s = { s with roster := acceptedRoster m (context s c).tag s, calls := (acceptOpened c m s).calls } := by
  have moved : moveRotationPointers m (engage m (context s c).tag s)
      = { s with roster := acceptedRoster m (context s c).tag s, calls := s.calls } := rfl
  unfold acceptOpened
  exact shape_modContext (shape_modContext (shape_modContext moved _) _) _

theorem length_modContext (c : Nat) (f : Context → Context) (s : State) :
    (modContext c f s).calls.contexts.length = s.calls.contexts.length := List.length_modify ..

theorem context_arrivalBegun (hc : c < s.calls.contexts.length) (m d : Nat) : context (arrivalBegun c m s) d
    = if d = c then (context s c).arriving (startWindow s (arrivalLengthOf s (context s c))) (arrivalLengthOf s (context s c))
      else context s d := by
  have tick : (stopRung c (moveRotationPointers m (engage m (context s c).tag s))).tickCount = s.tickCount := rfl
  have engine : (stopRung c (moveRotationPointers m (engage m (context s c).tag s))).engine = s.engine := rfl
  have calls : (moveRotationPointers m (engage m (context s c).tag s)).calls = s.calls := rfl
  have length : arrivalLengthOf (moveRotationPointers m (engage m (context s c).tag s)) (context s c)
      = arrivalLengthOf s (context s c) := classLength_congr rfl rfl rfl rfl _
  have begun : arrivalBegun c m s = modContext c
      (fun k => { k with arrival := startWindow s (arrivalLengthOf s (context s c)), arrivalLength := arrivalLengthOf s (context s c)
                         arrivalCount := 1 }) (stopRung c (moveRotationPointers m (engage m (context s c).tag s))) := by
    unfold arrivalBegun
    dsimp only
    rw [startWindow_congr engine tick, context_of_calls calls, length]
  rw [begun]
  split
  · rename_i same
    subst same
    rw [context_modContext_same _ (by rw [stopRung, length_modContext, calls]; exact hc), stopRung,
      context_modContext_same _ (by rw [calls]; exact hc), context_of_calls calls]
    rfl
  · rename_i other
    rw [context_modContext_ne other, stopRung, context_modContext_ne other, context_of_calls calls]

theorem context_acceptOpened (hc : c < s.calls.contexts.length) (m d : Nat) :
    context (acceptOpened c m s) d = if d = c then acceptingContext s c m else context s d := by
  have tick : (arrivalBegun c m s).tickCount = s.tickCount := rfl
  have length : (arrivalBegun c m s).calls.contexts.length = s.calls.contexts.length := by
    unfold arrivalBegun stopRung
    rw [length_modContext, length_modContext]
    rfl
  unfold acceptOpened
  rw [tick]
  split
  · rename_i same
    subst same
    rw [context_modContext_same _ (by rw [length]; exact hc), context_arrivalBegun hc, if_pos rfl]
    rfl
  · rename_i other
    rw [context_modContext_ne other, context_arrivalBegun hc, if_neg other]

theorem acceptBegun_shape (c m : Nat) (s : State) :
    acceptBegun c m s = { s with
      roster := acceptedRoster m (context s c).tag s, calls := (acceptOpened c m s).calls
      area := { s.area with slots := (acceptBegun c m s).area.slots } }
    ∧ (acceptBegun c m s).area.slots.length = s.area.slots.length := by
  obtain ⟨shape, length⟩ := showContext_shape c (acceptOpened c m s)
  have opened := acceptOpened_shape c m s
  unfold acceptBegun
  generalize showContext c (acceptOpened c m s) = v at *
  generalize acceptOpened c m s = w at *
  rw [opened] at shape length
  exact ⟨shape, length⟩

theorem acceptOpened_calls (c m : Nat) (s : State) : (acceptOpened c m s).calls.backlog = s.calls.backlog
    ∧ (acceptOpened c m s).calls.contexts.length = s.calls.contexts.length := by
  unfold acceptOpened
  refine ⟨rfl, ?_⟩
  show (((s.calls.contexts.modify c _).modify c _).modify c _).length = _
  simp only [List.length_modify]

theorem calls_acceptBegun (c m : Nat) (s : State) : (acceptBegun c m s).calls = (acceptOpened c m s).calls := by
  rw [(acceptBegun_shape c m s).1]

theorem context_acceptBegun (hc : c < s.calls.contexts.length) (m d : Nat) :
    context (acceptBegun c m s) d = if d = c then acceptingContext s c m else context s d := by
  rw [context_of_calls (calls_acceptBegun c m s), context_acceptOpened hc]

/-- The registry records once a member is engaged. -/
theorem member_engage (tag : Nat) (hm : m < s.roster.members.length) (j : Nat) :
    (member (engage m tag s) j).engaged = (if j = m then some tag else (member s j).engaged)
    ∧ (member (engage m tag s) j).paged = (member s j).paged := by
  unfold engage
  rw [member_modMember]
  by_cases same : j = m
  · subst same
    rw [if_pos ⟨rfl, hm⟩, if_pos rfl, Member.change_eq]
    exact ⟨rfl, rfl⟩
  · rw [if_neg fun h => same h.1, if_neg same]
    exact ⟨rfl, rfl⟩

theorem paged_engage (m tag j : Nat) (s : State) : (member (engage m tag s) j).paged = (member s j).paged := by
  unfold engage
  rw [member_modMember]
  split
  · rename_i h
    rw [Member.change_eq, h.1]
  · rfl

theorem member_acceptBegun (c m j : Nat) (s : State) :
    member (acceptBegun c m s) j = member (engage m (context s c).tag s) j := by
  rw [(acceptBegun_shape c m s).1]
  rfl

theorem isCurrent_acceptingContext (s : State) (c m j : Nat) : (acceptingContext s c m).isCurrent j = (context s c).isCurrent j := by
  rw [← (alike_ensureContact m (context s c)).current j]
  unfold Context.isCurrent acceptingContext
  rw [Context.contacted_accepting]

theorem untold_acceptingContext (s : State) (c m : Nat) :
    (acceptingContext s c m).untold (some m) = ((context s c).ensureContact m).untold (some m) := by
  unfold Context.untold acceptingContext
  rw [Context.contacted_accepting]

/-! ## Its members are told -/

/-- The accepted call's context, once its members are told. -/
def acceptedContext (s : State) (c m : Nat) : Context :=
  (acceptingContext s c m).allUnmarked.toldAll (((context s c).ensureContact m).untold (some m))

theorem untold_acceptBegun (hc : c < s.calls.contexts.length) (m : Nat) :
    (context (loseMarks c (acceptBegun c m s)) c).untold (some m) = ((context s c).ensureContact m).untold (some m) := by
  rw [Context.untold_congr (context_loseMarks c _).1, context_acceptBegun hc, if_pos rfl, untold_acceptingContext]

theorem acceptTold_eq (hc : c < s.calls.contexts.length) (m : Nat) : acceptTold c m s
    = (((context s c).ensureContact m).untold (some m)).foldl (fun s m => cancelMember c m s) (loseMarks c (acceptBegun c m s)) := by
  rw [← untold_acceptBegun hc]
  rw [acceptTold_begun, cancelOthers_eq]

theorem context_acceptTold (hc : c < s.calls.contexts.length) (m : Nat) : context (acceptTold c m s) c = acceptedContext s c m := by
  rw [acceptTold_eq hc, context_foldl_cancelMember, context_loseMarks_eq, context_acceptBegun hc, if_pos rfl]
  rfl

/-- What the losses of the marks and the CANCELs leave. -/
theorem acceptTold_spec (hc : c < s.calls.contexts.length) (m : Nat) :
    let l := ((context s c).ensureContact m).untold (some m)
    CallWork (fun _ => True) l.length c (acceptBegun c m s) (acceptTold c m s)
    ∧ (acceptTold c m s).area = (acceptBegun c m s).area
    ∧ Sends l.length (acceptBegun c m s) (acceptTold c m s)
    ∧ (hasRoom (acceptBegun c m s) l.length → ∀ j ∈ l, isTold (acceptTold c m s) s.roster.tables .cancel (context s c).tag j)
    ∧ (s.dispatcher.ok → ∀ j, (context s c).isCurrent j = true → ∀ kind ∈ [DeliveryKind.page, .remind],
      ({ tag := (context s c).tag, member := j, kind := kind } : RecordKey) ∉ keysOf (acceptTold c m s)) := by
  intro l
  have lost : CallWork (fun _ => True) 0 c (acceptBegun c m s) (loseMarks c (acceptBegun c m s)) := callWork_loseMarks _
  obtain ⟨work, area, told⟩ := cancels_spec c l (loseMarks c (acceptBegun c m s))
  have sends := sends_foldl (fun s x => sends_cancelMember c x s) l (loseMarks c (acceptBegun c m s))
  have tag : (context (acceptBegun c m s) c).tag = (context s c).tag := by
    rw [context_acceptBegun hc, if_pos rfl]
    exact (congrArg Context.tag (unlisted_acceptingContext s c m) :)
  have tables : (acceptBegun c m s).roster.tables = s.roster.tables := by rw [(acceptBegun_shape c m s).1]; rfl
  rw [lost.tables, lost.tag, tag, tables] at told
  rw [acceptTold_eq hc]
  refine ⟨(lost.trans work).mono (fun _ h => h) (by omega), area.trans (area_loseMarks c _),
    ((sends_of_keeps lost.logs lost.tables (keepsControl_loseMarks c _)).trans sends).mono (by omega),
    fun room => told (lost.logs.hasRoom (by rwa [Nat.zero_add])), fun ok j current kind is mem => ?_⟩
  have begun : (context (acceptBegun c m s) c).isCurrent j = true := by
    rw [context_acceptBegun hc, if_pos rfl, isCurrent_acceptingContext]
    exact current
  have gone := keysOf_foldl_loseMark (context (acceptBegun c m s) c).currentMembers (acceptBegun c m s)
    (by rw [(acceptBegun_shape c m s).1]; exact ok) ((mem_currentMembers _ j).2 begun) begun is
  rw [tag] at gone
  exact gone (work.keys mem)

/-! ## The accepter is confirmed -/

/-- The record ACCEPTED (R108). -/
def acceptedRecord (s : State) (c m : Nat) : JournalRecord :=
  { callRecord .accepted (context s c) with
    member := some m, detail1 := (context s c).rung * 256 + (context s c).pass
    detail2 := (if (context s c).isCurrent m then 1 else 0) + (if (member s m).engaged.isSome then 2 else 0) }

/-- The accepted call's context, but for its contacted list. -/
theorem unlisted_acceptedContext (s : State) (c m : Nat) : (acceptedContext s c m).unlisted = { (context s c).unlisted with
      deadline := .stopped, turn := .stopped, mode := .none, turnMember := none
      arrival := startWindow s (arrivalLengthOf s (context s c)), arrivalLength := arrivalLengthOf s (context s c), arrivalCount := 1
      state := .accepted, accepter := some m, acceptRung := (context s c).rung, acceptTick := s.tickCount } :=
  unlisted_acceptingContext s c m

/-- The accepted call has left its latches. -/
@[irreducible] def acceptLeft (c m : Nat) (s : State) : State := leaveLatches c (acceptTold c m s)

/-- A call that leaves its latches changes nothing else. -/
theorem acceptLeft_same (c m : Nat) (s : State) : (acceptLeft c m s).calls = (acceptTold c m s).calls
    ∧ (acceptLeft c m s).roster = (acceptTold c m s).roster ∧ (acceptLeft c m s).area = (acceptTold c m s).area
    ∧ (acceptLeft c m s).engine = (acceptTold c m s).engine ∧ (acceptLeft c m s).tickCount = (acceptTold c m s).tickCount
    ∧ (acceptLeft c m s).attention = (acceptTold c m s).attention ∧ keysOf (acceptLeft c m s) = keysOf (acceptTold c m s)
    ∧ Sends 0 (acceptTold c m s) (acceptLeft c m s)
    ∧ (acceptLeft c m s).latches = (acceptTold c m s).latches.map fun l => l.filter (· != c) := by
  unfold acceptLeft
  generalize acceptTold c m s = u
  exact ⟨rfl, rfl, rfl, rfl, rfl, rfl, rfl, sends_of_same rfl rfl rfl rfl rfl, rfl⟩

theorem context_acceptLeft (c m d : Nat) (s : State) : context (acceptLeft c m s) d = context (acceptTold c m s) d := by
  obtain ⟨calls, -⟩ := acceptLeft_same c m s
  exact context_of_calls calls d

theorem takeAccept_parts (c m : Nat) (s : State) : takeAccept c m s = submit
    { callRecord .accepted (context (acceptLeft c m s) c) with
      member := some m
      detail1 := packBytes (context (acceptLeft c m s) c).rung (context (acceptLeft c m s) c).pass
      detail2 := (if (context s c).isCurrent m then 1 else 0) + (if (member s m).engaged.isSome then 2 else 0) }
    (sendConfirm (context (acceptLeft c m s) c) m (acceptLeft c m s)) := by
  unfold acceptLeft
  rfl

/-- The call of a taken ACCEPT, told of, with the CONFIRM. -/
@[irreducible] def acceptConfirmed (c m : Nat) (s : State) : State :=
  sendConfirm (acceptedContext s c m) m (acceptLeft c m s)

theorem takeAccept_shape (hc : c < s.calls.contexts.length) (m : Nat) :
    takeAccept c m s = submit (acceptedRecord s c m) (acceptConfirmed c m s) := by
  rw [takeAccept_parts, context_acceptLeft, context_acceptTold hc]
  have record : ({ callRecord .accepted (acceptedContext s c m) with
      member := some m
      detail1 := packBytes (acceptedContext s c m).rung (acceptedContext s c m).pass
      detail2 := (if (context s c).isCurrent m then 1 else 0) + (if (member s m).engaged.isSome then 2 else 0) } : JournalRecord)
      = acceptedRecord s c m := by
    have fields := unlisted_acceptedContext s c m
    generalize acceptedContext s c m = k at fields ⊢
    simp only [Context.unlisted, Context.mk.injEq] at fields
    simp only [acceptedRecord, callRecord, packBytes, fields]
  rw [record, acceptConfirmed]

end Sys2Proof.Machine

/-! # Proofs: what a taken ACCEPT leaves (R108) -/

namespace Sys2Proof.Machine

variable {n k m c : Nat} {s t u : State}

theorem length_untold_le (s : State) (c m : Nat) :
    (((context s c).ensureContact m).untold (some m)).length ≤ (context s c).contacted.length :=
  le_trans (Context.untold_ensureContact m _).length_le (Context.length_untold _ _)

/-- Room for some records is room for fewer. -/
theorem hasRoom_of_le (room : hasRoom s n) (few : k ≤ n) : hasRoom s k := ⟨room.1, room.2.1, by have := room.2.2; omega⟩

theorem sends_acceptBegun (c m : Nat) (s : State) : Sends 0 s (acceptBegun c m s) := by
  obtain ⟨shape, -⟩ := acceptBegun_shape c m s
  generalize acceptBegun c m s = v at *
  rw [shape]
  exact sends_of_same rfl rfl rfl rfl rfl

theorem sends_acceptLeft (hc : c < s.calls.contexts.length) (m : Nat) :
    Sends (((context s c).ensureContact m).untold (some m)).length s (acceptLeft c m s) := by
  obtain ⟨-, -, told, -⟩ := acceptTold_spec hc m
  obtain ⟨-, -, -, -, -, -, -, left, -⟩ := acceptLeft_same c m s
  exact (((sends_acceptBegun c m s).trans told).trans left).mono (by omega)

/-- The CONFIRM of a taken ACCEPT (R108, R110). -/
def confirmMessage (s : State) (k : Context) (m : Nat) : Message :=
  controlMessage .confirm k.tag m (effectivePager s.roster.tables m) k.callNumber none

theorem sends_sendConfirm (k : Context) (m : Nat) (s : State) : Sends 1 s (sendConfirm k m s) :=
  sends_sendControl (confirmMessage s k m) rfl none

theorem isTold_sendConfirm (room : hasRoom s 1) (k : Context) (m : Nat) :
    isTold (sendConfirm k m s) s.roster.tables .confirm k.tag m := isTold_sendControl room (confirmMessage s k m) rfl none

theorem tag_acceptedContext (s : State) (c m : Nat) : (acceptedContext s c m).tag = (context s c).tag :=
  (congrArg Context.tag (unlisted_acceptedContext s c m) :)

/-- The records and the messages of a taken ACCEPT (R108). -/
structure TellsAccept (c m : Nat) (s t : State) : Prop where
  sends : Sends ((context s c).contacted.length + 2) s t
  cancels : hasRoom s ((context s c).contacted.length + 2) → ∀ j ∈ ((context s c).ensureContact m).untold (some m),
    isTold t s.roster.tables .cancel (context s c).tag j
  confirms : hasRoom s ((context s c).contacted.length + 2) → isTold t s.roster.tables .confirm (context s c).tag m
  record : hasRoom s ((context s c).contacted.length + 2) → ∃ before, t.journal.pending
    = s.journal.pending ++ before ++ [{ acceptedRecord s c m with tick := s.tickCount }]

/-- What a taken ACCEPT leaves (R108): the call's own part. -/
structure TakesAccept (c m : Nat) (s t : State) : Prop where
  engine : t.engine = s.engine
  tickCount : t.tickCount = s.tickCount
  attention : t.attention = s.attention
  latches : t.latches = s.latches.map fun l => l.filter (· != c)
  backlog : t.calls.backlog = s.calls.backlog
  length : t.calls.contexts.length = s.calls.contexts.length
  here : context t c = acceptedContext s c m
  others : ∀ d, d ≠ c → context t d = context s d
  roster : t.roster = { acceptedRoster m (context s c).tag s with members := t.roster.members }
  engaged : m < s.roster.members.length →
    ∀ j, (member t j).engaged = if j = m then some (context s c).tag else (member s j).engaged
  paged : ∀ j, (member t j).paged = (member s j).paged - if (context s c).isCurrent j then 1 else 0
  images : ∀ i, (context s c).slot = some i → i < s.area.slots.length →
    slotImage t i = SlotImage.change (SlotImage.shown (acceptingContext s c m)) (slotImage s i)
  slots : t.area.slots.length = s.area.slots.length
  keys : keysOf t ⊆ keysOf s
  pages : s.dispatcher.ok → ∀ j, (context s c).isCurrent j = true → ∀ kind ∈ [DeliveryKind.page, .remind],
    ({ tag := (context s c).tag, member := j, kind := kind } : RecordKey) ∉ keysOf t

/-- After the last of a call's own part, the Page Dispatcher's work alone is left. -/
theorem mail_takeAccept (hc : c < s.calls.contexts.length) (m : Nat) : Mail (acceptLeft c m s) (acceptConfirmed c m s)
    ∧ Mail (acceptLeft c m s) (takeAccept c m s) ∧ keysOf (takeAccept c m s) = keysOf (acceptTold c m s) := by
  have confirmed : Mail (acceptLeft c m s) (acceptConfirmed c m s) := by
    rw [acceptConfirmed]
    exact mail_sendConfirm (.refl _) _ _
  rw [takeAccept_shape hc]
  refine ⟨confirmed, mail_submit confirmed _, ?_⟩
  have submits : keysOf (submit (acceptedRecord s c m) (acceptConfirmed c m s)) = keysOf (acceptConfirmed c m s) := by
    unfold keysOf
    rw [submit_dispatcher]
  have confirms : keysOf (acceptConfirmed c m s) = keysOf (acceptLeft c m s) := by
    rw [acceptConfirmed]
    exact keysOf_sendControl _ none none _
  obtain ⟨-, -, -, -, -, -, left, -⟩ := acceptLeft_same c m s
  rw [submits, confirms, left]

theorem tellsAccept (hc : c < s.calls.contexts.length) (m : Nat) : TellsAccept c m s (takeAccept c m s) := by
  obtain ⟨work, -, told, cancels, -⟩ := acceptTold_spec hc m
  obtain ⟨mail, -, -⟩ := mail_takeAccept hc m
  have few := length_untold_le s c m
  have left := sends_acceptLeft hc m
  obtain ⟨-, -, -, -, ticks, -, -, leaves, -⟩ := acceptLeft_same c m s
  have confirmed : Sends 1 (acceptLeft c m s) (acceptConfirmed c m s) ∧ (hasRoom (acceptLeft c m s) 1 →
      isTold (acceptConfirmed c m s) (acceptLeft c m s).roster.tables .confirm (context s c).tag m) := by
    rw [acceptConfirmed, ← tag_acceptedContext s c m]
    exact ⟨sends_sendConfirm _ _ _, fun room => isTold_sendConfirm room _ _⟩
  have confirm := confirmed.1
  have submits : Sends 1 (acceptConfirmed c m s) (takeAccept c m s) := by
    rw [takeAccept_shape hc]
    exact sends_submit _ _
  refine ⟨((left.trans confirm).trans submits).mono (by omega), fun room j hj => ?_, fun room => ?_, fun room => ?_⟩
  · have begun := (sends_acceptBegun c m s).logs.hasRoom (n := 0) (k := (context s c).contacted.length + 2) (by rwa [Nat.zero_add])
    have there := cancels (hasRoom_of_le begun (by omega)) j hj
    have later := ((leaves.trans confirm).trans submits).kept
      (told.logs.hasRoom (hasRoom_of_le begun (by omega))) .cancel (context s c).tag j
    rw [told.tables, (sends_acceptBegun c m s).tables] at later
    exact later there
  · have now := confirmed.2 (left.logs.hasRoom (hasRoom_of_le room (by omega)))
    have later := submits.kept ((left.trans confirm).logs.hasRoom (hasRoom_of_le room (by omega))) .confirm (context s c).tag m
    rw [confirm.tables, left.tables] at later
    rw [left.tables] at now
    exact later now
  · have free := (left.trans confirm).logs.hasRoom (k := 1) (hasRoom_of_le room (by omega))
    obtain ⟨-, -, before, e, -⟩ := (left.trans confirm).logs
    have tick : (acceptLeft c m s).tickCount = s.tickCount := by rw [ticks, work.tickCount, (acceptBegun_shape c m s).1]
    refine ⟨before, ?_⟩
    rw [takeAccept_shape hc, submit_pending free, e, mail.tickCount, tick]

theorem slotImage_acceptBegun {i : Nat} (hc : c < s.calls.contexts.length) (m : Nat) (slot : (context s c).slot = some i)
    (inside : i < s.area.slots.length) :
    slotImage (acceptBegun c m s) i = SlotImage.change (SlotImage.shown (acceptingContext s c m)) (slotImage s i) := by
  have here := context_acceptOpened hc m c
  rw [if_pos rfl] at here
  have has : (acceptingContext s c m).slot = some i := (congrArg Context.slot (unlisted_acceptingContext s c m) :).trans slot
  have area : (acceptOpened c m s).area = s.area := by rw [acceptOpened_shape]
  rw [acceptBegun, showContext_some (by rw [here]; exact has), here, slotImage_modSlot_same (by rw [area]; exact inside)]
  unfold slotImage
  rw [area]

theorem isCurrent_acceptedContext (s : State) (c m j : Nat) : (acceptedContext s c m).isCurrent j = false := by
  have told (l : List Nat) (k : Context) : (k.toldAll l).isCurrent j = k.isCurrent j :=
    Context.isCurrent_map (f := fun e => if e.member ∈ l then e.told else e) rfl (fun e => by split <;> exact ⟨rfl, rfl⟩) j
  rw [acceptedContext, told]
  refine isCurrent_eq_false.2 (fun e he => ?_) j
  obtain ⟨x, hx, rfl⟩ := List.mem_map.1 he
  split
  · rfl
  · rename_i not
    by_contra is
    exact not (List.any_eq_true.2 ⟨x, hx, by simpa using is⟩)

theorem takesAccept (hc : c < s.calls.contexts.length) (m : Nat) : TakesAccept c m s (takeAccept c m s) := by
  obtain ⟨work, area, -, -, pages⟩ := acceptTold_spec hc m
  obtain ⟨shape, slots⟩ := acceptBegun_shape c m s
  obtain ⟨backlog, length⟩ := acceptOpened_calls c m s
  obtain ⟨-, mail, keys⟩ := mail_takeAccept hc m
  obtain ⟨leftCalls, leftRoster, leftArea, leftEngine, leftTick, leftAttention, -, -, leftLatches⟩ := acceptLeft_same c m s
  have calls : (takeAccept c m s).calls = (acceptTold c m s).calls := mail.calls.trans leftCalls
  have begun := calls_acceptBegun c m s
  have who (j : Nat) : member (takeAccept c m s) j = member (acceptTold c m s) j := by
    rw [mail.member, member, member, leftRoster]
  have engaged (hm : m < s.roster.members.length) (j : Nat) : (member (takeAccept c m s) j).engaged
      = if j = m then some (context s c).tag else (member s j).engaged := by
    rw [who, work.engaged, member_acceptBegun]
    exact (member_engage _ hm j).1
  have paged (j : Nat) : (member (takeAccept c m s) j).paged = (member s j).paged - if (context s c).isCurrent j then 1 else 0 := by
    have net := work.net j
    rw [context_acceptTold hc, isCurrent_acceptedContext, member_acceptBegun, paged_engage, context_acceptBegun hc, if_pos rfl,
      isCurrent_acceptingContext, if_neg Bool.false_ne_true, Nat.sub_zero] at net
    rw [who, net]
  have images (i : Nat) (slot : (context s c).slot = some i) (inside : i < s.area.slots.length) : slotImage (takeAccept c m s) i
      = SlotImage.change (SlotImage.shown (acceptingContext s c m)) (slotImage s i) := by
    rw [← slotImage_acceptBegun hc m slot inside, mail.slotImage]
    unfold slotImage
    rw [leftArea, area]
  have same : (acceptBegun c m s).engine = s.engine ∧ (acceptBegun c m s).tickCount = s.tickCount
      ∧ (acceptBegun c m s).attention = s.attention ∧ (acceptBegun c m s).latches = s.latches
      ∧ (acceptBegun c m s).roster = acceptedRoster m (context s c).tag s ∧ keysOf (acceptBegun c m s) = keysOf s := by
    generalize acceptBegun c m s = v at shape ⊢
    rw [shape]
    exact ⟨rfl, rfl, rfl, rfl, rfl, rfl⟩
  obtain ⟨engine, tickCount, attention, latches, roster, keysB⟩ := same
  exact
    { engine := mail.engine.trans (leftEngine.trans <| work.engine.trans engine)
      tickCount := mail.tickCount.trans (leftTick.trans <| work.tickCount.trans tickCount)
      attention := mail.attention.trans (leftAttention.trans <| work.attention.trans attention)
      latches := by rw [mail.latches, leftLatches, work.latches, latches]
      backlog := by rw [calls, work.backlog, begun, backlog]
      length := by rw [calls, work.length, begun, length]
      here := by rw [context_of_calls calls, context_acceptTold hc]
      others := fun d hd => by rw [context_of_calls calls, work.others d hd, context_acceptBegun hc, if_neg hd]
      roster := by rw [mail.roster, leftRoster, work.roster, roster]
      engaged := engaged
      paged := paged
      images := images
      slots := by rw [mail.area, leftArea, area, slots]
      keys := fun x hx => by
        rw [keys] at hx
        exact keysB ▸ work.keys hx
      pages := fun ok j current kind is => by
        rw [keys]
        exact pages ok j current kind is }

end Sys2Proof.Machine

/-! # Proofs: a taken ACCEPT in other calls (R67), and the obligation on its decision -/

namespace Sys2Proof.Machine

variable {n k m c d : Nat} {s t u : State}

/-! ## The calls that lose the member (R67) -/

theorem isCurrent_of_contact {k : Context} {e : Contact} (h : k.contact m = some e) (current : e.current = true) :
    k.isCurrent m = true :=
  List.any_eq_true.2 ⟨e, List.mem_of_find?_eq_some h, by simpa [current] using List.find?_some h⟩

theorem mem_currentContexts : d ∈ currentContexts s c m
    ↔ d < 65 ∧ d ≠ c ∧ ∃ e, (context s d).contact m = some e ∧ e.current = true ∧ e.breakIn = false := by
  simp [currentContexts, Option.any_eq_true]

theorem nodup_currentContexts (s : State) (c m : Nat) : (currentContexts s c m).Nodup := List.nodup_range.filter _

theorem isCurrent_of_mem_currentContexts (h : d ∈ currentContexts s c m) : (context s d).isCurrent m = true := by
  obtain ⟨-, -, e, contact, current, -⟩ := mem_currentContexts.1 h
  exact isCurrent_of_contact contact current

/-- The contexts after a taken ACCEPT's part in other calls. -/
theorem context_acceptElsewhere (c m d : Nat) (previous : Option Nat) (s : State) :
    context (acceptElsewhere c m previous s).1 d
      = if d ∈ currentContexts s c m then (context s d).markTaken m else context s d :=
  (markStep_acceptElsewhere m).context_foldl (nodup_currentContexts s c m) (fun _ => isCurrent_of_mem_currentContexts) d

theorem context_acceptElsewhere_own (c m : Nat) (previous : Option Nat) (s : State) :
    context (acceptElsewhere c m previous s).1 c = context s c := by
  rw [context_acceptElsewhere, if_neg fun h => (mem_currentContexts.1 h).2.1 rfl]

/-- What the other calls' losses leave, and that each has its CANCEL (R67). -/
theorem acceptElsewhere_loses (c m : Nat) (previous : Option Nat) (s : State) :
    Loses (currentContexts s c m).length m s (acceptElsewhere c m previous s).1
    ∧ (hasRoom s (currentContexts s c m).length → ∀ d ∈ currentContexts s c m,
      isTold (acceptElsewhere c m previous s).1 s.roster.tables .cancel (context s d).tag m) := by
  have all : (currentContexts s c m).countP (fun d => (context s d).isCurrent m) = (currentContexts s c m).length :=
    List.countP_eq_length.2 fun _ => isCurrent_of_mem_currentContexts
  obtain ⟨loses, told⟩ := (markStep_acceptElsewhere m).loses_foldl (s := s) (nodup_currentContexts s c m)
    fun _ => isCurrent_of_mem_currentContexts
  rw [all] at loses told
  exact ⟨loses, fun room d hd => told room d hd (isCurrent_of_mem_currentContexts hd)⟩

theorem mem_acceptElsewhere (c m : Nat) (previous : Option Nat) (s : State) :
    (∀ d n, Task.lostMark d n ∈ (acceptElsewhere c m previous s).2 ↔ d ∈ currentContexts s c m ∧ n = m)
    ∧ (∀ d p, Task.breakInTaken d p ∈ (acceptElsewhere c m previous s).2 ↔ d = c ∧ previous = some p) := by
  constructor
  · intro d n
    cases previous <;> simp [acceptElsewhere, eq_comm]
  · intro d p
    cases previous <;> simp [acceptElsewhere, eq_comm]

/-! ## The entry of a member who had none (R107) -/

theorem contact_eq_none {k : Context} : k.contact m = none ↔ ∀ e ∈ k.contacted, e.member ≠ m := by
  simp [Context.contact, List.find?_eq_none]

/-- The entry that an ACCEPT makes for a member without one. -/
theorem contact_ensureContact_of_none {k : Context} (none : k.contact m = .none) :
    (k.ensureContact m).contact m = some (Contact.blank m k.rung k.pass) := by
  have last (l : List Contact) (other : ∀ e ∈ l, e.member ≠ m) :
      (l ++ [Contact.blank m k.rung k.pass]).find? (·.member == m) = some (Contact.blank m k.rung k.pass) := by
    rw [List.find?_append, List.find?_eq_none.2 (by simpa using other)]
    simp [Contact.blank]
  have entries := contact_eq_none.1 none
  rw [Context.ensureContact, if_neg (by simp [none])]
  unfold Context.addContact
  split
  · exact last _ entries
  · split
    · exact last _ fun e he => entries e ((List.eraseIdx_sublist _ _).mem he)
    · exact last _ entries

/-- A member's entry after the marks are lost and the CANCELs sent. -/
theorem contact_acceptedContext (s : State) (c m j : Nat) : (acceptedContext s c m).contact j
    = (((context s c).ensureContact m).contact j).map fun e =>
      let x := if (context s c).isCurrent e.member then e.unmarked else e
      if e.member ∈ ((context s c).ensureContact m).untold (some m) then x.told else x := by
  have list : (acceptedContext s c m).contacted = ((context s c).ensureContact m).contacted.map fun e =>
      let x := if (context s c).isCurrent e.member then e.unmarked else e
      if e.member ∈ ((context s c).ensureContact m).untold (some m) then x.told else x := by
    rw [acceptedContext, Context.toldAll, Context.allUnmarked]
    simp only [isCurrent_acceptingContext, List.map_map]
    rw [acceptingContext, Context.contacted_accepting]
    refine List.map_congr_left fun e _ => ?_
    by_cases current : (context s c).isCurrent e.member = true
    · simp only [Function.comp_apply, if_pos current]
      rfl
    · simp only [Function.comp_apply, if_neg current]
  rw [Context.contact, list, List.find?_map, Context.contact]
  congr 2
  funext e
  simp only [Function.comp_apply]
  split <;> split <;> rfl

theorem contact_acceptedContext_of_none (none : (context s c).contact m = .none) :
    (acceptedContext s c m).contact m = some (Contact.blank m (context s c).rung (context s c).pass) := by
  have idle : (context s c).isCurrent m = false := by
    refine List.any_eq_false.2 fun e he => ?_
    simp [contact_eq_none.1 none e he]
  have own : m ∉ ((context s c).ensureContact m).untold (some m) := fun h => (Context.mem_untold.1 h).1 rfl
  rw [contact_acceptedContext, contact_ensureContact_of_none none, Option.map_some]
  simp [Contact.blank, idle, own]

/-! ## The obligation -/

theorem dropBreakIn_contact {e : Contact} (low : c < 65) (other : ∀ tag, (member s m).engaged = some tag → tag % 128 ≠ c)
    (contact : (context s c).contact m = some e) (marked : e.breakIn = true) :
    (context (dropBreakIn m s).1 c).contact m = some { e with
      breakIn := false, current := false, remind := if (context s c).isCurrent m then .stopped else e.remind
      cancelled := e.cancelled || (context s c).isCurrent m } := by
  have here := (markStep_dropBreakIn m).context_foldl (s := s) (nodup_brokenInto m s) (fun _ _ => trivial) c
  rw [if_pos (mem_brokenInto.2 ⟨low, other, e, contact, marked⟩)] at here
  rw [dropBreakIn_eq, here]
  exact contact_breakInDropped contact

theorem requestRaise_one {slot : Nat} (at' : contextOfSlot s slot = some c) (accepter : (context s c).accepter = some m)
    (low : 1 < (context s c).severity) : (requestRaise slot 1 s).2 = [.dropBreakIn m] := by
  have there : contextOfSlot (setResult slot .done s) slot = some c := at'
  have same : context (setResult slot .done s) c = context s c := rfl
  have not : ¬((1 : Nat) = 0 ∨ (context s c).severity ≤ 1) := by omega
  have present : presentSeverity s slot = some (context s c).severity := by rw [presentSeverity, at']
  unfold requestRaise
  rw [present]
  dsimp only
  rw [if_neg not, there]
  dsimp only
  rw [same, accepter]
  rfl

/-- Settles O53: the rows by `decideAccept_iff`, the answers case by case, and the losses by one fold over the calls that hold the member
with the break-in mark. -/
theorem acceptIsDecidedByTheFirstRow : Obligations.AcceptIsDecidedByTheFirstRow := by
  unfold Obligations.AcceptIsDecidedByTheFirstRow
  refine ⟨fun s c m => ?_, fun s m => ⟨fun c e low other contact marked => dropBreakIn_contact low other contact marked,
    fun lost nodup are => ?_, fun c accepter accepted => ⟨?_, fun l address z target => ?_⟩,
    fun slot c at' accepter low => requestRaise_one at' accepter low⟩⟩
  · obtain ⟨repeated, taken, onSite, offDuty, busy, takes⟩ := decideAccept_iff s c m
    rw [breakInTest_iff] at busy takes
    have answer (cause : StandCause) (is : decideAccept s c m = .refused cause) := answerAccept_refused is
    refine ⟨repeated, taken, onSite, offDuty, busy, takes, fun f keeps => decideAccept_modContact keeps, answerAccept_repeated,
      ?_, ?_, ?_, ?_, fun cause is => ?_, fun is hc => ⟨?_, fun none => ?_⟩⟩
    iterate 4 exact fun is => by rw [answer _ is, standDown_eq]; rfl
    · rw [answer cause is, calls_standDown]
    · rw [answerAccept_taken is, context_acceptElsewhere_own, (takesAccept hc m).here]
      exact (congrArg Context.accepter (unlisted_acceptedContext s c m) :)
    · have idle : (context s c).isCurrent m = false :=
        List.any_eq_false.2 fun e he => by simp [contact_eq_none.1 none e he]
      have paged := (takesAccept hc m).paged m
      rw [idle, if_neg Bool.false_ne_true, Nat.sub_zero] at paged
      rw [(takesAccept hc m).here]
      exact ⟨contact_acceptedContext_of_none none, paged⟩
  · obtain ⟨tests, paged, told⟩ := dropBreakIn_lost (lost_perm nodup are)
    exact ⟨tests, paged, fun writing clear room => told ⟨writing, clear, room⟩⟩
  · unfold answerArrived
    rw [if_pos ⟨accepted, accepter⟩]
    rfl
  · unfold pressAttend
    rw [target]
    dsimp only
    rw [if_pos accepted, accepter]
    rfl

end Sys2Proof.Machine

/-! # Proofs: the whole of a taken ACCEPT (R108, R67), and a break-in that is taken (R109) -/

namespace Sys2Proof.Machine

variable {n k m c d : Nat} {s t u : State}

/-! ## The accepter's call -/

/-- Of a list without doubles, the members whose entries are neither declined nor cancelled are known by their entries. -/
theorem Context.mem_untold_of_nodup {k : Context} {j : Nat} {e : Contact} {but : Option Nat} (nodup : (k.contacted.map (·.member)).Nodup)
    (contact : k.contact j = some e) : j ∈ k.untold but ↔ some j ≠ but ∧ e.declined = false ∧ e.cancelled = false := by
  have own : e.member = j := by simpa using List.find?_some contact
  have mem := List.mem_of_find?_eq_some contact
  rw [Context.mem_untold]
  refine and_congr_right fun _ => ⟨?_, fun h => ⟨e, mem, own, h⟩⟩
  rintro ⟨x, hx, same, marks⟩
  rwa [← List.inj_on_of_nodup_map nodup hx mem (same.trans own.symm)]

theorem Context.isCurrent_of_nodup {k : Context} {j : Nat} {e : Contact} (nodup : (k.contacted.map (·.member)).Nodup)
    (contact : k.contact j = some e) : k.isCurrent j = e.current := by
  have own : e.member = j := by simpa using List.find?_some contact
  have mem := List.mem_of_find?_eq_some contact
  refine Bool.eq_iff_iff.2 ⟨fun is => ?_, isCurrent_of_contact contact⟩
  obtain ⟨x, hx, marks⟩ := List.any_eq_true.1 is
  simp only [Bool.and_eq_true, beq_iff_eq] at marks
  rw [← List.inj_on_of_nodup_map nodup hx mem (marks.1.trans own.symm)]
  exact marks.2

theorem Contact.unmarked_ite (e : Contact) : (if e.current = true then e.unmarked else e)
    = { e with current := false, remind := if e.current then .stopped else e.remind } := by
  cases current : e.current with
  | true => rfl
  | false =>
    rw [if_neg Bool.false_ne_true, if_neg Bool.false_ne_true, ← current]

/-- The entries of an accepted call: none is current, and all but the accepter's and the declined ones are cancelled (R108). -/
theorem contact_acceptedContext_of_nodup {j : Nat} {e : Contact} (nodup : ((context s c).contacted.map (·.member)).Nodup)
    (has : ((context s c).contact m).isSome = true) (contact : (context s c).contact j = some e) :
    (acceptedContext s c m).contact j = some { e with
      current := false, remind := if e.current then .stopped else e.remind
      cancelled := e.cancelled || (j != m && !e.declined) } := by
  obtain rfl : e.member = j := by simpa using List.find?_some contact
  have same : (context s c).ensureContact m = context s c := if_pos has
  have untold := Context.mem_untold_of_nodup (but := some m) nodup contact
  rw [contact_acceptedContext, same, contact, Option.map_some, Context.isCurrent_of_nodup nodup contact, Contact.unmarked_ite]
  by_cases told : e.member ∈ (context s c).untold (some m)
  · obtain ⟨other, declined, cancelled⟩ := untold.1 told
    have other : e.member ≠ m := fun same => other (congrArg some same)
    simp [told, Contact.told, declined, other]
  · have kept : (e.cancelled || (e.member != m && !e.declined)) = e.cancelled := by
      cases cancelled : e.cancelled with
      | true => rfl
      | false =>
        by_contra is
        simp only [Bool.false_or, Bool.not_eq_false, Bool.and_eq_true, bne_iff_ne, Bool.not_eq_true'] at is
        exact told (untold.2 ⟨fun same => is.1 (Option.some.inj same), is.2, cancelled⟩)
    rw [if_neg told, kept]

/-- The slot of an accepted call (R2, R108). -/
theorem TakesAccept.shown {i : Nat} (takes : TakesAccept c m s t) (slot : (context s c).slot = some i) (inside : i < s.area.slots.length) :
    (slotImage t i).state = .accepted ∧ (slotImage t i).accepter = some m ∧ (slotImage t i).acceptTick = s.tickCount := by
  have fields := unlisted_acceptingContext s c m
  rw [takes.images i slot inside, SlotImage.change_eq]
  generalize acceptingContext s c m = k at fields ⊢
  simp only [Context.unlisted, Context.mk.injEq] at fields
  simp only [SlotImage.shown, fields, CallState.toSlot, and_self]

/-! ## The other calls -/

/-- The calls that hold a member without the break-in mark are told by the contexts. -/
theorem currentContexts_congr (others : ∀ d, d ≠ c → context t d = context s d) : currentContexts t c m = currentContexts s c m := by
  refine List.filter_congr fun d _ => ?_
  by_cases same : d = c
  · simp [same]
  · rw [others d same]

/-- The other calls after a taken ACCEPT (R67). -/
theorem TakesAccept.elsewhere (takes : TakesAccept c m s u) (previous : Option Nat) :
    let t := (acceptElsewhere c m previous u).1
    context t c = acceptedContext s c m
    ∧ (∀ d, d ≠ c → context t d = if d ∈ currentContexts s c m then (context s d).markTaken m else context s d)
    ∧ Loses (currentContexts s c m).length m u t
    ∧ (hasRoom u (currentContexts s c m).length → ∀ d ∈ currentContexts s c m,
      isTold t u.roster.tables .cancel (context s d).tag m) := by
  have same := currentContexts_congr (m := m) takes.others
  obtain ⟨loses, told⟩ := acceptElsewhere_loses c m previous u
  rw [same] at loses told
  refine ⟨(context_acceptElsewhere_own c m previous u).trans takes.here, fun d other => ?_, loses, fun room d hd => ?_⟩
  · rw [context_acceptElsewhere, same, takes.others d other]
  · have := told room d hd
    rwa [takes.others d (mem_currentContexts.1 hd).2.1] at this

/-- Each CANCEL and the CONFIRM of a taken ACCEPT, and its record. -/
theorem TellsAccept.all {l : List Nat} (tells : TellsAccept c m s u) (loses : Loses l.length m u t)
    (told : hasRoom u l.length → ∀ d ∈ l, isTold t u.roster.tables .cancel (context s d).tag m)
    (room : hasRoom s ((context s c).contacted.length + l.length + 2)) :
    isQueuedOrDropped t .confirm (context s c).tag m (effectivePager s.roster.tables m)
    ∧ (∀ j ∈ ((context s c).ensureContact m).untold (some m),
      isQueuedOrDropped t .cancel (context s c).tag j (effectivePager s.roster.tables j))
    ∧ (∀ d ∈ l, isQueuedOrDropped t .cancel (context s d).tag m (effectivePager s.roster.tables m))
    ∧ { acceptedRecord s c m with tick := s.tickCount } ∈ t.journal.pending := by
  have own : hasRoom s ((context s c).contacted.length + 2) := hasRoom_of_le room (by omega)
  have left : hasRoom u l.length := tells.sends.logs.hasRoom (hasRoom_of_le room (by omega))
  have kept := loses.sends.kept left
  rw [tells.sends.tables] at kept told
  obtain ⟨before, pending⟩ := tells.record own
  refine ⟨isQueuedOrDropped_of_told (kept _ _ _ (tells.confirms own)),
    fun j hj => isQueuedOrDropped_of_told (kept _ _ _ (tells.cancels own j hj)),
    fun d hd => isQueuedOrDropped_of_told (told left d hd), loses.sends.logs.mem ?_⟩
  rw [pending]
  exact List.mem_append_right _ List.mem_cons_self

/-- Where no record is of a member's page or REMIND, each of the member's is an ARRIVAL CHECK. -/
theorem kind_eq_arrivalCheck {tag : Nat} (pages : ∀ kind ∈ [DeliveryKind.page, .remind],
    ({ tag := tag, member := m, kind := kind } : RecordKey) ∉ keysOf t) {w : Delivery} (mem : w ∈ t.dispatcher.records)
    (own : w.key.tag = tag) (who : w.key.member = m) : w.key.kind = .arrivalCheck := by
  have is : w.key ∈ keysOf t := List.mem_map_of_mem mem
  have listed (kind : DeliveryKind) (not : kind ≠ .arrivalCheck) : kind ∈ [DeliveryKind.page, .remind] := by
    cases kind with
    | arrivalCheck => exact absurd rfl not
    | page | remind => simp
  subst own who
  by_contra kind
  exact pages _ (listed _ kind) is

/-- A member who was current in an accepted call has no record of a page or a REMIND left. -/
theorem TakesAccept.checks_only (takes : TakesAccept c m s u) (ok : s.dispatcher.ok) (fewer : keysOf t ⊆ keysOf u) {w : Delivery}
    (mem : w ∈ t.dispatcher.records) (tag : w.key.tag = (context s c).tag) (current : (context s c).isCurrent w.key.member = true) :
    w.key.kind = .arrivalCheck :=
  kind_eq_arrivalCheck (fun kind is h => takes.pages ok w.key.member current kind is (fewer h)) mem tag rfl

end Sys2Proof.Machine

/-! # Proofs: a reopening, of every cause (R44, R45) -/

namespace Sys2Proof.Machine

variable {c m d : Nat} {s t u : State} {cause : ReopenCause}

/-- What a slot image shows leaves everything else. -/
theorem showContext_keeps (c : Nat) (s : State) : (showContext c s).calls = s.calls ∧ (showContext c s).roster = s.roster
    ∧ (showContext c s).attention = s.attention ∧ (showContext c s).dispatcher = s.dispatcher
    ∧ (showContext c s).journal = s.journal ∧ (showContext c s).tickCount = s.tickCount
    ∧ (showContext c s).area.memoryFault = s.area.memoryFault := by
  obtain ⟨shape, -⟩ := showContext_shape c s
  generalize showContext c s = v at *
  rw [shape]
  exact ⟨rfl, rfl, rfl, rfl, rfl, rfl, rfl⟩

/-! ## A change of a call that ends its ARRIVAL CHECK -/

/-- The record of the ARRIVAL CHECK of a call to its accepter. -/
def checkKey (k : Context) (m : Nat) : RecordKey := { tag := k.tag, member := m, kind := .arrivalCheck }

/-- A call that is changed and shown once its ARRIVAL CHECK is withdrawn, with a change `g` of the registry between. -/
def checkEnded (c m : Nat) (f : Context → Context) (g : State → State) (s : State) : State :=
  showContext c (modContext c f (g (withdrawKey (checkKey (context s c) m) s)))

/-- What such a change leaves. -/
structure CheckEnds (c m : Nat) (f : Context → Context) (s t : State) : Prop where
  here : context t c = f (context s c)
  others : ∀ d, d ≠ c → context t d = context s d
  gone : s.dispatcher.ok → checkKey (context s c) m ∉ keysOf t
  image : ∀ i, (f (context s c)).slot = some i → i < s.area.slots.length →
    slotImage t i = SlotImage.change (SlotImage.shown (f (context s c))) (slotImage s i)
  attention : t.attention = s.attention
  tickCount : t.tickCount = s.tickCount
  logs : Logs 0 s t

theorem checkEnds (hc : c < s.calls.contexts.length) (m : Nat) (f : Context → Context) {g : State → State}
    (registry : ∀ u, g u = { u with roster := (g u).roster }) : CheckEnds c m f s (checkEnded c m f g s)
    ∧ (checkEnded c m f g s).roster = (g (withdrawKey (checkKey (context s c) m) s)).roster := by
  let drawn := withdrawKey (checkKey (context s c) m) s
  have mail : Mail s drawn := mail_withdrawKey (.refl s) _
  have logs : Logs 0 s drawn := (withdraws_withdrawKey _ s).logs
  have free (ok : s.dispatcher.ok) : checkKey (context s c) m ∉ keysOf drawn := by
    intro mem
    obtain ⟨w, mem, key⟩ := List.mem_map.1 mem
    exact withdrawKey_free _ ok w mem key
  have is : checkEnded c m f g s = showContext c (modContext c f (g drawn)) := rfl
  have same : (g drawn).calls = drawn.calls ∧ (g drawn).area = drawn.area ∧ (g drawn).attention = drawn.attention
      ∧ (g drawn).dispatcher = drawn.dispatcher ∧ (g drawn).journal = drawn.journal ∧ (g drawn).tickCount = drawn.tickCount := by
    rw [registry drawn]
    exact ⟨rfl, rfl, rfl, rfl, rfl, rfl⟩
  have named : (g drawn).roster = (g (withdrawKey (checkKey (context s c) m) s)).roster := rfl
  generalize drawn = v at *
  generalize g v = w at *
  obtain ⟨calls', area', attention', dispatcher', journal', tickCount'⟩ := same
  obtain ⟨calls, roster, attention, dispatcher, journal, tickCount, fault⟩ := showContext_keeps c (modContext c f w)
  have was (d : Nat) : context w d = context s d := by rw [context_of_calls calls', mail.context]
  have here : context (modContext c f w) c = f (context s c) := by
    rw [context_modContext_same _ (by rw [calls', mail.calls]; exact hc), was]
  rw [is]
  refine ⟨⟨?_, fun d other => ?_, fun ok => ?_, fun i slot inside => ?_, ?_, ?_, ?_⟩, roster.trans named⟩
  · rw [context_of_calls calls, here]
  · rw [context_of_calls calls, context_modContext_ne other, was]
  · rw [keysOf, dispatcher, modContext_dispatcher, dispatcher']
    exact free ok
  · rw [showContext_some (by rw [here]; exact slot),
      slotImage_modSlot_same (by rw [modContext_area, area', mail.area]; exact inside), here]
    refine congrArg _ ?_
    rw [slotImage_modContext, slotImage, area']
    exact mail.slotImage i
  · rw [attention, modContext_attention, attention', mail.attention]
  · rw [tickCount, modContext_tickCount, tickCount', mail.tickCount]
  · refine logs.trans (n := 0) (k := 0) (.of_same ?_ ?_)
    · rw [journal, modContext_journal, journal']
    · rw [fault, modContext_area, area']

/-! ## The reopening -/

/-- The accepter of a call that is reopened is released, unless a break-in has taken them (R44, R69). -/
def freedBy (m : Nat) (cause : ReopenCause) (s : State) : State := if cause = .breakIn then s else release m s

/-- A call that is reopened, before the accepter's entry is marked. -/
@[irreducible] def reopenOpened (c m : Nat) (cause : ReopenCause) (s : State) : State :=
  checkEnded c m Context.reopened (freedBy m cause) (arrivalOver c s)

/-- The record of a reopening (R44). -/
def reopenCauseRecord (cause : ReopenCause) (k : Context) : JournalRecord :=
  { callRecord .reopened k with detail1 := cause.code, detail2 := k.acceptRung }

theorem reopen_eq_moveOn (accepted : (context s c).state = .accepted) (accepter : (context s c).accepter = some m) (cause : ReopenCause) :
    let v := markReopened c m cause (reopenOpened c m cause s)
    reopen c cause s = moveOn c (context v c).acceptRung (submit (reopenCauseRecord cause (context v c)) v) := by
  unfold reopen
  rw [accepted, accepter]
  unfold reopenOpened
  rfl

theorem moveOn_eq (c rung : Nat) (s : State) : moveOn c rung s
    = (s, [if rung < (callLadder s (context s c)).effectiveLast then .enterRung c (rung + 1) else .pastLast c]) := by
  unfold moveOn
  split <;> rfl

/-- A reopened call, but for the mark of the accepter's entry. -/
def Context.reopening (k : Context) : Context := ({ k with arrival := .stopped } : Context).reopened

/-- What a reopened call, its registry and its records are, before the accepter's entry is marked. -/
structure Opens (c m : Nat) (cause : ReopenCause) (s t : State) : Prop where
  ends : CheckEnds c m (fun k => k.reopening) s t
  tables : t.roster.tables = s.roster.tables
  kept : cause = .breakIn → t.roster = s.roster
  freed : cause ≠ .breakIn → (member t m).engaged = none

theorem opens (hc : c < s.calls.contexts.length) (m : Nat) (cause : ReopenCause) : Opens c m cause s (reopenOpened c m cause s) := by
  have stops := context_arrivalOver hc
  have registry (u : State) : freedBy m cause u = { u with roster := (freedBy m cause u).roster } := by
    unfold freedBy
    split <;> rfl
  obtain ⟨ends, roster⟩ := checkEnds (s := arrivalOver c s) (by rw [arrivalOver, length_modContext]; exact hc) m Context.reopened
    registry
  have mail : Mail (arrivalOver c s) (withdrawKey (checkKey (context (arrivalOver c s) c) m) (arrivalOver c s)) :=
    mail_withdrawKey (.refl _) _
  rw [reopenOpened]
  generalize checkEnded c m Context.reopened (freedBy m cause) (arrivalOver c s) = t at *
  generalize withdrawKey (checkKey (context (arrivalOver c s) c) m) (arrivalOver c s) = v at *
  obtain ⟨here, others, gone, image, attention, tickCount, logs⟩ := ends
  rw [stops] at here gone image
  refine ⟨⟨here, fun d other => ?_, gone, image, attention, tickCount, logs⟩, ?_, fun is => ?_, fun not => ?_⟩
  · rw [others d other, arrivalOver, context_modContext_ne other]
  · rw [roster, freedBy]
    split
    · rw [mail.roster]; rfl
    · exact (congrArg RosterStore.tables mail.roster :)
  · rw [roster, freedBy, if_pos is, mail.roster]
    rfl
  · rw [member, roster, freedBy, if_neg not]
    exact (member_release m v).1

/-- The former accepter's entry, by the cause of the reopening (R45). -/
def ReopenCause.marks : ReopenCause → Contact → Contact
  | .decline => fun e => { e with declined := true }
  | .secondArrivalWindow => fun e => { e with unreached := true, cancelled := true }
  | .breakIn => fun e => { e with cancelled := true }

theorem ReopenCause.marks_member (cause : ReopenCause) (e : Contact) : (cause.marks e).member = e.member := by
  cases cause <;> rfl

/-- The records that the CANCEL of a reopening may submit (R45, R99). -/
def ReopenCause.drops (cause : ReopenCause) : Nat := if cause = .decline then 0 else 1

/-- What the mark of the former accepter's entry, with its CANCEL, leaves (R45). -/
structure MarksReopened (c m : Nat) (cause : ReopenCause) (s t : State) : Prop where
  here : context t c = (context s c).modContact m cause.marks
  others : ∀ d, d ≠ c → context t d = context s d
  roster : t.roster = s.roster
  area : t.area = s.area
  attention : t.attention = s.attention
  tickCount : t.tickCount = s.tickCount
  keys : keysOf t = keysOf s
  sends : Sends cause.drops s t
  told : cause ≠ .decline → hasRoom s 1 → isTold t s.roster.tables .cancel (context s c).tag m

/-- A CANCEL to a member whose entry has been changed. -/
theorem marksReopened_cancel (f : Contact → Contact) (keeps : ∀ e, (f e).member = e.member) (is : ∀ e, cause.marks e = (f e).told)
    (not : cause ≠ .decline) : MarksReopened c m cause s (cancelMember c m (modContext c (Context.modContact m f) s)) := by
  have work := callWork_cancelMember c m (modContext c (Context.modContact m f) s)
  have marked : Context.modContact m cause.marks (context s c) = ((context s c).modContact m f).modContact m Contact.told := by
    rw [Context.modContact_modContact _ _ _ keeps, show cause.marks = _ from funext is]
  refine ⟨?_, fun d other => ?_, roster_cancelMember c m _, area_cancelMember c m _, work.attention, work.tickCount,
    keysOf_cancelMember c m _, ?_, fun _ room => ?_⟩
  · rw [context_cancelMember, if_pos rfl, context_modContact, if_pos rfl, marked]
  · rw [work.others d other, context_modContext_ne other]
  · have note : Sends 0 s (modContext c (Context.modContact m f) s) := sends_of_same rfl rfl rfl rfl rfl
    rw [ReopenCause.drops, if_neg not]
    exact (note.trans (sends_cancelMember c m _)).mono (by omega)
  · have told := isTold_cancelMember (s := modContext c (Context.modContact m f) s) room c m
    rwa [(tag_modContact c m f s).1] at told

theorem marksReopened (c m : Nat) (cause : ReopenCause) (s : State) : MarksReopened c m cause s (markReopened c m cause s) := by
  cases cause with
  | decline =>
    refine ⟨by rw [markReopened, context_modContact, if_pos rfl]; rfl, fun d other => context_modContext_ne other _ s, rfl, rfl, rfl, rfl,
      rfl, sends_of_same rfl rfl rfl rfl rfl, fun not => absurd rfl not⟩
  | secondArrivalWindow =>
    exact marksReopened_cancel (fun e => { e with unreached := true }) (fun _ => rfl) (fun _ => rfl) (by simp)
  | breakIn =>
    have same : modContext c (Context.modContact m id) s = s := by
      have kept : Context.modContact m id = id := funext fun k => by simp [Context.modContact]
      simp [modContext, State.modCalls, kept]
    have cancelled := marksReopened_cancel (s := s) (c := c) (m := m) (cause := .breakIn) id (fun _ => rfl) (fun _ => rfl) (by simp)
    rwa [same] at cancelled

theorem contact_reopening {e : Contact} {k : Context} (contact : k.contact m = some e) (cause : ReopenCause) :
    (k.reopening.modContact m cause.marks).contact m = some (cause.marks e) := by
  have own : e.member = m := by simpa using List.find?_some contact
  have same : k.reopening.contact m = some e := contact
  rw [contact_modContact _ m m cause.marks_member, same, Option.map_some, if_pos own]

/-- What a reopening leaves (R44, R45). -/
structure ReopensBy (c m : Nat) (cause : ReopenCause) (s t : State) : Prop where
  here : context t c = (context s c).reopening.modContact m cause.marks
  others : ∀ d, d ≠ c → context t d = context s d
  attention : t.attention = s.attention
  tables : t.roster.tables = s.roster.tables
  kept : cause = .breakIn → t.roster = s.roster
  freed : cause ≠ .breakIn → (member t m).engaged = none
  gone : s.dispatcher.ok → checkKey (context s c) m ∉ keysOf t
  image : ∀ i, (context s c).slot = some i → i < s.area.slots.length →
    slotImage t i = SlotImage.change (SlotImage.shown (context s c).reopening) (slotImage s i)
  record : hasRoom s 2 → ∃ before, t.journal.pending
      = s.journal.pending ++ before ++ [{ reopenCauseRecord cause (context s c) with tick := s.tickCount }]
    ∧ before.length ≤ cause.drops
  told : cause ≠ .decline → hasRoom s 2 → isTold t s.roster.tables .cancel (context s c).tag m

theorem reopensBy (accepted : (context s c).state = .accepted) (accepter : (context s c).accepter = some m) (cause : ReopenCause) :
    ReopensBy c m cause s (reopen c cause s).1 := by
  obtain ⟨⟨here, others, gone, image, attention, tickCount, logs⟩, tables, kept, freed⟩ := opens (lt_of_accepter accepter) m cause
  have marks := marksReopened c m cause (reopenOpened c m cause s)
  rw [reopen_eq_moveOn accepted accepter, moveOn_eq]
  generalize reopenOpened c m cause s = u at *
  generalize markReopened c m cause u = v at *
  have few : cause.drops ≤ 1 := by unfold ReopenCause.drops; split <;> omega
  have final : context v c = (context s c).reopening.modContact m cause.marks := by rw [marks.here, here]
  have record : reopenCauseRecord cause (context v c) = reopenCauseRecord cause (context s c) := by rw [final]; rfl
  have mail : Mail v (submit (reopenCauseRecord cause (context v c)) v) := mail_submit (.refl v) _
  have room (h : hasRoom s 2) : hasRoom u 2 := logs.hasRoom (n := 0) (by rwa [Nat.zero_add])
  have left (h : hasRoom s 2) : hasRoom v 1 := marks.sends.logs.hasRoom (hasRoom_of_le (room h) (by omega))
  refine ⟨by rw [mail.context, final], fun d other => by rw [mail.context, marks.others d other, others d other],
    by rw [mail.attention, marks.attention, attention], by rw [mail.roster, marks.roster, tables],
    fun is => by rw [mail.roster, marks.roster, kept is], fun not => ?_, fun ok => ?_, fun i slot inside => ?_, fun h => ?_,
    fun not h => ?_⟩
  · rw [mail.member, member, marks.roster]
    exact freed not
  · rw [keysOf, submit_dispatcher, ← keysOf, marks.keys]
    exact gone ok
  · rw [mail.slotImage, show slotImage v i = slotImage u i by rw [slotImage, slotImage, marks.area]]
    exact image i slot inside
  · obtain ⟨-, -, before, pending, length⟩ := marks.sends.logs
    refine ⟨before, ?_, length⟩
    rw [submit_pending (left h), pending, logs.pending_of_zero, record, marks.tickCount, tickCount]
  · have sent := marks.told not (hasRoom_of_le (room h) (by omega))
    have later := (sends_submit (reopenCauseRecord cause (context v c)) v).kept (left h) .cancel (context s c).tag m
    rw [marks.roster, tables] at later
    rw [here, tables] at sent
    exact later sent

/-- The ladder of a reopened call goes on from its accept rung. -/
theorem reopen_tasks (accepted : (context s c).state = .accepted) (accepter : (context s c).accepter = some m) (cause : ReopenCause) :
    (reopen c cause s).2 = [if (context s c).acceptRung < (callLadder s (context s c)).effectiveLast
      then .enterRung c ((context s c).acceptRung + 1) else .pastLast c] := by
  obtain ⟨here, -, -, tables, -⟩ := reopensBy accepted accepter cause
  rw [reopen_eq_moveOn accepted accepter, moveOn_eq] at here tables ⊢
  dsimp only at here tables ⊢
  generalize markReopened c m cause (reopenOpened c m cause s) = v at *
  rw [callLadder, tables, (mail_submit (.refl v) _).context]
  rw [(mail_submit (.refl v) _).context] at here
  rw [here]
  rfl

/-! ## A break-in that is taken (R109) -/

theorem breakInTaken_fst (c p : Nat) (s : State) : (breakInTaken c p s).1
    = submit { callRecord .breakIn (context s c) with member := (context s c).accepter, detail1 := p } s := rfl

/-- The previous call reopens if it is still the accepter's. -/
theorem breakInTaken_snd {p : Nat} (live : tagLive s p = true) (same : (context s (p % 128)).accepter = (context s c).accepter) :
    (breakInTaken c p s).2 = [.reopen (p % 128) .breakIn] := by
  have mail := mail_submit (.refl s) { callRecord .breakIn (context s c) with member := (context s c).accepter, detail1 := p }
  unfold breakInTaken
  dsimp only
  rw [mail.tagLive, mail.context, live]
  exact if_pos (by rw [tagContext, same]; simp)

/-! ## The obligation -/

/-- Settles O54: the call's own part (`TakesAccept`, `TellsAccept`) is followed by the losses in the other calls, and a reopening is one
lemma over its causes (`reopen_spec`). -/
theorem takenAcceptMakesTheCallAccepted : Obligations.TakenAcceptMakesTheCallAccepted := by
  unfold Obligations.TakenAcceptMakesTheCallAccepted
  refine ⟨fun s c m hc hm is => ?_, fun s c p => ⟨breakInTaken_fst c p s, breakInTaken_snd⟩,
    fun s c m cause hc ok accepted accepter => ?_⟩
  · intro k r t holds
    have takes := takesAccept hc m
    have tells := tellsAccept hc m
    have result : r = acceptElsewhere c m (member s m).engaged (takeAccept c m s) := answerAccept_taken is
    obtain ⟨here, there, loses, told⟩ := takes.elsewhere (member s m).engaged
    obtain ⟨tests, breaks⟩ := mem_acceptElsewhere c m (member s m).engaged (takeAccept c m s)
    have others := currentContexts_congr (m := m) takes.others
    rw [← result] at here there loses told tests breaks
    rw [others] at tests
    generalize takeAccept c m s = u at takes tells loses told
    have mem (d : Nat) : d ∈ currentContexts s c m ↔ holds d := mem_currentContexts
    have fields := unlisted_acceptedContext s c m
    rw [← here] at fields
    simp only [Context.unlisted, Context.mk.injEq] at fields
    obtain ⟨state, -, -, -, -, -, -, severity, -, tag, rung, pass, deadline, turn, arrival, -, count, -, -, -, -, -, -, -, -, -, accepter,
      acceptRung, -, -, acceptTick, -⟩ := fields
    have shown (i : Nat) : slotImage t i = slotImage u i := by rw [slotImage, slotImage, loses.area]
    have pointers : t.roster.pointers = u.roster.pointers := by rw [loses.roster]
    have moved : u.roster.pointers = (acceptedRoster m (context s c).tag s).pointers := by rw [takes.roster]
    refine ⟨state, accepter, acceptRung, acceptTick, deadline, turn, count, ?_, arrival, rung, pass, tag, severity,
      fun i slot inside => ?_, fun nodup has j e contact => ?_, fun ok w mem own current => ?_, ?_, fun j other => ?_,
      fun j other => ?_, fun l nodup are => ?_, pointers.trans moved, fun l mem is => ?_, loses.backlog.trans takes.backlog,
      fun d is => ?_, fun d other not => ?_, fun d => ?_, breaks, loses.engine.trans takes.engine,
      loses.tickCount.trans takes.tickCount, loses.attention.trans takes.attention⟩
    · rw [here]
      exact currentMembers_eq_nil (isCurrent_acceptedContext s c m)
    · rw [shown]
      exact takes.shown slot inside
    · rw [here]
      exact contact_acceptedContext_of_nodup nodup has contact
    · exact takes.checks_only ok loses.keys mem own current
    · rw [loses.engaged, takes.engaged hm, if_pos rfl]
    · rw [loses.others j other, takes.engaged hm, if_neg other]
    · rw [loses.others j other, takes.paged]
    · have perm : (currentContexts s c m).Perm l :=
        (List.perm_ext_iff_of_nodup (nodup_currentContexts s c m) nodup).2 fun d => (mem d).trans (are d).symm
      have length := perm.length_eq
      refine ⟨by rw [loses.paged, takes.paged, length], fun writing clear free => ?_⟩
      obtain ⟨confirm, cancels, taken, record⟩ := tells.all loses told
        ⟨writing, clear, by rw [length]; show _ + (k.contacted.length + l.length + 2) ≤ 64; omega⟩
      refine ⟨confirm, fun has j e other contact declined cancelled => cancels j ?_, fun d is => taken d ((mem d).2 is), record⟩
      have same : (context s c).ensureContact m = context s c := if_pos has
      have own : e.member = j := by simpa using List.find?_some contact
      rw [same, Context.mem_untold]
      exact ⟨fun is => other (Option.some.inj is), e, List.mem_of_find?_eq_some contact, own, declined, cancelled⟩
    · rw [loses.latches, takes.latches] at mem
      obtain ⟨x, -, rfl⟩ := List.mem_map.1 mem
      simp at is
    · rw [there d is.2.1, if_pos ((mem d).2 is)]
      rfl
    · rw [there d other, if_neg fun h => not ((mem d).1 h)]
    · rw [tests, mem]
      exact ⟨fun h => h.1, fun h => ⟨h, rfl⟩⟩
  · have reopens := reopensBy accepted accepter cause
    intro k t
    have here := reopens.here
    refine ⟨by rw [here]; rfl, by rw [here]; rfl, by rw [here]; rfl, by rw [here]; rfl, by rw [here]; rfl, by rw [here]; rfl,
      fun e contact => ?_, reopens.kept, reopens.freed, ?_, fun i slot inside => ?_, reopens.others, reopens.attention,
      fun writing clear free => ?_, reopen_tasks accepted accepter cause⟩
    · rw [here, contact_reopening contact]
      cases cause <;> rfl
    · rw [← Option.not_isSome_iff_eq_none, deliveryOf_isSome_iff]
      exact reopens.gone ok
    · rw [reopens.image i slot inside, SlotImage.change_eq]
      exact ⟨rfl, rfl, rfl⟩
    · have room : hasRoom s 2 := ⟨writing, clear, free⟩
      obtain ⟨before, pending, few⟩ := reopens.record room
      refine ⟨by rw [pending, List.getLast?_append]; rfl, fun is => ?_, fun not => isQueuedOrDropped_of_told (reopens.told not room)⟩
      rw [ReopenCause.drops, if_pos is, Nat.le_zero, List.length_eq_zero_iff] at few
      rw [pending, few, List.append_nil]
      rfl

end Sys2Proof.Machine

/-! # Proofs: live and stale tags, pager addresses, and the reports before the tag is looked at (R63, R70, R104, R105, R111) -/

namespace Sys2Proof.Machine

variable {tag m c : Nat} {s t u : State}

/-! ## Tags (R105) -/

theorem tagLive_iff (s : State) (tag : Nat) : tagLive s tag = true
    ↔ tag % 128 ≤ 64 ∧ (context s (tag % 128)).state ≠ .free ∧ (context s (tag % 128)).reuse = tag / 128 := by
  rw [tagLive, Bool.and_eq_true, Bool.and_eq_true, decide_eq_true_iff, Context.live, bne_iff_ne, beq_iff_eq, and_assoc]
  rfl

/-- The tag of no call names a context that there is not. -/
theorem tagLive_none (s : State) : tagLive s 0xFFFF = false := by
  rw [← Bool.not_eq_true, tagLive_iff]
  omega

/-- The STAND DOWN on a stale tag (R111). -/
def staleAnswer (s : State) (tag m : Nat) : Message := standDownMessage s tag m .stale

theorem messageUrgency_staleAnswer (stale : tagLive s tag = false) (m : Nat) : messageUrgency s (staleAnswer s tag m) none = 1500 := by
  have same : (staleAnswer s tag m).tag = tag := rfl
  simp only [messageUrgency, same, stale, Bool.false_eq_true, if_false]
  rfl

theorem standDown_stale (stale : tagLive s tag = false) (m : Nat) (kind : ReportKind) : standDown tag m kind .stale s
    = submit { blankRecord .standDownSent with tag := some tag, member := some m, detail1 := kind.code, detail2 := 6 }
      (sendControl (staleAnswer s tag m) none none s) := by
  rw [standDown_eq, tagRecord, if_neg (by simp [stale])]
  rfl

/-- A report of a kind that is answered, on a stale tag. -/
theorem matchTagged_stale (stale : tagLive s tag = false) (l : LineId) (address m : Nat) {kind : ReportKind}
    (answered : kind ∈ [ReportKind.accept, .arrived, .clear]) :
    matchTagged l address tag m kind s = (standDown tag m kind .stale s, []) := by
  simp only [List.mem_cons, List.not_mem_nil, or_false] at answered
  rcases answered with rfl | rfl | rfl <;> simp [matchTagged, stale]

/-! ## Pager addresses (R63, R104) -/

/-- An entry's pager address is its effective one unless a lower-numbered entry has it too. -/
theorem effectivePager_eq_iff (tables : Tables) {pager : Nat} (held : pager ≠ 0) (few : tables.roster.length ≤ 512) (m : Nat) :
    effectivePager tables m = pager
      ↔ ∃ e, tables.roster[m]? = some e ∧ e.pager = pager ∧ ∀ j e', j < m → tables.roster[j]? = some e' → e'.pager ≠ pager := by
  have entry : rosterEntry tables m = tables.roster[m]? := by
    unfold rosterEntry
    split
    · rfl
    · rw [List.getElem?_eq_none (by omega)]
  have shadowed (e : RosterEntry) (is : e.pager ≠ 0) : isShadowed tables m e.pager = true
      ↔ ∃ j e', j < m ∧ tables.roster[j]? = some e' ∧ e'.pager = e.pager := by
    simp only [isShadowed, bne_iff_ne, ne_eq, is, not_false_eq_true, Bool.and_eq_true, true_and, List.any_eq_true,
      List.mem_take_iff_getElem, beq_iff_eq]
    constructor
    · rintro ⟨e', ⟨j, low, rfl⟩, same⟩
      exact ⟨j, _, by omega, List.getElem?_eq_getElem (by omega), same⟩
    · rintro ⟨j, e', low, at', same⟩
      obtain ⟨inside, rfl⟩ := List.getElem?_eq_some_iff.1 at'
      exact ⟨_, ⟨j, by omega, rfl⟩, same⟩
  unfold effectivePager
  rw [entry]
  cases found : tables.roster[m]? with
  | none => simpa using held.symm
  | some e =>
    simp only [Option.some.injEq, exists_eq_left']
    by_cases own : e.pager = pager
    · have is : e.pager ≠ 0 := own ▸ held
      by_cases hidden : isShadowed tables m e.pager = true
      · rw [if_pos hidden]
        obtain ⟨j, e', low, at', same⟩ := (shadowed e is).1 hidden
        exact ⟨fun h => absurd h.symm held, fun h => absurd (same.trans own) (h.2 j e' low at')⟩
      · rw [if_neg hidden]
        refine ⟨fun _ => ⟨own, fun j e' low at' same => hidden ((shadowed e is).2 ⟨j, e', low, at', same.trans own.symm⟩)⟩,
          fun _ => own⟩
    · refine ⟨fun h => ?_, fun h => absurd h.1 own⟩
      split at h
      · exact absurd h.symm held
      · exact absurd h own

/-- The member of a pager address is the one entry whose effective address it is. -/
theorem memberOfPager_eq_some_iff (tables : Tables) {pager : Nat} (held : pager ≠ 0) (few : tables.roster.length ≤ 512) (m : Nat) :
    memberOfPager tables pager = some m ↔ effectivePager tables m = pager := by
  rw [effectivePager_eq_iff tables held few, memberOfPager, if_neg held, List.findIdx?_eq_some_iff_getElem]
  constructor
  · rintro ⟨inside, is, first⟩
    refine ⟨_, List.getElem?_eq_getElem inside, by simpa using is, fun j e' low at' same => first j low ?_⟩
    obtain ⟨_, rfl⟩ := List.getElem?_eq_some_iff.1 at'
    simpa using same
  · rintro ⟨e, at', is, first⟩
    obtain ⟨inside, rfl⟩ := List.getElem?_eq_some_iff.1 at'
    exact ⟨inside, by simpa using is, fun j low => by simpa using first j _ low (List.getElem?_eq_getElem (by omega))⟩

/-! ## Reports (R70, R104) -/

theorem matchReport_unknown {data : List Byte} {kind : ReportKind} (read : readReportKind data = some kind)
    (unknown : memberOfPager s.roster.tables (le24 data 1) = none) (l : LineId) (address : Nat) :
    matchReport l address data s = (submit { blankRecord .unknownPager with
      line := some l, drop := address, callNumber := BitVec.ofNat 32 (le24 data 1), detail1 := kind.code } s, []) := by
  unfold matchReport
  rw [read]
  dsimp only
  rw [unknown]
  rfl

theorem matchReport_known {data : List Byte} {kind : ReportKind} (read : readReportKind data = some kind)
    (known : memberOfPager s.roster.tables (le24 data 1) = some m) {l : LineId} {address : Nat} {d : Drop}
    (drop : drop? s l address = some d) :
    matchReport l address data s = matchTagged l address (le16 data 4) m kind (heard m d.zone s) := by
  unfold matchReport
  rw [read]
  dsimp only
  rw [known, drop]
  rfl

/-- The last-heard zone and tick of a member from whom a report came (R70). -/
theorem member_heard (low : m < s.roster.members.length) (zone : Nat) :
    (∃ b, member (heard m zone s) m = { member s m with
      lastZone := some zone, lastTick := s.tickCount, dirty := b, touched := (member (heard m zone s) m).touched })
    ∧ ∀ j, j ≠ m → member (heard m zone s) j = member s j := by
  unfold heard
  refine ⟨⟨(member (heard m zone s) m).dirty, ?_⟩, fun j other => member_modMember_ne other _ _⟩
  unfold heard
  rw [member_modMember, if_pos ⟨rfl, low⟩]
  exact Member.change_eq _ _

end Sys2Proof.Machine

/-! # Proofs: RECEIPT and DECLINE with a live tag (R93, R106, R112) -/

namespace Sys2Proof.Machine

variable {tag m c d : Nat} {s t u : State}

/-! ## RECEIPT (R93) -/

/-- The record RECEIPT (R93). -/
def receiptRecord (s : State) (l : LineId) (address : Nat) (v : Delivery) : JournalRecord :=
  { tagRecord s .receipt v.key.tag with
    member := some v.key.member, line := some l, drop := address
    detail1 := (deliveryMessageKind v.key.kind).code, detail2 := v.stage.code }

theorem completeRecord_eq (l : LineId) (address : Nat) (v : Delivery) (s : State) : completeRecord l address v s
    = discardDelivery v.serial (submit (receiptRecord s l address v) (removeQueued v.serial s)) := by
  unfold completeRecord receiptRecord
  dsimp only
  rw [(mail_removeQueued (.refl s) v.serial).tagRecord]

/-- A record that is completed: it is discarded, its copies leave the queues, and RECEIPT is submitted. -/
structure ReceiptCompletes (l : LineId) (address : Nat) (v : Delivery) (s t : State) : Prop where
  mail : Mail s t
  dispatcher : t.dispatcher = { s.dispatcher with records := s.dispatcher.records.filter fun w => w.serial != v.serial }
  queues : QueuesWithout v.serial t
  record : hasRoom s 1 → t.journal.pending = s.journal.pending ++ [{ receiptRecord s l address v with tick := s.tickCount }]

theorem receiptCompletes (l : LineId) (address : Nat) (v : Delivery) (s : State) :
    ReceiptCompletes l address v s (completeRecord l address v s) := by
  have removed := mail_removeQueued (.refl s) v.serial
  have same : (removeQueued v.serial s).journal = s.journal ∧ (removeQueued v.serial s).dispatcher = s.dispatcher := ⟨rfl, rfl⟩
  have clean := queuesWithout_removeQueued v.serial s
  rw [completeRecord_eq]
  generalize made : receiptRecord s l address v = record
  generalize removeQueued v.serial s = u at *
  refine ⟨mail_discardDelivery (mail_submit removed _) _, ?_, ?_, fun room => ?_⟩
  · show ({ (submit record u).dispatcher with records := _ } : Dispatcher) = _
    rw [submit_dispatcher, same.2]
  · show ∀ d ∈ (submit record u).line0.drops ++ (submit record u).line1.drops, _
    rw [submit_line0, submit_line1]
    exact clean
  · have there : hasRoom u 1 := by
      unfold hasRoom
      rw [same.1, removed.area]
      exact room
    show (submit record u).journal.pending = _
    rw [submit_pending there, same.1, removed.tickCount, made]

/-- What a receipt's report changes: at most the member's entry in the call of the tag. -/
theorem reportReceipt_frame (key : RecordKey) (s : State) : (∃ w, reportReceipt key s = { s with calls := w })
    ∧ ∀ d, d ≠ tagContext key.tag → context (reportReceipt key s) d = context s d := by
  unfold reportReceipt
  cases key.kind with
  | arrivalCheck => exact ⟨⟨s.calls, rfl⟩, fun _ _ => rfl⟩
  | remind => exact ⟨⟨_, rfl⟩, fun d other => context_modContext_ne other _ s⟩
  | page => exact ⟨⟨_, rfl⟩, fun d other => context_modContext_ne other _ s⟩

/-- The entry of a member whose receipt is reported (R57, R93). -/
theorem contact_reportReceipt {key : RecordKey} {e : Contact} (contact : (context s (tagContext key.tag)).contact key.member = some e) :
    (key.kind = .remind → (context (reportReceipt key s) (tagContext key.tag)).contact key.member = some { e with received := true })
    ∧ (key.kind = .page → (context (reportReceipt key s) (tagContext key.tag)).contact key.member = some { e with
      received := true
      remind := if e.current then startWindow s s.roster.settings.remindInterval else e.remind }) := by
  unfold reportReceipt
  constructor <;> intro kind <;> rw [kind]
  · exact contact_change (fun e => { e with received := true }) (fun _ => rfl) contact
  · exact contact_change (fun e => { e with
      received := true, remind := if e.current then startWindow s s.roster.settings.remindInterval else e.remind })
      (fun _ => rfl) contact

/-! ## DECLINE (R112) -/

/-- The record DECLINED. -/
def declinedRecord (k : Context) (m : Nat) : JournalRecord :=
  { callRecord .declined k with member := some m, detail1 := k.rung * 256 + k.pass }

theorem declinedRecord_congr {k l : Context} (bare : l.unlisted = k.unlisted) (m : Nat) : declinedRecord l m = declinedRecord k m := by
  simp only [Context.unlisted, Context.mk.injEq] at bare
  simp only [declinedRecord, callRecord, bare]

/-- A member's DECLINE of a call that has them current. -/
def declineLost (c m : Nat) (s : State) : State :=
  loseMark c m (modContext c (Context.modContact m fun e => { e with declined := true }) s)

theorem answerDecline_current (paging : (context s c).state = .paging) (current : (context s c).isCurrent m = true) :
    answerDecline c m s
      = (submit (declinedRecord (context (declineLost c m s) c) m) (declineLost c m s), [.lostMark c m]) := by
  unfold answerDecline
  dsimp only
  rw [if_pos ⟨paging, current⟩]
  rfl

theorem answerDecline_accepter (accepted : (context s c).state = .accepted) (accepter : (context s c).accepter = some m) :
    answerDecline c m s = (submit (declinedRecord (context s c) m) s, [.reopen c .decline]) := by
  unfold answerDecline
  dsimp only
  rw [if_neg (by simp [accepted]), if_pos ⟨accepted, accepter⟩]
  rfl

theorem answerDecline_other (idle : (context s c).state = .paging → (context s c).isCurrent m = false)
    (not : (context s c).state = .accepted → (context s c).accepter ≠ some m) : answerDecline c m s = (s, []) := by
  unfold answerDecline
  dsimp only
  rw [if_neg fun h => by simp [idle h.1] at h, if_neg fun h => not h.1 h.2]

/-- What a DECLINE that takes the current mark leaves, before its record. -/
structure DeclineLoses (c m : Nat) (s t : State) : Prop where
  bare : (context t c).unlisted = (context s c).unlisted
  contact : ∀ e, (context s c).contact m = some e →
    (context t c).contact m = some { e with declined := true, current := false, remind := .stopped }
  others : ∀ d, d ≠ c → context t d = context s d
  paged : (member t m).paged = (member s m).paged - 1
  members : ∀ j, j ≠ m → member t j = member s j
  pages : s.dispatcher.ok → ∀ kind ∈ [DeliveryKind.page, .remind],
    ({ tag := (context s c).tag, member := m, kind := kind } : RecordKey) ∉ keysOf t
  attention : t.attention = s.attention
  tickCount : t.tickCount = s.tickCount
  logs : Logs 0 s t

theorem declineLoses (current : (context s c).isCurrent m = true) : DeclineLoses c m s (declineLost c m s) := by
  let f : Contact → Contact := fun e => { e with declined := true }
  have here := context_modContact c m c f s
  have others (d : Nat) (other : d ≠ c) : context (modContext c (Context.modContact m f) s) d = context s d :=
    context_modContext_ne other _ s
  have marks := fun e (h : (context s c).contact m = some e) => contact_change (s := s) (c := c) (m := m) f (fun _ => rfl) h
  rw [if_pos rfl] at here
  have still : (context (modContext c (Context.modContact m f) s) c).isCurrent m = true := by
    rw [here, Context.isCurrent_map (k := context s c) (f := fun e => if e.member = m then f e else e) rfl
      (fun e => by split <;> exact ⟨rfl, rfl⟩)]
    exact current
  have lost := callWork_loseMark (P := fun _ => False) (c := c) m (modContext c (Context.modContact m f) s)
  refine ⟨?_, fun e contact => ?_, fun d other => (lost.others d other).trans (others d other), ?_, fun j other => ?_,
    fun ok kind is => ?_, lost.attention, lost.tickCount, lost.logs⟩
  · rw [declineLost, context_loseMark, if_pos ⟨rfl, still⟩]
    exact (congrArg Context.unlisted here : (context (modContext c (Context.modContact m f) s) c).unlisted = _)
  · exact contact_loseMark still (marks e contact)
  · exact paged_loseMark still
  · exact member_loseMark_ne other c _
  · have gone := keysOf_loseMark (s := modContext c (Context.modContact m f) s) (c := c) ok still is
    rw [here] at gone
    exact gone

end Sys2Proof.Machine

/-! # Proofs: ARRIVED and CLEAR with a live tag (R110, R111, R113, R114) -/

namespace Sys2Proof.Machine

variable {tag m c d i : Nat} {s t u p : State} {site : Site} {who : Option Nat}

/-! ## A call that goes ON SITE (R113) -/

/-- A call that has gone ON SITE, as its context holds it. -/
def Context.arrived (site : Site) (tick : Tick) (k : Context) : Context :=
  { k with arrival := .stopped, state := .onSite, site := site, arriveTick := tick }

/-- The record ARRIVED of a member's report (R113). -/
def arrivedRecord (k : Context) (m : Nat) : JournalRecord :=
  { callRecord .arrived k with member := some m, detail1 := Site.member.code }

/-- What a call that goes ON SITE by its accepter's report leaves. -/
structure Arrives (c m : Nat) (s t : State) : Prop where
  here : context t c = (context s c).arrived .member s.tickCount
  others : ∀ d, d ≠ c → context t d = context s d
  gone : s.dispatcher.ok → checkKey (context s c) m ∉ keysOf t
  image : ∀ i, (context s c).slot = some i → i < s.area.slots.length →
    slotImage t i = SlotImage.change (SlotImage.shown ((context s c).arrived .member s.tickCount)) (slotImage s i)
  roster : t.roster = s.roster
  attention : t.attention = s.attention
  logs : Logs 1 s t
  record : hasRoom s 1 → t.journal.pending = s.journal.pending ++ [{ arrivedRecord (context s c) m with tick := s.tickCount }]

theorem arrives (accepter : (context s c).accepter = some m) : Arrives c m s (goOnSite c .member (some m) s) := by
  obtain ⟨ends, roster⟩ := checkEnds (lt_of_accepter accepter) m (Context.arrived .member s.tickCount) (g := id) fun _ => rfl
  have mail := mail_withdrawKey (.refl s) (checkKey (context s c) m)
  have is : goOnSite c .member (some m) s
      = submit (arrivedRecord (context (checkEnded c m (Context.arrived .member s.tickCount) id s) c) m)
        (checkEnded c m (Context.arrived .member s.tickCount) id s) := by
    unfold goOnSite checkEnded
    dsimp only
    rw [accepter, ← mail.tickCount]
    rfl
  rw [is]
  generalize checkEnded c m (Context.arrived .member s.tickCount) id s = v at *
  have same : arrivedRecord (context v c) m = arrivedRecord (context s c) m := by rw [ends.here]; rfl
  rw [same]
  generalize made : arrivedRecord (context s c) m = record
  have sent : Mail v (submit record v) := mail_submit (.refl v) _
  refine ⟨(sent.context c).trans ends.here, fun d other => (sent.context d).trans (ends.others d other), fun ok => ?_,
    fun i slot inside => (sent.slotImage i).trans (ends.image i slot inside), ?_, sent.attention.trans ends.attention,
    (ends.logs.trans (logs_submit record v)).mono (by omega), fun room => ?_⟩
  · rw [keysOf, submit_dispatcher]
    exact ends.gone ok
  · rw [sent.roster, roster]
    exact mail.roster
  · rw [submit_pending (ends.logs.hasRoom (n := 0) (by rwa [Nat.zero_add])), ends.logs.pending_of_zero, ends.tickCount, made]

/-! ## ARRIVED (R113) -/

theorem answerArrived_accepter (accepted : (context s c).state = .accepted) (accepter : (context s c).accepter = some m) :
    answerArrived c m s = (goOnSite c .member (some m) s, [.dropBreakIn m]) := by
  unfold answerArrived
  rw [if_pos ⟨accepted, accepter⟩]
  rfl

theorem answerArrived_repeated (not : ¬((context s c).state = .accepted ∧ (context s c).accepter = some m))
    (is : decideAccept s c m = .repeated) : answerArrived c m s = (sendConfirm (context s c) m s, []) := by
  unfold answerArrived
  rw [if_neg not, is]

theorem answerArrived_refused (not : ¬((context s c).state = .accepted ∧ (context s c).accepter = some m)) {cause : StandCause}
    (is : decideAccept s c m = .refused cause) : answerArrived c m s = (standDown (context s c).tag m .arrived cause s, []) := by
  unfold answerArrived
  rw [if_neg not, is]

/-- An ARRIVED that takes its call goes ON SITE at once, and then does what an ACCEPT does in other calls. -/
theorem answerArrived_taken (not : ¬((context s c).state = .accepted ∧ (context s c).accepter = some m))
    (is : decideAccept s c m = .taken) : answerArrived c m s
      = ((acceptElsewhere c m (member s m).engaged (goOnSite c .member (some m) (takeAccept c m s))).1,
        (acceptElsewhere c m (member s m).engaged (goOnSite c .member (some m) (takeAccept c m s))).2 ++ [.dropBreakIn m]) := by
  unfold answerArrived
  rw [if_neg not, is]
  rfl

/-- An ARRIVED that takes its call: ACCEPTED is followed by ARRIVED at once (R113). -/
theorem takesArrived (hc : c < s.calls.contexts.length) (m : Nat) (previous : Option Nat) :
    let t := (acceptElsewhere c m previous (goOnSite c .member (some m) (takeAccept c m s))).1
    context t c = (acceptedContext s c m).arrived .member s.tickCount
    ∧ (hasRoom s ((context s c).contacted.length + 3) → ∃ before rest, t.journal.pending = s.journal.pending ++ before
      ++ [{ acceptedRecord s c m with tick := s.tickCount }]
      ++ { arrivedRecord (context s c) m with tick := s.tickCount } :: rest) := by
  dsimp only
  have takes := takesAccept hc m
  have tells := tellsAccept hc m
  have fields := unlisted_acceptedContext s c m
  have accepter : (context (takeAccept c m s) c).accepter = some m := by
    rw [takes.here]
    exact (congrArg Context.accepter fields :)
  have arrives := arrives accepter
  have own := context_acceptElsewhere_own c m previous (goOnSite c .member (some m) (takeAccept c m s))
  obtain ⟨loses, -⟩ := acceptElsewhere_loses c m previous (goOnSite c .member (some m) (takeAccept c m s))
  generalize goOnSite c .member (some m) (takeAccept c m s) = v at *
  generalize takeAccept c m s = w at *
  have record : arrivedRecord (context w c) m = arrivedRecord (context s c) m := by
    rw [takes.here]
    generalize acceptedContext s c m = k at fields ⊢
    simp only [Context.unlisted, Context.mk.injEq] at fields
    simp only [arrivedRecord, callRecord, fields]
  refine ⟨by rw [own, arrives.here, takes.here, takes.tickCount], fun room => ?_⟩
  obtain ⟨before, taken⟩ := tells.record (hasRoom_of_le room (by omega))
  obtain ⟨-, -, rest, later, -⟩ := loses.sends.logs
  refine ⟨before, rest, ?_⟩
  rw [later, arrives.record (tells.sends.logs.hasRoom (hasRoom_of_le room (by omega))), taken, record, takes.tickCount]
  simp

/-! ## CLEAR (R114) -/

/-- A call whose accepter clears it before an ARRIVED is given an arrival at this moment. -/
def Context.noted (tick : Tick) (k : Context) : Context := { k with site := .member, arriveTick := tick }

/-- Its slot shows that arrival (R114). -/
def clearNoted (c : Nat) (s : State) : State := showContext c (modContext c (Context.noted s.tickCount) s)

theorem answerClear_accepted (accepted : (context s c).state = .accepted) (accepter : (context s c).accepter = some m) :
    answerClear c m s = endCall c .cleared .clearedByMember (clearNoted c s) := by
  unfold answerClear
  dsimp only
  rw [accepted]
  exact if_pos accepter

theorem answerClear_onSite (onSite : (context s c).state = .onSite) (accepter : (context s c).accepter = some m) :
    answerClear c m s = endCall c .cleared .clearedByMember s := by
  unfold answerClear
  dsimp only
  rw [onSite]
  exact if_pos accepter

theorem answerClear_other {a : Nat} (settled : (context s c).settled) (accepter : (context s c).accepter = some a) (other : a ≠ m) :
    answerClear c m s = (standDown (context s c).tag m .clear .taken s, []) := by
  have not : ¬(context s c).accepter = some m := fun is => other (Option.some.inj (accepter.symm.trans is))
  unfold answerClear
  dsimp only
  rcases settled with state | state <;> rw [state] <;> dsimp only <;> rw [if_neg not]
  rw [if_pos (by rw [accepter]; rfl)]

theorem answerClear_none (onSite : (context s c).state = .onSite) (none : (context s c).accepter = none) :
    answerClear c m s = (standDown (context s c).tag m .clear .onSite s, []) := by
  unfold answerClear
  dsimp only
  rw [onSite, none]
  rfl

theorem answerClear_open (opens : (context s c).state = .paging ∨ (context s c).state = .held) :
    answerClear c m s = (standDown (context s c).tag m .clear .notAccepter s, []) := by
  unfold answerClear
  dsimp only
  rcases opens with state | state <;> rw [state]

/-- A call ends as the one that it was before its context noted an arrival. -/
theorem isEndedAfter_of_noted {x : Site} {y : Tick} {st : SlotState} {reason : Reason}
    (here : context p c = { context s c with site := x, arriveTick := y }) (others : ∀ d, d ≠ c → context p d = context s d)
    (shape : p = { s with calls := p.calls, area := { s.area with slots := p.area.slots } })
    (backlog : p.calls.backlog = s.calls.backlog) (slots : p.area.slots.length = s.area.slots.length)
    (ended : isEndedAfter p t c st reason) : isEndedAfter s t c st reason := by
  generalize p.calls = calls at *
  generalize p.area.slots = images at *
  subst shape
  obtain ⟨freed, rest, left, engaged, paged, records, latches, slot, attention, ⟨cancels, unsent⟩, record, frame⟩ := ended
  rw [here] at freed engaged paged records slot cancels unsent record
  exact ⟨freed, fun d other => (rest d other).trans (others d other), left.trans backlog, engaged, paged, records, latches,
    fun i own inside => slot i own (slots ▸ inside), attention, ⟨cancels, unsent⟩, record, frame⟩

/-- The slot of a call that ends, before anything else is known of it (R2). -/
theorem slotImage_finishCall {st : SlotState} {reason : Reason} (live : (context s c).live = true)
    (slot : (context s c).slot = some i) (inside : i < s.area.slots.length) :
    ∃ tick, slotImage (finishCall c st reason s) i = SlotImage.change (SlotImage.ended st reason tick) (slotImage s i) := by
  rw [finishCall_eq c st reason live]
  obtain ⟨unwind, -⟩ := unwindCall_spec c reason s
  obtain ⟨⟨-, same, -⟩, -⟩ := Context.same_of_bare unwind.bare
  obtain ⟨j, e, -⟩ := closeCall_eq c st reason (unwindCall c reason s)
  have area := area_unwindCall c reason s
  generalize unwindCall c reason s = u at *
  have shown : showEnded (context u c) st reason u = modSlot i (SlotImage.ended st reason u.tickCount) u := by
    unfold showEnded
    rw [same, slot]
  have image := slotImage_modSlot_same (s := u) (by rw [area]; exact inside) (SlotImage.ended st reason u.tickCount)
  rw [shown] at e
  rw [e]
  refine ⟨u.tickCount, image.trans ?_⟩
  rw [slotImage, slotImage, area]

theorem live_of_state {k : Context} (used : k.state ≠ .free) : k.live = true := bne_iff_ne.2 used

theorem endCall_live {st : SlotState} {reason : Reason} (live : (context s c).live = true) :
    endCall c st reason s = (finishCall c st reason s, [.admitHeads]) := if_pos live

theorem isEndedAfter_cleared (live : (context s c).live = true) :
    isEndedAfter s (finishCall c .cleared .clearedByMember s) c .cleared .clearedByMember :=
  finishCall_ended (.refl _ 0 c s) (Nat.zero_le 1) live rfl (by decide)

/-- What the note of an arrival leaves. -/
structure ClearNotes (c : Nat) (s t : State) : Prop where
  here : context t c = (context s c).noted s.tickCount
  others : ∀ d, d ≠ c → context t d = context s d
  shape : t = { s with calls := t.calls, area := { s.area with slots := t.area.slots } }
  backlog : t.calls.backlog = s.calls.backlog
  slots : t.area.slots.length = s.area.slots.length
  image : ∀ i, (context s c).slot = some i → i < s.area.slots.length → slotImage t i
    = SlotImage.change (SlotImage.shown ((context s c).noted s.tickCount)) (slotImage s i)

theorem clearNotes (hc : c < s.calls.contexts.length) : ClearNotes c s (clearNoted c s) := by
  let v := modContext c (Context.noted s.tickCount) s
  obtain ⟨shape, slots⟩ := showContext_shape c v
  have calls : (clearNoted c s).calls = v.calls := (showContext_keeps c v).1
  have opened : context v c = (context s c).noted s.tickCount := context_modContext_same _ hc
  refine ⟨by rw [context_of_calls calls, opened], fun d other => ?_, ?_, by rw [calls]; rfl, slots, fun i slot inside => ?_⟩
  · rw [context_of_calls calls, context_modContext_ne other]
  · rw [calls]
    exact shape
  · rw [clearNoted, showContext_some (by rw [opened]; exact slot), slotImage_modSlot_same (s := v) inside, opened,
      slotImage_modContext]

/-- The end of a call by its accepter's CLEAR (R114). -/
theorem answerClear_ends (settled : (context s c).settled) (accepter : (context s c).accepter = some m) :
    (answerClear c m s).2 = [.admitHeads] ∧ isEndedAfter s (answerClear c m s).1 c .cleared .clearedByMember
    ∧ ∀ i, (context s c).slot = some i → i < s.area.slots.length → (context s c).state = .accepted →
      (slotImage (answerClear c m s).1 i).site = .member ∧ (slotImage (answerClear c m s).1 i).arriveTick = s.tickCount := by
  rcases settled with accepted | onSite
  · have noted := clearNotes (lt_of_accepter accepter)
    rw [answerClear_accepted accepted accepter]
    generalize clearNoted c s = p at *
    have live : (context p c).live = true := by
      rw [noted.here]
      exact live_of_state (k := (context s c).noted s.tickCount) (show (context s c).state ≠ .free by rw [accepted]; decide)
    rw [endCall_live live]
    refine ⟨rfl, isEndedAfter_of_noted noted.here noted.others noted.shape noted.backlog noted.slots (isEndedAfter_cleared live),
      fun i slot inside _ => ?_⟩
    obtain ⟨tick, image⟩ := slotImage_finishCall (st := .cleared) (reason := .clearedByMember) live
      (by rw [noted.here]; exact slot) (noted.slots.symm ▸ inside)
    rw [image, SlotImage.change_eq, noted.image i slot inside, SlotImage.change_eq]
    exact ⟨rfl, rfl⟩
  · have live : (context s c).live = true := live_of_state (by rw [onSite]; decide)
    rw [answerClear_onSite onSite accepter, endCall_live live]
    refine ⟨rfl, isEndedAfter_cleared live, fun i _ _ accepted => ?_⟩
    rw [onSite] at accepted
    cases accepted

end Sys2Proof.Machine

/-! # Proofs: the obligation on the reports of the field (R103 to R106, R110 to R114) -/

namespace Sys2Proof.Machine

variable {tag m c d : Nat} {s t u : State} {l : LineId} {address : Nat}

theorem tagRecord_of_live (live : tagLive s tag = true) (own : (context s (tag % 128)).tag = tag) (kind : RecordKind) :
    tagRecord s kind tag = callRecord kind (context s (tag % 128)) := by
  rw [tagRecord, if_pos live]
  show ({ callRecord kind (context s (tag % 128)) with tag := some tag } : JournalRecord) = _
  rw [← own]
  simp [callRecord, own]

/-- A report with a live tag is answered as its kind is. -/
theorem matchTagged_live (live : tagLive s tag = true) (l : LineId) (address m : Nat) :
    let r := fun kind => matchTagged l address tag m kind s
    r .receipt = (answerReceipt l address tag m s, []) ∧ r .decline = answerDecline (tag % 128) m s
    ∧ r .arrived = answerArrived (tag % 128) m s ∧ r .clear = answerClear (tag % 128) m s := by
  simp [matchTagged, live, tagContext]

/-- The STAND DOWN of a live tag names its call in its record. -/
theorem standDown_live (live : tagLive s tag = true) (own : (context s (tag % 128)).tag = tag) (m : Nat) (report : ReportKind)
    (cause : StandCause) : standDown (context s (tag % 128)).tag m report cause s
      = submit { callRecord .standDownSent (context s (tag % 128)) with
          member := some m, detail1 := report.code, detail2 := cause.code }
        (sendControl (standDownMessage s tag m cause.reason) none none s) := by
  rw [own, standDown_eq, tagRecord_of_live live own]

/-! ## RECEIPT -/

theorem receiptRecord_of_live {v : Delivery} (live : tagLive s tag = true) (own : (context s (tag % 128)).tag = tag)
    (tagIs : v.key.tag = tag) (memberIs : v.key.member = m) (l : LineId) (address : Nat) :
    receiptRecord s l address v = { callRecord .receipt (context s (tag % 128)) with
      member := some m, line := some l, drop := address
      detail1 := (deliveryMessageKind v.key.kind).code, detail2 := v.stage.code } := by
  rw [receiptRecord, tagIs, memberIs, tagRecord_of_live live own]

theorem answerReceipt_none (none : ∀ v ∈ s.dispatcher.records, v.key.tag ≠ tag ∨ v.key.member ≠ m) :
    answerReceipt l address tag m s = s := by
  have empty : receiptRecords s tag m = [] := by
    refine List.filter_eq_nil_iff.2 fun v hv => ?_
    simpa [imp_iff_not_or] using none v hv
  rw [answerReceipt, empty]
  rfl

theorem answerReceipt_one {v : Delivery} (one : receiptRecords s tag m = [v]) :
    answerReceipt l address tag m s = reportReceipt v.key (completeRecord l address v s) := by
  rw [answerReceipt, one]
  rfl

theorem key_of_receiptRecords {v : Delivery} (one : receiptRecords s tag m = [v]) : v.key.tag = tag ∧ v.key.member = m := by
  have mem : v ∈ receiptRecords s tag m := by rw [one]; exact List.mem_cons_self
  simpa using (List.mem_filter.1 mem).2

/-- What the receipt of one record leaves (R57, R93). -/
structure Receives (l : LineId) (address : Nat) (v : Delivery) (s t : State) : Prop where
  dispatcher : t.dispatcher = { s.dispatcher with records := s.dispatcher.records.filter fun w => w.serial != v.serial }
  queues : QueuesWithout v.serial t
  check : v.key.kind = .arrivalCheck → t.calls = s.calls
  remind : ∀ e, v.key.kind = .remind → (context s (v.key.tag % 128)).contact v.key.member = some e →
    (context t (v.key.tag % 128)).contact v.key.member = some { e with received := true }
  page : ∀ e, v.key.kind = .page → (context s (v.key.tag % 128)).contact v.key.member = some e →
    (context t (v.key.tag % 128)).contact v.key.member = some { e with
      received := true, remind := if e.current then startWindow s s.roster.settings.remindInterval else e.remind }
  others : ∀ d, d ≠ v.key.tag % 128 → context t d = context s d
  roster : t.roster = s.roster
  attention : t.attention = s.attention
  record : hasRoom s 1 → t.journal.pending = s.journal.pending ++ [{ receiptRecord s l address v with tick := s.tickCount }]

theorem receives (l : LineId) (address : Nat) (v : Delivery) (s : State) :
    Receives l address v s (reportReceipt v.key (completeRecord l address v s)) := by
  obtain ⟨mail, dispatcher, queues, record⟩ := receiptCompletes l address v s
  generalize completeRecord l address v s = u at *
  obtain ⟨⟨w, shape⟩, others⟩ := reportReceipt_frame v.key u
  have contact {e : Contact} (h : (context s (v.key.tag % 128)).contact v.key.member = some e) :=
    contact_reportReceipt (s := u) (key := v.key) (e := e) (by rw [mail.context]; exact h)
  have window : startWindow u u.roster.settings.remindInterval = startWindow s s.roster.settings.remindInterval := by
    rw [startWindow_congr mail.engine mail.tickCount, mail.roster]
  refine ⟨?_, ?_, fun kind => ?_, fun e kind h => (contact h).1 kind, fun e kind h => ?_,
    fun d other => (others d other).trans (mail.context d), ?_, ?_, fun room => ?_⟩
  · rw [shape]
    exact dispatcher
  · rw [shape]
    exact queues
  · unfold reportReceipt
    rw [kind]
    exact mail.calls
  · rw [← window]
    exact (contact h).2 kind
  · rw [shape]
    exact mail.roster
  · rw [shape]
    exact mail.attention
  · rw [shape]
    exact record room

/-! ## ARRIVED -/

theorem decideAccept_refused_open (opens : (context s c).state = .paging ∨ (context s c).state = .held) {cause : StandCause}
    (is : decideAccept s c m = .refused cause) : cause = .busy ∨ cause = .offDuty := by
  rw [decideAccept_open (by rintro (is | is) <;> rcases opens with h | h <;> rw [is] at h <;> cases h)] at is
  split at is
  · exact .inr (by cases is; rfl)
  · split at is
    · exact .inl (by cases is; rfl)
    · cases is

/-! ## The obligation -/

/-- Settles O50: the tag first, then the pager, then each kind of report on a live tag, by the lemma on its answer. -/
theorem staleTagsAreSettledByKind : Obligations.StaleTagsAreSettledByKind := by
  unfold Obligations.StaleTagsAreSettledByKind
  refine ⟨fun s tag => ⟨tagLive_iff s tag, tagLive_none s, fun stale l address m => ⟨?_, ?_, fun kind answered => ?_⟩⟩,
    fun tables pager m held few => memberOfPager_eq_some_iff tables held few m,
    fun s l address data kind read => ⟨fun unknown => matchReport_unknown read unknown l address, fun m d known drop low => ?_⟩,
    fun s l address tag m live ok own => ?_⟩
  · simp [matchTagged, stale]
  · simp [matchTagged, stale]
  · refine ⟨staleAnswer s tag m, rfl, rfl, rfl, rfl, rfl, messageUrgency_staleAnswer stale m, ?_⟩
    rw [matchTagged_stale stale l address m answered, standDown_stale stale]
  · obtain ⟨is, others⟩ := member_heard low d.zone
    have matched := matchReport_known read known drop
    exact ⟨heard m d.zone s, rfl, rfl, is, others, matched, fun hello => by rw [matched, hello]; rfl⟩
  · intro c k r others arrived standsDown
    obtain ⟨receipt, decline, arrive, clear⟩ : r .receipt = _ ∧ r .decline = _ ∧ r .arrived = _ ∧ r .clear = _ :=
      matchTagged_live live l address m
    have used : k.state ≠ .free := ((tagLive_iff s tag).1 live).2.1
    have hc : c < s.calls.contexts.length := lt_of_context_ne fun empty => used (congrArg Context.state empty)
    have answer (report : ReportKind) (cause : StandCause) :
        standDown k.tag m report cause s = standsDown report cause cause.reason := standDown_live live own m report cause
    refine ⟨fun none => ?_, fun v one => ?_, fun e paging contact current => ?_, fun accepted accepter => ?_, fun idle not => ?_,
      fun accepted accepter => ?_, fun onSite accepter => ?_, fun opens takes => ?_, fun cause opens is => ?_,
      fun settled accepter => ?_, fun settled a accepter other => ?_, fun onSite none => ?_, fun opens => ?_⟩
    · rw [receipt, answerReceipt_none none]
    · obtain ⟨tagIs, memberIs⟩ := key_of_receiptRecords one
      have is : r .receipt = (reportReceipt v.key (completeRecord l address v s), []) := by rw [receipt, answerReceipt_one one]
      obtain ⟨dispatcher, queues, check, remind, page, others, roster, attention, record⟩ := receives l address v s
      have named := receiptRecord_of_live live own tagIs memberIs l address
      rw [tagIs, memberIs] at remind page
      rw [tagIs] at others
      rw [named] at record
      rw [is]
      exact ⟨rfl, dispatcher, queues, check, remind, page, others, roster, attention,
        fun writing clear room => record ⟨writing, clear, room⟩⟩
    · have own' := isCurrent_of_contact contact current
      have is : r .decline = _ := decline.trans (answerDecline_current paging own')
      obtain ⟨bare, mark, others, paged, members, pages, attention, tickCount, logs⟩ := declineLoses own'
      rw [is]
      generalize declineLost (tag % 128) m s = u at *
      rw [declinedRecord_congr bare]
      have mail : Mail u (submit (declinedRecord k m) u) := mail_submit (.refl u) _
      refine ⟨rfl, ?_, ?_, fun j other => (mail.member j).trans (members j other), fun w mem tagIs memberIs => ?_,
        fun d other => (mail.context d).trans (others d other), mail.attention.trans attention, fun writing clear room => ?_⟩
      · rw [mail.context]
        exact mark e contact
      · rw [mail.member]
        exact paged
      · rw [submit_dispatcher] at mem
        have gone := pages ok
        rw [own] at gone
        exact kind_eq_arrivalCheck gone mem tagIs memberIs
      · rw [submit_pending (logs.hasRoom (n := 0) ⟨writing, clear, by omega⟩), logs.pending_of_zero, tickCount]
        rfl
    · rw [decline, answerDecline_accepter accepted accepter]
      rfl
    · rw [decline, answerDecline_other idle not]
    · have is : r .arrived = _ := arrive.trans (answerArrived_accepter accepted accepter)
      have goes := arrives accepter
      rw [is]
      generalize goOnSite (tag % 128) .member (some m) s = u at *
      refine ⟨rfl, goes.here, ?_, fun i slot inside => ?_, goes.record, goes.others, goes.roster, goes.attention⟩
      · rw [← Option.not_isSome_iff_eq_none, deliveryOf_isSome_iff]
        have gone := goes.gone ok
        rwa [checkKey, own] at gone
      · rw [goes.image i slot inside, SlotImage.change_eq]
        exact ⟨rfl, rfl, rfl⟩
    · rw [arrive, answerArrived_repeated]
      · rintro ⟨accepted, -⟩
        exact CallState.noConfusion (onSite.symm.trans accepted)
      · exact (decideAccept_iff s c m).1.2 ⟨.inr onSite, accepter⟩
    · have not : ¬(k.state = .accepted ∧ k.accepter = some m) := by rcases opens with h | h <;> simp [h]
      obtain ⟨here, record⟩ := takesArrived hc m (member s m).engaged
      have fields := unlisted_acceptedContext s c m
      have is : r .arrived = _ := arrive.trans (answerArrived_taken not takes)
      rw [is]
      generalize acceptElsewhere c m (member s m).engaged (goOnSite c .member (some m) (takeAccept c m s)) = p at here record ⊢
      have accepter : (acceptedContext s c m).accepter = some m := (congrArg Context.accepter fields :)
      have acceptTick : (acceptedContext s c m).acceptTick = s.tickCount := (congrArg Context.acceptTick fields :)
      dsimp only
      rw [here]
      refine ⟨rfl, accepter, rfl, acceptTick, rfl, rfl, fun room => ?_, by simp⟩
      obtain ⟨before, rest, pending⟩ := record room
      exact ⟨before, [], rest, pending⟩
    · have not : ¬(k.state = .accepted ∧ k.accepter = some m) := by rcases opens with h | h <;> simp [h]
      have reason : cause.reason = .busy ∧ cause ∈ [StandCause.busy, .offDuty] := by
        rcases decideAccept_refused_open opens is with rfl | rfl <;> exact ⟨rfl, by simp⟩
      refine ⟨?_, reason.2⟩
      rw [arrive, answerArrived_refused not is, ← reason.1]
      exact congrArg (·, []) (answer .arrived cause)
    · have ends := answerClear_ends settled accepter
      rw [← clear] at ends
      exact ends
    · have not : ¬(k.state = .accepted ∧ k.accepter = some m) := fun h => other (Option.some.inj (accepter.symm.trans h.2))
      have refused : decideAccept s c m = .refused .taken := (decideAccept_iff s c m).2.1.2 ⟨settled, a, accepter, other⟩
      rw [arrive, clear, answerArrived_refused not refused, answerClear_other settled accepter other]
      exact ⟨congrArg (·, []) (answer .arrived .taken), congrArg (·, []) (answer .clear .taken)⟩
    · have not : ¬(k.state = .accepted ∧ k.accepter = some m) := by simp [none]
      have refused : decideAccept s c m = .refused .onSite := (decideAccept_iff s c m).2.2.1.2 ⟨.inr onSite, none⟩
      rw [arrive, clear, answerArrived_refused not refused, answerClear_none onSite none]
      exact ⟨congrArg (·, []) (answer .arrived .onSite), congrArg (·, []) (answer .clear .onSite)⟩
    · rw [clear, answerClear_open opens]
      exact congrArg (·, []) (answer .clear .notAccepter)

end Sys2Proof.Machine

/-! # Proofs: what a line goes through by its own events (R121, R122, R129), and the walk (R126) -/

namespace Sys2Proof.Machine

variable {s : State} {l : LineId} {x : Exchange} {n : Line}

/-! ## The events of a line, phase by phase -/

theorem breakEnd_breaking (h : (s.line l).phase = .breaking) : exec (.breakEnd l) s = .next (setPhase l .comingUp s) := by
  simp only [exec, execBreakEnd, h]

theorem breakEnd_other (h : (s.line l).phase ≠ .breaking) : exec (.breakEnd l) s = .next s := by
  simp only [exec, execBreakEnd]

theorem restartWaitEnd_comingUp (h : (s.line l).phase = .comingUp) : exec (.restartWaitEnd l) s = .next (enterRunning l s) := by
  simp only [exec, execRestartWaitEnd, h]

theorem restartWaitEnd_other (h : (s.line l).phase ≠ .comingUp) : exec (.restartWaitEnd l) s = .next s := by
  simp only [exec, execRestartWaitEnd]

theorem restartFrameWaitEnd_restartWait (h : (s.line l).phase = .restartWait) :
    exec (.restartFrameWaitEnd l) s = .next (enterRunning l s) := by
  simp only [exec, execRestartFrameWaitEnd, h]

theorem restartFrameWaitEnd_other (h : (s.line l).phase ≠ .restartWait) : exec (.restartFrameWaitEnd l) s = .next s := by
  simp only [exec, execRestartFrameWaitEnd]

theorem exchangeStart_running (running : (s.line l).state = .running) (gap : (s.line l).phase = .gap) :
    exec (.exchangeStart l) s = .next (finish (beginExchange l s, [])) := by
  simp only [exec, execExchangeStart, running, gap]

theorem exchangeStart_other (h : (s.line l).state ≠ .running ∨ (s.line l).phase ≠ .gap) : exec (.exchangeStart l) s = .next s := by
  simp only [exec, execExchangeStart]
  split
  · simp_all
  · rfl

theorem downFrameEnd_sending (h : (s.line l).phase = .sending x) :
    exec (.downFrameEnd l) s = .next (setPhase l (.awaiting x) s) := by
  simp only [exec, execDownFrameEnd, h]

theorem downFrameEnd_restartFrame {frame : List Byte} (h : (s.line l).phase = .restartFrame frame) :
    exec (.downFrameEnd l) s = .next (setPhase l .restartWait s) := by
  simp only [exec, execDownFrameEnd, h]

theorem downFrameEnd_other (sending : ∀ x, (s.line l).phase ≠ .sending x) (frame : ∀ f, (s.line l).phase ≠ .restartFrame f) :
    exec (.downFrameEnd l) s = .next s := by
  simp only [exec, execDownFrameEnd]

theorem replyStart_awaiting (h : (s.line l).phase = .awaiting x) (turn : Nat) : exec (.replyStart l turn) s
    = .next (if replyInTime s l x turn then setPhase l (.receiving { x with turn := turn }) s else s) := by
  simp only [exec, execReplyStart, h]

theorem replyStart_other (h : ∀ x, (s.line l).phase ≠ .awaiting x) (turn : Nat) : exec (.replyStart l turn) s = .next s := by
  simp only [exec, execReplyStart]

theorem replyTimeout_awaiting (h : (s.line l).phase = .awaiting x) (poll : x.isProbe = false) :
    exec (.replyTimeout l) s = .next (finish (endExchange l x .timeout s)) := by
  simp [exec, execReplyTimeout, h, poll]

theorem replyTimeout_other (h : ∀ x, (s.line l).phase = .awaiting x → x.isProbe = true) : exec (.replyTimeout l) s = .next s := by
  simp only [exec, execReplyTimeout]
  split
  · rename_i x awaits
    rw [if_pos (h x awaits)]
  · rfl

theorem probeTimeout_awaiting (h : (s.line l).phase = .awaiting x) (probe : x.isProbe = true) :
    exec (.probeTimeout l) s = .next (finish (endExchange l x .timeout s)) := by
  simp [exec, execProbeTimeout, h, probe]

theorem probeTimeout_other (h : ∀ x, (s.line l).phase = .awaiting x → x.isProbe = false) : exec (.probeTimeout l) s = .next s := by
  simp only [exec, execProbeTimeout]
  split
  · rename_i x awaits
    rw [if_neg (by rw [h x awaits]; decide)]
  · rfl

theorem replySlotEnd_receiving (h : (s.line l).phase = .receiving x) :
    exec (.replySlotEnd l) s = .next (finish (endExchange l x .strike s)) := by
  simp only [exec, execReplySlotEnd, h]

theorem replySlotEnd_other (h : ∀ x, (s.line l).phase ≠ .receiving x) : exec (.replySlotEnd l) s = .next s := by
  simp only [exec, execReplySlotEnd]

theorem replyNotSync_receiving (h : (s.line l).phase = .receiving x) :
    exec (.replyNotSync l) s = .next (finish (endExchange l x .corrupt s)) := by
  simp only [exec, execReplyNotSync, h]

theorem replyNotSync_other (h : ∀ x, (s.line l).phase ≠ .receiving x) : exec (.replyNotSync l) s = .next s := by
  simp only [exec, execReplyNotSync]

/-- A reply with a wrong sync is CORRUPT (R180). -/
theorem replyComplete_notSync {frame : List Byte} (h : (s.line l).phase = .receiving x) (sync : startsWithSync frame = false) :
    exec (.replyComplete l frame) s = .next (finish (endExchange l x .corrupt s)) := by
  simp [exec, execReplyComplete, h, sync]

/-- A reply that is not whole yet is waited for. -/
theorem replyComplete_short {frame : List Byte} (h : (s.line l).phase = .receiving x) (sync : startsWithSync frame = true)
    (short : replyArrived frame = false) : exec (.replyComplete l frame) s = .next s := by
  simp [exec, execReplyComplete, h, sync, short]

/-- A whole reply is judged, without the bytes after its CRC. -/
theorem replyComplete_whole {frame : List Byte} (h : (s.line l).phase = .receiving x) (sync : startsWithSync frame = true)
    (whole : replyArrived frame = true) : exec (.replyComplete l frame) s
      = .next (finish (endExchange l x (judgeReply x (dropKind s l x.address) (frame.take (replyLength frame))) s)) := by
  simp [exec, execReplyComplete, h, sync, whole]

theorem replyComplete_other (h : ∀ x, (s.line l).phase ≠ .receiving x) (frame : List Byte) :
    exec (.replyComplete l frame) s = .next s := by
  simp only [exec, execReplyComplete]

theorem emptySlotEnd_emptySlot (h : (s.line l).phase = .emptySlot) :
    exec (.emptySlotEnd l) s = .next (finish (endEmptySlot l s)) := by
  simp only [exec, execEmptySlotEnd, h]

theorem emptySlotEnd_other (h : (s.line l).phase ≠ .emptySlot) : exec (.emptySlotEnd l) s = .next s := by
  simp only [exec, execEmptySlotEnd]

/-- A reply is in time within 1,024 bit times for a probe, and within the drop's reply timeout for a POLL (R124, R129). -/
theorem replyInTime_iff (s : State) (l : LineId) (x : Exchange) (turn : Nat) : replyInTime s l x turn = true
    ↔ if x.isProbe then turn < 1024 else ∃ d, drop? s l x.address = some d ∧ turn ≤ d.replyTimeout := by
  unfold replyInTime
  split
  · exact decide_eq_true_iff
  · simp [Option.any_eq_true]

/-- Settles O44, by the lemma on each command in its phase and outside it. -/
theorem lineEventsFollowTheLinePhase : Obligations.LineEventsFollowTheLinePhase := by
  unfold Obligations.LineEventsFollowTheLinePhase
  refine fun s l => ⟨breakEnd_breaking, restartWaitEnd_comingUp, fun frame => downFrameEnd_restartFrame,
    restartFrameWaitEnd_restartWait, fun x => downFrameEnd_sending, fun x turn awaits => ⟨fun inTime => ?_, fun late => ?_⟩,
    breakEnd_other, restartWaitEnd_other, restartFrameWaitEnd_other, exchangeStart_other, downFrameEnd_other,
    replyStart_other, replyTimeout_other, probeTimeout_other, fun idle frame c mem => ?_, emptySlotEnd_other⟩
  · rw [replyStart_awaiting awaits, if_pos ((replyInTime_iff s l x turn).2 inTime)]
    rfl
  · rw [replyStart_awaiting awaits, if_neg fun inTime => late ((replyInTime_iff s l x turn).1 inTime)]
  · simp only [List.mem_cons, List.not_mem_nil, or_false] at mem
    rcases mem with rfl | rfl | rfl
    · exact replyComplete_other idle frame
    · exact replySlotEnd_other idle
    · exact replyNotSync_other idle

/-! ## The walk (R126) -/

/-- A SILENT drop with its countdown at 0 stands at the address. -/
def IsDue (n : Line) (a : Nat) : Prop := 0 < a ∧ ∃ d, n.drops[a - 1]? = some d ∧ d.state = .silent ∧ d.countdown = 0

/-- A drop in the state stands at the address. -/
def IsIn (n : Line) (a : Nat) (st : DropState) : Prop := ∃ d, n.drops[a - 1]? = some d ∧ d.state = st

theorem dueProbe_of_isLeast {a : Nat} (h : IsLeast { a | IsDue n a } a) : dueProbe n = some a := by
  obtain ⟨⟨pos, d, at', silent, zero⟩, least⟩ := h
  obtain ⟨low, is⟩ := List.getElem?_eq_some_iff.1 at'
  have first : n.drops.findIdx? (fun d => d.state == .silent && d.countdown == 0) = some (a - 1) := by
    refine List.findIdx?_eq_some_iff_getElem.2 ⟨low, by simp [is, silent, zero], fun j before due => ?_⟩
    have due' := least (a := j + 1) ⟨j.succ_pos, _, List.getElem?_eq_getElem (by omega), by simpa using due⟩
    omega
  rw [dueProbe, first]
  exact congrArg some (Nat.sub_add_cancel pos)

theorem dueProbe_of_none (h : ∀ a, ¬IsDue n a) : dueProbe n = none := by
  rw [dueProbe, Option.map_eq_none_iff, List.findIdx?_eq_none_iff_findIdx_eq]
  refine List.findIdx_eq_length.2 fun d mem => Bool.eq_false_iff.2 fun due => ?_
  obtain ⟨i, at'⟩ := List.mem_iff_getElem?.1 mem
  exact h (i + 1) ⟨i.succ_pos, d, at', by simpa using due⟩

theorem served_iff (n : Line) (a : Nat) : (n.drops[a - 1]?).any (fun d => d.state == .ready || d.state == .unknown) = true
    ↔ IsIn n a .ready ∨ IsIn n a .unknown := by
  simp [Option.any_eq_true, IsIn, and_or_left, exists_or]

theorem mem_walkOrder {position a : Nat} (h : a ∈ walkOrder position) : 1 ≤ a ∧ a ≤ 16 := by
  obtain ⟨i, -, rfl⟩ := List.mem_map.1 h
  omega

/-- The walk's choice among READY and UNKNOWN drops, when no probe is due. -/
theorem chooseExchange_first {k : Nat} (none : ∀ a, ¬IsDue n a) (low : k < 16)
    (before : ∀ j, j < k → ∀ st ∈ [DropState.ready, .unknown], ¬IsIn n ((n.pollPosition + j) % 16 + 1) st) :
    (IsIn n ((n.pollPosition + k) % 16 + 1) .ready → chooseExchange n = .poll ((n.pollPosition + k) % 16 + 1))
    ∧ (IsIn n ((n.pollPosition + k) % 16 + 1) .unknown → chooseExchange n = .probe ((n.pollPosition + k) % 16 + 1) true) := by
  have found (st : DropState) (mem : st ∈ [DropState.ready, .unknown]) (at' : IsIn n ((n.pollPosition + k) % 16 + 1) st) :
      (walkOrder n.pollPosition).find? (fun a => (n.drops[a - 1]?).any fun d => d.state == .ready || d.state == .unknown)
        = some ((n.pollPosition + k) % 16 + 1) := by
    refine List.find?_eq_some_iff_getElem.2 ⟨(served_iff n _).2 ?_, k, by simpa [walkOrder] using low, by simp [walkOrder],
      fun j less => ?_⟩
    · simp only [List.mem_cons, List.not_mem_nil, or_false] at mem
      rcases mem with rfl | rfl
      · exact .inl at'
      · exact .inr at'
    · rw [Bool.not_eq_true', Bool.eq_false_iff, ne_eq, served_iff]
      simpa [walkOrder] using before j less
  constructor
  · rintro ⟨d, at', ready⟩
    rw [chooseExchange, dueProbe_of_none none, found .ready (by simp) ⟨d, at', ready⟩]
    simp only [at', Option.any_some, ready, BEq.rfl, if_true]
  · rintro ⟨d, at', unknown⟩
    rw [chooseExchange, dueProbe_of_none none, found .unknown (by simp) ⟨d, at', unknown⟩]
    simp only [at', Option.any_some, unknown]
    rfl

theorem chooseExchange_empty (none : ∀ a, ¬IsDue n a)
    (nobody : ∀ a, 1 ≤ a → a ≤ 16 → ∀ st ∈ [DropState.ready, .unknown], ¬IsIn n a st) : chooseExchange n = .empty := by
  have found : (walkOrder n.pollPosition).find?
      (fun a => (n.drops[a - 1]?).any fun d => d.state == .ready || d.state == .unknown) = .none := by
    refine List.find?_eq_none.2 fun a mem => ?_
    obtain ⟨low, high⟩ := mem_walkOrder mem
    rw [served_iff]
    simpa using nobody a low high
  rw [chooseExchange, dueProbe_of_none none, found]

/-- Settles O45: the due probe first, and then the walk. -/
theorem walkChoosesTheNextExchange : Obligations.WalkChoosesTheNextExchange := by
  unfold Obligations.WalkChoosesTheNextExchange
  refine fun n => ⟨fun a least => ?_, fun none => ⟨fun k low before => chooseExchange_first none low before,
    fun nobody => chooseExchange_empty none nobody⟩⟩
  rw [chooseExchange, dueProbe_of_isLeast least]

end Sys2Proof.Machine

/-! # Proofs: what the outcome of an exchange makes of its drop (R123 to R125, R135, R136) -/

namespace Sys2Proof.Machine

variable {s t u : State} {l : LineId} {a : Nat} {d e : Drop} {f g : Drop → Drop} {ev fv : BitVec 14} {rs qs : List JournalRecord}

/-! ## A change of one drop, with its records and its attention -/

theorem modDrop_modDrop (l : LineId) (a : Nat) (f g : Drop → Drop) (s : State) :
    modDrop l a g (modDrop l a f s) = modDrop l a (fun d => g (f d)) s := by
  cases l <;> simp only [modDrop, State.modLine, Line.modDrop, List.modify_modify_eq] <;> rfl

theorem modDrop_id (l : LineId) (a : Nat) (s : State) : modDrop l a (fun d => d) s = s := by
  have same (n : Line) : n.modDrop a (fun d => d) = n := congrArg (fun drops => { n with drops := drops }) (List.modify_id _ _)
  cases l
  · exact congrArg (fun n => { s with line0 := n }) (same s.line0)
  · exact congrArg (fun n => { s with line1 := n }) (same s.line1)

theorem modDrop_congr (at' : drop? s l a = some d) (same : f d = g d) : modDrop l a f s = modDrop l a g s := by
  have here : (s.line l).drops[a - 1]? = some d := by
    rw [drop?_eq] at at'
    split at at'
    · cases at'
    · exact at'
  have lists : (s.line l).drops.modify (a - 1) f = (s.line l).drops.modify (a - 1) g := by
    refine List.ext_getElem? fun i => ?_
    rw [List.getElem?_modify, List.getElem?_modify]
    by_cases own : a - 1 = i
    · simp [← own, here, same]
    · simp [own]
  cases l
  · exact congrArg (fun drops => { s with line0 := { s.line0 with drops := drops } }) lists
  · exact congrArg (fun drops => { s with line1 := { s.line1 with drops := drops } }) lists

/-- From `s` to `t` the drop at an address becomes what `f` makes of it, EVENT gains the causes `ev`, the records `rs` are submitted
one after another, and nothing else changes. -/
structure ChangesDrop (l : LineId) (a : Nat) (f : Drop → Drop) (ev : BitVec 14) (rs : List JournalRecord) (s t : State) : Prop where
  shape : t = { modDrop l a f s with
    journal := t.journal, attention := { s.attention with event := s.attention.event ||| ev } }
  writer : t.journal.state = s.journal.state
  quiet : rs = [] → t.journal = s.journal
  logs : hasRoom s rs.length → t.journal.pending = s.journal.pending ++ rs.map fun r => { r with tick := s.tickCount }

theorem ChangesDrop.trans (h : ChangesDrop l a f ev rs s t) (k : ChangesDrop l a g fv qs t u) :
    ChangesDrop l a (fun d => g (f d)) (ev ||| fv) (rs ++ qs) s u where
  shape := by
    rw [k.shape, h.shape]
    cases l <;> simp [modDrop, State.modLine, Line.modDrop, List.modify_modify_eq, Function.comp_def, BitVec.or_assoc]
  writer := k.writer.trans h.writer
  quiet none := by
    obtain ⟨first, second⟩ := List.append_eq_nil_iff.1 none
    exact (k.quiet second).trans (h.quiet first)
  logs room := by
    obtain ⟨writing, clear, fits⟩ := room
    rw [List.length_append] at fits
    have before := h.logs ⟨writing, clear, by omega⟩
    have fault : t.area.memoryFault = s.area.memoryFault := by rw [h.shape]; simp
    have tick : t.tickCount = s.tickCount := by rw [h.shape]; simp
    rw [k.logs ⟨h.writer.trans writing, fault.trans clear, by rw [before, List.length_append, List.length_map]; omega⟩, before,
      List.map_append, List.append_assoc, tick]

/-- The same change in other words, where only the drop that stands at the address matters. -/
theorem ChangesDrop.congr (h : ChangesDrop l a f ev rs s t) (at' : drop? s l a = some d) (same : f d = g d) (bits : ev = fv)
    (records : rs = qs) : ChangesDrop l a g fv qs s t := by
  subst bits records
  exact { h with shape := by rw [← modDrop_congr at' same]; exact h.shape }

theorem changesDrop_modDrop (l : LineId) (a : Nat) (f : Drop → Drop) (s : State) : ChangesDrop l a f 0#14 [] s (modDrop l a f s) where
  shape := by cases l <;> simp [modDrop, State.modLine]
  writer := by simp
  quiet _ := by simp
  logs _ := by simp

theorem changesDrop_refl (l : LineId) (a : Nat) (s : State) : ChangesDrop l a (fun d => d) 0#14 [] s s where
  shape := by rw [modDrop_id, BitVec.or_zero]
  writer := rfl
  quiet _ := rfl
  logs _ := by simp

theorem changesDrop_submit (l : LineId) (a : Nat) (r : JournalRecord) (s : State) :
    ChangesDrop l a (fun d => d) 0#14 [r] s (submit r s) where
  shape := by
    rw [modDrop_id, BitVec.or_zero]
    exact submit_shape r s
  writer := (logs_submit r s).1
  quiet none := absurd none (List.cons_ne_nil _ _)
  logs room := submit_pending room r

theorem changesDrop_raise (l : LineId) (a : Nat) (c : Cause) (s : State) : ChangesDrop l a (fun d => d) c.mask [] s (raise c s) where
  shape := by
    rw [modDrop_id]
    rfl
  writer := rfl
  quiet _ := rfl
  logs _ := by simp [raise, State.modAttention]

section
variable (h : ChangesDrop l a f ev rs s t)
include h

theorem ChangesDrop.drop (at' : drop? s l a = some d) : drop? t l a = some (f d) := by
  have lines : drop? t l a = drop? (modDrop l a f s) l a := by
    rw [h.shape]
    exact drop?_congr (by cases l <;> rfl) a
  rw [lines, drop?_modDrop_same, at']
  rfl

theorem ChangesDrop.others (there : a ≠ 0) {b : LineId × Nat} (other : b ≠ (l, a)) : drop? t b.1 b.2 = drop? s b.1 b.2 := by
  have lines : drop? t b.1 b.2 = drop? (modDrop l a f s) b.1 b.2 := by
    rw [h.shape]
    exact drop?_congr (by cases l <;> cases b.1 <;> rfl) b.2
  rw [lines]
  obtain ⟨k, i⟩ := b
  by_cases same : k = l
  · subst same
    exact drop?_modDrop_ne (fun eq => other (congrArg (Prod.mk k) eq)) there f s
  · exact drop?_congr (by rw [modDrop, State.line_modLine_ne same]) i

theorem ChangesDrop.line : t.line l = (s.line l).modDrop a f := by
  rw [h.shape]
  cases l <;> rfl

theorem ChangesDrop.attention : t.attention = { s.attention with event := s.attention.event ||| ev } := by rw [h.shape]
theorem ChangesDrop.calls : t.calls = s.calls := by rw [h.shape]; simp
theorem ChangesDrop.dispatcher : t.dispatcher = s.dispatcher := by rw [h.shape]; simp
theorem ChangesDrop.roster : t.roster = s.roster := by rw [h.shape]; simp
theorem ChangesDrop.engine : t.engine = s.engine := by rw [h.shape]; simp
theorem ChangesDrop.agenda : t.agenda = s.agenda := by rw [h.shape]; simp

end

/-! ## A change of a drop's state (R123) -/

/-- FIELD FAULT is raised on an entry into SILENT or ISOLATED. -/
def DropState.raises (new : DropState) : BitVec 14 := if new = .silent ∨ new = .isolated then BitVec.twoPow 14 10 else 0#14

theorem changesDrop_setDropState (new : DropState) (cause : DropCause) (at' : drop? s l a = some d) :
    ChangesDrop l a (Drop.enter new cause) new.raises [dropStateRecord l a d.state new cause] s (setDropState l a new cause s).1 := by
  have entered := (changesDrop_modDrop l a (Drop.enter new cause) s).trans
    (changesDrop_submit l a (dropStateRecord l a d.state new cause) _)
  unfold setDropState
  rw [at']
  by_cases fault : new = .silent ∨ new = .isolated
  · simp only [if_pos fault]
    exact (entered.trans (changesDrop_raise l a .fieldFault _)).congr at' rfl
      (by rw [DropState.raises, if_pos fault]; decide) rfl
  · simp only [if_neg fault]
    exact entered.congr at' rfl (by rw [DropState.raises, if_neg fault]; decide) rfl

theorem setDropState_handsBack (new : DropState) (cause : DropCause) (at' : drop? s l a = some d) :
    (setDropState l a new cause s).2 = d.handsBack.map fun e => .handBack l a e := by
  unfold setDropState
  rw [at']

theorem handsBack_ready (ready : d.state = .ready) : d.handsBack = d.inFlight ++ d.queue := if_pos ready

theorem handsBack_other (other : d.state ≠ .ready) : d.handsBack = [] := if_neg other

/-! ## Misses and strikes (R135, R136) -/

theorem strikeCount_eq (d : Drop) : strikeCount d = d.strikes.count true := by
  rw [strikeCount, List.count, List.countP_eq_length_filter]
  congr 2
  funext b
  cases b <;> rfl

theorem settleStrikes_few (at' : drop? s l a = some d) (few : d.strikes.count true < 3) : settleStrikes l a s = (s, []) := by
  unfold settleStrikes
  rw [at']
  exact if_pos (by rwa [strikeCount_eq])

/-- The third strike isolates the drop. -/
theorem settleStrikes_isolates (at' : drop? s l a = some d) (three : 3 ≤ d.strikes.count true)
    (isolates : s.roster.settings.isolateOnBabble = true) :
    ChangesDrop l a (fun d => Drop.enter .isolated .babble { d with strikes := [], misses := 0 }) (BitVec.twoPow 14 10)
      [dropStateRecord l a d.state .isolated .babble] s (settleStrikes l a s).1
    ∧ (settleStrikes l a s).2 = d.handsBack.map fun e => .handBack l a e := by
  have cleared : drop? (modDrop l a (fun d => { d with strikes := [], misses := 0 }) s) l a
      = some { d with strikes := [], misses := 0 } := by rw [drop?_modDrop_same, at']; rfl
  have is : settleStrikes l a s
      = setDropState l a .isolated .babble (modDrop l a (fun d => { d with strikes := [], misses := 0 }) s) := by
    unfold settleStrikes
    rw [at']
    exact (if_neg (by rw [strikeCount_eq]; omega)).trans (if_pos isolates)
  rw [is]
  exact ⟨((changesDrop_modDrop l a _ s).trans (changesDrop_setDropState .isolated .babble cleared)).congr at' rfl (by decide) rfl,
    (setDropState_handsBack _ _ cleared :)⟩

/-- The record BABBLE of a drop with so many strikes. -/
def babbleRecord (l : LineId) (a strikes : Nat) : JournalRecord :=
  { blankRecord .babble with line := some l, drop := a, detail1 := strikes }

/-- The third strike of a drop that may not be isolated. -/
theorem settleStrikes_babbles (at' : drop? s l a = some d) (three : 3 ≤ d.strikes.count true)
    (keeps : s.roster.settings.isolateOnBabble = false) :
    ChangesDrop l a (fun d => { d with strikes := [] }) 0#14 [babbleRecord l a (d.strikes.count true)] s (settleStrikes l a s).1
    ∧ (settleStrikes l a s).2 = [] := by
  have is : settleStrikes l a s = (submit (babbleRecord l a (d.strikes.count true)) (modDrop l a (fun d => { d with strikes := [] }) s),
      []) := by
    unfold settleStrikes
    rw [at']
    refine (if_neg (by rw [strikeCount_eq]; omega)).trans ((if_neg (by rw [keeps]; decide)).trans ?_)
    rw [← strikeCount_eq]
    rfl
  rw [is]
  exact ⟨((changesDrop_modDrop l a _ s).trans (changesDrop_submit l a _ _)).congr at' rfl (by decide) rfl, rfl⟩

theorem missPoll_few (at' : drop? s l a = some d) (few : d.misses < 2) :
    missPoll l a s = (modDrop l a (fun d => { d with misses := d.misses + 1 }) s, []) := by
  unfold missPoll
  refine if_neg ?_
  rw [drop?_modDrop_same, at']
  simp
  omega

/-- The third miss in a row makes the drop SILENT. -/
theorem missPoll_third (at' : drop? s l a = some d) (third : 2 ≤ d.misses) :
    ChangesDrop l a (fun d => Drop.enter .silent .misses { d with misses := 0 }) (BitVec.twoPow 14 10)
      [dropStateRecord l a d.state .silent .misses] s (missPoll l a s).1
    ∧ (missPoll l a s).2 = d.handsBack.map fun e => .handBack l a e := by
  have cleared : drop? (modDrop l a (fun d => { d with misses := 0 }) s) l a = some { d with misses := 0 } := by
    rw [drop?_modDrop_same, at']; rfl
  have is : missPoll l a s = setDropState l a .silent .misses (modDrop l a (fun d => { d with misses := 0 }) s) := by
    unfold missPoll
    refine (if_pos ?_).trans (congrArg (setDropState l a .silent .misses) (modDrop_modDrop ..))
    rw [drop?_modDrop_same, at']
    simp
    omega
  rw [is]
  exact ⟨((changesDrop_modDrop l a _ s).trans (changesDrop_setDropState .silent .misses cleared)).congr at' rfl (by decide) rfl,
    (setDropState_handsBack _ _ cleared :)⟩

/-! ## Probes (R124, R125) -/

/-- An UNKNOWN drop falls SILENT; another stays as it is. -/
def Drop.fell (cause : DropCause) (d : Drop) : Drop := if d.state = .unknown then d.enter .silent cause else d

/-- The causes that the fall raises. -/
def Drop.fallBits (d : Drop) : BitVec 14 := if d.state = .unknown then BitVec.twoPow 14 10 else 0#14

/-- The records of the fall. -/
def Drop.fallRecords (l : LineId) (a : Nat) (cause : DropCause) (d : Drop) : List JournalRecord :=
  if d.state = .unknown then [dropStateRecord l a .unknown .silent cause] else []

theorem probeFailed_falls (at' : drop? s l a = some d) :
    ChangesDrop l a (Drop.fell .probeFailed) d.fallBits (d.fallRecords l a .probeFailed) s (probeFailed l a s).1
    ∧ (probeFailed l a s).2 = [] := by
  unfold probeFailed
  rw [at']
  by_cases unknown : d.state = .unknown
  · rw [if_pos (by simp [unknown])]
    refine ⟨(changesDrop_setDropState .silent .probeFailed at').congr at' (if_pos unknown).symm ?_ ?_, ?_⟩
    · rw [Drop.fallBits, if_pos unknown]; rfl
    · rw [Drop.fallRecords, if_pos unknown, unknown]
    · rw [setDropState_handsBack _ _ at', handsBack_other (by rw [unknown]; decide)]; rfl
  · rw [if_neg (by simp [unknown])]
    refine ⟨(changesDrop_refl l a s).congr at' (if_neg unknown).symm ?_ ?_, rfl⟩
    · rw [Drop.fallBits, if_neg unknown]
    · rw [Drop.fallRecords, if_neg unknown]

/-- The record DROP KIND MISMATCH. -/
def kindMismatchRecord (l : LineId) (a : Nat) (found listed : DropKind) : JournalRecord :=
  { blankRecord .dropKindMismatch with line := some l, drop := a, detail1 := found.code, detail2 := listed.code }

theorem probeMismatch_falls (at' : drop? s l a = some d) (found : DropKind) :
    ChangesDrop l a (Drop.fell .kindMismatch) d.fallBits
      (d.fallRecords l a .kindMismatch ++ if d.state = .unknown then [kindMismatchRecord l a found d.kind] else [])
      s (probeMismatch l a found s).1
    ∧ (probeMismatch l a found s).2 = [] := by
  unfold probeMismatch
  rw [at']
  by_cases unknown : d.state = .unknown
  · simp only [if_pos unknown]
    refine ⟨((changesDrop_setDropState .silent .kindMismatch at').trans (changesDrop_submit l a
      (kindMismatchRecord l a found d.kind) _)).congr at' (if_pos unknown).symm ?_ ?_, ?_⟩
    · rw [Drop.fallBits, if_pos unknown]; decide
    · rw [Drop.fallRecords, if_pos unknown, unknown]
    · rw [setDropState_handsBack _ _ at', handsBack_other (by rw [unknown]; decide)]; rfl
  · simp only [if_neg unknown]
    refine ⟨(changesDrop_refl l a s).congr at' (if_neg unknown).symm ?_ ?_, trivial⟩
    · rw [Drop.fallBits, if_neg unknown]
    · rw [Drop.fallRecords, if_neg unknown]; rfl

/-- What a successful probe writes into the drop before it becomes READY. -/
def Drop.probed (turn : Nat) (frame : List Byte) (d : Drop) : Drop :=
  { d with turnCount := turn, replyTimeout := replyTimeoutOf turn, room := if d.isTransmitter then replyRoom frame else d.room }

theorem probeOk_readies {x : Exchange} (at' : drop? s l x.address = some d) (idle : d.state ≠ .ready) (frame : List Byte) :
    ChangesDrop l x.address (fun d => Drop.enter .ready .probeOk (d.probed x.turn frame)) 0#14
      [dropStateRecord l x.address d.state .ready .probeOk] s (probeOk l x frame s).1
    ∧ (probeOk l x frame s).2 = [] := by
  have probed : drop? (modDrop l x.address (Drop.probed x.turn frame) s) l x.address = some (d.probed x.turn frame) := by
    rw [drop?_modDrop_same, at']; rfl
  refine ⟨((changesDrop_modDrop l x.address (Drop.probed x.turn frame) s).trans
    (changesDrop_setDropState .ready .probeOk probed)).congr at' rfl (by decide) rfl, ?_⟩
  exact (setDropState_handsBack .ready .probeOk probed).trans (by rw [handsBack_other (show (d.probed x.turn frame).state ≠ _ from idle)]; rfl)

/-! ## The end of an exchange (R126, R136, R137) -/

section
variable {x : Exchange} {o : Outcome} {c : Instr}

/-- The state in which an outcome acts: the line in its gap, the countdowns lowered, the history entered. -/
def exchangeOver (l : LineId) (x : Exchange) (o : Outcome) (s : State) : State :=
  enterHistory l x.address (o == .strike) (lowerCountdowns l (s.modLine l fun n => { n with phase := .gap }))

/-- The polled drop in that state. -/
def Drop.over (struck : Bool) (d : Drop) : Drop :=
  { d with strikes := (struck :: d.strikes).take 16, countdown := if d.state = .silent then d.countdown - 1 else d.countdown }

theorem endExchange_poll (poll : x.isProbe = false) (s : State) : endExchange l x o s
    = ((endPoll l x o (exchangeOver l x o s)).1, (endPoll l x o (exchangeOver l x o s)).2 ++ [.lineNext l]) := by
  unfold endExchange
  rw [poll]
  rfl

theorem endExchange_probe (probe : x.isProbe = true) (s : State) : endExchange l x o s
    = ((endProbe l x o (exchangeOver l x o s)).1, (endProbe l x o (exchangeOver l x o s)).2 ++ [.lineNext l]) := by
  unfold endExchange
  rw [probe]
  rfl

theorem drop?_exchangeOver (at' : drop? s l x.address = some d) (o : Outcome) :
    drop? (exchangeOver l x o s) l x.address = some (d.over (o == .strike)) := (exchange_over l x.address _ s d at').1

/-- What the end of an exchange leaves, when nothing is handed back and no restart waits: the drop is `e` up to its lamp commands. -/
structure ExchangeRests (l : LineId) (a : Nat) (e : Drop) (ev : BitVec 14) (rs : List JournalRecord) (s t : State) : Prop where
  drop : ∃ u, drop? t l a = some (e.relit u)
  phase : (t.line l).phase = .gap
  attention : t.attention = { s.attention with event := s.attention.event ||| ev }
  calls : t.calls = s.calls
  dispatcher : t.dispatcher = s.dispatcher
  quiet : rs = [] → t.journal = s.journal
  logs : hasRoom s rs.length → t.journal.pending = s.journal.pending ++ rs.map fun r => { r with tick := s.tickCount }

theorem exchangeRests (agenda : s.agenda = []) (engine : s.engine ≠ .stopping) (restart : (s.line l).restart = none)
    (at' : drop? s l x.address = some d) (changes : ChangesDrop l x.address f ev rs (exchangeOver l x o s) u)
    (ends : exec c s = .next (finish (u, [.lineNext l]))) :
    ∃ t, exec c s = .next t ∧ ExchangeRests l x.address (f (d.over (o == .strike))) ev rs s t := by
  obtain ⟨here, gap, waits, -, att, ag, en, calls, disp, -, area, tick, jour⟩ := exchange_over l x.address (o == .strike) s d at'
  have drop := changes.drop (drop?_exchangeOver at' o)
  have line := changes.line
  have closed : finish (u, [.lineNext l]) = recomputeLamps u :=
    finish_line u l (changes.agenda.trans (ag.trans agenda)) (by rw [line]; exact waits.trans restart)
      (by rw [changes.engine]; exact fun eq => engine (en.symm.trans eq))
  refine ⟨recomputeLamps u, by rw [ends, closed], ⟨u, by rw [drop?_recomputeLamps, drop]; rfl⟩, ?_,
    changes.attention.trans ?_, changes.calls.trans calls, changes.dispatcher.trans disp,
    fun none => (changes.quiet none).trans jour, fun room => ?_⟩
  · rw [line_recomputeLamps, line]
    exact gap
  · show Attention.mk ((exchangeOver l x o s).attention.event ||| ev) (exchangeOver l x o s).attention.mask = _
    rw [show (exchangeOver l x o s).attention = s.attention from att]
  · obtain ⟨writing, clear, fits⟩ := room
    have logs := changes.logs ⟨(congrArg Journal.state jour).trans writing, (congrArg AreaController.memoryFault area).trans clear,
      by rw [show (exchangeOver l x o s).journal = s.journal from jour]; exact fits⟩
    rw [show (exchangeOver l x o s).journal = s.journal from jour, show (exchangeOver l x o s).tickCount = s.tickCount from tick] at logs
    exact logs

end

end Sys2Proof.Machine

/-! # Proofs: the outcome of a probe (R123 to R125, R136) -/

namespace Sys2Proof.Machine

variable {s t u : State} {l : LineId} {x : Exchange} {d e : Drop} {c : Instr} {o : Outcome} {ev : BitVec 14} {rs records : List JournalRecord}

/-! ## The reply and the bytes after its CRC -/

theorem byteAt_take {data : List Byte} {n i : Nat} (h : i < n) : byteAt (data.take n) i = byteAt data i := by
  simp [byteAt, List.getD_eq_getElem?_getD, h]

theorem lt_replyLength (frame : List Byte) {i : Nat} (h : i < 9) : i < replyLength frame := by
  unfold replyLength
  omega

/-- The bytes after its CRC are no part of what a reply says. -/
theorem byteAt_reply (frame : List Byte) {i : Nat} (h : i < 9) : byteAt (frame.take (replyLength frame)) i = byteAt frame i :=
  byteAt_take (lt_replyLength frame h)

theorem replyKind_reply (frame : List Byte) : replyKind (frame.take (replyLength frame)) = replyKind frame := by
  rw [replyKind, byteAt_reply frame (by decide), replyKind]

theorem replyRoom_reply (frame : List Byte) : replyRoom (frame.take (replyLength frame)) = replyRoom frame := by
  rw [replyRoom, byteAt_reply frame (by decide), replyRoom]

theorem dropKind_eq (at' : drop? s l x.address = some d) : dropKind s l x.address = d.kind := by
  rw [dropKind, at']
  rfl

/-- A whole reply that has been judged ends the exchange. -/
theorem replyComplete_judged {frame : List Byte} (at' : drop? s l x.address = some d) (receiving : (s.line l).phase = .receiving x)
    (sync : startsWithSync frame = true) (whole : replyArrived frame = true)
    (judged : judgeReply x d.kind (frame.take (replyLength frame)) = o) :
    exec (.replyComplete l frame) s = .next (finish (endExchange l x o s)) := by
  rw [replyComplete_whole receiving sync whole, dropKind_eq at', judged]

theorem not_strike_of_miss (misses : o = .timeout ∨ o = .corrupt) : (o == .strike) = false := by
  rcases misses with rfl | rfl <;> rfl

/-! ## The drop after a probe -/

/-- A drop that has been probed without success is SILENT, with the cause of its fall where it was UNKNOWN. -/
theorem fell_over (probed : d.state = .unknown ∨ d.state = .silent) (cause : DropCause) (struck : Bool) :
    let v := (d.over struck).fell cause
    v.state = .silent ∧ v.lastCause = (if d.state = .unknown then cause else d.lastCause) ∧ v.misses = d.misses
      ∧ v.strikes = (struck :: d.strikes).take 16 ∧ v.replyTimeout = d.replyTimeout ∧ v.turnCount = d.turnCount ∧ v.room = d.room
      ∧ v.countdown = (if d.state = .unknown then 32 else d.countdown - 1) ∧ (d.state ≠ .silent → v.dirty = true) := by
  rcases probed with h | h <;> simp [Drop.fell, Drop.over, Drop.enter, Drop.markDirty, h, Config.probeSpacing]

/-- How a probe ends for a drop that does not become READY. -/
def ProbeEnds (c : Instr) (s : State) (l : LineId) (x : Exchange) (d : Drop) (st : DropState) (cause : DropCause) (misses : Nat)
    (history : List Bool) (records : List JournalRecord) : Prop :=
  ∃ t e, exec c s = .next t ∧ drop? t l x.address = some e ∧ (t.line l).phase = .gap
    ∧ e.state = st ∧ e.lastCause = cause ∧ e.misses = misses ∧ e.strikes = history ∧ e.replyTimeout = d.replyTimeout
    ∧ e.turnCount = d.turnCount ∧ e.room = d.room ∧ t.calls = s.calls ∧ t.dispatcher = s.dispatcher
    ∧ e.countdown = (if d.state = .unknown then 32 else d.countdown - 1) ∧ (d.state ≠ st → e.dirty = true)
    ∧ t.attention = (if d.state = .unknown ∨ st = .isolated then
      { s.attention with event := s.attention.event ||| BitVec.twoPow 14 10 } else s.attention)
    ∧ (records = [] → t.journal = s.journal)
    ∧ (s.journal.state = .writing → s.area.memoryFault = false → s.journal.pending.length < 63 →
      t.journal.pending = s.journal.pending ++ records)

theorem ProbeEnds.of_rests {st : DropState} {cause : DropCause} {misses : Nat} {history : List Bool}
    (rests : ∃ t, exec c s = .next t ∧ ExchangeRests l x.address e ev rs s t)
    (fields : e.state = st ∧ e.lastCause = cause ∧ e.misses = misses ∧ e.strikes = history ∧ e.replyTimeout = d.replyTimeout
      ∧ e.turnCount = d.turnCount ∧ e.room = d.room ∧ e.countdown = (if d.state = .unknown then 32 else d.countdown - 1)
      ∧ (d.state ≠ st → e.dirty = true))
    (bits : ev = if d.state = .unknown ∨ st = .isolated then BitVec.twoPow 14 10 else 0#14)
    (are : rs.map (fun r => { r with tick := s.tickCount }) = records) (few : rs.length ≤ 2) :
    ProbeEnds c s l x d st cause misses history records := by
  obtain ⟨t, next, rests⟩ := rests
  obtain ⟨u, drop⟩ := rests.drop
  obtain ⟨state, last, missed, strikes, timeout, turn, room, countdown, dirty⟩ := fields
  refine ⟨t, e.relit u, next, drop, rests.phase, state, last, missed, strikes, timeout, turn, room, rests.calls, rests.dispatcher,
    countdown, dirty, rests.attention.trans ?_, fun none => rests.quiet (List.map_eq_nil_iff.1 (are.trans none)),
    fun writing clear fits => (rests.logs ⟨writing, clear, by omega⟩).trans (by rw [are])⟩
  rw [bits]
  split
  · rfl
  · rw [BitVec.or_zero]

/-! ## The outcomes -/

/-- The records of a fall, under the tick of its event. -/
def fallLog (s : State) (l : LineId) (a : Nat) (cause : DropCause) (d : Drop) : List JournalRecord :=
  if d.state = .unknown then [{ dropStateRecord l a .unknown .silent cause with tick := s.tickCount }] else []

theorem fallRecords_over (s : State) (l : LineId) (a : Nat) (cause : DropCause) (d : Drop) (struck : Bool) :
    ((d.over struck).fallRecords l a cause).map (fun r => { r with tick := s.tickCount }) = fallLog s l a cause d := by
  by_cases unknown : d.state = .unknown <;> simp [Drop.fallRecords, Drop.over, fallLog, unknown]

theorem length_fallRecords (l : LineId) (a : Nat) (cause : DropCause) (d : Drop) : (d.fallRecords l a cause).length ≤ 1 := by
  unfold Drop.fallRecords
  split <;> simp

/-- The causes raised by the fall of a drop that does not become ISOLATED. -/
theorem fallBits_over (d : Drop) (struck : Bool) :
    (d.over struck).fallBits = if d.state = .unknown ∨ DropState.silent = .isolated then BitVec.twoPow 14 10 else 0#14 := by
  by_cases unknown : d.state = .unknown <;> simp [Drop.fallBits, Drop.over, unknown]

/-- A strike: the drop falls, and then its strikes are judged (R136, log 42). -/
theorem endProbe_strike (at' : drop? s l x.address = some d) (probed : d.state = .unknown ∨ d.state = .silent) :
    endProbe l x .strike (exchangeOver l x .strike s)
    = settleStrikes l x.address (probeFailed l x.address (exchangeOver l x .strike s)).1
    ∧ ChangesDrop l x.address (Drop.fell .probeFailed) (d.over true).fallBits ((d.over true).fallRecords l x.address .probeFailed)
      (exchangeOver l x .strike s) (probeFailed l x.address (exchangeOver l x .strike s)).1
    ∧ drop? (probeFailed l x.address (exchangeOver l x .strike s)).1 l x.address = some ((d.over true).fell .probeFailed)
    ∧ ((d.over true).fell .probeFailed).strikes = (true :: d.strikes).take 16
    ∧ ((d.over true).fell .probeFailed).state = .silent := by
  have polled := drop?_exchangeOver at' .strike
  obtain ⟨changes, nothing⟩ := probeFailed_falls polled
  obtain ⟨state, -, -, strikes, -⟩ := fell_over probed .probeFailed true
  refine ⟨?_, changes, changes.drop polled, strikes, state⟩
  show (_, _ ++ _) = _
  rw [nothing]
  rfl

theorem roster_exchangeOver (at' : drop? s l x.address = some d) (o : Outcome) : (exchangeOver l x o s).roster = s.roster := by
  obtain ⟨-, -, -, -, -, -, -, -, -, roster, -⟩ := exchange_over l x.address (o == .strike) s d at'
  exact roster

section
variable (agenda : s.agenda = []) (engine : s.engine ≠ .stopping) (restart : (s.line l).restart = none) (probe : x.isProbe = true)
  (at' : drop? s l x.address = some d)
include agenda engine restart probe at'

/-- A probe's outcome that hands nothing back comes to rest. -/
theorem probeRests {f : Drop → Drop} (changes : ChangesDrop l x.address f ev rs (exchangeOver l x o s) u)
    (is : endProbe l x o (exchangeOver l x o s) = (u, [])) (ends : exec c s = .next (finish (endExchange l x o s))) :
    ∃ t, exec c s = .next t ∧ ExchangeRests l x.address (f (d.over (o == .strike))) ev rs s t :=
  exchangeRests agenda engine restart at' changes (by rw [ends, endExchange_probe probe, is]; rfl)

/-- A valid reply of the drop-list kind makes the drop READY (R124, R125). -/
theorem probe_succeeds {frame : List Byte} (idle : d.state ≠ .ready) (kind : replyKind frame = d.kind)
    (ends : exec c s = .next (finish (endExchange l x (.valid frame) s))) : ∃ t, exec c s = .next t
      ∧ ExchangeRests l x.address (Drop.enter .ready .probeOk ((d.over false).probed x.turn frame)) 0#14
        [dropStateRecord l x.address d.state .ready .probeOk] s t := by
  have polled := drop?_exchangeOver at' (.valid frame)
  obtain ⟨changes, nothing⟩ := probeOk_readies polled idle frame
  refine probeRests agenda engine restart probe at' (o := .valid frame) changes ?_ ends
  rw [← nothing]
  exact if_pos (by rw [polled]; simp [Drop.over, kind])

variable (probed : d.state = .unknown ∨ d.state = .silent)
include probed

/-- No reply, or a corrupt one (R124). -/
theorem probe_fails (fails : o = .timeout ∨ o = .corrupt) (ends : exec c s = .next (finish (endExchange l x o s))) :
    ProbeEnds c s l x d .silent (if d.state = .unknown then .probeFailed else d.lastCause) d.misses ((false :: d.strikes).take 16)
      (fallLog s l x.address .probeFailed d) := by
  have polled := drop?_exchangeOver at' o
  obtain ⟨changes, nothing⟩ := probeFailed_falls polled
  have is : endProbe l x o (exchangeOver l x o s) = ((probeFailed l x.address (exchangeOver l x o s)).1, []) := by
    rw [← nothing]
    rcases fails with rfl | rfl <;> rfl
  have rests := probeRests agenda engine restart probe at' changes is ends
  rw [not_strike_of_miss fails] at rests
  exact .of_rests rests (fell_over probed .probeFailed false) (fallBits_over d false) (fallRecords_over ..)
    ((length_fallRecords ..).trans (by decide))

/-- A valid reply that names another kind (R124). -/
theorem probe_mismatches {frame : List Byte} {found : DropKind} (is : replyKind frame = found) (other : found ≠ d.kind)
    (ends : exec c s = .next (finish (endExchange l x (.valid frame) s))) :
    ProbeEnds c s l x d .silent (if d.state = .unknown then .kindMismatch else d.lastCause) d.misses ((false :: d.strikes).take 16)
      (fallLog s l x.address .kindMismatch d ++ if d.state = .unknown then
        [{ kindMismatchRecord l x.address found d.kind with tick := s.tickCount }] else []) := by
  subst is
  have polled := drop?_exchangeOver at' (.valid frame)
  obtain ⟨changes, nothing⟩ := probeMismatch_falls polled (replyKind frame)
  have is : endProbe l x (.valid frame) (exchangeOver l x (.valid frame) s)
      = ((probeMismatch l x.address (replyKind frame) (exchangeOver l x (.valid frame) s)).1, []) := by
    rw [← nothing]
    exact if_neg (by rw [polled]; simpa [Drop.over] using other.symm)
  refine .of_rests (probeRests agenda engine restart probe at' changes is ends) (fell_over probed .kindMismatch false)
    (fallBits_over d false) ?_ ?_
  · rw [List.map_append, fallRecords_over, apply_ite (List.map _)]
    rfl
  · rw [List.length_append]
    have := length_fallRecords l x.address .kindMismatch (d.over (Outcome.valid frame == .strike))
    split <;> simp <;> omega

/-- A strike that is not the third in 16. -/
theorem probe_strikes (few : ((true :: d.strikes).take 16).count true < 3)
    (ends : exec c s = .next (finish (endExchange l x .strike s))) :
    ProbeEnds c s l x d .silent (if d.state = .unknown then .probeFailed else d.lastCause) d.misses ((true :: d.strikes).take 16)
      (fallLog s l x.address .probeFailed d) := by
  obtain ⟨is, changes, here, strikes, -⟩ := endProbe_strike at' probed
  rw [settleStrikes_few here (by rwa [strikes])] at is
  exact .of_rests (probeRests agenda engine restart probe at' changes is ends) (fell_over probed .probeFailed true)
    (fallBits_over d true) (fallRecords_over ..) ((length_fallRecords ..).trans (by decide))

/-- The third strike of a drop that may be isolated. -/
theorem probe_isolates (three : 3 ≤ ((true :: d.strikes).take 16).count true) (isolates : s.roster.settings.isolateOnBabble = true)
    (ends : exec c s = .next (finish (endExchange l x .strike s))) :
    ProbeEnds c s l x d .isolated .babble 0 [] (fallLog s l x.address .probeFailed d
      ++ [{ dropStateRecord l x.address .silent .isolated .babble with tick := s.tickCount }]) := by
  obtain ⟨is, changes, here, strikes, state⟩ := endProbe_strike at' probed
  have setting := (congrArg RosterStore.settings (changes.roster.trans (roster_exchangeOver at' .strike)) :)
  obtain ⟨isolated, nothing⟩ := settleStrikes_isolates here (by rwa [strikes]) (by rwa [setting])
  rw [handsBack_other (by rw [state]; decide)] at nothing
  rw [state] at isolated
  refine .of_rests (probeRests agenda engine restart probe at' (changes.trans isolated) (is.trans (Prod.ext rfl nothing)) ends) ?_ ?_
    ?_ ?_
  · rcases probed with h | h <;> simp [Drop.fell, Drop.over, Drop.enter, Drop.markDirty, h, Config.probeSpacing]
  · rw [fallBits_over]
    rcases probed with h | h <;> simp [h]
  · rw [List.map_append, fallRecords_over]
    rfl
  · have := length_fallRecords l x.address .probeFailed (d.over true)
    simpa using this

/-- The third strike of a drop that may not be isolated. -/
theorem probe_babbles (three : 3 ≤ ((true :: d.strikes).take 16).count true) (keeps : s.roster.settings.isolateOnBabble = false)
    (ends : exec c s = .next (finish (endExchange l x .strike s))) :
    ProbeEnds c s l x d .silent (if d.state = .unknown then .probeFailed else d.lastCause) d.misses []
      (fallLog s l x.address .probeFailed d
        ++ [{ babbleRecord l x.address (((true :: d.strikes).take 16).count true) with tick := s.tickCount }]) := by
  obtain ⟨is, changes, here, strikes, -⟩ := endProbe_strike at' probed
  have setting := (congrArg RosterStore.settings (changes.roster.trans (roster_exchangeOver at' .strike)) :)
  obtain ⟨babbles, nothing⟩ := settleStrikes_babbles here (by rwa [strikes]) (by rwa [setting])
  rw [strikes] at babbles
  obtain ⟨state, cause, misses, -, rest⟩ := fell_over probed .probeFailed true
  refine .of_rests (probeRests agenda engine restart probe at' (changes.trans babbles) (is.trans (Prod.ext rfl nothing)) ends)
    ⟨state, cause, misses, rfl, rest⟩ ?_ ?_ ?_
  · rw [fallBits_over, BitVec.or_zero]
  · rw [List.map_append, fallRecords_over]
    rfl
  · have := length_fallRecords l x.address .probeFailed (d.over true)
    simpa using this

end

/-! ## Settled -/

/-- Settles O49: the outcome of the probe, one lemma for each. -/
theorem probeCalibratesTheReplyTimeout : Obligations.ProbeCalibratesTheReplyTimeout := by
  unfold Obligations.ProbeCalibratesTheReplyTimeout
  intro s l x d agenda engine restart probe at' probed
  refine ⟨?_, fun c => ?_⟩
  · intro frame receiving sync whole reply judged kind
    have idle : d.state ≠ .ready := by rcases probed with h | h <;> rw [h] <;> decide
    obtain ⟨t, next, rests⟩ := probe_succeeds agenda engine restart probe at' idle ((replyKind_reply frame).trans kind)
      (replyComplete_judged at' receiving sync whole judged)
    obtain ⟨v, drop⟩ := rests.drop
    refine ⟨t, _, next, drop, rests.phase, rfl, rfl, rfl, rfl, rfl, rfl, rfl, rfl, fun writing clear fits =>
      rests.logs ⟨writing, clear, fits⟩, fun transmitter => ?_, rests.calls, rests.attention.trans ?_⟩
    · show (if d.kind == .transmitter then replyRoom reply else d.room) = replyRoom frame
      rw [transmitter]
      exact replyRoom_reply frame
    · rw [BitVec.or_zero]
  · intro isJudged isReceiving isFailure isStrike isMismatch at_ change faulted ends history struck cause first
    have judged {f : List Byte} {o : List Byte → Outcome} (receiving : isReceiving) (is : isJudged f o) :
        exec (.replyComplete l f) s = .next (finish (endExchange l x (o (f.take (replyLength f))) s)) :=
      replyComplete_judged at' receiving is.1 is.2.1 is.2.2
    have strikes (is : isStrike) : exec c s = .next (finish (endExchange l x .strike s)) := by
      obtain ⟨receiving, rfl | ⟨f, rfl, is⟩⟩ := is
      · exact replySlotEnd_receiving receiving
      · exact judged (o := fun _ => .strike) receiving is
    refine ⟨fun fails => ?_, fun found mismatch => ?_, fun is few => ?_, fun is three isolates => ?_, fun is three keeps => ?_⟩
    · rcases fails with ⟨awaiting, rfl⟩ | ⟨receiving, rfl | ⟨f, rfl, notSync | is⟩⟩
      · exact probe_fails agenda engine restart probe at' probed (.inl rfl) (probeTimeout_awaiting awaiting probe)
      · exact probe_fails agenda engine restart probe at' probed (.inr rfl) (replyNotSync_receiving receiving)
      · exact probe_fails agenda engine restart probe at' probed (.inr rfl) (replyComplete_notSync receiving notSync)
      · exact probe_fails agenda engine restart probe at' probed (.inr rfl) (judged (o := fun _ => .corrupt) receiving is)
    · obtain ⟨receiving, other, f, rfl, is, kind⟩ := mismatch
      exact probe_mismatches agenda engine restart probe at' probed ((replyKind_reply f).trans kind) other (judged (o := .valid) receiving is)
    · exact probe_strikes agenda engine restart probe at' probed few (strikes is)
    · exact probe_isolates agenda engine restart probe at' probed three isolates (strikes is)
    · exact probe_babbles agenda engine restart probe at' probed three keeps (strikes is)

end Sys2Proof.Machine

/-! # Proofs: how a reply is judged (R128, R129), and what a transmitter that has left READY hands back (R100) -/

namespace Sys2Proof.Machine

variable {s : State} {l : LineId} {a n : Nat} {r : Delivery} {e : AirEntry} {st : Stage} {b : LineId × Nat}

/-! ## The judgement of a reply -/

/-- What makes a complete reply CORRUPT (R128): its sync, its CRC, its kind, its report count, the kinds of its reports, and on a POLL
another kind than the drop list's. -/
def IsCorrupt (x : Exchange) (kind : DropKind) (f : List Byte) : Prop :=
  f.take 2 ≠ [0xC3, 0x5A] ∨ (crc16 ((f.take (replyLength f - 2)).drop 2)).toNat ≠ le16 f (replyLength f - 2)
    ∨ (byteAt f 3 ≠ 1 ∧ byteAt f 3 ≠ 2) ∨ 8 < byteAt f 6
    ∨ (∃ r ∈ replyReports f, if byteAt f 3 = 2 then byteAt r 0 ≠ 8 ∧ byteAt r 0 ≠ 9 else byteAt r 0 < 1 ∨ 6 < byteAt r 0)
    ∨ (x.isProbe = false ∧ kind ≠ if byteAt f 3 = 1 then .transmitter else .station)

theorem startsWithSync_iff (f : List Byte) : startsWithSync f = true ↔ f.take 2 = [0xC3, 0x5A] := beq_iff_eq

theorem reportKindOk_iff (station : Bool) (report : List Byte) : reportKindOk station report = true
    ↔ ¬if station = true then byteAt report 0 ≠ 8 ∧ byteAt report 0 ≠ 9 else byteAt report 0 < 1 ∨ 6 < byteAt report 0 := by
  cases station
  · simp [reportKindOk]
    omega
  · simp [reportKindOk]
    omega

/-- The kind that a reply names (R128). -/
theorem replyKind_cases (f : List Byte) : byteAt f 3 = 1 ∧ replyKind f = .transmitter ∨ byteAt f 3 = 2 ∧ replyKind f = .station
    ∨ (byteAt f 3 ≠ 1 ∧ byteAt f 3 ≠ 2) ∧ replyKind f = .unused := by
  unfold replyKind readDropKind
  split
  · exact .inl ⟨‹_›, rfl⟩
  · split
    · exact .inr (.inl ⟨‹_›, rfl⟩)
    · exact .inr (.inr ⟨⟨‹_›, ‹_›⟩, rfl⟩)

theorem isCorrupt_iff (x : Exchange) (kind : DropKind) (f : List Byte) : IsCorrupt x kind f
    ↔ startsWithSync f = false ∨ replyCorrupt f = true ∨ (x.isProbe = false ∧ replyKind f ≠ kind) := by
  have sync : f.take 2 ≠ [0xC3, 0x5A] ↔ startsWithSync f = false := by
    rw [ne_eq, ← startsWithSync_iff, Bool.not_eq_true]
  have reports (station : Bool) : (∃ r ∈ replyReports f, if station = true then byteAt r 0 ≠ 8 ∧ byteAt r 0 ≠ 9
      else byteAt r 0 < 1 ∨ 6 < byteAt r 0) ↔ ∃ r ∈ replyReports f, reportKindOk station r = false := by
    simp only [← Bool.not_eq_true, reportKindOk_iff, not_not]
  have crc : replyCrcOk f = false
      ↔ (crc16 ((f.take (replyLength f - 2)).drop 2)).toNat ≠ le16 f (replyLength f - 2) := beq_eq_false_iff_ne
  unfold IsCorrupt replyCorrupt
  rw [sync]
  rcases replyKind_cases f with ⟨byte, kindIs⟩ | ⟨byte, kindIs⟩ | ⟨⟨one, two⟩, kindIs⟩
  · have is := reports false
    simp only [Bool.false_eq_true, if_false, Nat.lt_one_iff] at is
    simp [byte, kindIs, is, crc, or_assoc, eq_comm (a := kind), show (DropKind.transmitter == DropKind.station) = false from rfl]
  · have is := reports true
    simp only [if_true] at is
    simp [byte, kindIs, is, crc, or_assoc, eq_comm (a := kind)]
  · simp [one, two, kindIs]

theorem judgeReply_corrupt {x : Exchange} {kind : DropKind} {f : List Byte} (corrupt : IsCorrupt x kind f) :
    judgeReply x kind f = .corrupt := by
  unfold judgeReply
  rcases (isCorrupt_iff x kind f).1 corrupt with h | h | ⟨poll, other⟩
  · rw [if_pos (by rw [h]; rfl)]
  · rw [if_pos h, ite_self]
  · have named : (!x.isProbe && replyKind f != kind) = true := by simp [poll, other]
    rw [if_pos named, ite_self, ite_self]

theorem judgeReply_whole {x : Exchange} {kind : DropKind} {f : List Byte} (whole : ¬IsCorrupt x kind f) :
    judgeReply x kind f = if byteAt f 2 = x.address then .valid f else .strike := by
  rw [isCorrupt_iff] at whole
  push Not at whole
  obtain ⟨sync, good, named⟩ := whole
  unfold judgeReply
  rw [if_neg (by simpa using sync), if_neg good, if_neg (by simpa using named), ite_not]

/-! ## A copy that is handed back (R100) -/

/-- The record is at a stage, with a copy of it at a drop. -/
def Delivery.isAt (l : LineId) (a : Nat) (st : Stage) (r : Delivery) : Prop :=
  r.isPending = false ∧ r.stage = st ∧ ∃ x ∈ r.copies, x.line = l ∧ x.drop = a

theorem isAt_iff (l : LineId) (a : Nat) (st : Stage) (r : Delivery) :
    r.isAt l a st ↔ (r.isPending || r.stage ≠ st || !r.hasCopy l a) = false := by
  simp [Delivery.isAt, Delivery.hasCopy, and_assoc]

theorem handBack_gone (l : LineId) (a : Nat) (carries : e.carriage = .delivery n st)
    (gone : ∀ r, delivery? s n = some r → ¬r.isAt l a st) : settleHandedBack l a e s = (s, []) := by
  unfold settleHandedBack
  rw [carries]
  dsimp only
  split
  · rfl
  · rename_i r here
    have not := gone r here
    rw [isAt_iff, Bool.not_eq_false] at not
    exact if_pos not

theorem handBack_stage (carries : e.carriage = .delivery n st) (here : delivery? s n = some r) (at' : r.isAt l a st) :
    settleHandedBack l a e s = if st = .plant then checkRoute n (modDelivery n (Delivery.removeCopy l a) s)
      else beginStage n st.next s := by
  unfold settleHandedBack
  rw [carries]
  dsimp only
  rw [here]
  refine (if_neg ?_).trans ?_
  · rw [Bool.not_eq_true, ← isAt_iff]
    exact at'
  · cases st <;> rfl

theorem removeCopy_eq (l : LineId) (a : Nat) (r : Delivery) :
    r.removeCopy l a = { r with copies := r.copies.filter fun x => x.line != l || x.drop != a } := by
  simp [Delivery.removeCopy, bne]

/-- A PLANT copy that is handed back leaves its record, which is offered again when nothing is left (R95, R100). -/
theorem handBack_plant (carries : e.carriage = .delivery n .plant) (here : delivery? s n = some r) (at' : r.isAt l a .plant) :
    let others : List Copy → List Copy := fun copies => copies.filter fun x => x.line != l || x.drop != a
    let u : State := { s with dispatcher := { s.dispatcher with records := s.dispatcher.records.map fun x =>
      if x.serial = n then { x with copies := others x.copies } else x } }
    settleHandedBack l a e s
      = if others r.copies = [] ∧ r.receipt.active = false then beginStage n .plant u else (u, []) := by
  intro others u
  have removed : modDelivery n (Delivery.removeCopy l a) s = u := by
    rw [show Delivery.removeCopy l a = fun x => { x with copies := others x.copies } from funext (removeCopy_eq l a)]
    rfl
  have left : delivery? u n = some { r with copies := others r.copies } :=
    delivery?_modDelivery_same (f := fun x => { x with copies := others x.copies }) (fun _ => rfl) here
  rw [handBack_stage carries here at', if_pos rfl, removed]
  by_cases lost : others r.copies = [] ∧ r.receipt.active = false
  · rw [if_pos lost]
    exact checkRoute_lost left lost.1 lost.2
  · rw [if_neg lost]
    rw [not_and_or, Bool.not_eq_false] at lost
    exact checkRoute_kept left lost

/-! ## A control message that is handed back (R89, R100) -/

/-- The second route position: the home zone, where it is not 0 and differs from the fresh last-heard zone (R89). -/
theorem routeTransmitter_second (f : FixedRoute) : routeTransmitter s f .second = some b
    ↔ f.home ≠ 0 ∧ f.lastZone ≠ some f.home ∧ usableTransmitter s f.home = some b := by
  unfold routeTransmitter routeZone
  by_cases none : f.home = 0 ∨ f.lastZone = some f.home
  · simp only [if_pos none, Option.bind_none, reduceCtorEq, false_iff]
    tauto
  · rw [not_or] at none
    simp [none.1, none.2]

/-- Where a control message at a route position goes as it is handed back. -/
def GoesSecond (s : State) (p : RoutePosition) (fixed : Option FixedRoute) (m : Nat) (b : LineId × Nat) : Prop :=
  p = .first ∧ (fixed.map (·.home)).getD (homeZone s.roster.tables m) ≠ 0
    ∧ (fixed.map (·.lastZone)).getD (freshZone s m) ≠ some ((fixed.map (·.home)).getD (homeZone s.roster.tables m))
    ∧ usableTransmitter s ((fixed.map (·.home)).getD (homeZone s.roster.tables m)) = some b

theorem goesSecond_iff (p : RoutePosition) (fixed : Option FixedRoute) (m : Nat) :
    GoesSecond s p fixed m b ↔ p = .first ∧ routeTransmitter s (fixed.getD (routeOf s m)) .second = some b := by
  rw [routeTransmitter_second]
  cases fixed <;> rfl

variable {p : RoutePosition} {fixed : Option FixedRoute} {kept : Option Nat}

theorem handBack_rerouted (l : LineId) (a : Nat) (carries : e.carriage = .control p fixed kept)
    (goes : GoesSecond s p fixed e.message.member b) :
    settleHandedBack l a e s = (enqueue e.message (.control .second fixed kept) b.1 b.2 s, []) := by
  obtain ⟨rfl, second⟩ := (goesSecond_iff p fixed e.message.member).1 goes
  unfold settleHandedBack
  rw [carries]
  dsimp only
  rw [second]

theorem handBack_dropped (l : LineId) (a : Nat) (carries : e.carriage = .control p fixed kept)
    (nowhere : ∀ b, ¬GoesSecond s p fixed e.message.member b) :
    settleHandedBack l a e s = (messageDropped e.message .noRoute none s, []) := by
  unfold settleHandedBack
  rw [carries]
  dsimp only
  split
  · rename_i b second
    exact absurd ((goesSecond_iff _ fixed e.message.member).2 ⟨rfl, second⟩) (nowhere b)
  · rfl

theorem usableTransmitter_drop {z : Nat} (h : usableTransmitter s z = some b) : b.2 ≠ 0 :=
  address_ne_zero (Option.filter_eq_some_iff.1 h).2

/-- MESSAGE DROPPED with no route names no line and no drop (log 54). -/
theorem pending_droppedNoRoute (room : hasRoom s 1) (m : Message) : (messageDropped m .noRoute none s).journal.pending
    = s.journal.pending ++ [{ tagRecord s .messageDropped m.tag with
      tick := s.tickCount, member := some m.member, detail1 := m.kind.code, detail2 := 3 }] := by
  refine (submit_pending room _).trans ?_
  unfold tagRecord
  split <;> rfl

/-- The urgency of an entry that carries a control message (R58). -/
theorem urgency_control (m : Message) (position : RoutePosition) (fixed : Option FixedRoute) (kept : Option Nat) :
    let entry := entryOf s m (.control position fixed kept)
    let k := context s (m.tag % 128)
    (∀ n, kept = some n → entry.urgency = n)
    ∧ (kept = none → tagLive s m.tag = true → m.kind.isControl = true →
      entry.urgency = (5 - k.severity) * 1000 + 500 + min ((s.tickCount - k.admitTick).toNat / 10) 499)
    ∧ (kept = none → tagLive s m.tag = false → m.kind = .standDown → entry.urgency = 1500) := by
  refine ⟨fun n is => ?_, fun none live control => ?_, fun none stale standDown => ?_⟩
  · subst is
    rfl
  · subst none
    show messageUrgency s m none = _
    simp [messageUrgency, live, callUrgency, urgencyOf, control, tagContext, ticksSince]
  · subst none
    show messageUrgency s m none = _
    simp [messageUrgency, stale, standDown, urgencyOf]

end Sys2Proof.Machine

/-! # Proofs: the outcome of a POLL to a READY drop that brings no valid reply (R100, R123, R135, R136) -/

namespace Sys2Proof.Machine

variable {s t u : State} {l : LineId} {x : Exchange} {d e v : Drop} {c : Instr} {o : Outcome}

/-! ## The other drops -/

theorem ne_zero_of_drop {a : Nat} (at' : drop? s l a = some d) : a ≠ 0 := by
  rintro rfl
  cases at'

/-- The end of an exchange leaves what no countdown touches of every other drop. -/
theorem others_exchangeOver {α : Type} (k : Drop → α) (same : ∀ d n, k { d with countdown := n } = k d)
    (at' : drop? s l x.address = some d) (o : Outcome) {b : LineId × Nat} (other : b ≠ (l, x.address)) :
    (drop? (exchangeOver l x o s) b.1 b.2).map k = (drop? s b.1 b.2).map k := by
  obtain ⟨m, i⟩ := b
  by_cases line : m = l
  · subst line
    have ne : i ≠ x.address := fun eq => other (congrArg (Prod.mk m) eq)
    dsimp only
    rw [exchangeOver, enterHistory, drop?_modDrop_ne ne (ne_zero_of_drop at'), lowerCountdowns,
      drop?_modLine_map m _ (fun d => if d.state = .silent then { d with countdown := d.countdown - 1 } else d) _ rfl,
      drop?_modLine_same _ _ _ rfl, Option.map_map]
    refine congrArg (fun k => Option.map k _) (funext fun d => ?_)
    rw [Function.comp_apply, apply_ite k, same, ite_self]
  · refine congrArg (Option.map k) (drop?_congr ?_ i)
    rw [exchangeOver, enterHistory, modDrop, State.line_modLine_ne line, lowerCountdowns, State.line_modLine_ne line,
      State.line_modLine_ne line]

/-! ## A drop that leaves READY (R100, R123) -/

/-- The journal gains a record of the polled drop, under the tick of its event. -/
def Submits (s : State) (l : LineId) (a : Nat) (j : Journal) (record : JournalRecord) : Prop :=
  s.journal.state = .writing → s.area.memoryFault = false → s.journal.pending.length < 64 →
    j.pending = s.journal.pending ++ [{ record with tick := s.tickCount, line := some l, drop := a }]

/-- How an exchange ends for a drop that leaves READY: in the event, what it held is handed back one message at a time. -/
def DropLeaves (c : Instr) (s : State) (l : LineId) (x : Exchange) (d : Drop) (st : DropState) (cause : DropCause)
    (history : List Bool) : Prop :=
  ∃ u e, exec c s = .next (finish (u, (d.inFlight ++ d.queue).map (Task.handBack l x.address) ++ [.lineNext l]))
    ∧ drop? u l x.address = some e ∧ (u.line l).phase = .gap ∧ e.state = st ∧ e.lastCause = cause ∧ e.misses = 0
    ∧ e.inFlight = [] ∧ e.queue = [] ∧ e.strikes = history ∧ e.dirty = true ∧ e.changes = (d.changes + 1) % 65536
    ∧ (st = .silent → e.countdown = 32)
    ∧ (∀ a : LineId × Nat, a ≠ (l, x.address) → (drop? u a.1 a.2).map (fun d => (d.state, d.inFlight, d.queue))
      = (drop? s a.1 a.2).map fun d => (d.state, d.inFlight, d.queue))
    ∧ Submits s l x.address u.journal { blankRecord .dropState with detail1 := 2 * 256 + st.code, detail2 := cause.code }
    ∧ u.attention = { s.attention with event := s.attention.event ||| BitVec.twoPow 14 10 }
    ∧ u.calls = s.calls ∧ u.dispatcher = s.dispatcher ∧ u.roster = s.roster

/-- What the drop has become by then, whatever made it leave. -/
theorem enter_of_ready (new : DropState) (cause : DropCause) (ready : v.state = .ready) :
    (v.enter new cause).inFlight = [] ∧ (v.enter new cause).queue = [] ∧ (new = .silent → (v.enter new cause).countdown = 32) := by
  refine ⟨?_, ?_, fun silent => ?_⟩
  · simp [Drop.enter, Drop.markDirty, ready]
  · simp [Drop.enter, Drop.markDirty, ready]
  · simp [Drop.enter, Drop.markDirty, silent, Config.probeSpacing]

theorem dropLeaves (poll : x.isProbe = false) (at' : drop? s l x.address = some d) {g : Drop → Drop} {st : DropState} {cause : DropCause}
    {history : List Bool} {r : State × List Task}
    (changes : ChangesDrop l x.address (fun d => Drop.enter st cause (g d)) (BitVec.twoPow 14 10)
      [dropStateRecord l x.address .ready st cause] (exchangeOver l x o s) r.1)
    (is : endPoll l x o (exchangeOver l x o s) = r) (handed : r.2 = (d.inFlight ++ d.queue).map (Task.handBack l x.address))
    (ends : exec c s = .next (finish (endExchange l x o s)))
    (becomes : g (d.over (o == .strike)) = v) (ready : v.state = .ready) (misses : v.misses = 0) (strikes : v.strikes = history)
    (count : v.changes = d.changes) : DropLeaves c s l x d st cause history := by
  obtain ⟨-, gap, -, -, att, -, -, calls, disp, roster, area, tick, jour⟩ := exchange_over l x.address (o == .strike) s d at'
  have drop := changes.drop (drop?_exchangeOver at' o)
  obtain ⟨sets, queue, countdown⟩ := enter_of_ready st cause ready
  rw [becomes] at drop
  refine ⟨r.1, v.enter st cause, ?_, drop, ?_, rfl, rfl, misses, sets, queue, strikes, rfl, ?_, countdown, fun b other => ?_,
    fun writing clear fits => ?_, changes.attention.trans ?_, changes.calls.trans calls, changes.dispatcher.trans disp,
    changes.roster.trans roster⟩
  · rw [ends, endExchange_poll poll, is, handed]
  · rw [changes.line]
    exact gap
  · exact congrArg (fun n => (n + 1) % 65536) count
  · rw [changes.others (ne_zero_of_drop at') other]
    exact others_exchangeOver (fun d => (d.state, d.inFlight, d.queue)) (fun _ _ => rfl) at' o other
  · have jour' : (exchangeOver l x o s).journal = s.journal := jour
    have tick' : (exchangeOver l x o s).tickCount = s.tickCount := tick
    have logs := changes.logs ⟨(congrArg Journal.state jour).trans writing, (congrArg AreaController.memoryFault area).trans clear,
      by rw [jour']; exact fits⟩
    rw [jour', tick'] at logs
    exact logs
  · show Attention.mk ((exchangeOver l x o s).attention.event ||| _) (exchangeOver l x o s).attention.mask = _
    rw [show (exchangeOver l x o s).attention = s.attention from att]

/-! ## A drop that stays READY -/

/-- How an exchange ends for a drop that stays READY. -/
def DropStays (c : Instr) (s : State) (l : LineId) (x : Exchange) (d : Drop) (misses : Nat) (history : List Bool) (strikes : Nat) : Prop :=
  ∃ t e, exec c s = .next t ∧ drop? t l x.address = some e
    ∧ (t.line l).phase = .gap ∧ e.state = .ready ∧ e.misses = misses ∧ e.strikes = history ∧ e.inFlight = d.inFlight
    ∧ e.queue = d.queue ∧ e.lastCause = d.lastCause ∧ t.attention = s.attention ∧ t.calls = s.calls
    ∧ t.dispatcher = s.dispatcher
    ∧ (if history = [] then Submits s l x.address t.journal { blankRecord .babble with detail1 := strikes } else t.journal = s.journal)

section
variable (agenda : s.agenda = []) (poll : x.isProbe = false) (at' : drop? s l x.address = some d) (ready : d.state = .ready)

section
variable (misses : o = .timeout ∨ o = .corrupt) (ends : exec c s = .next (finish (endExchange l x o s)))
include at' misses

theorem endPoll_miss : endPoll l x o (exchangeOver l x o s) = missPoll l x.address (exchangeOver l x o s)
    ∧ drop? (exchangeOver l x o s) l x.address = some (d.over false) := by
  have polled := drop?_exchangeOver at' o
  rw [not_strike_of_miss misses] at polled
  refine ⟨?_, polled⟩
  unfold endPoll
  rw [polled]
  rcases misses with rfl | rfl <;> rfl

include poll ready ends

/-- The third miss in a row (R135). -/
theorem poll_thirdMiss (third : 2 ≤ d.misses) : DropLeaves c s l x d .silent .misses ((false :: d.strikes).take 16) := by
  obtain ⟨is, polled⟩ := endPoll_miss at' misses
  obtain ⟨changes, handed⟩ := missPoll_third polled third
  rw [handsBack_ready (show (d.over false).state = .ready from ready)] at handed
  rw [show (d.over false).state = .ready from ready] at changes
  exact dropLeaves poll at' (g := fun d => { d with misses := 0 }) (v := { d.over false with misses := 0 }) changes
    is handed ends (by rw [not_strike_of_miss misses]) ready rfl rfl rfl

include agenda

theorem poll_miss (engine : s.engine ≠ .stopping) (restart : (s.line l).restart = none) (few : d.misses < 2) (strikes : Nat) :
    DropStays c s l x d (d.misses + 1) ((false :: d.strikes).take 16) strikes := by
  obtain ⟨is, polled⟩ := endPoll_miss at' misses
  rw [missPoll_few polled few] at is
  obtain ⟨t, next, rests⟩ := exchangeRests agenda engine restart at' (changesDrop_modDrop l x.address _ _)
    (ends.trans (by rw [endExchange_poll poll, is]; rfl))
  rw [not_strike_of_miss misses] at rests
  obtain ⟨w, drop⟩ := rests.drop
  refine ⟨t, _, next, drop, rests.phase, ready, rfl, rfl, rfl, rfl, rfl, rests.attention.trans ?_, rests.calls, rests.dispatcher, ?_⟩
  · rw [BitVec.or_zero]
  · rw [if_neg (by simp)]
    exact rests.quiet rfl

/-- The third miss of a drop that holds nothing to hand back. -/
theorem poll_thirdMiss_empty (engine : s.engine ≠ .stopping) (restart : (s.line l).restart = none) (third : 2 ≤ d.misses)
    (noSet : d.inFlight = []) (noQueue : d.queue = []) : ∃ t e, exec c s = .next t ∧ drop? t l x.address = some e
      ∧ (t.line l).phase = .gap ∧ e.state = .silent ∧ e.misses = 0 ∧ e.strikes = (false :: d.strikes).take 16
      ∧ t.attention = { s.attention with event := s.attention.event ||| BitVec.twoPow 14 10 } ∧ t.calls = s.calls
      ∧ t.dispatcher = s.dispatcher := by
  obtain ⟨is, polled⟩ := endPoll_miss at' misses
  obtain ⟨changes, handed⟩ := missPoll_third polled third
  rw [handsBack_ready (show (d.over false).state = .ready from ready), show (d.over false).inFlight = [] from noSet,
    show (d.over false).queue = [] from noQueue] at handed
  obtain ⟨t, next, rests⟩ := exchangeRests agenda engine restart at' changes
    (ends.trans (by rw [endExchange_poll poll, is, handed]; rfl))
  rw [not_strike_of_miss misses] at rests
  obtain ⟨w, drop⟩ := rests.drop
  exact ⟨t, _, next, drop, rests.phase, rfl, rfl, rfl, rests.attention, rests.calls, rests.dispatcher⟩

end

section
variable (ends : exec c s = .next (finish (endExchange l x .strike s)))
include at'

theorem endPoll_strike : endPoll l x .strike (exchangeOver l x .strike s) = settleStrikes l x.address (exchangeOver l x .strike s)
    ∧ drop? (exchangeOver l x .strike s) l x.address = some (d.over true) := by
  have polled := drop?_exchangeOver at' .strike
  refine ⟨?_, polled⟩
  unfold endPoll
  rw [polled]

include poll ready ends

/-- The third strike in 16 isolates the drop (R136). -/
theorem poll_isolates (three : 3 ≤ ((true :: d.strikes).take 16).count true) (isolates : s.roster.settings.isolateOnBabble = true) :
    DropLeaves c s l x d .isolated .babble [] := by
  obtain ⟨is, polled⟩ := endPoll_strike at'
  have setting := (congrArg RosterStore.settings (roster_exchangeOver at' .strike) :)
  obtain ⟨changes, handed⟩ := settleStrikes_isolates polled three (by rwa [setting])
  rw [handsBack_ready (show (d.over true).state = .ready from ready)] at handed
  rw [show (d.over true).state = .ready from ready] at changes
  exact dropLeaves poll at' (g := fun d => { d with strikes := [], misses := 0 }) (v := { d.over true with strikes := [], misses := 0 })
    changes is handed ends rfl ready rfl rfl rfl

include agenda

/-- A strike that is not the third. -/
theorem poll_strike (engine : s.engine ≠ .stopping) (restart : (s.line l).restart = none)
    (few : ((true :: d.strikes).take 16).count true < 3) (strikes : Nat) :
    DropStays c s l x d d.misses ((true :: d.strikes).take 16) strikes := by
  obtain ⟨is, polled⟩ := endPoll_strike at'
  rw [settleStrikes_few polled few] at is
  obtain ⟨t, next, rests⟩ := exchangeRests agenda engine restart at' (changesDrop_refl l x.address _)
    (ends.trans (by rw [endExchange_poll poll, is]; rfl))
  obtain ⟨w, drop⟩ := rests.drop
  refine ⟨t, _, next, drop, rests.phase, ready, rfl, rfl, rfl, rfl, rfl, rests.attention.trans ?_, rests.calls, rests.dispatcher, ?_⟩
  · rw [BitVec.or_zero]
  · rw [if_neg (by simp)]
    exact rests.quiet rfl

/-- The third strike of a drop that may not be isolated (R136). -/
theorem poll_babbles (engine : s.engine ≠ .stopping) (restart : (s.line l).restart = none)
    (three : 3 ≤ ((true :: d.strikes).take 16).count true) (keeps : s.roster.settings.isolateOnBabble = false) :
    DropStays c s l x d d.misses [] (((true :: d.strikes).take 16).count true) := by
  obtain ⟨is, polled⟩ := endPoll_strike at'
  have setting := (congrArg RosterStore.settings (roster_exchangeOver at' .strike) :)
  obtain ⟨changes, nothing⟩ := settleStrikes_babbles polled three (by rwa [setting])
  obtain ⟨t, next, rests⟩ := exchangeRests agenda engine restart at' changes
    (ends.trans (by rw [endExchange_poll poll, is, nothing]; rfl))
  obtain ⟨w, drop⟩ := rests.drop
  refine ⟨t, _, next, drop, rests.phase, ready, rfl, rfl, rfl, rfl, rfl, rests.attention.trans ?_, rests.calls, rests.dispatcher, ?_⟩
  · rw [BitVec.or_zero]
  · rw [if_pos rfl]
    exact fun writing clear fits => rests.logs ⟨writing, clear, fits⟩

end

end

/-! ## Settled -/

/-- Settles O48: the judgement by `isCorrupt_iff`, the outcomes of a POLL one lemma each, and the hand-back by what the entry carries. -/
theorem missesAndStrikesChangeTheDrop : Obligations.MissesAndStrikesChangeTheDrop := by
  unfold Obligations.MissesAndStrikesChangeTheDrop
  refine ⟨fun x kind f => ⟨judgeReply_corrupt, judgeReply_whole⟩, ?_, ?_⟩
  · intro s l x d c agenda poll at' ready isJudged isMiss isStrike submits faulted leaves history struck
    have judged {f : List Byte} {o : Outcome} (receiving : (s.line l).phase = .receiving x) (is : isJudged f o) :
        exec (.replyComplete l f) s = .next (finish (endExchange l x o s)) :=
      replyComplete_judged at' receiving is.1 is.2.1 is.2.2
    have strikes (is : isStrike) : exec c s = .next (finish (endExchange l x .strike s)) := by
      obtain ⟨receiving, rfl | ⟨f, rfl, is⟩⟩ := is
      · exact replySlotEnd_receiving receiving
      · exact judged receiving is
    have misses (is : isMiss) : ∃ o, (o = .timeout ∨ o = .corrupt) ∧ exec c s = .next (finish (endExchange l x o s)) := by
      rcases is with ⟨awaiting, rfl⟩ | ⟨receiving, rfl | ⟨f, rfl, notSync | is⟩⟩
      · exact ⟨.timeout, .inl rfl, replyTimeout_awaiting awaiting poll⟩
      · exact ⟨.corrupt, .inr rfl, replyNotSync_receiving receiving⟩
      · exact ⟨.corrupt, .inr rfl, replyComplete_notSync receiving notSync⟩
      · exact ⟨.corrupt, .inr rfl, judged receiving is⟩
    have third (is : isMiss) (two : 2 ≤ d.misses) : leaves .silent .misses history := by
      obtain ⟨o, misses, ends⟩ := misses is
      exact poll_thirdMiss poll at' ready misses ends two
    refine ⟨third, fun is three isolates => poll_isolates poll at' ready (strikes is) three isolates,
      fun engine restart => ⟨fun is few => ?_, fun is few => ?_, fun is three keeps => ?_, fun is two noSet noQueue => ?_⟩⟩
    · obtain ⟨o, misses, ends⟩ := misses is
      exact poll_miss agenda poll at' ready misses ends engine restart few _
    · exact poll_strike agenda poll at' ready (strikes is) engine restart few _
    · exact poll_babbles agenda poll at' ready (strikes is) engine restart three keeps
    · obtain ⟨o, misses, ends⟩ := misses is
      exact poll_thirdMiss_empty agenda poll at' ready misses ends engine restart two noSet noQueue
  · intro s l address e v
    refine ⟨rfl, fun n st carries => ⟨handBack_gone l address carries, fun r here at' => ⟨?_, ?_, ?_⟩⟩,
      fun p fixed kept carries => ⟨fun b goes => ?_, fun nowhere => ?_⟩⟩
    · rintro rfl
      exact handBack_stage carries here at'
    · rintro rfl
      exact handBack_stage carries here at'
    · rintro rfl
      exact handBack_plant carries here at'
    · have is : v = _ := handBack_rerouted l address carries goes
      obtain ⟨-, -, -, usable⟩ := goes
      obtain ⟨urgent, live, stale⟩ := urgency_control (s := s) e.message .second fixed kept
      have mail := mail_enqueue (.refl s) e.message (.control .second fixed kept) b.1 b.2
      rw [is]
      exact ⟨rfl, entryOf s e.message (.control .second fixed kept), rfl, rfl, rfl, urgent, live, stale, drop?_enqueue_same _ _ b s,
        fun a other => drop?_enqueue_ne other (usableTransmitter_drop usable) _ _ s, mail.calls, mail.roster, mail.attention⟩
    · have is : v = _ := handBack_dropped l address carries nowhere
      rw [is]
      exact ⟨rfl, submit_shape _ s, fun writing clear fits => pending_droppedNoRoute ⟨writing, clear, fits⟩ _⟩

end Sys2Proof.Machine

/-! # Proofs: the take of a set (R86, R91, R131), and the readback of the lamps (R145, R146) -/

namespace Sys2Proof.Machine

variable {s t u : State} {l : LineId} {a n : Nat} {r : Delivery} {e : AirEntry} {st : Stage} {d : Drop}

/-! ## One message on air (R86, R91) -/

theorem onAir_control {p : RoutePosition} {f : Option FixedRoute} {w : Option Nat} (carries : e.carriage = .control p f w) :
    onAir l a e s = s := by
  unfold onAir
  rw [carries]

theorem onAir_gone (l : LineId) (a : Nat) (carries : e.carriage = .delivery n st)
    (gone : ∀ r, delivery? s n = some r → ¬r.isAt l a st) : onAir l a e s = s := by
  unfold onAir
  rw [carries]
  dsimp only
  split
  · rfl
  · rename_i r here
    have not := gone r here
    rw [isAt_iff, Bool.not_eq_false] at not
    exact if_pos not

/-- The record with its copy at a drop TAKEN, under a receipt window that runs already. -/
def copyTaken (l : LineId) (a n : Nat) (s : State) : State := modDelivery n (Delivery.setCopy l a .taken) s

/-- The record with its receipt window started (R91). -/
def receiptStarted (n : Nat) (s : State) : State :=
  modDelivery n (fun r => { r with receipt := startWindow s s.roster.settings.receiptWindow }) s

/-- The record PAGED. -/
def pagedRecord (s : State) (l : LineId) (a : Nat) (st : Stage) (r : Delivery) : JournalRecord :=
  { tagRecord s .paged r.key.tag with
    member := some r.key.member, line := some l, drop := a, detail1 := st.code, detail2 := if r.message.breakIn then 1 else 0 }

theorem onAir_taken (carries : e.carriage = .delivery n st) (here : delivery? s n = some r) (at' : r.isAt l a st) : onAir l a e s
    = if r.receipt.active then copyTaken l a n s
      else if r.key.kind = .page then submit (pagedRecord s l a st r) (receiptStarted n (copyTaken l a n s))
      else receiptStarted n (copyTaken l a n s) := by
  unfold onAir
  rw [carries]
  dsimp only
  rw [here]
  refine if_neg ?_
  rw [Bool.not_eq_true, ← isAt_iff]
  exact at'

theorem delivery?_copyTaken (here : delivery? s n = some r) : delivery? (copyTaken l a n s) n = some (r.setCopy l a .taken) :=
  delivery?_modDelivery_same (fun _ => rfl) here

theorem delivery?_receiptStarted (here : delivery? s n = some r) : delivery? (receiptStarted n s) n
    = some { r with receipt := startWindow s s.roster.settings.receiptWindow } :=
  delivery?_modDelivery_same (f := fun r => { r with receipt := startWindow s s.roster.settings.receiptWindow }) (fun _ => rfl) here

theorem delivery?_submit (j : JournalRecord) (k : Nat) (s : State) : delivery? (submit j s) k = delivery? s k :=
  delivery?_congr (by rw [submit_dispatcher])

/-- What a taken copy leaves: its record TAKEN there, its receipt window started, and with the first take of a PAGE the record PAGED. -/
structure TakesCopy (l : LineId) (a n : Nat) (st : Stage) (r : Delivery) (s v : State) : Prop where
  shape : v = { s with dispatcher := { s.dispatcher with records := v.dispatcher.records }, journal := v.journal }
  own : delivery? v n = some { r with
    copies := r.copies.map fun x => if x.line = l ∧ x.drop = a then { x with state := .taken } else x
    receipt := if r.receipt.active then r.receipt else startWindow s s.roster.settings.receiptWindow }
  others : ∀ k, k ≠ n → delivery? v k = delivery? s k
  quiet : r.receipt.active = true ∨ r.key.kind ≠ .page → v.journal = s.journal
  paged : r.receipt.active = false → r.key.kind = .page → hasRoom s 1 →
    v.journal.pending = s.journal.pending ++ [{ pagedRecord s l a st r with tick := s.tickCount }]

theorem takesCopy (carries : e.carriage = .delivery n st) (here : delivery? s n = some r) (at' : r.isAt l a st) :
    TakesCopy l a n st r s (onAir l a e s) := by
  have taken := delivery?_copyTaken (l := l) (a := a) here
  have others (k : Nat) (ne : k ≠ n) : delivery? (copyTaken l a n s) k = delivery? s k :=
    delivery?_modDelivery_ne (f := Delivery.setCopy l a .taken) (fun _ => rfl) ne.symm s
  have started := delivery?_receiptStarted taken
  have others' (k : Nat) (ne : k ≠ n) : delivery? (receiptStarted n (copyTaken l a n s)) k = delivery? s k :=
    (delivery?_modDelivery_ne (f := fun r => { r with receipt := startWindow s s.roster.settings.receiptWindow }) (fun _ => rfl) ne.symm
      (copyTaken l a n s)).trans (others k ne)
  rw [onAir_taken carries here at']
  by_cases active : r.receipt.active = true
  · rw [if_pos active]
    refine ⟨rfl, taken.trans ?_, others, fun _ => rfl, fun idle => absurd active (by rw [idle]; decide)⟩
    rw [if_pos active]
    rfl
  · rw [if_neg active]
    by_cases page : r.key.kind = .page
    · rw [if_pos page]
      refine ⟨?_, ?_, fun k ne => (delivery?_submit _ k _).trans (others' k ne), fun kept => ?_, fun _ _ room => ?_⟩
      · rw [submit_shape]
        rfl
      · rw [delivery?_submit, started, if_neg active]
        rfl
      · exact absurd page (kept.resolve_left active)
      · exact submit_pending (s := receiptStarted n (copyTaken l a n s)) room _
    · rw [if_neg page]
      refine ⟨rfl, started.trans ?_, others', fun _ => rfl, fun _ is => absurd is page⟩
      rw [if_neg active]
      rfl

/-! ## A set on air does not read the lines (R131) -/

theorem onAir_shape (l : LineId) (a : Nat) (e : AirEntry) (s : State) :
    onAir l a e s = { s with dispatcher := (onAir l a e s).dispatcher, journal := (onAir l a e s).journal } := by
  cases carries : e.carriage with
  | control => rw [onAir_control carries]
  | delivery n st =>
    by_cases at' : ∃ r, delivery? s n = some r ∧ r.isAt l a st
    · obtain ⟨r, here, at'⟩ := at'
      have shape := (takesCopy carries here at').shape
      conv_lhs => rw [shape]
      conv_rhs => rw [shape]
    · push Not at at'
      rw [onAir_gone l a carries at']

theorem pump_lines (m n : Line) (s : State) : pump { s with line0 := m, line1 := n } = { pump s with line0 := m, line1 := n } := by
  unfold pump
  dsimp only
  repeat' split
  all_goals rfl

theorem submit_lines (r : JournalRecord) (m n : Line) (s : State) :
    submit r { s with line0 := m, line1 := n } = { submit r s with line0 := m, line1 := n } := by
  unfold submit
  dsimp only
  split
  · exact pump_lines m n (s.modJournal (Journal.skip 1))
  · exact pump_lines m n (s.modJournal fun j => { j with pending := j.pending ++ [{ r with tick := s.tickCount }] })

theorem onAir_lines (l : LineId) (a : Nat) (e : AirEntry) (m n : Line) (s : State) :
    onAir l a e { s with line0 := m, line1 := n } = { onAir l a e s with line0 := m, line1 := n } := by
  cases carries : e.carriage with
  | control => rw [onAir_control carries, onAir_control carries]
  | delivery k st =>
    by_cases at' : ∃ r, delivery? s k = some r ∧ r.isAt l a st
    · obtain ⟨r, here, at'⟩ := at'
      rw [onAir_taken carries here at', onAir_taken (s := { s with line0 := m, line1 := n }) carries here at']
      split
      · rfl
      · split
        · exact submit_lines (pagedRecord s l a st r) m n (receiptStarted k (copyTaken l a k s))
        · rfl
    · push Not at at'
      rw [onAir_gone l a carries at', onAir_gone (s := { s with line0 := m, line1 := n }) l a carries at']

/-- A whole set on air. -/
def setOnAir (l : LineId) (a : Nat) (set : List AirEntry) (s : State) : State := set.foldl (fun u m => onAir l a m u) s

theorem setOnAir_lines (l : LineId) (a : Nat) (set : List AirEntry) (m n : Line) (s : State) :
    setOnAir l a set { s with line0 := m, line1 := n } = { setOnAir l a set s with line0 := m, line1 := n } := by
  induction set generalizing s with
  | nil => rfl
  | cons e rest ih =>
    show setOnAir l a rest (onAir l a e { s with line0 := m, line1 := n }) = _
    rw [onAir_lines, ih]
    rfl

theorem setOnAir_shape (l : LineId) (a : Nat) (set : List AirEntry) (s : State) :
    setOnAir l a set s = { s with dispatcher := (setOnAir l a set s).dispatcher, journal := (setOnAir l a set s).journal } := by
  induction set generalizing s with
  | nil => rfl
  | cons e rest ih =>
    have first := onAir_shape l a e s
    have rests := ih (onAir l a e s)
    show setOnAir l a rest (onAir l a e s) = { s with
      dispatcher := (setOnAir l a rest (onAir l a e s)).dispatcher, journal := (setOnAir l a rest (onAir l a e s)).journal }
    generalize setOnAir l a rest (onAir l a e s) = v at *
    rw [rests, first]

/-! ## The readback of a lamp (R145, R146) -/

/-- The lamp with the flag and the runs that a reply gives it. -/
def Lamp.replied (same lit : Bool) (old : Lamp) : Lamp :=
  { old with flag := (old.afterReply same lit).1, mismatchRun := (old.afterReply same lit).2.1, matchRun := (old.afterReply same lit).2.2 }

/-- A judged reply follows the table of R146. -/
theorem judge_eq_replied {old : Lamp} {command : LampCommand} (sent : old.sent = some command) (lit : Bool) :
    old.judge command lit = old.replied true lit := by
  have third (k : Nat) : 3 ≤ k + 1 ↔ ¬k < 2 := by omega
  have isOff : command = .off ↔ (command == .off) = true := beq_iff_eq.symm
  obtain ⟨commanded, sent', flag, mismatches, matching⟩ := old
  subst sent
  unfold Lamp.judge Lamp.replied Lamp.afterReply
  simp only [isOff, third, ite_not]
  generalize (lit == (command != .off)) = matches'
  generalize (command == .off) = off
  cases flag with
  | ok =>
    cases matches'
    · by_cases few : mismatches < 2 <;> simp [few, Lamp.setFlag]
    · rfl
  | fault =>
    cases off <;> cases matches'
    · rfl
    · by_cases few : matching < 2 <;> simp [few, Lamp.setFlag]
    · rfl
    · rfl
  | stuck =>
    cases off <;> cases matches'
    · rfl
    · rfl
    · rfl
    · by_cases few : matching < 2 <;> simp [few, Lamp.setFlag]

end Sys2Proof.Machine

/-! # Proofs: a VALID reply to a POLL (R129, R131, R133, R134, R145, R146) -/

namespace Sys2Proof.Machine

variable {s t u v : State} {l : LineId} {x : Exchange} {a : Nat} {d e : Drop} {b : Station} {frame : List Byte}

/-! ## The readback of one lamp -/

/-- The record of a change of a lamp's flag (R146). -/
def lampRecord (l : LineId) (a : Nat) (id : LampId) (old new : Lamp) : JournalRecord :=
  { blankRecord new.flag.record with line := some l, drop := a, detail1 := id.code, detail2 := (old.sent.map LampCommand.code).getD 0 }

/-- The records of the readback of a lamp. -/
def lampRecords (l : LineId) (a : Nat) (id : LampId) (old new : Lamp) : List JournalRecord :=
  if new.flag = old.flag then [] else [lampRecord l a id old new]

/-- The causes that the readback of a lamp raises. -/
def lampBits (old new : Lamp) : BitVec 14 := if new.flag ≠ old.flag ∧ new.flag ≠ .ok then BitVec.twoPow 14 10 else 0#14

/-- The drop with a lamp as a reply leaves it: its mirror entry is dirty where the flag changed. -/
def Drop.reread (id : LampId) (old new : Lamp) (d : Drop) : Drop :=
  let w := { d with station := d.station.map (Station.setLamp id new) }
  if new.flag = old.flag then w else w.markDirty

theorem setLamp_same (id : LampId) (b : Station) : b.setLamp id (b.lamp id) = b := by cases id <;> rfl

/-- A reply that is not judged leaves the lamp (R145). -/
theorem replied_unjudged {old : Lamp} {same : Bool} (not : same = false ∨ old.sent = none) (lit : Bool) : old.replied same lit = old := by
  rcases not with rfl | none
  · rfl
  · obtain ⟨commanded, sent, flag, mismatches, matching⟩ := old
    subst none
    cases same <;> rfl

section
variable (at' : drop? s l a = some d) (station : d.station = some b) {same : Bool} {id : LampId}
include at' station

theorem readback_unjudged (not : same = false ∨ (b.lamp id).sent = none) (lit : Bool) : readback l a id same lit s = s := by
  have here : (drop? s l a).bind (·.station) = some b := by rw [at', ← station]; rfl
  unfold readback
  rw [here]
  rcases not with rfl | none
  · rfl
  · cases same <;> simp only [none]

theorem readback_judged {command : LampCommand} (sent : (b.lamp id).sent = some command) (lit : Bool) :
    let old := b.lamp id
    let new := old.replied true lit
    let relamped := modDrop l a (fun d => { d with station := d.station.map (Station.setLamp id new) }) s
    let recorded := submit (lampRecord l a id old new) (modDrop l a Drop.markDirty relamped)
    readback l a id true lit s = if new.flag = old.flag then relamped
      else if new.flag = .ok then recorded else raise .fieldFault recorded := by
  have here : (drop? s l a).bind (·.station) = some b := by rw [at', ← station]; rfl
  unfold readback lampRecord
  rw [here]
  simp only [sent, judge_eq_replied sent lit]
  rfl

theorem changesDrop_readback (id : LampId) (same lit : Bool) :
    ChangesDrop l a (Drop.reread id (b.lamp id) ((b.lamp id).replied same lit)) (lampBits (b.lamp id) ((b.lamp id).replied same lit))
      (lampRecords l a id (b.lamp id) ((b.lamp id).replied same lit)) s (readback l a id same lit s) := by
  by_cases judged : same = true ∧ ∃ command, (b.lamp id).sent = some command
  · obtain ⟨rfl, command, sent⟩ := judged
    rw [readback_judged at' station sent lit]
    generalize (b.lamp id).replied true lit = new
    have relamped := changesDrop_modDrop l a (fun d => { d with station := d.station.map (Station.setLamp id new) }) s
    by_cases kept : new.flag = (b.lamp id).flag
    · rw [if_pos kept]
      refine relamped.congr at' ?_ ?_ ?_
      · rw [Drop.reread, if_pos kept]
      · rw [lampBits, if_neg (fun h => h.1 kept)]
      · rw [lampRecords, if_pos kept]
    · rw [if_neg kept]
      have recorded := (relamped.trans (changesDrop_modDrop l a Drop.markDirty _)).trans
        (changesDrop_submit l a (lampRecord l a id (b.lamp id) new) _)
      by_cases ok : new.flag = .ok
      · rw [if_pos ok]
        refine recorded.congr at' ?_ ?_ ?_
        · rw [Drop.reread, if_neg kept]
        · rw [lampBits, if_neg (fun h => h.2 ok)]
          decide
        · rw [lampRecords, if_neg kept]
          rfl
      · rw [if_neg ok]
        refine (recorded.trans (changesDrop_raise l a .fieldFault _)).congr at' ?_ ?_ ?_
        · rw [Drop.reread, if_neg kept]
        · rw [lampBits, if_pos ⟨kept, ok⟩]
          decide
        · rw [lampRecords, if_neg kept]
          rfl
  · have not : same = false ∨ (b.lamp id).sent = none := by
      rw [not_and_or, Bool.not_eq_true] at judged
      exact judged.imp_right fun none => by simpa [Option.eq_none_iff_forall_ne_some] using none
    rw [readback_unjudged at' station not, replied_unjudged not]
    refine (changesDrop_refl l a s).congr at' ?_ ?_ ?_
    · rw [Drop.reread, if_pos rfl]
      refine congrArg (fun w => { d with station := w }) ?_
      rw [station, Option.map_some, setLamp_same]
    · rw [lampBits, if_neg (fun h => h.1 rfl)]
    · rw [lampRecords, if_pos rfl]

end

/-! ## What the reply says -/

theorem replyUpBit_reply (frame : List Byte) : replyUpBit (frame.take (replyLength frame)) = replyUpBit frame := by
  rw [replyUpBit, byteAt_reply frame (by decide), replyUpBit]

theorem replyTakenBit_reply (frame : List Byte) : replyTakenBit (frame.take (replyLength frame)) = replyTakenBit frame := by
  rw [replyTakenBit, byteAt_reply frame (by decide), replyTakenBit]

theorem replySeenLit_reply (frame : List Byte) : replySeenLit (frame.take (replyLength frame)) .call = bitOf (byteAt frame 4) 0
    ∧ replySeenLit (frame.take (replyLength frame)) .attend = bitOf (byteAt frame 4) 1 := by
  constructor <;> rw [← byteAt_reply frame (by decide)] <;> rfl

/-! ## The reports (R133) -/

/-- The tasks of the reports of a reply, in its order. -/
def reportTasks (l : LineId) (a : Nat) (d : Drop) (frame : List Byte) : List Task :=
  (replyReports frame).map fun report => if d.kind = .transmitter then .report l a report else .press l a report

theorem deliverReports_old (new : replyUpBit frame = d.upBit) : deliverReports l x d frame s = (s, []) := if_pos new

/-- A new up bit is accepted, and the reports delivered. -/
theorem deliverReports_new (new : replyUpBit frame ≠ d.upBit) : deliverReports l x d frame s
    = (modDrop l x.address (fun d => { d with upBit := replyUpBit frame }) s, reportTasks l x.address d frame) := by
  unfold deliverReports reportTasks Drop.isTransmitter
  rw [if_neg new]
  simp only [beq_iff_eq]

/-- The up bit of a drop is the reply's afterwards, whether it is new or not. -/
theorem deliverReports_fst (at' : drop? s l x.address = some e) (old : e.upBit = d.upBit) :
    (deliverReports l x d frame s).1 = modDrop l x.address (fun d => { d with upBit := replyUpBit frame }) s := by
  by_cases new : replyUpBit frame = d.upBit
  · rw [deliverReports_old new]
    refine (modDrop_id l x.address s).symm.trans (modDrop_congr at' ?_)
    rw [new, ← old]
  · rw [deliverReports_new new]

theorem endPoll_valid (at' : drop? s l x.address = some d) : endPoll l x (.valid frame) s
    = deliverReports l x d frame (applyStatus l x d frame (modDrop l x.address (fun d => { d with misses := 0 }) s)) := by
  unfold endPoll
  rw [at']

/-! ## The status of a transmitter (R131) -/

/-- The set of the drop is taken: its frame carried one, and the reply's taken bit is the set's. -/
abbrev IsTaken (x : Exchange) (d : Drop) (frame : List Byte) : Prop := x.carriesSet = true ∧ replyTakenBit frame = d.downBit

/-- What a reply of a transmitter makes of its drop, up to its reports. -/
def Drop.statused (taken : Prop) [Decidable taken] (frame : List Byte) (d : Drop) : Drop :=
  { d with
    room := replyRoom frame, inFlight := if taken then [] else d.inFlight, downBit := if taken then !d.downBit else d.downBit }

/-- The lines are no concern of a set on air. -/
theorem setOnAir_modLine (l : LineId) (a : Nat) (set : List AirEntry) (k : LineId) (f : Line → Line) (s : State) :
    setOnAir l a set (s.modLine k f) = (setOnAir l a set s).modLine k f := by
  have shape := setOnAir_shape l a set s
  have lines : s.modLine k f = { s with line0 := (s.modLine k f).line0, line1 := (s.modLine k f).line1 } := by cases k <;> rfl
  rw [lines, setOnAir_lines]
  generalize setOnAir l a set s = w at *
  rw [shape]
  cases k <;> rfl

theorem setOnAir_modDrop (l : LineId) (a : Nat) (set : List AirEntry) (k : LineId) (i : Nat) (f : Drop → Drop) (s : State) :
    setOnAir l a set (modDrop k i f s) = modDrop k i f (setOnAir l a set s) := setOnAir_modLine l a set k _ s

theorem setOnAir_exchangeOver (l : LineId) (a : Nat) (set : List AirEntry) (x : Exchange) (o : Outcome) (s : State) :
    setOnAir l a set (exchangeOver l x o s) = exchangeOver l x o (setOnAir l a set s) := by
  unfold exchangeOver enterHistory lowerCountdowns
  rw [setOnAir_modDrop, setOnAir_modLine, setOnAir_modLine]

/-- The state with the set of a POLL on air, if it has been taken. -/
def afterTake (l : LineId) (x : Exchange) (d : Drop) (frame : List Byte) (s : State) : State :=
  if IsTaken x d frame then setOnAir l x.address d.inFlight s else s

theorem afterTake_shape (l : LineId) (x : Exchange) (d : Drop) (frame : List Byte) (s : State) : afterTake l x d frame s
    = { s with dispatcher := (afterTake l x d frame s).dispatcher, journal := (afterTake l x d frame s).journal } := by
  unfold afterTake
  split
  · exact setOnAir_shape ..
  · rfl

theorem applyStatus_transmitter (transmitter : d.kind = .transmitter) : applyStatus l x d frame s
    = modDrop l x.address (Drop.statused (IsTaken x d frame) frame) (afterTake l x d frame s) := by
  unfold applyStatus afterTake Drop.isTransmitter
  rw [transmitter]
  by_cases taken : IsTaken x d frame
  · have is : (x.carriesSet && replyTakenBit frame == d.downBit) = true := by simp [taken.1, taken.2]
    rw [if_pos taken, if_pos (by rfl), if_pos is, takeSet]
    show modDrop l x.address _ (setOnAir l x.address d.inFlight (modDrop l x.address _ s)) = _
    rw [setOnAir_modDrop, modDrop_modDrop]
    refine congrArg (fun f => modDrop l x.address f _) (funext fun d => ?_)
    simp only [Drop.statused, if_pos taken]
  · have is : (x.carriesSet && replyTakenBit frame == d.downBit) = false := by simpa [IsTaken] using taken
    rw [if_neg taken, if_pos (by rfl), if_neg (by rw [is]; decide)]
    refine congrArg (fun f => modDrop l x.address f _) (funext fun d => ?_)
    simp only [Drop.statused, if_neg taken]

/-- The drop of a transmitter after its reply. -/
def Drop.afterStatus (x : Exchange) (old : Drop) (frame : List Byte) (d : Drop) : Drop :=
  { ({ d with misses := 0 } : Drop).statused (IsTaken x old frame) frame with upBit := replyUpBit frame }

/-- A VALID reply of a transmitter, as one change of its drop after the take of its set. -/
theorem transmitter_replies (poll : x.isProbe = false) (at' : drop? s l x.address = some d) (transmitter : d.kind = .transmitter) :
    (endExchange l x (.valid frame) s).1 = modDrop l x.address (Drop.afterStatus x d frame)
      (exchangeOver l x (.valid frame) (afterTake l x d frame s)) := by
  have polled : drop? (exchangeOver l x (.valid frame) s) l x.address = some (d.over false) := drop?_exchangeOver at' (.valid frame)
  have take (y : State) : afterTake l x (d.over false) frame y = afterTake l x d frame y := rfl
  rw [endExchange_poll poll]
  dsimp only
  rw [endPoll_valid polled, applyStatus_transmitter (d := d.over false) transmitter, take]
  have commutes : afterTake l x d frame (modDrop l x.address (fun d => { d with misses := 0 }) (exchangeOver l x (.valid frame) s))
      = modDrop l x.address (fun d => { d with misses := 0 }) (exchangeOver l x (.valid frame) (afterTake l x d frame s)) := by
    unfold afterTake
    split
    · rw [setOnAir_modDrop, setOnAir_exchangeOver]
    · rfl
  rw [commutes, modDrop_modDrop]
  have here : drop? (exchangeOver l x (.valid frame) (afterTake l x d frame s)) l x.address = some (d.over false) := by
    refine drop?_exchangeOver ?_ (.valid frame)
    rw [afterTake_shape]
    exact at'
  rw [deliverReports_fst (e := ({ d.over false with misses := 0 } : Drop).statused (IsTaken x d frame) frame), modDrop_modDrop]
  · rfl
  · rw [drop?_modDrop_same, here]
    rfl
  · rfl

end Sys2Proof.Machine

/-! # Proofs: what a VALID reply to a POLL leaves of a transmitter and of a station (R131, R133, R134, R145, R146) -/

namespace Sys2Proof.Machine

variable {s t u v : State} {l : LineId} {x : Exchange} {a : Nat} {d e : Drop} {b : Station} {frame : List Byte}

/-! ## A transmitter -/

/-- What a VALID reply of a transmitter to a POLL leaves. -/
def TransmitterReplied (l : LineId) (x : Exchange) (d : Drop) (frame : List Byte) (s t : State) : Prop :=
  ∃ e, drop? t l x.address = some e ∧ (t.line l).phase = .gap
    ∧ e.misses = 0 ∧ e.room = replyRoom frame ∧ e.state = d.state ∧ e.queue = d.queue ∧ e.upBit = replyUpBit frame
    ∧ e.strikes = (false :: d.strikes).take 16
    ∧ (IsTaken x d frame → e.inFlight = [] ∧ e.downBit = !d.downBit)
    ∧ (¬IsTaken x d frame → e.inFlight = d.inFlight ∧ e.downBit = d.downBit)
    ∧ t.calls = s.calls ∧ t.attention = s.attention ∧ t.roster = s.roster
    ∧ t.dispatcher = (afterTake l x d frame s).dispatcher ∧ t.journal = (afterTake l x d frame s).journal

theorem transmitterReplied (poll : x.isProbe = false) (at' : drop? s l x.address = some d) (transmitter : d.kind = .transmitter) :
    TransmitterReplied l x d frame s (endExchange l x (.valid frame) s).1 := by
  rw [transmitter_replies poll at' transmitter]
  have shape := afterTake_shape l x d frame s
  have here : drop? (afterTake l x d frame s) l x.address = some d := by rw [shape]; exact at'
  have changes := changesDrop_modDrop l x.address (Drop.afterStatus x d frame) (exchangeOver l x (.valid frame) (afterTake l x d frame s))
  obtain ⟨polled, gap, -, -, attention, -, -, calls, dispatcher, roster, -, -, journal⟩ := exchange_over l x.address false _ d here
  refine ⟨_, changes.drop polled, ?_, rfl, rfl, rfl, rfl, rfl, rfl, fun taken => ⟨if_pos taken, if_pos taken⟩,
    fun not => ⟨if_neg not, if_neg not⟩, ?_, ?_, ?_, changes.dispatcher.trans dispatcher, (changes.quiet rfl).trans journal⟩
  · rw [changes.line]
    exact gap
  · exact (changes.calls.trans calls).trans (by rw [shape])
  · exact (changes.attention.trans (by rw [BitVec.or_zero]; rfl)).trans (attention.trans (by rw [shape]))
  · exact (changes.roster.trans roster).trans (by rw [shape])

theorem TransmitterReplied.recomputeLamps (h : TransmitterReplied l x d frame s t) :
    TransmitterReplied l x d frame s (recomputeLamps t) := by
  obtain ⟨e, drop, gap, rest⟩ := h
  exact ⟨e.relit t, by rw [drop?_recomputeLamps, drop]; rfl, by rw [line_recomputeLamps]; exact gap, rest⟩

/-- The bytes after its CRC do not matter. -/
theorem TransmitterReplied.of_reply (h : TransmitterReplied l x d (frame.take (replyLength frame)) s t) :
    TransmitterReplied l x d frame s t := by
  simpa only [TransmitterReplied, IsTaken, afterTake, replyRoom_reply, replyUpBit_reply, replyTakenBit_reply] using h

/-! ## A station -/

/-- What the reply of a station makes of its drop. -/
def Drop.readBy (old new old' new' : Lamp) (frame : List Byte) (d : Drop) : Drop :=
  { ({ d with misses := 0 } : Drop).reread .call old new |>.reread .attend old' new' with upBit := replyUpBit frame }

/-- A VALID reply of a station, as one change of its drop: the readback of CALL comes before that of ATTEND (log 58). -/
theorem station_replies (at' : drop? s l x.address = some d) (kind : d.kind = .station) (station : d.station = some b) :
    let call := b.call.replied x.sameCall (replySeenLit frame .call)
    let attend := b.attend.replied x.sameAttend (replySeenLit frame .attend)
    ChangesDrop l x.address (Drop.readBy b.call call b.attend attend frame) (lampBits b.call call ||| lampBits b.attend attend)
      (lampRecords l x.address .call b.call call ++ lampRecords l x.address .attend b.attend attend)
      s (endPoll l x (.valid frame) s).1 := by
  intro call attend
  have missed := changesDrop_modDrop l x.address (fun d => { d with misses := 0 }) s
  have first := missed.trans (changesDrop_readback (missed.drop at') station .call x.sameCall (replySeenLit frame .call))
  have here := first.drop at'
  have called : (({ d with misses := 0 } : Drop).reread .call b.call call).station = some (b.setLamp .call call) := by
    unfold Drop.reread
    rw [station]
    split <;> rfl
  have second := first.trans (changesDrop_readback here called .attend x.sameAttend (replySeenLit frame .attend))
  have old : (Drop.reread .attend b.attend attend (({ d with misses := 0 } : Drop).reread .call b.call call)).upBit = d.upBit := by
    unfold Drop.reread
    split <;> split <;> rfl
  have status : applyStatus l x d frame (modDrop l x.address (fun d => { d with misses := 0 }) s)
      = readback l x.address .attend x.sameAttend (replySeenLit frame .attend) (readback l x.address .call x.sameCall
        (replySeenLit frame .call) (modDrop l x.address (fun d => { d with misses := 0 }) s)) := by
    unfold applyStatus Drop.isTransmitter
    rw [kind]
    rfl
  rw [endPoll_valid at', status, deliverReports_fst (second.drop at') old]
  exact (second.trans (changesDrop_modDrop l x.address (fun d => { d with upBit := replyUpBit frame }) _)).congr at' rfl
    (by rw [BitVec.zero_or, BitVec.or_zero]; rfl) (by rw [List.append_nil]; rfl)

/-- The records of the readback of a lamp, under the tick of its event. -/
def lampLog (s : State) (l : LineId) (a : Nat) (id : LampId) (old new : Lamp) : List JournalRecord :=
  if new.flag = old.flag then []
  else [{ blankRecord (match new.flag with | .ok => .lampOk | .fault => .lampFault | .stuck => .lampStuck) with
    tick := s.tickCount, line := some l, drop := a, detail1 := id.code, detail2 := (old.sent.map LampCommand.code).getD 0 }]

theorem lampLog_eq (s : State) (l : LineId) (a : Nat) (id : LampId) (old new : Lamp) :
    (lampRecords l a id old new).map (fun r => { r with tick := s.tickCount }) = lampLog s l a id old new := by
  unfold lampRecords lampLog lampRecord
  split
  · rfl
  · cases new.flag <;> rfl

/-- The readback of a lamp raises FIELD FAULT: its flag has become FAULT or STUCK. -/
abbrev IsLampEntry (old new : Lamp) : Prop := new.flag ≠ old.flag ∧ new.flag ≠ .ok

/-- What a VALID reply of a station to a POLL leaves. -/
def StationReplied (l : LineId) (x : Exchange) (d : Drop) (b : Station) (call attend : Lamp) (frame : List Byte) (s t : State) : Prop :=
  ∃ e v, drop? t l x.address = some e ∧ (t.line l).phase = .gap
    ∧ e.misses = 0 ∧ e.state = d.state ∧ e.upBit = replyUpBit frame ∧ e.strikes = (false :: d.strikes).take 16
    ∧ e.station = some v ∧ v.call = { call with commanded := v.call.commanded }
    ∧ v.attend = { attend with commanded := v.attend.commanded }
    ∧ e.dirty = (d.dirty || call.flag != b.call.flag || attend.flag != b.attend.flag)
    ∧ (IsLampEntry b.call call ∨ IsLampEntry b.attend attend → t.attention.event = s.attention.event ||| BitVec.twoPow 14 10)
    ∧ (¬IsLampEntry b.call call → ¬IsLampEntry b.attend attend → t.attention = s.attention)
    ∧ (s.journal.state = .writing → s.area.memoryFault = false → s.journal.pending.length < 63 →
      t.journal.pending = s.journal.pending ++ lampLog s l x.address .call b.call call ++ lampLog s l x.address .attend b.attend attend)
    ∧ t.calls = s.calls ∧ t.dispatcher = s.dispatcher

theorem readBy_over (station : d.station = some b) (call attend : Lamp) (frame : List Byte) :
    let e := (d.over false).readBy b.call call b.attend attend frame
    e.misses = 0 ∧ e.state = d.state ∧ e.upBit = replyUpBit frame ∧ e.strikes = (false :: d.strikes).take 16
      ∧ e.station = some { call := call, attend := attend }
      ∧ e.dirty = (d.dirty || call.flag != b.call.flag || attend.flag != b.attend.flag) := by
  have lamps : ((d.over false).station.map (Station.setLamp .call call)).map (Station.setLamp .attend attend)
      = some { call := call, attend := attend } := by
    rw [show (d.over false).station = some b from station]
    rfl
  by_cases first : call.flag = b.call.flag <;> by_cases second : attend.flag = b.attend.flag <;>
    exact ⟨by simp [Drop.readBy, Drop.reread, first, second, Drop.markDirty],
      by simp [Drop.readBy, Drop.reread, first, second, Drop.markDirty, Drop.over], rfl,
      by simp [Drop.readBy, Drop.reread, first, second, Drop.markDirty, Drop.over],
      by simpa [Drop.readBy, Drop.reread, first, second, Drop.markDirty] using lamps,
      by simp [Drop.readBy, Drop.reread, first, second, Drop.markDirty, Drop.over]⟩

theorem lampBits_entry {old new old' new' : Lamp} (entry : IsLampEntry old new ∨ IsLampEntry old' new') :
    lampBits old new ||| lampBits old' new' = BitVec.twoPow 14 10 := by
  unfold lampBits
  by_cases first : IsLampEntry old new
  · rw [if_pos first]
    split <;> decide
  · rw [if_neg first, if_pos (entry.resolve_left first), BitVec.zero_or]

theorem stationReplied (poll : x.isProbe = false) (at' : drop? s l x.address = some d) (kind : d.kind = .station)
    (station : d.station = some b) :
    StationReplied l x d b (b.call.replied x.sameCall (replySeenLit frame .call))
      (b.attend.replied x.sameAttend (replySeenLit frame .attend))
      frame s (endExchange l x (.valid frame) s).1 := by
  rw [endExchange_poll poll]
  have polled : drop? (exchangeOver l x (.valid frame) s) l x.address = some (d.over false) := drop?_exchangeOver at' (.valid frame)
  have changes := station_replies (frame := frame) polled kind station
  obtain ⟨-, gap, -, -, attention, -, -, calls, dispatcher, -, area, tick, journal⟩ := exchange_over l x.address false s d at'
  dsimp only at changes ⊢
  generalize b.call.replied x.sameCall (replySeenLit frame .call) = call at *
  generalize b.attend.replied x.sameAttend (replySeenLit frame .attend) = attend at *
  obtain ⟨misses, state, upBit, strikes, lamps, dirty⟩ := readBy_over station call attend frame
  refine ⟨_, _, changes.drop polled, ?_, misses, state, upBit, strikes, lamps, rfl, rfl, dirty, fun entry => ?_, fun first second => ?_,
    fun writing clear fits => ?_, changes.calls.trans calls, changes.dispatcher.trans dispatcher⟩
  · rw [changes.line]
    exact gap
  · rw [changes.attention, lampBits_entry entry]
    exact congrArg (fun w => w.event ||| _) attention
  · rw [changes.attention, lampBits, lampBits, if_neg first, if_neg second, BitVec.or_zero, BitVec.or_zero]
    exact attention
  · have two : (lampRecords l x.address .call b.call call ++ lampRecords l x.address .attend b.attend attend).length ≤ 2 := by
      unfold lampRecords
      split <;> split <;> simp
    have journal' : (exchangeOver l x (.valid frame) s).journal = s.journal := journal
    have tick' : (exchangeOver l x (.valid frame) s).tickCount = s.tickCount := tick
    have logs := changes.logs ⟨(congrArg Journal.state journal).trans writing, (congrArg AreaController.memoryFault area).trans clear,
      by rw [journal']; omega⟩
    rw [logs, journal', tick', List.map_append, lampLog_eq, lampLog_eq, List.append_assoc]

theorem StationReplied.recomputeLamps {call attend : Lamp} (h : StationReplied l x d b call attend frame s t) :
    StationReplied l x d b call attend frame s (recomputeLamps t) := by
  obtain ⟨e, v, drop, gap, misses, state, upBit, strikes, lamps, called, attended, rest⟩ := h
  refine ⟨e.relit t, _, by rw [drop?_recomputeLamps, drop]; rfl, by rw [line_recomputeLamps]; exact gap, misses, state, upBit, strikes,
    congrArg (Option.map _) lamps, ?_, ?_, rest⟩
  · dsimp only
    rw [called]
  · dsimp only
    rw [attended]

/-! ## The reports, and the end of the exchange -/

theorem endExchange_valid_tasks (poll : x.isProbe = false) (at' : drop? s l x.address = some d) :
    (endExchange l x (.valid frame) s).2
      = (if replyUpBit frame = d.upBit then [] else reportTasks l x.address d frame) ++ [.lineNext l] := by
  have polled : drop? (exchangeOver l x (.valid frame) s) l x.address = some (d.over false) := drop?_exchangeOver at' (.valid frame)
  rw [endExchange_poll poll]
  dsimp only
  rw [endPoll_valid polled]
  by_cases old : replyUpBit frame = d.upBit
  · rw [if_pos old, deliverReports_old (d := d.over false) old]
  · rw [if_neg old, deliverReports_new (d := d.over false) old]
    rfl

/-- What the end of the event reads is as before. -/
structure EventRuns (l : LineId) (s t : State) : Prop where
  agenda : t.agenda = s.agenda
  engine : t.engine = s.engine
  restart : (t.line l).restart = (s.line l).restart

theorem ChangesDrop.eventRuns {f : Drop → Drop} {ev : BitVec 14} {rs : List JournalRecord} (h : ChangesDrop l a f ev rs s t) :
    EventRuns l s t := ⟨h.agenda, h.engine, by rw [h.line]; rfl⟩

theorem EventRuns.trans (h : EventRuns l s t) (k : EventRuns l t u) : EventRuns l s u :=
  ⟨k.agenda.trans h.agenda, k.engine.trans h.engine, k.restart.trans h.restart⟩

theorem eventRuns_exchangeOver (at' : drop? s l x.address = some d) (o : Outcome) : EventRuns l s (exchangeOver l x o s) := by
  obtain ⟨-, -, restart, -, -, agenda, engine, -⟩ := exchange_over l x.address (o == .strike) s d at'
  exact ⟨agenda, engine, restart⟩

theorem eventRuns_transmitter (poll : x.isProbe = false) (at' : drop? s l x.address = some d) (transmitter : d.kind = .transmitter) :
    EventRuns l s (endExchange l x (.valid frame) s).1 := by
  have shape := afterTake_shape l x d frame s
  have here : drop? (afterTake l x d frame s) l x.address = some d := by rw [shape]; exact at'
  have taken : EventRuns l s (afterTake l x d frame s) := by
    rw [shape]
    exact ⟨rfl, rfl, rfl⟩
  rw [transmitter_replies poll at' transmitter]
  exact (taken.trans (eventRuns_exchangeOver here _)).trans (changesDrop_modDrop l x.address _ _).eventRuns

theorem eventRuns_station (poll : x.isProbe = false) (at' : drop? s l x.address = some d) (kind : d.kind = .station)
    (station : d.station = some b) : EventRuns l s (endExchange l x (.valid frame) s).1 := by
  have polled : drop? (exchangeOver l x (.valid frame) s) l x.address = some (d.over false) := drop?_exchangeOver at' (.valid frame)
  rw [endExchange_poll poll]
  exact (eventRuns_exchangeOver at' _).trans (station_replies (frame := frame) polled kind station).eventRuns

/-- With an up bit that is not new the exchange comes to rest. -/
theorem finish_valid (agenda : s.agenda = []) (engine : s.engine ≠ .stopping) (restart : (s.line l).restart = none)
    (poll : x.isProbe = false) (at' : drop? s l x.address = some d) (old : replyUpBit frame = d.upBit)
    (runs : EventRuns l s (endExchange l x (.valid frame) s).1) :
    finish (endExchange l x (.valid frame) s) = recomputeLamps (endExchange l x (.valid frame) s).1 := by
  have tasks : (endExchange l x (.valid frame) s).2 = [.lineNext l] := by
    rw [endExchange_valid_tasks poll at', if_pos old]
    rfl
  rw [← finish_line _ l (runs.agenda.trans agenda) (runs.restart.trans restart) (by rw [runs.engine]; exact engine), ← tasks]

/-- The readback of a lamp leaves a drop at the address. -/
theorem drop?_readback (at' : drop? s l a = some d) (id : LampId) (same lit : Bool) :
    ∃ e, drop? (readback l a id same lit s) l a = some e := by
  cases station : d.station with
  | some b => exact ⟨_, (changesDrop_readback at' station id same lit).drop at'⟩
  | none =>
    refine ⟨d, ?_⟩
    unfold readback
    rw [at', Option.bind_some, station]
    exact at'

/-- A new up bit is accepted, whatever the kind of the drop (R133). -/
theorem accepts_upBit (poll : x.isProbe = false) (at' : drop? s l x.address = some d) (new : replyUpBit frame ≠ d.upBit) :
    ∃ e, drop? (endExchange l x (.valid frame) s).1 l x.address = some e ∧ e.upBit = replyUpBit frame := by
  by_cases transmitter : d.kind = .transmitter
  · obtain ⟨e, here, -, -, -, -, -, upBit, -⟩ := transmitterReplied (frame := frame) poll at' transmitter
    exact ⟨e, here, upBit⟩
  · have polled : drop? (exchangeOver l x (.valid frame) s) l x.address = some (d.over false) := drop?_exchangeOver at' (.valid frame)
    have missed := (changesDrop_modDrop l x.address (fun d => { d with misses := 0 }) _).drop polled
    obtain ⟨e, called⟩ := drop?_readback missed .call x.sameCall (replySeenLit frame .call)
    obtain ⟨e', attended⟩ := drop?_readback called .attend x.sameAttend (replySeenLit frame .attend)
    have status (u : State) : applyStatus l x (d.over false) frame u = readback l x.address .attend x.sameAttend
        (replySeenLit frame .attend) (readback l x.address .call x.sameCall (replySeenLit frame .call) u) :=
      if_neg (by simpa [Drop.isTransmitter, Drop.over] using transmitter)
    rw [endExchange_poll poll]
    dsimp only
    rw [endPoll_valid polled, deliverReports_new (d := d.over false) new, status, drop?_modDrop_same, attended]
    exact ⟨_, rfl, rfl⟩

/-! ## Settled -/

/-- The lamps in the words of the reply. -/
theorem StationReplied.of_reply (h : StationReplied l x d b
      (b.call.replied x.sameCall (replySeenLit (frame.take (replyLength frame)) .call))
      (b.attend.replied x.sameAttend (replySeenLit (frame.take (replyLength frame)) .attend)) (frame.take (replyLength frame)) s t) :
    StationReplied l x d b (b.call.replied x.sameCall (bitOf (byteAt frame 4) 0))
      (b.attend.replied x.sameAttend (bitOf (byteAt frame 4) 1)) frame s t := by
  obtain ⟨call, attend⟩ := replySeenLit_reply frame
  rw [call, attend] at h
  simpa only [StationReplied, replyUpBit_reply] using h

/-- Settles O47: the reply by the kind of its drop, and then a message on air. -/
theorem validReplyTakesTheSet : Obligations.ValidReplyTakesTheSet := by
  unfold Obligations.ValidReplyTakesTheSet
  refine ⟨?_, ?_⟩
  · intro s l x d frame agenda engine restart receiving poll at' sync reply isTaken ofTransmitter ofStation
    have transmitter (kind : d.kind = .transmitter) : ofTransmitter (endExchange l x (.valid reply) s).1
        ∧ ofTransmitter (recomputeLamps (endExchange l x (.valid reply) s).1) :=
      have replied := transmitterReplied (frame := reply) poll at' kind
      ⟨replied.of_reply, replied.recomputeLamps.of_reply⟩
    have station (b : Station) (kind : d.kind = .station) (here : d.station = some b) : ofStation b (endExchange l x (.valid reply) s).1
        ∧ ofStation b (recomputeLamps (endExchange l x (.valid reply) s).1) :=
      have replied := stationReplied (frame := reply) poll at' kind here
      ⟨replied.of_reply, replied.recomputeLamps.of_reply⟩
    refine ⟨fun short => replyComplete_short receiving sync short, fun whole judged => ?_⟩
    have ends := replyComplete_judged at' receiving sync whole judged
    refine ⟨fun old => ?_, fun new => ?_⟩
    · have rests (runs : EventRuns l s (endExchange l x (.valid reply) s).1) : exec (.replyComplete l frame) s
          = .next (recomputeLamps (endExchange l x (.valid reply) s).1) :=
        ends.trans (congrArg _ (finish_valid agenda engine restart poll at' ((replyUpBit_reply frame).trans old) runs))
      exact ⟨fun kind => ⟨_, rests (eventRuns_transmitter poll at' kind), (transmitter kind).2⟩,
        fun b kind here => ⟨_, rests (eventRuns_station poll at' kind here), (station b kind here).2⟩⟩
    · have new' : replyUpBit reply ≠ d.upBit := by rwa [replyUpBit_reply]
      refine ⟨ends, accepts_upBit poll at' new', fun kind => (transmitter kind).1, fun b kind here => (station b kind here).1, ?_⟩
      rw [endExchange_valid_tasks poll at', if_neg new']
      rfl
  · intro s l a e v
    refine ⟨fun p f w carries => onAir_control carries, fun n st carries => ?_⟩
    intro isAt
    refine ⟨onAir_gone l a carries, fun r here at' => ?_⟩
    have takes := takesCopy carries here at'
    refine ⟨takes.shape, takes.own, takes.others, takes.quiet, fun idle page live writing clear fits => ?_⟩
    rw [takes.paged idle page ⟨writing, clear, fits⟩, pagedRecord, tagRecord, if_pos live]
    rfl

end Sys2Proof.Machine

/-! # Proofs: in-flight sets, frames and waiting restarts (R122, R130, R137, R140, 12.8) -/

namespace Sys2Proof.Machine

variable {s t u v : State} {l : LineId} {x : Exchange} {a : Nat} {d e : Drop} {b : Station} {n : Line}

/-! ## Filling a set (R130) -/

/-- No message is larger than 40 bytes, so within 40 bytes for each place the places alone limit a set. -/
theorem fillSet_eq_take {limit budget : Nat} (fits : 40 * limit ≤ budget) (queue : List AirEntry) :
    fillSet limit budget queue = queue.take limit := by
  induction queue generalizing limit budget with
  | nil => rw [fillSet, List.take_nil]
  | cons e rest ih =>
    cases limit with
    | zero => rfl
    | succ k =>
      have size : messageSize e.message ≤ 40 := by unfold messageSize; split <;> decide
      rw [fillSet, if_pos (by omega), ih (by omega), List.take_succ_cons]

/-! ## The layout of a down frame (R127, 12.8) -/

theorem length_messageBytes (m : Message) : (messageBytes m).length = if m.kind = .page then 40 else 12 := by
  unfold messageBytes
  by_cases page : m.kind = .page
  · simp [page, bytes24, bytes16, wordBytes, bytes32]
  · simp [page, bytes24, bytes16, wordBytes, bytes32]

theorem byteAt_append (before after : List Byte) (i : Nat) : byteAt (before ++ after) (before.length + i) = byteAt after i := by
  rw [byteAt, List.getD_append_right _ _ _ _ (by omega), Nat.add_sub_cancel_left, byteAt]

/-- A 16-bit field reads as it was written. -/
theorem le16_bytes16 (before : List Byte) {k : Nat} (fits : k < 65536) : le16 (before ++ bytes16 k) before.length = k := by
  have low : byteAt (bytes16 k) 0 = k % 256 := rfl
  have high : byteAt (bytes16 k) 1 = k / 256 % 256 := rfl
  have first := byteAt_append before (bytes16 k) 0
  rw [Nat.add_zero] at first
  rw [le16, first, byteAt_append, low, high]
  omega

theorem downFrame_layout {command address : Nat} (down up : Bool) (lamps : Byte) {messages : List Message}
    (hcommand : command < 4) (haddress : address < 256) (hcount : messages.length < 256) :
    let body := messages.flatMap messageBytes
    let f := downFrame command address down up lamps messages
    f.length = 8 + body.length ∧ f.take 2 = [0xC3, 0x5A] ∧ byteAt f 2 = address
      ∧ byteAt f 3 = command + (if down then 16 else 0) + (if up then 32 else 0) ∧ f[4]? = some lamps
      ∧ byteAt f 5 = messages.length ∧ (f.drop 6).take body.length = body
      ∧ le16 f (6 + body.length) = (crc16 ((f.drop 2).take (4 + body.length))).toNat := by
  intro body f
  let named : List Byte := [byteOf address, commandByte command down up, lamps, byteOf messages.length] ++ body
  have is : f = [0xC3#8, 0x5A#8] ++ named ++ bytes16 (crc16 named).toNat := rfl
  have size : named.length = 4 + body.length := by rw [List.length_append]; rfl
  have crced : (f.drop 2).take (4 + body.length) = named := by
    rw [is, List.append_assoc]
    exact List.take_left' size
  refine ⟨?_, rfl, Nat.mod_eq_of_lt haddress, ?_, rfl, Nat.mod_eq_of_lt hcount, List.take_left' rfl, ?_⟩
  · rw [is, List.length_append, List.length_append, size]
    show 2 + (4 + body.length) + 2 = _
    omega
  · refine Nat.mod_eq_of_lt (?_ : _ < 256)
    split <;> split <;> omega
  · have before : ([0xC3#8, 0x5A#8] ++ named).length = 6 + body.length := by
      rw [List.length_append, size]
      show 2 + (4 + body.length) = _
      omega
    rw [crced, ← before]
    exact le16_bytes16 _ (crc16 named).isLt

/-! ## The sent commands of a drop that leaves READY (R140) -/

theorem enter_station (new : DropState) (cause : DropCause) (d : Drop) : (d.enter new cause).station
    = if d.state = .ready then d.station.map fun u => { call := u.call.forget, attend := u.attend.forget } else d.station := by
  unfold Drop.enter
  by_cases ready : d.state = .ready <;> simp [Drop.markDirty, ready]

/-! ## After an exchange (R137) -/

theorem endExchange_lineNext (l : LineId) (x : Exchange) (o : Outcome) (s : State) :
    (endExchange l x o s).2.getLast? = some (.lineNext l) := List.getLast?_concat

theorem lineNext_none (none : (s.line l).restart = none) : perform (.lineNext l) s = (s, []) := by
  show lineNext l s = _
  unfold lineNext
  rw [none]

theorem lineNext_some {r : Restart} (some : (s.line l).restart = some r) : perform (.lineNext l) s = beginRestart l r s := by
  show lineNext l s = _
  unfold lineNext
  rw [some]

theorem inMask_iff (d : Drop) : d.inMask = true ↔ d.kind ≠ .unused ∧ d.state ≠ .isolated := by
  simp [Drop.inMask]

end Sys2Proof.Machine

/-! # Proofs: the beginning of an exchange (R124, R126, R127, R130, R144, R145) -/

namespace Sys2Proof.Machine

variable {s t u v : State} {l : LineId} {x : Exchange} {a : Nat} {d e : Drop} {b : Station} {n : Line} {probe : Bool}

/-! ## The lamps of a frame (R144, R145) -/

/-- From `d` to `e` the lamps of a station are those of the frame of `x`. -/
def AreSent (d e : Drop) (x : Exchange) : Prop :=
  (d.station = none → e.station = none ∧ d.lampByte = 0)
  ∧ ∀ u, d.station = some u → ∃ v, e.station = some v
    ∧ v.call = { u.call.send with commanded := v.call.commanded }
    ∧ v.attend = { u.attend.send with commanded := v.attend.commanded }
    ∧ d.lampByte.toNat = u.call.commanded.code + (if u.attend.commanded = .off then 0 else 4)
    ∧ (x.sameCall = true ↔ u.call.sent = some u.call.commanded)
    ∧ (x.sameAttend = true ↔ u.attend.sent = some u.attend.commanded)

theorem lampByte_toNat (call attend : LampCommand) :
    (Machine.lampByte call attend).toNat = call.code + if attend = .off then 0 else 4 := by
  cases call <;> cases attend <;> rfl

theorem lampByte_eq (same : e.station = d.station) : e.lampByte = d.lampByte := by
  rw [Drop.lampByte, same, Drop.lampByte]

theorem areSent (same : e.station = d.station) (u : State) (address : Nat) (probe : Bool) :
    AreSent d (e.sendLamps.relit u) (e.exchange address probe) := by
  unfold AreSent Drop.relit Drop.sendLamps Drop.exchange
  rw [same]
  cases station : d.station with
  | none =>
    refine ⟨fun _ => ⟨rfl, ?_⟩, fun b some => by cases some⟩
    rw [Drop.lampByte, station]
  | some b =>
    refine ⟨fun none => absurd none (Option.some_ne_none b), fun b' some => ?_⟩
    cases some
    refine ⟨_, rfl, rfl, rfl, ?_, ?_, ?_⟩
    · rw [Drop.lampByte, station]
      exact lampByte_toNat ..
    · exact beq_iff_eq
    · exact beq_iff_eq

/-! ## What the beginning of an exchange keeps -/

/-- The calls, the attention, and what the end of the event reads are as before. -/
structure BeginKeeps (s t : State) : Prop where
  calls : t.calls = s.calls
  attention : t.attention = s.attention
  agenda : t.agenda = s.agenda
  engine : t.engine = s.engine

theorem BeginKeeps.trans (h : BeginKeeps s t) (k : BeginKeeps t u) : BeginKeeps s u :=
  ⟨k.calls.trans h.calls, k.attention.trans h.attention, k.agenda.trans h.agenda, k.engine.trans h.engine⟩

theorem beginKeeps_modLine (l : LineId) (f : Line → Line) (s : State) : BeginKeeps s (s.modLine l f) := by
  cases l <;> exact ⟨rfl, rfl, rfl, rfl⟩

theorem BeginKeeps.finish_nil (h : BeginKeeps s t) (agenda : s.agenda = []) (engine : s.engine ≠ .stopping) :
    finish (t, []) = recomputeLamps t :=
  Machine.finish_nil t (h.agenda.trans agenda) (by rw [h.engine]; exact engine)

/-! ## The frame -/

theorem sendFrame_eq (at' : drop? s l a = some d) : sendFrame l a probe s
    = (modDrop l a Drop.sendLamps s).modLine l fun n => { n with phase := .sending (d.exchange a probe) } := by
  unfold sendFrame
  rw [at']

/-- What an exchange begins with, from a state in which its drop is `d`. -/
structure ExchangeBegins (l : LineId) (a : Nat) (probe : Bool) (d : Drop) (s t : State) : Prop where
  drop : ∃ u, drop? t l a = some (d.sendLamps.relit u)
  phase : (t.line l).phase = .sending (d.exchange a probe)
  position : (t.line l).pollPosition = (s.line l).pollPosition
  calls : t.calls = s.calls
  attention : t.attention = s.attention

theorem exchangeBegins (at' : drop? s l a = some d) (agenda : s.agenda = []) (engine : s.engine ≠ .stopping) :
    ExchangeBegins l a probe d s (finish (sendFrame l a probe s, [])) := by
  have keeps : BeginKeeps s (sendFrame l a probe s) := by
    rw [sendFrame_eq at']
    exact (beginKeeps_modLine l _ s).trans (beginKeeps_modLine l _ _)
  have sent : drop? (sendFrame l a probe s) l a = some d.sendLamps := by
    rw [sendFrame_eq at', drop?_modLine_same _ _ _ rfl, drop?_modDrop_same, at']
    rfl
  rw [keeps.finish_nil agenda engine]
  refine ⟨⟨sendFrame l a probe s, by rw [drop?_recomputeLamps, sent]; rfl⟩, ?_, ?_, keeps.calls, keeps.attention⟩
  · rw [line_recomputeLamps, sendFrame_eq at', State.line_modLine_same]
  · rw [line_recomputeLamps, sendFrame_eq at', State.line_modLine_same, line_modDrop_same]
    rfl

/-! ## The set of a POLL (R130, R132) -/

/-- The drop as its POLL finds it: an empty set of a transmitter is filled from the head of its queue. -/
def Drop.filled (paused : Bool) (d : Drop) : Drop :=
  let taken := fillSet (min 4 d.room) 160 (d.queue.filter (AirEntry.offered paused))
  if d.kind = .transmitter ∧ d.inFlight = [] then { d with inFlight := taken, queue := withoutTaken taken d.queue } else d

theorem filled_kept (paused : Bool) (frozen : d.kind ≠ .transmitter ∨ d.inFlight ≠ []) : d.filled paused = d :=
  if_neg fun ⟨transmitter, empty⟩ => frozen.elim (absurd transmitter) (absurd empty)

theorem filled_station (paused : Bool) (d : Drop) : (d.filled paused).station = d.station := by
  unfold Drop.filled
  dsimp only
  split <;> rfl

theorem filled_bits (paused : Bool) (d : Drop) : (d.filled paused).downBit = d.downBit ∧ (d.filled paused).upBit = d.upBit := by
  unfold Drop.filled
  dsimp only
  split <;> exact ⟨rfl, rfl⟩

/-- The copies that a set carries are a matter of the Dispatcher alone. -/
theorem copiesInFlight_shape (l : LineId) (a : Nat) (set : List AirEntry) (s : State) :
    let v := set.foldl (fun s e => copyInFlight l a e s) s
    v = { s with dispatcher := v.dispatcher } := by
  induction set generalizing s with
  | nil => rfl
  | cons e rest ih =>
    have first : copyInFlight l a e s = { s with dispatcher := (copyInFlight l a e s).dispatcher } := by
      unfold copyInFlight
      split <;> rfl
    have rests := ih (copyInFlight l a e s)
    dsimp only [List.foldl_cons] at rests ⊢
    generalize rest.foldl (fun s e => copyInFlight l a e s) (copyInFlight l a e s) = v at *
    rw [rests, first]

theorem fillInFlight_keeps (at' : drop? s l a = some d) :
    drop? (fillInFlight l a s) l a = some (d.filled (s.engine == .paused))
      ∧ ((fillInFlight l a s).line l).pollPosition = (s.line l).pollPosition ∧ BeginKeeps s (fillInFlight l a s) := by
  unfold fillInFlight Drop.isTransmitter
  rw [at']
  by_cases fills : d.kind = .transmitter ∧ d.inFlight = []
  · dsimp only
    rw [if_neg (by simp [fills.1, fills.2]), Drop.filled, if_pos fills]
    generalize fillSet (min 4 d.room) 160 (d.queue.filter (AirEntry.offered (s.engine == .paused))) = taken
    have shape := copiesInFlight_shape l a taken
      (modDrop l a (fun d => { d with inFlight := taken, queue := withoutTaken taken d.queue }) s)
    dsimp only at shape
    rw [shape]
    have keeps := beginKeeps_modLine l (Line.modDrop a fun d => { d with inFlight := taken, queue := withoutTaken taken d.queue }) s
    refine ⟨?_, ?_, keeps.calls, keeps.attention, keeps.agenda, keeps.engine⟩
    · show drop? (modDrop l a (fun d => { d with inFlight := taken, queue := withoutTaken taken d.queue }) s) l a = _
      rw [drop?_modDrop_same, at']
      rfl
    · cases l <;> rfl
  · have frozen : (!d.kind == .transmitter || !d.inFlight.isEmpty) = true := by simpa [imp_iff_not_or] using fills
    dsimp only
    rw [if_pos (by simpa using frozen), Drop.filled, if_neg fills]
    exact ⟨at', rfl, rfl, rfl, rfl, rfl⟩

theorem setPollPosition_keeps (at' : drop? s l a = some d) (position : Nat) :
    drop? (setPollPosition l position s) l a = some d ∧ ((setPollPosition l position s).line l).pollPosition = position
      ∧ BeginKeeps s (setPollPosition l position s) := by
  refine ⟨(drop?_modLine_same _ _ _ (by rfl) a).trans at', ?_, beginKeeps_modLine l _ s⟩
  rw [setPollPosition, State.line_modLine_same]

section
variable (agenda : s.agenda = []) (engine : s.engine ≠ .stopping) (running : (s.line l).state = .running) (gap : (s.line l).phase = .gap)
include agenda engine running gap

/-- The chosen POLL begins. -/
theorem poll_begins (chosen : chooseExchange (s.line l) = .poll a) (at' : drop? s l a = some d) :
    ∃ t, exec (.exchangeStart l) s = .next t ∧ (t.line l).pollPosition = a
      ∧ (∃ u, drop? t l a = some ((d.filled (s.engine == .paused)).sendLamps.relit u))
      ∧ (t.line l).phase = .sending ((d.filled (s.engine == .paused)).exchange a false)
      ∧ t.calls = s.calls ∧ t.attention = s.attention := by
  obtain ⟨here, position, first⟩ := setPollPosition_keeps at' a
  obtain ⟨filled, position', second⟩ := fillInFlight_keeps here
  have keeps := first.trans second
  have begins := exchangeBegins (probe := false) filled (keeps.agenda.trans agenda) (by rw [keeps.engine]; exact engine)
  have is : beginExchange l s = sendFrame l a false (fillInFlight l a (setPollPosition l a s)) := by
    unfold beginExchange
    rw [chosen]
    rfl
  rw [first.engine] at begins
  refine ⟨_, (exchangeStart_running running gap).trans (by rw [is]), begins.position.trans (position'.trans position), begins.drop,
    begins.phase, begins.calls.trans keeps.calls, begins.attention.trans keeps.attention⟩

/-- The drop as its probe finds it: the bits at their starting values, and a SILENT drop's countdown at 32 (R124, log 40). -/
def Drop.probing (d : Drop) : Drop :=
  { d with downBit := false, upBit := true, countdown := if d.state = .silent then Config.probeSpacing else d.countdown }

/-- The chosen probe begins. -/
theorem probe_begins {moves : Bool} (chosen : chooseExchange (s.line l) = .probe a moves) (at' : drop? s l a = some d) :
    ∃ t, exec (.exchangeStart l) s = .next t ∧ (t.line l).pollPosition = (if moves then a else (s.line l).pollPosition)
      ∧ (∃ u, drop? t l a = some (d.probing.sendLamps.relit u)) ∧ (t.line l).phase = .sending (d.probing.exchange a true)
      ∧ t.calls = s.calls ∧ t.attention = s.attention := by
  have moved : ∃ w, (if moves then setPollPosition l a s else s) = w ∧ drop? w l a = some d
      ∧ (w.line l).pollPosition = (if moves then a else (s.line l).pollPosition) ∧ BeginKeeps s w := by
    cases moves
    · exact ⟨s, rfl, at', rfl, rfl, rfl, rfl, rfl⟩
    · exact ⟨_, rfl, setPollPosition_keeps at' a⟩
  obtain ⟨w, isMoved, here, position, first⟩ := moved
  have second : BeginKeeps w (modDrop l a Drop.probing w) := beginKeeps_modLine l _ w
  have probing : drop? (modDrop l a Drop.probing w) l a = some d.probing := by rw [drop?_modDrop_same, here]; rfl
  have keeps := first.trans second
  have begins := exchangeBegins (probe := true) probing (keeps.agenda.trans agenda) (by rw [keeps.engine]; exact engine)
  have is : beginExchange l s = sendFrame l a true (modDrop l a Drop.probing w) := by
    unfold beginExchange
    rw [chosen, ← isMoved]
    rfl
  refine ⟨_, (exchangeStart_running running gap).trans (by rw [is]), begins.position.trans ?_, begins.drop,
    begins.phase, begins.calls.trans keeps.calls, begins.attention.trans keeps.attention⟩
  rw [line_modDrop_same]
  exact position

/-- An empty slot begins. -/
theorem emptySlot_begins (chosen : chooseExchange (s.line l) = .empty) : ∃ t, exec (.exchangeStart l) s = .next t
    ∧ (t.line l).phase = .emptySlot ∧ (t.line l).pollPosition = (s.line l).pollPosition ∧ t.calls = s.calls
    ∧ t.attention = s.attention := by
  have is : beginExchange l s = s.modLine l fun n => { n with phase := .emptySlot } := by
    unfold beginExchange
    rw [chosen]
  have keeps := beginKeeps_modLine l (fun n => { n with phase := .emptySlot }) s
  have next : exec (.exchangeStart l) s = .next (recomputeLamps (s.modLine l fun n => { n with phase := .emptySlot })) := by
    rw [exchangeStart_running running gap, is, keeps.finish_nil agenda engine]
  refine ⟨_, next, ?_, ?_, keeps.calls, keeps.attention⟩
  · rw [line_recomputeLamps, State.line_modLine_same]
  · rw [line_recomputeLamps, State.line_modLine_same]

end

end Sys2Proof.Machine

/-! # Proofs: the end of an empty slot, and the restart that waits for it (R121, R122, R126, R137) -/

namespace Sys2Proof.Machine

variable {s t u v : State} {l : LineId} {a : Nat} {d e : Drop} {n : Line}

/-! ## The end of an empty slot (R126) -/

/-- A SILENT drop's countdown is lowered. -/
def Drop.lowered (d : Drop) : Drop := if d.state = .silent then { d with countdown := d.countdown - 1 } else d

theorem lowered_state (d : Drop) : d.lowered.state = d.state := by unfold Drop.lowered; split <;> rfl
theorem lowered_kind (d : Drop) : d.lowered.kind = d.kind := by unfold Drop.lowered; split <;> rfl
theorem lowered_countdown (d : Drop) : d.lowered.countdown = if d.state = .silent then d.countdown - 1 else d.countdown := by
  unfold Drop.lowered
  split <;> rfl

/-- The state in which an empty slot has ended. -/
def slotOver (l : LineId) (s : State) : State := s.modLine l fun n => { n with phase := .gap, drops := n.drops.map Drop.lowered }

theorem endEmptySlot_eq (l : LineId) (s : State) : endEmptySlot l s = (slotOver l s, [.lineNext l]) := by cases l <;> rfl

theorem line_slotOver (l : LineId) (s : State) : (slotOver l s).line l
    = { s.line l with phase := .gap, drops := (s.line l).drops.map Drop.lowered } := State.line_modLine_same ..

theorem drop?_slotOver (at' : drop? s l a = some d) : drop? (slotOver l s) l a = some d.lowered := by
  have lowers := drop?_modLine_map l (fun n => { n with phase := .gap, drops := n.drops.map Drop.lowered }) Drop.lowered s rfl a
  rw [at'] at lowers
  exact lowers

theorem slotOver_keeps (l : LineId) (s : State) : BeginKeeps s (slotOver l s) := beginKeeps_modLine l _ s

/-- The mask of a RESTART frame does not read the countdowns. -/
theorem dropMask_slotOver (l : LineId) (s : State) : dropMask ((slotOver l s).line l) = dropMask (s.line l) := by
  have same (d : Drop) : d.lowered.inMask = d.inMask := by rw [Drop.inMask, lowered_kind, lowered_state, Drop.inMask]
  rw [line_slotOver, dropMask, dropMask]
  simp only [List.zipIdx_map, List.map_map, Function.comp_def, Prod.map, same, id]

section
variable (agenda : s.agenda = []) (engine : s.engine ≠ .stopping) (slot : (s.line l).phase = .emptySlot)
include slot

theorem emptySlotEnd_slotOver : exec (.emptySlotEnd l) s = .next (finish (slotOver l s, [.lineNext l])) := by
  rw [emptySlotEnd_emptySlot slot, endEmptySlot_eq]

include agenda engine

theorem emptySlot_ends (restart : (s.line l).restart = none) : ∃ t, exec (.emptySlotEnd l) s = .next t ∧ (t.line l).phase = .gap
    ∧ (t.line l).state = (s.line l).state ∧ t.calls = s.calls ∧ t.attention = s.attention
    ∧ ∀ a d, drop? s l a = some d → ∃ e, drop? t l a = some e
      ∧ e.countdown = (if d.state = .silent then d.countdown - 1 else d.countdown) ∧ e.state = d.state := by
  have keeps := slotOver_keeps l s
  have rests := finish_line (slotOver l s) l (keeps.agenda.trans agenda) (by rw [line_slotOver]; exact restart)
    (by rw [keeps.engine]; exact engine)
  refine ⟨recomputeLamps (slotOver l s), (emptySlotEnd_slotOver slot).trans (congrArg _ rests), ?_, ?_, keeps.calls, keeps.attention,
    fun a d at' => ?_⟩
  · rw [line_recomputeLamps, line_slotOver]
  · rw [line_recomputeLamps, line_slotOver]
  · exact ⟨d.lowered.relit (slotOver l s), by rw [drop?_recomputeLamps, drop?_slotOver at']; rfl, lowered_countdown d, lowered_state d⟩

end

/-! ## The restart of a line without a READY drop (R121, R122) -/

/-- No drop of the line is READY. -/
def NoneReady (l : LineId) (s : State) : Prop := ∀ a d, drop? s l a = some d → d.state ≠ .ready

/-- Without a READY drop a cold restart hands nothing back, and UNKNOWN raises no cause. -/
theorem setDropState_unready (unready : NoneReady l s) (cause : DropCause) (a : Nat) :
    (setDropState l a .unknown cause s).2 = [] ∧ BeginKeeps s (setDropState l a .unknown cause s).1
      ∧ NoneReady l (setDropState l a .unknown cause s).1 := by
  cases at' : drop? s l a with
  | none =>
    have is : setDropState l a .unknown cause s = (s, []) := by
      unfold setDropState
      rw [at']
    rw [is]
    exact ⟨rfl, ⟨rfl, rfl, rfl, rfl⟩, unready⟩
  | some d =>
    have changes := changesDrop_setDropState .unknown cause at'
    refine ⟨?_, ⟨changes.calls, changes.attention.trans ?_, changes.agenda, changes.engine⟩, fun i e here => ?_⟩
    · rw [setDropState_handsBack _ _ at', handsBack_other (unready a d at')]
      rfl
    · rw [show DropState.raises .unknown = 0#14 from rfl, BitVec.or_zero]
    · by_cases own : i = a
      · subst own
        rw [changes.drop at'] at here
        cases here
        exact fun ready => by cases ready
      · rw [changes.others (ne_zero_of_drop at') (b := (l, i)) (fun eq => own (congrArg Prod.snd eq))] at here
        exact unready i e here

theorem setDropStates_unready (addresses : List Nat) {r : State × List Task} (unready : NoneReady l r.1) (nothing : r.2 = []) :
    let q := addresses.foldl (fun (r : State × List Task) a =>
      let q := setDropState l a .unknown .coldRestart r.1
      (q.1, r.2 ++ q.2)) r
    q.2 = [] ∧ BeginKeeps r.1 q.1 := by
  induction addresses generalizing r with
  | nil => exact ⟨nothing, rfl, rfl, rfl, rfl⟩
  | cons a rest ih =>
    obtain ⟨none, keeps, unready'⟩ := setDropState_unready unready .coldRestart a
    obtain ⟨none', keeps'⟩ := ih (r := ((setDropState l a .unknown .coldRestart r.1).1,
      r.2 ++ (setDropState l a .unknown .coldRestart r.1).2)) unready' (by rw [nothing, none]; rfl)
    exact ⟨none', keeps.trans keeps'⟩

/-- How a restart stands on its line when it has begun. -/
structure RestartBegins (l : LineId) (r : Restart) (s t : State) : Prop where
  state : (t.line l).state = .restarting
  restart : (t.line l).restart = none
  phase : (t.line l).phase = if r = .warm then .restartFrame (restartFrameBytes (dropMask (s.line l))) else .breaking
  keeps : BeginKeeps s t

theorem beginRestart_begins {r : Restart} (unready : r = .warm ∨ NoneReady l s) :
    (beginRestart l r s).2 = [] ∧ RestartBegins l r s (beginRestart l r s).1 := by
  cases r with
  | warm => exact ⟨rfl, by cases l <;> rfl, by cases l <;> rfl, by cases l <;> rfl, by cases l <;> exact ⟨rfl, rfl, rfl, rfl⟩⟩
  | cold =>
    have none := unready.resolve_left (by decide)
    obtain ⟨nothing, keeps⟩ := setDropStates_unready (r := (s, []))
      (lineAddresses.filter fun a => (drop? s l a).any (·.state.restarts)) none rfl
    exact ⟨nothing, by cases l <;> rfl, by cases l <;> rfl, by cases l <;> rfl, keeps.trans (by cases l <;> exact ⟨rfl, rfl, rfl, rfl⟩)⟩

theorem noneReady_slotOver (unready : ∀ d ∈ (s.line l).drops, d.state ≠ .ready) : NoneReady l (slotOver l s) := by
  intro a d at'
  have listed : d ∈ ((slotOver l s).line l).drops := by
    rw [drop?_eq] at at'
    split at at'
    · cases at'
    · exact List.mem_of_getElem? at'
  rw [line_slotOver] at listed
  obtain ⟨old, before, rfl⟩ := List.mem_map.1 listed
  rw [lowered_state]
  exact unready old before

theorem emptySlot_restarts (agenda : s.agenda = []) (engine : s.engine ≠ .stopping) (slot : (s.line l).phase = .emptySlot) {r : Restart}
    (restart : (s.line l).restart = some r) (unready : r = .warm ∨ ∀ d ∈ (s.line l).drops, d.state ≠ .ready) :
    ∃ t, exec (.emptySlotEnd l) s = .next t ∧ (t.line l).state = .restarting ∧ (t.line l).restart = none
      ∧ (t.line l).phase = (if r = .warm then .restartFrame (restartFrameBytes (dropMask (s.line l))) else .breaking)
      ∧ t.calls = s.calls ∧ t.attention = s.attention := by
  have slotKeeps := slotOver_keeps l s
  have next := lineNext_some (s := slotOver l s) (l := l) (by rw [line_slotOver]; exact restart)
  obtain ⟨nothing, begins⟩ := beginRestart_begins (l := l) (unready.imp_right noneReady_slotOver)
  have keeps := slotKeeps.trans begins.keeps
  have rests : finish (slotOver l s, [.lineNext l]) = recomputeLamps (beginRestart l r (slotOver l s)).1 := by
    rw [finish_one _ _ (slotKeeps.agenda.trans agenda) (by rw [next, nothing]), next]
    exact closeEvent_eq _ (by rw [keeps.engine]; exact engine)
  refine ⟨recomputeLamps (beginRestart l r (slotOver l s)).1, (emptySlotEnd_slotOver slot).trans (congrArg _ rests), ?_, ?_, ?_,
    keeps.calls, keeps.attention⟩
  · rw [line_recomputeLamps]
    exact begins.state
  · rw [line_recomputeLamps]
    exact begins.restart
  · rw [line_recomputeLamps, ← dropMask_slotOver]
    exact begins.phase

/-! ## Settled -/

/-- Settles O46: the set, the frame, the sent commands, the restart that waits, and the beginning and the end of each exchange. -/
theorem exchangeStartSendsTheChosenFrame : Obligations.ExchangeStartSendsTheChosenFrame := by
  unfold Obligations.ExchangeStartSendsTheChosenFrame
  refine ⟨fun n queue few => fillSet_eq_take (by omega) queue, ?_, ?_, fun s l x o => endExchange_lineNext l x o s, ?_, ?_⟩
  · intro command address down up lamps messages hcommand haddress hcount body f
    obtain ⟨length, sync, named, bits, lamp, count, payload, crc⟩ := downFrame_layout down up lamps hcommand haddress hcount
    refine ⟨length, sync, named, bits, lamp, count, payload, crc, ?_⟩
    rw [List.length_flatMap]
    exact congrArg List.sum (List.map_congr_left fun m _ => length_messageBytes m)
  · intro s l a new cause d at'
    refine ⟨d.enter new cause, (changesDrop_setDropState new cause at').drop at', rfl, fun other => ?_, fun ready => ?_⟩
    · rw [enter_station, if_neg other]
    · rw [enter_station, if_pos ready]
      rfl
  · refine fun s l => ⟨lineNext_none, lineNext_some, fun warm => (lineNext_some warm).trans ?_⟩
    have masked (d : Drop) : (if d.inMask then { d with downBit := false, upBit := true } else d)
        = if d.kind ≠ .unused ∧ d.state ≠ .isolated then { d with downBit := false, upBit := true } else d :=
      if_congr (inMask_iff d) rfl rfl
    simp only [beginRestart, warmRestart, masked]
  · intro s l agenda engine sent areSent'
    refine ⟨fun running gap => ⟨fun a d chosen at' => ?_, fun a moves d chosen at' => ?_,
      emptySlot_begins agenda engine running gap⟩, emptySlot_ends agenda engine, fun r slot restart => ?_⟩
    · obtain ⟨t, next, position, ⟨u, drop⟩, phase, calls, attention⟩ := poll_begins agenda engine running gap chosen at'
      have station := filled_station (s.engine == .paused) d
      obtain ⟨down, up⟩ := filled_bits (s.engine == .paused) d
      refine ⟨t, _, _, next, drop, phase, position, rfl, rfl, fun transmitter empty => ?_, fun frozen => ?_, ?_,
        areSent station u a false, calls, attention⟩
      · have is : d.filled (s.engine == .paused) = _ := if_pos ⟨transmitter, empty⟩
        exact ⟨congrArg Drop.inFlight is, by rw [is]; rfl⟩
      · have is := filled_kept (s.engine == .paused) frozen
        exact ⟨(congrArg Drop.inFlight is :), (congrArg Drop.queue is :)⟩
      · rw [Drop.exchange, down, up, lampByte_eq station]
        rfl
    · obtain ⟨t, next, position, ⟨u, drop⟩, phase, calls, attention⟩ := probe_begins agenda engine running gap chosen at'
      exact ⟨t, _, _, next, drop, phase, position, rfl, rfl, rfl, rfl, rfl, rfl, rfl, rfl, rfl, areSent rfl u a true, calls, attention⟩
    · exact ⟨emptySlotEnd_slotOver slot, emptySlot_restarts agenda engine slot restart⟩

end Sys2Proof.Machine
